-- ==== Sys2Proof/Word.lean ====
section
/-! DEFINITION. The word types of the Skalia J64 and their plainest arithmetic: bit n is the bit of weight 2^n (00 R3). -/

namespace Sys2Proof

/-- A 32-bit word: a lane of a vector register, a uniform register, a lane mask, an instruction word (04 R77). -/
abbrev Word := BitVec 32

/-- A 64-bit value: an even/odd pair of words (03 R58). -/
abbrev DWord := BitVec 64

/-- A virtual address of the one 55-bit virtual space (08 R161). -/
abbrev VA := BitVec 55

/-- One byte. -/
abbrev Byte := BitVec 8

/-- The word of low half `lo` and high half `hi` (03 R58). -/
abbrev pairOf (hi lo : Word) : DWord := hi ++ lo

/-- Bits [31:0] of a pair. -/
abbrev loWord (x : DWord) : Word := x.setWidth 32

/-- Bits [63:32] of a pair. -/
abbrev hiWord (x : DWord) : Word := x.extractLsb' 32 32

end Sys2Proof
end

