-- ==== Sys2Proof/Machine/Float.lean ====
section
/-! DEFINITION. Floating-point formats, exact values, rounding and the windowed sum (03 R54 to R72, 06 R121 to R131). -/

namespace Sys2Proof.Machine

/-- Exception flags in the order of `fflags` (02 R42): invalid [0], divide-by-zero [1], overflow [2], underflow [3], inexact [4]. -/
abbrev Flags := BitVec 5

/-- Invalid (03 R65). -/
def flInvalid : Flags := 1
/-- Divide-by-zero (03 R65). -/
def flDivZero : Flags := 2
/-- Overflow together with the inexact it always raises (03 R62). -/
def flOverflow : Flags := 0x14
/-- Underflow together with inexact (03 R63, R64). -/
def flUnderflow : Flags := 0x18
/-- Inexact (03 R65). -/
def flInexact : Flags := 0x10

/-- Rounding modes: the four of 03 R61 and code 5 of CVT (RNE with the saturating results of 03 R66). -/
inductive RMode where
  | rne | rz | rd | ru | sat
  deriving DecidableEq, Repr

/-- `tcr`[9:8] as a mode (02 R44). -/
def RMode.ofTcr (x : BitVec 2) : RMode :=
  if x = 0 then .rne else if x = 1 then .rz else if x = 2 then .rd else .ru

/-- Codes 1 to 4 of an HT rounding field (02 R35) and code 5 of CVT (02 R29). -/
def RMode.ofCode (n : Nat) : RMode :=
  if n = 1 then .rne else if n = 2 then .rz else if n = 3 then .rd else if n = 4 then .ru else .sat

/-- A floating-point format of 03 R54: field widths, and whether it has infinities (all but E4M3, 03 R55). -/
structure Fmt where
  exp : Nat
  frac : Nat
  hasInf : Bool
  deriving DecidableEq, Repr

namespace Fmt
/-- binary64 (03 R54). -/
def f64 : Fmt := ⟨11, 52, true⟩
/-- binary32 (03 R54). -/
def f32 : Fmt := ⟨8, 23, true⟩
/-- binary16 (03 R54). -/
def f16 : Fmt := ⟨5, 10, true⟩
/-- bfloat16 (03 R54). -/
def bf16 : Fmt := ⟨8, 7, true⟩
/-- E4M3 (03 R54, R55). -/
def e4m3 : Fmt := ⟨4, 3, false⟩
/-- E5M2 (03 R54). -/
def e5m2 : Fmt := ⟨5, 2, true⟩
end Fmt

/-- The exponent bias (03 R54). -/
def Fmt.bias (f : Fmt) : Nat := 2 ^ (f.exp - 1) - 1
/-- The width of an encoding. -/
def Fmt.width (f : Fmt) : Nat := 1 + f.exp + f.frac
/-- The exponent of the minimum normal (03 R54). -/
def Fmt.emin (f : Fmt) : Int := 1 - (f.bias : Int)
/-- The all-ones exponent field. -/
def Fmt.expMax (f : Fmt) : Nat := 2 ^ f.exp - 1
/-- The encoding of the maximum finite magnitude (03 R54). -/
def Fmt.maxFinite (f : Fmt) : Nat :=
  if f.hasInf then (f.expMax - 1) <<< f.frac + (2 ^ f.frac - 1) else f.expMax <<< f.frac + (2 ^ f.frac - 2)
/-- The encoding of +∞; E4M3 has none and gives its NaN instead (03 R66). -/
def Fmt.infBits (f : Fmt) : Nat :=
  if f.hasInf then f.expMax <<< f.frac else f.expMax <<< f.frac + (2 ^ f.frac - 1)
/-- The canonical NaN (03 R55). -/
def Fmt.canonNaN (f : Fmt) : Nat :=
  if f.hasInf then f.expMax <<< f.frac + 2 ^ (f.frac - 1) else f.infBits
/-- The sign bit placed for `neg`. -/
def Fmt.signBit (f : Fmt) (neg : Bool) : Nat := if neg then 2 ^ (f.exp + f.frac) else 0

/-- A value read from an encoding. A NaN keeps its fraction, left-aligned in 52 bits, and whether it signals (03 R55, R67).
A finite value is exact: magnitude `m · 2^e`. -/
inductive FVal where
  | nan (neg : Bool) (payload : Nat) (signalling : Bool)
  | inf (neg : Bool)
  | fin (neg : Bool) (m : Nat) (e : Int)
  deriving DecidableEq, Repr

/-- The value of an encoding (03 R54, R55); with `fz` a subnormal reads as zero of its sign (03 R64). -/
def FVal.read (f : Fmt) (fz : Bool) (x : Nat) : FVal :=
  let neg := x.testBit (f.exp + f.frac)
  let ex := (x >>> f.frac) % 2 ^ f.exp
  let fr := x % 2 ^ f.frac
  if ex = f.expMax ∧ f.hasInf then
    if fr = 0 then .inf neg else .nan neg (fr <<< (52 - f.frac)) (!fr.testBit (f.frac - 1))
  else if ex = f.expMax ∧ fr = 2 ^ f.frac - 1 then .nan neg (fr <<< (52 - f.frac)) false
  else if ex = 0 then
    if fz then .fin neg 0 0 else .fin neg fr (f.emin - f.frac)
  else .fin neg (2 ^ f.frac + fr) (f.emin - f.frac + ex - 1)

/-- A result: the encoding and the exceptions raised. -/
abbrev FRes := Nat × Flags

/-- A signed zero. -/
def zeroBits (f : Fmt) (neg : Bool) : Nat := f.signBit neg

/-- A quietened NaN in format `f` (03 R67). -/
def nanBits (f : Fmt) (neg : Bool) (payload : Nat) : Nat :=
  f.signBit neg +
    (if f.hasInf then
      (if f = Fmt.e5m2 then 0x7E
       else f.expMax <<< f.frac + ((payload >>> (52 - f.frac)) ||| 2 ^ (f.frac - 1)))
     else 0x7F)

/-- Does the mode round a magnitude with this sign away from zero when the remainder is `rem` of `2·half`? (03 R61) -/
def roundsUp (rm : RMode) (neg : Bool) (odd : Bool) (rem half : Nat) : Bool :=
  match rm with
  | .rne | .sat => half < rem || (rem == half && odd)
  | .rz => false
  | .rd => neg && rem != 0
  | .ru => !neg && rem != 0

/-- `m · 2^e` in units of `2^q`, rounded, and whether that was exact. -/
def roundAt (rm : RMode) (neg : Bool) (m : Nat) (e q : Int) : Nat × Bool :=
  if q ≤ e then (m <<< (e - q).toNat, true)
  else
    let sh := (q - e).toNat
    let n := m >>> sh
    let rem := m - n <<< sh
    if rem = 0 then (n, true)
    else (if roundsUp rm neg (n % 2 == 1) rem (1 <<< (sh - 1)) then n + 1 else n, false)

/-- The result of an overflow: 03 R62, and R66 for E4M3 and code 5. -/
def overflowRes (f : Fmt) (rm : RMode) (neg : Bool) : FRes :=
  match rm with
  | .sat => (f.signBit neg + f.maxFinite, flInexact)
  | .rz => (f.signBit neg + f.maxFinite, flOverflow)
  | .rd => (f.signBit neg + (if neg then f.infBits else f.maxFinite), flOverflow)
  | .ru => (f.signBit neg + (if neg then f.maxFinite else f.infBits), flOverflow)
  | .rne => (f.signBit neg + f.infBits, flOverflow)

/-- `Round` of the exact non-zero value `±m · 2^e` (03 R61 to R64, R66): tininess and overflow are judged after rounding with an
unbounded exponent. -/
def roundFin (f : Fmt) (rm : RMode) (fz : Bool) (neg : Bool) (m : Nat) (e : Int) : FRes :=
  if m = 0 then (zeroBits f neg, 0)
  else
    let lead : Int := e + (Nat.log2 m : Int)
    let q : Int := lead - f.frac
    let (n, exact) := roundAt rm neg m e q
    let carry := n == 2 ^ (f.frac + 1)
    let n := if carry then 2 ^ f.frac else n
    let lead := if carry then lead + 1 else lead
    if lead < f.emin then
      if fz then (zeroBits f neg, flUnderflow)
      else
        let (n, exact) := roundAt rm neg m e (f.emin - f.frac)
        (f.signBit neg + n, if exact then 0 else flUnderflow)
    else
      let bits := (lead + f.bias).toNat <<< f.frac + (n - 2 ^ f.frac)
      if f.maxFinite < bits then overflowRes f rm neg
      else (f.signBit neg + bits, if exact then 0 else flInexact)

/-- A magnitude strictly between `m · 2^e` and `(m + 1) · 2^e`, as an exact value that every rounding treats alike (03 R72). -/
def jam (m : Nat) (e : Int) : Nat × Int := (m <<< 64 + 1, e - 64)

/-- `roundFin` of a magnitude that exceeds `m · 2^e` by less than one unit when `sticky` (03 R72). -/
def roundSticky (f : Fmt) (rm : RMode) (fz neg : Bool) (m : Nat) (e : Int) (sticky : Bool) : FRes :=
  if sticky then roundFin f rm fz neg (jam m e).1 (jam m e).2 else roundFin f rm fz neg m e

/-- The flag of a signalling operand (03 R65). -/
def FVal.sigFlag : FVal → Flags
  | .nan _ _ true => flInvalid
  | _ => 0

/-- Is the value a NaN? -/
def FVal.isNaN : FVal → Bool
  | .nan .. => true
  | _ => false

/-- The NaN result of an operation on the operands in order, if any is a NaN (03 R67). -/
def firstNaN (f : Fmt) : List FVal → Option Nat
  | [] => none
  | .nan neg p _ :: _ => some (nanBits f neg p)
  | _ :: r => firstNaN f r

/-- The invalid flag of the signalling operands. -/
def sigFlags (xs : List FVal) : Flags := xs.foldl (fun a x => a ||| x.sigFlag) 0

/-- The signed integer `±m`. -/
def signedNat (neg : Bool) (m : Nat) : Int := if neg then -(m : Int) else m

/-- The exact sum of two finite values, rounded; the sign of a zero sum is 03 R68. -/
def addFin (f : Fmt) (rm : RMode) (fz : Bool) (n1 : Bool) (m1 : Nat) (e1 : Int) (n2 : Bool) (m2 : Nat) (e2 : Int) : FRes :=
  let e := if m1 = 0 then e2 else if m2 = 0 then e1 else min e1 e2
  let s := signedNat n1 (if m1 = 0 then 0 else m1 <<< (e1 - e).toNat) + signedNat n2 (if m2 = 0 then 0 else m2 <<< (e2 - e).toNat)
  if s = 0 then (zeroBits f (if n1 = n2 then n1 else rm = .rd), 0)
  else roundFin f rm fz (s < 0) s.natAbs e

/-- a + b (06 R123). -/
def fAdd (f : Fmt) (rm : RMode) (fz : Bool) (a b : FVal) : FRes :=
  match firstNaN f [a, b] with
  | some r => (r, sigFlags [a, b])
  | none =>
    match a, b with
    | .inf n1, .inf n2 => if n1 = n2 then (f.signBit n1 + f.infBits, 0) else (f.canonNaN, flInvalid)
    | .inf n, _ | _, .inf n => (f.signBit n + f.infBits, 0)
    | .fin n1 m1 e1, .fin n2 m2 e2 => addFin f rm fz n1 m1 e1 n2 m2 e2
    | _, _ => (f.canonNaN, flInvalid)

/-- −x; a NaN keeps its sign, which an arithmetic negation of an addend does not change (03 R67). -/
def FVal.neg : FVal → FVal
  | .inf n => .inf (!n)
  | .fin n m e => .fin (!n) m e
  | x => x

/-- The exact product of two values that are not NaNs; `none` for 0 · ∞. -/
def mulExact (a b : FVal) : Option FVal :=
  match a, b with
  | .inf n1, .inf n2 => some (.inf (n1 ^^ n2))
  | .inf n1, .fin n2 m _ | .fin n2 m _, .inf n1 => if m = 0 then none else some (.inf (n1 ^^ n2))
  | .fin n1 m1 e1, .fin n2 m2 e2 => some (.fin (n1 ^^ n2) (m1 * m2) (e1 + e2))
  | _, _ => none

/-- `Round` of a value that is not a NaN. -/
def roundVal (f : Fmt) (rm : RMode) (fz : Bool) : FVal → FRes
  | .inf n => (f.signBit n + f.infBits, 0)
  | .fin n m e => roundFin f rm fz n m e
  | .nan n p s => (nanBits f n p, if s then flInvalid else 0)

/-- a · b (06 R123). -/
def fMul (f : Fmt) (rm : RMode) (fz : Bool) (a b : FVal) : FRes :=
  match firstNaN f [a, b] with
  | some r => (r, sigFlags [a, b])
  | none =>
    match mulExact a b with
    | some v => roundVal f rm fz v
    | none => (f.canonNaN, flInvalid)

/-- a · b + c with one rounding (06 R123); 0 · ∞ + NaN gives the quietened addend and raises invalid (03 R67). -/
def fFma (f : Fmt) (rm : RMode) (fz : Bool) (a b c : FVal) : FRes :=
  let zi := !a.isNaN && !b.isNaN && mulExact a b == none
  match firstNaN f [a, b, c] with
  | some r => (r, sigFlags [a, b, c] ||| (if zi then flInvalid else 0))
  | none =>
    match mulExact a b with
    | some v => fAdd f rm fz v c
    | none => (f.canonNaN, flInvalid)

/-- Is x < y, for values that are not NaNs, with −0 = +0? -/
def FVal.lt : FVal → FVal → Bool
  | .inf n, .inf k => n && !k
  | .inf n, _ => n
  | _, .inf k => !k
  | .fin n1 m1 e1, .fin n2 m2 e2 =>
    let e := if m1 = 0 then e2 else if m2 = 0 then e1 else min e1 e2
    decide (signedNat n1 (if m1 = 0 then 0 else m1 <<< (e1 - e).toNat) < signedNat n2 (if m2 = 0 then 0 else m2 <<< (e2 - e).toNat))
  | _, _ => false

/-- The sign of a value. -/
def FVal.isNeg : FVal → Bool
  | .nan n _ _ | .inf n | .fin n _ _ => n

/-- Minimum (`mx = false`) and maximum of 03 R68: −0 lies below +0, and the result is an operand. -/
def fMinMax (f : Fmt) (mx : Bool) (a b : FVal) : FRes :=
  let fl := sigFlags [a, b]
  if a.isNaN && b.isNaN then (f.canonNaN, fl)
  else if a.isNaN then ((roundVal f .rne false b).1, fl)
  else if b.isNaN then ((roundVal f .rne false a).1, fl)
  else
    let less := if a.lt b then true else if b.lt a then false else a.isNeg && !b.isNeg
    ((roundVal f .rne false (if less = mx then b else a)).1, fl)

/-- a / b (06 R128, 03 R65). -/
def fDiv (f : Fmt) (rm : RMode) (fz : Bool) (a b : FVal) : FRes :=
  match firstNaN f [a, b] with
  | some r => (r, sigFlags [a, b])
  | none =>
    match a, b with
    | .inf _, .inf _ => (f.canonNaN, flInvalid)
    | .inf n1, .fin n2 _ _ => (f.signBit (n1 ^^ n2) + f.infBits, 0)
    | .fin n1 _ _, .inf n2 => (zeroBits f (n1 ^^ n2), 0)
    | .fin n1 m1 e1, .fin n2 m2 e2 =>
      if m2 = 0 then
        if m1 = 0 then (f.canonNaN, flInvalid) else (f.signBit (n1 ^^ n2) + f.infBits, flDivZero)
      else if m1 = 0 then (zeroBits f (n1 ^^ n2), 0)
      else
        let k := Nat.log2 m2 + f.frac + 4
        roundSticky f rm fz (n1 ^^ n2) ((m1 <<< k) / m2) (e1 - e2 - k) ((m1 <<< k) % m2 != 0)
    | _, _ => (f.canonNaN, flInvalid)

/-- 1 / a (06 R128). -/
def fRcp (f : Fmt) (rm : RMode) (fz : Bool) (a : FVal) : FRes := fDiv f rm fz (.fin false 1 0) a

/-- The floor of the square root of `n`, found bit by bit from bit `k - 1` down. -/
def isqrtFrom (n : Nat) : Nat → Nat → Nat
  | 0, r => r
  | k + 1, r => if (r + 1 <<< k) * (r + 1 <<< k) ≤ n then isqrtFrom n k (r + 1 <<< k) else isqrtFrom n k r

/-- The floor of the square root of `n`. -/
def isqrt (n : Nat) : Nat := isqrtFrom n (Nat.log2 n / 2 + 1) 0

/-- √a (06 R128). -/
def fSqrt (f : Fmt) (rm : RMode) (fz : Bool) (a : FVal) : FRes :=
  match a with
  | .nan n p s => (nanBits f n p, if s then flInvalid else 0)
  | .inf n => if n then (f.canonNaN, flInvalid) else (f.infBits, 0)
  | .fin n m e =>
    if m = 0 then (zeroBits f n, 0)
    else if n then (f.canonNaN, flInvalid)
    else
      let k := 2 * (f.frac + 4) + (e % 2).toNat
      let r := isqrt (m <<< k)
      roundSticky f rm fz false r ((e - k) / 2) (r * r != m <<< k)

/-- 1 / √a (06 R128). -/
def fRsq (f : Fmt) (rm : RMode) (fz : Bool) (a : FVal) : FRes :=
  match a with
  | .nan n p s => (nanBits f n p, if s then flInvalid else 0)
  | .inf n => if n then (f.canonNaN, flInvalid) else (0, 0)
  | .fin n m e =>
    if m = 0 then (f.signBit n + f.infBits, flDivZero)
    else if n then (f.canonNaN, flInvalid)
    else
      let k := 2 * (f.frac + 4) + 2 * Nat.log2 m + (e % 2).toNat
      let r := isqrt (2 ^ k / m)
      roundSticky f rm fz false r ((-e - k) / 2) (r * r * m != 2 ^ k)

/-- ln 2 in units of 2^-192, cut to an integer. -/
def ln2Fixed : Nat := 4350955369971217654477563090224794165364344896676135745069

/-- The terms x^k / k! of the exponential from the `i`-th on, in units of 2^-192. -/
def expTerms (x : Nat) : Nat → Nat → Nat → Nat → Nat
  | 0, _, _, acc => acc
  | n + 1, i, t, acc => expTerms x n (i + 1) (t * x / 2 ^ 192 / i) (acc + t * x / 2 ^ 192 / i)

/-- 2^(g / 2^192) in units of 2^-192, for 0 ≤ g < 2^192, to within far less than 2^-140. -/
def exp2Fixed (g : Nat) : Nat := expTerms (g * ln2Fixed / 2 ^ 192) 48 1 (2 ^ 192) (2 ^ 192)

/-- 2^a of binary32 (06 R128): an integral argument is exact, every other one is irrational and rounds from 192 fraction bits
(DEDUCED: no binary32 argument comes near enough to a rounding boundary for more bits to matter; notes/assumptions/10). -/
def fExp2 (f : Fmt) (rm : RMode) (fz : Bool) (a : FVal) : FRes :=
  match a with
  | .nan n p s => (nanBits f n p, if s then flInvalid else 0)
  | .inf n => if n then (0, 0) else (f.infBits, 0)
  | .fin n m e =>
    if m = 0 then roundFin f rm fz false 1 0
    else if 12 ≤ e + Nat.log2 m then roundFin f rm fz false 1 (if n then -2000 else 2000)
    else if 0 ≤ e then roundFin f rm fz false 1 (signedNat n (m <<< e.toNat))
    else
      let d : Nat := 2 ^ (-e).toNat
      let s := signedNat n m
      let whole := s / (d : Int)
      let part := (s % (d : Int)).toNat
      if part = 0 then roundFin f rm fz false 1 whole
      else roundSticky f rm fz false (exp2Fixed ((part <<< 192) / d)) (whole - 192) true

/-- The first `n` fraction bits of log2 of `y / 2^256`, where 2^256 ≤ y < 2^257, by repeated squaring. -/
def log2Bits : Nat → Nat → Nat → Nat
  | 0, _, acc => acc
  | n + 1, y, acc =>
    let z := y * y / 2 ^ 256
    if 2 ^ 257 ≤ z then log2Bits n (z / 2) (2 * acc + 1) else log2Bits n z (2 * acc)

/-- log2 a of binary32 (06 R128): a power of two is exact, every other argument has an irrational logarithm and rounds from 160 fraction
bits (DEDUCED as for `fExp2`; notes/assumptions/10). -/
def fLog2 (f : Fmt) (rm : RMode) (fz : Bool) (a : FVal) : FRes :=
  match a with
  | .nan n p s => (nanBits f n p, if s then flInvalid else 0)
  | .inf n => if n then (f.canonNaN, flInvalid) else (f.infBits, 0)
  | .fin n m e =>
    if m = 0 then (f.signBit true + f.infBits, flDivZero)
    else if n then (f.canonNaN, flInvalid)
    else
      let l := Nat.log2 m
      let whole : Int := e + l
      if m = 2 ^ l then roundFin f rm fz (whole < 0) whole.natAbs 0
      else
        let fr := log2Bits 160 (m <<< (256 - l)) 0
        let x : Int := whole * (2 ^ 160 : Int) + fr
        if 0 ≤ x then roundSticky f rm fz false x.toNat (-160) true
        else roundSticky f rm fz true (-x - 1).toNat (-160) true

/-- A finite value rounded to an integer under a mode, and whether it was integral already. -/
def toIntegral (rm : RMode) (neg : Bool) (m : Nat) (e : Int) : Nat × Bool := roundAt rm neg m e 0

/-- The integral value of `a` under `rm`; `inexact` says whether a change raises inexact (06 R128 fn 5 to 8). -/
def fIntegral (f : Fmt) (rm : RMode) (inexact : Bool) (a : FVal) : FRes :=
  match a with
  | .nan n p s => (nanBits f n p, if s then flInvalid else 0)
  | .inf n => (f.signBit n + f.infBits, 0)
  | .fin n m e =>
    let (k, exact) := toIntegral rm n m e
    ((roundFin f .rne false n k 0).1, if inexact && !exact then flInexact else 0)

/-- The class mask of `fclass.f32` (06 R129); a flushed subnormal classes as a zero. -/
def fClass (f : Fmt) (a : FVal) : FRes :=
  match a with
  | .nan _ _ s => (if s then 1 else 2, 0)
  | .inf n => (if n then 4 else 0x200, 0)
  | .fin n m e =>
    let normal := f.emin ≤ e + (Nat.log2 m : Int)
    (if m = 0 then (if n then 0x20 else 0x40)
     else if normal then (if n then 8 else 0x100) else (if n then 0x10 else 0x80), 0)

/-- The conditions of a compare (02 R29). -/
inductive Cond where
  | eq | ne | lt | le | gt | ge | ord | uno
  deriving DecidableEq, Repr

/-- The condition of a code 0 to 7. -/
def Cond.ofCode (n : Nat) : Cond :=
  match n with
  | 0 => .eq | 1 => .ne | 2 => .lt | 3 => .le | 4 => .gt | 5 => .ge | 6 => .ord | _ => .uno

/-- A floating-point compare and the invalid it may raise (05 R111). -/
def fCmp (c : Cond) (a b : FVal) : Bool × Flags :=
  let anyNaN := a.isNaN || b.isNaN
  let sig := sigFlags [a, b]
  let quietInv := if anyNaN then flInvalid else 0
  let eq := !a.lt b && !b.lt a
  match c with
  | .eq => (!anyNaN && eq, sig)
  | .ne => (anyNaN || !eq, sig)
  | .lt => (!anyNaN && a.lt b, quietInv)
  | .le => (!anyNaN && !b.lt a, quietInv)
  | .gt => (!anyNaN && b.lt a, quietInv)
  | .ge => (!anyNaN && !a.lt b, quietInv)
  | .ord => (!anyNaN, sig)
  | .uno => (anyNaN, sig)

/-- An integer compare (05 R110); ord and uno are not conditions of integers. -/
def iCmp (c : Cond) (a b : Int) : Bool :=
  match c with
  | .eq => a = b | .ne => a ≠ b | .lt => a < b | .le => a ≤ b | .gt => b < a | .ge => b ≤ a | .ord => false | .uno => false

/-- Float to float (06 R131, 03 R66, R67). An infinity to E4M3 gives the NaN of its sign and invalid, or the maximum finite under code 5. -/
def cvtFF (f : Fmt) (rm : RMode) (fz : Bool) (a : FVal) : FRes :=
  match a with
  | .nan n p s => (nanBits f n p, if s then flInvalid else 0)
  | .inf n =>
    if rm = .sat then (f.signBit n + f.maxFinite, flInexact)
    else (f.signBit n + f.infBits, if f.hasInf then 0 else flInvalid)
  | .fin n m e => roundFin f rm fz n m e

/-- Float to an integer of the range `lo` to `hi` (06 R131, 03 R66). -/
def cvtFI (lo hi : Int) (rm : RMode) (a : FVal) : Int × Flags :=
  let inv : Flags := if rm = .sat then 0 else flInvalid
  match a with
  | .nan _ _ s => (0, if s then flInvalid else inv)
  | .inf n => (if n then lo else hi, inv)
  | .fin n m e =>
    -- a magnitude of 2^70 or more is out of every range: it need not be formed
    if m ≠ 0 ∧ 70 ≤ e + (Nat.log2 m : Int) then (if n then lo else hi, inv)
    else
      let (k, exact) := toIntegral rm n m e
      let v := signedNat n k
      if v < lo then (lo, inv) else if hi < v then (hi, inv)
      else (v, if exact then 0 else flInexact)

/-- Integer to float (06 R131). -/
def cvtIF (f : Fmt) (rm : RMode) (fz : Bool) (v : Int) : FRes := roundFin f rm fz (v < 0) v.natAbs 0

/-- The larger of the leading exponents of the non-zero finite addends (03 R70). -/
def windowTop : List FVal → Option Int
  | [] => none
  | .fin _ m e :: r =>
    if m = 0 then windowTop r
    else
      match windowTop r with
      | none => some (e + (Nat.log2 m : Int))
      | some t => some (max t (e + (Nat.log2 m : Int)))
  | _ :: r => windowTop r

/-- One addend's in-window part in units of 2^g, and whether something was cut off (03 R70). -/
def windowPart (g : Int) : FVal → Int × Bool
  | .fin n m e =>
    if m = 0 then (0, false)
    else if g ≤ e then (signedNat n (m <<< (e - g).toNat), false)
    else (signedNat n (m >>> (g - e).toNat), m % 2 ^ (g - e).toNat != 0)
  | _ => (0, false)

/-- The windowed exact sum of a list of addends, rounded once (03 R70 to R72). A product 0 · ∞ stands in the list as a NaN. -/
def windowSum (f : Fmt) (rm : RMode) (xs : List FVal) : FRes :=
  if xs.any FVal.isNaN || (xs.any (· == .inf false) && xs.any (· == .inf true)) then (f.canonNaN, flInvalid)
  else if xs.any (· == .inf false) then (f.infBits, 0)
  else if xs.any (· == .inf true) then (f.signBit true + f.infBits, 0)
  else
    match windowTop xs with
    | none => (zeroBits f (xs.all FVal.isNeg || (rm = .rd && xs.any FVal.isNeg)), 0)
    | some top =>
      let g := top - 128
      let parts := xs.map (windowPart g)
      let s : Int := parts.foldl (fun a p => a + p.1) 0
      let sticky := parts.any (·.2)
      if s = 0 then (zeroBits f (rm = .rd), if sticky then flInexact else 0)
      else roundSticky f rm false (s < 0) s.natAbs g sticky

end Sys2Proof.Machine
end

