-- ==== Sys2Proof/Config.lean ====
section
/-! DEFINITION. What the module fixes for every run (sizes and limits of the spec), and the functions and values the spec leaves open:
each of those is opaque, so that nothing can be proved of its value. -/

namespace Sys2Proof.Config

/-- Cores of the wafer: 64 domains of 120 (18 R321, 01 R12). -/
def coreCount : Nat := 7680
/-- Cores of a domain. -/
def coresPerDomain : Nat := 120
/-- Domains of the wafer. -/
def domainCount : Nat := 64
/-- Reel slots of a core (04 R77, 08 R165). -/
def reelSlots : Nat := 32
/-- Entries of the permission lookaside (08 R163). -/
def lookasideEntries : Nat := 128
/-- Entries of the store attribution buffer (08 R165). -/
def attributionEntries : Nat := 512
/-- Entries of the victim tag array (08 R170). -/
def victimEntries : Nat := 256
/-- Cycles of a full/empty wait, a slot wait or a claim wait before its timeout (08 R154, 09 R190, 11 R235). -/
def longTimeout : Nat := 2 ^ 24
/-- The wafer's number in physical addresses (14 R279); host memory is 0xFFF. -/
def hostWafer : Nat := 0xFFF

/-- A free rank for each element of a block instruction whose destinations overlap, afresh for each such instruction: which element's value
remains is not stated (02 R38; log entry 12). -/
opaque elementRank : Nat → Nat → Nat

/-- The lanes k0 of a held reel of several splits reads: none of them executes, and the spec does not say which split's lanes they are (04 R77,
14 R289; log entry 19). -/
opaque heldLanes : Nat → Word

/-- A free draw for the line that leaves a full L1: the spec gives no replacement (08 R159; log entry 7). -/
opaque l1Victim : Nat → Nat

/-- A free rank for each of the 16 positions of a window: at level t, the t positions of lowest rank are those in which no matrix instruction starts;
which they are is not stated (18 R328; log entry 93). -/
opaque bubbleRank : Nat → Nat

/-- The save-plus-restore bound that firmware measures at a boot, in microseconds; the boot's identity draws it (19 R358; log entry 94). -/
opaque measuredBound : Nat → Nat

/-- What a configuration request or link training asks for (21 R365): the parts and options that CXL 3.x names. -/
inductive CxlOption where
  | x16At64 | x16At32 | x8At64 | x8At32 | flit256 | configuration | memoryBar | msix | deviceCaching | hdmDb | directAttach
  | x4OrNarrower | slowerThan32 | flit68 | sriov | legacyInt | ats | pri | peerSnoop | otherCacheId | hdmH | hdmD | type3 | switches
  | multiLogical | portRouting | dynamicCapacity | pooling
  deriving DecidableEq, Repr, Inhabited

/-- Is an option in the table's column of what is supported (21 R365)? -/
def CxlOption.supported : CxlOption → Bool
  | .x16At64 | .x16At32 | .x8At64 | .x8At32 | .flit256 | .configuration | .memoryBar | .msix | .deviceCaching | .hdmDb | .directAttach => true
  | .x4OrNarrower | .slowerThan32 | .flit68 | .sriov | .legacyInt | .ats | .pri | .peerSnoop | .otherCacheId | .hdmH | .hdmD | .type3 | .switches
  | .multiLogical | .portRouting | .dynamicCapacity | .pooling => false

/-- What a configuration request asks for: an input from the host, drawn by the request's identity (21 R365; log entry 102). -/
opaque linkOption : Nat → CxlOption

/-- A CRC-64 of bytes given as addresses and values: the spec does not give its polynomial (21 R383; log entry 22). -/
opaque crc64 : List (Nat × BitVec 8) → Nat

/-- The layout version of a drained image, whose number the spec does not give (21 R383; log entry 22). -/
opaque tierVersion : Nat

/-- Does an RSA-3072 signature verify over the signed bytes of a header, given as its fields (22 R388; log entry 8)? -/
opaque rsaVerifies : List Nat → Nat → Bool
/-- Does an SLH-DSA signature verify over the signed bytes of a header (22 R388; log entry 8)? -/
opaque slhVerifies : List Nat → Nat → Bool
/-- The device's RSA-3072 signature of a report (22 R390; log entry 8). -/
opaque rsaSigns : List Nat → Nat
/-- The device's SLH-DSA signature of a report (22 R390; log entry 8). -/
opaque slhSigns : List Nat → Nat

end Sys2Proof.Config
end

