-- ==== Sys2Proof/Syntax.lean ====
section
/-! DEFINITION. The instructions of the Skalia J64: one constructor for each row of the opcode table. The encoded rows carry the operand
fields of their word (02 R25, R26); the event rows, which have no word, carry what the event acts on. -/

namespace Sys2Proof

/-- 3V format of three registers (02 R25). -/
structure V3 where
  sb : BitVec 1
  vd : BitVec 7
  va : BitVec 7
  vb : BitVec 7
  deriving DecidableEq, Repr

/-- 3V format with one source, or an S word of two registers (02 R25). -/
structure V2 where
  vd : BitVec 7
  va : BitVec 7
  deriving DecidableEq, Repr

/-- I format (02 R25). -/
structure I9 where
  vd : BitVec 7
  va : BitVec 7
  imm : BitVec 9
  deriving DecidableEq, Repr

/-- I format of a shift: imm9[4:0] is the count (02 R27). -/
structure ISh where
  vd : BitVec 7
  va : BitVec 7
  n : BitVec 5
  deriving DecidableEq, Repr

/-- I format of `movi` (05 R109). -/
structure IMov where
  vd : BitVec 7
  imm : BitVec 9
  deriving DecidableEq, Repr

/-- C format (02 R25). -/
structure CmpOp where
  cond : BitVec 4
  type : BitVec 2
  kd : BitVec 3
  sb : BitVec 1
  comb : BitVec 2
  va : BitVec 7
  vb : BitVec 7
  deriving DecidableEq, Repr

/-- S format (02 R25). -/
structure SelOp where
  kc : BitVec 3
  vd : BitVec 7
  va : BitVec 7
  vb : BitVec 7
  deriving DecidableEq, Repr

/-- S format of a lane exchange (05 R114). -/
structure L3 where
  vd : BitVec 7
  va : BitVec 7
  vb : BitVec 7
  deriving DecidableEq, Repr

/-- S format of `kprefix` (05 R115). -/
structure KPre where
  kc : BitVec 3
  vd : BitVec 7
  deriving DecidableEq, Repr

/-- S format of `ballot` (05 R116). -/
structure Ballot where
  kd : BitVec 3
  va : BitVec 7
  deriving DecidableEq, Repr

/-- S format of `lrd` with an immediate lane (05 R117). -/
structure LrdI where
  sd : BitVec 6
  va : BitVec 7
  n : BitVec 5
  deriving DecidableEq, Repr

/-- S format of `lrd` with a uniform lane (05 R117). -/
structure LrdS where
  sd : BitVec 6
  va : BitVec 7
  sn : BitVec 6
  deriving DecidableEq, Repr

/-- X format of two masks (05 R118). -/
structure K3 where
  kd : BitVec 3
  ka : BitVec 3
  kb : BitVec 3
  deriving DecidableEq, Repr

/-- X format of one mask (05 R118). -/
structure K2 where
  kd : BitVec 3
  ka : BitVec 3
  deriving DecidableEq, Repr

/-- X format of `kmov.ks` (05 R118). -/
structure KS where
  kd : BitVec 3
  sa : BitVec 6
  deriving DecidableEq, Repr

/-- X format of a mask read to a uniform (05 R118). -/
structure SK where
  sd : BitVec 6
  ka : BitVec 3
  deriving DecidableEq, Repr

/-- 3V format of CVT: rounding and source codes in vb (06 R130). -/
structure CvtOp where
  vd : BitVec 7
  va : BitVec 7
  rnd : BitVec 3
  src : BitVec 4
  deriving DecidableEq, Repr

/-- U format with im = 0 (02 R25). -/
structure U3 where
  sd : BitVec 6
  sa : BitVec 6
  sb : BitVec 6
  deriving DecidableEq, Repr

/-- U format with im = 1 (02 R25). -/
structure UI where
  sd : BitVec 6
  sa : BitVec 6
  imm : BitVec 9
  deriving DecidableEq, Repr

/-- U format of `umov` from a register (06 R132). -/
structure U2 where
  sd : BitVec 6
  sa : BitVec 6
  deriving DecidableEq, Repr

/-- U format of `umov` of an immediate (06 R132). -/
structure UMovI where
  sd : BitVec 6
  imm : BitVec 9
  deriving DecidableEq, Repr

/-- U format of `ucmp` (06 R133). -/
structure UCmp where
  sd : BitVec 6
  sa : BitVec 6
  cond : BitVec 3
  sb : BitVec 6
  deriving DecidableEq, Repr

/-- X format of `rdsr.v` (06 R134). -/
structure RdV where
  vd : BitVec 7
  id : BitVec 7
  deriving DecidableEq, Repr

/-- X format of `rdsr` (06 R134). -/
structure RdS where
  sd : BitVec 6
  id : BitVec 7
  deriving DecidableEq, Repr

/-- X format of `wrsr` (06 R134). -/
structure WrS where
  sa : BitVec 6
  id : BitVec 7
  deriving DecidableEq, Repr

/-- X format of a vector and a uniform register (06 R134). -/
structure VS where
  vd : BitVec 7
  sa : BitVec 6
  deriving DecidableEq, Repr

/-- X format of a uniform and a vector register (06 R134). -/
structure SV where
  sd : BitVec 6
  va : BitVec 7
  deriving DecidableEq, Repr

/-- M format (02 R25). -/
structure MOp where
  vt : BitVec 7
  sp : BitVec 5
  vo : BitVec 7
  sc : BitVec 3
  deriving DecidableEq, Repr

/-- M format of `ldu`: vo is 127 (02 R26). -/
structure LdU where
  sd : BitVec 6
  sp : BitVec 5
  deriving DecidableEq, Repr

/-- A format (02 R25). -/
structure AOp where
  ord : BitVec 2
  scope : BitVec 2
  w : BitVec 1
  ret : BitVec 1
  vd : BitVec 7
  va : BitVec 7
  deriving DecidableEq, Repr

/-- A format with ret fixed (09 R183). -/
structure AOpW where
  ord : BitVec 2
  scope : BitVec 2
  w : BitVec 1
  vd : BitVec 7
  va : BitVec 7
  deriving DecidableEq, Repr

/-- A format of `atomg.xadd` (09 R183). -/
structure AOpX where
  ord : BitVec 2
  scope : BitVec 2
  vd : BitVec 7
  va : BitVec 7
  deriving DecidableEq, Repr

/-- A format of ATOMS: scope is 0 (09 R183). -/
structure AOpS where
  ord : BitVec 2
  w : BitVec 1
  ret : BitVec 1
  vd : BitVec 7
  va : BitVec 7
  deriving DecidableEq, Repr

/-- X format of `fence` (09 R191). -/
structure FenceOp where
  scope : BitVec 2
  ord : BitVec 2
  deriving DecidableEq, Repr

/-- W format (02 R25). -/
structure WaitOp where
  ld : BitVec 6
  st : BitVec 6
  eng : BitVec 4
  mx : BitVec 4
  deriving DecidableEq, Repr

/-- X format of `binit` (09 R195). -/
structure BInit where
  n : BitVec 7
  b : BitVec 4
  deriving DecidableEq, Repr

/-- X format of a uniform destination and a barrier or tile number (09 R195, 11 R245). -/
structure BArr where
  sd : BitVec 6
  b : BitVec 4
  deriving DecidableEq, Repr

/-- X format of `bwait` (09 R195). -/
structure BWaitOp where
  sd : BitVec 6
  sa : BitVec 6
  b : BitVec 4
  deriving DecidableEq, Repr

/-- X format of `bsync` (09 R195). -/
structure BNum where
  b : BitVec 4
  deriving DecidableEq, Repr

/-- X format of `semset` (09 R195). -/
structure SemSet where
  sa : BitVec 6
  sm : BitVec 5
  deriving DecidableEq, Repr

/-- X format of `semadd` and `semwait` (09 R195). -/
structure SemOp where
  sa : BitVec 6
  scope : BitVec 2
  sm : BitVec 5
  deriving DecidableEq, Repr

/-- X format of `watch` (09 R195). -/
structure WatchOp where
  sd : BitVec 6
  sa : BitVec 6
  w : BitVec 1
  deriving DecidableEq, Repr

/-- X format of two uniform registers (02 R25). -/
structure S2 where
  sd : BitVec 6
  sa : BitVec 6
  deriving DecidableEq, Repr

/-- X format of `unwatch` (09 R195). -/
structure WNum where
  w : BitVec 1
  deriving DecidableEq, Repr

/-- X format of `sloop` (10 R210). -/
structure SLoopOp where
  sc : BitVec 6
  sf : BitVec 6
  w : BitVec 7
  deriving DecidableEq, Repr

/-- X format of one uniform destination (10 R210). -/
structure SD where
  sd : BitVec 6
  deriving DecidableEq, Repr

/-- X format of `stadv`, `stjmp` and `waitl` (10 R210). -/
structure StOp where
  sa : BitVec 6
  n : BitVec 7
  deriving DecidableEq, Repr

/-- X format of `spost` (10 R210). -/
structure SPostOp where
  sa : BitVec 6
  scope : BitVec 2
  deriving DecidableEq, Repr

/-- X format of `waitm` (10 R210). -/
structure WaitMOp where
  sd : BitVec 6
  sa : BitVec 6
  w : BitVec 1
  scope : BitVec 2
  deriving DecidableEq, Repr

/-- X format of `layset` (11 R245). -/
structure LayOp where
  lay : BitVec 6
  sa : BitVec 6
  deriving DecidableEq, Repr

/-- X format of an engine command: d and a name layouts (11 R245). -/
structure CpyOp where
  ld : BitVec 6
  ls : BitVec 6
  scope : BitVec 2
  sm : BitVec 5
  deriving DecidableEq, Repr

/-- X format of `accget` and `accput` (11 R245). -/
structure AccOp where
  vd : BitVec 7
  sa : BitVec 6
  ac : BitVec 4
  deriving DecidableEq, Repr

/-- B format with kc 0 (02 R25). -/
structure BrU where
  off : BitVec 20
  deriving DecidableEq, Repr

/-- B format (02 R25). -/
structure BrK where
  kc : BitVec 3
  off : BitVec 20
  deriving DecidableEq, Repr

/-- X format of one uniform source (06 R139). -/
structure SA where
  sa : BitVec 6
  deriving DecidableEq, Repr

/-- X format of `trap` (06 R142). -/
structure TrapN where
  n : BitVec 7
  deriving DecidableEq, Repr

/-- X format of `hget` and `hset` (14 R289). -/
structure HOp where
  d : BitVec 7
  sa : BitVec 6
  imm : BitVec 7
  deriving DecidableEq, Repr

/-- X format of `hldone` (14 R289). -/
structure HlOp where
  vs : BitVec 7
  sa : BitVec 6
  deriving DecidableEq, Repr

/-- X format of `launch` (19 R349). -/
structure LaunchOp where
  sd : BitVec 6
  sa : BitVec 6
  cls : BitVec 2
  deriving DecidableEq, Repr

/-- T format of `mclaim` and `mrel` (11 R234). -/
structure ClaimOp where
  kind : BitVec 1
  first : BitVec 5
  cnt : BitVec 5
  deriving DecidableEq, Repr

/-- T format of `mload` (11 R234). -/
structure MLoadOp where
  slot : BitVec 5
  lay : BitVec 6
  type : BitVec 3
  role : BitVec 1
  qo : BitVec 1
  q : BitVec 4
  deriving DecidableEq, Repr

/-- T format of `mloadp` (11 R234). -/
structure MLoadpOp where
  slot : BitVec 5
  lay : BitVec 6
  qo : BitVec 1
  q : BitVec 4
  deriving DecidableEq, Repr

/-- T format of `mtadd` (11 R234). -/
structure MTaddOp where
  tile : BitVec 4
  lay : BitVec 6
  src : BitVec 2
  qo : BitVec 1
  q : BitVec 4
  deriving DecidableEq, Repr

/-- T format of `mma` (11 R234). -/
structure MmaOp where
  c : BitVec 4
  a : BitVec 5
  b : BitVec 5
  rm : BitVec 3
  deriving DecidableEq, Repr

/-- T format of `mmas` (11 R234). -/
structure MmasOp where
  c : BitVec 4
  a : BitVec 5
  b : BitVec 5
  md : BitVec 5
  dens : BitVec 1
  rm : BitVec 2
  deriving DecidableEq, Repr

/-- T format of `mmap` (11 R234). -/
structure MmapOp where
  c : BitVec 4
  a : BitVec 5
  b : BitVec 5
  deriving DecidableEq, Repr

/-- T format of `mzero` (11 R234). -/
structure MZeroOp where
  tile : BitVec 4
  fmt : BitVec 2
  deriving DecidableEq, Repr

/-- T format of `mscale` (11 R234). -/
structure MScaleOp where
  tile : BitVec 4
  lay : BitVec 6
  side : BitVec 1
  e : BitVec 3
  q : BitVec 4
  deriving DecidableEq, Repr

/-- T format of `mstore` (11 R234). -/
structure MStoreOp where
  tile : BitVec 4
  lay : BitVec 6
  type : BitVec 3
  rm : BitVec 3
  qo : BitVec 1
  q : BitVec 4
  deriving DecidableEq, Repr

/-- T format of `mbar.sync` (11 R234). -/
structure MBarS where
  b : BitVec 4
  deriving DecidableEq, Repr

/-- T format of `mbar.arrive` and `mbar.wait` (11 R234). -/
structure MBarQ where
  b : BitVec 4
  q : BitVec 4
  deriving DecidableEq, Repr

/-- T format of `mset` (11 R234). -/
structure MSetOp where
  qd : BitVec 4
  imm : BitVec 16
  deriving DecidableEq, Repr

/-- T format of `madd` (11 R234). -/
structure MAddOp where
  qd : BitVec 4
  qa : BitVec 4
  imm : BitVec 14
  deriving DecidableEq, Repr

/-- T format of `mloop` (11 R234). -/
structure MLoopOp where
  q : BitVec 4
  off : BitVec 18
  deriving DecidableEq, Repr

/-- T format of `mbra` (11 R234). -/
structure MBraOp where
  off : BitVec 16
  deriving DecidableEq, Repr

/-- T format of `mbra.z` and `mbra.nz` (11 R234). -/
structure MBraQ where
  q : BitVec 4
  off : BitVec 16
  deriving DecidableEq, Repr

/-- Where a core memory error is found (08 R174): an L1 sector, an instruction line, a scratchpad word of a block, a vector lane or a uniform
register of a reel, a word of an operand slot or of a tile, a lookaside entry, a victim entry, an attribution entry. -/
inductive EccPlace where
  | l1 (sector : Nat)
  | icache (line : Nat)
  | spad (block word : Nat)
  | vreg (reel reg lane : Nat)
  | ureg (reel reg : Nat)
  | operand (slot word : Nat)
  | tile (tile word : Nat)
  | lookaside (entry : Nat)
  | victim (entry : Nat)
  | attribution (store : Nat)
  deriving DecidableEq, Repr

/-- A firmware image as it reaches the controller (22 R388): header fields, the minimum its header asks for, body and signatures. -/
structure FwImage where
  magic : Nat
  version : Nat
  rollback : Nat
  length : Nat
  digest : Nat
  raiseMin : Option Nat
  body : List Byte
  rsa : Nat
  slh : Nat
  deriving DecidableEq, Repr

/-- What a cold reset finds (22 R385): the digests each boot stage measures, the cores that fail self-test, whether a power-fail warning stops
it in steps 3 to 6, and the fabric number that system software sets with whether a host is attached (21 R376). -/
structure BootInput where
  digests : List Nat
  dead : List Nat
  powerFail : Bool
  fabno : Nat
  host : Bool
  deriving DecidableEq, Repr

/-- What a tier answers to a restore (21 R383, R384): whether the header's own CRC holds, its layout version and Banner generation, the segments
marked absent, those whose CRC fails, and the bytes by domain·2^35 + offset. -/
structure TierImage where
  headerOk : Bool
  version : Nat
  gen : Nat
  absent : Nat
  corrupt : Nat
  cells : List (Nat × Byte)
  deriving DecidableEq, Repr

/-- What another member of a collective has posted (21 R380, R381): its index, its descriptor's type, op, count and root, whether it failed, and
its source elements. -/
structure Peer where
  index : Nat
  type : Nat
  op : Nat
  count : Nat
  root : Nat
  failed : Bool
  data : List Nat
  deriving DecidableEq, Repr

/-- One constructor for each row of the opcode table, in the table's order. -/
inductive Instr where
  /-- IADD (R105). -/
  | iadd (f : V3)
  /-- ISUB (R105). -/
  | isub (f : V3)
  /-- IMUL (R105). -/
  | imul (f : V3)
  /-- IMULH_I (R105). -/
  | imulhI (f : V3)
  /-- IMULH_Z (R105). -/
  | imulhZ (f : V3)
  /-- IMIN_I (R105). -/
  | iminI (f : V3)
  /-- IMAX_I (R105). -/
  | imaxI (f : V3)
  /-- IMIN_Z (R105). -/
  | iminZ (f : V3)
  /-- IMAX_Z (R105). -/
  | imaxZ (f : V3)
  /-- IABS (R105). -/
  | iabs (f : V2)
  /-- IADD_SAT_I (R105). -/
  | iaddSatI (f : V3)
  /-- ISUB_SAT_I (R105). -/
  | isubSatI (f : V3)
  /-- IADD_64 (R105). -/
  | iadd64 (f : V3)
  /-- ISUB_64 (R105). -/
  | isub64 (f : V3)
  /-- IMUL_WIDE_I (R105). -/
  | imulWideI (f : V3)
  /-- IMUL_WIDE_Z (R105). -/
  | imulWideZ (f : V3)
  /-- AND (R107). -/
  | and (f : V3)
  /-- OR (R107). -/
  | or (f : V3)
  /-- XOR (R107). -/
  | xor (f : V3)
  /-- ANDN (R107). -/
  | andn (f : V3)
  /-- SHL (R107). -/
  | shl (f : V3)
  /-- SHR (R107). -/
  | shr (f : V3)
  /-- SAR (R107). -/
  | sar (f : V3)
  /-- ROTL (R107). -/
  | rotl (f : V3)
  /-- SHL_64 (R107). -/
  | shl64 (f : V3)
  /-- SHR_64 (R107). -/
  | shr64 (f : V3)
  /-- POPC (R107). -/
  | popc (f : V2)
  /-- CLZ (R107). -/
  | clz (f : V2)
  /-- BREV (R107). -/
  | brev (f : V2)
  /-- BFX_Z (R108). -/
  | bfxZ (f : V3)
  /-- BFX_I (R108). -/
  | bfxI (f : V3)
  /-- BFI (R108). -/
  | bfi (f : V3)
  /-- IADDI (R109). -/
  | iaddi (f : I9)
  /-- ANDI (R109). -/
  | andi (f : I9)
  /-- ORI (R109). -/
  | ori (f : I9)
  /-- XORI (R109). -/
  | xori (f : I9)
  /-- SHLI (R109). -/
  | shli (f : ISh)
  /-- SHRI (R109). -/
  | shri (f : ISh)
  /-- SARI (R109). -/
  | sari (f : ISh)
  /-- MOVI (R109). -/
  | movi (f : IMov)
  /-- CMP (R110). -/
  | cmp (f : CmpOp)
  /-- SEL (R113). -/
  | sel (f : SelOp)
  /-- MOV (R113). -/
  | mov (f : V2)
  /-- SHFL_IDX (R114). -/
  | shflIdx (f : L3)
  /-- SHFL_UP (R114). -/
  | shflUp (f : L3)
  /-- SHFL_DOWN (R114). -/
  | shflDown (f : L3)
  /-- SHFL_XOR (R114). -/
  | shflXor (f : L3)
  /-- KPREFIX (R115). -/
  | kprefix (f : KPre)
  /-- BALLOT (R116). -/
  | ballot (f : Ballot)
  /-- LRD (R117). -/
  | lrd (f : LrdI)
  /-- LRD_S (R117). -/
  | lrdS (f : LrdS)
  /-- KAND (R118). -/
  | kand (f : K3)
  /-- KOR (R118). -/
  | kor (f : K3)
  /-- KXOR (R118). -/
  | kxor (f : K3)
  /-- KNOT (R118). -/
  | knot (f : K2)
  /-- KMOV_KS (R118). -/
  | kmovKs (f : KS)
  /-- KMOV_SK (R118). -/
  | kmovSk (f : SK)
  /-- KPOPC (R118). -/
  | kpopc (f : SK)
  /-- KFFS (R118). -/
  | kffs (f : SK)
  /-- FADD_F32 (R123). -/
  | faddF32 (f : V3)
  /-- FSUB_F32 (R123). -/
  | fsubF32 (f : V3)
  /-- FMUL_F32 (R123). -/
  | fmulF32 (f : V3)
  /-- FFMA_F32 (R123). -/
  | ffmaF32 (f : V3)
  /-- FFMS_F32 (R123). -/
  | ffmsF32 (f : V3)
  /-- FNMA_F32 (R123). -/
  | fnmaF32 (f : V3)
  /-- FMIN_F32 (R68). -/
  | fminF32 (f : V3)
  /-- FMAX_F32 (R68). -/
  | fmaxF32 (f : V3)
  /-- FABS_F32 (R124). -/
  | fabsF32 (f : V2)
  /-- FNEG_F32 (R124). -/
  | fnegF32 (f : V2)
  /-- FCSGN_F32 (R124). -/
  | fcsgnF32 (f : V3)
  /-- FADD_F64 (R123). -/
  | faddF64 (f : V3)
  /-- FSUB_F64 (R123). -/
  | fsubF64 (f : V3)
  /-- FMUL_F64 (R123). -/
  | fmulF64 (f : V3)
  /-- FFMA_F64 (R123). -/
  | ffmaF64 (f : V3)
  /-- FFMS_F64 (R123). -/
  | ffmsF64 (f : V3)
  /-- FNMA_F64 (R123). -/
  | fnmaF64 (f : V3)
  /-- FMIN_F64 (R68). -/
  | fminF64 (f : V3)
  /-- FMAX_F64 (R68). -/
  | fmaxF64 (f : V3)
  /-- FABS_F64 (R124). -/
  | fabsF64 (f : V2)
  /-- FNEG_F64 (R124). -/
  | fnegF64 (f : V2)
  /-- FCSGN_F64 (R124). -/
  | fcsgnF64 (f : V3)
  /-- HADD_F16 (R127). -/
  | haddF16 (f : V3)
  /-- HMUL_F16 (R127). -/
  | hmulF16 (f : V3)
  /-- HFMA_F16 (R127). -/
  | hfmaF16 (f : V3)
  /-- HMIN_F16 (R127). -/
  | hminF16 (f : V3)
  /-- HMAX_F16 (R127). -/
  | hmaxF16 (f : V3)
  /-- HADD_BF16 (R127). -/
  | haddBf16 (f : V3)
  /-- HMUL_BF16 (R127). -/
  | hmulBf16 (f : V3)
  /-- HFMA_BF16 (R127). -/
  | hfmaBf16 (f : V3)
  /-- HMIN_BF16 (R127). -/
  | hminBf16 (f : V3)
  /-- HMAX_BF16 (R127). -/
  | hmaxBf16 (f : V3)
  /-- FRCP_F32 (R128). -/
  | frcpF32 (f : V2)
  /-- FRSQ_F32 (R128). -/
  | frsqF32 (f : V2)
  /-- FSQRT_F32 (R128). -/
  | fsqrtF32 (f : V2)
  /-- FEXP2_F32 (R128). -/
  | fexp2F32 (f : V2)
  /-- FLOG2_F32 (R128). -/
  | flog2F32 (f : V2)
  /-- FFLOOR_F32 (R128). -/
  | ffloorF32 (f : V2)
  /-- FCEIL_F32 (R128). -/
  | fceilF32 (f : V2)
  /-- FTRUNC_F32 (R128). -/
  | ftruncF32 (f : V2)
  /-- FRINT_F32 (R128). -/
  | frintF32 (f : V2)
  /-- FCLASS_F32 (R129). -/
  | fclassF32 (f : V2)
  /-- FDIV_F32 (R128). -/
  | fdivF32 (f : V3)
  /-- FSQRT_F64 (R128). -/
  | fsqrtF64 (f : V2)
  /-- FRCP_F64 (R128). -/
  | frcpF64 (f : V2)
  /-- FDIV_F64 (R128). -/
  | fdivF64 (f : V3)
  /-- CVT_I32 (R131). -/
  | cvtI32 (f : CvtOp)
  /-- CVT_Z32 (R131). -/
  | cvtZ32 (f : CvtOp)
  /-- CVT_I64 (R131). -/
  | cvtI64 (f : CvtOp)
  /-- CVT_Z64 (R131). -/
  | cvtZ64 (f : CvtOp)
  /-- CVT_F32 (R131). -/
  | cvtF32 (f : CvtOp)
  /-- CVT_F64 (R131). -/
  | cvtF64 (f : CvtOp)
  /-- CVT_F16 (R131). -/
  | cvtF16 (f : CvtOp)
  /-- CVT_BF16 (R131). -/
  | cvtBf16 (f : CvtOp)
  /-- CVT_E4M3 (R131). -/
  | cvtE4m3 (f : CvtOp)
  /-- CVT_E5M2 (R131). -/
  | cvtE5m2 (f : CvtOp)
  /-- CVT_I8 (R131). -/
  | cvtI8 (f : CvtOp)
  /-- CVT_Z8 (R131). -/
  | cvtZ8 (f : CvtOp)
  /-- CVT_I16 (R131). -/
  | cvtI16 (f : CvtOp)
  /-- CVT_Z16 (R131). -/
  | cvtZ16 (f : CvtOp)
  /-- UADD (R132). -/
  | uadd (f : U3)
  /-- UADD_IMM (R132). -/
  | uaddImm (f : UI)
  /-- USUB (R132). -/
  | usub (f : U3)
  /-- USUB_IMM (R132). -/
  | usubImm (f : UI)
  /-- UMUL (R132). -/
  | umul (f : U3)
  /-- UMUL_IMM (R132). -/
  | umulImm (f : UI)
  /-- UAND (R132). -/
  | uand (f : U3)
  /-- UAND_IMM (R132). -/
  | uandImm (f : UI)
  /-- UOR (R132). -/
  | uor (f : U3)
  /-- UOR_IMM (R132). -/
  | uorImm (f : UI)
  /-- UXOR (R132). -/
  | uxor (f : U3)
  /-- UXOR_IMM (R132). -/
  | uxorImm (f : UI)
  /-- USHL (R132). -/
  | ushl (f : U3)
  /-- USHL_IMM (R132). -/
  | ushlImm (f : UI)
  /-- USHR (R132). -/
  | ushr (f : U3)
  /-- USHR_IMM (R132). -/
  | ushrImm (f : UI)
  /-- USAR (R132). -/
  | usar (f : U3)
  /-- USAR_IMM (R132). -/
  | usarImm (f : UI)
  /-- UMIN_I (R132). -/
  | uminI (f : U3)
  /-- UMIN_I_IMM (R132). -/
  | uminIImm (f : UI)
  /-- UMAX_I (R132). -/
  | umaxI (f : U3)
  /-- UMAX_I_IMM (R132). -/
  | umaxIImm (f : UI)
  /-- UMOV (R132). -/
  | umov (f : U2)
  /-- UMOV_IMM (R132). -/
  | umovImm (f : UMovI)
  /-- UADD_64 (R132). -/
  | uadd64 (f : U3)
  /-- UADD_64_IMM (R132). -/
  | uadd64Imm (f : UI)
  /-- UCMP (R133). -/
  | ucmp (f : UCmp)
  /-- RDSR_V (R134). -/
  | rdsrV (f : RdV)
  /-- RDSR (R134). -/
  | rdsr (f : RdS)
  /-- WRSR (R136). -/
  | wrsr (f : WrS)
  /-- VGETX (R135). -/
  | vgetx (f : VS)
  /-- VSETX (R135). -/
  | vsetx (f : SV)
  /-- LDG_Z8 (R178). -/
  | ldgZ8 (f : MOp)
  /-- LDG_I8 (R178). -/
  | ldgI8 (f : MOp)
  /-- LDG_Z16 (R178). -/
  | ldgZ16 (f : MOp)
  /-- LDG_I16 (R178). -/
  | ldgI16 (f : MOp)
  /-- LDG_B32 (R178). -/
  | ldgB32 (f : MOp)
  /-- LDG_B64 (R178). -/
  | ldgB64 (f : MOp)
  /-- LDG_B128 (R178). -/
  | ldgB128 (f : MOp)
  /-- LDU_B32 (R177). -/
  | lduB32 (f : LdU)
  /-- LDU_B64 (R177). -/
  | lduB64 (f : LdU)
  /-- STG_B8 (R179). -/
  | stgB8 (f : MOp)
  /-- STG_B16 (R179). -/
  | stgB16 (f : MOp)
  /-- STG_B32 (R179). -/
  | stgB32 (f : MOp)
  /-- STG_B64 (R179). -/
  | stgB64 (f : MOp)
  /-- STG_B128 (R179). -/
  | stgB128 (f : MOp)
  /-- LDS_Z16 (R182). -/
  | ldsZ16 (f : MOp)
  /-- LDS_B32 (R182). -/
  | ldsB32 (f : MOp)
  /-- LDS_B32_WFULL (R182). -/
  | ldsB32Wfull (f : MOp)
  /-- LDS_B32_TAKE (R182). -/
  | ldsB32Take (f : MOp)
  /-- LDS_B64 (R182). -/
  | ldsB64 (f : MOp)
  /-- LDS_B64_WFULL (R182). -/
  | ldsB64Wfull (f : MOp)
  /-- LDS_B64_TAKE (R182). -/
  | ldsB64Take (f : MOp)
  /-- LDS_B128 (R182). -/
  | ldsB128 (f : MOp)
  /-- LDS_B128_WFULL (R182). -/
  | ldsB128Wfull (f : MOp)
  /-- LDS_B128_TAKE (R182). -/
  | ldsB128Take (f : MOp)
  /-- STS_B16 (R182). -/
  | stsB16 (f : MOp)
  /-- STS_B32 (R182). -/
  | stsB32 (f : MOp)
  /-- STS_B32_PUT (R182). -/
  | stsB32Put (f : MOp)
  /-- STS_B32_FILL (R182). -/
  | stsB32Fill (f : MOp)
  /-- STS_B32_DRAIN (R182). -/
  | stsB32Drain (f : MOp)
  /-- STS_B64 (R182). -/
  | stsB64 (f : MOp)
  /-- STS_B64_PUT (R182). -/
  | stsB64Put (f : MOp)
  /-- STS_B64_FILL (R182). -/
  | stsB64Fill (f : MOp)
  /-- STS_B64_DRAIN (R182). -/
  | stsB64Drain (f : MOp)
  /-- STS_B128 (R182). -/
  | stsB128 (f : MOp)
  /-- STS_B128_PUT (R182). -/
  | stsB128Put (f : MOp)
  /-- STS_B128_FILL (R182). -/
  | stsB128Fill (f : MOp)
  /-- STS_B128_DRAIN (R182). -/
  | stsB128Drain (f : MOp)
  /-- ATOMG_ADD (R185). -/
  | atomgAdd (f : AOp)
  /-- ATOMG_FADD (R185). -/
  | atomgFadd (f : AOp)
  /-- ATOMG_MIN_I (R185). -/
  | atomgMinI (f : AOp)
  /-- ATOMG_MAX_I (R185). -/
  | atomgMaxI (f : AOp)
  /-- ATOMG_MIN_Z (R185). -/
  | atomgMinZ (f : AOp)
  /-- ATOMG_MAX_Z (R185). -/
  | atomgMaxZ (f : AOp)
  /-- ATOMG_AND (R185). -/
  | atomgAnd (f : AOp)
  /-- ATOMG_OR (R185). -/
  | atomgOr (f : AOp)
  /-- ATOMG_XOR (R185). -/
  | atomgXor (f : AOp)
  /-- ATOMG_EXCH (R185). -/
  | atomgExch (f : AOp)
  /-- ATOMG_CAS (R185). -/
  | atomgCas (f : AOp)
  /-- ATOMG_LD (R186). -/
  | atomgLd (f : AOpW)
  /-- ATOMG_ST (R186). -/
  | atomgSt (f : AOpW)
  /-- ATOMG_XADD (R189). -/
  | atomgXadd (f : AOpX)
  /-- ATOMS_ADD (R187). -/
  | atomsAdd (f : AOpS)
  /-- ATOMS_FADD (R187). -/
  | atomsFadd (f : AOpS)
  /-- ATOMS_MIN_I (R187). -/
  | atomsMinI (f : AOpS)
  /-- ATOMS_MAX_I (R187). -/
  | atomsMaxI (f : AOpS)
  /-- ATOMS_MIN_Z (R187). -/
  | atomsMinZ (f : AOpS)
  /-- ATOMS_MAX_Z (R187). -/
  | atomsMaxZ (f : AOpS)
  /-- ATOMS_AND (R187). -/
  | atomsAnd (f : AOpS)
  /-- ATOMS_OR (R187). -/
  | atomsOr (f : AOpS)
  /-- ATOMS_XOR (R187). -/
  | atomsXor (f : AOpS)
  /-- ATOMS_EXCH (R187). -/
  | atomsExch (f : AOpS)
  /-- ATOMS_CAS (R187). -/
  | atomsCas (f : AOpS)
  /-- FENCE (R191). -/
  | fence (f : FenceOp)
  /-- IFENCE (R193). -/
  | ifence
  /-- WAITC (R194). -/
  | waitc (f : WaitOp)
  /-- BINIT (R197). -/
  | binit (f : BInit)
  /-- BARRIVE (R196). -/
  | barrive (f : BArr)
  /-- BWAIT (R196). -/
  | bwait (f : BWaitOp)
  /-- BSYNC (R196). -/
  | bsync (f : BNum)
  /-- SEMSET (R198). -/
  | semset (f : SemSet)
  /-- SEMADD (R198). -/
  | semadd (f : SemOp)
  /-- SEMWAIT (R198). -/
  | semwait (f : SemOp)
  /-- WATCH (R199). -/
  | watch (f : WatchOp)
  /-- WATCH_SPAD (R199). -/
  | watchSpad (f : WatchOp)
  /-- PARK (R200). -/
  | park (f : S2)
  /-- UNWATCH (R202). -/
  | unwatch (f : WNum)
  /-- SLOOP (R212). -/
  | sloop (f : SLoopOp)
  /-- SITER (R213). -/
  | siter (f : SD)
  /-- STADV (R214). -/
  | stadv (f : StOp)
  /-- STJMP (R214). -/
  | stjmp (f : StOp)
  /-- WAITL (R215). -/
  | waitl (f : StOp)
  /-- SDONE (R217). -/
  | sdone
  /-- SEND (R218). -/
  | send
  /-- SPOST (R219). -/
  | spost (f : SPostOp)
  /-- WAITM (R220). -/
  | waitm (f : WaitMOp)
  /-- SREAD (R216). -/
  | sread (f : S2)
  /-- LAYSET (R246). -/
  | layset (f : LayOp)
  /-- LAYSET_SPAD (R246). -/
  | laysetSpad (f : LayOp)
  /-- CPY (R248). -/
  | cpy (f : CpyOp)
  /-- GATH (R249). -/
  | gath (f : CpyOp)
  /-- SCAT (R249). -/
  | scat (f : CpyOp)
  /-- MSTART (R247). -/
  | mstart (f : S2)
  /-- ACCGET (R254). -/
  | accget (f : AccOp)
  /-- ACCGET_ST (R254). -/
  | accgetSt (f : BArr)
  /-- ACCPUT (R254). -/
  | accput (f : AccOp)
  /-- RLDS (R266). -/
  | rlds (f : MOp)
  /-- RLDS_WFULL (R266). -/
  | rldsWfull (f : MOp)
  /-- RLDS_TAKE (R266). -/
  | rldsTake (f : MOp)
  /-- RSTS (R266). -/
  | rsts (f : MOp)
  /-- RSTS_PUT (R266). -/
  | rstsPut (f : MOp)
  /-- RSTS_FILL (R266). -/
  | rstsFill (f : MOp)
  /-- RSTS_DRAIN (R266). -/
  | rstsDrain (f : MOp)
  /-- RATOM_ADD (R266). -/
  | ratomAdd (f : MOp)
  /-- RATOM_EXCH (R266). -/
  | ratomExch (f : MOp)
  /-- RATOM_CAS (R266). -/
  | ratomCas (f : MOp)
  /-- RATOM_OR (R266). -/
  | ratomOr (f : MOp)
  /-- BRA (R137). -/
  | bra (f : BrU)
  /-- BRA_ANY (R137). -/
  | braAny (f : BrK)
  /-- BRA_ALL (R137). -/
  | braAll (f : BrK)
  /-- BRA_NONE (R137). -/
  | braNone (f : BrK)
  /-- BRA_DIV (R81). -/
  | braDiv (f : BrK)
  /-- CALL (R137). -/
  | call (f : BrU)
  /-- JMPI (R139). -/
  | jmpi (f : SA)
  /-- CALLI (R139). -/
  | calli (f : S2)
  /-- RET (R139). -/
  | ret (f : SA)
  /-- JOIN (R82). -/
  | join
  /-- YIELD (R139). -/
  | yield
  /-- NOP (R139). -/
  | nop
  /-- EXIT (R83). -/
  | exit
  /-- TRAP (R142). -/
  | trap (f : TrapN)
  /-- TRET_RETRY (R97). -/
  | tretRetry
  /-- TRET_SKIP (R97). -/
  | tretSkip
  /-- BRK (R142). -/
  | brk
  /-- HGET (R289). -/
  | hget (f : HOp)
  /-- HSET (R289). -/
  | hset (f : HOp)
  /-- HLDONE (R290). -/
  | hldone (f : HlOp)
  /-- RESUME_CONTINUE (R291). -/
  | resumeContinue (f : S2)
  /-- RESUME_DROP (R291). -/
  | resumeDrop (f : S2)
  /-- RESUME_RETRY (R291). -/
  | resumeRetry (f : S2)
  /-- KILL (R292). -/
  | kill (f : S2)
  /-- LAUNCH (R350). -/
  | launch (f : LaunchOp)
  /-- LSTAT (R351). -/
  | lstat (f : S2)
  /-- MCLAIM (R235). -/
  | mclaim (f : ClaimOp)
  /-- MREL (R235). -/
  | mrel (f : ClaimOp)
  /-- MLOAD (R236). -/
  | mload (f : MLoadOp)
  /-- MLOADP (R236). -/
  | mloadp (f : MLoadpOp)
  /-- MTADD (R241). -/
  | mtadd (f : MTaddOp)
  /-- MMA (R237). -/
  | mma (f : MmaOp)
  /-- MMAS (R238). -/
  | mmas (f : MmasOp)
  /-- MMAP (R239). -/
  | mmap (f : MmapOp)
  /-- MZERO (R240). -/
  | mzero (f : MZeroOp)
  /-- MSCALE (R240). -/
  | mscale (f : MScaleOp)
  /-- MSTORE (R242). -/
  | mstore (f : MStoreOp)
  /-- MBAR_SYNC (R243). -/
  | mbarSync (f : MBarS)
  /-- MBAR_ARRIVE (R243). -/
  | mbarArrive (f : MBarQ)
  /-- MBAR_WAIT (R243). -/
  | mbarWait (f : MBarQ)
  /-- MSET (R244). -/
  | mset (f : MSetOp)
  /-- MADD (R244). -/
  | madd (f : MAddOp)
  /-- MLOOP (R244). -/
  | mloop (f : MLoopOp)
  /-- MBRA (R244). -/
  | mbra (f : MBraOp)
  /-- MBRA_Z (R244). -/
  | mbraZ (f : MBraQ)
  /-- MBRA_NZ (R244). -/
  | mbraNz (f : MBraQ)
  /-- MEND (R244). -/
  | mend
  /-- PERMISSION_FILL (R163): an event. -/
  | permissionFill (reel split : Nat) (bad : Bool)
  /-- LOAD_RETURN (R178): an event. -/
  | loadReturn (reel load : Nat)
  /-- STORE_CONFIRMED (R88): an event. -/
  | storeConfirmed (msg : Nat)
  /-- FULL_EMPTY_QUALIFIED (R182): an event. -/
  | fullEmptyQualified (reel split : Nat)
  /-- FULL_EMPTY_TIMEOUT (R154): an event. -/
  | fullEmptyTimeout (reel split : Nat)
  /-- REMOTE_BANK_STEP (R267): an event. -/
  | remoteBankStep (reel split member : Nat)
  /-- VICTIM_RECOMPUTE (R170): an event. -/
  | victimRecompute (core : Nat)
  /-- PERMISSION_SHOOTDOWN (R164): an event. -/
  | permissionShootdown (part ctx lo hi : Nat)
  /-- PERMISSION_SHOOTDOWN_ACK (R164): an event. -/
  | permissionShootdownAck (core : Nat)
  /-- TRANSLATION_SHOOTDOWN (R282): an event. -/
  | translationShootdown (part lo hi : Nat)
  /-- SLICE_WRITE_ACCEPT (R271): an event. -/
  | sliceWriteAccept (msg : Nat)
  /-- SLICE_READ (R270): an event. -/
  | sliceRead (msg : Nat)
  /-- TRANSLATION_WALK_COMPLETE (R278): an event. -/
  | translationWalkComplete (dom page bad : Nat)
  /-- FAULT_RECORD_DELIVERY (R287): an event. -/
  | faultRecordDelivery (rec : Nat)
  /-- SECURE_CORE_RESOLVE (R287): an event. -/
  | secureCoreResolve (rec mode : Nat)
  /-- FAULT_SERVICE_BLOCK_START (R288): an event. -/
  | faultServiceBlockStart (rec : Nat)
  /-- HOME_GUEST_READ (R275): an event. -/
  | homeGuestRead (msg data : Nat)
  /-- HOME_WRITE (R275): an event. -/
  | homeWrite (msg : Nat)
  /-- HOME_ATOMIC (R186): an event. -/
  | homeAtomic (msg data : Nat)
  /-- HOME_WATCH_REGISTRATION (R275): an event. -/
  | homeWatchRegistration (msg status : Nat)
  /-- HOME_WATCH_DEREGISTRATION (R275): an event. -/
  | homeWatchDeregistration (msg : Nat)
  /-- DIRECTORY_ENTRY_EVICT (R274): an event. -/
  | directoryEntryEvict (dom grain : Nat)
  /-- GUEST_INVALIDATION (R276): an event. -/
  | guestInvalidation (msg : Nat)
  /-- GUEST_FILL (R276): an event. -/
  | guestFill (msg : Nat)
  /-- WATCH_STATUS_ANSWER (R199): an event. -/
  | watchStatusAnswer (msg : Nat)
  /-- WATCH_REPORT (R201): an event. -/
  | watchReport (msg reel slot : Nat)
  /-- PARK_TIMEOUT (R200): an event. -/
  | parkTimeout (reel split : Nat)
  /-- WAITM_POLL (R220): an event. -/
  | waitmPoll (reel split : Nat)
  /-- REDUCTION_CONTRIBUTION (R189): an event. -/
  | reductionContribution (msg : Nat)
  /-- REDUCTION_SLOT_TIMEOUT (R190): an event. -/
  | reductionSlotTimeout (msg : Nat)
  /-- ENGINE_COMMAND_ACCEPT (R252): an event. -/
  | engineCommandAccept (core cmd : Nat) (ext : List (Nat × Nat))
  /-- ENGINE_COMMAND_COMPLETE (R250): an event. -/
  | engineCommandComplete (core cmd : Nat) (ext : List (Nat × Nat))
  /-- ENGINE_FAULT (R253): an event. -/
  | engineFault (core cmd : Nat) (ext : List (Nat × Nat))
  /-- MCLAIM_GRANT (R235): an event. -/
  | mclaimGrant (block : Nat)
  /-- MCLAIM_TIMEOUT (R235): an event. -/
  | mclaimTimeout (block : Nat)
  /-- QUEUE_TAKE_PACKET (R343): an event. -/
  | queueTakePacket (slot : Nat) (ext : List (Nat × Nat))
  /-- LAUNCH_ADMIT (R345): an event. -/
  | launchAdmit (launch : Nat) (ext : List (Nat × Nat))
  /-- BLOCK_START (R347): an event. -/
  | blockStart (launch : Nat) (ext : List (Nat × Nat))
  /-- BLOCK_END (R100): an event. -/
  | blockEnd (block : Nat)
  /-- LAUNCH_COMPLETE (R352): an event. -/
  | launchComplete (launch : Nat)
  /-- LAUNCH_TIME_LIMIT (R353): an event. -/
  | launchTimeLimit (launch : Nat)
  /-- DOORBELL_WRITE (R373): an event. -/
  | doorbellWrite (n : Nat) (ext : List (Nat × Nat))
  /-- PENDING_QUEUE_BIND (R374): an event. -/
  | pendingQueueBind (ext : List (Nat × Nat))
  /-- CONTEXT_SWITCH_REQUEST (R354): an event. -/
  | contextSwitchRequest (part ctx base size : Nat)
  /-- GRACE_TIMER_EXPIRY (R355): an event. -/
  | graceTimerExpiry (req : Nat)
  /-- PREEMPT_SAVE (R355): an event. -/
  | preemptSave (req : Nat)
  /-- KILL_TIMER_EXPIRY (R355): an event. -/
  | killTimerExpiry (req : Nat)
  /-- TIME_SLICE_EXPIRY (R354): an event. -/
  | timeSliceExpiry (part : Nat)
  /-- RESTORE (R357): an event. -/
  | restore (part ctx : Nat)
  /-- LIMITER_SAMPLE (R328): an event. -/
  | limiterSample (dom draw : Nat)
  /-- OPERATING_POINT_LOWER (R329): an event. -/
  | operatingPointLower (dom : Nat)
  /-- OPERATING_POINT_RAISE (R329): an event. -/
  | operatingPointRaise (dom draw : Nat)
  /-- THERMAL_LOWER (R393): an event. -/
  | thermalLower (dom temp : Nat)
  /-- THERMAL_RAISE (R393): an event. -/
  | thermalRaise (dom temp : Nat)
  /-- THERMAL_TRIP (R393): an event. -/
  | thermalTrip (dom temp : Nat)
  /-- COOLANT_FLOW_LOSS (R393): an event. -/
  | coolantFlowLoss (ms : Nat)
  /-- HEARTBEAT (R335): an event. -/
  | heartbeat (dom : Nat)
  /-- HEARTBEAT_MISSED (R335): an event. -/
  | heartbeatMissed (dom : Nat)
  /-- FENCED_ROUTER_ANSWER (R335): an event. -/
  | fencedRouterAnswer (msg : Nat)
  /-- ECC_ERROR (R174): an event. -/
  | eccError (core : Nat) (place : EccPlace) (double again : Bool)
  /-- LINK_ERROR (R334): an event. -/
  | linkError (boundary dir : Nat) (again : Bool)
  /-- DRAM_CHANNEL_ERROR (R334): an event. -/
  | dramChannelError (dom first size : Nat) (again : Bool)
  /-- REGULATOR_FAILURE (R331): an event. -/
  | regulatorFailure (dom : Nat)
  /-- ROUTE_CHANGE (R319): an event. -/
  | routeChange (src dst entry : Nat)
  /-- COLD_RESET (R385): an event. -/
  | coldReset (b : BootInput)
  /-- PARTITION_RESET (R387): an event. -/
  | partitionReset (part : Nat) (scrub : Bool) (dead : List Nat)
  /-- RECOVERY_IMAGE_WRITE (R388): an event. -/
  | recoveryImageWrite (slotB : Bool) (image : FwImage)
  /-- ATTESTATION_REPORT (R390): an event. -/
  | attestationReport (nonce : Nat)
  /-- MEASUREMENT_EXTEND (R390): an event. -/
  | measurementExtend (reg digest : Nat)
  /-- STATUS_WRITE (R323): an event. -/
  | statusWrite (value : Nat)
  /-- POWER_WRITE (R327): an event. -/
  | powerWrite (dom cap point : Nat)
  /-- TIMERS_WRITE (R358): an event. -/
  | timersWrite (part grace kill slice : Nat)
  /-- PARTITION_WRITE (R332): an event. -/
  | partitionWrite (matrix : Bool) (index value : Nat)
  /-- SLOT_BINDING_WRITE (R344): an event. -/
  | slotBindingWrite (slot desc ctx part cap : Nat) (npf bind : Bool)
  /-- MGMT_REGISTER_WRITE (R392): an event. -/
  | mgmtRegisterWrite (offset scope value : Nat)
  /-- DRAIN_QUIESCED (R383): an event. -/
  | drainQuiesced
  /-- DRAIN_IMMEDIATE (R383): an event. -/
  | drainImmediate
  /-- DRAIN_RESTORE (R384): an event. -/
  | drainRestore (image : TierImage)
  /-- DRAIN_COMPLETE (R384): an event. -/
  | drainComplete
  /-- POWER_FAIL_WARNING (R383): an event. -/
  | powerFailWarning
  /-- BIAS_TO_DEVICE (R372): an event. -/
  | biasToDevice (offset : Nat)
  /-- BIAS_TO_HOST (R372): an event. -/
  | biasToHost (offset : Nat)
  /-- BIRSP_ARRIVAL (R372): an event. -/
  | birspArrival (dom line : Nat) (data : Option Nat)
  /-- HOST_HDM_READ (R371): an event. -/
  | hostHdmRead (offset : Nat) (own : Bool)
  /-- HOST_HDM_WRITE (R371): an event. -/
  | hostHdmWrite (offset data mask : Nat)
  /-- HOST_SNP_INV (R367): an event. -/
  | hostSnpInv (line : Nat)
  /-- HOST_SNP_DATA (R367): an event. -/
  | hostSnpData (line : Nat)
  /-- HOST_SNP_CUR (R367): an event. -/
  | hostSnpCur (line : Nat)
  /-- RELUF_CRC_FAIL (R378): an event. -/
  | relufCrcFail (port : Nat) (again : Bool)
  /-- WAFER_UNREACHABLE_TIMEOUT (R378): an event. -/
  | waferUnreachableTimeout (wafer : Nat)
  /-- COLLECTIVE_DESCRIPTOR (R379): an event. -/
  | collectiveDescriptor (slot : Nat) (ext : List (Nat × Nat))
  /-- COLLECTIVE_COMPLETE (R381): an event. -/
  | collectiveComplete (group seq : Nat) (peers : List Peer) (ext : List (Nat × Nat))
  /-- COLLECTIVE_ABANDON (R382): an event. -/
  | collectiveAbandon (group seq detail chunks : Nat) (peers : List Peer) (ext : List (Nat × Nat))
  /-- ILLEGAL_WORD (R30): an event. -/
  | illegalWord (w : Word)
  /-- ILLEGAL_STREAM_WORD (R32): an event. -/
  | illegalStreamWord (w : Word)
  /-- CXL_CACHE_HOST_RESPONSE (R367): an event. -/
  | cxlCacheHostResponse (line data : Nat) (exclusive : Bool)
  /-- INVALIDATION_ACKNOWLEDGEMENT (R275): an event. -/
  | invalidationAcknowledgement (msg : Nat)
  /-- ACCUMULATOR_MOVE_COMPLETE (R254): an event. -/
  | accumulatorMoveComplete (reel move : Nat)
  /-- DOMAIN_UNIT_ERROR (R334): an event. -/
  | domainUnitError (dom : Nat) (again : Bool)
  /-- CLOCK_RELOCK_COMPLETE (R330): an event. -/
  | clockRelockComplete (dom : Nat)
  /-- CONFIGURATION_REQUEST (R385): an event. -/
  | configurationRequest
  deriving DecidableEq, Repr

end Sys2Proof
end

