-- ==== Sys2Proof/Machine/State.lean ====
section
/-! DEFINITION. The state of the module: every piece of state the spec names, as plain data. Files of like things are sparse maps in one
canonical form: keys strictly rising, and no entry equal to what an unlisted key reads as. -/

namespace Sys2Proof.Machine

/-- A sparse map: a list of keys and values, keys strictly rising. -/
abbrev Map (α : Type) := List (Nat × α)

/-! ## The reel -/

/-- The hint words bound to an instruction: the payload of each kind (02 R33, R35). -/
structure Hints where
  hx : Option (BitVec 23)
  hb : Option (BitVec 23)
  hg : Option (BitVec 23)
  hc : Option (BitVec 23)
  hs : Option (BitVec 23)
  ht : Option (BitVec 23)
  deriving DecidableEq, Repr

/-- A fetched bundle: the address of its first word, the address of its instruction word, that word, and its hints (02 R24). -/
structure Bundle where
  start : VA
  ipc : VA
  word : Word
  hints : Hints
  deriving DecidableEq, Repr

/-- A reconvergence entry (04 R81). -/
structure Reconv where
  join : Word
  arrived : Word
  joinPc : Option VA
  pending : Option (VA × Word)
  deriving DecidableEq, Repr

/-- A scratchpad access that waits for full/empty qualification (09 R182): its place in issue order, whether it loads, its mode, the bytes of
each lane, the lanes with their addresses, the first vector register, and the values a store writes. -/
structure SpadAcc where
  id : Nat
  load : Bool
  mode : Nat
  size : Nat
  lanes : List (Nat × Nat)
  reg : Nat
  vals : Map Nat
  deriving DecidableEq, Repr

/-- A REMOTE access (13 R266, R267): its place in issue order, class (0 load, 1 store, 2 atomic) and mode, each lane's target member and offset,
its operands, the words that performed steps have read, the lanes that met poison, and the members whose step is done. -/
structure RemoteAcc where
  id : Nat
  cls : Nat
  mode : Nat
  lanes : List (Nat × Nat × Nat)
  reg : Nat
  vals : Map (Word × Word)
  got : Map Word
  poisoned : List Nat
  done : List Nat
  deriving DecidableEq, Repr

/-- Where a `waitm` stands (10 R220). -/
inductive WaitMPhase where
  | arming (load : Nat) | loading (load : Nat) | watching | polling (since : Nat) | got (x : Word) | dropped
  /-- To start again at arming: after a retry, and after a restore (10 R220, R221). -/
  | restart
  deriving DecidableEq, Repr

/-- A `waitm` in progress (10 R220). -/
structure WaitMRec where
  va : Nat
  slot : Nat
  stage : Nat
  phase : WaitMPhase
  /-- A write to the grain has been reported since the slot was last armed. -/
  told : Bool
  deriving DecidableEq, Repr

/-- What a waiting split waits for (04 R78, R87); what has already happened is held with it, so a retest repeats none of it. -/
inductive Wait where
  /-- Waits at issue; tried again whole (R88, R89, R135, 08 R166, R170; waitc, waitl, siter and the like). -/
  | issue
  /-- A lookaside miss: the granule that is read, and the granules found denied with their kinds (08 R163). -/
  | perm (granule : Nat) (denied : List (Nat × Nat))
  /-- A release waits for what was issued before it: the identities below `mark` (09 R191); and what its instruction read as it issued (10 R209,
  R214, R219). -/
  | release (mark : Nat) (read : List Nat)
  /-- A full/empty access not yet performed, since a cycle, with cycles already spent (08 R154). -/
  | fullEmpty (a : SpadAcc) (since spent : Nat)
  /-- A REMOTE access with targets outstanding (13 R267). -/
  | remote (a : RemoteAcc) (since spent : Nat)
  /-- A barrier wait with its token; `flipped` once the awaited flip has come (09 R196). -/
  | barrier (b : Nat) (token : BitVec 16) (flipped : Bool)
  /-- A semaphore wait; `ready` once an update satisfied it (09 R198, 04 R80). -/
  | sem (m : Nat) (threshold : Word) (ready : Bool)
  /-- Waits at `siter`, in the order of issue (10 R205, R213). -/
  | siter (order : Nat)
  /-- Waits at `waitl` for a stage to be passed by the predecessor of iteration `iter` (10 R215); once an advance has passed it, the unconfirmed
  stores it hands on. -/
  | waitl (iter stage : Nat) (got : Option (List Nat))
  /-- Waits at `send` for the loop of a generation (10 R218); once another `send` has closed it, the unconfirmed stores it hands on. -/
  | send (gen : BitVec 8) (got : Option (List Nat))
  /-- Parked; `status` once a cause has come (09 R200). -/
  | park (timeout since : Nat) (status : Option Word)
  /-- `waitm` (10 R220). -/
  | waitm (r : WaitMRec)
  /-- An acquire that follows a performed atomic or `waitm` before the split issues again (09 R185). -/
  | acquire (load : Nat) (scope : Nat)
  deriving DecidableEq, Repr

/-- A split of a reel (04 R77, R78). -/
structure Split where
  pc : VA
  lanes : Word
  /-- Identities of reconvergence entries, top first (04 R81). -/
  stack : List Nat
  /-- Join-parked (04 R82). -/
  parked : Bool
  /-- Stopped while another split runs the trap handler (04 R94). -/
  paused : Bool
  wait : Option Wait
  /-- The bundle of a waiting split, which is not fetched again. -/
  bundle : Option Bundle
  deriving DecidableEq, Repr

/-- What an outstanding load writes when it returns (09 R177, R185, R199). -/
inductive LoadDst where
  /-- Vector registers from `reg`: `bytes` of memory, sign-extended when `sx`. -/
  | vec (reg bytes : Nat) (sx : Bool)
  /-- Uniform registers from `reg`. -/
  | uni (reg bytes : Nat)
  /-- The status of a watch registration on slot `slot`. -/
  | status (reg slot : Nat)
  /-- The word a `waitm` of a split tests. -/
  | waitm (split : Nat)
  /-- The packet of a `launch`, whose identifier goes to register `reg` (19 R350). -/
  | launch (reg : Nat)
  deriving DecidableEq, Repr

/-- One lane's share of an outstanding load: its bytes, once they have been captured; `lost` when fault service dropped them. -/
structure Piece where
  lane : Nat
  va : Nat
  data : Option (BitVec 128)
  lost : Bool
  deriving DecidableEq, Repr

/-- The operation of an atomic (09 R184). -/
inductive AtomKind where
  | add | fadd | minI | maxI | minZ | maxZ | and | or | xor | exch | cas | ld | st | xadd
  deriving DecidableEq, Repr

/-- One lane's share of a global atomic: address and operands (09 R184, R186). -/
structure AtomLane where
  lane : Nat
  va : Nat
  x : DWord
  y : DWord
  deriving DecidableEq, Repr

/-- An outstanding load record: one for each unit of ld (08 R165). -/
structure OutLoad where
  id : Nat
  pc : VA
  inst : Word
  lanes : Word
  dst : LoadDst
  pieces : List Piece
  /-- Atomic with ret = 1: its operation, whether 64 bits wide, and its lanes (09 R185). -/
  atom : Option (AtomKind × Bool × List AtomLane)
  /-- Open fault records of this load. -/
  recs : List Nat
  /-- Its memory class and its HC policy (02 R35, 08 R171). -/
  cls : Nat
  policy : Nat
  deriving DecidableEq, Repr

/-- An `accget` or `accput` under way: one for each unit of mx (11 R254). -/
structure TileMove where
  id : Nat
  get : Bool
  tile : Nat
  row : Nat
  lanes : Word
  reg : Nat
  wide : Bool
  data : Map DWord
  deriving DecidableEq, Repr

/-- State of a watch slot's registration (08 R172, 09 R199). -/
inductive WatchState where
  | unarmed | sent | armed
  deriving DecidableEq, Repr

/-- A watch slot (08 R172). -/
structure WatchSlot where
  state : WatchState
  /-- The address named, and once armed the grain's first address. -/
  va : Nat
  /-- Coherence grain in bytes. -/
  grain : Nat
  /-- A reported write, latched while no split was parked (09 R201). -/
  latch : Bool
  /-- The last status. -/
  status : Word
  /-- Lost in a directory scrub (09 R200 bits [5], [6]). -/
  lost : Bool
  /-- Identity of the registration, so a late answer or report of an earlier one is dropped. -/
  reg : Nat
  /-- The domain whose directory holds the watcher, once it is armed; 64 for an agent or another wafer (18 R336). -/
  home : Nat
  deriving DecidableEq, Repr

/-- A reel (04 R77): registers are sparse maps that read 0 where nothing is listed. -/
structure Reel where
  /-- Key of its block, and its index within the block. -/
  block : Nat
  idx : Nat
  /-- Vector registers: key 32 · register + lane. -/
  v : Map Word
  s : Map Word
  k : Map Word
  splits : Map Split
  entries : Map Reconv
  nextEntry : Nat
  /-- Records that hold the reel (04 R78, 14 R284). -/
  heldBy : List Nat
  /-- Held by a pre-emption or an engine of the machine other than a record (19 R355). -/
  stopped : Bool
  exited : Bool
  killed : Bool
  ld : Nat
  st : Nat
  eng : Nat
  mx : Nat
  loads : List OutLoad
  moves : List TileMove
  tcr : Word
  /-- `tcr` as it stood at handler entry: it rules while the handler runs (06 R136). -/
  tcrEntry : Word
  fflags : Map (BitVec 5)
  xpc : Word
  xinst : Word
  xmask : Word
  xkind : Word
  xvec : Word
  xvechi : BitVec 23
  handler : Bool
  /-- The saved full PC of the trapping bundle and of its instruction word, its lanes and depth (02 R24, 04 R97). -/
  trapPc : VA
  trapIpc : VA
  trapLanes : Word
  trapDepth : Nat
  watches : Map WatchSlot
  cycloLatch : Option Word
  /-- Priority of the last HS hint (08 R169). -/
  prio : Nat
  /-- A split that has yielded its next turn, and the time before which it issues nothing (06 R139). -/
  yielded : Option (Nat × Nat)
  /-- No split issues before this time (HS yield, 02 R35). -/
  restUntil : Nat
  /-- The split that had the reel's last issue turn (04 R79). -/
  turn : Nat
  retired : BitVec 20
  seq : BitVec 16
  /-- Stage entry of its live iteration (10 R204). -/
  iter : Option Nat
  /-- Stores inherited at block-scope acquires and not yet settled (10 R208, 15 R299). -/
  inherited : List Nat
  deriving DecidableEq, Repr

/-! ## The block -/

/-- The fields of a kernel descriptor (19 R340). -/
structure Desc where
  spad : Nat
  reels : Nat
  vregs : Nat
  fault : Nat
  xvec : Nat
  stream : Nat
  entry : Nat
  deriving DecidableEq, Repr

/-- A numbered barrier (08 R172). -/
structure Barrier where
  expected : Nat
  arrivals : Nat
  waiters : BitVec 33
  phase : BitVec 16
  /-- Unconfirmed stores released to the barrier's next flip, and those of the last flip (15 R299). -/
  carry : List Nat
  flipped : List Nat
  deriving DecidableEq, Repr

/-- A semaphore and the unconfirmed stores its updates released (08 R172, 15 R299). -/
structure Sem where
  value : Word
  carry : List Nat
  deriving DecidableEq, Repr

/-- A stage entry (10 R204). -/
structure StageEntry where
  iter : Nat
  counter : BitVec 16
  owner : Nat
  complete : Bool
  carry : List Nat
  deriving DecidableEq, Repr

/-- A block's staged-loop control (10 R204). -/
structure LoopCtl where
  isOpen : Bool
  f : Nat
  n : Nat
  next : Nat
  w : Nat
  gen : BitVec 8
  /-- Unconfirmed stores that completed iterations hand on, by iteration (10 R208). -/
  carries : Map (List Nat)
  deriving DecidableEq, Repr

/-- What a sequencer waits for. -/
inductive SeqWait where
  | perm (granule : Nat) (denied : List (Nat × Nat))
  | barrier (b : Nat) (token : BitVec 16) (flipped : Bool) (q : Option Nat)
  | claim (kind : Bool) (first cnt since spent : Nat)
  deriving DecidableEq, Repr

/-- State of a matrix sequencer (11 R226). -/
inductive SeqMode where
  | idle | running | halted
  deriving DecidableEq, Repr

/-- A block's matrix sequencer (11 R226, R228). -/
structure Seq where
  mode : SeqMode
  pc : VA
  q : Map Word
  /-- A pending start: stream address and q0. -/
  pending : Option (VA × Word)
  wait : Option SeqWait
  /-- Payload of an HX word just fetched, and its address (11 R228). -/
  hx : Option (BitVec 23 × VA)
  inherited : List Nat
  deriving DecidableEq, Repr

/-- A resident block (04 R77, 08 R149 to R155, R172, 10 R204, 19 R339 to R348). -/
structure Block where
  core : Nat
  launch : Nat
  linear : Nat
  ctx : Nat
  part : Nat
  prio : Nat
  /-- Coordinates of the block and extent of its grid (02 R42). -/
  coord : Nat × Nat × Nat
  grid : Nat × Nat × Nat
  desc : Desc
  args : Nat
  err : Nat
  /-- The first row of its scratchpad range (08 R150). -/
  baseRow : Nat
  /-- Keys of the gang's blocks in member order (13 R264). -/
  gang : List Nat
  member : Nat
  /-- Scratchpad bytes by offset, full words and poisoned words by word number (08 R153, 11 R253). -/
  spad : Map Byte
  full : Map Bool
  poison : Map Bool
  barriers : Map Barrier
  sems : Map Sem
  lays : Map (BitVec 256)
  loop : LoopCtl
  stages : Map StageEntry
  seq : Seq
  /-- Unconfirmed stores released at block scope by fences and atomics (15 R299). -/
  carry : List Nat
  /-- Address of the fault record a fault-service block serves; 0 elsewhere (02 R42, 14 R288). -/
  fsrec : Nat
  /-- The record a fault-service block serves. -/
  service : Option Nat
  /-- Published a store or atomic beyond block scope (18 R337). -/
  published : Bool
  /-- A member of its gang that has ended, or has been lost, had published (13 R269). -/
  gangPublished : Bool
  /-- Ready to issue: every gang member is resident (13 R264). -/
  started : Bool
  /-- Records of its context that are to be delivered and served before its reels go on after a restore (19 R357). -/
  resuming : List Nat
  /-- Its place in the order in which blocks were started (19 R354). -/
  born : Nat
  deriving DecidableEq, Repr

/-! ## The core -/

/-- A cached permission leaf: context, first VA, size, and its x, w and rd bits (08 R163). -/
structure LookEntry where
  ctx : Nat
  lo : Nat
  size : Nat
  x : Bool
  w : Bool
  r : Bool
  deriving DecidableEq, Repr

/-- A victim tag: the line and the reel slot whose access filled it (08 R170). -/
structure Victim where
  line : Nat
  slot : Nat
  deriving DecidableEq, Repr

/-- An L1 sector: its bytes, the reel slot that filled it, and whether it is of memory class 1 (08 R159, R170, R171). -/
structure L1Sector where
  data : BitVec 256
  slot : Nat
  scored : Bool
  deriving DecidableEq, Repr

/-- State of an operand slot (11 R223). -/
inductive SlotState where
  | empty
  /-- Type code of `mload`, role B, K or group count, plane count. -/
  | loaded (type : Nat) (roleB : Bool) (k : Nat) (planes : Nat)
  deriving DecidableEq, Repr

/-- A claimed operand slot: its block, state and contents by element (11 R222, R223). -/
structure OmSlot where
  owner : Nat
  state : SlotState
  data : Map Word
  deriving DecidableEq, Repr

/-- Scale declarations of a tile: layout register, L and Ktot (11 R240). -/
structure Scale where
  lay : Nat
  len : Nat
  ktot : Nat
  deriving DecidableEq, Repr

/-- A claimed accumulator tile (11 R222, R224): format 0 unformatted, 1 binary32, 2 binary64, 3 int32. -/
structure AcTile where
  owner : Nat
  fmt : Nat
  bad : Bool
  sat : Bool
  /-- Sticky invalid, overflow, underflow and inexact in the order of `fflags`. -/
  flags : BitVec 5
  /-- K positions accumulated, in full. -/
  count : BitVec 32
  rowScale : Option Scale
  colScale : Option Scale
  data : Map DWord
  deriving DecidableEq, Repr

/-- Kinds of engine command (11 R245). -/
inductive EngOp where
  | layset (lay : Nat) (spad : Bool) (addr : Nat)
  | cpy (dst src : Nat)
  | gath (data table : Nat)
  | scat (table data : Nat)
  /-- The uniform registers that hold q0's value and the offset, read at acceptance (11 R228). -/
  | mstart (sd sa : Nat)
  deriving DecidableEq, Repr

/-- A command of a reel to an engine or the sequencer (11 R245 to R253): not accepted, accepted, or performed and waiting for its release. -/
structure EngCmd where
  id : Nat
  reel : Nat
  block : Nat
  pc : VA
  word : Word
  lanes : Word
  op : EngOp
  sem : Nat
  scope : Nat
  inc : Nat
  policy : Nat
  accepted : Bool
  performed : Bool
  /-- Layout descriptors as they stood at acceptance: destination, source or data, index. -/
  lays : List (BitVec 256)
  /-- Its progress: pieces a copy, rows a gather or scatter has moved (11 R255); and the source of a copy onto itself, read before its first write
  (11 R248). -/
  done : Nat
  ahead : List Nat
  /-- Stores of the command still to be confirmed for its release, and the stores it inherits (11 R250, 15 R299). -/
  stores : List Nat
  inherited : List Nat
  /-- The open record of a faulted command. -/
  record : Option Nat
  deriving DecidableEq, Repr

/-- An issue slot of a core (08 R168, R169): the reel slots that have issued in it, the longest ago first, and the reel slots that stand ready
for it and have been passed over, each with the cycle since which it has been. -/
structure IssueQ where
  order : List Nat
  passed : Map Nat
  deriving DecidableEq, Repr

/-- A core (08). -/
structure Core where
  live : Bool
  /-- Steps of 48 KiB given to scratchpad while it holds a block (08 R149). -/
  division : Option Nat
  /-- The protection context whose entries the lookaside holds last (08 R163). -/
  ctx : Option Nat
  l1 : Map L1Sector
  /-- Instruction lines of 128 bytes by VA / 128 (08 R160). -/
  icache : Map (BitVec 1024)
  look : List LookEntry
  victims : List Victim
  cap : Nat
  hits : Nat
  misses : Nat
  slotHits : Map Nat
  scores : Map Nat
  /-- Slots chosen at the last recomputation: those of lowest score, and those that were denied throughout the window before it; and the slots that
  stand denied, each with the time since which it has (08 R170). -/
  allowed : List Nat
  extra : List Nat
  denied : Map Nat
  windowStart : Nat
  /-- Time at which the core's cycle counter read 0 (22 R386). -/
  cycleBase : Nat
  /-- The vector slot and the slot of memory, control and engines (08 R168). -/
  vecSlot : IssueQ
  memSlot : IssueQ
  /-- Unconfirmed stores handed on by the releases of domain scope and wider that the core has made (15 R299). -/
  carry : List Nat
  om : Map OmSlot
  ac : Map AcTile
  cmds : List EngCmd
  /-- Shootdown in progress: context, range, and the loads and stores to leave the core first (08 R164). -/
  shoot : List (Nat × Nat × Nat × List Nat)
  deriving DecidableEq, Repr

/-! ## Requests, stores and records -/

/-- One line's share of a store: bytes by mask and data (09 R179). -/
structure LineImg where
  line : Nat
  mask : BitVec 128
  data : BitVec 1024
  lanes : Word
  deriving DecidableEq, Repr

/-- State of one line of an outstanding store (04 R88). -/
inductive LineState where
  | sent | confirmed | faulted (rec : Nat) | settled
  deriving DecidableEq, Repr

/-- A global store, an ATOMG or an `spost` from issue until every line is settled and every invalidation it caused is acknowledged; `attr`
says that it holds an attribution entry (08 R165, R166). -/
structure OutStore where
  core : Nat
  /-- The core whose domain's slice its lines were sent to: another than `core` after a restore elsewhere (19 R357). -/
  origin : Nat
  slot : Nat
  /-- Key of its reel; none for an engine's store. -/
  reel : Option Nat
  launch : Nat
  block : Nat
  linear : Nat
  ctx : Nat
  pc : VA
  inst : Word
  lanes : Word
  seq : BitVec 16
  stamp : BitVec 20
  ex : Bool
  attr : Bool
  lines : Map LineState
  /-- Invalidations it caused that are not yet acknowledged (09 R191). -/
  acks : Nat
  /-- Still counted in its reel's st (04 R88). -/
  counted : Bool
  /-- A store of an engine's command (11 R250). -/
  eng : Bool
  /-- The retired count of its reel once the reel is gone or saved (08 R166). -/
  last : Option (BitVec 20)
  deriving DecidableEq, Repr

/-- A load's read of a sector: its core, reel and load, whether it installs in the L1, the memory class and the HC policy. -/
structure Reading where
  core : Nat
  reel : Nat
  load : Nat
  install : Bool
  cls : Nat
  policy : Nat
  deriving DecidableEq, Repr

/-- A translation of a 64 KiB granule (14 R277, R278): the granule's physical address, sharing mode, grain in bytes, counted. -/
structure Xlat where
  pa : Nat
  mode : Nat
  grain : Nat
  ac : Bool
  deriving DecidableEq, Repr

/-- Who waits for the acknowledgement of an invalidation: no one, the release of a store's issuer, or the agent of a host line (14 R275, 21
R367). -/
inductive AckTo where
  | nobody | store (sid : Nat) | host (line : Nat)
  deriving DecidableEq, Repr

/-- What a message asks or says (14 R270 to R276). -/
inductive Body where
  /-- A load's request for a 32-byte sector, on its way to the slice. -/
  | read (r : Reading) (sector : Nat)
  /-- A store line on its way to the slice. -/
  | write (sid : Nat) (img : LineImg)
  /-- One line's share of a global atomic on its way to the slice: its store record, and with ret = 1 the reel and load it answers. -/
  | atomic (sid : Nat) (reader : Option (Nat × Nat)) (op : AtomKind) (wide : Bool) (lanes : List AtomLane)
  /-- A watch registration or deregistration of a reel's slot, with its identity. -/
  | watch (reel slot reg va : Nat) (add : Bool)
  /-- A guest's fill request at the home. -/
  | fillReq (dom sector : Nat) (x : Xlat)
  /-- The home's answer to fill request `req`; `install` unless the page is home-only. `mate` is the other sector of a 64-byte host line. -/
  | fill (dom sector req : Nat) (data : BitVec 256) (mate : Option (BitVec 256)) (install : Bool)
  /-- A write line on its way to its home, with its granule's translation. -/
  | homeWrite (sid : Nat) (img : LineImg) (x : Xlat)
  /-- An atomic on its way to its home. -/
  | homeAtomic (sid : Nat) (reader : Option (Nat × Nat)) (op : AtomKind) (wide : Bool) (lanes : List AtomLane) (x : Xlat)
  /-- A watch registration or deregistration on its way to its home. -/
  | homeWatch (reel slot reg va : Nat) (add : Bool) (x : Xlat)
  /-- Contributions to reduction cells of one line, at the home since a time. -/
  | contrib (sid line : Nat) (lanes : List AtomLane) (since : Nat) (x : Xlat)
  /-- A confirmation of a store's line, on its way to the core. -/
  | confirm (sid line : Nat)
  /-- The old values of an atomic's lanes in a line, on their way to the load that waits for them. -/
  | atomAns (sid reel load line : Nat) (olds : List (Nat × Nat))
  /-- An invalidation of a grain at a guest. -/
  | inval (va grain : Nat) (whom : AckTo)
  /-- A guest's acknowledgement. -/
  | ack (whom : AckTo)
  /-- A watcher's report, or its loss in a scrub. -/
  | report (reel slot reg : Nat) (lost : Bool)
  /-- The home's answer to a registration: status 0, 1 or 2 and the grain in bytes. -/
  | watchAns (reel slot reg : Nat) (status grain : Nat)
  deriving DecidableEq, Repr

/-- A message: where it comes from and goes to (domain numbers, or 64 for outside), the core it comes from or is for, whether it stands at
its slice awaiting a translation (14 R271), and what it says. Its key orders it among messages. -/
structure Msg where
  src : Nat
  dst : Nat
  core : Nat
  arrived : Bool
  body : Body
  deriving DecidableEq, Repr

/-- Delivery state of a record (14 R287). -/
inductive RecState where
  | waiting | secure | delivered | resolved
  deriving DecidableEq, Repr

/-- A fault record as its 256 bytes say, field by field, with what the device keeps beside it (14 R285, 09 R186). -/
structure FaultRec where
  kind : Nat
  exited : Bool
  load : Bool
  store : Bool
  engine : Bool
  hmode : Bool
  held : Bool
  context : Nat
  part : Nat
  launch : Nat
  block : Nat
  lcore : Nat
  pcore : Nat
  bangen : Nat
  reel : Nat
  detail : Nat
  seq : Nat
  skid : Nat
  inst : Word
  pc : VA
  lanes : Word
  va : Nat
  line : Nat
  pa : Nat
  level : Nat
  stage : Bool
  aux : Word
  bmask : BitVec 128
  image : BitVec 1024
  /-- Kept by the device: the split and instruction address of a precise fault; the held or naming reel and the block's key; its load, its
  store with the part of it at fault, and its engine command; the atomic's lanes for a retry; and the domain. -/
  split : Nat
  ipc : VA
  reelKey : Option Nat
  blockKey : Nat
  loadId : Option Nat
  sid : Option Nat
  piece : Nat
  cmd : Option Nat
  atom : Option (AtomKind × Bool × List AtomLane)
  dom : Nat
  state : RecState
  /-- Ring address once delivered, and whether its ring slot is still taken (14 R287, R292). -/
  addr : Nat
  slotTaken : Bool
  /-- A service block has been started for it. -/
  served : Bool
  deriving DecidableEq, Repr

/-! ## The domain -/

/-- Where the bytes of a whole sector stand: Clean, Dirty or Guest (14 R270). -/
inductive HeldKind where
  | clean | dirty | guest
  deriving DecidableEq, Repr

/-- A whole sector held: its kind, its physical address, the sharing mode of its page and whether accesses to the page are counted (14 R273,
R283), and its bytes. -/
structure Held where
  kind : HeldKind
  pa : Nat
  mode : Nat
  ac : Bool
  data : BitVec 256
  deriving DecidableEq, Repr

/-- The bytes that one store has written to a sector and that are not yet resolved: the store and the core that wrote them; Provisional, or
Forwarded once translated to another home; whether later reads pass them by and go to the home behind them; and which bytes (14 R270 to R272). -/
structure Layer where
  sid : Nat
  core : Nat
  forwarded : Bool
  hidden : Bool
  data : BitVec 256
  mask : BitVec 32
  deriving DecidableEq, Repr

/-- An outstanding fill: its request, the physical address, sharing mode and counting it was asked with, whether it was marked use-once, and the loads
that wait on it (14 R270, R276). -/
structure Fill where
  req : Nat
  pa : Nat
  mode : Nat
  ac : Bool
  useOnce : Bool
  waiting : List Reading
  deriving DecidableEq, Repr

/-- An L2 sector that is not Invalid (14 R270): Provisional or Forwarded by the layers written over it, oldest first, else Clean, Dirty or Guest by
what is held, else Pending by its fills. A home sector keeps its own bytes below provisional layers until the translation resolves. -/
structure L2Sector where
  held : Option Held
  laid : List Layer
  fills : List Fill
  deriving DecidableEq, Repr

/-- A watcher: reel and slot, with the registration's identity (14 R274). -/
structure Watcher where
  reel : Nat
  slot : Nat
  reg : Nat
  deriving DecidableEq, Repr

/-- A directory entry of a grain (14 R274). -/
structure DirEntry where
  va : Nat
  grain : Nat
  sharers : BitVec 64
  watchers : List Watcher
  deriving DecidableEq, Repr

/-- An exact-reduction slot (03 R74): the cell's VA, the sum in units of 2^-149, flags, and counts. -/
structure RedSlot where
  va : Nat
  sum : Int
  posInf : Bool
  negInf : Bool
  nan : Bool
  /-- Every contribution so far was −0; some contribution was non-zero or −0. -/
  allNegZero : Bool
  anyNzOrNeg : Bool
  count : Nat
  declared : Nat
  rm : Nat
  launch : Nat
  /-- The context and partition of the launch that opened it (09 R190). -/
  ctx : Nat
  part : Nat
  deriving DecidableEq, Repr

/-- A domain (14, 18, 22). -/
structure Domain where
  /-- L2 sectors by VA / 32 (14 R270). -/
  l2 : Map L2Sector
  /-- Directory entries by the grain's first PA (14 R274). -/
  dir : Map DirEntry
  /-- Cached translations by VA / 65536, and walks in progress or queued, oldest first (14 R277). -/
  xlats : Map Xlat
  walks : List Nat
  /-- Local and remote access counts by granule, and the ring's write index (14 R283). -/
  counts : Map (Nat × Nat)
  ctrIdx : Nat
  /-- Reduction slots by the cell's PA (03 R74). -/
  slots : Map RedSlot
  /-- Current limiter (18 R328, R329): level, consecutive saturated samples over the cap, consecutive samples below
  saturation, the time of the last sample, and the bubble count with the core cycle up to which it stands. -/
  level : Nat
  satSamples : Nat
  okSamples : Nat
  sampleAt : Nat
  bubbles : BitVec 48
  bubblesAt : Nat
  cap : Nat
  /-- Operating point (18 R330): that of the power register, those that the power rule and the thermal rule ask for, 0 where they ask for none, and
  the time from which the thermal rule may act again (18 R329, 22 R393). -/
  setPoint : Nat
  powerAsk : Nat
  thermAsk : Nat
  thermAt : Nat
  relocking : Bool
  /-- Its core clock (18 R330): the cycles counted at a time. -/
  clkBase : Nat
  clkAt : Nat
  part : Nat
  fenced : Bool
  regFailed : Bool
  /-- Unreachable DRAM ranges, none touching another: first offset and size (18 R334). -/
  lostRanges : List (Nat × Nat)
  /-- Heartbeats missed in a row, and when the last one came or was due (18 R335). -/
  missed : Nat
  beatAt : Nat
  /-- Route entries that firmware has changed, by destination (18 R320). -/
  routes : Map (BitVec 64)
  /-- Management registers of domain scope (22 R391). -/
  frames : Nat
  ctrBase : Nat
  ctrSize : Nat
  ctrThr : Nat
  biasBase : Nat
  /-- Bias of a page by page number: 0 device, 1 host, 2 and 3 in transition (21 R370). -/
  bias : Map (BitVec 2)
  /-- Host snoop filter, oldest first: 64-byte line and whether the host may own it (21 R371). -/
  snoop : List (Nat × Bool)
  /-- Back-invalidate snoops sent and not answered: line, and whether it invalidates (21 R371, R372). -/
  biOut : List (Nat × Bool)
  deriving DecidableEq, Repr

/-- A partition's registers (22 R391, 18 R332). -/
structure Partition where
  ctxtab : Nat
  xlat1 : Nat
  xlat2 : Nat
  fringBase : Nat
  fringSize : Nat
  /-- The ring slot after the one written last (14 R287). -/
  fringNext : Nat
  conn : BitVec 16
  grace : Nat
  kill : Nat
  slice : Nat
  /-- Save areas by context: base and size (19 R356); when the current time slice began (19 R354). -/
  save : Map (Nat × Nat)
  sliceAt : Nat
  deriving DecidableEq, Repr

/-! ## Launches and dispatch -/

/-- The fields of a launch packet (19 R338). -/
structure Packet where
  irq : Bool
  gang : Nat
  after : Bool
  prio : Nat
  hmode : Nat
  cls : Nat
  hstride : Int
  haddr : Nat
  limit : Nat
  nx : Nat
  ny : Nat
  nz : Nat
  err : Nat
  cw : Nat
  args : Nat
  kdesc : Nat
  /-- A non-zero field marked 0, or an address with [63:55] not 0 (19 R338, R339). -/
  malformed : Bool
  /-- The completion word can be written (19 R339). -/
  cwOk : Bool
  deriving DecidableEq, Repr

/-- Where a launch stands until its completion word is written (19 R345, R351, R352): `written` while the word is on its way, as one of the messages
below a mark (21 R375). -/
inductive LaunchState where
  | queued | admitted | written (mark : Nat)
  deriving DecidableEq, Repr

/-- Where a launch comes from (19 R343, R344): its queue's registration and descriptor, the slot it was bound to, and its order among what was taken
from queues. -/
structure QueueRef where
  reg : Nat
  desc : Nat
  slot : Nat
  order : Nat
  deriving DecidableEq, Repr

/-- A launch the dispatcher holds (19 R338 to R353). -/
structure Launch where
  state : LaunchState
  pkt : Packet
  desc : Desc
  ctx : Nat
  part : Nat
  prio : Nat
  /-- None for a device launch. -/
  queue : Option QueueRef
  npf : Bool
  vector : Nat
  admitAt : Nat
  /-- A concurrent launch that has found no room at its last attempt (19 R345). -/
  waits : Bool
  /-- Identities of the registrations that its reels have given up (09 R202). -/
  leaving : List Nat
  /-- Blocks not yet started begin at `nextBlock`; `replay` are to be started again; `ended` have ended. -/
  nextBlock : Nat
  replay : List Nat
  ended : List Nat
  /-- Status, detail and kind once decided early: refused, aborted, killed or timed out. -/
  verdict : Option (Nat × Nat × Nat)
  deriving DecidableEq, Repr

/-- A queue bound to a slot, or known to the dispatcher by its registration (19 R343, R344, 21 R373). -/
structure QueueBind where
  reg : Nat
  desc : Nat
  collective : Bool
  ctx : Nat
  part : Nat
  cap : Nat
  npf : Bool
  vector : Nat
  boundAt : Nat
  /-- The context of a collective ring has been killed since its last notify (21 R382). -/
  killed : Bool
  deriving DecidableEq, Repr

/-- How far a pre-emption has climbed (19 R355). -/
inductive PreStep where
  | soft | stopped | saved
  deriving DecidableEq, Repr

/-- Who asks for a pre-emption (19 R354). -/
inductive PreBy where
  | dispatcher | system | slice
  deriving DecidableEq, Repr

/-- A pre-emption request (19 R354, R355): its blocks, context and partition, when it was made, and its save area; one of a context stands
until the context is restored. -/
structure PreReq where
  blocks : List Nat
  ctx : Nat
  part : Nat
  asker : PreBy
  since : Nat
  step : PreStep
  area : Nat × Nat
  deriving DecidableEq, Repr

/-- A saved block: its image as structured data (19 R356), beside the bytes of it that stand in memory. -/
structure Saved where
  key : Nat
  block : Block
  reels : Map Reel
  om : Map OmSlot
  ac : Map AcTile
  cmds : List EngCmd
  ctx : Nat
  gen : Nat
  savedAt : Nat
  /-- The physical address of its image, where the save area lies in this wafer's DRAM. -/
  image : Option Nat
  /-- Its save area, and there its place: the directory entry, the image's offset and its size. -/
  area : Nat × Nat
  entry : Nat
  offset : Nat
  size : Nat
  deriving DecidableEq, Repr

/-! ## Host, fabric, management -/

/-- CXL.cache state of a host line in an agent (21 R367); I is not listed. -/
inductive HostState where
  | shared | exclusive | modified
  deriving DecidableEq, Repr

/-- A 64-byte host line tracked by an agent: its state and bytes, the domains that hold it as Guest, the line's virtual address there, the
acknowledgements still to come, and whether the domain copies are being invalidated (21 R367). -/
structure HostLine where
  state : HostState
  data : BitVec 512
  mask : BitVec 64
  va : Nat
  acks : Nat
  deriving DecidableEq, Repr

/-- A request of an agent to the host that awaits its response: 0 RdShared, 1 RdOwn, 3 DirtyEvict, 4 a DirtyEvict whose bytes
a snoop has taken first; and the bytes of a DirtyEvict (21 R367). -/
structure HostReq where
  line : Nat
  op : Nat
  data : BitVec 512
  deriving DecidableEq, Repr

/-- A collective descriptor (21 R379); `cw` as its 64 bits stand. -/
structure CollDesc where
  cw : Nat
  dst : Nat
  src : Nat
  count : Nat
  seq : Nat
  group : Nat
  type : Nat
  op : Nat
  root : Nat
  malformed : Bool
  deriving DecidableEq, Repr

/-- A posted collective (21 R379 to R382): its descriptor, ring context and partition, member wafers in member order, and, once it is decided, the
value its completion word will take. -/
structure Coll where
  id : Nat
  desc : CollDesc
  ctx : Nat
  part : Nat
  members : List Nat
  outcome : Option Nat
  deriving DecidableEq, Repr

/-- What the tier holds after a drain (21 R383): the Reluf target, the segments by tier offset, and the fields of the header at offset 2^41, the
states of the domains and the CRCs by domain. -/
structure Tier where
  target : Nat
  cells : List Host.Cell
  version : Nat
  gen : Nat
  states : List Nat
  crcs : List Nat
  headerCrc : Nat
  deriving DecidableEq, Repr

/-- A firmware image of a slot (22 R388). -/
structure Image where
  version : Nat
  rollback : Nat
  raiseMin : Option Nat
  accepted : Bool
  deriving DecidableEq, Repr

/-- Module-wide management registers and status (22 R391). -/
structure Mgmt where
  ready : Bool
  recovery : Bool
  thermal : Bool
  power : Bool
  moved : Bool
  banner : Nat
  hframes : Nat
  dbbase : Nat
  dbreg : Nat
  fabno : BitVec 12
  rroute : Nat
  gtab : Nat
  cxFenced : Nat
  cxDropped : Nat
  /-- The compute rails have been removed, or will be when the drain that a trip started ends (22 R393). -/
  railsOff : Bool
  tripped : Bool
  /-- Doorbells pending, in the order their bits were set (21 R374), and doorbells that device code has written and whose notify is to come (21
  R373). -/
  pendingBells : List Nat
  rung : List Nat
  /-- The bound firmware measured at boot, in microseconds: no slice is shorter (19 R358). -/
  saveBound : Nat
  drainTarget : Nat
  drainMode : Nat
  drainStatus : Nat
  drainRunning : Bool
  absentMask : BitVec 64
  skippedMask : BitVec 64
  corruptMask : BitVec 64
  drainGen : Nat
  deriving DecidableEq, Repr

/-- What the module has last answered to the host or to system software (model's own: it holds an output). -/
inductive Answer where
  /-- Data of a read of HDM, poisoned or not (21 R366, R371). -/
  | hdmRead (poisoned : Bool) (data : BitVec 512)
  /-- A write of HDM, dropped or serialised. -/
  | hdmWrite (dropped : Bool)
  /-- A snoop of a host line, with the bytes of a modified one (21 R367). -/
  | snoop (line : Nat) (data : Option (BitVec 512))
  /-- A configuration request: 0 done, 1 retry status before ready, 2 refused (21 R365, 22 R385). -/
  | config (status : Nat)
  /-- A write of a management register: done or busy (22 R392). -/
  | mgmt (busy : Bool)
  /-- A bias command: 0 done, 1 busy, 2 range fenced (21 R372). -/
  | bias (status : Nat)
  /-- A pre-emption of a context: 0 saved, 1 refused, 2 killed (19 R355). -/
  | preempt (part ctx outcome : Nat)
  /-- A translation shootdown: acknowledged by every slice, or still waiting for one (14 R282). -/
  | shootdown (done : Bool)
  /-- The bytes that another wafer's read or atomic receives, or the status of its registration; none where the request is refused (21 R377). -/
  | far (x : Option Nat)
  /-- The recovery mailbox and the mailbox's extensions (22 R388, R390). -/
  | mailbox (accepted : Bool)
  /-- An attestation report: nonce, registers, and its two signatures (22 R390). -/
  | report (nonce : Nat) (regs : Map (BitVec 384)) (rsa slh : Nat)
  deriving DecidableEq, Repr

/-- Where an error was found and corrected by a retry (08 R174, 18 R334): a core's place, a link's boundary and direction, a DRAM channel's range of a
domain, a domain-level unit. -/
inductive ErrSite where
  | core (core : Nat) (place : EccPlace)
  | link (boundary dir : Nat)
  | channel (dom first size : Nat)
  | unit (dom : Nat)
  deriving DecidableEq, Repr

/-- Boot and attestation (22 R388 to R390). -/
structure Boot where
  slotA : Option Image
  slotB : Option Image
  fusedMin : Nat
  /-- The slot booted, and the minimum it asks for, until that boot reaches ready. -/
  booted : Option Bool
  meas : Map (BitVec 384)
  deriving DecidableEq, Repr

/-- The wafer's Banner and mesh (18). -/
structure Wafer where
  gen : Nat
  gstart : Nat
  /-- Boundaries with traffic in both directions, and links lost by boundary and direction (18 R318, R323, R334). -/
  blive : BitVec 112
  linksLost : Map Nat
  /-- Cores fused dead at the last reset, in rising order: they give every live core its logical number (18 R322). -/
  fusedDead : List Nat
  deriving DecidableEq, Repr

/-! ## The machine -/

/-- The bundle being executed (model's own, log entry 2). -/
structure Cur where
  reel : Nat
  split : Nat
  bundle : Bundle
  deriving DecidableEq, Repr

/-- The stream word being executed, with the HX payload bound to it (model's own, log entry 2). -/
structure SCur where
  block : Nat
  pc : VA
  word : Word
  hx : Option (BitVec 23)
  deriving DecidableEq, Repr

/-- What another wafer asks of a home of this one (21 R377): at an address with its granule's translation, a read of a 32-byte sector, a write of a
line's bytes, an atomic, and a registration or deregistration under an identity. -/
inductive FarOp where
  | read (va : Nat) (x : Xlat)
  | write (img : LineImg) (x : Xlat)
  | atomic (op : AtomKind) (wide : Bool) (lanes : List AtomLane) (x : Xlat)
  | watch (id va : Nat) (add : Bool) (x : Xlat)
  deriving DecidableEq, Repr

/-- Who moves in a step (model's own, log entry 1). -/
inductive Act where
  /-- A split of a reel issues a bundle or tests its wait again; `ext` holds sectors, by physical address, that come from outside. -/
  | issue (reel split : Nat) (ext : List (Nat × Nat))
  /-- A block's sequencer executes its next stream word. -/
  | stream (block : Nat) (ext : List (Nat × Nat))
  /-- An event of the machine or its surroundings. -/
  | event (i : Instr)
  /-- Replacement: an L1 line, an instruction line, an L2 sector leaves its cache, a host line leaves its agent (08 R159, R160, 14 R270,
  21 R367). -/
  | evictL1 (core line : Nat)
  | evictI (core line : Nat)
  | evictL2 (dom sector : Nat)
  | evictHost (line : Nat)
  /-- A request of another wafer arrives at its home on this one (21 R377). -/
  | far (op : FarOp)
  deriving DecidableEq, Repr

/-- One turn: how much time passes, and who moves. -/
structure Turn where
  cycles : Nat
  act : Act
  deriving DecidableEq, Repr

/-- The module's state. `agenda`, `rot`, `cur`, `scur`, `nextId` and `answer` are the model's own; every other field is the spec's. -/
structure State where
  agenda : List Turn
  rot : Nat
  cur : Option Cur
  scur : Option SCur
  nextId : Nat
  answer : Option Answer
  /-- Time since reset in units of 0.4 ns, one cycle of the 2.5 GHz core clock (00 R7). -/
  time : Nat
  reels : Map Reel
  blocks : Map Block
  cores : Map Core
  domains : Map Domain
  parts : Map Partition
  /-- Stacked DRAM by physical address (14 R279). -/
  mem : List Host.Cell
  msgs : Map Msg
  stores : Map OutStore
  faults : Map FaultRec
  launches : Map Launch
  nextLaunch : Nat
  /-- Queues bound to hardware slots, by slot; refusal counters by registration (19 R339, R344). -/
  queues : Map QueueBind
  refusals : Map Nat
  /-- The slot from which the dispatcher last admitted a launch (19 R344). -/
  servedSlot : Nat
  preempts : Map PreReq
  saved : List Saved
  wafer : Wafer
  /-- CXL.cache agents' lines by host address / 64, requests to the host, interrupts raised (21 R367, R375). -/
  hostLines : Map HostLine
  /-- Watchers of host memory at the agents, by 128-byte line of host address (21 R368). -/
  hostDir : Map (List Watcher)
  hostReqs : List HostReq
  irqs : List Nat
  /-- Reluf ports fenced, with the time of it, and wafers declared unreachable (21 R378). -/
  portsFenced : Map Nat
  lostWafers : List Nat
  colls : List Coll
  /-- Abandon messages sent to other wafers: wafer, group and sequence number (21 R382). -/
  abandons : List (Nat × Nat × Nat)
  tier : Option Tier
  /-- Transient errors logged, with the time of each (08 R174, 18 R334). -/
  errLog : List (Nat × ErrSite)
  mgmt : Mgmt
  boot : Boot
  deriving DecidableEq, Repr

/-- How a step stops for good. -/
inductive Fault where
  /-- A physical address of this wafer whose offset lies beyond the 32 GiB of a domain's DRAM, raised by the memory operations: the spec
  gives no such memory (14 R279, 21 R366). Safe: the machine stops where the spec names no effect. -/
  | noSuchMemory (pa : Nat)
  deriving DecidableEq, Repr

/-- Why a step is not given a meaning. -/
inductive Refusal where
  /-- An instruction without a meaning, raised by an arm of `exec`. Safe: nothing is claimed of it. -/
  | notModelled (mnemonic : String)
  /-- A reel instruction executed while no split's bundle is latched, raised by every reel instruction's meaning; `step` never does so.
  Safe: the state names no split for the instruction to act on. -/
  | noIssuer
  deriving DecidableEq, Repr

/-! ## Reset -/

/-- A barrier at block start but for its expected count (08 R172). -/
def Barrier.idle (n : Nat) : Barrier := ⟨n, 0, 0, 0, [], []⟩

/-- A semaphore at block start (08 R172). -/
def Sem.zero : Sem := ⟨0, []⟩

/-- A closed loop (10 R204). -/
def LoopCtl.closed : LoopCtl := ⟨false, 0, 0, 0, 0, 0, []⟩

/-- A sequencer at block start (11 R226, R228). -/
def Seq.idle : Seq := ⟨.idle, 0, [], none, none, none, []⟩

/-- An unarmed watch slot (08 R172). -/
def WatchSlot.unarmed : WatchSlot := ⟨.unarmed, 0, 0, false, 0, false, 0, 64⟩

/-- No hints. -/
def Hints.empty : Hints := ⟨.none, .none, .none, .none, .none, .none⟩

/-- A core after reset (22 R386, 08 R170, 18 R324). -/
def Core.reset : Core where
  live := true
  division := none
  ctx := none
  l1 := []
  icache := []
  look := []
  victims := []
  cap := 32
  hits := 0
  misses := 0
  slotHits := []
  scores := []
  allowed := List.range 32
  extra := []
  denied := []
  windowStart := 0
  cycleBase := 0
  vecSlot := ⟨[], []⟩
  memSlot := ⟨[], []⟩
  carry := []
  om := []
  ac := []
  cmds := []
  shoot := []

/-- A domain after reset (22 R386, R391). -/
def Domain.reset : Domain where
  l2 := []
  dir := []
  xlats := []
  walks := []
  counts := []
  ctrIdx := 0
  slots := []
  level := 0
  satSamples := 0
  okSamples := 0
  sampleAt := 0
  bubbles := 0
  bubblesAt := 0
  cap := 330
  setPoint := 0
  powerAsk := 0
  thermAsk := 0
  thermAt := 0
  relocking := false
  clkBase := 0
  clkAt := 0
  part := 0
  fenced := false
  regFailed := false
  lostRanges := []
  missed := 0
  beatAt := 0
  routes := []
  frames := 0
  ctrBase := 0
  ctrSize := 0
  ctrThr := 0
  biasBase := 0
  bias := []
  snoop := []
  biOut := []

/-- Partition p after reset (22 R391, 18 R332): register p of the connection matrix permits p. -/
def Partition.reset (p : Nat) : Partition where
  ctxtab := 0
  xlat1 := 0
  xlat2 := 0
  fringBase := 0
  fringSize := 0
  fringNext := 0
  conn := 1 <<< p
  grace := 100
  kill := 10000
  slice := 50
  save := []
  sliceAt := 0

/-- The module's management registers after reset (22 R391). -/
def Mgmt.reset : Mgmt where
  ready := false
  recovery := false
  thermal := false
  power := false
  moved := false
  banner := 0
  hframes := 0
  dbbase := 0
  dbreg := 0
  fabno := 0
  rroute := 0
  gtab := 0
  cxFenced := 0
  cxDropped := 0
  railsOff := false
  tripped := false
  pendingBells := []
  rung := []
  saveBound := 50
  drainTarget := 0
  drainMode := 0
  drainStatus := 0
  drainRunning := false
  absentMask := 0
  skippedMask := 0
  corruptMask := 0
  drainGen := 0

/-- The machine right after reset: every register at its value after reset, no block resident, memory with nothing listed (22 R386). -/
def State.reset : State where
  agenda := []
  rot := 0
  cur := none
  scur := none
  nextId := 1
  answer := none
  time := 0
  reels := []
  blocks := []
  cores := []
  domains := []
  parts := []
  mem := []
  msgs := []
  stores := []
  faults := []
  launches := []
  nextLaunch := 1
  queues := []
  refusals := []
  servedSlot := 63
  preempts := []
  saved := []
  wafer := ⟨1, 1, BitVec.allOnes 112, [], []⟩
  hostLines := []
  hostDir := []
  hostReqs := []
  irqs := []
  portsFenced := []
  lostWafers := []
  colls := []
  abandons := []
  tier := none
  errLog := []
  mgmt := Mgmt.reset
  boot := ⟨none, none, 0, none, []⟩

end Sys2Proof.Machine
end

