-- ==== Sys2Proof/Machine/Maps.lean ====
section
/-! DEFINITION. Sparse maps and memory cells in canonical form: the operations that read and write them. -/

namespace Sys2Proof.Machine

/-- The value listed for a key. -/
def Map.find? {α : Type} : Map α → Nat → Option α
  | [], _ => none
  | (j, v) :: r, k => if j = k then some v else Map.find? r k

/-- The value of a key, `d` where none is listed. -/
def Map.findD {α : Type} (d : α) (m : Map α) (k : Nat) : α := (m.find? k).getD d

/-- Lists `v` for key `k`, in the place of what was listed. -/
def Map.put {α : Type} : Map α → Nat → α → Map α
  | [], k, v => [(k, v)]
  | (j, w) :: r, k, v => if k < j then (k, v) :: (j, w) :: r else if k = j then (k, v) :: r else (j, w) :: Map.put r k v

/-- Removes what is listed for a key. -/
def Map.del {α : Type} : Map α → Nat → Map α
  | [], _ => []
  | (j, w) :: r, k => if j = k then Map.del r k else (j, w) :: Map.del r k

/-- Writes a key of a map whose unlisted keys read `d`: writing `d` removes the entry. -/
def Map.putD {α : Type} [DecidableEq α] (d : α) (m : Map α) (k : Nat) (v : α) : Map α :=
  if v = d then m.del k else m.put k v

/-- Changes what is listed for a key, if anything is. -/
def Map.adjust {α : Type} (m : Map α) (k : Nat) (f : α → α) : Map α :=
  match m.find? k with
  | none => m
  | some v => m.put k (f v)

/-- Changes every listed value. -/
def Map.mapVals {α : Type} (f : Nat → α → α) (m : Map α) : Map α := m.map fun p => (p.1, f p.1 p.2)

/-- Changes every listed value of a map whose unlisted keys read `d`. -/
def Map.mapD {α : Type} [DecidableEq α] (d : α) (f : Nat → α → α) (m : Map α) : Map α :=
  (m.map fun p => (p.1, f p.1 p.2)).filter fun p => p.2 ≠ d

/-- Keeps the entries that satisfy a test. -/
def Map.keep {α : Type} (f : Nat → α → Bool) (m : Map α) : Map α := m.filter fun p => f p.1 p.2

/-- Writes a list of keys and values, the first first. -/
def Map.putAllD {α : Type} [DecidableEq α] (d : α) (m : Map α) : List (Nat × α) → Map α
  | [] => m
  | (k, v) :: r => Map.putAllD d (m.putD d k v) r

/-- The canonical form of a map: keys strictly rising. -/
abbrev Map.sorted {α : Type} (m : Map α) : Prop := m.Pairwise fun a b => a.1 < b.1

/-- The canonical form of memory: addresses strictly rising and no entry equal to 0, which an unlisted address reads as: every byte of
DRAM is written with 0 at power-on (22 R385 step 5). -/
abbrev Memory.wf (m : List Host.Cell) : Prop := (m.Pairwise fun a b => a.1 < b.1) ∧ ∀ c ∈ m, c.2 ≠ 0

/-- One byte of memory. -/
def Memory.read (m : List Host.Cell) (a : Nat) : Byte := Map.findD 0 m a

/-- Writes one byte of memory. -/
def Memory.write (m : List Host.Cell) (a : Nat) (b : Byte) : List Host.Cell := Map.putD 0 m a b

/-- The `n` bytes from address `a`, little-endian, as a number (00 R3). -/
def Memory.readNat (m : List Host.Cell) (a : Nat) : Nat → Nat
  | 0 => 0
  | n + 1 => (Memory.read m a).toNat + 256 * Memory.readNat m (a + 1) n

/-- Writes the `n` low bytes of `x` from address `a`, little-endian. -/
def Memory.writeNat (m : List Host.Cell) (a : Nat) : Nat → Nat → List Host.Cell
  | 0, _ => m
  | n + 1, x => Memory.writeNat (Memory.write m a (BitVec.ofNat 8 x)) (a + 1) n (x / 256)

/-- Writes the bytes of `x` from address `a` whose mask bit is set, of `n`. -/
def Memory.writeMasked (m : List Host.Cell) (a : Nat) : Nat → Nat → Nat → List Host.Cell
  | 0, _, _ => m
  | n + 1, x, mask =>
    Memory.writeMasked (if mask % 2 = 1 then Memory.write m a (BitVec.ofNat 8 x) else m) (a + 1) n (x / 256) (mask / 2)

/-- The lanes of a mask, ascending (00 R9). -/
def laneList (m : Word) : List Nat := (List.range 32).filter fun l => m.getLsbD l

/-- The mask of a list of lanes. -/
def maskOf (ls : List Nat) : Word := ls.foldl (fun a l => a ||| (1 : Word) <<< l) 0

/-- How many bits of a word are 1. -/
def popCount (m : Word) : Nat := (laneList m).length

/-- `n` bytes of a value as a mask of `2^(8n) - 1`. -/
def lowBits (x n : Nat) : Nat := x % 2 ^ n

/-- Bits [hi:lo] of a number. -/
def bitsOf (x hi lo : Nat) : Nat := (x >>> lo) % 2 ^ (hi + 1 - lo)

/-- The two's-complement value of the low `n` bits (00 R9). -/
def sxNat (x n : Nat) : Int :=
  let y := x % 2 ^ n
  if 2 * y < 2 ^ n then y else (y : Int) - 2 ^ n

/-- An integer modulo 2^n. -/
def wrapInt (v : Int) (n : Nat) : Nat := (v % (2 ^ n : Nat)).toNat

/-- A list with an element added at the end unless it is there. -/
def insertNew (xs : List Nat) (x : Nat) : List Nat := if xs.contains x then xs else xs ++ [x]

/-- The union of two lists, the first first. -/
def unionNew (xs ys : List Nat) : List Nat := ys.foldl insertNew xs

/-- A Boolean as a bit. -/
def bit (b : Bool) : Nat := if b then 1 else 0

/-- Fields placed at their lowest bits. -/
def packed (fs : List (Nat × Nat)) : Nat := (fs.map fun f => f.2 * 2 ^ f.1).sum

/-- Bytes of scratchpad a kernel's block takes: whole rows of 192 bytes (08 R150). -/
def roundSpad (n : Nat) : Nat := (n + 191) / 192 * 192

end Sys2Proof.Machine
end

