-- ==== Sys2Proof/Machine/Access.lean ====
section
/-! DEFINITION. The homes of the state: reading and writing reels, blocks, cores, domains and partitions, the clocks, messages, and the register
files of a reel. -/

namespace Sys2Proof.Machine

/-- The outcome of a step. -/
abbrev Out := Host.Outcome State Fault Refusal

/-! ## Homes of the state -/

/-- Writes a reel. -/
def State.setReel (s : State) (k : Nat) (r : Reel) : State := { s with reels := s.reels.put k r }
/-- Writes a block. -/
def State.setBlock (s : State) (k : Nat) (b : Block) : State := { s with blocks := s.blocks.put k b }
/-- A core by physical number (18 R322). -/
def State.core (s : State) (c : Nat) : Core := s.cores.findD Core.reset c
/-- Writes a core. -/
def State.setCore (s : State) (c : Nat) (v : Core) : State := { s with cores := s.cores.putD Core.reset c v }
/-- A domain. -/
def State.domain (s : State) (d : Nat) : Domain := s.domains.findD Domain.reset d
/-- Writes a domain. -/
def State.setDomain (s : State) (d : Nat) (v : Domain) : State := { s with domains := s.domains.putD Domain.reset d v }
/-- A partition's registers. -/
def State.partn (s : State) (p : Nat) : Partition := s.parts.findD (Partition.reset p) p
/-- Writes a partition's registers. -/
def State.setPart (s : State) (p : Nat) (v : Partition) : State := { s with parts := s.parts.putD (Partition.reset p) p v }
/-- Changes a core. -/
def State.onCore (s : State) (c : Nat) (f : Core → Core) : State := s.setCore c (f (s.core c))
/-- Changes a domain. -/
def State.onDomain (s : State) (d : Nat) (f : Domain → Domain) : State := s.setDomain d (f (s.domain d))
/-- Changes a block, if there is one. -/
def State.onBlock (s : State) (k : Nat) (f : Block → Block) : State := { s with blocks := s.blocks.adjust k f }
/-- Changes a reel, if there is one. -/
def State.onReel (s : State) (k : Nat) (f : Reel → Reel) : State := { s with reels := s.reels.adjust k f }
/-- Changes a store, if it is outstanding. -/
def State.onStore (s : State) (k : Nat) (f : OutStore → OutStore) : State := { s with stores := s.stores.adjust k f }

/-- The core of a reel's key: reels are keyed 32 · core + slot. -/
def coreOfKey (k : Nat) : Nat := k / 32
/-- The reel slot of a reel's key (08 R165). -/
def slotOfKey (k : Nat) : Nat := k % 32
/-- The domain of a core (18 R322). -/
def domainOfCore (c : Nat) : Nat := c / Config.coresPerDomain

/-- An event of a domain: a number that names none changes nothing. -/
def inDomain (d : Nat) (s : State) (f : State → Out) : Out := if d < Config.domainCount then f s else .next s
/-- An event of a core. -/
def inCore (c : Nat) (s : State) (f : State → Out) : Out := if c < Config.coreCount then f s else .next s
/-- An event of a partition: there are 16 (18 R332). -/
def inPart (p : Nat) (s : State) (f : State → Out) : Out := if p < 16 then f s else .next s

/-- The logical number of a core: the live cores below it at the last reset (18 R322). -/
def State.lcore (s : State) (c : Nat) : Nat := c - (s.wafer.fusedDead.filter (· < c)).length

/-- The operating point of a domain: the lower of what the power rule and the thermal rule ask for (18 R329). -/
def Domain.point (q : Domain) : Nat := min 3 (max q.setPoint (max q.powerAsk q.thermAsk))
/-- The core clock of an operating point in MHz (18 R330). -/
def pointMHz (p : Nat) : Nat := match p with | 0 => 2500 | 1 => 2200 | 2 => 1800 | _ => 1200
/-- Core cycles of a domain since reset (18 R330). -/
def State.cycles (s : State) (d : Nat) : Nat :=
  let q := s.domain d
  q.clkBase + (s.time - q.clkAt) * pointMHz q.point / 2500
/-- Core cycles of a core's domain since reset. -/
def State.clock (s : State) (c : Nat) : Nat := s.cycles (domainOfCore c)
/-- The cycle counter of a core (02 R42). -/
def State.coreCycles (s : State) (c : Nat) : Nat := s.clock c - (s.core c).cycleBase
/-- The bubble count of a domain (18 R328): its level times the windows of 16 core cycles since it was last brought up to date. -/
def State.bubbleCount (s : State) (d : Nat) : BitVec 48 :=
  let q := s.domain d
  q.bubbles + BitVec.ofNat 48 (q.level * (s.cycles d / 16 - q.bubblesAt / 16))

/-- Is a block's work stopped by a pre-emption that has passed its soft request (19 R355)? -/
def State.stoppedBlock (s : State) (key : Nat) : Bool := s.preempts.any fun p => p.2.step != .soft && p.2.blocks.contains key

/-- Have the records that a restored block's context had waiting been delivered, and have their fault-service blocks been started? A fault-service
block does not wait for them (19 R357). -/
def State.served (s : State) (b : Block) : Bool :=
  b.service.isSome || b.resuming.all fun id =>
    match s.faults.find? id with
    | some f => f.state != .waiting && (f.state != .delivered || f.served)
    | none => true

/-- Does a block's core run: it is live, its domain is up, powered and clocked, the block has started, and nothing has stopped it (13 R264, 18
R330, R331, R334, 19 R355, R357, 21 R383, 22 R393)? -/
def State.runs (s : State) (key : Nat) (b : Block) : Bool :=
  let q := s.domain (domainOfCore b.core)
  (s.core b.core).live && b.started && !q.fenced && !q.regFailed && !q.relocking && !s.mgmt.railsOff
    && !(s.mgmt.drainRunning && s.mgmt.drainMode == 1) && !s.stoppedBlock key && s.served b

/-- Sends a message: its key puts it after every earlier one. -/
def State.send (s : State) (m : Msg) : State := { s with msgs := s.msgs.put s.nextId m, nextId := s.nextId + 1 }

/-! ## Register files -/

/-- Lane `l` of vector register `n` (04 R77). -/
def Reel.vget (r : Reel) (n l : Nat) : Word := r.v.findD 0 (32 * n + l)
/-- Writes lane `l` of vector register `n`. -/
def Reel.vset (r : Reel) (n l : Nat) (x : Word) : Reel := { r with v := r.v.putD 0 (32 * n + l) x }
/-- A uniform register; s0 reads 0 (02 R41). -/
def Reel.sget (r : Reel) (n : Nat) : Word := if n = 0 then 0 else r.s.findD 0 n
/-- Writes a uniform register; a write to s0 is discarded (02 R41). -/
def Reel.sset (r : Reel) (n : Nat) (x : Word) : Reel := if n = 0 then r else { r with s := r.s.putD 0 n x }
/-- A lane mask as a split with lanes `lanes` reads it: k0 is the split's lanes (02 R41). -/
def Reel.kget (r : Reel) (lanes : Word) (n : Nat) : Word := if n = 0 then lanes else r.k.findD 0 n
/-- Writes a lane mask; a write to k0 is discarded (02 R41). -/
def Reel.kset (r : Reel) (n : Nat) (x : Word) : Reel := if n = 0 then r else { r with k := r.k.putD 0 n x }
/-- The vector pair n:n+1 of a lane (03 R58). -/
def Reel.vpair (r : Reel) (n l : Nat) : DWord := pairOf (r.vget (n + 1) l) (r.vget n l)
/-- A uniform pair (00 R8). -/
def Reel.spair (r : Reel) (n : Nat) : DWord := pairOf (r.sget (n + 1)) (r.sget n)
/-- Writes a uniform pair. -/
def Reel.setSpair (r : Reel) (n : Nat) (x : DWord) : Reel := (r.sset n (loWord x)).sset (n + 1) (hiWord x)
/-- A uniform pair as a virtual address: bits [31:23] of the high word are ignored (06 R139, 09 R175). -/
def Reel.saddr (r : Reel) (n : Nat) : VA := (r.spair n).setWidth 55
/-- Writes a split. -/
def Reel.setSplit (r : Reel) (i : Nat) (p : Split) : Reel := { r with splits := r.splits.put i p }

/-- How many vector registers a load of `n` bytes writes. -/
def wordsOf (n : Nat) : Nat := (n + 3) / 4

/-- The vector registers a destination writes. -/
def LoadDst.vregs : LoadDst → List Nat
  | .vec reg n _ => (List.range (wordsOf n)).map (reg + ·)
  | _ => []
/-- The uniform registers a destination writes. -/
def LoadDst.sregs : LoadDst → List Nat
  | .uni reg n => (List.range (wordsOf n)).map (reg + ·)
  | .status reg _ | .launch reg => [reg]
  | _ => []

/-- The vector registers that a split's outstanding scratchpad access will write: those of a load, or of a REMOTE load or atomic, whose bank steps
are still to come (04 R88, 13 R266). -/
def Wait.vregs : Wait → List Nat
  | .fullEmpty a _ _ => if a.load then (List.range (wordsOf a.size)).map (a.reg + ·) else []
  | .remote a _ _ => if a.cls = 1 then [] else [a.reg]
  | _ => []

/-- Is vector register `n` the destination of outstanding work (04 R89)? -/
def Reel.busyV (r : Reel) (n : Nat) : Bool :=
  r.loads.any (fun o => o.dst.vregs.contains n) || r.moves.any (fun m => m.get && (m.reg == n || (m.wide && m.reg + 1 == n)))
    || r.splits.any fun p => (p.2.wait.map Wait.vregs).any (·.contains n)
/-- Is uniform register `n` the destination of an outstanding load (04 R89)? -/
def Reel.busyS (r : Reel) (n : Nat) : Bool := r.loads.any fun o => o.dst.sregs.contains n

/-- Would the next retired instruction bring an in-use attribution entry's skid past 2^20 − 2 (08 R166)? -/
def State.skidFull (s : State) (key : Nat) (r : Reel) : Bool :=
  s.stores.any fun o => o.2.attr && o.2.reel == some key && 2 ^ 20 - 2 ≤ (r.retired - o.2.stamp).toNat

end Sys2Proof.Machine
end

