-- ==== Sys2Proof/Machine/Phys.lean ====
section
/-! DEFINITION. Memory at its home by physical address: bytes under a mask, what the home does beside applying a write, and the reads and writes of
the device's own units, which see what the home's slice holds (14 R270, R275, R279). -/

namespace Sys2Proof.Machine

/-! ## Bytes -/

/-- The bits of the bytes a mask names, of `n`. -/
def expandMask : Nat → Nat → Nat
  | 0, _ => 0
  | n + 1, m => (if m % 2 = 1 then 255 else 0) + 256 * expandMask n (m / 2)

/-- The bytes of `new` that a mask names, over those of `old`. -/
def mergeBytes {n : Nat} (bytes : Nat) (old new : BitVec n) (mask : Nat) : BitVec n :=
  let m := BitVec.ofNat n (expandMask bytes mask)
  (old &&& ~~~m) ||| (new &&& m)

/-- The mask of `n` bytes from byte `off`. -/
def byteMask (off n : Nat) : Nat := (2 ^ n - 1) * 2 ^ off

/-! ## Physical addresses (14 R279) -/

/-- The wafer field of a physical address. -/
def paWafer (pa : Nat) : Nat := bitsOf pa 55 44
/-- The domain field. -/
def paDomain (pa : Nat) : Nat := bitsOf pa 43 38
/-- The offset within the domain. -/
def paOffset (pa : Nat) : Nat := bitsOf pa 37 0

/-! ## Publishing a write (14 R275) -/

/-- Adds invalidations to what a store's release waits for. -/
def State.addAcks (s : State) (sid : Option Nat) (n : Nat) : State :=
  match sid with
  | some i => s.onStore i fun o => { o with acks := o.acks + n }
  | none => s

/-- Who waits for the acknowledgements of the invalidations that a store causes. -/
def ackTo (sid : Option Nat) : AckTo := match sid with | some i => .store i | none => .nobody

/-- The key of a watcher of another wafer, by the number that wafer gave its registration: above every reel's (21 R377). -/
def farWatcher (id : Nat) : Nat := 2 ^ 50 + id

/-- Where a watcher hears of a write: the domain of its reel's core, or 64 for another wafer. -/
def Watcher.dest (w : Watcher) : Nat := if w.reel < 2 ^ 50 then domainOfCore (coreOfKey w.reel) else 64

/-- What the home does beside applying a write to the grain of a directory entry: it invalidates the recorded guests and reports to the
watchers (14 R275). -/
def State.publishEntry (s : State) (h key : Nat) (sid : Option Nat) (e : DirEntry) : State :=
  let guests := (List.range 64).filter fun d => e.sharers.getLsbD d
  let s := guests.foldl (fun s d => s.send ⟨h, d, 0, false, .inval e.va e.grain (ackTo sid)⟩) s
  let s := s.addAcks sid guests.length
  let s := e.watchers.foldl (fun s w =>
    s.send ⟨h, w.dest, coreOfKey w.reel, false, .report w.reel w.slot w.reg false⟩) s
  s.onDomain h fun q => { q with dir := if e.watchers.isEmpty then q.dir.del key else q.dir.put key { e with sharers := 0 } }

/-- The directory entries whose grains overlap `n` bytes from a physical address, by their keys. -/
def Domain.entriesAt (q : Domain) (pa n : Nat) : List (Nat × DirEntry) :=
  q.dir.filter fun e => decide (e.1 < pa + n) && decide (pa < e.1 + e.2.grain)

/-- Publishes a write of `n` bytes at a physical address of a domain, from a party that waits for no acknowledgement. -/
def State.publishRange (s : State) (h pa n : Nat) : State :=
  ((s.domain h).entriesAt pa n).foldl (fun s e => s.publishEntry h e.1 none e.2) s

/-! ## Reads and writes of the device's own units -/

/-- The bytes a home's slice holds for the sector of a physical address. -/
def Domain.heldAt (q : Domain) (pa : Nat) : Option (BitVec 256) :=
  (q.l2.filterMap fun e => e.2.held.bind fun h => if h.kind ≠ .guest ∧ h.pa = pa / 32 * 32 then some h.data else none).head?

/-- Reads `n` bytes within one sector at a physical address of this wafer, as the device's agents do: what the home's slice holds, else DRAM. -/
def State.physRead (s : State) (pa n : Nat) : Nat :=
  match (s.domain (paDomain pa)).heldAt pa with
  | some x => lowBits (x.toNat >>> (8 * (pa % 32))) (8 * n)
  | none => Memory.readNat s.mem pa n

/-- The bytes of a held sector after `n` bytes of `x` have been written from a physical address. -/
def Held.patch (h : Held) (pa n x : Nat) : Held :=
  if h.kind ≠ .guest ∧ pa / 32 * 32 ≤ h.pa ∧ h.pa < pa + n then
    { h with data := (List.range n).foldl (fun (d : BitVec 256) k =>
        if (pa + k) / 32 * 32 = h.pa then
          mergeBytes 32 d (BitVec.ofNat 256 ((x >>> (8 * k)) % 256 * 2 ^ (8 * ((pa + k) % 32)))) (2 ^ ((pa + k) % 32))
        else d) h.data }
  else h

/-- Writes `n` bytes at a physical address of this wafer, as the management controller, the dispatcher and the translation units do: to what the
home's slice holds and to DRAM; published as any write at the home (14 R275). -/
def State.physWrite (s : State) (pa n x : Nat) : State :=
  let s := { s with mem := Memory.writeNat s.mem pa n x }
  let s := s.onDomain (paDomain pa) fun q => { q with l2 := q.l2.mapVals fun _ e => { e with held := e.held.map fun h => h.patch pa n x } }
  s.publishRange (paDomain pa) pa n

end Sys2Proof.Machine
end

