-- ==== Sys2Proof/Machine/SaveImage.lean ====
section
/-! DEFINITION. The bytes of a saved block's image whose places the spec gives: semaphores, layout descriptors, uniform registers, lane masks, vector
registers, scratchpad with its full bits and poison marks, and the contents of claimed slots and tiles (19 R356). The rest of an image is kept beside
memory (log entry 9). What the machine itself changes in a saved block is changed in both (19 R359). -/

namespace Sys2Proof.Machine

/-! ## Places (19 R356) -/

/-- Offset of the layout descriptors: the last 2,048 bytes of the block's state. -/
def laysAt : Nat := 2304
/-- Offset of the registers of the block's reel `i`. -/
def Block.reelAt (b : Block) (i : Nat) : Nat := 4352 + i * (1024 + 128 * b.desc.vregs)
/-- Offset of the scratchpad bytes. -/
def Block.spadAt (b : Block) : Nat := (b.reelAt b.desc.reels + 63) / 64 * 64
/-- Bytes of scratchpad in the image. -/
def Block.spadLen (b : Block) : Nat := roundSpad b.desc.spad
/-- Offset of the full bits, one per word, and behind them of the poison marks. -/
def Block.fullAt (b : Block) : Nat := b.spadAt + b.spadLen
/-- Offset of the poison marks. -/
def Block.poisonMarksAt (b : Block) : Nat := b.fullAt + b.spadLen / 32
/-- Offset of claim `i`: the claimed slots in rising order, then the claimed tiles. -/
def Block.claimAt (b : Block) (i : Nat) : Nat := b.poisonMarksAt + b.spadLen / 32 + 4096 * i

/-! ## Saving -/

/-- Byte `k` of a map's bits, one per word. -/
def bitsByte (m : Map Bool) (k : Nat) : Nat := packed ((List.range 8).map fun i => (i, bit (m.findD false (8 * k + i))))

/-- The fields of a reel's registers: offset within its region, bytes and value. -/
def Reel.image (r : Reel) (vregs : Nat) : List (Nat × Nat × Nat) :=
  ((List.range 64).map fun n => (4 * n, 4, (r.sget n).toNat))
    ++ ((List.range 7).map fun n => (256 + 4 * n, 4, (r.k.findD 0 (n + 1)).toNat))
    ++ (List.range (32 * vregs)).map fun i => (1024 + 4 * i, 4, (r.v.findD 0 i).toNat)

/-- Bytes of an element in a loaded slot (11 R223, R236): 2 for bf16 and f16, 4 for f32 and metadata, 1 for the other types. -/
def SlotState.elemBytes : SlotState → Nat
  | .loaded 0 .. | .loaded 1 .. => 2
  | .loaded 5 .. | .loaded 6 .. => 4
  | _ => 1

/-- The fields of a loaded slot's contents. -/
def OmSlot.image (o : OmSlot) : List (Nat × Nat × Nat) :=
  let n := o.state.elemBytes
  if o.state = .empty then [] else (List.range (4096 / n)).map fun e => (n * e, n, lowBits (o.data.findD 0 e).toNat (8 * n))

/-- Bytes of an element of a tile: a binary64 pair's elements fill both its tiles. -/
def AcTile.elemBytes (t : AcTile) : Nat := if t.fmt = 2 then 8 else 4

/-- The fields of a formatted tile's elements; a pair's stand with its even tile. -/
def AcTile.image (n : Nat) (t : AcTile) : List (Nat × Nat × Nat) :=
  if t.fmt = 0 ∨ (t.fmt = 2 ∧ n % 2 = 1) then []
  else (List.range 1024).map fun e => (t.elemBytes * e, t.elemBytes, lowBits (t.data.findD 0 e).toNat (8 * t.elemBytes))

/-- Fields moved by an offset. -/
def shifted (a : Nat) (fs : List (Nat × Nat × Nat)) : List (Nat × Nat × Nat) := fs.map fun f => (a + f.1, f.2)

/-- The fields of what a block's claims hold. -/
def Block.claimsImage (b : Block) (om : Map OmSlot) (ac : Map AcTile) : List (Nat × Nat × Nat) :=
  (om.zipIdx.flatMap fun o => shifted (b.claimAt o.2) o.1.2.image)
    ++ ac.zipIdx.flatMap fun t => shifted (b.claimAt (om.length + t.2)) (t.1.2.image t.1.1)

/-- The fields of a block's image: offset, bytes and value. -/
def Block.image (b : Block) (reels : Map Reel) (om : Map OmSlot) (ac : Map AcTile) : List (Nat × Nat × Nat) :=
  ((List.range 32).map fun i => (512 + 4 * i, 4, (b.sems.findD Sem.zero i).value.toNat))
    ++ ((List.range 64).map fun i => (laysAt + 32 * i, 32, (b.lays.findD 0 i).toNat))
    ++ (reels.flatMap fun r => shifted (b.reelAt r.1) (r.2.image b.desc.vregs))
    ++ ((List.range (b.spadLen / 4)).map fun w => (b.spadAt + 4 * w, 4, Memory.readNat b.spad (4 * w) 4))
    ++ ((List.range (b.spadLen / 32)).map fun k => (b.fullAt + k, 1, bitsByte b.full k))
    ++ ((List.range (b.spadLen / 32)).map fun k => (b.poisonMarksAt + k, 1, bitsByte b.poison k))
    ++ b.claimsImage om ac

/-- Writes the fields of an image at a physical address. -/
def State.writeImage (s : State) (pa : Nat) (fs : List (Nat × Nat × Nat)) : State := fs.foldl (fun s f => s.physWrite (pa + f.1) f.2.1 f.2.2) s

/-! ## Restoring -/

/-- A word of an image. -/
def State.imageWord (s : State) (a : Nat) : Word := BitVec.ofNat 32 (s.physRead a 4)
/-- A bit of an image's bits, one per word. -/
def State.imageBit (s : State) (a w : Nat) : Bool := (s.physRead (a + w / 8) 1).testBit (w % 8)

/-- A reel's registers as its region of an image holds them. -/
def Reel.reload (s : State) (a vregs : Nat) (r : Reel) : Reel :=
  let r := (List.range 64).foldl (fun (r : Reel) n => r.sset n (s.imageWord (a + 4 * n))) r
  let r := (List.range 7).foldl (fun (r : Reel) n => r.kset (n + 1) (s.imageWord (a + 256 + 4 * n))) r
  { r with v := (List.range (32 * vregs)).foldl (fun m i => m.putD 0 i (s.imageWord (a + 1024 + 4 * i))) r.v }

/-- A block's semaphores, layout descriptors and scratchpad as its image holds them. -/
def Block.reload (s : State) (a : Nat) (b : Block) : Block :=
  let words := List.range (b.spadLen / 4)
  let sem := fun (m : Map Sem) (i : Nat) => m.putD Sem.zero i { m.findD Sem.zero i with value := s.imageWord (a + 512 + 4 * i) }
  { b with
    sems := (List.range 32).foldl sem b.sems
    lays := (List.range 64).foldl (fun m i => m.putD 0 i (BitVec.ofNat 256 (s.physRead (a + laysAt + 32 * i) 32))) b.lays
    spad := words.foldl (fun m w => Memory.writeNat m (4 * w) 4 (s.imageWord (a + b.spadAt + 4 * w)).toNat) b.spad
    full := words.foldl (fun m w => m.putD false w (s.imageBit (a + b.fullAt) w)) b.full
    poison := words.foldl (fun m w => m.putD false w (s.imageBit (a + b.poisonMarksAt) w)) b.poison }

/-- A slot's contents as an image holds them; what planes give is signed (11 R236). -/
def OmSlot.reload (s : State) (a : Nat) (o : OmSlot) : OmSlot :=
  let n := o.state.elemBytes
  let value := fun (x : Nat) => match o.state with
    | .loaded 7 .. => BitVec.ofInt 32 (sxNat x 8)
    | _ => BitVec.ofNat 32 x
  if o.state = .empty then o
  else { o with data := (List.range (4096 / n)).foldl (fun m e => m.putD 0 e (value (s.physRead (a + n * e) n))) o.data }

/-- A tile's elements as an image holds them. -/
def AcTile.reload (s : State) (a n : Nat) (t : AcTile) : AcTile :=
  if t.fmt = 0 ∨ (t.fmt = 2 ∧ n % 2 = 1) then t
  else { t with data := (List.range 1024).foldl (fun m e =>
      m.putD 0 e (BitVec.ofNat 64 (s.physRead (a + t.elemBytes * e) t.elemBytes))) t.data }

/-- What a restore takes: the values of the image in memory, altered or not, and beside them what was saved (19 R356). -/
def Saved.reload (s : State) (v : Saved) : Saved :=
  match v.image with
  | none => v
  | some a =>
    { v with
      block := v.block.reload s a
      reels := v.reels.mapVals fun i r => r.reload s (a + v.block.reelAt i) v.block.desc.vregs
      om := v.om.zipIdx.map fun o => (o.1.1, o.1.2.reload s (a + v.block.claimAt o.2))
      ac := v.ac.zipIdx.map fun t => (t.1.1, t.1.2.reload s (a + v.block.claimAt (v.om.length + t.2)) t.1.1) }

/-! ## Reels and blocks, resident or saved -/

/-- The first key that a saved block can have: its reels follow it by index. -/
def savedBase : Nat := 2 ^ 40

/-- The key by which a saved block's records and stores name it, from a count. -/
def savedKey (n : Nat) : Nat := savedBase + 32 * n

/-- The saved block of a saved reel's key. -/
def State.savedOf (s : State) (key : Nat) : Option Saved :=
  if key < savedBase then none else List.find? (fun v => v.key == key / 32 * 32) s.saved

/-- A reel by its key, resident or saved. -/
def State.reel? (s : State) (key : Nat) : Option Reel :=
  match s.reels.find? key with
  | some r => some r
  | none => (s.savedOf key).bind fun v => v.reels.find? (key - v.key)

/-- The block of a reel, resident or saved, by the block's key. -/
def State.block? (s : State) (key : Nat) : Option Block :=
  match s.blocks.find? key with
  | some b => some b
  | none => (s.savedOf key).map (·.block)

/-- Puts a saved block in the place of what was saved of it. -/
def State.putSaved (s : State) (v : Saved) : State := { s with saved := s.saved.map fun o => if o.key = v.key then v else o }

/-- Changes a reel, resident or saved; the registers of a saved one are written to its image. -/
def State.onAnyReel (s : State) (key : Nat) (f : Reel → Reel) : State :=
  if (s.reels.find? key).isSome then s.onReel key f
  else match s.savedOf key with
    | none => s
    | some v =>
      let i := key - v.key
      let s := s.putSaved { v with reels := v.reels.adjust i f }
      match v.image, v.reels.find? i with
      | some a, some r => s.writeImage a (shifted (v.block.reelAt i) ((f r).image v.block.desc.vregs))
      | _, _ => s

/-- A semaphore after an update (09 R198). -/
def Block.setSem (b : Block) (m : Nat) (value : Word → Word) (carry : List Nat) : Block :=
  let sm := b.sems.findD Sem.zero m
  { b with sems := b.sems.putD Sem.zero m ⟨value sm.value, unionNew sm.carry carry⟩ }

/-- Updates a semaphore of a saved block, in the image too (19 R359). -/
def State.semSaved (s : State) (key m : Nat) (value : Word → Word) (carry : List Nat) : State :=
  match s.savedOf key with
  | none => s
  | some v =>
    let b := v.block.setSem m value carry
    let s := s.putSaved { v with block := b }
    match v.image with
    | some a => s.physWrite (a + 512 + 4 * m) 4 (b.sems.findD Sem.zero m).value.toNat
    | none => s

end Sys2Proof.Machine
end

