-- ==== Sys2Proof/Machine/Ops.lean ====
section
/-! DEFINITION. Named operations over the state: fault records, killing work, finishing an instruction, taking a trap and returning from
it. -/

namespace Sys2Proof.Machine

/-! ## Fault records -/

/-- The low 55 bits of a number as an address. -/
def vaOf (n : Nat) : VA := BitVec.ofNat 55 n

/-- A record with the fields every record of a core has (14 R285). -/
def State.baseRec (s : State) (core ctx launch linear blockKey : Nat) : FaultRec where
  kind := 0
  exited := false
  load := false
  store := false
  engine := false
  hmode := false
  held := false
  context := ctx
  part := (s.domain (domainOfCore core)).part
  launch := launch
  block := linear
  lcore := s.lcore core
  pcore := core
  bangen := s.wafer.gen
  reel := 0
  detail := 0
  seq := 0
  skid := 0
  inst := 0
  pc := 0
  lanes := 0
  va := 0
  line := 0
  pa := 0
  level := 0
  stage := false
  aux := 0
  bmask := 0
  image := 0
  split := 0
  ipc := 0
  reelKey := none
  blockKey := blockKey
  loadId := none
  sid := none
  piece := 0
  cmd := none
  atom := none
  dom := domainOfCore core
  state := .waiting
  addr := 0
  slotTaken := false
  served := false

/-- A record with the fields every record of a block has. -/
def State.blankRec (s : State) (b : Block) (blockKey : Nat) : FaultRec := s.baseRec b.core b.ctx b.launch b.linear blockKey

/-- A record with the fields every record of a reel has (14 R285). -/
def State.reelRec (s : State) (key : Nat) (r : Reel) (b : Block) : FaultRec :=
  { s.blankRec b r.block with reel := slotOfKey key, hmode := r.handler, exited := r.exited, reelKey := some key }

/-- Counts the cycles a full/empty wait has spent when its reel is held (08 R154). -/
def Wait.freeze (t : Nat) : Wait → Wait
  | .fullEmpty a since spent => .fullEmpty a t (spent + (t - since))
  | .remote a since spent => .remote a t (spent + (t - since))
  | w => w

/-- Restarts the count of a full/empty wait at a time, when its hold ends (08 R154). -/
def Wait.thaw (t : Nat) : Wait → Wait
  | .fullEmpty a _ spent => .fullEmpty a t spent
  | .remote a _ spent => .remote a t spent
  | w => w

/-- Changes every split's wait. -/
def Reel.mapWaits (r : Reel) (f : Wait → Wait) : Reel :=
  { r with splits := r.splits.mapVals fun _ p => { p with wait := p.wait.map f } }

/-- Is the reel held (04 R78)? -/
def Reel.held (r : Reel) : Bool := !r.heldBy.isEmpty || r.stopped

/-- Holds a reel by a record (04 R78, R80). -/
def Reel.hold (t : Nat) (r : Reel) (rec : Nat) : Reel :=
  let r := if r.held then r else r.mapWaits (Wait.freeze t)
  { r with heldBy := insertNew r.heldBy rec }

/-- Ends a record's hold; the reel leaves the held state with its last record (14 R291). -/
def Reel.unhold (t : Nat) (r : Reel) (rec : Nat) : Reel :=
  let r := { r with heldBy := r.heldBy.filter (· != rec) }
  if r.held then r else r.mapWaits (Wait.thaw t)

/-- Are all lines settled: confirmed, or resolved by fault service (04 R88)? -/
def OutStore.settled (o : OutStore) : Bool := o.lines.all fun l => l.2 == .confirmed || l.2 == .settled

/-- Has every line been confirmed or faulted, so that the attribution entry is free (08 R166)? -/
def OutStore.attrDone (o : OutStore) : Bool := o.lines.all fun l => l.2 != .sent

/-- Frees what a store no longer needs: its attribution entry, its count in st (which falls once), and its record when every
acknowledgement has come (08 R166, 04 R88, 09 R191). -/
def State.storeProgress (s : State) (sid : Nat) : State :=
  match s.stores.find? sid with
  | none => s
  | some o =>
    let o := if o.attrDone then { o with attr := false } else o
    let falls := o.settled && o.counted
    let s :=
      match falls, o.reel with
      | true, some k => s.onReel k fun r => { r with st := r.st - 1 }
      | _, _ => s
    let o := if falls then { o with counted := false } else o
    if o.settled && o.acks == 0 then { s with stores := s.stores.del sid } else { s with stores := s.stores.put sid o }

/-- Sets the state of a store's line. -/
def State.setLine (s : State) (sid line : Nat) (st : LineState) : State :=
  (s.onStore sid fun o => { o with lines := o.lines.adjust line fun _ => st }).storeProgress sid

/-- A wait after semaphore `m` has taken value `v` (09 R198). -/
def Wait.semReady (m : Nat) (v : Word) : Wait → Wait
  | .sem m' th ready => .sem m' th (ready || (m' == m && (v - th).toNat < 2 ^ 31))
  | w => w

/-- Adds to a semaphore of a block, resident or saved, and readies the waiters it satisfies (09 R198, 19 R359). -/
def State.semUpdate (s : State) (blockKey m : Nat) (value : Word → Word) (carry : List Nat) : State :=
  match s.blocks.find? blockKey with
  | none => s.semSaved blockKey m value carry
  | some b =>
    let b := b.setSem m value carry
    let v := (b.sems.findD Sem.zero m).value
    { s.setBlock blockKey b with reels := s.reels.mapVals fun _ r =>
        if r.block = blockKey then r.mapWaits (Wait.semReady m v) else r }

/-- Marks a resolved record: it holds no reel, and its ring slot is free unless a kill left it to its service block (14 R287, R292). -/
def State.closeRecord (s : State) (id : Nat) (keepSlot : Bool) : State :=
  match s.faults.find? id with
  | none => s
  | some f =>
    let s :=
      match f.reelKey with
      | some k => s.onAnyReel k fun r => r.unhold (s.clock (coreOfKey k)) id
      | none => s
    { s with faults := s.faults.put id { f with state := .resolved, slotTaken := f.slotTaken && keepSlot } }

/-- An engine command by its identity, on a core or saved. -/
def State.findCmd? (s : State) (id : Nat) : Option EngCmd :=
  match s.cores.findSome? fun c => c.2.cmds.find? fun e => e.id == id with
  | some e => some e
  | none => s.saved.findSome? fun v => v.cmds.find? fun e => e.id == id

/-- Changes the commands of every core and of what is saved. -/
def State.mapCmds (s : State) (f : List EngCmd → List EngCmd) : State :=
  { s with cores := s.cores.mapD Core.reset fun _ c => { c with cmds := f c.cmds }, saved := s.saved.map fun v => { v with cmds := f v.cmds } }

/-- Changes the command of an identity. -/
def State.changeCmd (s : State) (id : Nat) (f : EngCmd → EngCmd) : State := s.mapCmds fun cs => cs.map fun e => if e.id = id then f e else e

/-- The drop of a record's work (14 R291): a load's faulted pieces are lost, a store's line is settled, an engine command's semaphore rises. -/
def State.dropWork (s : State) (id : Nat) : State :=
  match s.faults.find? id with
  | none => s
  | some f =>
    let s :=
      match f.reelKey, f.loadId with
      | some k, some l => s.onAnyReel k fun r => { r with loads := r.loads.map fun o =>
          if o.id = l then
            { o with recs := o.recs.filter (· != id)
                     pieces := o.pieces.map fun p => if p.data.isNone && p.va / 128 * 128 = f.line then { p with lost := true } else p }
          else o }
      | _, _ => s
    let s := match f.sid with | some sid => s.setLine sid f.piece .settled | none => s
    match f.cmd.bind s.findCmd? with
    | some e => (s.mapCmds fun cs => cs.filter fun o => o.id != e.id).semUpdate e.block e.sem (· + BitVec.ofNat 32 e.inc) []
    | none => s

/-- Resolves a record as drop at a kill: undelivered records are discarded (14 R292). -/
def State.dropAtKill (s : State) (id : Nat) : State :=
  match s.faults.find? id with
  | none => s
  | some f =>
    if f.state == .resolved then s
    else
      let s := (s.dropWork id).closeRecord id true
      if f.state == .delivered then s else { s with faults := s.faults.del id }

/-- Changes a launch that the dispatcher holds. -/
def State.onLaunch (s : State) (id : Nat) (f : Launch → Launch) : State := { s with launches := s.launches.adjust id f }

/-- Disarms a watch slot of a reel: its latch is cleared and its home entry is to be freed (09 R202). -/
def State.disarm (s : State) (key slot : Nat) : State :=
  match s.reels.find? key with
  | none => s
  | some r =>
    let w := r.watches.findD WatchSlot.unarmed slot
    if w.state = .unarmed then s
    else
      let s := s.send ⟨domainOfCore (coreOfKey key), domainOfCore (coreOfKey key), coreOfKey key, false, .watch key slot w.reg w.va false⟩
      let s := match s.blocks.find? r.block with
        | some b => s.onLaunch b.launch fun l => { l with leaving := l.leaving ++ [w.reg] }
        | none => s
      s.onReel key fun r => { r with watches := r.watches.putD WatchSlot.unarmed slot { WatchSlot.unarmed with status := w.status } }

/-- Kills a reel, resident or saved (14 R292): its loads are discarded, its stores go on to confirmation, its records are resolved as drop, its
watches are disarmed, and its staged-loop iteration stays live. -/
def State.killReel (s : State) (key : Nat) : State :=
  match s.reel? key with
  | none => s
  | some r =>
    if r.exited || r.killed then s
    else
      let ids := (s.faults.filter fun f => f.2.reelKey == some key).map (·.1)
      let s := ids.foldl State.dropAtKill s
      let s := (s.disarm key 0).disarm key 1
      s.onAnyReel key fun r =>
        { r with killed := true, splits := [], loads := [], moves := [], ld := 0, heldBy := [], stopped := false, watches := [] }

/-- Is a reduction slot free once a launch has been killed: it opened the slot, or the launch that did has gone and no launch of the context is left
that has not been ended by force (09 R190)? -/
def State.freesSlot (s : State) (launch : Nat) (x : RedSlot) : Bool :=
  x.launch == launch
    || match s.launches.find? launch with
      | some k => x.ctx == k.ctx && x.part == k.part && (s.launches.find? x.launch).isNone
          && s.launches.all fun l => !(l.2.ctx == k.ctx && l.2.part == k.part && l.2.verdict.isNone)
      | none => false

/-- Ends every block of a launch by force: reels are killed, unfinished engine commands stop without raising their semaphores, sequencers
stop, the records that name no reel are resolved, and open reduction slots are freed (19 R352, 09 R190). -/
def State.killLaunch (s : State) (launch : Nat) (verdict : Nat × Nat × Nat) : State :=
  let keys := (s.blocks.filter fun b => b.2.launch == launch).map (·.1)
  let reels := (s.reels.filter fun r => keys.contains r.2.block).map (·.1)
  let s := reels.foldl State.killReel s
  let s := { s with cores := s.cores.mapD Core.reset fun _ c => { c with cmds := c.cmds.filter fun e => !keys.contains e.block } }
  let s := { s with blocks := s.blocks.mapVals fun k b => if keys.contains k then { b with seq := Seq.idle } else b
                    saved := s.saved.filter fun v => v.block.launch != launch }
  let ids := (s.faults.filter fun f => f.2.launch == launch).map (·.1)
  let s := ids.foldl State.dropAtKill s
  let s := s.onLaunch launch fun l => { l with verdict := some (l.verdict.getD verdict) }
  { s with domains := s.domains.mapD Domain.reset fun _ q => { q with slots := q.slots.keep fun _ x => !s.freesSlot launch x } }

/-- The fault entry of a launch's kernel, 0 for none (02 R52, 19 R340). -/
def State.faultEntry (s : State) (launch blockKey : Nat) : Nat :=
  match s.launches.find? launch with
  | some l => l.desc.fault
  | none => match s.blocks.find? blockKey with | some b => b.desc.fault | none => 0

/-- Forms a fault record, holding its reel when `hold` and the reel has not exited (14 R284). A launch with no fault entry is aborted
instead, and the record is discarded (14 R288). Answers the record's identity, if it stands. -/
def State.raiseRec (s : State) (f : FaultRec) (hold : Bool) : State × Option Nat :=
  let id := s.nextId
  let s := { s with nextId := id + 1 }
  if s.faultEntry f.launch f.blockKey = 0 then (s.killLaunch f.launch (2, 0, f.kind), none)
  else
    let hold := hold && !f.exited && f.reelKey.isSome
    let f := { f with held := hold, state := if f.kind = 2 ∨ f.kind = 3 then .secure else .waiting }
    let s := { s with faults := s.faults.put id f }
    match hold, f.reelKey with
    | true, some k => (s.onReel k fun r => r.hold (s.clock (coreOfKey k)) id, some id)
    | _, _ => (s, some id)

/-! ## Executing an instruction -/

/-- What an instruction of a reel acts in: the state, the latched bundle, and the reel, split and block it names. -/
structure Issuer where
  s : State
  cur : Cur
  reel : Reel
  split : Split
  block : Block

/-- The reel, split and block of the latched bundle; an instruction executed with none latched is refused. -/
def withIssuer (s : State) (f : Issuer → Out) : Out :=
  match s.cur with
  | none => .refused .noIssuer
  | some c =>
    match s.reels.find? c.reel with
    | none => .refused .noIssuer
    | some r =>
      match r.splits.find? c.split, s.blocks.find? r.block with
      | some p, some b => f ⟨s, c, r, p, b⟩
      | _, _ => .refused .noIssuer

/-- The reel's key. -/
abbrev Issuer.key (x : Issuer) : Nat := x.cur.reel
/-- A waiting split as the issuer of the bundle it waits in, for the events that end its wait. -/
def State.issuerOf (s : State) (reel split : Nat) : Option Issuer := do
  let r ← s.reels.find? reel
  let p ← r.splits.find? split
  let bun ← p.bundle
  let b ← s.blocks.find? r.block
  pure ⟨s, ⟨reel, split, bun⟩, r, p, b⟩

/-- The core of the executing reel. -/
abbrev Issuer.coreId (x : Issuer) : Nat := coreOfKey x.cur.reel
/-- The address after the instruction. -/
abbrev Issuer.nextPc (x : Issuer) : VA := x.cur.bundle.ipc + 4

/-- The active lanes: the split's lanes after an HG guard (02 R35, R37). -/
def Issuer.active (x : Issuer) : Word :=
  match x.cur.bundle.hints.hg with
  | none => x.split.lanes
  | some p =>
    let m := x.reel.kget x.split.lanes (p.extractLsb' 0 3).toNat
    if p.getLsbD 3 then x.split.lanes &&& ~~~m else x.split.lanes &&& m

/-- What an HS hint leaves: the reel's priority, and a cycle without issue after a yield (02 R35, 08 R169). -/
def Reel.applyHS (r : Reel) (t : Nat) : Option (BitVec 23) → Reel
  | none => r
  | some p =>
    let r := { r with prio := (p.extractLsb' 1 2).toNat }
    if p.getLsbD 0 then { r with restUntil := t + 2 } else r

/-- The state with the executing reel written and no bundle latched. -/
def Issuer.put (x : Issuer) (s : State) (r : Reel) : State := { s with reels := s.reels.put x.cur.reel r, cur := none }

/-- Retires the instruction with its reel as given, splits included: the reel has retired one more (08 R165). -/
def Issuer.finish (x : Issuer) (s : State) (r : Reel) : Out :=
  .next (x.put s ({ r with retired := r.retired + 1 }.applyHS (s.clock x.coreId) x.cur.bundle.hints.hs))

/-- Retires the instruction with its split as given, which waits for nothing. -/
def Issuer.retireAs (x : Issuer) (s : State) (r : Reel) (p : Split) : Out :=
  x.finish s (r.setSplit x.cur.split { p with wait := none, bundle := none })

/-- Retires the instruction: the split goes on at the word after it. -/
def Issuer.retireIn (x : Issuer) (s : State) (r : Reel) : Out := x.retireAs s r { x.split with pc := x.nextPc }

/-- Retires an instruction that changes nothing but its reel. -/
def Issuer.retire (x : Issuer) (r : Reel) : Out := x.retireIn x.s r

/-- Retires an instruction that moves its split to an address. -/
def Issuer.jump (x : Issuer) (r : Reel) (pc : VA) : Out := x.retireAs x.s r { x.split with pc := pc }

/-- Leaves the split waiting in its instruction (04 R78). -/
def Issuer.waitIn (x : Issuer) (s : State) (r : Reel) (w : Wait) : Out :=
  .next (x.put s (r.setSplit x.cur.split { x.split with wait := some w, bundle := some x.cur.bundle }))

/-- Leaves the split waiting at issue with nothing done. -/
def Issuer.wait (x : Issuer) : Out := x.waitIn x.s x.reel (x.split.wait.getD .issue)

/-- Holds the reel at the instruction with a precise record (04 R91, R95, R96, 08 R162): nothing has issued. -/
def Issuer.holdWith (x : Issuer) (r : Reel) (f : FaultRec) : Out :=
  let r := r.setSplit x.cur.split { x.split with wait := none, bundle := none }
  .next (({ (x.put x.s r) with cur := none }.raiseRec
    { f with split := x.cur.split, ipc := x.cur.bundle.ipc } true).1)

/-- Pauses every split but one (04 R94). -/
def Reel.pauseOthers (r : Reel) (i : Nat) : Reel :=
  { r with splits := r.splits.mapVals fun j p => if j = i then p else { p with paused := true } }

/-- The address a trap vectors to (04 R94). -/
def Reel.vector (r : Reel) : VA := r.xvechi ++ r.xvec

/-- Taking a precise trap (04 R94 to R96): to the handler, or to fault service with kind 0x13 when the reel has no handler and kind 0x14 in
handler mode. `r` is the reel with whatever the trap has let the instruction write (04 R92); `info` holds the bits of `xkind` above its cause. -/
def Issuer.takeTrap (x : Issuer) (r : Reel) (code : Nat) (word mask info : Word) : Out :=
  let kind := info ||| BitVec.ofNat 32 code
  let f := { x.s.reelRec x.key r x.block with
    pc := x.cur.bundle.start, inst := word, lanes := mask, detail := code, aux := kind }
  if r.handler then x.holdWith r { f with kind := 0x14 }
  else if r.xvec = 0 ∧ r.xvechi = 0 then x.holdWith r { f with kind := 0x13 }
  else
    let r := { r with
      xpc := x.cur.bundle.start.setWidth 32, xinst := word, xmask := mask, xkind := kind
      handler := true, tcrEntry := r.tcr
      trapPc := x.cur.bundle.start, trapIpc := x.cur.bundle.ipc
      trapLanes := x.split.lanes, trapDepth := x.split.stack.length }
    let r := r.pauseOthers x.cur.split
    .next (x.put x.s (r.setSplit x.cur.split { x.split with pc := r.vector, wait := none, bundle := none }))

/-- The illegal-instruction trap of the instruction word (02 R30): nothing is written. -/
def Issuer.illegal (x : Issuer) : Out := x.takeTrap x.reel 2 x.cur.bundle.word x.active 0

/-- The illegal-instruction trap of a hint word of a kind (02 R31). -/
def Issuer.illegalHint (x : Issuer) (kind : Nat) (payload : BitVec 23) : Out :=
  x.takeTrap x.reel 2 (0x3F#6 ++ BitVec.ofNat 3 kind ++ payload) x.active 0

/-- Returning from a trap (04 R97, 06 R143): the trapping split goes on at the saved bundle (`skip = false`) or after the instruction with
the lanes it held, the others are un-paused, and handler mode ends. -/
def Issuer.trapReturn (x : Issuer) (skip : Bool) : Out :=
  let r := x.reel
  if r.handler ∧ x.split.lanes = r.trapLanes ∧ x.split.stack.length = r.trapDepth then
    let r := { r with handler := false, splits := r.splits.mapVals fun _ p => { p with paused := false } }
    x.retireAs x.s r { x.split with pc := if skip then r.trapIpc + 4 else r.trapPc, paused := false }
  else x.illegal

end Sys2Proof.Machine
end

