-- ==== Sys2Proof/Machine/Flags.lean ====
section
/-! DEFINITION. The floating-point environment of a reel's instruction, and the flags it sets and traps on (03 R61, R64, R65, 02 R35). -/

namespace Sys2Proof.Machine

/-- `tcr` as it rules: in handler mode the value at handler entry (06 R136). -/
def Reel.tcrNow (r : Reel) : Word := if r.handler then r.tcrEntry else r.tcr

/-- The enabled exceptions: HT's override or `tcr`[4:0]; none in handler mode (02 R35, 04 R96). -/
def enables (r : Reel) (ht : Option (BitVec 23)) : Flags :=
  if r.handler then 0
  else
    match ht with
    | some p => if p.getLsbD 3 then p.extractLsb' 4 5 else r.tcrNow.setWidth 5
    | none => r.tcrNow.setWidth 5

/-- The rounding mode of HT or `tcr` (03 R61). -/
def roundMode (r : Reel) (ht : Option (BitVec 23)) : RMode :=
  let t := RMode.ofTcr (r.tcrNow.extractLsb' 8 2)
  match ht with
  | some p => if p.setWidth 3 = (0 : BitVec 3) then t else RMode.ofCode (p.setWidth 3 : BitVec 3).toNat
  | none => t

/-- Does the instruction flush subnormals (03 R64)? -/
def flushes (r : Reel) (ht : Option (BitVec 23)) : Bool :=
  match ht with
  | some p => if p.getLsbD 9 then p.getLsbD 10 else r.tcrNow.getLsbD 10
  | none => r.tcrNow.getLsbD 10

/-- A lane's sticky flags (02 R42). -/
def Reel.flagsOf (r : Reel) (l : Nat) : Flags := r.fflags.findD 0 l

/-- Sets a lane's flags in addition to those set (03 R65). -/
def Reel.raiseFlags (r : Reel) (l : Nat) (f : Flags) : Reel := { r with fflags := r.fflags.putD 0 l (r.flagsOf l ||| f) }

/-- `xkind`[12:8] of the enabled exceptions raised (04 R93). -/
def excInfo (f : Flags) : Word := f.setWidth 32 <<< 8

end Sys2Proof.Machine
end

