-- ==== Sys2Proof/Machine/Operands.lean ====
section
/-! DEFINITION. Operand forms: hint words and which instructions accept them, register-block extents, and the one operation by which every
vector instruction reads, computes and writes its lanes (02 R31 to R40, 04 R89, R92). -/

namespace Sys2Proof.Machine

/-! ## Hints -/

/-- Is the word a hint (02 R25)? -/
def isHint (w : Word) : Bool := w.extractLsb' 26 6 == 0x3F

/-- The hint of a kind, if one is bound. -/
def Hints.get (h : Hints) (kind : Nat) : Option (BitVec 23) :=
  match kind with
  | 0 => h.hx | 1 => h.hb | 2 => h.hg | 3 => h.hc | 4 => h.hs | _ => h.ht

/-- Binds a hint of a kind. -/
def Hints.set (h : Hints) (kind : Nat) (p : BitVec 23) : Hints :=
  match kind with
  | 0 => { h with hx := some p } | 1 => { h with hb := some p } | 2 => { h with hg := some p }
  | 3 => { h with hc := some p } | 4 => { h with hs := some p } | _ => { h with ht := some p }

/-- Does the payload of a hint kind hold a reserved value (02 R35, R38)? -/
def badPayload (kind : Nat) (p : BitVec 23) : Bool :=
  match kind with
  | 1 => 4 ≤ (p.setWidth 3).toNat
  | 2 => p.extractLsb' 4 19 != 0
  | 3 => p.extractLsb' 3 20 != 0 || 5 ≤ (p.setWidth 3).toNat
  | 4 => p.extractLsb' 5 18 != 0 || p.extractLsb' 1 2 == 3 || p.extractLsb' 3 2 == 3
  | 5 => p.extractLsb' 11 12 != 0 || 5 ≤ (p.setWidth 3).toNat
  | _ => false

/-- What the hint words before an instruction come to (02 R31): the hints, or the first word at fault in itself with the hints before
it. -/
inductive HintScan where
  | ok (h : Hints) (count : Nat)
  | bad (word : Word) (before : Hints)
  deriving DecidableEq, Repr

/-- Does an HX payload name no addend that the fused instruction `w` can take: bits [22:7] are not 0, or the register lies beyond the reel's `vregs`
(06 R125)? Such a hint word is at fault in itself; an odd register of F64, and an even one whose upper half lies beyond, are not among R125's cases of
the hint word and report the instruction word as an odd register of any operand does. DEDUCED, log entry 25. -/
def badAddend (w : Word) (vregs : Nat) (p : BitVec 23) : Bool :=
  let fn := (w.extractLsb' 22 4).toNat
  let fused := match (w.extractLsb' 26 6).toNat with
    | 0x08 | 0x09 => fn = 3 ∨ fn = 4 ∨ fn = 5
    | 0x0A => fn = 2 ∨ fn = 10
    | _ => False
  fused && (p.extractLsb' 7 16 != 0 || vregs ≤ (p.setWidth 7 : BitVec 7).toNat)

/-- Reads hint words in address order until a word that is none (02 R31, R33): at most three, of different kinds; `badHx` says which HX payloads are
at fault before the instruction that follows. -/
def scanHints (badHx : BitVec 23 → Bool) : List Word → Hints → Nat → HintScan
  | [], h, n => .ok h n
  | w :: ws, h, n =>
    if isHint w then
      let kind := (w.extractLsb' 23 3).toNat
      let p : BitVec 23 := w.setWidth 23
      if 6 ≤ kind ∨ badPayload kind p ∨ (kind = 0 ∧ badHx p) ∨ (h.get kind).isSome ∨ n = 3 then .bad w h
      else scanHints badHx ws (h.set kind p) (n + 1)
    else .ok h n

/-- The kinds a word accepts, as a mask with bit k for kind k (02 R36, 05 R109, 06 R125, R132, 10 R211). -/
def acceptedHints (w : Word) : BitVec 6 :=
  let fn := (w.extractLsb' 22 4).toNat
  let xfn := (w.extractLsb' 21 5).toNat
  match (w.extractLsb' 26 6).toNat with
  | 0x01 | 0x02 => 0b010110
  | 0x03 => if 4 ≤ (w.extractLsb' 23 3).toNat ∧ (w.extractLsb' 23 3).toNat ≤ 6 then 0b010110 else 0b010111
  | 0x04 | 0x06 | 0x12 => 0b010100
  | 0x05 => 0b010110
  | 0x07 | 0x19 | 0x1A | 0x20 | 0x21 | 0x22 | 0x24 => 0b010000
  | 0x08 | 0x09 => if fn = 3 ∨ fn = 4 ∨ fn = 5 then 0b110111 else 0b110110
  | 0x0A => if fn = 2 ∨ fn = 10 then 0b110111 else 0b110110
  | 0x0B | 0x0C => 0b110110
  | 0x10 => if w.getLsbD 9 then 0b010001 else 0b010000
  | 0x13 | 0x14 => 0b011101
  | 0x15 | 0x16 | 0x17 | 0x18 | 0x1E => 0b010101
  | 0x1B | 0x23 => 0b010001
  | 0x1C => if xfn = 2 ∨ xfn = 3 ∨ xfn = 4 then 0b010001 else 0b010000
  | 0x1D => 0b011001
  | _ => 0

/-- The hints as a hint fault leaves them: only a guard that the instruction accepts narrows the lanes its trap reports (04 R91, R394).
DEDUCED, log entry 24. -/
def Hints.guardOnly (h : Hints) (w : Word) : Hints :=
  { Hints.empty with hg := if (acceptedHints w).getLsbD 2 then h.hg else none }

/-- The kinds bound, as a mask. -/
def Hints.kinds (h : Hints) : BitVec 6 :=
  (List.range 6).foldl (fun a k => if (h.get k).isSome then a ||| (1 : BitVec 6) <<< k else a) 0

/-- The HC policy (02 R35). -/
def Hints.policy (h : Hints) : Nat := match h.hc with | some p => (p.setWidth 3 : BitVec 3).toNat | none => 0

/-- The memory class of HS (08 R171). -/
def Hints.memClass (h : Hints) : Nat := match h.hs with | some p => (p.extractLsb' 3 2).toNat | none => 0

/-- The displacement of HX (09 R175). -/
def Hints.disp (h : Hints) : Int := match h.hx with | some p => p.toInt | none => 0

/-- imm7 widened by HX (02 R35). -/
def Hints.imm7 (h : Hints) (i : BitVec 7) : Nat := match h.hx with | some p => p.toNat * 2 ^ 7 + i.toNat | none => i.toNat

/-- imm9 sign-extended, or the 32 raw bits of HX (02 R27, R35). -/
def Hints.imm9s (h : Hints) (i : BitVec 9) : Word := match h.hx with | some p => p ++ i | none => i.signExtend 32

/-- imm9 zero-extended, or the 32 raw bits of HX (02 R27, R35). -/
def Hints.imm9z (h : Hints) (i : BitVec 9) : Word := match h.hx with | some p => p ++ i | none => i.setWidth 32

/-! ## Register blocks -/

/-- A register-block extent (02 R38); without HB one row and one column. -/
structure Extent where
  rows : Nat
  cols : Nat
  dstride : Nat
  sstride : Nat
  bmode : Nat
  deriving DecidableEq, Repr

/-- The extent of the bound HB hint. -/
def Hints.extent (h : Hints) : Extent :=
  match h.hb with
  | none => ⟨1, 1, 0, 0, 0⟩
  | some p => ⟨(p.extractLsb' 20 3).toNat + 1, (p.extractLsb' 17 3).toNat + 1, (p.extractLsb' 10 7).toNat, (p.extractLsb' 3 7).toNat,
      (p.extractLsb' 0 3).toNat⟩

/-- The elements of an extent, row by row. -/
def Extent.elems (e : Extent) : List (Nat × Nat) :=
  (List.range e.rows).flatMap fun i => (List.range e.cols).map fun j => (i, j)

/-- Where a vector instruction's second operand comes from. -/
inductive BSrc where
  | none
  | vec (n : Nat)
  | uni (n : Nat)
  | imm (x : DWord)
  deriving DecidableEq, Repr

/-- Where its third operand comes from: nowhere, the destination, or a register that HX names. -/
inductive CSrc where
  | none
  | dest
  | vec (n : Nat)
  deriving DecidableEq, Repr

/-- The registers and widths of a vector instruction (05 R103): `wd`, `wa` and `wb` say which operands are 64-bit pairs. -/
structure VOperands where
  vd : Nat
  va : Nat
  b : BSrc
  c : CSrc
  wd : Bool
  wa : Bool
  wb : Bool
  /-- The form has a va operand (all but `movi`). -/
  useA : Bool
  deriving DecidableEq, Repr

/-- The register step of an operand (05 R103). -/
def stepOf (wide : Bool) : Nat := if wide then 2 else 1

/-- d(i,j) of 02 R38. -/
def VOperands.dreg (o : VOperands) (e : Extent) (i j : Nat) : Nat := o.vd + i * e.dstride + j * stepOf o.wd
/-- a(i,j) of 02 R38. -/
def VOperands.areg (o : VOperands) (e : Extent) (i j : Nat) : Nat := o.va + i * e.sstride + j * stepOf o.wa
/-- b(i,j) of 02 R38 for a vector vb. -/
def VOperands.breg (o : VOperands) (e : Extent) (n i j : Nat) : Nat :=
  match e.bmode with
  | 0 => n + i * e.sstride + j * stepOf o.wb
  | 2 => n + j * stepOf o.wb
  | 3 => n + i * e.sstride
  | _ => n
/-- c(i,j) of 02 R38: the destination without HX. -/
def VOperands.creg (o : VOperands) (e : Extent) (i j : Nat) : Option Nat :=
  match o.c with
  | .none => none
  | .dest => some (o.dreg e i j)
  | .vec n => some (n + i * e.dstride + j * stepOf o.wd)

/-- Is register `n` one the operand may name: within `.vregs`, and even for a pair (02 R30, R39)? -/
def vregOk (vregs : Nat) (wide : Bool) (n : Nat) : Bool := if wide then n % 2 == 0 && n + 1 < vregs else n < vregs

/-- Are the registers of element (i, j) legal (02 R39)? -/
def VOperands.elemOk (o : VOperands) (e : Extent) (vregs i j : Nat) : Bool :=
  vregOk vregs o.wd (o.dreg e i j) && (!o.useA || vregOk vregs o.wa (o.areg e i j))
    && (match o.b with | .vec n => vregOk vregs o.wb (o.breg e n i j) | _ => true)
    && (match o.creg e i j with | some n => vregOk vregs o.wd n | none => true)

/-- Is the operand form legal (02 R30, R39, 05 R103, R104)? -/
def VOperands.ok (o : VOperands) (e : Extent) (hb : Bool) (vregs : Nat) : Bool :=
  (match o.b with
    | .uni n => (!o.wb || n % 2 == 0) && (!hb || e.bmode == 1)
    | .vec _ => true
    | _ => !hb || e.bmode == 0)
    && e.elems.all fun p => o.elemOk e vregs p.1 p.2

/-- A vector register of a lane as a 64-bit value: a pair, or one register zero-extended. -/
def Reel.vread (r : Reel) (wide : Bool) (n l : Nat) : DWord := if wide then r.vpair n l else (r.vget n l).setWidth 64

/-- Writes a lane's register or pair. -/
def Reel.vwrite (r : Reel) (wide : Bool) (n l : Nat) (x : DWord) : Reel :=
  if wide then (r.vset n l (loWord x)).vset (n + 1) l (hiWord x) else r.vset n l (loWord x)

/-- What an instruction computes in one lane of one element: from the lane and the three operands, a result and its exceptions. -/
abbrev LaneFn := Nat → DWord → DWord → DWord → DWord × Flags

/-- The value of the second operand. -/
def VOperands.bval (o : VOperands) (r : Reel) (e : Extent) (i j l : Nat) : DWord :=
  match o.b with
  | .none => 0
  | .imm x => x
  | .uni n => if o.wb then r.spair n else (r.sget n).setWidth 64
  | .vec n => r.vread o.wb (o.breg e n i j) l

/-- The value of the third operand. -/
def VOperands.cval (o : VOperands) (r : Reel) (e : Extent) (i j l : Nat) : DWord :=
  match o.creg e i j with
  | some n => r.vread o.wd n l
  | none => 0

/-- One element's result in one lane. -/
def VOperands.result (o : VOperands) (f : LaneFn) (r : Reel) (e : Extent) (i j l : Nat) : DWord × Flags :=
  f l (r.vread o.wa (o.areg e i j) l) (o.bval r e i j l) (o.cval r e i j l)

/-- The exceptions of a lane over all elements (02 R40). -/
def VOperands.laneFlags (o : VOperands) (f : LaneFn) (r : Reel) (e : Extent) (l : Nat) : Flags :=
  e.elems.foldl (fun a p => a ||| (o.result f r e p.1 p.2 l).2) 0

/-- The destination registers of the block. -/
def VOperands.dests (o : VOperands) (e : Extent) : List Nat :=
  e.elems.flatMap fun p => if o.wd then [o.dreg e p.1 p.2, o.dreg e p.1 p.2 + 1] else [o.dreg e p.1 p.2]

/-- Inserts an element before the first of a higher rank. -/
def insertByRank (rank : Nat → Nat) (x : Nat) : List Nat → List Nat
  | [] => [x]
  | y :: ys => if rank x < rank y then x :: y :: ys else y :: insertByRank rank x ys

/-- Does some register of the block belong to two elements? -/
def VOperands.overlaps (o : VOperands) (e : Extent) : Bool := (o.dests e).dedup.length != (o.dests e).length

/-- The order in which element writes take effect: it shows only where destinations overlap, and there it is free (log entry 12). -/
def VOperands.writeOrder (o : VOperands) (e : Extent) (n : Nat) : List (Nat × Nat) :=
  if !o.overlaps e then e.elems
  else
    let ix := (List.range e.elems.length).foldl (fun a k => insertByRank (Config.elementRank n) k a) []
    ix.filterMap fun k => e.elems[k]?

/-- Writes the results of one lane, all of them computed from the reel `r0` as it stood before (00 R9, 02 R38). -/
def VOperands.writeLane (o : VOperands) (f : LaneFn) (r0 : Reel) (e : Extent) (order : List (Nat × Nat)) (r : Reel) (l : Nat) : Reel :=
  order.foldl (fun r p => r.vwrite o.wd (o.dreg e p.1 p.2) l (o.result f r0 e p.1 p.2 l).1) r

/-- The lanes of `ls` in which an enabled exception was raised. -/
def VOperands.excLanes (o : VOperands) (f : LaneFn) (r : Reel) (e : Extent) (en : Flags) (ls : List Nat) : List Nat :=
  ls.filter fun l => o.laneFlags f r e l &&& en != 0

/-- The reel after a vector instruction on lanes `ls`: every lane's flags are set, and every lane without an enabled exception is written
(04 R92, 02 R40). -/
def VOperands.write (o : VOperands) (f : LaneFn) (r : Reel) (e : Extent) (en : Flags) (n : Nat) (ls : List Nat) : Reel :=
  let exc := o.excLanes f r e en ls
  let order := o.writeOrder e n
  ls.foldl (fun q l =>
    let q := q.raiseFlags l (o.laneFlags f r e l)
    if exc.contains l then q else o.writeLane f r e order q l) r

/-- A vector instruction (05 R101, 06 R121): it traps as illegal, retires without effect when no lane is active (02 R37), waits at issue
while a destination is the destination of an outstanding load (04 R89), or computes every active lane and takes an arithmetic trap when
an enabled exception was raised. -/
def Issuer.vector (x : Issuer) (o : VOperands) (f : LaneFn) : Out :=
  let h := x.cur.bundle.hints
  let e := h.extent
  if !o.ok e h.hb.isSome x.block.desc.vregs then x.illegal
  else if x.active = 0 then x.retire x.reel
  else if (o.dests e).any x.reel.busyV then x.wait
  else
    let ls := laneList x.active
    let en := enables x.reel h.ht
    let r := o.write f x.reel e en x.s.nextId ls
    let exc := o.excLanes f x.reel e en ls
    let s := if o.overlaps e then { x.s with nextId := x.s.nextId + 1 } else x.s
    if exc = [] then x.retireIn s r
    else
      let fl := exc.foldl (fun a l => a ||| (o.laneFlags f x.reel e l &&& en)) 0
      { x with s := s }.takeTrap r 1 x.cur.bundle.word (maskOf exc) (excInfo fl)

/-- The second operand of a 3V or C word (02 R26). -/
def bsrcOf (sb : BitVec 1) (vb : BitVec 7) : BSrc := if sb = 1 then .uni vb.toNat else .vec vb.toNat

/-- A 32-bit function of two operands that raises nothing. -/
def fn32 (g : Word → Word → Word) : LaneFn := fun _ a b _ => ((g (loWord a) (loWord b)).setWidth 64, 0)

/-- A function of two operands with a 64-bit result that raises nothing. -/
def fn64 (g : DWord → DWord → DWord) : LaneFn := fun _ a b _ => (g a b, 0)

end Sys2Proof.Machine
end

