-- ==== Sys2Proof/WellFormed.lean ====
section
/-! DEFINITION. Which operand values an instruction's chapter forbids: the checks on the fields of a word that do not depend on the reel
(02 R26, R30, and the rule of each family). An instruction whose check fails decodes, and traps as illegal when it executes; a stream
word halts the stream. -/

namespace Sys2Proof

/-- Is the register number even, as a field that names a pair must be (02 R26)? -/
def isEven {n : Nat} (x : BitVec n) : Bool := !x.getLsbD 0

/-- Is the number a multiple of 4? -/
def isQuad {n : Nat} (x : BitVec n) : Bool := !x.getLsbD 0 && !x.getLsbD 1

/-- A uniform vb has vb[6] = 0 (02 R26). -/
def sbOk (sb : BitVec 1) (vb : BitVec 7) : Bool := sb == 0 || !vb.getLsbD 6

/-- A 3V word with the 64-bit operands named (05 R103). -/
def V3.ok (f : V3) (wd wa wb : Bool) : Bool :=
  sbOk f.sb f.vb && (!wd || isEven f.vd) && (!wa || isEven f.va) && (!wb || isEven f.vb)

/-- A unary word with the 64-bit operands named (05 R103). -/
def V2.ok (f : V2) (wd wa : Bool) : Bool := (!wd || isEven f.vd) && (!wa || isEven f.va)

/-- A compare: its condition, no ord or uno of integers, pairs for f64 (02 R29, R30, 05 R110). -/
def CmpOp.ok (f : CmpOp) : Bool :=
  sbOk f.sb f.vb && f.cond.toNat < 8 && (2 ≤ f.type.toNat || f.cond.toNat < 6)
    && (f.type.toNat != 3 || (isEven f.va && isEven f.vb))

/-- Is a CVT type code a pair type (06 R130)? -/
def cvtWide (code : Nat) : Bool := code == 2 || code == 3 || code == 5

/-- A conversion to type code `dst`: source and rounding codes, pairs even (06 R130). -/
def CvtOp.ok (f : CvtOp) (dst : Nat) : Bool :=
  f.src.toNat < 14 && f.rnd.toNat < 6 && (!cvtWide dst || isEven f.vd) && (!cvtWide f.src.toNat || isEven f.va)

/-- `uadd.64`: even registers (06 R132). -/
def U3.ok64 (f : U3) : Bool := isEven f.sd && isEven f.sa && isEven f.sb
/-- `uadd.64` with an immediate: even registers (06 R132). -/
def UI.ok64 (f : UI) : Bool := isEven f.sd && isEven f.sa
/-- `ucmp`: conditions 0 to 5 (06 R133). -/
def UCmp.ok (f : UCmp) : Bool := f.cond.toNat < 6

/-- A special register that can be read to a uniform or vector register (02 R42, R43). -/
def RdS.ok (f : RdS) : Bool := 1 ≤ f.id.toNat && f.id.toNat < 30
/-- A special register that can be read by lane (02 R42, R43). -/
def RdV.ok (f : RdV) : Bool := f.id.toNat < 30
/-- A writable special register (02 R42, R43). -/
def WrS.ok (f : WrS) : Bool := f.id.toNat == 21 || f.id.toNat == 22 || f.id.toNat == 23 || f.id.toNat == 24

/-- An M word of `n` bytes: no scale without an offset register, and vt placed as its size needs (09 R175, R177). -/
def MOp.ok (f : MOp) (n : Nat) : Bool :=
  (f.vo != 127 || f.sc == 0) && (n < 8 || isEven f.vt) && (n < 16 || isQuad f.vt)

/-- A vd of an atomic: `cas` takes expected and new values, w doubles the width (09 R184). -/
def atomVdOk (cas w : Bool) (vd : BitVec 7) : Bool :=
  if cas then (if w then isQuad vd else isEven vd) else (!w || isEven vd)

/-- An ATOMG word: no acquire without ret, even va (09 R183). -/
def AOp.ok (f : AOp) (cas : Bool) : Bool :=
  isEven f.va && atomVdOk cas (f.w == 1) f.vd && (f.ret == 1 || !f.ord.getLsbD 0)

/-- `atomg.ld`: neither release nor acq-rel (09 R183). -/
def AOpW.okLd (f : AOpW) : Bool := isEven f.va && atomVdOk false (f.w == 1) f.vd && !f.ord.getLsbD 1
/-- `atomg.st`: neither acquire nor acq-rel (09 R183). -/
def AOpW.okSt (f : AOpW) : Bool := isEven f.va && atomVdOk false (f.w == 1) f.vd && !f.ord.getLsbD 0
/-- `atomg.xadd`: neither acquire nor acq-rel (09 R183). -/
def AOpX.ok (f : AOpX) : Bool := isEven f.va && !f.ord.getLsbD 0
/-- An ATOMS word: no acquire without ret (09 R183). -/
def AOpS.ok (f : AOpS) (cas : Bool) : Bool := atomVdOk cas (f.w == 1) f.vd && (f.ret == 1 || !f.ord.getLsbD 0)

/-- A fence is not relaxed (09 R191). -/
def FenceOp.ok (f : FenceOp) : Bool := f.ord != 0
/-- `binit`: 1 to 33 parties (09 R195). -/
def BInit.ok (f : BInit) : Bool := 1 ≤ f.n.toNat && f.n.toNat ≤ 33
/-- `sloop`: a window of 1 to 32 (10 R211). -/
def SLoopOp.ok (f : SLoopOp) : Bool := 1 ≤ f.w.toNat && f.w.toNat ≤ 32
/-- A gather or scatter's table layout has one above it (11 R245). -/
def tableOk (t : BitVec 6) : Bool := t != 63
/-- `hget` and `hset` name an even record pair (14 R289). -/
def HOp.ok (f : HOp) : Bool := isEven f.sa

/-- A claim stays within the slots or tiles (11 R234). -/
def ClaimOp.ok (f : ClaimOp) : Bool := f.first.toNat + f.cnt.toNat < (if f.kind = 1 then 16 else 32)
/-- `mload`: no reserved type, and no role for metadata (11 R234). -/
def MLoadOp.ok (f : MLoadOp) : Bool := f.type != 7 && (f.type != 6 || f.role == 0)
/-- `mtadd`: no reserved source (11 R234). -/
def MTaddOp.ok (f : MTaddOp) : Bool := f.src != 3
/-- `mma`: no reserved rounding (11 R234). -/
def MmaOp.ok (f : MmaOp) : Bool := f.rm.toNat < 4
/-- `mmas`: its B slots do not pass om31 (11 R238). -/
def MmasOp.ok (f : MmasOp) : Bool := f.b.toNat + (if f.dens = 1 then 4 else 2) ≤ 32
/-- `mzero`: no reserved format (11 R234). -/
def MZeroOp.ok (f : MZeroOp) : Bool := f.fmt != 3
/-- `mstore`: no reserved type or rounding (11 R234). -/
def MStoreOp.ok (f : MStoreOp) : Bool := f.type != 7 && f.rm.toNat < 5

/-- Does an instruction's word pass its checks? Event rows have no word and no check. -/
def Instr.wf : Instr → Bool
  | .iadd f | .isub f | .imul f | .imulhI f | .imulhZ f | .iminI f | .imaxI f | .iminZ f | .imaxZ f | .iaddSatI f | .isubSatI f =>
    f.ok false false false
  | .iadd64 f | .isub64 f => f.ok true true true
  | .imulWideI f | .imulWideZ f => f.ok true false false
  | .and f | .or f | .xor f | .andn f | .shl f | .shr f | .sar f | .rotl f | .bfxZ f | .bfxI f | .bfi f => f.ok false false false
  | .shl64 f | .shr64 f => f.ok true true false
  | .faddF32 f | .fsubF32 f | .fmulF32 f | .ffmaF32 f | .ffmsF32 f | .fnmaF32 f | .fminF32 f | .fmaxF32 f | .fcsgnF32 f | .fdivF32 f
  | .haddF16 f | .hmulF16 f | .hfmaF16 f | .hminF16 f | .hmaxF16 f | .haddBf16 f | .hmulBf16 f | .hfmaBf16 f | .hminBf16 f
  | .hmaxBf16 f => f.ok false false false
  | .faddF64 f | .fsubF64 f | .fmulF64 f | .ffmaF64 f | .ffmsF64 f | .fnmaF64 f | .fminF64 f | .fmaxF64 f | .fcsgnF64 f | .fdivF64 f =>
    f.ok true true true
  | .fabsF64 f | .fnegF64 f | .fsqrtF64 f | .frcpF64 f => f.ok true true
  | .cmp f => f.ok
  | .cvtI32 f => f.ok 0 | .cvtZ32 f => f.ok 1 | .cvtI64 f => f.ok 2 | .cvtZ64 f => f.ok 3 | .cvtF32 f => f.ok 4
  | .cvtF64 f => f.ok 5 | .cvtF16 f => f.ok 6 | .cvtBf16 f => f.ok 7 | .cvtE4m3 f => f.ok 8 | .cvtE5m2 f => f.ok 9
  | .cvtI8 f => f.ok 10 | .cvtZ8 f => f.ok 11 | .cvtI16 f => f.ok 12 | .cvtZ16 f => f.ok 13
  | .uadd64 f => f.ok64 | .uadd64Imm f => f.ok64 | .ucmp f => f.ok
  | .rdsrV f => f.ok | .rdsr f => f.ok | .wrsr f => f.ok
  | .ldgZ8 f | .ldgI8 f | .ldgZ16 f | .ldgI16 f | .ldgB32 f | .stgB8 f | .stgB16 f | .stgB32 f => f.ok 4
  | .ldgB64 f | .stgB64 f => f.ok 8
  | .ldgB128 f | .stgB128 f => f.ok 16
  | .lduB64 f => isEven f.sd
  | .ldsZ16 f | .ldsB32 f | .ldsB32Wfull f | .ldsB32Take f | .stsB16 f | .stsB32 f | .stsB32Put f | .stsB32Fill f | .stsB32Drain f =>
    f.ok 4
  | .ldsB64 f | .ldsB64Wfull f | .ldsB64Take f | .stsB64 f | .stsB64Put f | .stsB64Fill f | .stsB64Drain f => f.ok 8
  | .ldsB128 f | .ldsB128Wfull f | .ldsB128Take f | .stsB128 f | .stsB128Put f | .stsB128Fill f | .stsB128Drain f => f.ok 16
  | .rlds f | .rldsWfull f | .rldsTake f | .rsts f | .rstsPut f | .rstsFill f | .rstsDrain f | .ratomAdd f | .ratomExch f | .ratomOr f =>
    f.ok 4
  | .ratomCas f => f.ok 8
  | .atomgAdd f | .atomgFadd f | .atomgMinI f | .atomgMaxI f | .atomgMinZ f | .atomgMaxZ f | .atomgAnd f | .atomgOr f | .atomgXor f
  | .atomgExch f => f.ok false
  | .atomgCas f => f.ok true
  | .atomgLd f => f.okLd | .atomgSt f => f.okSt | .atomgXadd f => f.ok
  | .atomsAdd f | .atomsFadd f | .atomsMinI f | .atomsMaxI f | .atomsMinZ f | .atomsMaxZ f | .atomsAnd f | .atomsOr f | .atomsXor f
  | .atomsExch f => f.ok false
  | .atomsCas f => f.ok true
  | .fence f => f.ok | .binit f => f.ok
  | .watch f => isEven f.sa
  | .sloop f => f.ok | .spost f => isEven f.sa | .waitm f => isEven f.sa
  | .layset f => isEven f.sa
  | .gath f => tableOk f.ls | .scat f => tableOk f.ld
  | .jmpi f => isEven f.sa | .ret f => isEven f.sa | .calli f => isEven f.sd && isEven f.sa && f.sd != 0
  | .hget f | .hset f => f.ok
  | .hldone f => isEven f.sa
  | .resumeContinue f | .resumeDrop f | .resumeRetry f | .kill f => isEven f.sa
  | .launch f => isEven f.sa
  | .mclaim f | .mrel f => f.ok
  | .mload f => f.ok | .mtadd f => f.ok | .mma f => f.ok | .mmas f => f.ok | .mzero f => f.ok | .mstore f => f.ok
  | _ => true

end Sys2Proof
end

