-- ==== Sys2Proof/Machine/Int.lean ====
section
/-! DEFINITION. INT-A, INT-B and INT-I: integer arithmetic, bits, shifts and fields, and immediates (05 R101 to R109). -/

namespace Sys2Proof.Machine

/-- A 3V instruction whose 64-bit operands are named. -/
def vec3 (f : V3) (wd wa wb : Bool) (c : CSrc) (g : LaneFn) (s : State) : Out :=
  withIssuer s fun x =>
    if f.ok wd wa wb then x.vector ⟨f.vd.toNat, f.va.toNat, bsrcOf f.sb f.vb, c, wd, wa, wb, true⟩ g else x.illegal

/-- A unary 3V instruction whose 64-bit operands are named. -/
def vec2 (f : V2) (wd wa : Bool) (g : LaneFn) (s : State) : Out :=
  withIssuer s fun x =>
    if f.ok wd wa then x.vector ⟨f.vd.toNat, f.va.toNat, .none, .none, wd, wa, false, true⟩ g else x.illegal

/-- A 3V instruction on 32-bit operands. -/
def int32Op (g : Word → Word → Word) (f : V3) (s : State) : Out := vec3 f false false false .none (fn32 g) s

/-- The low 32 bits of an exact integer. -/
def wrap32 (v : Int) : Word := BitVec.ofInt 32 v

/-- Clamps to the range of a signed word (05 R105). -/
def clamp32 (v : Int) : Word := BitVec.ofInt 32 (max (-2 ^ 31) (min v (2 ^ 31 - 1)))

/-- INT-A fn 0 (05 R105). -/
def execIadd (f : V3) (s : State) : Out := int32Op (fun a b => a + b) f s
/-- INT-A fn 1 (05 R105). -/
def execIsub (f : V3) (s : State) : Out := int32Op (fun a b => a - b) f s
/-- INT-A fn 2 (05 R105). -/
def execImul (f : V3) (s : State) : Out := int32Op (fun a b => a * b) f s
/-- INT-A fn 3: the high half of the signed product (05 R105). -/
def execImulhI (f : V3) (s : State) : Out := int32Op (fun a b => wrap32 (a.toInt * b.toInt / 2 ^ 32)) f s
/-- INT-A fn 4: the high half of the unsigned product (05 R105). -/
def execImulhZ (f : V3) (s : State) : Out := int32Op (fun a b => BitVec.ofNat 32 (a.toNat * b.toNat / 2 ^ 32)) f s
/-- INT-A fn 5 (05 R105). -/
def execIminI (f : V3) (s : State) : Out := int32Op (fun a b => if a.toInt ≤ b.toInt then a else b) f s
/-- INT-A fn 6 (05 R105). -/
def execImaxI (f : V3) (s : State) : Out := int32Op (fun a b => if a.toInt ≤ b.toInt then b else a) f s
/-- INT-A fn 7 (05 R105). -/
def execIminZ (f : V3) (s : State) : Out := int32Op (fun a b => if a.toNat ≤ b.toNat then a else b) f s
/-- INT-A fn 8 (05 R105). -/
def execImaxZ (f : V3) (s : State) : Out := int32Op (fun a b => if a.toNat ≤ b.toNat then b else a) f s
/-- INT-A fn 9 (05 R105). -/
def execIabs (f : V2) (s : State) : Out := vec2 f false false (fn32 fun a _ => if a.msb then -a else a) s
/-- INT-A fn 10 (05 R105). -/
def execIaddSatI (f : V3) (s : State) : Out := int32Op (fun a b => clamp32 (a.toInt + b.toInt)) f s
/-- INT-A fn 11 (05 R105). -/
def execIsubSatI (f : V3) (s : State) : Out := int32Op (fun a b => clamp32 (a.toInt - b.toInt)) f s
/-- INT-A fn 12 (05 R105, R106). -/
def execIadd64 (f : V3) (s : State) : Out := vec3 f true true true .none (fn64 fun a b => a + b) s
/-- INT-A fn 13 (05 R105, R106). -/
def execIsub64 (f : V3) (s : State) : Out := vec3 f true true true .none (fn64 fun a b => a - b) s
/-- INT-A fn 14 (05 R105, R106). -/
def execImulWideI (f : V3) (s : State) : Out :=
  vec3 f true false false .none (fn64 fun a b => BitVec.ofInt 64 ((loWord a).toInt * (loWord b).toInt)) s
/-- INT-A fn 15 (05 R105, R106). -/
def execImulWideZ (f : V3) (s : State) : Out :=
  vec3 f true false false .none (fn64 fun a b => BitVec.ofNat 64 ((loWord a).toNat * (loWord b).toNat)) s

/-- The count of a shift: the low byte (05 R107). -/
def shiftCount (b : Word) : Nat := (b.setWidth 8 : BitVec 8).toNat

/-- The count of leading 0 bits (05 R107). -/
def clz32 (a : Word) : Nat := if a = 0 then 32 else 31 - Nat.log2 a.toNat

/-- Bit i of the result is bit 31 − i (05 R107). -/
def brev32 (a : Word) : Word := maskOf ((laneList a).map (31 - ·))

/-- Position and clipped length of a field descriptor (05 R108). -/
def fieldOf (b : Word) : Nat × Nat :=
  let pos := (b.setWidth 5 : BitVec 5).toNat
  (pos, min (b.extractLsb' 8 6).toNat (32 - pos))

/-- `bfx.z` (05 R108). -/
def bfxZ32 (a b : Word) : Word :=
  let (pos, n) := fieldOf b
  BitVec.ofNat 32 (a.toNat / 2 ^ pos % 2 ^ n)

/-- `bfx.i` (05 R108). -/
def bfxI32 (a b : Word) : Word :=
  let (pos, n) := fieldOf b
  if n = 0 then 0 else BitVec.ofInt 32 (sxNat (a.toNat / 2 ^ pos) n)

/-- `bfi` into d (05 R108). -/
def bfi32 (d a b : Word) : Word :=
  let (pos, n) := fieldOf b
  let mask := BitVec.ofNat 32 ((2 ^ n - 1) * 2 ^ pos)
  (d &&& ~~~mask) ||| ((a <<< pos) &&& mask)

/-- INT-B fn 0 (05 R107). -/
def execAnd (f : V3) (s : State) : Out := int32Op (fun a b => a &&& b) f s
/-- INT-B fn 1 (05 R107). -/
def execOr (f : V3) (s : State) : Out := int32Op (fun a b => a ||| b) f s
/-- INT-B fn 2 (05 R107). -/
def execXor (f : V3) (s : State) : Out := int32Op (fun a b => a ^^^ b) f s
/-- INT-B fn 3 (05 R107). -/
def execAndn (f : V3) (s : State) : Out := int32Op (fun a b => a &&& ~~~b) f s
/-- INT-B fn 4 (05 R107). -/
def execShl (f : V3) (s : State) : Out := int32Op (fun a b => a <<< shiftCount b) f s
/-- INT-B fn 5 (05 R107). -/
def execShr (f : V3) (s : State) : Out := int32Op (fun a b => a >>> shiftCount b) f s
/-- INT-B fn 6 (05 R107). -/
def execSar (f : V3) (s : State) : Out := int32Op (fun a b => a.sshiftRight (shiftCount b)) f s
/-- INT-B fn 7 (05 R107). -/
def execRotl (f : V3) (s : State) : Out := int32Op (fun a b => a.rotateLeft (shiftCount b)) f s
/-- INT-B fn 8: a 64-bit value by a 32-bit count (05 R107). -/
def execShl64 (f : V3) (s : State) : Out := vec3 f true true false .none (fn64 fun a b => a <<< shiftCount (loWord b)) s
/-- INT-B fn 9 (05 R107). -/
def execShr64 (f : V3) (s : State) : Out := vec3 f true true false .none (fn64 fun a b => a >>> shiftCount (loWord b)) s
/-- INT-B fn 10 (05 R107). -/
def execPopc (f : V2) (s : State) : Out := vec2 f false false (fn32 fun a _ => BitVec.ofNat 32 (popCount a)) s
/-- INT-B fn 11 (05 R107). -/
def execClz (f : V2) (s : State) : Out := vec2 f false false (fn32 fun a _ => BitVec.ofNat 32 (clz32 a)) s
/-- INT-B fn 12 (05 R107). -/
def execBrev (f : V2) (s : State) : Out := vec2 f false false (fn32 fun a _ => brev32 a) s
/-- INT-B fn 13 (05 R108). -/
def execBfxZ (f : V3) (s : State) : Out := int32Op bfxZ32 f s
/-- INT-B fn 14 (05 R108). -/
def execBfxI (f : V3) (s : State) : Out := int32Op bfxI32 f s
/-- INT-B fn 15: vd is read as well as written (05 R108). -/
def execBfi (f : V3) (s : State) : Out :=
  vec3 f false false false .dest (fun _ a b d => ((bfi32 (loWord d) (loWord a) (loWord b)).setWidth 64, 0)) s

/-- An INT-I instruction of destination, source and immediate (05 R109). -/
def intImm (useA : Bool) (vd va : BitVec 7) (imm : Hints → Word) (g : Word → Word → Word) (s : State) : Out :=
  withIssuer s fun x =>
    x.vector ⟨vd.toNat, va.toNat, .imm ((imm x.cur.bundle.hints).setWidth 64), .none, false, false, false, useA⟩ (fn32 g)

/-- INT-I fn 0 (05 R109). -/
def execIaddi (f : I9) (s : State) : Out := intImm true f.vd f.va (·.imm9s f.imm) (fun a x => a + x) s
/-- INT-I fn 1 (05 R109). -/
def execAndi (f : I9) (s : State) : Out := intImm true f.vd f.va (·.imm9z f.imm) (fun a x => a &&& x) s
/-- INT-I fn 2 (05 R109). -/
def execOri (f : I9) (s : State) : Out := intImm true f.vd f.va (·.imm9z f.imm) (fun a x => a ||| x) s
/-- INT-I fn 3 (05 R109). -/
def execXori (f : I9) (s : State) : Out := intImm true f.vd f.va (·.imm9z f.imm) (fun a x => a ^^^ x) s
/-- INT-I fn 4 (05 R109). -/
def execShli (f : ISh) (s : State) : Out := intImm true f.vd f.va (fun _ => f.n.setWidth 32) (fun a x => a <<< x.toNat) s
/-- INT-I fn 5 (05 R109). -/
def execShri (f : ISh) (s : State) : Out := intImm true f.vd f.va (fun _ => f.n.setWidth 32) (fun a x => a >>> x.toNat) s
/-- INT-I fn 6 (05 R109). -/
def execSari (f : ISh) (s : State) : Out := intImm true f.vd f.va (fun _ => f.n.setWidth 32) (fun a x => a.sshiftRight x.toNat) s
/-- INT-I fn 7: the immediate; it has no va (05 R109). -/
def execMovi (f : IMov) (s : State) : Out := intImm false f.vd 0 (·.imm9s f.imm) (fun _ x => x) s

end Sys2Proof.Machine
end

