-- ==== Sys2Proof/Machine/Lane.lean ====
section
/-! DEFINITION. CMP, SEL, LANE and KOPS: compares, selects, lane exchange and lane masks (05 R110 to R119). -/

namespace Sys2Proof.Machine

/-! ## Compares -/

/-- The condition of a compare on operands of type 0 i32, 1 z32, 2 f32 or 3 f64, and the invalid it raises (05 R110, R111). -/
def compare (type cond : Nat) (fz : Bool) (a b : DWord) : Bool × Flags :=
  let c := Cond.ofCode cond
  match type with
  | 0 => (iCmp c (loWord a).toInt (loWord b).toInt, 0)
  | 1 => (iCmp c (loWord a).toNat (loWord b).toNat, 0)
  | 2 => fCmp c (FVal.read .f32 fz (loWord a).toNat) (FVal.read .f32 fz (loWord b).toNat)
  | _ => fCmp c (FVal.read .f64 fz a.toNat) (FVal.read .f64 fz b.toNat)

/-- The comb field: how a compare's bit joins the mask (05 R110). -/
def combine (comb : Nat) (old t : Bool) : Bool :=
  match comb with
  | 0 => t | 1 => old && t | 2 => old || t | _ => old && !t

/-- A mask with bit `l` set to `b`. -/
def setBit (m : Word) (l : Nat) (b : Bool) : Word := if b then m ||| (1 : Word) <<< l else m &&& ~~~((1 : Word) <<< l)

/-- CMP (05 R110 to R112). -/
def execCmp (f : CmpOp) (s : State) : Out :=
  withIssuer s fun x =>
    let wide := f.type == 3
    let n := x.block.desc.vregs
    let okB := if f.sb = 1 then !wide || isEven f.vb else vregOk n wide f.vb.toNat
    if !(f.ok && vregOk n wide f.va.toNat && okB) then x.illegal
    else if x.active = 0 then x.retire x.reel
    else
      let r := x.reel
      let fz := flushes r none
      let res := fun l => compare f.type.toNat f.cond.toNat fz (r.vread wide f.va.toNat l)
        (if f.sb = 1 then (if wide then r.spair f.vb.toNat else (r.sget f.vb.toNat).setWidth 64) else r.vread wide f.vb.toNat l)
      let en := enables r none
      let ls := laneList x.active
      let exc := ls.filter fun l => (res l).2 &&& en != 0
      let old := r.kget x.split.lanes f.kd.toNat
      let m := ls.foldl (fun m l =>
        if exc.contains l then m else setBit m l (combine f.comb.toNat (old.getLsbD l) (res l).1)) old
      let r := (ls.foldl (fun q l => q.raiseFlags l (res l).2) r).kset f.kd.toNat m
      if exc = [] then x.retire r
      else x.takeTrap r 1 x.cur.bundle.word (maskOf exc) (excInfo (exc.foldl (fun a l => a ||| ((res l).2 &&& en)) 0))

/-! ## Select and move -/

/-- SEL fn 0 (05 R113). -/
def execSel (f : SelOp) (s : State) : Out :=
  withIssuer s fun x =>
    let m := x.reel.kget x.split.lanes f.kc.toNat
    x.vector ⟨f.vd.toNat, f.va.toNat, .vec f.vb.toNat, .none, false, false, false, true⟩
      fun l a b _ => (if m.getLsbD l then a else b, 0)

/-- SEL fn 1 (05 R113). -/
def execMov (f : V2) (s : State) : Out := vec2 f false false (fun _ a _ _ => (a, 0)) s

/-! ## Lane exchange -/

/-- Writes a vector register in every active lane with a 32-bit value of the lane; waits at issue while it is the destination of an
outstanding load (04 R89). -/
def Issuer.writeLanes (x : Issuer) (vd : Nat) (g : Nat → Word) : Out :=
  if x.active = 0 then x.retire x.reel
  else if x.reel.busyV vd then x.wait
  else x.retire ((laneList x.active).foldl (fun r l => r.vset vd l (g l)) x.reel)

/-- Writes a uniform register; waits at issue while it is the destination of an outstanding load (04 R89). -/
def Issuer.writeS (x : Issuer) (sd : Nat) (v : Word) : Out := if x.reel.busyS sd then x.wait else x.retire (x.reel.sset sd v)

/-- Writes a uniform pair. -/
def Issuer.writePair (x : Issuer) (sd : Nat) (v : DWord) : Out :=
  if x.reel.busyS sd || x.reel.busyS (sd + 1) then x.wait else x.retire (x.reel.setSpair sd v)

/-- A lane exchange: the source lane of a lane and its count, if it lies in 0 to 31 and is active, else the lane itself (05 R114). -/
def shuffle (src : Nat → Nat → Option Nat) (f : L3) (s : State) : Out :=
  withIssuer s fun x =>
    let n := x.block.desc.vregs
    if !(vregOk n false f.vd.toNat && vregOk n false f.va.toNat && vregOk n false f.vb.toNat) then x.illegal
    else
      let r := x.reel
      x.writeLanes f.vd.toNat fun l =>
        match src l ((r.vget f.vb.toNat l).toNat % 32) with
        | some m => if m < 32 ∧ x.active.getLsbD m then r.vget f.va.toNat m else r.vget f.va.toNat l
        | none => r.vget f.va.toNat l

/-- LANE fn 0, kc 0 (05 R114). -/
def execShflIdx (f : L3) (s : State) : Out := shuffle (fun _ d => some d) f s
/-- LANE fn 0, kc 1 (05 R114). -/
def execShflUp (f : L3) (s : State) : Out := shuffle (fun l d => if d ≤ l then some (l - d) else none) f s
/-- LANE fn 0, kc 2 (05 R114). -/
def execShflDown (f : L3) (s : State) : Out := shuffle (fun l d => some (l + d)) f s
/-- LANE fn 0, kc 3 (05 R114). -/
def execShflXor (f : L3) (s : State) : Out := shuffle (fun l d => some (l ^^^ d)) f s

/-- LANE fn 1: the exclusive prefix count over the present lanes (05 R115). -/
def execKprefix (f : KPre) (s : State) : Out :=
  withIssuer s fun x =>
    if !vregOk x.block.desc.vregs false f.vd.toNat then x.illegal
    else
      let m := x.reel.kget x.split.lanes f.kc.toNat &&& x.active
      x.writeLanes f.vd.toNat fun l => BitVec.ofNat 32 ((laneList m).filter (· < l)).length

/-- LANE fn 2: the mask of active lanes whose value is not 0 (05 R116). -/
def execBallot (f : Ballot) (s : State) : Out :=
  withIssuer s fun x =>
    if !vregOk x.block.desc.vregs false f.va.toNat then x.illegal
    else if x.active = 0 then x.retire x.reel
    else x.retire (x.reel.kset f.kd.toNat (maskOf ((laneList x.active).filter fun l => x.reel.vget f.va.toNat l != 0)))

/-- One lane's value to a uniform register, 0 when that lane is not active (05 R117). -/
def laneRead (sd : BitVec 6) (va : BitVec 7) (lane : Reel → Nat) (s : State) : Out :=
  withIssuer s fun x =>
    if !vregOk x.block.desc.vregs false va.toNat then x.illegal
    else if x.active = 0 then x.retire x.reel
    else
      let l := lane x.reel
      x.writeS sd.toNat (if x.active.getLsbD l then x.reel.vget va.toNat l else 0)

/-- LANE fn 3 with an immediate lane (05 R117). -/
def execLrd (f : LrdI) (s : State) : Out := laneRead f.sd f.va (fun _ => f.n.toNat) s
/-- LANE fn 3 with a lane in a uniform register (05 R117). -/
def execLrdS (f : LrdS) (s : State) : Out := laneRead f.sd f.va (fun r => (r.sget f.sn.toNat).toNat % 32) s

/-! ## Masks -/

/-- A mask operation on two masks (05 R118, R119). -/
def maskOp (g : Word → Word → Word) (f : K3) (s : State) : Out :=
  withIssuer s fun x =>
    let k := fun n => x.reel.kget x.split.lanes n
    x.retire (x.reel.kset f.kd.toNat (g (k f.ka.toNat) (k f.kb.toNat)))

/-- KOPS fn 0 (05 R118). -/
def execKand (f : K3) (s : State) : Out := maskOp (fun a b => a &&& b) f s
/-- KOPS fn 1 (05 R118). -/
def execKor (f : K3) (s : State) : Out := maskOp (fun a b => a ||| b) f s
/-- KOPS fn 2 (05 R118). -/
def execKxor (f : K3) (s : State) : Out := maskOp (fun a b => a ^^^ b) f s
/-- KOPS fn 3: all 32 bits (05 R118, R119). -/
def execKnot (f : K2) (s : State) : Out :=
  withIssuer s fun x => x.retire (x.reel.kset f.kd.toNat (~~~x.reel.kget x.split.lanes f.ka.toNat))
/-- KOPS fn 4 (05 R118). -/
def execKmovKs (f : KS) (s : State) : Out := withIssuer s fun x => x.retire (x.reel.kset f.kd.toNat (x.reel.sget f.sa.toNat))

/-- A value of a mask to a uniform register (05 R118). -/
def maskToS (g : Word → Word) (f : SK) (s : State) : Out :=
  withIssuer s fun x => x.writeS f.sd.toNat (g (x.reel.kget x.split.lanes f.ka.toNat))

/-- KOPS fn 5 (05 R118). -/
def execKmovSk (f : SK) (s : State) : Out := maskToS (fun m => m) f s
/-- KOPS fn 6 (05 R118). -/
def execKpopc (f : SK) (s : State) : Out := maskToS (fun m => BitVec.ofNat 32 (popCount m)) f s
/-- KOPS fn 7: the lowest 1 bit, 32 for none (05 R118). -/
def execKffs (f : SK) (s : State) : Out := maskToS (fun m => BitVec.ofNat 32 ((laneList m).headD 32)) f s

end Sys2Proof.Machine
end

