-- ==== Sys2Proof/Machine/Walk.lean ====
section
/-! DEFINITION. Physical memory, the places physical addresses name, protection-table reads and translation walks (08 R161 to R163,
14 R277 to R281, R333). -/

namespace Sys2Proof.Machine

/-! ## Physical addresses (14 R279) -/

/-- Bytes of a domain's DRAM: 32 GiB (18 R324). -/
def dramBytes : Nat := 2 ^ 35

/-- Where a physical address leads: a domain of this wafer, the host, or another wafer. -/
inductive Place where
  | home (d : Nat) | host | far (wafer : Nat)
  deriving DecidableEq, Repr

/-- The place of a physical address (14 R279); on wafer 4,095 the number 0xFFF names its own DRAM (21 R376). -/
def State.place (s : State) (pa : Nat) : Place :=
  if paWafer pa = s.mgmt.fabno.toNat then .home (paDomain pa)
  else if paWafer pa = Config.hostWafer then .host
  else .far (paWafer pa)

/-- Is there memory at a physical address? A domain's offsets end with its DRAM. -/
def State.exists? (s : State) (pa : Nat) : Bool :=
  match s.place pa with
  | .home _ => paOffset pa < dramBytes
  | _ => true

/-- Hops of the dimension-order route between two domains along x and along y: forward or back, and how many (18 R320). -/
def gridSteps (a b : Nat) : Nat × Nat := if a ≤ b then (0, b - a) else (1, a - b)

/-- The two-bit codes of the hops of a dimension-order route: all x hops, then all y hops (18 R320). -/
def gridRoute (a b : Nat) : List Nat :=
  let x := gridSteps (a % 8) (b % 8)
  let y := gridSteps (a / 8) (b / 8)
  List.replicate x.2 x.1 ++ List.replicate y.2 (2 + y.1)

/-- A route entry after reset: reachable, by the minimal channel, in dimension order (18 R320). -/
def routeAtReset (a b : Nat) : BitVec 64 :=
  let hops := gridRoute a b
  BitVec.ofNat 64 (2 ^ 63 + hops.length * 2 ^ 57 + (hops.zipIdx.map fun h => h.1 * 4 ^ h.2).sum)

/-- Domain `a`'s route entry for domain `b` (18 R320). -/
def State.route (s : State) (a b : Nat) : BitVec 64 := (s.domain a).routes.findD (routeAtReset a b) b

/-- Is a request from a domain to a physical address refused: its home is fenced, its DRAM channel has failed, no route leads there, or its wafer
cannot be reached (18 R320, R334, R335, 21 R378)? -/
def State.refuses (s : State) (src pa : Nat) : Bool :=
  match s.place pa with
  | .home d =>
    let h := s.domain d
    h.fenced || (h.lostRanges.any fun r => r.1 ≤ paOffset pa && paOffset pa < r.1 + r.2)
      || !(s.route src d).getLsbD 63
  | .host => false
  | .far w => s.lostWafers.contains w

/-- Does a request from a domain reach a physical address: it is not refused, and its home has power (18 R331)? -/
def State.reaches (s : State) (src pa : Nat) : Bool :=
  !s.refuses src pa && match s.place pa with | .home d => !(s.domain d).regFailed | _ => true

/-- What a read of a table entry comes to. -/
inductive TableRead where
  | entry (x : Nat)
  /-- No memory controller serves it, or it meets an uncorrectable error. -/
  | error
  /-- There is no memory at the address. -/
  | absent (pa : Nat)
  deriving DecidableEq, Repr

/-- An 8-byte physical read of a table at the memory controller of its address (08 R163, 14 R277): it sees DRAM, not the L2. -/
def State.tableRead (s : State) (src pa : Nat) (bad : Bool) : TableRead :=
  match s.place pa with
  | .home _ =>
    if !s.exists? pa then .absent pa
    else if bad || !s.reaches src pa then .error
    else .entry (Memory.readNat s.mem pa 8)
  | _ => .error

/-- The index of a virtual or intermediate address at a table level 1 to 3 (08 R161). -/
def tableIndex (level va : Nat) : Nat := (va >>> (55 - 13 * level)) % 2 ^ 13

/-- Bytes a leaf of a level covers: 4 TiB, 512 MiB, 64 KiB. -/
def leafBytes (level : Nat) : Nat := 2 ^ (55 - 13 * level)

/-- The [55:16] address of an entry. -/
def entryAddr (e : Nat) : Nat := bitsOf e 55 16 * 2 ^ 16

/-! ## Protection tables (08 R161 to R163) -/

/-- What a permission read comes to: a leaf, a permission fault of a kind, or no memory. -/
inductive PermRead where
  | leaf (e : LookEntry)
  | denied (kind : Nat)
  | absent (pa : Nat)
  deriving DecidableEq, Repr

/-- Reads protection table levels from `level`, `n` of them left. -/
def State.permLevels (s : State) (src ctx va : Nat) : Nat → Nat → Nat → PermRead
  | 0, _, _ => .denied 6
  | n + 1, level, base =>
    match s.tableRead src (base + 8 * tableIndex level va) false with
    | .absent pa => .absent pa
    | .error => .denied 7
    | .entry e =>
      if e % 2 = 0 then .denied 6
      else if level = 3 ∨ e.testBit 1 then
        let size := leafBytes level
        .leaf ⟨ctx, va / size * size, size, e.testBit 4, e.testBit 3, e.testBit 2⟩
      else State.permLevels s src ctx va n (level + 1) (entryAddr e)

/-- The permission read of an address for a context of a core's partition; `bad` says that a read met an uncorrectable error. -/
def State.permRead (s : State) (core ctx va : Nat) (bad : Bool) : PermRead :=
  let d := domainOfCore core
  let p := s.partn (s.domain d).part
  match s.tableRead d (p.ctxtab + 8 * ctx) bad with
  | .absent pa => .absent pa
  | .error => .denied 7
  | .entry e => if e % 2 = 0 then .denied 6 else s.permLevels d ctx va 3 1 (entryAddr e)

/-! ## Translation tables (14 R277, R278) -/

/-- A fault of a walk: kind, detail, level, whether of the second stage, and the address at fault. -/
structure XFault where
  kind : Nat
  detail : Nat
  level : Nat
  stage : Bool
  pa : Nat
  /-- The partition a synonym record reports. -/
  part : Option Nat
  deriving DecidableEq, Repr

/-- One stage of a walk: its leaf entry with the output address, a fault by detail and level, or no memory. -/
inductive StageRead where
  | leaf (e out : Nat)
  | fault (detail level : Nat)
  | absent (pa : Nat)
  deriving DecidableEq, Repr

/-- Is an entry malformed: a non-zero 0 field, and in a leaf a misaligned address or, in the first stage, a reserved mode or grain? -/
def badEntry (first : Bool) (level e : Nat) (leaf : Bool) : Bool :=
  bitsOf e 58 56 != 0 || bitsOf e 15 2 != 0
    || (leaf && ((entryAddr e) % leafBytes level != 0 || (first && (bitsOf e 63 62 == 3 || bitsOf e 61 60 == 3))))

/-- Reads the levels of a stage from `level`, `n` of them left; the read of level `bad` meets an uncorrectable error (0 for none). -/
def State.stageLevels (s : State) (src : Nat) (first : Bool) (va : Nat) : Nat → Nat → Nat → Nat → StageRead
  | 0, _, _, level => .fault 1 level
  | n + 1, bad, base, level =>
    match s.tableRead src (base + 8 * tableIndex level va) (bad != 0 && bad == level) with
    | .absent pa => .absent pa
    | .error => .fault 3 level
    | .entry e =>
      if e % 2 = 0 then .fault 1 level
      else
        let leaf := level == 3 || e.testBit 1
        if badEntry first level e leaf then .fault 2 level
        else if leaf then .leaf e (entryAddr e + va % leafBytes level)
        else State.stageLevels s src first va n bad (entryAddr e) (level + 1)

/-- A walk's result before the frame check: a translation of the granule, a fault, or no memory. -/
inductive WalkRead where
  | ok (x : Xlat)
  | fault (f : XFault)
  | absent (pa : Nat)
  deriving DecidableEq, Repr

/-- Bytes of a grain code (14 R273). -/
def grainBytes (code : Nat) : Nat := match code with | 0 => 32 | 1 => 128 | _ => 512

/-- May partition `p` reach memory at a physical address (18 R332, R333)? -/
def State.connected (s : State) (p pa : Nat) : Bool :=
  match s.place pa with
  | .home d => (s.partn p).conn.getLsbD (s.domain d).part
  | _ => true

/-- The walk of a granule for a domain: two stages when the partition has a second (14 R277, R278), then the connection matrix (18 R333).
The read of level `bad` of the first stage, or of level `bad` − 3 of the second, meets an uncorrectable error (0 for none). -/
def State.walkTables (s : State) (dom page bad : Nat) : WalkRead :=
  let part := (s.domain dom).part
  let p := s.partn part
  let va := page * 2 ^ 16
  let finish := fun (leaf out : Nat) =>
    if s.connected part out then
      .ok ⟨out, bitsOf leaf 63 62, grainBytes (bitsOf leaf 61 60), leaf.testBit 59⟩
    else .fault ⟨2, 4, 0, true, out, none⟩
  match s.stageLevels dom true va 3 bad p.xlat1 1 with
  | .absent pa => .absent pa
  | .fault detail level => .fault ⟨1, detail, level, false, 0, none⟩
  | .leaf e out =>
    if p.xlat2 = 0 then finish e out
    else if out.testBit 55 then .fault ⟨2, 4, 0, true, out, none⟩
    else
      match s.stageLevels dom false out 3 (bad - 3) p.xlat2 1 with
      | .absent pa => .absent pa
      | .fault detail level => .fault ⟨2, detail, level, true, out, none⟩
      | .leaf _ pa => finish e pa

/-! ## Frame tables (14 R280, R281) -/

/-- The frame entry of a physical address, if this wafer holds it: that of the home domain, or the host's. -/
def State.frameEntry (s : State) (pa : Nat) : Option Nat :=
  match s.place pa with
  | .home d => some ((s.domain d).frames + 8 * bitsOf pa 37 16)
  | .host => some (s.mgmt.hframes + 8 * bitsOf pa 43 16)
  | .far _ => none

/-- The frame check of a translation fill: one read-modify-write of the frame's entry (14 R281). -/
def State.frameCheck (s : State) (part page : Nat) (x : Xlat) : State × Option XFault :=
  match s.frameEntry x.pa with
  | none => (s, none)
  | some a =>
    let e := s.physRead a 8
    if !e.testBit 63 then (s.physWrite a 8 (2 ^ 63 + page * 2 ^ 16 + part * 2 ^ 12), none)
    else if bitsOf e 54 16 = page then (s, none)
    else (s, some ⟨3, 0, 0, false, x.pa, some (bitsOf e 15 12)⟩)

/-- A translation walk whole: tables, then frames. -/
def State.walk (s : State) (dom page bad : Nat) : State × WalkRead :=
  match s.walkTables dom page bad with
  | .ok x =>
    match s.frameCheck (s.domain dom).part page x with
    | (s, none) => (s, .ok x)
    | (s, some f) => (s, .fault f)
  | r => (s, r)

end Sys2Proof.Machine
end

