-- ==== Sys2Proof/Machine/Slice.lean ====
section
/-! DEFINITION. The L2 slice, the home and the messages between them: bytes of sectors, serialising a write, serving a read, provisional and
forwarded writes, and the faults a translation or a refusal reports (14 R270 to R284). -/

namespace Sys2Proof.Machine

/-! ## Bytes -/

/-- The bytes of a line's image that fall in sector `j` of the line. -/
def LineImg.sector (i : LineImg) (j : Nat) : BitVec 256 := i.data.extractLsb' (256 * j) 256
/-- The mask of sector `j` of a line's image. -/
def LineImg.smask (i : LineImg) (j : Nat) : BitVec 32 := i.mask.extractLsb' (32 * j) 32

/-- The sectors a line's image touches, by VA / 32. -/
def LineImg.sectors (i : LineImg) : List Nat := ((List.range 4).filter fun j => i.smask j != 0).map (4 * i.line + ·)

/-- The lowest byte address an image writes. -/
def LineImg.lowest (i : LineImg) : Nat :=
  128 * i.line + (((List.range 128).find? fun b => i.mask.getLsbD b).getD 0)

/-- The physical address of a virtual address in a granule's translation. -/
def Xlat.at (t : Xlat) (va : Nat) : Nat := t.pa + va % 65536

/-! ## L2 sectors -/

/-- An Invalid sector. -/
def L2Sector.invalid : L2Sector := ⟨none, [], []⟩

/-- A sector of a domain's slice. -/
def State.sector (s : State) (d sec : Nat) : L2Sector := (s.domain d).l2.findD L2Sector.invalid sec

/-- Writes a sector of a domain's slice. -/
def State.setSector (s : State) (d sec : Nat) (x : L2Sector) : State :=
  s.onDomain d fun q => { q with l2 := q.l2.putD L2Sector.invalid sec x }

/-- Changes a sector of a domain's slice. -/
def State.onSector (s : State) (d sec : Nat) (f : L2Sector → L2Sector) : State := s.setSector d sec (f (s.sector d sec))

/-- Marks every outstanding fill use-once (14 R276). -/
def L2Sector.useOnce (x : L2Sector) : L2Sector := { x with fills := x.fills.map fun f => { f with useOnce := true } }

/-- Drops a Guest copy and marks the fills use-once (14 R276). -/
def L2Sector.dropGuest (x : L2Sector) : L2Sector :=
  { x.useOnce with held := match x.held with | some h => if h.kind = .guest then none else some h | none => none }

/-- The bytes of a sector at its home: those its slice holds, else those of DRAM. -/
def State.homeSector (s : State) (d sec pa : Nat) : BitVec 256 :=
  match (s.sector d sec).held with
  | some h => h.data
  | none => BitVec.ofNat 256 (Memory.readNat s.mem pa 32)

/-- Bytes at an address at their home: `n` of them, within one sector. -/
def State.homeRead (s : State) (d : Nat) (t : Xlat) (va n : Nat) : Nat :=
  lowBits ((s.homeSector d (va / 32) (t.at (va / 32 * 32))).toNat >>> (8 * (va % 32))) (8 * n)

/-! ## Lines the host holds (21 R370 to R372) -/

/-- The 64-byte line of a physical address within its domain. -/
def hdmLine (pa : Nat) : Nat := paOffset pa / 64

/-- The bias of the page of a line of a domain. -/
def Domain.biasOf (q : Domain) (line : Nat) : BitVec 2 := q.bias.findD 0 (line / 64)

/-- Must a device access of a line wait for a back-invalidate snoop: a write of a line the host holds, a read of one it may own, any access of
one in a page on its way to device bias? -/
def Domain.hostBlocks (q : Domain) (line : Nat) (write : Bool) : Bool :=
  match q.snoop.find? fun e => e.1 == line with
  | some (_, own) => write || own || q.biasOf line == 2
  | none => false

/-- The 64-byte lines that `n` bytes at a physical address touch, by their numbers within the domain. -/
def hdmLines (pa n : Nat) : List Nat := (List.range ((pa % 64 + n + 63) / 64)).map (hdmLine pa + ·)

/-- The 64-byte lines that bytes of a 128-byte line at a physical address touch. -/
def hdmHalves (pa : Nat) (mask : BitVec 128) : List Nat :=
  (if mask.extractLsb' 0 64 != 0 then [hdmLine pa] else []) ++ (if mask.extractLsb' 64 64 != 0 then [hdmLine pa + 1] else [])

/-- Is an access of lines of a home free of the host? -/
def State.hostClear (s : State) (h : Nat) (lines : List Nat) (write : Bool) : Bool := lines.all fun l => !(s.domain h).hostBlocks l write

/-- Sends the snoops an access of lines waits for: BISnpInv for a write, BISnpData for a read; one that is out already is not sent again. -/
def State.askHost (s : State) (h : Nat) (lines : List Nat) (write : Bool) : State :=
  let q := s.domain h
  let ask := lines.filter fun l => q.hostBlocks l write && !(q.biOut.any fun o => o.1 == l && (o.2 || !write))
  if ask.isEmpty then s else s.setDomain h { q with biOut := q.biOut ++ ask.map fun l => (l, write) }

/-! ## The directory (14 R274, R275) -/

/-- The grains, by their first VA, that bytes of an image touch. -/
def LineImg.grains (i : LineImg) (grain : Nat) : List Nat :=
  ((i.sectors.map fun sec => sec * 32 / grain * grain).foldl insertNew [])

/-- What the home does beside applying a write to a grain by its first VA (14 R275). -/
def State.publish (s : State) (h : Nat) (sid : Option Nat) (t : Xlat) (va : Nat) : State :=
  match (s.domain h).dir.find? (t.at va) with
  | none => s
  | some e => s.publishEntry h (t.at va) sid e

/-- Bytes of a domain's bias table (21 R370). -/
def biasBytes : Nat := 2 ^ 21

/-- Does a physical address lie in some domain's bias table, where writes are ignored (21 R370)? -/
def State.inBiasTable (s : State) (pa : Nat) : Bool :=
  s.domains.any fun q => q.2.biasBase != 0 && decide (q.2.biasBase ≤ pa) && decide (pa < q.2.biasBase + biasBytes)

/-- Doorbells of 8 bytes (21 R373). -/
def doorbells : Nat := 1024

/-- The doorbells that bytes of a sector at a physical address write, where the doorbell array is mapped (21 R373). -/
def State.bellsOf (s : State) (pa : Nat) (mask : BitVec 32) : List Nat :=
  let base := s.mgmt.dbbase
  if base = 0 then []
  else ((List.range 4).filter fun k =>
      mask.extractLsb' (8 * k) 8 != 0 && decide (base ≤ pa + 8 * k) && decide (pa + 8 * k < base + 8 * doorbells)).map fun k =>
    (pa + 8 * k - base) / 8

/-- A write of device code to a doorbell notifies its registration next (21 R373). -/
def State.ringBells (s : State) (ns : List Nat) : State :=
  if ns.isEmpty then s else { s with mgmt := { s.mgmt with rung := unionNew s.mgmt.rung ns } }

/-- Writes bytes of one sector at their home: the sector becomes Dirty. -/
def State.writeSector (s : State) (h sec : Nat) (t : Xlat) (data : BitVec 256) (mask : BitVec 32) : State :=
  let pa := t.at (32 * sec)
  let s := s.ringBells (s.bellsOf pa mask)
  let old := s.homeSector h sec pa
  let mask := if s.inBiasTable pa then 0 else mask
  s.onSector h sec fun x => { x with held := some ⟨.dirty, pa, t.mode, t.ac, mergeBytes 32 old data mask.toNat⟩ }

/-- A sector that its home slice holds from now on, with bytes equal to DRAM unless it held them already. -/
def L2Sector.holdClean (x : L2Sector) (pa : Nat) (t : Xlat) (data : BitVec 256) : L2Sector :=
  { x with held := some (x.held.getD ⟨.clean, pa, t.mode, t.ac, data⟩) }

/-- A write is serialised at its home: applied, then published (14 R275). -/
def State.serialise (s : State) (h : Nat) (sid : Option Nat) (t : Xlat) (i : LineImg) : State :=
  let s := ((List.range 4).filter fun j => i.smask j != 0).foldl (fun s j =>
    s.writeSector h (4 * i.line + j) t (i.sector j) (i.smask j)) s
  (i.grains t.grain).foldl (fun s va => s.publish h sid t va) s

/-- The image of `n` bytes written at an address. -/
def imageOf (va n x : Nat) (lanes : Word) : LineImg :=
  ⟨va / 128, BitVec.ofNat 128 (byteMask (va % 128) n), BitVec.ofNat 1024 (lowBits x (8 * n) <<< (8 * (va % 128))), lanes⟩

/-! ## Messages -/

/-- The line of an atomic's lanes, which all lie in one. -/
def lineOf (lanes : List AtomLane) : Nat := (lanes.map AtomLane.va).headD 0 / 128

/-- The line a request on its way from a core to its slice names. -/
def Body.sliceLine : Body → Option Nat
  | .read _ sec => some (sec / 4)
  | .write _ i => some i.line
  | .atomic _ _ _ _ lanes => some (lineOf lanes)
  | .watch _ _ _ va _ => some (va / 128)
  | _ => none

/-- Requests to a home, messages from a home, acknowledgements: the order of each holds by pair of domains (14 R272, 18 R319). -/
def Body.channel : Body → Nat
  | .fillReq .. | .homeWrite .. | .homeAtomic .. | .homeWatch .. | .contrib .. => 1
  | .fill .. | .confirm .. | .atomAns .. | .inval .. | .report .. | .watchAns .. => 2
  | .ack .. => 3
  | _ => 0

/-- Is the message a write? -/
def Body.isWrite : Body → Bool
  | .write .. => true
  | _ => false
/-- Is the message a load's read? -/
def Body.isRead : Body → Bool
  | .read .. => true
  | _ => false

/-- The line of a write or atomic that waits in its own domain's slice, which is its home, for the host to give the line up. -/
def Msg.waitsAtHome (p : Msg) : Option Nat :=
  if p.src = p.dst then
    match p.body with
    | .homeWrite _ i _ => some i.line
    | .homeAtomic _ _ _ _ lanes _ => some (lineOf lanes)
    | _ => none
  else none

/-- Does an earlier message hold a later one back? Requests of one core to one line keep their order, at the slice and at a home in the core's own
domain (15 R294), but that a provisional write lets reads and writes pass; and messages of one channel between two domains keep theirs, but that
what waits at its home lets others pass. -/
def Msg.blocks (p m : Msg) : Bool :=
  match m.body.sliceLine with
  | some line =>
    p.core == m.core && p.dst == m.dst
      && ((p.body.sliceLine == some line && !(p.arrived && p.body.isWrite && (m.body.isWrite || m.body.isRead)))
        || p.waitsAtHome == some line)
  | none => m.body.channel != 0 && p.body.channel == m.body.channel && p.src == m.src && p.dst == m.dst && !p.arrived

/-- May the message be received next? -/
def State.ready (s : State) (key : Nat) (m : Msg) : Bool := s.msgs.all fun p => key ≤ p.1 || !p.2.blocks m

/-- A message that may be received, by its key: a domain that is fenced or without power receives none (18 R331, R335). -/
def State.receive? (s : State) (key : Nat) : Option Msg :=
  match s.msgs.find? key with
  | some m => if s.ready key m && !(s.domain m.dst).fenced && !(s.domain m.dst).regFailed then some m else none
  | none => none

/-- Removes a message. -/
def State.take (s : State) (key : Nat) : State := { s with msgs := s.msgs.del key }

/-- The domain a request to a place is sent to; 64 for outside. -/
def Place.dest : Place → Nat
  | .home d => d
  | _ => 64

/-! ## Translations -/

/-- The granule of a virtual address. -/
def granule (va : Nat) : Nat := va / 65536

/-- Leaves a request standing at its slice until its granule's walk ends; starts the walk (14 R271, R277). -/
def State.awaitWalk (s : State) (key : Nat) (d page : Nat) : State :=
  let s := { s with msgs := s.msgs.adjust key fun m => { m with arrived := true } }
  if (s.domain d).walks.contains page then s else s.onDomain d fun q => { q with walks := q.walks ++ [page] }

/-- The largest count of accesses kept (14 R283). -/
def maxCount : Nat := 2 ^ 32 - 1

/-- The domain whose translation unit counts the accesses of a domain to a physical address: the home, or the domain itself for memory of the host
or of another wafer (14 R283; log entry 14). -/
def State.counter (s : State) (d pa : Nat) : Nat := match s.place pa with | .home h => h | _ => d

/-- Counts an access of a domain to a granule whose page is counted, and appends a record to the unit's counter ring when the remote count has reached
the threshold and the next slot of the ring is free: its 16 bytes read 0 (14 R283; log entry 14). -/
def State.countAccess (s : State) (d pa : Nat) (ac : Bool) (va : Nat) : State :=
  if !ac then s
  else
    let h := s.counter d pa
    let q := s.domain h
    let (l, r) := q.counts.findD (0, 0) (granule va)
    let (l, r) := if h = d then (min maxCount (l + 1), r) else (l, min maxCount (r + 1))
    let at_ := q.ctrBase + 16 * (q.ctrIdx % (max 1 q.ctrSize))
    if q.ctrThr != 0 && q.ctrThr ≤ r && q.ctrSize != 0 && s.physRead at_ 16 == 0 then
      let rec_ := granule va * 2 ^ 16 + q.part * 2 ^ 56 + l * 2 ^ 64 + r * 2 ^ 96
      (s.setDomain h { q with counts := q.counts.del (granule va), ctrIdx := q.ctrIdx + 1 }).physWrite at_ 16 rec_
    else s.setDomain h { q with counts := q.counts.putD (0, 0) (granule va) (l, r) }

/-! ## Outstanding loads -/

/-- Changes an outstanding load of a reel, resident or saved. -/
def State.onLoad (s : State) (reel load : Nat) (f : OutLoad → OutLoad) : State :=
  s.onAnyReel reel fun r => { r with loads := r.loads.map fun o => if o.id = load then f o else o }

/-- The outstanding load of a reel, if it is still there. -/
def State.load? (s : State) (reel load : Nat) : Option OutLoad :=
  (s.reel? reel).bind fun r => r.loads.find? fun o => o.id = load

/-- Bytes a piece covers. -/
def LoadDst.bytes : LoadDst → Nat
  | .vec _ n _ => n
  | .uni _ n => n
  | .launch _ => 16
  | _ => 4

/-- The pieces of a load in a sector that have no data yet. -/
def OutLoad.openIn (o : OutLoad) (sec : Nat) : List Piece :=
  o.pieces.filter fun p => p.va / 32 == sec && p.data.isNone && !p.lost

/-- The bytes of a sector that a load still needs. -/
def OutLoad.need (o : OutLoad) (sec : Nat) : Nat :=
  (o.openIn sec).foldl (fun a p => a ||| byteMask (p.va % 32) o.dst.bytes) 0

/-- Gives a load its bytes of a sector. -/
def OutLoad.capture (o : OutLoad) (sec : Nat) (data : BitVec 256) : OutLoad :=
  { o with pieces := o.pieces.map fun p =>
      if p.va / 32 = sec ∧ p.data.isNone ∧ p.lost = false then
        { p with data := some ((data >>> (8 * (p.va % 32))).setWidth 128) }
      else p }

/-! ## The L1 (08 R149, R159, R170, R171) -/

/-- Lines of 128 bytes that the L1 of a core holds: what its division leaves of twelve steps of 48 KiB (08 R149, R159). -/
def Core.l1Capacity (c : Core) : Nat := (12 - c.division.getD 0) * 384

/-- The lines of which the L1 holds some sector. -/
def Core.l1Lines (c : Core) : List Nat := (c.l1.map fun p => p.1 / 4).foldl insertNew []

/-- A sector that the L1 holds of a line: the slot and class of the access that filled the line stand in each. -/
def Core.l1Of (c : Core) (line : Nat) : Option L1Sector := ([0, 1, 2, 3].filterMap fun j => c.l1.find? (4 * line + j)).head?

/-- A line leaves the L1 by capacity: its tag goes to the victim array in the place of the oldest, but for a line of class 1 (08 R170, R171). -/
def Core.evictL1 (c : Core) (line : Nat) : Core :=
  match c.l1Of line with
  | none => c
  | some x =>
    let vs := if x.scored then c.victims else c.victims ++ [⟨line, x.slot⟩]
    { c with l1 := c.l1.keep fun sec _ => sec / 4 != line, victims := vs.drop (vs.length - Config.victimEntries) }

/-- The line that leaves a full L1: a free choice, among the lines of class 1 where there are any (08 R159, R171; log entry 7). -/
def Core.l1Victim (c : Core) (draw : Nat) : Nat :=
  let first := c.l1Lines.filter fun l => (c.l1Of l).any (·.scored)
  let from_ := if first.isEmpty then c.l1Lines else first
  from_.getD (Config.l1Victim draw % from_.length) 0

/-- Puts a sector into the L1 for an access of a slot and class: the first of its line makes room, and gives the line its slot and class. -/
def Core.fillL1 (c : Core) (draw sec : Nat) (data : BitVec 256) (slot : Nat) (first : Bool) : Core :=
  match c.l1Of (sec / 4) with
  | some x => { c with l1 := c.l1.put sec ⟨data, x.slot, x.scored⟩ }
  | none =>
    let c := if c.l1Capacity ≤ c.l1Lines.length then c.evictL1 (c.l1Victim draw) else c
    { c with l1 := c.l1.put sec ⟨data, slot, first⟩ }

/-! ## Reads at the slice -/

/-- A read is served with a whole sector: the load takes its bytes, and the L1 may install it (08 R159). -/
def State.serve (s : State) (r : Reading) (sec : Nat) (data : BitVec 256) (whole : Bool) : State :=
  let s := s.onLoad r.reel r.load fun o => o.capture sec data
  if r.install && whole && (s.core r.core).l1Capacity != 0 then
    { s with nextId := s.nextId + 1 }.onCore r.core fun c => c.fillL1 s.nextId sec data (slotOfKey r.reel) (r.cls == 1)
  else s

/-- The other sector of the 64-byte host line that a sector lies in (21 R367). -/
def mateOf (sec : Nat) : Nat := if sec % 2 = 0 then sec + 1 else sec - 1

/-- A read waits on a fill of its sector: the outstanding one, unless it is marked use-once, or a new one (14 R270, R276). Both sectors of a host line
are filled together (21 R367). -/
def State.awaitFill (s : State) (d sec : Nat) (r : Reading) (t : Xlat) : State :=
  let x := s.sector d sec
  if x.fills.any fun f => !f.useOnce then
    s.setSector d sec { x with fills := x.fills.map fun f => if f.useOnce then f else { f with waiting := f.waiting ++ [r] } }
  else
    let req := s.nextId
    let s := s.setSector d sec { x with fills := x.fills ++ [⟨req, t.at (32 * sec), t.mode, t.ac, false, [r]⟩] }
    let s := if s.place t.pa = .host then
        s.onSector d (mateOf sec) fun y => { y with fills := y.fills ++ [⟨req, t.at (32 * mateOf sec), t.mode, t.ac, false, []⟩] }
      else s
    s.send ⟨d, (s.place t.pa).dest, r.core, false, .fillReq d sec t⟩

/-- Reads pass by the Forwarded bytes of a sector from now on, and go to the home behind the writes they belong to. -/
def L2Sector.hide (x : L2Sector) : L2Sector := { x with laid := x.laid.map fun l => { l with hidden := l.hidden || l.forwarded } }

/-- A load's read at its slice, with a translation at hand (14 R270): forwarded bytes that cover only part of it are read at the home with the rest.
-/
def State.readHome (s : State) (key d sec : Nat) (r : Reading) (t : Xlat) : State :=
  let pa := t.at (sec * 32)
  let s := ((s.take key).countAccess d t.pa t.ac (sec * 32)).onSector d sec L2Sector.hide
  if s.place t.pa = .home d ∧ s.reaches d pa ∧ s.hostClear d (hdmLines pa 32) false then
    let data := s.homeSector d sec pa
    (s.onSector d sec fun x => x.holdClean pa t data).serve r sec data true
  else s.awaitFill d sec r t

/-- The layer whose byte a read of a sector finds at an offset: the one written last, unless reads pass it by. -/
def L2Sector.top (x : L2Sector) (b : Nat) : Option Layer := (x.laid.filter fun l => !l.hidden && l.mask.getLsbD b).getLast?

/-- The bytes of a sector under its layers. -/
def L2Sector.over (x : L2Sector) (base : BitVec 256) : BitVec 256 :=
  (x.laid.filter fun l => !l.hidden).foldl (fun d l => mergeBytes 32 d l.data l.mask.toNat) base

/-- Has the home accepted a store's bytes of a line: its write is no longer under way there? -/
def State.accepted (s : State) (sid line : Nat) : Bool :=
  s.msgs.all fun m => match m.2.body with | .homeWrite i img _ => !(i == sid && img.line == line) | _ => true

/-- May a read of a core take the byte of a layer: of its own core's, or of one whose write the home has accepted, so that no fault can take it back
(14 R270, R271, 15 R307)? -/
def State.seesLayer (s : State) (core line : Nat) (l : Layer) : Bool := l.core == core || (l.forwarded && s.accepted l.sid line)

/-- Does a sector that a slice holds serve local reads: a copy, or a home sector that is within reach and that no host holds back (14 R270, 18 R334,
21 R371)? -/
def State.serves (s : State) (d : Nat) (h : Held) : Bool :=
  h.kind == .guest || (s.reaches d h.pa && s.hostClear d (hdmLines h.pa 32) false)

/-- A load's read at its slice (14 R270, R271): provisional bytes serve the core that wrote them, and forwarded bytes every core once their home has
accepted them; a whole sector held serves; otherwise the read goes on with its translation, or waits for one. -/
def State.sliceRead (s : State) (key d : Nat) (r : Reading) (sec : Nat) : State :=
  match s.load? r.reel r.load with
  | none => s.take key
  | some o =>
    let x := s.sector d sec
    let page := granule (sec * 32)
    let need := o.need sec
    let t := (s.domain d).xlats.find? page
    let go := match t with
      | some t => s.readHome key d sec r t
      | none => s.awaitWalk key d page
    let tops := ((List.range 32).filter need.testBit).filterMap x.top
    match x.laid, x.held with
    | [], some h =>
      if s.serves d h then ((s.take key).countAccess d h.pa h.ac (sec * 32)).serve r sec h.data true else go
    | [], none => go
    | _ :: _, _ =>
      if tops.any fun l => !s.seesLayer r.core (sec / 4) l then
        if tops.any fun l => !l.forwarded then s.awaitWalk key d page else s
      else if ((List.range 32).filter need.testBit).all fun b => (x.top b).isSome then
        let s := match t with | some t => s.countAccess d t.pa t.ac (sec * 32) | none => s
        (s.take key).serve r sec (x.over 0) false
      else if x.laid.any fun l => !l.forwarded then s.awaitWalk key d page
      else go

/-! ## Writes at the slice -/

/-- Lays a store's bytes over a sector, last. -/
def L2Sector.lay (x : L2Sector) (forwarded : Bool) (core sid : Nat) (data : BitVec 256) (mask : BitVec 32) : L2Sector :=
  { x with laid := x.laid ++ [⟨sid, core, forwarded, false, data, mask⟩] }

/-- The sectors of a line that hold no copy once bytes of it have been forwarded: those written, and for a host line the other of its two (21
R367). -/
def LineImg.gone (i : LineImg) (host : Bool) : List Nat :=
  (List.range 4).filter fun j => i.smask j != 0 || (host && i.smask (mateOf j) != 0)

/-- Lays an image over the sectors of its line. -/
def State.layImage (s : State) (d : Nat) (forwarded : Bool) (core sid : Nat) (i : LineImg) : State :=
  ((List.range 4).filter fun j => i.smask j != 0).foldl (fun s j =>
    s.onSector d (4 * i.line + j) fun x => x.lay forwarded core sid (i.sector j) (i.smask j)) s

/-- Lays an image over its line as Forwarded; copies of the sectors go. -/
def State.forward (s : State) (d core sid : Nat) (i : LineImg) (t : Xlat) : State :=
  ((i.gone (s.place t.pa == .host)).foldl (fun s j => s.onSector d (4 * i.line + j) L2Sector.dropGuest) s).layImage d true core sid i

/-- Takes a store's bytes off the sectors of a line (14 R272). -/
def State.unlay (s : State) (d line sid : Nat) : State :=
  (List.range 4).foldl (fun s j => s.onSector d (4 * line + j) fun x => { x with laid := x.laid.filter fun l => l.sid != sid }) s

/-- A write with a translation: applied at its own domain's home and confirmed, or sent on to another home, its bytes Forwarded (14 R271). -/
def State.resolveWrite (s : State) (key d core sid : Nat) (i : LineImg) (t : Xlat) : State :=
  let s := (s.take key).countAccess d t.pa t.ac (128 * i.line)
  let s := s.unlay d i.line sid
  let pa := t.at (128 * i.line)
  if s.place t.pa = .home d ∧ s.reaches d pa ∧ s.hostClear d (hdmHalves pa i.mask) true then
    (s.serialise d (some sid) t i).send ⟨d, d, core, false, .confirm sid i.line⟩
  else
    (s.forward d core sid i t).send ⟨d, (s.place t.pa).dest, core, false, .homeWrite sid i t⟩

/-- A write at its slice: Provisional when there is no translation (14 R271). -/
def State.sliceWrite (s : State) (key : Nat) (m : Msg) (sid : Nat) (i : LineImg) : State :=
  match (s.domain m.dst).xlats.find? (granule (128 * i.line)) with
  | some t => s.resolveWrite key m.dst m.core sid i t
  | none => if m.arrived then s else (s.layImage m.dst false m.core sid i).awaitWalk key m.dst (granule (128 * i.line))

/-- An atomic or a watch at its slice goes on to its home once it has a translation; the slice drops its own copy before an atomic, and later reads go
to the home behind it (14 R275, 15 R294, 09 R186, R199). Contributions to reduction cells go as such (09 R189). -/
def State.sliceForward (s : State) (key : Nat) (m : Msg) (va : Nat) (body : Xlat → Body) (atomic : Bool) : State :=
  match (s.domain m.dst).xlats.find? (granule va) with
  | some t =>
    let s := (s.take key).countAccess m.dst t.pa t.ac va
    let s := if atomic then
        (List.range 4).foldl (fun s j => s.onSector m.dst (4 * (va / 128) + j) fun x => x.dropGuest.hide) s else s
    s.send ⟨m.dst, (s.place t.pa).dest, m.core, false, body t⟩
  | none => s.awaitWalk key m.dst (granule va)

/-- The message an atomic becomes on its way to its home. -/
def atomicHome (sid : Nat) (reader : Option (Nat × Nat)) (op : AtomKind) (wide : Bool) (lanes : List AtomLane) (t : Xlat) : Body :=
  match op with
  | .xadd => .contrib sid (lineOf lanes) lanes 0 t
  | _ => .homeAtomic sid reader op wide lanes t

/-! ## Faults at the memory side (14 R284, R285) -/

/-- Drops a line from a core's L1. -/
def State.dropL1Line (s : State) (core line : Nat) : State :=
  s.onCore core fun c => { c with l1 := c.l1.keep fun sec _ => sec / 4 != line }

/-- The engine command a store belongs to (11 R250). -/
def State.cmdOf (s : State) (core sid : Nat) : Option EngCmd := (s.core core).cmds.find? fun c => c.stores.contains sid

/-- The record of an engine command, without its address fields (11 R253, 14 R285). -/
def State.cmdRec (s : State) (core : Nat) (c : EngCmd) (o : FaultRec) : FaultRec :=
  { o with engine := true, reel := slotOfKey c.reel, inst := c.word, pc := c.pc, lanes := c.lanes, aux := c.word, cmd := some c.id, pcore := core
           reelKey := some c.reel, exited := ((s.reels.find? c.reel).map (·.exited)).getD true
           hmode := ((s.reels.find? c.reel).map (·.handler)).getD false }

/-- The record of a store, without its address fields (08 R166, 14 R284); that of an engine's store names its command. -/
def State.storeRec (s : State) (sid : Nat) (o : OutStore) : FaultRec :=
  let f := s.baseRec o.core o.ctx o.launch o.linear o.block
  match o.eng, s.cmdOf o.core sid with
  | true, some c => { s.cmdRec o.core c f with sid := some sid }
  | true, none => { f with engine := true, exited := o.ex, reel := o.slot, inst := o.inst, pc := o.pc, aux := o.inst, sid := some sid }
  | false, _ =>
    let retired := ((o.reel.bind s.reels.find?).map (·.retired)).getD (o.last.getD (o.stamp + 1))
    { f with
      store := true, exited := o.ex, reel := o.slot, seq := o.seq.toNat, skid := (retired - o.stamp - 1).toNat
      inst := o.inst, pc := o.pc, reelKey := o.reel, sid := some sid
      hmode := ((o.reel.bind s.reels.find?).map (·.handler)).getD false }

/-- Fills a record's fields from a walk's fault. -/
def FaultRec.withX (f : FaultRec) (x : XFault) : FaultRec :=
  { f with kind := x.kind, detail := x.detail, level := x.level, stage := x.stage, pa := x.pa, part := x.part.getD f.part }

/-- Changes a command of a core. -/
def State.onCmd (s : State) (core cmd : Nat) (f : EngCmd → EngCmd) : State :=
  s.onCore core fun q => { q with cmds := q.cmds.map fun c => if c.id = cmd then f c else c }

/-- Raises the engine fault of a command, which holds no reel (11 R253); a command that has its record raises no second. -/
def State.raiseCmd (s : State) (core cmd : Nat) (f : FaultRec) : State :=
  match (s.core core).cmds.find? fun c => c.id == cmd && c.record.isNone with
  | none => s
  | some _ =>
    match s.raiseRec f false with
    | (s, some id) => s.onCmd core cmd fun c => { c with record := some id }
    | (s, none) => s

/-- Reports a faulting part of a store: one record, and the part settled by it or by an abort. -/
def State.faultStore (s : State) (sid piece : Nat) (f : FaultRec) : State :=
  match f.cmd with
  | some c => (s.raiseCmd f.pcore c { f with kind := 0x0B, piece := piece }).setLine sid piece .settled
  | none =>
    let (s, id) := s.raiseRec { f with piece := piece, kind := if f.engine then 0x0B else f.kind } true
    match id with
    | some id => s.setLine sid piece (.faulted id)
    | none => s.setLine sid piece .settled

/-- A store's line faults (14 R271): its bytes leave the slice for the record, and the core's L1 line goes. -/
def State.faultWrite (s : State) (key d core sid : Nat) (i : LineImg) (x : XFault) : State :=
  let s := ((s.take key).unlay d i.line sid).dropL1Line core i.line
  match s.stores.find? sid with
  | none => s
  | some o =>
    s.faultStore sid i.line { (s.storeRec sid o).withX x with
      lanes := i.lanes, va := i.lowest, line := 128 * i.line, bmask := i.mask
      image := BitVec.ofNat 1024 (i.data.toNat &&& expandMask 128 i.mask.toNat) }

/-- Bytes of an atomic's operation. -/
def atomBytes (wide : Bool) : Nat := if wide then 8 else 4

/-- The image of an atomic's operands: that of the highest lane at each byte, the new value for cas (14 R285). -/
def atomImage (op : AtomKind) (wide : Bool) (lanes : List AtomLane) : LineImg :=
  let n := atomBytes wide
  let start : LineImg := ⟨lineOf lanes, 0, 0, maskOf (lanes.map AtomLane.lane)⟩
  lanes.foldl (fun i l =>
    let v := (if op = .cas then l.y else l.x).toNat
    let w := imageOf l.va n v 0
    { i with mask := i.mask ||| w.mask, data := mergeBytes 128 i.data w.data w.mask.toNat }) start

/-- An atomic or contribution without a returned value faults in a line (09 R186, 14 R285). -/
def State.faultAtomic (s : State) (sid piece : Nat) (op : AtomKind) (wide : Bool) (lanes : List AtomLane) (x : XFault) : State :=
  match s.stores.find? sid with
  | none => s
  | some o =>
    let i := atomImage op wide lanes
    s.faultStore sid piece { (s.storeRec sid o).withX x with
      lanes := i.lanes, va := i.lowest, line := 128 * i.line, bmask := i.mask, image := i.data, atom := some (op, wide, lanes) }

/-- A load's line faults: one record for all of its pieces there, and its requests to the line are gone (14 R284). -/
def State.faultLoad (s : State) (reel load line : Nat) (x : XFault) : State :=
  let s := { s with msgs := s.msgs.keep fun _ m =>
    match m.body with
    | .read r sec => !(r.reel == reel && r.load == load && sec / 4 == line)
    | .atomic _ (some rd) _ _ lanes => !(rd == (reel, load) && lineOf lanes == line)
    | _ => true }
  match s.reels.find? reel, s.load? reel load with
  | some r, some o =>
    match s.blocks.find? r.block with
    | none => s
    | some b =>
      let ps := o.pieces.filter fun p => p.va / 128 == line && p.data.isNone && !p.lost
      if ps.isEmpty then s
      else
        let covered := match o.atom with
          | some (op, wide, lanes) => (atomImage op wide (lanes.filter fun l => l.va / 128 == line && ps.any fun p => p.lane == l.lane)).mask
          | none => 0
        let (s, id) := s.raiseRec { (s.reelRec reel r b).withX x with
          load := true, inst := o.inst, pc := o.pc, bmask := covered
          lanes := match o.dst with | .vec .. => maskOf (ps.map (·.lane)) | _ => o.lanes
          va := ((ps.map (·.va)).min?).getD 0, line := 128 * line, loadId := some load
          atom := o.atom } true
        match id with
        | some id => s.onLoad reel load fun o => { o with recs := o.recs ++ [id] }
        | none => s
  | _, _ => s

/-- A parked split's wait with more causes (09 R200). -/
def Wait.wake (st : Word) : Wait → Wait
  | .park timeout since cause => .park timeout since (some (cause.getD 0 ||| st))
  | w => w

/-- Gives a cause to every split of a reel parked in `park`. -/
def Reel.wake (r : Reel) (st : Word) : Reel := r.mapWaits (Wait.wake st)

/-- A watch slot of a reel. -/
def Reel.watchSlot (r : Reel) (w : Nat) : WatchSlot := r.watches.findD WatchSlot.unarmed w
/-- Writes a watch slot. -/
def Reel.setWatch (r : Reel) (w : Nat) (v : WatchSlot) : Reel := { r with watches := r.watches.putD WatchSlot.unarmed w v }

/-- A bit of a park status. -/
def statusBit (n : Nat) : Word := (1 : Word) <<< n

/-- Is some slot of the reel armed, one sent and not yet answered included (09 R200)? -/
def Reel.armed (r : Reel) : Bool := (r.watchSlot 0).state != .unarmed || (r.watchSlot 1).state != .unarmed

/-- Ends every park of a reel that has no slot armed (09 R200). -/
def Reel.parkNone (r : Reel) : Reel := if r.armed then r else r.wake (statusBit 7)

/-- A registration has failed: its slot is unarmed, with the status of the answer; one made at a restore, which no load waits for, is lost (09 R200,
R203). -/
def Reel.unregistered (r : Reel) (slot reg : Nat) (status : Word) : Reel :=
  if (r.watchSlot slot).reg ≠ reg then r
  else
    let restored := !(r.loads.any fun o => o.id == reg)
    let r := r.setWatch slot { WatchSlot.unarmed with lost := restored, status := status }
    (if restored then r.wake (statusBit (5 + slot)) else r).parkNone

/-- A request that stands at its slice, or was refused on its way, faults. -/
def State.faultRequest (s : State) (key : Nat) (m : Msg) (x : XFault) : State :=
  match m.body with
  | .read r sec => (s.take key).faultLoad r.reel r.load (sec / 4) x
  | .write sid i => s.faultWrite key m.dst m.core sid i x
  | .homeWrite sid i _ => s.faultWrite key m.src m.core sid i x
  | .atomic sid rd op wide lanes | .homeAtomic sid rd op wide lanes _ =>
    let s := s.take key
    let line := lineOf lanes
    match rd with
    | some (reel, load) => (s.setLine sid line .settled).faultLoad reel load line x
    | none => s.faultAtomic sid line op wide lanes x
  | .contrib sid line lanes _ _ => (s.take key).faultAtomic sid line .xadd false lanes x
  | .watch reel slot reg va true | .homeWatch reel slot reg va true _ =>
    let s := (s.take key).onReel reel fun r => r.unregistered slot reg (r.watchSlot slot).status
    s.faultLoad reel reg (va / 128) x
  | .fillReq d sec _ =>
    let s := s.take key
    [sec, mateOf sec].foldl (fun s sec =>
      let gone := (s.sector d sec).fills.filter fun f => f.req == key
      let s := s.onSector d sec fun x => { x with fills := x.fills.filter fun f => f.req != key }
      gone.foldl (fun s f => f.waiting.foldl (fun s r => s.faultLoad r.reel r.load (sec / 4) x) s) s) s
  | _ => s.take key

/-- The requests that stand at a domain's slice for a granule, oldest first. -/
def State.standing (s : State) (d page : Nat) : List (Nat × Msg) :=
  s.msgs.filter fun p => p.2.arrived && p.2.dst == d && (p.2.body.sliceLine.map fun l => granule (128 * l)) == some page

/-- Translations a domain caches, and walks that run at once (14 R277). -/
def xlatEntries : Nat := 65536
/-- Walks that run at once. -/
def walkSlots : Nat := 48

/-- Makes room for one more translation: a full cache loses one. -/
def Domain.roomXlat (q : Domain) : Domain := if q.xlats.length < xlatEntries then q else { q with xlats := q.xlats.tail }

/-- A domain caches a translation, whose walk is over. -/
def Domain.cacheXlat (q : Domain) (page : Nat) (t : Xlat) : Domain :=
  let q := q.roomXlat
  { q with xlats := q.xlats.put page t, walks := q.walks.filter (· != page) }

/-- A walk ends with a translation: it is cached, and the provisional writes of the granule resolve in their order (14 R271). -/
def State.walkDone (s : State) (d page : Nat) (t : Xlat) : State :=
  let s := s.onDomain d fun q => q.cacheXlat page t
  (s.standing d page).foldl (fun s p =>
    match p.2.body with
    | .write sid i => s.resolveWrite p.1 d p.2.core sid i t
    | _ => { s with msgs := s.msgs.adjust p.1 fun m => { m with arrived := false } }) s

/-- A walk ends with a fault: it is reported for every request that stands for the granule (14 R284); nothing is cached (14 R281). -/
def State.walkFault (s : State) (d page : Nat) (x : XFault) : State :=
  let s := s.onDomain d fun q => { q with walks := q.walks.filter (· != page) }
  (s.standing d page).foldl (fun s p =>
    match s.msgs.find? p.1 with
    | some m => s.faultRequest p.1 m x
    | none => s) s

/-- What a translation comes to: it waits for a walk of its page in progress, or for a walk to end where as many run as can. -/
inductive Trans where
  | ok (t : Xlat) | fault (x : XFault) | absent (pa : Nat) | busy
  deriving DecidableEq, Repr

/-- The translation of a granule for a domain, walked for where none is cached and no walk stands in its way (14 R277). -/
def State.translate (s : State) (d page : Nat) : State × Trans :=
  let q := s.domain d
  match q.xlats.find? page with
  | some t => (s, .ok t)
  | none =>
    if q.walks.contains page || walkSlots ≤ q.walks.length then (s, .busy)
    else match s.walk d page 0 with
    | (s, .ok t) => (s.walkDone d page t, .ok t)
    | (s, .fault x) => (s, .fault x)
    | (s, .absent pa) => (s, .absent pa)

/-- The bytes of a sector of host memory or of another wafer: those an agent holds, else those that come from outside (21 R367). -/
def State.outsideSector (s : State) (ext : List (Nat × Nat)) (pa : Nat) : Option (BitVec 256) :=
  match s.place pa, s.hostLines.find? (pa % 2 ^ 44 / 64) with
  | .host, some l => some (l.data.extractLsb' (8 * (pa % 64)) 256)
  | _, _ => (Map.find? ext pa).map (BitVec.ofNat 256)

end Sys2Proof.Machine
end

