-- ==== Sys2Proof/Machine/Order.lean ====
section
/-! DEFINITION. Releases and acquires by scope, and what a block-scope edge hands on (09 R191, 10 R208, 15 R296 to R299). Scopes: 0 block,
1 domain, 2 wafer, 3 system. -/

namespace Sys2Proof.Machine

/-- Has a load been performed: every lane has its data, or has been dropped? -/
def OutLoad.performed (o : OutLoad) : Bool := o.recs.isEmpty && o.pieces.all fun p => p.data.isSome || p.lost

/-- Is a store settled, so that a release of domain scope need not wait for it? -/
def State.storeSettled (s : State) (sid : Nat) : Bool := match s.stores.find? sid with | some o => o.settled | none => true

/-- Is nothing of a store left to wait for, its invalidations included? -/
def State.storeGone (s : State) (sid : Nat) : Bool := (s.stores.find? sid).isNone

/-- The outstanding stores of a reel, oldest first. -/
def State.storesOf (s : State) (key : Nat) : List Nat := (s.stores.filter fun o => o.2.reel == some key).map (·.1)

/-- Does the word a split waits in store or perform an atomic: STS, ATOMG, ATOMS or `spost` (STAGE fn 7)? -/
def Split.storesSoon (p : Split) : Bool :=
  p.bundle.any fun b =>
    let maj := b.word.extractLsb' 26 6
    maj == 0x16 || maj == 0x17 || maj == 0x18 || (maj == 0x1C && b.word.extractLsb' 21 5 == 7)

/-- Has a split no scratchpad access, and no store or atomic that itself waits for a release, from before identity `mark` still to be performed
(09 R191: of every split, 04 R87)? -/
def Split.settledBefore (p : Split) (mark : Nat) : Bool :=
  match p.wait with
  | some (.fullEmpty a _ _) => mark ≤ a.id
  | some (.remote a _ _) => mark ≤ a.id
  | some (.release m _) => mark ≤ m || !p.storesSoon
  | _ => true

/-- What a release of a scope still waits for, of what the reel issued before identity `mark` (09 R191, 11 R229): loads to be performed, tile moves
to be made, scratchpad and REMOTE accesses of every split to be accepted by their banks, and engine commands to be accepted; from domain scope st =
0 and the inherited stores confirmed; from wafer scope their invalidations too. -/
def State.releaseDone (s : State) (key : Nat) (r : Reel) (scope mark : Nat) : Bool :=
  (r.loads.all fun o => mark ≤ o.id || o.performed)
    && (r.moves.all fun m => mark ≤ m.id) && (r.splits.all fun p => p.2.settledBefore mark)
    && ((s.core (coreOfKey key)).cmds.all fun e => e.reel != key || mark ≤ e.id || e.accepted)
    && (scope == 0 || (r.st == 0 && r.inherited.all s.storeSettled))
    && (scope ≤ 1 || (r.inherited.all s.storeGone && (s.storesOf key).all (mark ≤ ·)))

/-- The stores a release of block scope hands on: its own and those it inherited that are still to be performed (10 R208, 15 R299). -/
def State.carryOf (s : State) (key : Nat) (r : Reel) : List Nat :=
  unionNew (s.storesOf key) (r.inherited.filter fun i => !s.storeGone i)

/-- Inherits stores at a block-scope edge. -/
def Reel.inherit (r : Reel) (sids : List Nat) : Reel := { r with inherited := unionNew r.inherited sids }

/-- Waits for a release of a scope, and for as long as `held` says of its mark, then goes on with the stores it hands on and with what its instruction
read as it issued; a retest keeps the mark and what was read. -/
def Issuer.releaseWith (x : Issuer) (scope : Nat) (read : List Nat) (held : Nat → Bool) (k : List Nat → List Nat → Out) : Out :=
  let (mark, read, s) := match x.split.wait with
    | some (.release m r) => (m, r, x.s)
    | _ => (x.s.nextId, read, { x.s with nextId := x.s.nextId + 1 })
  if x.s.releaseDone x.key x.reel scope mark && !held mark then k (x.s.carryOf x.key x.reel) read
  else x.waitIn s x.reel (.release mark read)

/-- Waits for a release of a scope, then goes on with the stores it hands on. -/
def Issuer.release (x : Issuer) (scope : Nat) (k : List Nat → Out) : Out := x.releaseWith scope [] (fun _ => false) fun carry _ => k carry

/-- A core's reading installs nothing in the L1 any more. -/
def Reading.noInstall (r : Reading) (core : Nat) : Reading := if r.core = core then { r with install := false } else r

/-- A sector's waiting reads of a core install nothing in the L1 any more. -/
def L2Sector.noInstall (x : L2Sector) (core : Nat) : L2Sector :=
  { x with fills := x.fills.map fun f => { f with waiting := f.waiting.map fun r => r.noInstall core } }

/-- A message of a core's read of a sector that satisfies a test installs nothing in the L1 any more. -/
def Msg.noInstall (m : Msg) (core : Nat) (test : Nat → Bool) : Msg :=
  match m.body with
  | .read r sec => if test sec then { m with body := .read (r.noInstall core) sec } else m
  | _ => m

/-- Takes the installation in the L1 from a core's reads in flight whose sector satisfies a test. -/
def State.noInstall (s : State) (core : Nat) (test : Nat → Bool) : State :=
  let s := { s with msgs := s.msgs.mapVals fun _ m => m.noInstall core test }
  let mark := fun sec (x : L2Sector) => if test sec then x.noInstall core else x
  s.onDomain (domainOfCore core) fun q => { q with l2 := q.l2.mapVals mark }

/-- Does an acquire of a scope drop a page's Guest copies: of untracked pages from wafer scope (09 R191), of other wafers' lines at system
scope (21 R369, R377)? Host lines stay, since the agents keep them coherent. -/
def State.drops (s : State) (scope pa mode : Nat) : Bool :=
  match s.place pa with
  | .home _ => 2 ≤ scope && mode == 1
  | .host => false
  | .far _ => scope == 3 || (2 ≤ scope && mode == 1)

/-- A sector after an acquire of wafer or system scope by a core of its domain: guest copies that the scope drops go, outstanding fills of such pages
become use-once (14 R276), and later reads go to the home behind the bytes forwarded to it, which a later write there may have replaced
(DEDUCED from 15 R299; log entry 87). -/
def State.afterAcquire (s : State) (scope : Nat) (x : L2Sector) : L2Sector :=
  { x.hide with
    held := x.held.filter fun h => !(h.kind == .guest && s.drops scope h.pa h.mode)
    fills := x.fills.map fun f => if s.drops scope f.pa f.mode then { f with useOnce := true } else f }

/-- What an acquire of a scope does to the caches of a core and its domain (09 R191, 14 R273, R276, 21 R369). -/
def State.acquireCaches (s : State) (core scope : Nat) : State :=
  let s := if 1 ≤ scope then (s.onCore core fun c => { c with l1 := [] }).noInstall core fun _ => true else s
  if 2 ≤ scope then
    s.onDomain (domainOfCore core) fun q =>
      { q with l2 := (q.l2.mapVals fun _ x => s.afterAcquire scope x).keep fun _ x => x != L2Sector.invalid }
  else s

/-- Hands a release's stores on to what later acquires inherit: those of its block, and from domain scope those of its core (15 R299). -/
def State.handOn (s : State) (core block scope : Nat) (sids : List Nat) : State :=
  let live := fun (l : List Nat) => l.filter fun i => !s.storeGone i
  let s := s.onBlock block fun b => { b with carry := unionNew (live b.carry) sids }
  if scope = 0 then s else s.onCore core fun c => { c with carry := unionNew (live c.carry) sids }

/-- The stores that an acquire of a scope by a reel of a block inherits: those that releases have handed on in the block, and from domain scope in its
core (15 R299). -/
def State.carried (s : State) (b : Block) (scope : Nat) : List Nat :=
  if scope = 0 then b.carry else unionNew b.carry (s.core b.core).carry

end Sys2Proof.Machine
end

