-- ==== Sys2Proof/Machine/Global.lean ====
section
/-! DEFINITION. LDG, STG and ATOMG: permission at issue, the L1, the throttle, and sending loads, stores and atomics (08 R159 to R171,
09 R175 to R190). -/

namespace Sys2Proof.Machine

/-! ## Permission (08 R162, R163) -/

/-- What an access needs of its leaf. -/
structure Needs where
  rd : Bool
  w : Bool
  x : Bool
  deriving DecidableEq, Repr

/-- Does a leaf permit the access? -/
def LookEntry.permits (e : LookEntry) (n : Needs) : Bool := (!n.rd || e.r) && (!n.w || e.w) && (!n.x || e.x)

/-- The lookaside entry of a context that covers an address. -/
def Core.lookup (c : Core) (ctx va : Nat) : Option LookEntry :=
  c.look.find? fun e => e.ctx == ctx && e.lo ≤ va && va < e.lo + e.size

/-- What the check of one address comes to: permitted, a lookaside miss, or a fault of a kind. -/
inductive PermAns where
  | ok | miss | denied (kind : Nat)
  deriving DecidableEq, Repr

/-- The check of one address (08 R162), `denied` being the granules whose table reads have failed. -/
def Core.permit (c : Core) (ctx : Nat) (denied : List (Nat × Nat)) (n : Needs) (va : Nat) : PermAns :=
  match c.lookup ctx va with
  | some e => if e.permits n then .ok else .denied (if n.x then 5 else 4)
  | none =>
    match denied.find? fun p => p.1 = granule va with
    | some p => .denied p.2
    | none => .miss

/-- The granules found denied that a wait for permission holds. -/
def Wait.deniedOf : Option Wait → List (Nat × Nat)
  | some (.perm _ d) => d
  | _ => []

/-- The kind of the record of a permission fault, which is a precise trap (04 R91): in handler mode it is a nested trap, with no cause (DEDUCED from
04 R96, beside which 07 R145 and R146 name a permission fault of a handler's access otherwise; log entry 97). -/
def Reel.permKind (r : Reel) (kind : Nat) : Nat := if r.handler then 0x14 else kind

/-- Checks every lane's access (lane, address) before anything issues: a miss waits for the table reads, and one failing lane holds the reel
at the instruction (08 R162). `lanes` is what the record names when the instruction acts for its split as a whole (04 R394). -/
def Issuer.withPerm (x : Issuer) (accs : List (Nat × Nat)) (n : Needs) (whole : Bool) (k : Out) : Out :=
  let c := x.s.core x.coreId
  let den := Wait.deniedOf x.split.wait
  let ans := accs.map fun a => (a, c.permit x.block.ctx den n a.2)
  match ans.find? fun p => p.2 = .miss with
  | some p => x.waitIn x.s x.reel (.perm (granule p.1.2) den)
  | none =>
    let bad := ans.filterMap fun p => match p.2 with | .denied kind => some (p.1.1, p.1.2, kind) | _ => none
    match (bad.map (·.2.1)).min? with
    | none => k
    | some va =>
      let kind := ((bad.find? fun b => b.2.1 = va).map (·.2.2)).getD 4
      x.holdWith x.reel { x.s.reelRec x.key x.reel x.block with
        kind := x.reel.permKind kind, load := n.rd, store := n.w, pc := x.cur.bundle.start, inst := x.cur.bundle.word
        lanes := if whole then x.active else maskOf (bad.map (·.1)), va := va, line := va / 128 * 128 }

/-! ## The throttle (08 R170, R171) -/

/-- Can a reel slot of a core issue at all: it holds a reel that is neither held nor gone? -/
def State.eligible (s : State) (core slot : Nat) : Bool :=
  match s.reels.find? (32 * core + slot) with
  | some r => !r.held && !r.exited && !r.killed
  | none => false

/-- Inserts a slot by ascending score. -/
def insertByScore (score : Nat → Nat) (x : Nat) : List Nat → List Nat
  | [] => [x]
  | y :: ys => if score x < score y then x :: y :: ys else y :: insertByScore score x ys

/-- The eligible slots of a core, lowest score first, lower slot first on a tie. -/
def State.ranked (s : State) (core : Nat) : List Nat :=
  let c := s.core core
  ((List.range 32).filter (s.eligible core)).foldl (fun a x => insertByScore (fun i => c.scores.findD 0 i) x a) []

/-- The slots that may issue throttled accesses: those chosen at the last recomputation, and the next-ranked slots in the places that reels which are
held or gone, or that no reel filled, leave of the cap. -/
def State.allowedNow (s : State) (core : Nat) : List Nat :=
  let c := s.core core
  let stay := c.allowed.filter (s.eligible core)
  let rest := (s.ranked core).filter fun i => !c.allowed.contains i && !c.extra.contains i
  stay ++ c.extra.filter (s.eligible core) ++ rest.take (c.cap - stay.length)

/-- An issuer whose access the throttle has let through: where it counts, its reel is denied no longer. -/
def Issuer.admitted (x : Issuer) : Issuer :=
  if x.cur.bundle.hints.memClass = 2 then x
  else { x with s := x.s.onCore x.coreId fun c => { c with denied := c.denied.del (slotOfKey x.key) } }

/-- Issues a global access of the bound memory class, or waits at issue while its reel is denied. -/
def Issuer.throttled (x : Issuer) (k : Issuer → Out) : Out :=
  let slot := slotOfKey x.key
  if x.cur.bundle.hints.memClass == 2 || (x.s.allowedNow x.coreId).contains slot then k x.admitted
  else
    let since := fun (c : Core) => (c.denied.find? slot).getD (x.s.clock x.coreId)
    x.waitIn (x.s.onCore x.coreId fun c => { c with denied := c.denied.put slot (since c) }) x.reel (x.split.wait.getD .issue)

/-- Counts an access's L1 misses and its hits in the victim array (08 R170). What one miss is the spec does not say: here each line an instruction
misses counts once, and hits one entry at most (DESIGN CHOICE; log entry 88). -/
def Core.countMisses (c : Core) (slot cls : Nat) (lines : List Nat) : Core :=
  if cls = 2 then c
  else
    lines.foldl (fun c line =>
      let c := { c with misses := c.misses + 1 }
      match cls, c.victims.find? fun v => v.line = line with
      | 0, some v =>
        let c := { c with hits := c.hits + 1 }
        if v.slot = slot then { c with slotHits := c.slotHits.putD 0 slot (c.slotHits.findD 0 slot + 1) } else c
      | _, _ => c) c

/-! ## Sending (09 R178, R179, R185) -/

/-- Does the core have an L1 (08 R149)? -/
def Core.hasL1 (c : Core) : Bool := c.division != some 12

/-- Is a read of the sector by this core in flight? -/
def State.reading (s : State) (core sec : Nat) : Bool :=
  (s.msgs.any fun p => match p.2.body with | .read r sec' => r.core == core && sec' == sec | _ => false)
    || (s.sector (domainOfCore core) sec).fills.any fun f => f.waiting.any fun r => r.core == core

/-- Has a reel a store of a line under way that it sent from another core (19 R357)? -/
def State.awayStore (s : State) (key line : Nat) : Bool :=
  s.stores.any fun o => o.2.reel == some key && o.2.origin != o.2.core
    && match o.2.lines.find? line with | some .sent | some (.faulted _) => true | _ => false

/-- Sends a load of a reel: each sector is served by the L1 where it can be, and asked for at the slice otherwise (08 R159, 15 R294). -/
def State.sendReads (s : State) (core key load cls policy : Nat) (secs : List Nat) : State :=
  let useL1 := (s.core core).hasL1 && policy != 2
  let d := domainOfCore core
  let missed := secs.filter fun sec => !((s.core core).l1.find? sec).isSome
  let s := if useL1 then s.onCore core fun c => c.countMisses (slotOfKey key) cls ((missed.map (· / 4)).foldl insertNew []) else s
  secs.foldl (fun s sec =>
    match useL1 && !s.reading core sec && !s.awayStore key (sec / 4), (s.core core).l1.find? sec with
    | true, some l => s.onLoad key load fun o => o.capture sec l.data
    | _, _ =>
      let s := if useL1 then s else s.onCore core fun c => { c with l1 := c.l1.del sec }
      s.send ⟨d, d, core, false, .read ⟨core, key, load, useL1, cls, policy⟩ sec⟩) s

/-- The sectors pieces lie in. -/
def sectorsOf (ps : List (Nat × Nat)) : List Nat := (ps.map fun p => p.2 / 32).foldl insertNew []

/-- Issues a load of pieces (lane, address) into a destination: ld rises, and the reads are sent. -/
def Issuer.startLoad (x : Issuer) (s : State) (dst : LoadDst) (pieces : List (Nat × Nat)) : State :=
  let id := s.nextId
  let o : OutLoad := ⟨id, x.cur.bundle.ipc, x.cur.bundle.word, x.active, dst, pieces.map fun p => ⟨p.1, p.2, none, false⟩, none, []
    , x.cur.bundle.hints.memClass, x.cur.bundle.hints.policy⟩
  let s := { s with nextId := id + 1 }
  let s := s.onReel x.key fun r => { r with loads := r.loads ++ [o], ld := r.ld + 1 }
  s.sendReads x.coreId x.key id x.cur.bundle.hints.memClass x.cur.bundle.hints.policy (sectorsOf pieces)

/-- Retires after the state has changed beyond the reel: the reel is read again from it. -/
def Issuer.retireFrom (x : Issuer) (s : State) : Out :=
  match s.reels.find? x.key with
  | some r => { x with reel := r }.retireIn s r
  | none => .next { s with cur := none }

/-- The address of a lane in the M format (09 R175): base, offset and displacement, aligned to `n` bytes. -/
def Issuer.mAddr (x : Issuer) (f : MOp) (bits n : Nat) (l : Nat) : Nat :=
  let base := if bits = 55 then (x.reel.saddr (2 * f.sp.toNat)).toNat else (x.reel.sget (2 * f.sp.toNat)).toNat
  let off := if f.vo = 127 then 0 else (x.reel.vget f.vo.toNat l).toNat * 2 ^ f.sc.toNat
  let ea := wrapInt ((base + off : Nat) + x.cur.bundle.hints.disp) bits
  ea - ea % n

/-- Are the registers of an M word legal (02 R30, 09 R177)? -/
def Issuer.mRegsOk (x : Issuer) (f : MOp) (n : Nat) : Bool :=
  let v := x.block.desc.vregs
  f.ok n && f.vt.toNat + wordsOf n ≤ v && (f.vo == 127 || f.vo.toNat < v)

/-- A load from global memory of `n` bytes a lane (09 R178). -/
def loadGlobal (n : Nat) (sx : Bool) (f : MOp) (s : State) : Out :=
  withIssuer s fun x =>
    if !x.mRegsOk f n then x.illegal
    else if x.active = 0 then x.retire x.reel
    else
      let dst := LoadDst.vec f.vt.toNat n sx
      let accs := (laneList x.active).map fun l => (l, x.mAddr f 55 n l)
      x.withPerm accs ⟨true, false, false⟩ false
        (if dst.vregs.any x.reel.busyV || 63 ≤ x.reel.ld then x.wait
        else x.throttled fun x => x.retireFrom (x.startLoad x.s dst accs))

/-- LDG fn 0 (09 R177). -/
def execLdgZ8 (f : MOp) (s : State) : Out := loadGlobal 1 false f s
/-- LDG fn 1 (09 R177). -/
def execLdgI8 (f : MOp) (s : State) : Out := loadGlobal 1 true f s
/-- LDG fn 2 (09 R177). -/
def execLdgZ16 (f : MOp) (s : State) : Out := loadGlobal 2 false f s
/-- LDG fn 3 (09 R177). -/
def execLdgI16 (f : MOp) (s : State) : Out := loadGlobal 2 true f s
/-- LDG fn 4 (09 R177). -/
def execLdgB32 (f : MOp) (s : State) : Out := loadGlobal 4 false f s
/-- LDG fn 5 (09 R177). -/
def execLdgB64 (f : MOp) (s : State) : Out := loadGlobal 8 false f s
/-- LDG fn 6 (09 R177). -/
def execLdgB128 (f : MOp) (s : State) : Out := loadGlobal 16 false f s

/-- A load of `n` bytes to uniform registers, once for the split (09 R177). -/
def loadUniform (n : Nat) (f : LdU) (s : State) : Out :=
  withIssuer s fun x =>
    if n = 8 ∧ !isEven f.sd then x.illegal
    else if x.active = 0 then x.retire x.reel
    else
      let dst := LoadDst.uni f.sd.toNat n
      let ea := wrapInt ((x.reel.saddr (2 * f.sp.toNat)).toNat + x.cur.bundle.hints.disp) 55
      let va := ea - ea % n
      x.withPerm [(0, va)] ⟨true, false, false⟩ true
        (if dst.sregs.any x.reel.busyS || 63 ≤ x.reel.ld then x.wait
        else x.throttled fun x => x.retireFrom (x.startLoad x.s dst [(0, va)]))

/-- LDG fn 7 (09 R177). -/
def execLduB32 (f : LdU) (s : State) : Out := loadUniform 4 f s
/-- LDG fn 8 (09 R177). -/
def execLduB64 (f : LdU) (s : State) : Out := loadUniform 8 f s

/-! ## Stores -/

/-- The value of `n` bytes that a lane stores from registers `vt` on. -/
def Reel.storeVal (r : Reel) (vt n l : Nat) : Nat :=
  (List.range (wordsOf n)).foldl (fun a i => a + (r.vget (vt + i) l).toNat * 2 ^ (32 * i)) 0

/-- The images of a store by line: lanes in ascending order, so the highest lane's bytes remain (09 R179). -/
def storeImages (n : Nat) (accs : List (Nat × Nat × Nat)) : Map LineImg :=
  accs.foldl (fun m a =>
    let (l, va, v) := a
    let w := imageOf va n v (maskOf [l])
    m.put w.line (match m.find? w.line with
      | some i => ⟨w.line, i.mask ||| w.mask, mergeBytes 128 i.data w.data w.mask.toNat, i.lanes ||| w.lanes⟩
      | none => w)) []

/-- The L1 on a store: it updates the sectors that hit, or drops the line under policy 2 (08 R159, 09 R179). -/
def Core.storeL1 (c : Core) (policy : Nat) (i : LineImg) : Core :=
  { c with l1 :=
      if policy = 2 then c.l1.keep fun sec _ => sec / 4 != i.line
      else ((List.range 4).filter fun j => i.smask j != 0).foldl (fun m j =>
        Map.adjust m (4 * i.line + j) fun x => { x with data := mergeBytes 32 x.data (i.sector j) (i.smask j).toNat }) c.l1 }

/-- The attribution entries of a core in use. -/
def State.attrUsed (s : State) (core : Nat) : Nat := (s.stores.filter fun o => o.2.core == core && o.2.attr && o.2.block < savedBase).length

/-- The store record of an instruction of a reel. -/
def Issuer.storeOf (x : Issuer) (r : Reel) (lines : Map LineState) (attr counted : Bool) : OutStore where
  core := x.coreId
  origin := x.coreId
  slot := slotOfKey x.key
  reel := some x.key
  launch := x.block.launch
  block := r.block
  linear := x.block.linear
  ctx := x.block.ctx
  pc := x.cur.bundle.ipc
  inst := x.cur.bundle.word
  lanes := x.active
  seq := r.seq
  stamp := r.retired
  ex := false
  attr := attr
  lines := lines
  acks := 0
  counted := counted
  eng := false
  last := none

/-- Issues a store of images: an attribution entry, st, the L1, and a write to the slice for every line (08 R165, 09 R179). -/
def Issuer.startStore (x : Issuer) (s : State) (images : Map LineImg) : State :=
  let sid := s.nextId
  let s := { s with nextId := sid + 1 }
  let lines := images.map fun p => (p.1, LineState.sent)
  let o := x.storeOf ((s.reels.find? x.key).getD x.reel) lines true true
  let s := { s with stores := s.stores.put sid o }
  let s := s.onReel x.key fun r => { r with st := r.st + 1, seq := r.seq + 1 }
  let d := domainOfCore x.coreId
  let pol := x.cur.bundle.hints.policy
  let cls := x.cur.bundle.hints.memClass
  let missed := (images.map (·.1)).filter fun line => (List.range 4).all fun j => ((s.core x.coreId).l1.find? (4 * line + j)).isNone
  let s := if (s.core x.coreId).hasL1 && pol != 2 then s.onCore x.coreId fun c => c.countMisses (slotOfKey x.key) cls missed else s
  images.foldl (fun s p =>
    let s := (s.onCore x.coreId fun c => c.storeL1 pol p.2).noInstall x.coreId fun sec => sec / 4 = p.1
    s.send ⟨d, d, x.coreId, false, .write sid p.2⟩) s

/-- Marks the executing block published (18 R337). -/
def State.setPublished (s : State) (block : Nat) : State := s.onBlock block fun b => { b with published := true }

/-- A store to global memory of `n` bytes a lane (09 R179). -/
def storeGlobal (n : Nat) (f : MOp) (s : State) : Out :=
  withIssuer s fun x =>
    if !x.mRegsOk f n then x.illegal
    else if x.active = 0 then x.retire x.reel
    else
      let accs := (laneList x.active).map fun l => (l, x.mAddr f 55 n l)
      x.withPerm accs ⟨false, true, false⟩ false
        (if 63 ≤ x.reel.st || Config.attributionEntries ≤ x.s.attrUsed x.coreId then x.wait
        else x.throttled fun x =>
          let images := storeImages n (accs.map fun a => (a.1, a.2, x.reel.storeVal f.vt.toNat n a.1))
          x.retireFrom ((x.startStore x.s images).setPublished x.reel.block))

/-- STG fn 0 (09 R177). -/
def execStgB8 (f : MOp) (s : State) : Out := storeGlobal 1 f s
/-- STG fn 1 (09 R177). -/
def execStgB16 (f : MOp) (s : State) : Out := storeGlobal 2 f s
/-- STG fn 2 (09 R177). -/
def execStgB32 (f : MOp) (s : State) : Out := storeGlobal 4 f s
/-- STG fn 3 (09 R177). -/
def execStgB64 (f : MOp) (s : State) : Out := storeGlobal 8 f s
/-- STG fn 4 (09 R177). -/
def execStgB128 (f : MOp) (s : State) : Out := storeGlobal 16 f s

/-! ## Atomics -/

/-- The new value of an atomic on `n` bytes, none for an operation that writes nothing (09 R184, R185). -/
def atomNew (op : AtomKind) (wide : Bool) (old x y : DWord) : Option DWord :=
  let n := if wide then 64 else 32
  let sv := fun (v : DWord) => sxNat v.toNat n
  match op with
  | .add | .xadd => some (old + x)
  | .fadd =>
    let f := if wide then Fmt.f64 else Fmt.f32
    some (BitVec.ofNat 64 (fAdd f .rne false (FVal.read f false old.toNat) (FVal.read f false x.toNat)).1)
  | .minI => some (if sv old ≤ sv x then old else x)
  | .maxI => some (if sv old ≤ sv x then x else old)
  | .minZ => some (if old.toNat ≤ x.toNat then old else x)
  | .maxZ => some (if old.toNat ≤ x.toNat then x else old)
  | .and => some (old &&& x)
  | .or => some (old ||| x)
  | .xor => some (old ^^^ x)
  | .exch | .st => some x
  | .cas => if old = x then some y else none
  | .ld => none

/-- What an atomic needs of its leaf (08 R162). -/
def AtomKind.needs : AtomKind → Needs
  | .ld => ⟨true, false, false⟩
  | .st => ⟨false, true, false⟩
  | _ => ⟨true, true, false⟩

/-- The operands of a lane: x, and the new value of cas (09 R184). -/
def Reel.atomArgs (r : Reel) (op : AtomKind) (wide : Bool) (vd l : Nat) : DWord × DWord :=
  match op, wide with
  | .cas, true => (r.vpair vd l, r.vpair (vd + 2) l)
  | .cas, false => ((r.vget vd l).setWidth 64, (r.vget (vd + 1) l).setWidth 64)
  | _, true => (r.vpair vd l, 0)
  | _, false => ((r.vget vd l).setWidth 64, 0)

/-- Registers an atomic's vd names. -/
def atomRegs (op : AtomKind) (wide : Bool) : Nat :=
  match op, wide with | .cas, true => 4 | .cas, false => 2 | _, true => 2 | _, false => 1

/-- Groups lanes by line, keeping their order. -/
def byLine (lanes : List AtomLane) : List (Nat × List AtomLane) :=
  ((lanes.map fun l => l.va / 128).foldl insertNew []).map fun line => (line, lanes.filter fun l => l.va / 128 == line)

/-- Issues a global atomic (09 R185, R186): its counter, with ret = 0 an attribution entry, and a request for every line; the core drops its
own copies of the lines. -/
def Issuer.startAtomic (x : Issuer) (s : State) (op : AtomKind) (wide ret : Bool) (vd : Nat) (lanes : List AtomLane) : State :=
  let sid := s.nextId
  let load := sid + 1
  let s := { s with nextId := sid + 2 }
  let groups := byLine lanes
  let r := (s.reels.find? x.key).getD x.reel
  let lines : Map LineState := (groups.map (·.1)).foldl (fun m l => Map.put m l .sent) []
  let s := { s with stores := s.stores.put sid (x.storeOf r lines (!ret) (!ret)) }
  let pieces : List Piece := lanes.map fun l => ⟨l.lane, l.va, none, false⟩
  let o : OutLoad :=
    ⟨load, x.cur.bundle.ipc, x.cur.bundle.word, x.active, .vec vd (atomBytes wide) false, pieces, some (op, wide, lanes), [], 0, 0⟩
  let s := s.onReel x.key fun r =>
    if ret then { r with ld := r.ld + 1, loads := r.loads ++ [o] } else { r with st := r.st + 1, seq := r.seq + 1 }
  let d := domainOfCore x.coreId
  groups.foldl (fun s g =>
    let s := (s.dropL1Line x.coreId g.1).noInstall x.coreId fun sec => sec / 4 = g.1
    s.send ⟨d, d, x.coreId, false, .atomic sid (if ret then some (x.key, load) else none) op wide g.2⟩) s

/-- Does another split of the reel wait to acquire after an atomic (15 R302)? -/
def Issuer.othersAcquire (x : Issuer) : Bool :=
  x.reel.splits.any fun p => p.1 != x.cur.split && match p.2.wait with | some (.acquire ..) => true | _ => false

/-- Retires an atomic whose split acquires before it issues again, once its load has returned (09 R185). -/
def Issuer.awaitAcquire (x : Issuer) (s : State) (load scope : Nat) : Out :=
  match s.reels.find? x.key with
  | none => .next { s with cur := none }
  | some r => x.finish s (r.setSplit x.cur.split { x.split with pc := x.nextPc, wait := some (.acquire load scope), bundle := none })

/-- A global atomic (09 R185). -/
def atomGlobal (op : AtomKind) (wfOk : Bool) (ord scope : Nat) (wide ret : Bool) (vd va : Nat) (s : State) : Out :=
  withIssuer s fun x =>
    let v := x.block.desc.vregs
    if !(wfOk && vd + atomRegs op wide ≤ v && va + 2 ≤ v) then x.illegal
    else if x.active = 0 then x.retire x.reel
    else
      let n := atomBytes wide
      let n' := if op = .xadd then 16 else n
      let lanes : List AtomLane := (laneList x.active).map fun l =>
        let ea := wrapInt (((x.reel.vpair va l).setWidth 55 : VA).toNat + x.cur.bundle.hints.disp) 55
        let a := x.reel.atomArgs op wide vd l
        ⟨l, ea - ea % n', a.1, a.2⟩
      x.withPerm (lanes.map fun l => (l.lane, l.va)) op.needs false
        (let dst := LoadDst.vec vd n false
         if (ret && (dst.vregs.any x.reel.busyV || 63 ≤ x.reel.ld))
            || (!ret && (63 ≤ x.reel.st || Config.attributionEntries ≤ x.s.attrUsed x.coreId))
            || (ord % 2 == 1 && x.othersAcquire) then x.wait
         else x.throttled fun x =>
           let go := fun (carry : List Nat) =>
             let s := if carry.isEmpty then x.s else x.s.handOn x.coreId x.reel.block scope carry
             let s := if op = .ld then s else s.setPublished x.reel.block
             let id := s.nextId
             let s := x.startAtomic s op wide ret vd lanes
             if ord % 2 = 1 then x.awaitAcquire s (id + 1) scope else x.retireFrom s
           if 2 ≤ ord then x.release scope go else go [])

/-- An ATOMG that may return its old value. -/
def atomG (op : AtomKind) (f : AOp) (s : State) : Out :=
  atomGlobal op (f.ok (op = .cas)) f.ord.toNat f.scope.toNat (f.w == 1) (f.ret == 1) f.vd.toNat f.va.toNat s

/-- ATOMG op 0 (09 R184). -/
def execAtomgAdd (f : AOp) (s : State) : Out := atomG .add f s
/-- ATOMG op 1 (09 R184, R185). -/
def execAtomgFadd (f : AOp) (s : State) : Out := atomG .fadd f s
/-- ATOMG op 2 (09 R184). -/
def execAtomgMinI (f : AOp) (s : State) : Out := atomG .minI f s
/-- ATOMG op 3 (09 R184). -/
def execAtomgMaxI (f : AOp) (s : State) : Out := atomG .maxI f s
/-- ATOMG op 4 (09 R184). -/
def execAtomgMinZ (f : AOp) (s : State) : Out := atomG .minZ f s
/-- ATOMG op 5 (09 R184). -/
def execAtomgMaxZ (f : AOp) (s : State) : Out := atomG .maxZ f s
/-- ATOMG op 6 (09 R184). -/
def execAtomgAnd (f : AOp) (s : State) : Out := atomG .and f s
/-- ATOMG op 7 (09 R184). -/
def execAtomgOr (f : AOp) (s : State) : Out := atomG .or f s
/-- ATOMG op 8 (09 R184). -/
def execAtomgXor (f : AOp) (s : State) : Out := atomG .xor f s
/-- ATOMG op 9 (09 R184). -/
def execAtomgExch (f : AOp) (s : State) : Out := atomG .exch f s
/-- ATOMG op 10 (09 R184). -/
def execAtomgCas (f : AOp) (s : State) : Out := atomG .cas f s
/-- ATOMG op 11 (09 R184, R186). -/
def execAtomgLd (f : AOpW) (s : State) : Out :=
  atomGlobal .ld f.okLd f.ord.toNat f.scope.toNat (f.w == 1) true f.vd.toNat f.va.toNat s
/-- ATOMG op 12 (09 R184, R186). -/
def execAtomgSt (f : AOpW) (s : State) : Out :=
  atomGlobal .st f.okSt f.ord.toNat f.scope.toNat (f.w == 1) false f.vd.toNat f.va.toNat s
/-- ATOMG op 13 (09 R188, R189). -/
def execAtomgXadd (f : AOpX) (s : State) : Out :=
  atomGlobal .xadd f.ok f.ord.toNat f.scope.toNat false false f.vd.toNat f.va.toNat s

end Sys2Proof.Machine
end

