-- ==== Sys2Proof/Machine/Agent.lean ====
section
/-! DEFINITION. The CXL.cache agents: host lines, their states, the domain copies, and the host's answers and snoops (21 R367, R368). -/

namespace Sys2Proof.Machine

/-- The host line of a physical address of host memory. -/
def hostLineOf (pa : Nat) : Nat := pa % 2 ^ 44 / 64

/-- The host lines that bytes of a 128-byte line at a physical address touch: both halves by mask. -/
def hostHalves (pa : Nat) (mask : BitVec 128) : List Nat :=
  (if mask.extractLsb' 0 64 != 0 then [hostLineOf pa] else []) ++ (if mask.extractLsb' 64 64 != 0 then [hostLineOf pa + 1] else [])

/-- Does an agent hold the line in E or M, so that it is its serialisation point? -/
def HostLine.owned (l : HostLine) : Bool := l.state != .shared

/-- Sends the host a request for a line, unless one is out: 0 RdShared, 1 RdOwn, 3 DirtyEvict with the line's bytes. -/
def State.hostAsk (s : State) (line op : Nat) (data : BitVec 512) : State :=
  if s.hostReqs.any fun r => r.line == line then s else { s with hostReqs := s.hostReqs ++ [⟨line, op, data⟩] }

/-- Invalidates every domain in a line's mask; their acknowledgements are collected. -/
def State.hostInval (s : State) (line : Nat) : State :=
  match s.hostLines.find? line with
  | none => s
  | some l =>
    let guests := (List.range 64).filter fun d => l.mask.getLsbD d
    let s := guests.foldl (fun s d => s.send ⟨64, d, 0, false, .inval l.va 64 (.host line)⟩) s
    { s with hostLines := s.hostLines.put line { l with mask := 0, acks := l.acks + guests.length } }

/-- A line with no domain copy and no acknowledgement to come. -/
def HostLine.alone (l : HostLine) : Bool := l.mask == 0 && l.acks == 0

/-- Brings lines to E or M with no domain copy: the state, and whether they all stand so. -/
def State.hostOwn (s : State) (lines : List Nat) : State × Bool :=
  let held := fun (i : Nat) => match s.hostLines.find? i with | some l => l.owned | none => false
  let alone := fun (i : Nat) => match s.hostLines.find? i with | some l => l.alone | none => false
  match lines.filter fun i => !held i with
  | [] => if lines.all alone then (s, true) else (lines.foldl State.hostInval s, false)
  | missing => (missing.foldl (fun s i => s.hostAsk i 1 0) s, false)

/-- Reports a write of a host grain to its watchers (21 R368). -/
def State.hostReport (s : State) (line : Nat) : State :=
  (s.hostDir.findD [] (line / 2)).foldl (fun s w =>
    s.send ⟨64, domainOfCore (coreOfKey w.reel), coreOfKey w.reel, false, .report w.reel w.slot w.reg false⟩) s

/-- Writes bytes of a host line in its agent, which then holds it in M, and reports the write. -/
def State.hostPut (s : State) (line : Nat) (data : BitVec 512) (mask : BitVec 64) : State :=
  match s.hostLines.find? line with
  | none => s
  | some l =>
    ({ s with hostLines := s.hostLines.put line { l with data := mergeBytes 64 l.data data mask.toNat, state := .modified } }).hostReport line

/-- Writes an image at a physical address of host memory. -/
def State.hostWrite (s : State) (pa : Nat) (i : LineImg) : State :=
  (hostHalves pa i.mask).foldl (fun s line =>
    if line = hostLineOf pa then s.hostPut line (i.data.extractLsb' 0 512) (i.mask.extractLsb' 0 64)
    else s.hostPut line (i.data.extractLsb' 512 512) (i.mask.extractLsb' 64 64)) s

/-- `n` bytes of a host line an agent holds. -/
def State.hostRead (s : State) (pa n : Nat) : Nat :=
  match s.hostLines.find? (hostLineOf pa) with
  | some l => lowBits (l.data.toNat >>> (8 * (pa % 64))) (8 * n)
  | none => 0

/-- The port that serves a host line (21 R366, R367). -/
def hostPort (line : Nat) : Nat := line / 64 % 4

/-- Host lines an agent tracks at most. -/
def agentLines : Nat := 2 ^ 22

/-- Has the agent of a line room for one more? -/
def State.agentRoom (s : State) (line : Nat) : Bool :=
  (s.hostLines.find? line).isSome || (s.hostLines.filter fun p => hostPort p.1 == hostPort line).length < agentLines

/-- CXL_CACHE_HOST_RESPONSE: the host answers the agent's request for a line (21 R367). -/
def execCxlCacheHostResponse (line data : Nat) (exclusive : Bool) (s : State) : Out :=
  match s.hostReqs.find? fun r => r.line == line with
  | none => .next s
  | some r =>
    let s' := { s with hostReqs := s.hostReqs.filter fun q => q.line != line }
    let old := s.hostLines.find? line
    let l : HostLine := old.getD ⟨.shared, 0, 0, 0, 0⟩
    if 3 ≤ r.op then .next s'
    else if !s.agentRoom line then .next s
    else
      let st := if r.op = 0 ∧ !exclusive then HostState.shared else .exclusive
      .next { s' with hostLines := s.hostLines.put line { l with data := BitVec.ofNat 512 data, state := st } }

/-- An agent evicts a line: the domain copies go first, then a modified line is written back with DirtyEvict (21 R367). -/
def State.evictHost (s : State) (line : Nat) : State :=
  match s.hostLines.find? line with
  | none => s
  | some l =>
    if !l.alone then s.hostInval line
    else
      let s' := { s with hostLines := s.hostLines.del line }
      if l.state = .modified then (if s.hostReqs.any fun r => r.line == line then s else s'.hostAsk line 3 l.data) else s'

/-- The bytes of a line on its way back to the host, which a snoop that comes first takes. -/
def State.evicting (s : State) (line : Nat) : Option (BitVec 512) :=
  (s.hostReqs.find? fun r => r.line == line && r.op == 3).map (·.data)

/-- The first part of a snoop: the domain copies are invalidated and their acknowledgements collected; then `k` answers. A line that is being written
back answers with its bytes, once. -/
def State.snooped (s : State) (line : Nat) (k : HostLine → State) : Out :=
  match s.hostLines.find? line with
  | none =>
    let taken := s.hostReqs.map fun r => if r.line = line ∧ r.op = 3 then { r with op := 4 } else r
    .next { s with answer := some (.snoop line (s.evicting line)), hostReqs := taken }
  | some l => if l.alone then .next (k l) else .next (s.hostInval line)

/-- The bytes a snoop answers with: those of a modified line. -/
def HostLine.dirty (l : HostLine) : Option (BitVec 512) := if l.state = .modified then some l.data else none

/-- HOST_SNP_INV (21 R367, R368): the line is invalidated, which counts as a write for watchers. -/
def execHostSnpInv (line : Nat) (s : State) : Out :=
  s.snooped line fun l =>
    { ({ s with hostLines := s.hostLines.del line }).hostReport line with answer := some (.snoop line l.dirty) }

/-- HOST_SNP_DATA (21 R367, R368): the line is left shared; one found in E counts as written. -/
def execHostSnpData (line : Nat) (s : State) : Out :=
  s.snooped line fun l =>
    let s := { s with hostLines := s.hostLines.put line { l with state := .shared }, answer := some (.snoop line l.dirty) }
    if l.state = .exclusive then s.hostReport line else s

/-- HOST_SNP_CUR (21 R367): answered by the agent, which keeps its state. -/
def execHostSnpCur (line : Nat) (s : State) : Out :=
  .next { s with answer := some (.snoop line (match s.hostLines.find? line with | some l => l.dirty | none => s.evicting line)) }

end Sys2Proof.Machine
end

