-- ==== Sys2Proof/Machine/Scratch.lean ====
section
/-! DEFINITION. LDS, STS and ATOMS: the block's scratchpad, full/empty bits and poison (08 R150 to R154, 09 R181, R182, R187, 11 R253). -/

namespace Sys2Proof.Machine

/-! ## The scratchpad of a block -/

/-- `n` bytes of scratchpad from an offset, little-endian. -/
def Block.spadRead (b : Block) (o n : Nat) : Nat := Memory.readNat b.spad o n

/-- The words that `n` bytes at an offset touch. -/
def wordsAt (o n : Nat) : List Nat := (List.range ((o % 4 + n + 3) / 4)).map (o / 4 + ·)

/-- Is some byte at an offset in a poisoned word (11 R253)? -/
def Block.poisoned (b : Block) (o n : Nat) : Bool := (wordsAt o n).any fun w => b.poison.findD false w

/-- The lowest poisoned word that `n` bytes at addresses touch. -/
def Block.poisonAt (b : Block) (as : List Nat) (n : Nat) : Option Nat :=
  ((as.flatMap fun a => (wordsAt a n).filter fun w => b.poison.findD false w).min?).map (4 * ·)

/-- Words that writes of `n` bytes at offsets, made by one instruction or command, cover whole lose their poison (11 R253; log entry 91). -/
def Block.clearWhole (b : Block) (as : List Nat) (n : Nat) : Block :=
  let whole := fun w => (List.range 4).all fun k => as.any fun a => a ≤ 4 * w + k && 4 * w + k < a + n
  { b with poison := ((as.flatMap fun a => wordsAt a n).filter whole).foldl (fun m w => Map.putD false m w false) b.poison }

/-- Writes `n` bytes of scratchpad; a write of a whole word clears its poison (11 R253). -/
def Block.spadWrite (b : Block) (o n x : Nat) : Block :=
  { b with
    spad := Memory.writeNat b.spad o n x
    poison := if n % 4 = 0 ∧ o % 4 = 0 then (wordsAt o n).foldl (fun m w => m.putD false w false) b.poison else b.poison }

/-- Sets the full bit of words (08 R153). -/
def Block.setFull (b : Block) (words : List Nat) (v : Bool) : Block :=
  { b with full := words.foldl (fun m w => m.putD false w v) b.full }

/-- Does every word qualify for a waiting mode: full for wfull and take, empty for put (09 R181)? -/
def Block.qualifies (b : Block) (load : Bool) (mode : Nat) (words : List Nat) : Bool :=
  match load, mode with
  | true, 1 | true, 2 => words.all fun w => b.full.findD false w
  | false, 1 => words.all fun w => !b.full.findD false w
  | _, _ => true

/-- The words of an access's lanes. -/
def SpadAcc.words (a : SpadAcc) : List Nat := a.lanes.flatMap fun l => wordsAt l.2 a.size

/-- Does the access qualify? -/
def SpadAcc.qualifies (a : SpadAcc) (b : Block) : Bool := b.qualifies a.load a.mode a.words

/-- The lanes of an access on poisoned words. -/
def SpadAcc.bad (a : SpadAcc) (b : Block) : List (Nat × Nat) := if a.load then a.lanes.filter fun l => b.poisoned l.2 a.size else []

/-- The bank step of an access on a block: lanes in ascending order, then the bits of the words of the performed lanes (09 R182). -/
def SpadAcc.apply (a : SpadAcc) (b : Block) : Block :=
  let bad := a.bad b
  let ls := a.lanes.filter fun l => !bad.contains l
  let words := ls.flatMap fun l => wordsAt l.2 a.size
  let b := if a.load then b
    else (ls.foldl (fun b l => b.spadWrite l.2 a.size (a.vals.findD 0 l.1)) b).clearWhole (ls.map (·.2)) a.size
  match a.load, a.mode with
  | true, 2 | false, 3 => b.setFull words false
  | false, 1 | false, 2 => b.setFull words true
  | _, _ => b

/-- Starts a load whose data is at hand: lane, offset and value of each piece. -/
def Issuer.heldLoad (x : Issuer) (s : State) (dst : LoadDst) (pieces : List (Nat × Nat × Nat)) : State :=
  let id := s.nextId
  let o : OutLoad := ⟨id, x.cur.bundle.ipc, x.cur.bundle.word, x.active, dst
    , pieces.map fun p => ⟨p.1, p.2.1, some (BitVec.ofNat 128 p.2.2), false⟩, none, [], 0, 0⟩
  ({ s with nextId := id + 1 }).onReel x.key fun r => { r with loads := r.loads ++ [o], ld := r.ld + 1 }

/-- The record of scratchpad lanes at fault (14 R395): the lowest word at fault, and no line. -/
def Issuer.spadRec (x : Issuer) (kind : Nat) (load : Bool) (lanes : List (Nat × Nat)) (word : Option Nat) : FaultRec :=
  { x.s.reelRec x.key x.reel x.block with
    kind := kind, load := load, store := !load, pc := x.cur.bundle.ipc, inst := x.cur.bundle.word
    lanes := maskOf (lanes.map (·.1)), va := word.getD 0 }

/-- The record of lanes of `n` bytes on poisoned words: the lowest of these words is at fault (14 R395). -/
def Issuer.poisonRec (x : Issuer) (load : Bool) (lanes : List (Nat × Nat)) (n : Nat) : FaultRec :=
  x.spadRec 0x0C load lanes (x.block.poisonAt (lanes.map (·.2)) n)

/-- Holds the reel at an instruction whose remaining lanes have been performed in `s`. -/
def Issuer.holdFrom (x : Issuer) (s : State) (f : FaultRec) : Out :=
  match s.reels.find? x.key with
  | some r => { x with s := s }.holdWith r f
  | none => .next { s with cur := none }

/-- A reel as a waiting scratchpad access issues: ld or st rises (04 R88). -/
def Reel.raiseCount (r : Reel) (load : Bool) : Reel := if load then { r with ld := r.ld + 1 } else { r with st := r.st + 1 }
/-- A reel as a waiting scratchpad access ends: the count its issue raised falls. -/
def Reel.lowerCount (r : Reel) (load : Bool) : Reel := if load then { r with ld := r.ld - 1 } else { r with st := r.st - 1 }

/-- Performs a scratchpad access that qualifies: the instruction retires, or a lane on a poisoned word holds the reel with kind 0x0C. One that has
waited is `counted` since its issue; a store's count falls as its bank accepts it, a load's with the return of its data (04 R88). -/
def Issuer.performSpad (x : Issuer) (a : SpadAcc) (counted : Bool) : Out :=
  let bad := a.bad x.block
  let ls := a.lanes.filter fun l => !bad.contains l
  let s := x.s.setBlock x.reel.block (a.apply x.block)
  let s := if counted then s.onReel x.key fun r => r.lowerCount a.load else s
  let s := if a.load && !ls.isEmpty then
      x.heldLoad s (.vec a.reg a.size false) (ls.map fun l => (l.1, l.2, x.block.spadRead l.2 a.size))
    else s
  if bad.isEmpty then x.retireFrom s else x.holdFrom s (x.poisonRec true bad a.size)

/-- Does the word a split waits in write scratchpad: STS or ATOMS? -/
def Split.writesSpad (p : Split) : Bool :=
  p.bundle.any fun b => b.word.extractLsb' 26 6 == 0x16 || b.word.extractLsb' 26 6 == 0x18

/-- Has every earlier scratchpad store and atomic of the reel, local or REMOTE, been accepted by its bank: none waits for its words, nor, as a tagged
release or a releasing atomic, for what it must follow (13 R268, 15 R296)? -/
def Reel.scratchDone (r : Reel) (self id : Nat) : Bool :=
  r.splits.all fun p =>
    match p.2.wait with
    | some (.remote a _ _) => p.1 == self || a.cls == 0 || id ≤ a.id
    | some (.fullEmpty a _ _) => p.1 == self || a.load || id ≤ a.id
    | some (.release m _) => p.1 == self || !p.2.writesSpad || id ≤ m
    | _ => true

/-- Is a scratchpad access a tagged release: put, fill or drain? -/
def SpadAcc.tagged (a : SpadAcc) : Bool := !a.load && a.mode != 0

/-- A scratchpad load or store of `n` bytes a lane in a mode (09 R182). One that waits for its words has issued: it counts in ld or st from then on,
as a REMOTE access does (04 R88). DEDUCED, log entry 86. -/
def spadAccess (load : Bool) (mode n : Nat) (f : MOp) (s : State) : Out :=
  withIssuer s fun x =>
    match x.split.wait with
    | some (.fullEmpty a _ _) => if a.qualifies x.block then x.performSpad a true else x.wait
    | w =>
      if !x.mRegsOk f n then x.illegal
      else if x.active = 0 then x.retire x.reel
      else
        let lanes := (laneList x.active).map fun l => (l, x.mAddr f 32 n l)
        let out := lanes.filter fun l => x.block.desc.spad < l.2 + n
        if !out.isEmpty then x.takeTrap x.reel 3 x.cur.bundle.word (maskOf (out.map (·.1))) 0
        else if load && ((LoadDst.vec f.vt.toNat n false).vregs.any x.reel.busyV || 63 ≤ x.reel.ld) then x.wait
        else if !load && 63 ≤ x.reel.st then x.wait
        else
          let vals : Map Nat := if load then [] else lanes.map fun l => (l.1, x.reel.storeVal f.vt.toNat n l.1)
          let (id, s) := match w with
            | some (.release m _) => (m, x.s)
            | _ => (x.s.nextId, { x.s with nextId := x.s.nextId + 1 })
          let a : SpadAcc := ⟨id, load, mode, n, lanes, f.vt.toNat, vals⟩
          if a.tagged && !x.reel.scratchDone x.cur.split id then x.waitIn s x.reel (.release id [])
          else if a.qualifies x.block then x.performSpad a false
          else x.waitIn s (x.reel.raiseCount load) (.fullEmpty a (x.s.clock x.coreId) 0)

/-- LDS fn 0 (09 R181). -/
def execLdsZ16 (f : MOp) (s : State) : Out := spadAccess true 0 2 f s
/-- LDS fn 4 (09 R181). -/
def execLdsB32 (f : MOp) (s : State) : Out := spadAccess true 0 4 f s
/-- LDS fn 5 (09 R181). -/
def execLdsB32Wfull (f : MOp) (s : State) : Out := spadAccess true 1 4 f s
/-- LDS fn 6 (09 R181). -/
def execLdsB32Take (f : MOp) (s : State) : Out := spadAccess true 2 4 f s
/-- LDS fn 8 (09 R181). -/
def execLdsB64 (f : MOp) (s : State) : Out := spadAccess true 0 8 f s
/-- LDS fn 9 (09 R181). -/
def execLdsB64Wfull (f : MOp) (s : State) : Out := spadAccess true 1 8 f s
/-- LDS fn 10 (09 R181). -/
def execLdsB64Take (f : MOp) (s : State) : Out := spadAccess true 2 8 f s
/-- LDS fn 12 (09 R181). -/
def execLdsB128 (f : MOp) (s : State) : Out := spadAccess true 0 16 f s
/-- LDS fn 13 (09 R181). -/
def execLdsB128Wfull (f : MOp) (s : State) : Out := spadAccess true 1 16 f s
/-- LDS fn 14 (09 R181). -/
def execLdsB128Take (f : MOp) (s : State) : Out := spadAccess true 2 16 f s
/-- STS fn 0 (09 R181). -/
def execStsB16 (f : MOp) (s : State) : Out := spadAccess false 0 2 f s
/-- STS fn 4 (09 R181). -/
def execStsB32 (f : MOp) (s : State) : Out := spadAccess false 0 4 f s
/-- STS fn 5 (09 R181). -/
def execStsB32Put (f : MOp) (s : State) : Out := spadAccess false 1 4 f s
/-- STS fn 6 (09 R181). -/
def execStsB32Fill (f : MOp) (s : State) : Out := spadAccess false 2 4 f s
/-- STS fn 7 (09 R181). -/
def execStsB32Drain (f : MOp) (s : State) : Out := spadAccess false 3 4 f s
/-- STS fn 8 (09 R181). -/
def execStsB64 (f : MOp) (s : State) : Out := spadAccess false 0 8 f s
/-- STS fn 9 (09 R181). -/
def execStsB64Put (f : MOp) (s : State) : Out := spadAccess false 1 8 f s
/-- STS fn 10 (09 R181). -/
def execStsB64Fill (f : MOp) (s : State) : Out := spadAccess false 2 8 f s
/-- STS fn 11 (09 R181). -/
def execStsB64Drain (f : MOp) (s : State) : Out := spadAccess false 3 8 f s
/-- STS fn 12 (09 R181). -/
def execStsB128 (f : MOp) (s : State) : Out := spadAccess false 0 16 f s
/-- STS fn 13 (09 R181). -/
def execStsB128Put (f : MOp) (s : State) : Out := spadAccess false 1 16 f s
/-- STS fn 14 (09 R181). -/
def execStsB128Fill (f : MOp) (s : State) : Out := spadAccess false 2 16 f s
/-- STS fn 15 (09 R181). -/
def execStsB128Drain (f : MOp) (s : State) : Out := spadAccess false 3 16 f s

/-! ## Scratchpad atomics (09 R187) -/

/-- One lane's step at the bank's atomic unit: its old value, and the block with the new one. -/
def Block.atomStep (b : Block) (op : AtomKind) (wide : Bool) (l : AtomLane) : Block × Nat :=
  let n := atomBytes wide
  let old := b.spadRead l.va n
  match atomNew op wide (BitVec.ofNat 64 old) l.x l.y with
  | some v => (b.spadWrite l.va n v.toNat, old)
  | none => (b, old)

/-- Performs lanes in ascending order: the block, and each lane's old value. -/
def Block.atomSteps (b : Block) (op : AtomKind) (wide : Bool) (ls : List AtomLane) : Block × List (Nat × Nat × Nat) :=
  ls.foldl (fun a l =>
    let (b, old) := a.1.atomStep op wide l
    (b, a.2 ++ [(l.lane, l.va, old)])) (b, [])

/-- A scratchpad atomic (09 R185, R187): a lane on a poisoned word is not performed and holds the reel, but for an exch that returns nothing
(11 R253). -/
def atomS (op : AtomKind) (f : AOpS) (s : State) : Out :=
  withIssuer s fun x =>
    let wide := f.w == 1
    let ret := f.ret == 1
    let vd := f.vd.toNat
    let v := x.block.desc.vregs
    let n := atomBytes wide
    if !(f.ok (op = .cas) && vd + atomRegs op wide ≤ v && f.va.toNat < v) then x.illegal
    else if x.active = 0 then x.retire x.reel
    else
      let lanes : List AtomLane := (laneList x.active).map fun l =>
        let ea := wrapInt ((x.reel.vget f.va.toNat l).toNat + x.cur.bundle.hints.disp) 32
        let a := x.reel.atomArgs op wide vd l
        ⟨l, ea - ea % n, a.1, a.2⟩
      let out := lanes.filter fun l => x.block.desc.spad < l.va + n
      let dst := LoadDst.vec vd n false
      if !out.isEmpty then x.takeTrap x.reel 3 x.cur.bundle.word (maskOf (out.map (·.lane))) 0
      else if (ret && (dst.vregs.any x.reel.busyV || 63 ≤ x.reel.ld)) || (!ret && 63 ≤ x.reel.st) then x.wait
      else
        let go := fun (carry : List Nat) =>
          let bad := if op = .exch ∧ !ret then [] else lanes.filter fun l => x.block.poisoned l.va n
          let ls := lanes.filter fun l => !bad.contains l
          let (b, olds) := x.block.atomSteps op wide ls
          let s := x.s.setBlock x.reel.block b
          let s := if 2 ≤ f.ord.toNat then s.handOn x.coreId x.reel.block 0 carry else s
          let id := s.nextId
          let s := if ret && !olds.isEmpty then x.heldLoad s dst olds else s
          if bad.isEmpty then (if f.ord.toNat % 2 = 1 then x.awaitAcquire s id 0 else x.retireFrom s)
          else x.holdFrom s (x.poisonRec ret (bad.map fun l => (l.lane, l.va)) n)
        if 2 ≤ f.ord.toNat then x.release 0 go else go []

/-- ATOMS op 0 (09 R184). -/
def execAtomsAdd (f : AOpS) (s : State) : Out := atomS .add f s
/-- ATOMS op 1 (09 R184). -/
def execAtomsFadd (f : AOpS) (s : State) : Out := atomS .fadd f s
/-- ATOMS op 2 (09 R184). -/
def execAtomsMinI (f : AOpS) (s : State) : Out := atomS .minI f s
/-- ATOMS op 3 (09 R184). -/
def execAtomsMaxI (f : AOpS) (s : State) : Out := atomS .maxI f s
/-- ATOMS op 4 (09 R184). -/
def execAtomsMinZ (f : AOpS) (s : State) : Out := atomS .minZ f s
/-- ATOMS op 5 (09 R184). -/
def execAtomsMaxZ (f : AOpS) (s : State) : Out := atomS .maxZ f s
/-- ATOMS op 6 (09 R184). -/
def execAtomsAnd (f : AOpS) (s : State) : Out := atomS .and f s
/-- ATOMS op 7 (09 R184). -/
def execAtomsOr (f : AOpS) (s : State) : Out := atomS .or f s
/-- ATOMS op 8 (09 R184). -/
def execAtomsXor (f : AOpS) (s : State) : Out := atomS .xor f s
/-- ATOMS op 9 (09 R184). -/
def execAtomsExch (f : AOpS) (s : State) : Out := atomS .exch f s
/-- ATOMS op 10 (09 R184). -/
def execAtomsCas (f : AOpS) (s : State) : Out := atomS .cas f s

end Sys2Proof.Machine
end

