-- ==== Sys2Proof/Machine/Sync.lean ====
section
/-! DEFINITION. FENCE, WAITC and SYNC: fences, counter waits, barriers, semaphores and watch slots (08 R172, 09 R191 to R202). -/

namespace Sys2Proof.Machine

/-- Is the HX hint absent or of payload 0, so that the widened immediate stays in its field (09 R195, 11 R245)? -/
def Hints.noWide (h : Hints) : Bool := h.hx.getD 0 == 0

/-- Acquires at a scope into a reel: the caches act, and the reel inherits what releases have handed on. -/
def Issuer.acquire (x : Issuer) (s : State) (scope : Nat) (sids : List Nat) : State :=
  let s := s.acquireCaches x.coreId scope
  s.onReel x.key fun r => r.inherit (unionNew sids (((s.blocks.find? r.block).map (s.carried · scope)).getD []))

/-! ## Fences and counter waits -/

/-- FENCE fn 0 (09 R191): the release, then the acquire. -/
def execFence (f : FenceOp) (s : State) : Out :=
  withIssuer s fun x =>
    let scope := f.scope.toNat
    let acq := fun (s : State) => if f.ord.getLsbD 0 then x.acquire s scope [] else s
    if !f.ok then x.illegal
    else if f.ord.getLsbD 1 then x.release scope fun carry => x.retireFrom (acq (x.s.handOn x.coreId x.reel.block scope carry))
    else x.retireFrom (acq x.s)

/-- FENCE fn 1: drops every line of the core's instruction cache (09 R193). -/
def execIfence (s : State) : Out :=
  withIssuer s fun x => x.retireFrom (x.s.onCore x.coreId fun c => { c with icache := [] })

/-- WAITC (09 R194). -/
def execWaitc (f : WaitOp) (s : State) : Out :=
  withIssuer s fun x =>
    let r := x.reel
    if r.ld ≤ f.ld.toNat ∧ r.st ≤ f.st.toNat ∧ r.eng ≤ f.eng.toNat ∧ r.mx ≤ f.mx.toNat then x.retire r else x.wait

/-! ## Barriers (09 R196) -/

/-- A barrier of a block. -/
def Block.barrier (b : Block) (i : Nat) : Barrier := b.barriers.findD (Barrier.idle b.desc.reels) i
/-- Writes a barrier of a block. -/
def Block.setBarrier (b : Block) (i : Nat) (v : Barrier) : Block :=
  { b with barriers := b.barriers.putD (Barrier.idle b.desc.reels) i v }

/-- A wait on barrier `i` once it flips. -/
def Wait.flip (i : Nat) : Wait → Wait
  | .barrier b t false => if b = i then .barrier b t true else .barrier b t false
  | w => w

/-- A sequencer's wait on barrier `i` once it flips. -/
def SeqWait.flip (i : Nat) : SeqWait → SeqWait
  | .barrier b t false q => if b = i then .barrier b t true q else .barrier b t false q
  | w => w

/-- Arrive (09 R196) with the stores the arrival's release hands on: the token, and at the last arrival the flip that readies every waiter. -/
def State.arrive (s : State) (block i : Nat) (carry : List Nat) : State × BitVec 16 :=
  match s.blocks.find? block with
  | none => (s, 0)
  | some b =>
    let v := b.barrier i
    let live := fun (l : List Nat) => l.filter fun sid => !s.storeGone sid
    let all := unionNew v.carry carry
    if v.arrivals + 1 = v.expected then
      let b := b.setBarrier i { v with arrivals := 0, phase := v.phase + 1, waiters := 0, carry := [], flipped := unionNew (live v.flipped) all }
      let b := { b with seq := { b.seq with wait := b.seq.wait.map (SeqWait.flip i) } }
      let s := s.setBlock block b
      ({ s with reels := s.reels.mapVals fun _ r => if r.block = block then r.mapWaits (Wait.flip i) else r }, v.phase)
    else (s.setBlock block (b.setBarrier i { v with arrivals := v.arrivals + 1, carry := all }), v.phase)

/-- The status of a wait that finds a phase distance d (09 R196). -/
def waitStatus (d : BitVec 16) : Word := if d = 1 then 0 else if d.toNat < 2 ^ 15 then 1 else 2

/-- Ends a barrier wait: the status, if one is written, and the block-scope acquire. -/
def Issuer.endWait (x : Issuer) (i : Nat) (sd : Option Nat) (status : Word) : Out :=
  let s := x.acquire x.s 0 (x.block.barrier i).flipped
  let s := match sd with | some d => s.onReel x.key fun r => r.sset d status | none => s
  x.retireFrom s

/-- Begins to wait for a barrier's flip: the reel's waiter bit is set. -/
def Issuer.awaitFlip (x : Issuer) (s : State) (i : Nat) (token : BitVec 16) : Out :=
  let s := s.onBlock x.reel.block fun b =>
    let v := b.barrier i
    b.setBarrier i { v with waiters := v.waiters ||| (1 : BitVec 33) <<< x.reel.idx }
  x.waitIn s ((s.reels.find? x.key).getD x.reel) (.barrier i token false)

/-- Wait (09 R196). -/
def Issuer.barrierWait (x : Issuer) (i : Nat) (token : BitVec 16) (sd : Option Nat) : Out :=
  match x.split.wait with
  | some (.barrier _ _ true) => x.endWait i sd 0
  | some (.barrier ..) => x.wait
  | _ =>
    let d := (x.block.barrier i).phase - token
    if d = 0 then x.awaitFlip x.s i token else x.endWait i sd (waitStatus d)

/-- SYNC fn 0 (09 R195, R197). -/
def execBinit (f : BInit) (s : State) : Out :=
  withIssuer s fun x =>
    let v := x.block.barrier f.b.toNat
    if !f.ok || !x.cur.bundle.hints.noWide || v.arrivals != 0 || v.waiters != 0 then x.illegal
    else x.retireFrom (x.s.onBlock x.reel.block fun b => b.setBarrier f.b.toNat { v with expected := f.n.toNat })

/-- SYNC fn 1 (09 R196). -/
def execBarrive (f : BArr) (s : State) : Out :=
  withIssuer s fun x =>
    if !x.cur.bundle.hints.noWide then x.illegal
    else if x.reel.busyS f.sd.toNat then x.wait
    else x.release 0 fun carry =>
      let (s, t) := x.s.arrive x.reel.block f.b.toNat carry
      x.retireFrom (s.onReel x.key fun r => r.sset f.sd.toNat (t.setWidth 32))

/-- SYNC fn 2 (09 R196). -/
def execBwait (f : BWaitOp) (s : State) : Out :=
  withIssuer s fun x =>
    if !x.cur.bundle.hints.noWide then x.illegal
    else if x.reel.busyS f.sd.toNat then x.wait
    else x.barrierWait f.b.toNat ((x.reel.sget f.sa.toNat).setWidth 16) (some f.sd.toNat)

/-- SYNC fn 3: Arrive, then Wait on the returned token (09 R196). -/
def execBsync (f : BNum) (s : State) : Out :=
  withIssuer s fun x =>
    if !x.cur.bundle.hints.noWide then x.illegal
    else
      match x.split.wait with
      | some (.barrier _ t _) => x.barrierWait f.b.toNat t none
      | _ => x.release 0 fun carry =>
        let (s, t) := x.s.arrive x.reel.block f.b.toNat carry
        match s.blocks.find? x.reel.block, s.reels.find? x.key with
        | some b, some r =>
          let y := { x with s := s, block := b, reel := r }
          if (b.barrier f.b.toNat).phase = t then y.awaitFlip s f.b.toNat t else y.endWait f.b.toNat none 0
        | _, _ => .next { s with cur := none }

/-! ## Semaphores (09 R198) -/

/-- A semaphore of a block. -/
def Block.sem (b : Block) (m : Nat) : Sem := b.sems.findD Sem.zero m

/-- SYNC fn 4 (09 R198). -/
def execSemset (f : SemSet) (s : State) : Out :=
  withIssuer s fun x =>
    if !x.cur.bundle.hints.noWide then x.illegal
    else
      let v := x.reel.sget f.sa.toNat
      x.retireFrom (x.s.semUpdate x.reel.block f.sm.toNat (fun _ => v) [])

/-- SYNC fn 5 (09 R198). -/
def execSemadd (f : SemOp) (s : State) : Out :=
  withIssuer s fun x =>
    if !x.cur.bundle.hints.noWide then x.illegal
    else x.release f.scope.toNat fun carry =>
      let v := x.reel.sget f.sa.toNat
      x.retireFrom (x.s.semUpdate x.reel.block f.sm.toNat (· + v) carry)

/-- SYNC fn 6 (09 R198). -/
def execSemwait (f : SemOp) (s : State) : Out :=
  withIssuer s fun x =>
    let m := x.block.sem f.sm.toNat
    let done := x.retireFrom (x.acquire x.s f.scope.toNat m.carry)
    if !x.cur.bundle.hints.noWide then x.illegal
    else
      match x.split.wait with
      | some (.sem _ _ true) => done
      | some (.sem ..) => x.wait
      | _ =>
        let th := x.reel.sget f.sa.toNat
        if (m.value - th).toNat < 2 ^ 31 then done else x.waitIn x.s x.reel (.sem f.sm.toNat th false)

/-! ## Watch slots (09 R199 to R202) -/

/-- Disarms a slot for good: a park of the reel ends when no slot is armed then (09 R200, R202). -/
def State.unwatch (s : State) (key w : Nat) : State := (s.disarm key w).onReel key Reel.parkNone

/-- Sends a registration of a slot, whose answer goes to load `load`; an armed slot is first disarmed (09 R199). -/
def Issuer.register (x : Issuer) (s : State) (w va : Nat) (dst : LoadDst) (counted : Bool) : State :=
  let s := s.disarm x.key w
  let id := s.nextId
  let o : OutLoad := ⟨id, x.cur.bundle.ipc, x.cur.bundle.word, x.active, dst, [⟨0, va, none, false⟩], none, [], 0, 0⟩
  let s := { s with nextId := id + 1 }
  let s := s.onReel x.key fun r =>
    { r.setWatch w ⟨.sent, va, 0, false, (r.watchSlot w).status, false, id, 64⟩ with
      loads := r.loads ++ [o], ld := if counted then r.ld + 1 else r.ld }
  let d := domainOfCore x.coreId
  s.send ⟨d, d, x.coreId, false, .watch x.key w id va true⟩

/-- SYNC fn 7, global space (09 R199). -/
def execWatch (f : WatchOp) (s : State) : Out :=
  withIssuer s fun x =>
    let va := (x.reel.saddr f.sa.toNat).toNat
    if !isEven f.sa || !x.cur.bundle.hints.noWide then x.illegal
    else x.withPerm [(0, va)] ⟨true, false, false⟩ true
      (if x.reel.busyS f.sd.toNat || 63 ≤ x.reel.ld then x.wait
      else x.retireFrom (x.register x.s f.w.toNat va (.status f.sd.toNat f.w.toNat) true))

/-- SYNC fn 7, scratchpad: arms nothing and writes status 3 at once (09 R199). -/
def execWatchSpad (f : WatchOp) (s : State) : Out :=
  withIssuer s fun x =>
    if !x.cur.bundle.hints.noWide then x.illegal
    else if x.reel.busyS f.sd.toNat then x.wait
    else
      let w := f.w.toNat
      x.retireFrom ((x.s.unwatch x.key w).onReel x.key fun r => (r.setWatch w { r.watchSlot w with status := 3 }).sset f.sd.toNat 3)

/-- The causes latched in slot w: a reported write and its latch bit, or a loss (09 R200). -/
def WatchSlot.causes (v : WatchSlot) (w : Nat) : Word :=
  (if v.latch then statusBit w ||| statusBit 2 else 0) ||| (if v.lost then statusBit (5 + w) else 0)

/-- Returns from `park` with its causes, and with bit [7] when no slot is armed: both latches are cleared. -/
def Issuer.unpark (x : Issuer) (sd : Nat) (causes : Word) : Out :=
  let status := causes ||| (if x.reel.armed then 0 else statusBit 7)
  let clear := fun (r : Reel) (w : Nat) => r.setWatch w { r.watchSlot w with latch := false, lost := false }
  x.retire ((clear (clear x.reel 0) 1).sset sd status)

/-- SYNC fn 8 (09 R200). -/
def execPark (f : S2) (s : State) : Out :=
  withIssuer s fun x =>
    let causes := (x.reel.watchSlot 0).causes 0 ||| (x.reel.watchSlot 1).causes 1
    if !x.cur.bundle.hints.noWide then x.illegal
    else if x.reel.busyS f.sd.toNat then x.wait
    else
      match x.split.wait with
      | some (.park _ _ (some st)) => x.unpark f.sd.toNat st
      | some (.park ..) => x.wait
      | _ =>
        if causes != 0 || !x.reel.armed then x.unpark f.sd.toNat causes
        else x.waitIn x.s x.reel (.park (x.reel.sget f.sa.toNat).toNat (x.s.clock x.coreId) none)

/-- SYNC fn 9 (09 R202). -/
def execUnwatch (f : WNum) (s : State) : Out :=
  withIssuer s fun x =>
    if !x.cur.bundle.hints.noWide then x.illegal else x.retireFrom (x.s.unwatch x.key f.w.toNat)

end Sys2Proof.Machine
end

