-- ==== Sys2Proof/Machine/Launching.lean ====
section
/-! DEFINITION. LAUNCH: packets, entering a launch, `launch` and `lstat` (19 R338, R339, R342, R349 to R351). -/

namespace Sys2Proof.Machine

/-- Is an address field's [63:55] not 0? -/
def wideAddr (x hi lo : Nat) : Bool := bitsOf x hi lo / 2 ^ 55 != 0

/-- The fields of a packet's 1,024 bits (19 R338) and whether it is malformed (R339). -/
def Packet.ofNat (x : Nat) : Packet :=
  let nx := bitsOf x 287 256
  let ny := bitsOf x 319 288
  let nz := bitsOf x 351 320
  let cw := bitsOf x 191 128
  let blocks := nx * ny * nz
  { irq := x.testBit 490
    gang := bitsOf x 489 488 + 1
    after := x.testBit 487
    prio := bitsOf x 486 484
    hmode := bitsOf x 483 482
    cls := bitsOf x 481 480
    hstride := sxNat (bitsOf x 479 448) 32
    haddr := bitsOf x 438 384
    limit := bitsOf x 383 352
    nx := nx
    ny := ny
    nz := nz
    err := bitsOf x 246 192
    cw := cw
    args := bitsOf x 118 64
    kdesc := bitsOf x 54 0
    malformed := bitsOf x 1023 491 != 0 || bitsOf x 481 480 == 3 || bitsOf x 483 482 == 3
      || wideAddr x 447 384 || wideAddr x 255 192 || wideAddr x 191 128 || wideAddr x 127 64 || wideAddr x 63 0
      || bitsOf x 54 0 % 64 != 0 || cw % 8 != 0 || bitsOf x 246 192 % 64 != 0 || cw == 0
      || blocks == 0 || decide (2 ^ 31 < blocks)
    cwOk := cw != 0 && cw % 8 == 0 && cw / 2 ^ 55 == 0 }

/-- Blocks of a launch's grid. -/
def Packet.blocks (p : Packet) : Nat := p.nx * p.ny * p.nz

/-- A descriptor not yet read. -/
def Desc.none : Desc := ⟨0, 0, 0, 0, 0, 0, 0⟩

/-- The launch identifier from a count on: 0 and 0xFFFFFF00 to 0xFFFFFFFF are skipped (19 R342). -/
def launchIdFrom (n : Nat) : Nat := if n % 2 ^ 32 = 0 ∨ 0xFFFFFF00 ≤ n % 2 ^ 32 then 1 else n % 2 ^ 32

/-- Enters a packet with a context, a partition and a priority cap: it takes the next identifier (19 R342, R344, R350). -/
def State.enter (s : State) (p : Packet) (ctx part cap : Nat) (queue : Option QueueRef) (npf : Bool) (vector : Nat) : State × Nat :=
  let id := launchIdFrom s.nextLaunch
  let l : Launch := ⟨.queued, p, Desc.none, ctx, part, min p.prio cap, queue, npf, vector, 0, false, [], 0, [], [], none⟩
  ({ s with nextLaunch := launchIdFrom (id + 1), launches := s.launches.put id l }, id)

/-- Device launches that wait for admission (19 R350; log entry 18). -/
def State.devicePending (s : State) : Nat := (s.launches.filter fun l => l.2.queue.isNone && l.2.state == .queued).length

/-- Enters the packet a `launch` has read: the state, and what S[sd] receives (19 R350). -/
def State.enterDevice (s : State) (b : Block) (x : Nat) : State × Word :=
  let p := Packet.ofNat x
  if p.malformed then (s, 0xFFFFFF01)
  else if 256 ≤ s.devicePending then (s, 0xFFFFFF02)
  else
    let prio := match s.launches.find? b.launch with | some l => l.prio | none => b.prio
    let (s, id) := s.enter p b.ctx b.part prio none false 0
    (s, BitVec.ofNat 32 id)

/-- LAUNCH fn 0 (19 R350): permission, the release, and the packet's read, at whose return the launch is entered. -/
def execLaunch (f : LaunchOp) (s : State) : Out :=
  withIssuer s fun x =>
    let a := (x.reel.saddr f.sa.toNat).toNat
    let va := a - a % 128
    if !isEven f.sa then x.illegal
    else x.withPerm [(0, va)] ⟨true, false, false⟩ true
      (if x.reel.busyS f.sd.toNat || 63 ≤ x.reel.ld then x.wait
      else x.release f.cls.toNat fun _ =>
        x.retireFrom ((x.startLoad x.s (.launch f.sd.toNat) ((List.range 8).map fun k => (k, va + 16 * k))).setPublished x.reel.block))

/-- The state of a launch as `lstat` reports it to a context (19 R351). -/
def State.launchStat (s : State) (ctx part id : Nat) : Nat :=
  match s.launches.find? id with
  | some l =>
    if l.ctx ≠ ctx ∨ l.part ≠ part then 0
    else match l.state, l.verdict with
      | .queued, none => 1
      | .admitted, none => if l.ended.length < l.pkt.blocks then 2 else 3
      | _, some _ => if (s.blocks.any fun b => b.2.launch == id) || s.saved.any fun v => v.block.launch == id then 2 else 3
      | .written _, none => 3
  | none => 0

/-- LAUNCH fn 1 (19 R351). -/
def execLstat (f : S2) (s : State) : Out :=
  withIssuer s fun x =>
    if x.reel.busyS f.sd.toNat || 63 ≤ x.reel.ld then x.wait
    else x.retire (x.reel.sset f.sd.toNat (BitVec.ofNat 32 (x.s.launchStat x.block.ctx x.block.part (x.reel.sget f.sa.toNat).toNat)))

end Sys2Proof.Machine
end

