-- ==== Sys2Proof/Machine/Remote.lean ====
section
/-! DEFINITION. REMOTE: scratchpad of other blocks of the gang (13 R263 to R269). -/

namespace Sys2Proof.Machine

/-- The target member and the offset of a remote address word (13 R265). -/
def remoteTarget (ea : Nat) : Nat × Nat := (ea / 2 ^ 30, ea % 2 ^ 30)

/-- The remote address word of a member and offset. -/
def remoteWord (m o : Nat) : Nat := m * 2 ^ 30 + o

/-- Issues a REMOTE access of a class (0 load, 1 store, 2 atomic) and mode: its counter rises and the split waits until every target's step
has been performed (13 R265 to R267). A store or atomic marks its block as having published (18 R337). -/
def remoteAccess (cls mode n : Nat) (f : MOp) (s : State) : Out :=
  withIssuer s fun x =>
    if !x.mRegsOk f n then x.illegal
    else if x.active = 0 then x.retire x.reel
    else
      match x.split.wait with
      | some (.remote ..) => x.wait
      | _ =>
        let lanes := (laneList x.active).map fun l => (l, remoteTarget (x.mAddr f 32 4 l))
        let out := lanes.filter fun l => x.block.gang.length ≤ l.2.1 || x.block.desc.spad < l.2.2 + 4
        let vt := f.vt.toNat
        if !out.isEmpty then x.takeTrap x.reel 3 x.cur.bundle.word (maskOf (out.map (·.1))) 0
        else if cls != 1 && (x.reel.busyV vt || 63 ≤ x.reel.ld) then x.wait
        else if cls == 1 && 63 ≤ x.reel.st then x.wait
        else
          let vals : Map (Word × Word) :=
            if cls = 0 then [] else lanes.map fun l => (l.1, (x.reel.vget vt l.1, if n = 8 then x.reel.vget (vt + 1) l.1 else 0))
          let a : RemoteAcc := ⟨x.s.nextId, cls, mode, lanes, vt, vals, [], [], []⟩
          let s := { x.s with nextId := x.s.nextId + 1 }
          let s := if cls != 0 then s.setPublished x.reel.block else s
          x.waitIn s (x.reel.raiseCount (cls != 1)) (.remote a (x.s.clock x.coreId) 0)

/-- REMOTE fn 0 (13 R266). -/
def execRlds (f : MOp) (s : State) : Out := remoteAccess 0 0 4 f s
/-- REMOTE fn 1 (13 R266). -/
def execRldsWfull (f : MOp) (s : State) : Out := remoteAccess 0 1 4 f s
/-- REMOTE fn 2 (13 R266). -/
def execRldsTake (f : MOp) (s : State) : Out := remoteAccess 0 2 4 f s
/-- REMOTE fn 4 (13 R266). -/
def execRsts (f : MOp) (s : State) : Out := remoteAccess 1 0 4 f s
/-- REMOTE fn 5 (13 R266). -/
def execRstsPut (f : MOp) (s : State) : Out := remoteAccess 1 1 4 f s
/-- REMOTE fn 6 (13 R266). -/
def execRstsFill (f : MOp) (s : State) : Out := remoteAccess 1 2 4 f s
/-- REMOTE fn 7 (13 R266). -/
def execRstsDrain (f : MOp) (s : State) : Out := remoteAccess 1 3 4 f s
/-- REMOTE fn 8 (13 R266). -/
def execRatomAdd (f : MOp) (s : State) : Out := remoteAccess 2 0 4 f s
/-- REMOTE fn 9 (13 R266). -/
def execRatomExch (f : MOp) (s : State) : Out := remoteAccess 2 1 4 f s
/-- REMOTE fn 10 (13 R266). -/
def execRatomCas (f : MOp) (s : State) : Out := remoteAccess 2 2 8 f s
/-- REMOTE fn 11 (13 R266). -/
def execRatomOr (f : MOp) (s : State) : Out := remoteAccess 2 3 4 f s

/-! ## Bank steps -/

/-- The members an access names, in the order of their lowest lanes. -/
def RemoteAcc.targets (a : RemoteAcc) : List Nat := (a.lanes.map fun l => l.2.1).foldl insertNew []

/-- The lanes of an access that go to a member, with their offsets. -/
def RemoteAcc.lanesTo (a : RemoteAcc) (m : Nat) : List (Nat × Nat) :=
  (a.lanes.filter fun l => l.2.1 == m).map fun l => (l.1, l.2.2)

/-- The operation of a `ratom` mode. -/
def remoteOp (mode : Nat) : AtomKind := match mode with | 0 => .add | 1 => .exch | 2 => .cas | _ => .or

/-- A load's or store's step at a member's banks, as a scratchpad access. -/
def RemoteAcc.step (a : RemoteAcc) (m : Nat) : SpadAcc :=
  ⟨a.id, a.cls == 0, a.mode, 4, a.lanesTo m, a.reg, a.vals.map fun v => (v.1, v.2.1.toNat)⟩

/-- The lanes of a step that meet poison: those of a load or an atomic (11 R253). -/
def RemoteAcc.badAt (a : RemoteAcc) (m : Nat) (b : Block) : List (Nat × Nat) :=
  if a.cls = 1 then [] else (a.lanesTo m).filter fun l => b.poisoned l.2 4

/-- The atomic lanes of a step that are performed. -/
def RemoteAcc.atomLanes (a : RemoteAcc) (m : Nat) (b : Block) : List AtomLane :=
  ((a.lanesTo m).filter fun l => !(a.badAt m b).contains l).map fun l =>
    let v := a.vals.findD (0, 0) l.1
    ⟨l.1, l.2, v.1.setWidth 64, v.2.setWidth 64⟩

/-- A step at a member's banks (13 R267): the member's block after it, and the access with what the step has read. -/
def RemoteAcc.perform (a : RemoteAcc) (m : Nat) (b : Block) : Block × RemoteAcc :=
  let bad := a.badAt m b
  let a' := { a with poisoned := a.poisoned ++ bad.map (·.1), done := insertNew a.done m }
  if a.cls = 2 then
    let (b', olds) := b.atomSteps (remoteOp a.mode) false (a.atomLanes m b)
    (b', { a' with got := olds.foldl (fun g o => Map.put g o.1 (BitVec.ofNat 32 o.2.2)) a.got })
  else if a.cls = 0 then
    let ls := (a.lanesTo m).filter fun l => !bad.contains l
    ((a.step m).apply b, { a' with got := ls.foldl (fun g l => Map.put g l.1 (BitVec.ofNat 32 (b.spadRead l.2 4))) a.got })
  else ((a.step m).apply b, a')

/-- Is the step first among those of its reel to the member, and, for a tagged release, is every earlier scratchpad store and atomic of the
reel accepted (13 R268)? -/
def Reel.mayStep (r : Reel) (self m : Nat) (a : RemoteAcc) : Bool :=
  (r.splits.all fun p =>
    match p.2.wait with
    | some (.remote o _ _) => p.1 == self || a.id ≤ o.id || !o.targets.contains m || o.done.contains m
    | _ => true)
    && (a.cls != 1 || a.mode == 0 || r.scratchDone self a.id)

/-- The registers and counters once the last step is performed: the held words are written together, and ld or st falls (13 R267). -/
def Reel.endRemote (r : Reel) (a : RemoteAcc) : Reel :=
  if a.cls = 1 then { r with st := r.st - 1 }
  else
    let r := a.got.foldl (fun q g => q.vset a.reg g.1 g.2) r
    { r with ld := r.ld - 1 }

/-- The record of remote lanes at fault: the lowest address word (14 R395). -/
def Issuer.remoteRec (x : Issuer) (a : RemoteAcc) (kind : Nat) (ls : List (Nat × Nat × Nat)) : FaultRec :=
  let ws := ls.map fun l => (l.1, remoteWord l.2.1 l.2.2)
  x.spadRec kind (a.cls != 1) ws (ws.map (·.2)).min?

/-- Ends a REMOTE access whose last step has been performed: the instruction retires, or its poisoned lanes hold the reel. -/
def Issuer.finishRemote (x : Issuer) (s : State) (a : RemoteAcc) : Out :=
  let s := s.onReel x.key fun r => r.endRemote a
  if a.poisoned.isEmpty then x.retireFrom s
  else x.holdFrom s (x.remoteRec a 0x0C (a.lanes.filter fun l => a.poisoned.contains l.1))

/-- Is the block of a gang's member gone? -/
def State.memberGone (s : State) (b : Block) (m : Nat) : Bool := ((b.gang[m]?).bind s.blocks.find?).isNone

/-- Ends a REMOTE access one of whose members is gone: the lanes that go to it are not performed, and the reel is held at the instruction, which
keeps the record of the steps performed, so that a retry repeats none of them (13 R267, R269; log entry 17). -/
def Issuer.remoteLost (x : Issuer) (a : RemoteAcc) : Out :=
  let left := a.lanes.filter fun l => !a.done.contains l.2.1 && x.s.memberGone x.block l.2.1
  .next ((x.s.raiseRec { x.remoteRec a 0x15 left with split := x.cur.split, ipc := x.cur.bundle.ipc } true).1)

/-- A REMOTE access's lanes for one member are performed at its banks (13 R267): in a waiting mode once every word qualifies. -/
def execRemoteBankStep (reel split member : Nat) (s : State) : Out :=
  match s.issuerOf reel split with
  | none => .next s
  | some x =>
    match x.split.wait with
    | some (.remote a since spent) =>
      if x.reel.held || a.done.contains member || !a.targets.contains member || !x.reel.mayStep split member a then .next s
      else
        let target := x.block.gang.getD member x.reel.block
        match s.blocks.find? target with
        | none => x.remoteLost a
        | some b =>
          let last := a.targets.all fun m => m == member || a.done.contains m
          if (a.cls != 2 && !(a.step member).qualifies b) || (last && s.skidFull reel x.reel) then .next s
          else
            let (b, a) := a.perform member b
            let s := s.setBlock target b
            if a.targets.all a.done.contains then x.finishRemote s a
            else x.waitIn s x.reel (.remote a since spent)
    | _ => .next s

end Sys2Proof.Machine
end

