-- ==== Sys2Proof/Machine/Loads.lean ====
section
/-! DEFINITION. The return of a load: its registers are written in one step and its counter falls (04 R88, R100, 09 R178, 10 R220, 19 R350). -/

namespace Sys2Proof.Machine

/-- Word `i` of a piece's bytes, sign-extended from `n` bytes when `sx`. -/
def pieceWord (d : BitVec 128) (n : Nat) (sx : Bool) (i : Nat) : Word :=
  if n < 4 then
    if sx then BitVec.ofInt 32 (sxNat d.toNat (8 * n)) else BitVec.ofNat 32 (lowBits d.toNat (8 * n))
  else d.extractLsb' (32 * i) 32

/-- Writes one piece of a load to its lane (09 R177). -/
def Reel.writePiece (r : Reel) (dst : LoadDst) (p : Piece) : Reel :=
  match p.data with
  | none => r
  | some d =>
    match dst with
    | .vec reg n sx => (List.range (wordsOf n)).foldl (fun r i => r.vset (reg + i) p.lane (pieceWord d n sx i)) r
    | .uni reg n => (List.range (wordsOf n)).foldl (fun r i => r.sset (reg + i) (pieceWord d n false i)) r
    | .status reg _ => r.sset reg (d.setWidth 32)
    | _ => r

/-- The packet of a `launch`'s load: none where fault service has dropped some of it. -/
def OutLoad.packet (o : OutLoad) : Option Nat :=
  if o.pieces.any (·.lost) then none
  else some (o.pieces.foldl (fun a p => a + ((p.data.getD 0).toNat) * 2 ^ (128 * p.lane)) 0)

/-- The phase of a `waitm` whose load has ended: with its word, or dropped (10 R220, 14 R290). -/
def WaitMRec.loaded (w : WaitMRec) (o : OutLoad) : WaitMRec :=
  match w.phase with
  | .got _ | .dropped => w
  | _ => { w with phase := match o.pieces.head? with
    | some ⟨_, _, some d, _⟩ => .got (d.setWidth 32)
    | _ => .dropped }

/-- Changes the `waitm` record of a split. -/
def Reel.onWaitM (r : Reel) (split : Nat) (f : WaitMRec → WaitMRec) : Reel :=
  { r with splits := r.splits.adjust split fun p =>
    { p with wait := p.wait.map fun w => match w with | .waitm m => .waitm (f m) | w => w } }

/-- Takes a load out of its reel, and lowers ld where it counts. -/
def Reel.endLoad (r : Reel) (o : OutLoad) : Reel :=
  { r with loads := r.loads.filter fun q => q.id != o.id
           ld := match o.dst with | .waitm _ => r.ld | _ => r.ld - 1 }

/-- A performed load returns: every lane's data is written in one step and ld falls (04 R88); an exited reel's is discarded (04 R100). -/
def State.returnLoad (s : State) (reel load : Nat) : State :=
  match s.reel? reel, s.load? reel load with
  | some r, some o =>
    if !o.performed then s
    else if r.exited then s.onAnyReel reel fun r => r.endLoad o
    else match o.dst with
      | .waitm split => s.onAnyReel reel fun r => (r.endLoad o).onWaitM split (·.loaded o)
      | .launch reg =>
        match o.packet, s.block? r.block with
        | some x, some b =>
          let (s, v) := s.enterDevice b x
          s.onAnyReel reel fun r => (r.endLoad o).sset reg v
        | _, _ => s.onAnyReel reel fun r => r.endLoad o
      | _ => s.onAnyReel reel fun r => (o.pieces.foldl (fun r p => r.writePiece o.dst p) r).endLoad o
  | _, _ => s

/-- A load's piece in a line takes its lane's old value. -/
def Piece.answer (line : Nat) (olds : List (Nat × Nat)) (p : Piece) : Piece :=
  match List.find? (fun e => e.1 == p.lane) olds with
  | some e => if p.va / 128 = line ∧ p.data.isNone then { p with data := some (BitVec.ofNat 128 e.2) } else p
  | none => p

/-- The answers of homes to a load's atomic that may be received, by their messages. -/
def State.answersOf (s : State) (reel load : Nat) : List Nat :=
  (s.msgs.map (·.1)).filter fun k =>
    match s.receive? k with
    | some m => match m.body with | .atomAns _ r l _ _ => r == reel && l == load | _ => false
    | none => false

/-- Receives an answer: the load's pieces take their lanes' old values, and the line is confirmed with them (09 R185, R186). -/
def State.takeAnswer (s : State) (key : Nat) : State :=
  match s.msgs.find? key with
  | none => s
  | some m =>
    match m.body with
    | .atomAns sid reel load line olds =>
      ((s.take key).onLoad reel load fun o => { o with pieces := o.pieces.map (Piece.answer line olds) }).setLine sid line .confirmed
    | _ => s

/-- LOAD_RETURN: the answers that have come are taken, and with the last of its data the load returns (04 R88). -/
def execLoadReturn (reel load : Nat) (s : State) : Out := .next (((s.answersOf reel load).foldl State.takeAnswer s).returnLoad reel load)

end Sys2Proof.Machine
end

