-- ==== Sys2Proof/Machine/Uniform.lean ====
section
/-! DEFINITION. UALU and SREG: uniform arithmetic, special registers and indirect registers (06 R132 to R136, 02 R41 to R44). -/

namespace Sys2Proof.Machine

/-! ## Uniform arithmetic -/

/-- A UALU instruction of two uniform registers (06 R132). -/
def ualu (g : Word → Word → Word) (f : U3) (s : State) : Out :=
  withIssuer s fun x => x.writeS f.sd.toNat (g (x.reel.sget f.sa.toNat) (x.reel.sget f.sb.toNat))

/-- A UALU instruction of a uniform register and an immediate (06 R132). -/
def ualuImm (g : Word → Word → Word) (f : UI) (s : State) : Out :=
  withIssuer s fun x => x.writeS f.sd.toNat (g (x.reel.sget f.sa.toNat) (x.cur.bundle.hints.imm9s f.imm))

/-- The lesser of two signed words (06 R132). -/
def minI32 (a b : Word) : Word := if a.toInt ≤ b.toInt then a else b
/-- The greater of two signed words (06 R132). -/
def maxI32 (a b : Word) : Word := if a.toInt ≤ b.toInt then b else a

/-- UALU fn 0 (06 R132). -/
def execUadd (f : U3) (s : State) : Out := ualu (fun a b => a + b) f s
/-- UALU fn 0 with an immediate (06 R132). -/
def execUaddImm (f : UI) (s : State) : Out := ualuImm (fun a b => a + b) f s
/-- UALU fn 1 (06 R132). -/
def execUsub (f : U3) (s : State) : Out := ualu (fun a b => a - b) f s
/-- UALU fn 1 with an immediate (06 R132). -/
def execUsubImm (f : UI) (s : State) : Out := ualuImm (fun a b => a - b) f s
/-- UALU fn 2 (06 R132). -/
def execUmul (f : U3) (s : State) : Out := ualu (fun a b => a * b) f s
/-- UALU fn 2 with an immediate (06 R132). -/
def execUmulImm (f : UI) (s : State) : Out := ualuImm (fun a b => a * b) f s
/-- UALU fn 3 (06 R132). -/
def execUand (f : U3) (s : State) : Out := ualu (fun a b => a &&& b) f s
/-- UALU fn 3 with an immediate (06 R132). -/
def execUandImm (f : UI) (s : State) : Out := ualuImm (fun a b => a &&& b) f s
/-- UALU fn 4 (06 R132). -/
def execUor (f : U3) (s : State) : Out := ualu (fun a b => a ||| b) f s
/-- UALU fn 4 with an immediate (06 R132). -/
def execUorImm (f : UI) (s : State) : Out := ualuImm (fun a b => a ||| b) f s
/-- UALU fn 5 (06 R132). -/
def execUxor (f : U3) (s : State) : Out := ualu (fun a b => a ^^^ b) f s
/-- UALU fn 5 with an immediate (06 R132). -/
def execUxorImm (f : UI) (s : State) : Out := ualuImm (fun a b => a ^^^ b) f s
/-- UALU fn 6 (06 R132). -/
def execUshl (f : U3) (s : State) : Out := ualu (fun a b => a <<< shiftCount b) f s
/-- UALU fn 6 with an immediate (06 R132). -/
def execUshlImm (f : UI) (s : State) : Out := ualuImm (fun a b => a <<< shiftCount b) f s
/-- UALU fn 7 (06 R132). -/
def execUshr (f : U3) (s : State) : Out := ualu (fun a b => a >>> shiftCount b) f s
/-- UALU fn 7 with an immediate (06 R132). -/
def execUshrImm (f : UI) (s : State) : Out := ualuImm (fun a b => a >>> shiftCount b) f s
/-- UALU fn 8 (06 R132). -/
def execUsar (f : U3) (s : State) : Out := ualu (fun a b => a.sshiftRight (shiftCount b)) f s
/-- UALU fn 8 with an immediate (06 R132). -/
def execUsarImm (f : UI) (s : State) : Out := ualuImm (fun a b => a.sshiftRight (shiftCount b)) f s
/-- UALU fn 9 (06 R132). -/
def execUminI (f : U3) (s : State) : Out := ualu minI32 f s
/-- UALU fn 9 with an immediate (06 R132). -/
def execUminIImm (f : UI) (s : State) : Out := ualuImm minI32 f s
/-- UALU fn 10 (06 R132). -/
def execUmaxI (f : U3) (s : State) : Out := ualu maxI32 f s
/-- UALU fn 10 with an immediate (06 R132). -/
def execUmaxIImm (f : UI) (s : State) : Out := ualuImm maxI32 f s
/-- UALU fn 11 from a register (06 R132). -/
def execUmov (f : U2) (s : State) : Out := withIssuer s fun x => x.writeS f.sd.toNat (x.reel.sget f.sa.toNat)
/-- UALU fn 11 of an immediate (06 R132). -/
def execUmovImm (f : UMovI) (s : State) : Out := withIssuer s fun x => x.writeS f.sd.toNat (x.cur.bundle.hints.imm9s f.imm)
/-- UALU fn 12 (06 R132). -/
def execUadd64 (f : U3) (s : State) : Out :=
  withIssuer s fun x =>
    if f.ok64 then x.writePair f.sd.toNat (x.reel.spair f.sa.toNat + x.reel.spair f.sb.toNat) else x.illegal
/-- UALU fn 12 with an immediate (06 R132). -/
def execUadd64Imm (f : UI) (s : State) : Out :=
  withIssuer s fun x =>
    if f.ok64 then x.writePair f.sd.toNat (x.reel.spair f.sa.toNat + (x.cur.bundle.hints.imm9s f.imm).signExtend 64)
    else x.illegal

/-- The condition of a `ucmp` (06 R133). -/
def uCond (code : Nat) (a b : Word) : Bool :=
  match code with
  | 0 => a == b
  | 1 => a != b
  | 2 => a.toInt < b.toInt
  | 3 => a.toNat < b.toNat
  | 4 => a.toInt ≤ b.toInt
  | _ => a.toNat ≤ b.toNat

/-- UALU fn 13 (06 R133). -/
def execUcmp (f : UCmp) (s : State) : Out :=
  withIssuer s fun x =>
    if f.ok then
      x.writeS f.sd.toNat (if uCond f.cond.toNat (x.reel.sget f.sa.toNat) (x.reel.sget f.sb.toNat) then 1 else 0)
    else x.illegal

/-! ## Special registers -/

/-- The content of a special register that a uniform read returns (02 R42, R43). -/
def Issuer.special (x : Issuer) (id : Nat) : Word :=
  let r := x.reel
  let b := x.block
  let w := BitVec.ofNat 32
  match id with
  | 1 => w r.idx
  | 2 => w b.desc.reels
  | 3 => w b.coord.1
  | 4 => w b.coord.2.1
  | 5 => w b.coord.2.2
  | 6 => w b.grid.1
  | 7 => w b.grid.2.1
  | 8 => w b.grid.2.2
  | 9 => w (x.s.lcore x.coreId)
  | 10 => w x.coreId
  | 11 => w (domainOfCore x.coreId)
  | 12 => w b.launch
  | 13 => w (x.s.coreCycles x.coreId)
  | 14 => r.cycloLatch.getD (w (x.s.coreCycles x.coreId / 2 ^ 32))
  | 15 => match r.iter.bind b.stages.find? with | some e => e.counter.setWidth 32 | none => 0
  | 16 => match r.iter.bind b.stages.find? with | some e => w e.iter | none => 0
  | 17 => r.xpc
  | 18 => r.xinst
  | 19 => r.xmask
  | 20 => r.xkind
  | 21 => r.tcr
  | 22 => ((laneList x.active).foldl (fun a l => a ||| r.flagsOf l) 0).setWidth 32
  | 23 => r.xvec
  | 24 => r.xvechi.setWidth 32
  | 25 => (x.s.bubbleCount (domainOfCore x.coreId)).setWidth 32
  | 26 => w x.s.wafer.gen
  | 27 => w (x.s.core x.coreId).cap
  | 28 => w b.fsrec
  | 29 => w (b.fsrec / 2 ^ 32)
  | _ => 0

/-- What reading a special register leaves behind: cyclo latches the high half for the reel (02 R43). -/
def Issuer.afterRead (x : Issuer) (id : Nat) : Reel :=
  if id = 13 then { x.reel with cycloLatch := some (BitVec.ofNat 32 (x.s.coreCycles x.coreId / 2 ^ 32)) } else x.reel

/-- SREG fn 0: each active lane reads the register, lane and fflags by lane (06 R134, 02 R43). -/
def execRdsrV (f : RdV) (s : State) : Out :=
  withIssuer s fun x =>
    if !(f.ok && vregOk x.block.desc.vregs false f.vd.toNat) then x.illegal
    else
      let id := f.id.toNat
      let x' := { x with reel := if x.active = 0 then x.reel else if x.reel.busyV f.vd.toNat then x.reel else x.afterRead id }
      x'.writeLanes f.vd.toNat fun l =>
        if id = 0 then BitVec.ofNat 32 l else if id = 22 then (x.reel.flagsOf l).setWidth 32 else x.special id

/-- SREG fn 1 (06 R134). -/
def execRdsr (f : RdS) (s : State) : Out :=
  withIssuer s fun x =>
    if !f.ok then x.illegal
    else if x.reel.busyS f.sd.toNat then x.wait
    else x.retire ((x.afterRead f.id.toNat).sset f.sd.toNat (x.special f.id.toNat))

/-- The defined bits of `tcr` (02 R44). -/
def tcrMask : Word := 0x71F

/-- SREG fn 2 (06 R134, R136): `tcr` keeps its defined bits, `xvec`[1:0] stay 0, and `fflags` is written in the active lanes. -/
def execWrsr (f : WrS) (s : State) : Out :=
  withIssuer s fun x =>
    let r := x.reel
    let v := r.sget f.sa.toNat
    match f.id.toNat with
    | 21 => x.retire { r with tcr := v &&& tcrMask }
    | 22 => x.retire ((laneList x.active).foldl (fun q l => { q with fflags := q.fflags.putD 0 l (v.setWidth 5) }) r)
    | 23 => x.retire { r with xvec := v &&& ~~~3 }
    | 24 => x.retire { r with xvechi := v.setWidth 23 }
    | _ => x.illegal

/-- SREG fn 3 (06 R134, R135). -/
def execVgetx (f : VS) (s : State) : Out :=
  withIssuer s fun x =>
    let n := x.block.desc.vregs
    let i := (x.reel.sget f.sa.toNat).toNat
    if !vregOk n false f.vd.toNat then x.illegal
    else if x.active ≠ 0 ∧ n ≤ i then x.illegal
    else x.writeLanes f.vd.toNat fun l => x.reel.vget i l

/-- SREG fn 4 (06 R134, R135). -/
def execVsetx (f : SV) (s : State) : Out :=
  withIssuer s fun x =>
    let n := x.block.desc.vregs
    let i := (x.reel.sget f.sd.toNat).toNat
    if !vregOk n false f.va.toNat then x.illegal
    else if x.active ≠ 0 ∧ n ≤ i then x.illegal
    else x.writeLanes i fun l => x.reel.vget f.va.toNat l

end Sys2Proof.Machine
end

