-- ==== Sys2Proof/Machine/Fserv.lean ====
section
/-! DEFINITION. FSERV: reading and writing a held reel, completing its load, resuming it and killing it (14 R289 to R292). -/

namespace Sys2Proof.Machine

/-! ## The record an instruction names -/

/-- The record a service block's address names, if it is the block's own (14 R288, R290). -/
def Issuer.serviceRec (x : Issuer) (sa : BitVec 6) : Option (Nat × FaultRec) :=
  match x.block.service with
  | none => none
  | some id =>
    if (x.reel.saddr sa.toNat).toNat = x.block.fsrec then (x.s.faults.find? id).map fun f => (id, f) else none

/-- The reel a record holds, resident or saved, by key (14 R290, 19 R359). -/
def State.heldReel (s : State) (rec : Option (Nat × FaultRec)) : Option (Nat × Reel) := do
  let (id, f) ← rec
  let k ← f.reelKey
  let r ← s.reel? k
  if r.heldBy.contains id then some (k, r) else none

/-- An FSERV instruction in a block that is not a fault-service block, or with an odd record pair, is illegal (14 R289). -/
def service (sa : BitVec 6) (s : State) (f : Issuer → Option (Nat × FaultRec) → Out) : Out :=
  withIssuer s fun x =>
    if x.block.service.isNone || !isEven sa then x.illegal else f x (x.serviceRec sa)

/-! ## Register files of a held reel (14 R289) -/

/-- The register file a selector names. -/
def Hints.file (h : Hints) : Nat := (h.hx.getD 0).toNat

/-- Is a selector one of the files' registers? -/
def selectorOk (vregs file n : Nat) : Bool :=
  match file with
  | 0 => n < vregs
  | 1 => n < 64
  | 2 => n < 8
  | 3 => 1 ≤ n && n < 30
  | 4 => n < 16
  | _ => false

/-- May `hset` write the register? -/
def selectorWritable (file n : Nat) : Bool := file < 3 || (file == 3 && [21, 22, 23, 24].contains n)

/-- The state code of a split, whose reel a pre-emption saves or not (14 R289). -/
def Split.code (p : Split) (stopped : Bool) : Word :=
  if p.parked then 3 else if p.wait.isSome then 2 else if p.paused || stopped then 4 else 1

/-- A word of file 4: number 4·split + f. -/
def Reel.splitWord (r : Reel) (n : Nat) : Word :=
  match r.splits.find? (n / 4) with
  | none => 0
  | some p =>
    match n % 4 with
    | 0 => p.pc.setWidth 32
    | 1 => (p.pc.extractLsb' 32 23).setWidth 32
    | 2 => p.lanes
    | _ => p.code r.stopped

/-- The held reel as the reader of its special registers: `fflags` is the OR of every lane. -/
def State.heldIssuer (s : State) (k : Nat) (r : Reel) (b : Block) : Issuer :=
  ⟨s, ⟨k, 0, ⟨0, 0, 0, Hints.empty⟩⟩, r, ⟨0, BitVec.allOnes 32, [], false, false, none, none⟩, b⟩

/-- The lanes `k0` of a held reel reads: those of its one split, else a free value, since k0 belongs to the executing split and none executes
(04 R77; log entry 19). -/
def Reel.heldMask (r : Reel) (n : Nat) : Word :=
  match r.splits with
  | [p] => p.2.lanes
  | _ => Config.heldLanes n

/-- A uniform value of a held reel, by file and number. -/
def State.heldWord (s : State) (k : Nat) (r : Reel) (file n : Nat) : Word :=
  match file with
  | 1 => r.sget n
  | 2 => r.kget (r.heldMask s.nextId) n
  | 3 => match s.block? r.block with | some b => (s.heldIssuer k r b).special n | none => 0
  | _ => r.splitWord n

/-- FSERV fn 0 (14 R289, R290). -/
def execHget (f : HOp) (s : State) : Out :=
  service f.sa s fun x rec =>
    let v := x.block.desc.vregs
    let file := x.cur.bundle.hints.file
    let n := f.imm.toNat
    let d := f.d.toNat
    if !selectorOk v file n || (if file = 0 then v ≤ d else 64 ≤ d) then x.illegal
    else
      let held := s.heldReel rec
      if file = 0 then x.writeLanes d fun l => match held with | some (_, r) => r.vget n l | none => 0
      else
        let x := { x with s := { x.s with nextId := x.s.nextId + 1 } }
        x.writeS d (match held with | some (k, r) => s.heldWord k r file n | none => 0)

/-- A held reel with a uniform value written to a file (02 R41, R44, 14 R289). -/
def Reel.heldSet (r : Reel) (file n : Nat) (v : Word) : Reel :=
  match file, n with
  | 1, _ => r.sset n v
  | 2, _ => r.kset n v
  | _, 21 => { r with tcr := v &&& tcrMask }
  | _, 22 => { r with fflags := (List.range 32).foldl (fun m l => Map.putD 0 m l (v.setWidth 5)) r.fflags }
  | _, 23 => { r with xvec := v &&& ~~~3 }
  | _, _ => { r with xvechi := v.setWidth 23 }

/-- FSERV fn 1 (14 R289, R290). -/
def execHset (f : HOp) (s : State) : Out :=
  service f.sa s fun x rec =>
    let v := x.block.desc.vregs
    let file := x.cur.bundle.hints.file
    let n := f.imm.toNat
    let d := f.d.toNat
    if !selectorOk v file n || !selectorWritable file n || (if file = 0 then v ≤ d else 64 ≤ d) then x.illegal
    else
      match s.heldReel rec with
      | none => x.retire x.reel
      | some (k, r) =>
        let r := if file = 0 then (laneList x.active).foldl (fun r l => r.vset n l (x.reel.vget d l)) r
          else r.heldSet file n (x.reel.sget d)
        x.retireFrom (x.s.onAnyReel k fun _ => r)

/-! ## Completing a load (14 R290) -/

/-- The load a record names, if its reel still has it. -/
def Reel.recLoad (r : Reel) (f : FaultRec) : Option OutLoad := r.loads.find? fun o => some o.id == f.loadId

/-- Source registers a load's `hldone` reads. -/
def LoadDst.words : LoadDst → Nat
  | .vec _ n _ | .uni _ n => wordsOf n
  | _ => 1

/-- The held reel with a load's values written from the service reel's registers `vs` on. -/
def Reel.complete (r : Reel) (f : FaultRec) (dst : LoadDst) (src : Reel) (vs : Nat) : Reel :=
  match dst with
  | .vec reg n _ => (laneList f.lanes).foldl (fun r l =>
      (List.range (wordsOf n)).foldl (fun r i => r.vset (reg + i) l (src.vget (vs + i) l)) r) r
  | .uni reg n => (List.range (wordsOf n)).foldl (fun r i => r.sset (reg + i) (src.vget (vs + i) 0)) r
  | .status reg _ => r.sset reg (src.vget vs 0)
  | .waitm split => r.onWaitM split fun w => { w with phase := .got (src.vget vs 0) }
  | .launch _ => r

/-- FSERV fn 2 (14 R289, R290). -/
def execHldone (f : HlOp) (s : State) : Out :=
  service f.sa s fun x rec =>
    let held := s.heldReel rec
    let load := held.bind fun h => rec.bind fun q => (h.2.recLoad q.2).map fun o => (h, q.2, o)
    let n := match load with | some (_, _, o) => o.dst.words | none => 1
    if !x.cur.bundle.hints.noWide || x.block.desc.vregs < f.vs.toNat + n then x.illegal
    else
      match load with
      | some ((k, r), q, o) => x.retireFrom (x.s.onAnyReel k fun _ => r.complete q o.dst x.reel f.vs.toNat)
      | none => x.retire x.reel

/-! ## Resuming (14 R291) -/

/-- The modes of `resume`. -/
inductive ResumeMode where
  | continue | drop | retry
  deriving DecidableEq, Repr

/-- The classes of records (14 R291). -/
inductive RecClass where
  | load | store | engine | precise | lost
  deriving DecidableEq, Repr

/-- The class of a record. -/
def FaultRec.cls (f : FaultRec) : RecClass :=
  if 0x0D ≤ f.kind ∧ f.kind ≤ 0x12 then .lost
  else if f.engine then .engine
  else if f.kind ≤ 3 ∨ f.kind = 0x16 then
    if f.loadId.isSome then .load else if f.sid.isSome then .store else .precise
  else .precise

/-- Does the record's kind accept the mode (14 R291)? -/
def FaultRec.accepts (f : FaultRec) (m : ResumeMode) : Bool :=
  match f.cls, m with
  | .lost, .drop => true
  | .lost, _ => false
  | .precise, .drop => decide (f.kind ≤ 3)
  | .store, .drop => f.kind != 0x16 || f.exited
  | _, .drop => f.kind != 0x16
  | _, .continue | _, .retry => true

/-- Sends again what a load still needs of a line, with a fresh translation: its reads, its atomic's lanes, or its registration; a `waitm` starts
again at arming (10 R220, 14 R291). -/
def State.reissueLoad (s : State) (k load line : Nat) : State :=
  let core := coreOfKey k
  let d := domainOfCore core
  match s.reels.find? k, s.load? k load with
  | some r, some o =>
    let ps := o.pieces.filter fun p => p.va / 128 == line && p.data.isNone && !p.lost
    match o.dst, o.atom, ps.head?, s.blocks.find? r.block with
    | _, _, none, _ | _, _, _, none => s
    | .waitm split, _, _, _ => s.setReel k ((r.endLoad o).onWaitM split fun w => { w with phase := .restart })
    | .status _ slot, _, some p, _ =>
      let w := r.watchSlot slot
      let r := if w.state = .unarmed then r.setWatch slot { w with state := .sent, va := p.va, reg := load, home := 64 } else r
      (s.setReel k r).send ⟨d, d, core, false, .watch k slot load p.va true⟩
    | _, some (op, wide, lanes), _, some b =>
      let lanes := lanes.filter fun l => l.va / 128 == line && ps.any fun p => p.lane == l.lane
      let sid := s.nextId
      let o : OutStore := ⟨core, core, slotOfKey k, some k, b.launch, r.block, b.linear, b.ctx, o.pc, o.inst, o.lanes, r.seq, r.retired
        , false, false, [(line, .sent)], 0, false, false, none⟩
      { s with nextId := sid + 1, stores := s.stores.put sid o }.send ⟨d, d, core, false, .atomic sid (some (k, load)) op wide lanes⟩
    | _, none, _, _ => s.sendReads core k load o.cls o.policy (sectorsOf (ps.map fun p => (p.lane, p.va)))
  | _, _ => s

/-- Sends a load's faulted line again: at once, or with the restore of a saved reel (14 R291, 19 R357). -/
def State.retryLoad (s : State) (id : Nat) (f : FaultRec) : State :=
  match f.reelKey, f.loadId with
  | some k, some load => (s.onLoad k load fun o => { o with recs := o.recs.filter (· != id) }).reissueLoad k load (f.line / 128)
  | _, _ => s

/-- A store's replay counts in its reel's st again where a restore has left it out (08 R167). -/
def State.recount (s : State) (sid : Nat) (o : OutStore) : State :=
  match o.reel, o.counted with
  | some k, false => (s.onStore sid fun o => { o with counted := true }).onAnyReel k fun r => { r with st := r.st + 1 }
  | _, _ => s

/-- Replays a store's line, or an atomic's lanes in it, with a fresh translation (14 R291): the line is settled at its confirmation. -/
def State.retryStore (s : State) (f : FaultRec) : State :=
  match f.sid with
  | none => s
  | some sid =>
    let s := match s.stores.find? sid with
      | some o => if o.eng then s else (s.recount sid o).onStore sid fun o => { o with origin := o.core }
      | none => s
    let core := match s.stores.find? sid with | some o => o.core | none => f.pcore
    let d := domainOfCore core
    match f.atom with
    | some (op, wide, lanes) => s.send ⟨d, d, core, false, .atomic sid none op wide lanes⟩
    | none => s.send ⟨d, d, core, false, .write sid ⟨f.line / 128, f.bmask, f.image, f.lanes⟩⟩

/-- Issues an engine command again whole; a store whose command is gone is replayed. -/
def State.retryEngine (s : State) (f : FaultRec) : State :=
  match f.cmd.bind s.findCmd? with
  | some c => s.changeCmd c.id fun c => { c with performed := false, record := none, stores := [], done := 0, ahead := [] }
  | none => s.retryStore f

/-- A full/empty or REMOTE wait as it goes on after a retry: its count restarts (08 R154). -/
def Wait.restart : Wait → Wait
  | .fullEmpty a since _ => .fullEmpty a since 0
  | .remote a since _ => .remote a since 0
  | w => w

/-- A held reel whose faulting split goes on after its instruction. -/
def Reel.skipFault (r : Reel) (f : FaultRec) : Reel :=
  match r.splits.find? f.split with
  | none => r
  | some p =>
    let r := match p.wait with
      | some (.remote a _ _) => r.endRemote a
      | some (.fullEmpty a _ _) => r.lowerCount a.load
      | _ => r
    r.setSplit f.split { p with pc := f.ipc + 4, wait := none, bundle := none }

/-- Has no instruction of the record's bundle executed: its fetch has faulted, in handler mode too; or does the record name no instruction, as that of
a reel whose gang has lost a member (13 R269, 14 R291; log entry 97)? -/
def FaultRec.noInstruction (f : FaultRec) : Bool :=
  f.kind == 5 || f.kind ≤ 3 || (f.kind == 0x14 && f.detail == 0 && !f.load && !f.store) || (f.kind == 0x15 && f.inst == 0)

/-- Lets a precise fault's reel go on (14 R291): after the instruction, or at it again. -/
def State.resumePrecise (s : State) (f : FaultRec) (m : ResumeMode) : State :=
  match f.reelKey with
  | none => s
  | some k =>
    if f.noInstruction then s
    else match m with
      | .retry => s.onAnyReel k fun r =>
          { r with splits := r.splits.adjust f.split fun p => { p with wait := p.wait.map Wait.restart } }
      | _ => s.onAnyReel k fun r => r.skipFault f

/-- The `waitm` of a dropped load ends with 0, whatever `hldone` has written (10 R220). -/
def State.dropWaitM (s : State) (f : FaultRec) : State :=
  match f.reelKey, f.loadId with
  | some k, some l =>
    match (s.load? k l).map OutLoad.dst with
    | some (LoadDst.waitm split) => s.onAnyReel k fun r => r.onWaitM split fun w => { w with phase := .dropped }
    | _ => s
  | _, _ => s

/-- The load of a record goes, and returns if all of it has come. -/
def State.dropLoad (s : State) (id : Nat) (f : FaultRec) : State :=
  let s := s.dropWork id
  match f.reelKey, f.loadId with | some k, some l => s.returnLoad k l | _, _ => s

/-- What a mode does with a record's work. -/
def State.resumeWork (s : State) (id : Nat) (f : FaultRec) (m : ResumeMode) : State :=
  match f.cls, m with
  | .load, .retry => s.retryLoad id f
  | .load, .drop => (s.dropWaitM f).dropLoad id f
  | .load, .continue => s.dropLoad id f
  | .store, .retry => s.retryStore f
  | .engine, .retry => s.retryEngine f
  | .precise, m => s.resumePrecise f m
  | _, _ => s.dropWork id

/-- Resolves a record in a mode: the status (14 R290, R291). -/
def State.resolve (s : State) (id : Nat) (f : FaultRec) (m : ResumeMode) : State × Word :=
  if f.state = .resolved then (s.closeRecord id false, 1)
  else if !f.accepts m then (s, 2)
  else
    let held := (s.heldReel (some (id, f))).isSome
    ((s.resumeWork id f m).closeRecord id false, if held then 0 else 1)

/-- Writes the status of `resume` or `kill` to S[sd]. -/
def Issuer.statusFrom (x : Issuer) (sd : Nat) (s : State) (status : Word) : Out :=
  x.retireFrom (s.onReel x.key fun r => r.sset sd status)

/-- A `resume` in a mode. -/
def resume (m : ResumeMode) (f : S2) (s : State) : Out :=
  service f.sa s fun x rec =>
    if !x.cur.bundle.hints.noWide then x.illegal
    else if x.reel.busyS f.sd.toNat then x.wait
    else match rec with
      | none => x.statusFrom f.sd.toNat x.s 3
      | some (id, q) => let (s, v) := x.s.resolve id q m; x.statusFrom f.sd.toNat s v

/-- FSERV fn 3, mode 0 (14 R291). -/
def execResumeContinue (f : S2) (s : State) : Out := resume .continue f s
/-- FSERV fn 3, mode 1 (14 R291). -/
def execResumeDrop (f : S2) (s : State) : Out := resume .drop f s
/-- FSERV fn 3, mode 2 (14 R291). -/
def execResumeRetry (f : S2) (s : State) : Out := resume .retry f s

/-- FSERV fn 4 (14 R292). -/
def execKill (f : S2) (s : State) : Out :=
  service f.sa s fun x rec =>
    if !x.cur.bundle.hints.noWide then x.illegal
    else if x.reel.busyS f.sd.toNat then x.wait
    else match rec with
      | none => x.statusFrom f.sd.toNat x.s 3
      | some (id, q) =>
        match s.heldReel (some (id, q)) with
        | some (k, _) => x.statusFrom f.sd.toNat ((x.s.killReel k).closeRecord id false) 0
        | none => x.statusFrom f.sd.toNat (if q.state = .resolved then x.s.closeRecord id false else x.s) 1

end Sys2Proof.Machine
end

