-- ==== Sys2Proof/Machine/Layout.lean ====
section
/-! DEFINITION. Layout descriptors: fields, element addresses and the checks of a use (08 R155 to R157). -/

namespace Sys2Proof.Machine

/-- A layout descriptor's fields (08 R155). -/
structure Layout where
  base : Nat
  size0 : Nat
  size1 : Nat
  size2 : Nat
  size3 : Nat
  stride1 : Int
  stride2 : Int
  stride3 : Int
  space : Nat
  esize : Nat
  planes : Nat
  pb : Nat
  ps : Nat
  fe : Nat
  gstride : Nat
  /-- A field marked 0 is not 0. -/
  reserved : Bool
  deriving DecidableEq, Repr

/-- The descriptor an image holds (08 R155). -/
def Layout.ofImage (v : BitVec 256) : Layout where
  base := bitsOf v.toNat 54 0
  size0 := bitsOf v.toNat 111 96
  size1 := bitsOf v.toNat 127 112
  size2 := bitsOf v.toNat 143 128
  size3 := bitsOf v.toNat 159 144
  stride1 := sxNat (bitsOf v.toNat 191 160) 32
  stride2 := sxNat (bitsOf v.toNat 223 192) 32
  stride3 := sxNat (bitsOf v.toNat 255 224) 32
  space := bitsOf v.toNat 95 94
  esize := bitsOf v.toNat 93 91
  planes := bitsOf v.toNat 90 87
  pb := bitsOf v.toNat 86 84
  ps := bitsOf v.toNat 83 80
  fe := bitsOf v.toNat 79 77
  gstride := bitsOf v.toNat 76 73
  reserved := bitsOf v.toNat 72 64 != 0 || bitsOf v.toNat 63 55 != 0

/-- Bytes of one element: of a plane group, the planes read (08 R156). -/
def Layout.elemBytes (d : Layout) : Nat := if d.esize = 5 then 4 * d.planes else 2 ^ d.esize

/-- Words from one plane group to the next: 0 means 8 (08 R155). The spec names 1 to 8 and rejects no more: 9 to 15 are taken as that many words
(DESIGN CHOICE; log entry 89). -/
def Layout.groupWords (d : Layout) : Nat := if d.gstride = 0 then 8 else d.gstride

/-- The byte step of dimension 0 (08 R156). -/
def Layout.step0 (d : Layout) : Nat := if d.esize = 5 then 4 * d.groupWords else 2 ^ d.esize

/-- The byte address of an element, an exact integer (08 R156, 00 R9): the fold flips bits of its low 30, which hold bit ps + pb − 1. -/
def Layout.addrInt (d : Layout) (i0 i1 i2 i3 : Nat) : Int :=
  let a : Int := (d.base + i0 * d.step0 : Nat) + (i1 : Int) * d.stride1 + (i2 : Int) * d.stride2 + (i3 : Int) * d.stride3
  if d.pb = 0 then a else a - a % 2 ^ 30 + (((a % 2 ^ 30).toNat ^^^ ((i1 % 2 ^ d.pb) * 2 ^ d.ps) : Nat) : Int)

/-- The address of an element as an access takes it: one that is no 55-bit address stands as such, above them all, by its low 55 bits (log entry
90). -/
def Layout.addr (d : Layout) (i0 i1 i2 i3 : Nat) : Nat :=
  let a := d.addrInt i0 i1 i2 i3
  if 0 ≤ a ∧ a < 2 ^ 55 then a.toNat else 2 ^ 55 + wrapInt a 55

/-- The addresses of all elements in index order, i0 fastest (11 R248). -/
def Layout.addrs (d : Layout) : List Nat :=
  (List.range (d.size3 + 1)).flatMap fun i3 => (List.range (d.size2 + 1)).flatMap fun i2 =>
    (List.range (d.size1 + 1)).flatMap fun i1 => (List.range (d.size0 + 1)).map fun i0 => d.addr i0 i1 i2 i3

/-- How many elements a layout has. -/
def Layout.count (d : Layout) : Nat := (d.size0 + 1) * (d.size1 + 1) * (d.size2 + 1) * (d.size3 + 1)

/-- The alignment of base and strides. -/
def Layout.unit (d : Layout) : Nat := if d.esize = 5 then 4 else 2 ^ d.esize

/-- A used stride is a multiple of the unit; a dimension of one element uses none. -/
def strideOk (u size : Nat) (stride : Int) : Bool := size == 0 || stride % (u : Int) == 0

/-- Does the device accept the descriptor at a use, in a block with `spad` bytes of scratchpad (08 R157)? -/
def Layout.ok (d : Layout) (spad : Nat) : Bool :=
  d.space < 2 && d.esize < 6 && d.fe < 3 && !d.reserved
    && (if d.esize = 5 then 2 ≤ d.planes && d.planes ≤ 8 && d.planes ≤ d.groupWords else d.planes == 0 && d.gstride == 0)
    && d.base % d.unit == 0 && strideOk d.unit d.size1 d.stride1 && strideOk d.unit d.size2 d.stride2 && strideOk d.unit d.size3 d.stride3
    && (d.pb == 0 || d.base % 2 ^ (d.ps + d.pb) == 0)
    && (d.fe == 0 || (d.space == 0 && 4 ≤ d.elemBytes))
    && (d.space == 1 || d.addrs.all fun a => a + d.elemBytes ≤ spad)

/-- Do two layouts have equal sizes, elements and planes (11 R248)? -/
def Layout.sameShape (d e : Layout) : Bool :=
  d.size0 == e.size0 && d.size1 == e.size1 && d.size2 == e.size2 && d.size3 == e.size3 && d.esize == e.esize && d.planes == e.planes

/-- Bytes that an engine moves at a time: a word, or a smaller element (11 R251). -/
def Layout.pieceBytes (d : Layout) : Nat := min 4 d.elemBytes

/-- The pieces of elements at addresses, in order. -/
def Layout.pieces (d : Layout) (as : List Nat) : List Nat :=
  as.flatMap fun a => (List.range (d.elemBytes / d.pieceBytes)).map fun k => a + d.pieceBytes * k

/-- The 32-byte sectors that `n` bytes at an address touch. -/
def sectorSpan (a n : Nat) : List Nat := (List.range ((a % 32 + n + 31) / 32)).map (a / 32 + ·)

/-- The footprint of a layout in sectors of its space (11 R252). -/
def Layout.footprint (d : Layout) : List (Nat × Nat) :=
  ((d.addrs.flatMap fun a => sectorSpan a d.elemBytes).foldl insertNew []).map fun s => (d.space, s)

/-- The scratchpad words of a layout's footprint. -/
def Layout.words (d : Layout) : List Nat := (d.addrs.flatMap fun a => wordsAt a d.elemBytes).foldl insertNew []

/-- Sets the full bits that a layout's action leaves on the words of pieces of `n` bytes written (08 R155). -/
def Layout.onWritePieces (d : Layout) (b : Block) (n : Nat) (as : List Nat) : Block :=
  if d.fe = 1 then b.setFull (as.flatMap fun a => wordsAt a n) true else b

/-- Sets the full bits that a layout's action leaves on the words of pieces of `n` bytes read (08 R155). -/
def Layout.onReadPieces (d : Layout) (b : Block) (n : Nat) (as : List Nat) : Block :=
  if d.fe = 2 then b.setFull (as.flatMap fun a => wordsAt a n) false else b

/-- Sets the full bits that a layout's action leaves on the words of elements written (08 R155). -/
def Layout.onWrite (d : Layout) (b : Block) (as : List Nat) : Block := d.onWritePieces b d.elemBytes as

/-- Sets the full bits that a layout's action leaves on the words of elements read (08 R155). -/
def Layout.onRead (d : Layout) (b : Block) (as : List Nat) : Block := d.onReadPieces b d.elemBytes as

end Sys2Proof.Machine
end

