-- ==== Sys2Proof/Machine/Engine.lean ====
section
/-! DEFINITION. ENGINE: layout loads, the copy and gather/scatter engines, starts of the sequencer, and tile access from reels (11 R245 to R255). -/

namespace Sys2Proof.Machine

/-! ## Issuing commands -/

/-- The layout registers a command reads, in the order of its plan. -/
def EngOp.layRegs : EngOp → List Nat
  | .cpy d s => [d, s]
  | .gath d t => [d, t, t + 1]
  | .scat t d => [d, t, t + 1]
  | _ => []

/-- A layout register of a block. -/
def Block.lay (b : Block) (n : Nat) : BitVec 256 := b.lays.findD 0 n

/-- Does a command publish its block: a `cpy` or `scat` with a global destination (18 R337)? -/
def EngOp.publishes (b : Block) : EngOp → Bool
  | .cpy d _ | .scat d _ => (Layout.ofImage (b.lay d)).space == 1
  | _ => false

/-- Issues a command: eng rises, and it stands unaccepted (04 R88, 11 R250, R251; 15 R299 for what it inherits). -/
def Issuer.issueCmd (x : Issuer) (op : EngOp) (sem scope inc : Nat) : Out :=
  if 15 ≤ x.reel.eng then x.wait
  else
    let id := x.s.nextId
    let c : EngCmd :=
      ⟨id, x.key, x.reel.block, x.cur.bundle.ipc, x.cur.bundle.word, x.active, op, sem, scope, inc, x.cur.bundle.hints.policy, false, false
      , [], 0, [], [], x.s.carryOf x.key x.reel, none⟩
    let s := ({ x.s with nextId := id + 1 }).onCore x.coreId fun q => { q with cmds := q.cmds ++ [c] }
    let s := if op.publishes x.block then s.setPublished x.reel.block else s
    x.retireFrom (s.onReel x.key fun r => { r with eng := r.eng + 1 })

/-- ENGINE fn 0, global (11 R246). -/
def execLayset (f : LayOp) (s : State) : Out :=
  withIssuer s fun x =>
    let a := (x.reel.saddr f.sa.toNat).toNat
    if !isEven f.sa || !x.cur.bundle.hints.noWide then x.illegal
    else x.issueCmd (.layset f.lay.toNat false (a - a % 32)) 0 0 0

/-- ENGINE fn 0, scratchpad (11 R246). -/
def execLaysetSpad (f : LayOp) (s : State) : Out :=
  withIssuer s fun x =>
    let a := (x.reel.sget f.sa.toNat).toNat
    let a := a - a % 32
    if !x.cur.bundle.hints.noWide then x.illegal
    else if x.block.desc.spad < a + 32 then x.takeTrap x.reel 3 x.cur.bundle.word x.active 0
    else x.issueCmd (.layset f.lay.toNat true a) 0 0 0

/-- Issues a moving command: the increment comes from HX, whose bits above it must be 0 (11 R245). -/
def Issuer.moving (x : Issuer) (ok : Bool) (f : CpyOp) (op : EngOp) : Out :=
  let p := (x.cur.bundle.hints.hx.getD 0).toNat
  if !ok || 256 ≤ p then x.illegal else x.issueCmd op f.sm.toNat f.scope.toNat (p + 1)

/-- ENGINE fn 1 (11 R245, R248). -/
def execCpy (f : CpyOp) (s : State) : Out :=
  withIssuer s fun x => x.moving true f (.cpy f.ld.toNat f.ls.toNat)
/-- ENGINE fn 2 (11 R245, R249). -/
def execGath (f : CpyOp) (s : State) : Out :=
  withIssuer s fun x => x.moving (tableOk f.ls) f (.gath f.ld.toNat f.ls.toNat)
/-- ENGINE fn 3 (11 R245, R249). -/
def execScat (f : CpyOp) (s : State) : Out :=
  withIssuer s fun x => x.moving (tableOk f.ld) f (.scat f.ld.toNat f.ls.toNat)

/-- ENGINE fn 4 (11 R247). -/
def execMstart (f : S2) (s : State) : Out :=
  withIssuer s fun x =>
    if !x.cur.bundle.hints.noWide || x.block.desc.stream == 0 then x.illegal
    else x.issueCmd (.mstart f.sd.toNat f.sa.toNat) 0 0 0

/-! ## Tile access from reels (11 R254) -/

/-- The claimed tile of a number: the upper half of a binary64 pair stands for its pair (11 R222, R224). -/
def Core.tile (c : Core) (n : Nat) : Option AcTile :=
  match c.ac.find? n with
  | some t => if t.fmt = 2 ∧ n % 2 = 1 then (c.ac.find? (n - 1)).map fun p => { p with owner := t.owner } else some t
  | none => none

/-- May a block's reel access the tile: claimed by it, formatted and not bad, and not the upper half of a pair? -/
def Core.tileFor (c : Core) (block n : Nat) : Option AcTile :=
  match c.ac.find? n with
  | some t => if t.owner = block ∧ t.fmt ≠ 0 ∧ t.bad = false ∧ (t.fmt = 2 → n % 2 = 0) then some t else none
  | none => none

/-- An access to a row of a tile: the checks and mx (11 R254). -/
def Issuer.tileAccess (x : Issuer) (f : AccOp) (get : Bool) : Out :=
  let vd := f.vd.toNat
  match (x.s.core x.coreId).tileFor x.reel.block f.ac.toNat with
  | none => x.illegal
  | some t =>
    let wide := t.fmt == 2
    if !x.cur.bundle.hints.noWide || !vregOk x.block.desc.vregs wide vd then x.illegal
    else if x.active = 0 then x.retire x.reel
    else if 15 ≤ x.reel.mx || (get && (x.reel.busyV vd || (wide && x.reel.busyV (vd + 1)))) then x.wait
    else
      let row := ((x.reel.sget f.sa.toNat).setWidth 5 : BitVec 5).toNat
      let vals : Map DWord := (laneList x.active).map fun l =>
        (l, if get then t.data.findD 0 (32 * row + l) else x.reel.vread wide vd l)
      let m : TileMove := ⟨x.s.nextId, get, f.ac.toNat, row, x.active, vd, wide, vals⟩
      x.retireFrom (({ x.s with nextId := x.s.nextId + 1 }).onReel x.key fun r => { r with mx := r.mx + 1, moves := r.moves ++ [m] })

/-- ENGINE fn 5 (11 R254). -/
def execAccget (f : AccOp) (s : State) : Out := withIssuer s fun x => x.tileAccess f true
/-- ENGINE fn 6 (11 R254). -/
def execAccput (f : AccOp) (s : State) : Out := withIssuer s fun x => x.tileAccess f false

/-- The status word of a tile as a block reads it (11 R224). -/
def Core.tileStatus (c : Core) (block n : Nat) : Word :=
  match c.tile n with
  | none => 0
  | some t =>
    let bit := fun (b : Bool) (i : Nat) => if b then 2 ^ i else 0
    BitVec.ofNat 32 (min 0xFFFF (t.count.toNat / 32) * 2 ^ 16 + bit t.sat 11 + t.flags.toNat * 2 ^ 6 + bit t.colScale.isSome 5
      + bit t.rowScale.isSome 4 + bit t.bad 3 + bit (t.owner == block) 2 + t.fmt)

/-- ENGINE fn 5 with imm7[6] = 1 (11 R254). -/
def execAccgetSt (f : BArr) (s : State) : Out :=
  withIssuer s fun x =>
    if !x.cur.bundle.hints.noWide then x.illegal
    else if x.reel.busyS f.sd.toNat then x.wait
    else x.retire (x.reel.sset f.sd.toNat ((x.s.core x.coreId).tileStatus x.reel.block f.b.toNat))

/-- Writes elements of a tile that its block still holds in the width of the move (11 R230). -/
def Core.putTile (c : Core) (block : Nat) (m : TileMove) : Core :=
  match c.tileFor block m.tile with
  | some t =>
    if (t.fmt == 2) == m.wide then
      { c with ac := c.ac.put m.tile { t with data := m.data.foldl (fun d v => Map.putD 0 d (32 * m.row + v.1) v.2) t.data } }
    else c
  | none => c

/-- The data of an accget or accput has moved, and mx falls (11 R254); a reel that has exited receives nothing. -/
def execAccumulatorMoveComplete (reel move : Nat) (s : State) : Out :=
  match s.reels.find? reel with
  | none => .next s
  | some r =>
    match r.moves.find? fun m => m.id == move with
    | none => .next s
    | some m =>
      let r := { r with moves := r.moves.filter fun o => o.id != move, mx := r.mx - 1 }
      if m.get then
        .next (s.setReel reel (if r.exited then r else m.data.foldl (fun q v => q.vwrite m.wide m.reg v.1 v.2) r))
      else .next ((s.setReel reel r).onCore (coreOfKey reel) fun c => c.putTile r.block m)

/-! ## Plans -/

/-- What a moving command does (11 R248, R249): its source and destination layouts, and for a gather or scatter which of the two it is, its index
layout and the table. -/
structure EngPlan where
  src : Layout
  dst : Layout
  rows : Option (Bool × Layout)
  deriving DecidableEq, Repr

/-- A descriptor of a command, by its place in the captured list. -/
def layAt (ls : List (BitVec 256)) (i : Nat) : Layout := Layout.ofImage (ls.getD i 0)

/-- Elements `n·k` to `n·k + n − 1` of a list. -/
def rowOf (xs : List Nat) (n k : Nat) : List Nat := (xs.drop (n * k)).take n

/-- A gather or scatter's plan, none for a bad descriptor (11 R249). -/
def tablePlan (b : Block) (gather : Bool) (d t i : Layout) : Option EngPlan :=
  let sp := b.desc.spad
  if d.ok sp && t.ok sp && i.ok sp && i.space == 0 && i.esize == 2 && t.size2 == 0 && t.size3 == 0
      && d.esize == t.esize && d.planes == t.planes && d.count == i.count * (t.size0 + 1) then
    some (if gather then ⟨t, d, some (true, i)⟩ else ⟨d, t, some (false, i)⟩)
  else none

/-- The plan of a moving command with its descriptors: destination then source of `cpy`; data, table and index of the others. -/
def engPlan (b : Block) (op : EngOp) (ls : List (BitVec 256)) : Option EngPlan :=
  match op with
  | .cpy _ _ =>
    let d := layAt ls 0
    let s := layAt ls 1
    if d.ok b.desc.spad && s.ok b.desc.spad && d.sameShape s && (d.space == 0 || s.space == 0) then some ⟨s, d, none⟩ else none
  | .gath .. => tablePlan b true (layAt ls 0) (layAt ls 1) (layAt ls 2)
  | .scat .. => tablePlan b false (layAt ls 0) (layAt ls 1) (layAt ls 2)
  | _ => none

/-- The moves of a copy from piece to piece, in index order. -/
def EngPlan.moves (p : EngPlan) : List (Nat × Nat) := (p.src.pieces p.src.addrs).zip (p.dst.pieces p.dst.addrs)

/-- The moves between row `r` of the table and row `e` of the data. -/
def EngPlan.rowMoves (p : EngPlan) (gather : Bool) (e r : Nat) : List (Nat × Nat) :=
  let t := if gather then p.src else p.dst
  let d := if gather then p.dst else p.src
  let n := t.size0 + 1
  let ta := t.pieces ((List.range n).map fun i0 => t.addr i0 r 0 0)
  let da := d.pieces (rowOf d.addrs n e)
  if gather then ta.zip da else da.zip ta

/-- A command's descriptors: as captured at acceptance, else as the registers stand. -/
def EngCmd.images (c : EngCmd) (b : Block) : List (BitVec 256) := if c.accepted then c.lays else c.op.layRegs.map b.lay

/-- The sectors a command reads and those it writes (11 R252). -/
def EngCmd.footprint (c : EngCmd) (b : Block) : List (Nat × Nat) × List (Nat × Nat) :=
  match c.op with
  | .layset _ spad a => ([(if spad then 0 else 1, a / 32)], [])
  | .mstart .. => ([], [])
  | op =>
    match engPlan b op (c.images b) with
    | none => ([], [])
    | some p => (p.src.footprint ++ ((p.rows.map fun r => r.2.footprint).getD []), p.dst.footprint)

/-- Does a later command share a sector with an earlier one, at least one of them writing it (11 R252)? -/
def footConflict (e c : List (Nat × Nat) × List (Nat × Nat)) : Bool :=
  e.2.any (fun x => c.1.contains x || c.2.contains x) || e.1.any fun x => c.2.contains x

/-- May a command access its footprint: no earlier unfinished command of its block conflicts, the reel's earlier stores and loads have reached the L2,
and its earlier atomics have been performed (11 R251, R252)? -/
def State.mayRun (s : State) (core : Nat) (c : EngCmd) (b : Block) : Bool :=
  ((s.core core).cmds.all fun e =>
      e.block != c.block || c.id ≤ e.id || e.performed || !footConflict (e.footprint b) (c.footprint b))
    && (s.msgs.all fun m =>
      match m.2.body with
      | .write sid _ => m.2.arrived || c.id ≤ sid || ((s.stores.find? sid).bind (·.reel)) != some c.reel
      | .atomic sid .. | .homeAtomic sid .. | .contrib sid .. => c.id ≤ sid || ((s.stores.find? sid).bind (·.reel)) != some c.reel
      | _ => true)
    && (((s.reels.find? c.reel).map (·.loads)).getD []).all fun o => c.id ≤ o.id || !o.recs.isEmpty || o.performed

/-! ## Accesses -/

/-- Why an engine stops: a fault of a kind at an address with a walk's details, no memory at all, data still to come from outside, or a line
the host must give up first. -/
inductive EngStop where
  | fault (kind va : Nat) (x : XFault)
  | absent (pa : Nat)
  | outside
  | snoop (h : Nat) (lines : List Nat) (write : Bool)
  deriving DecidableEq, Repr

/-- The outcome of an attempt that a stop leaves for later: snoops are sent, and an address without memory stops the machine. -/
def State.waitFor (s : State) : EngStop → Out
  | .absent pa => .fault (.noSuchMemory pa)
  | .snoop h lines w => .next (s.askHost h lines w)
  | _ => .next s

/-- A fault that is no walk's. -/
def XFault.plain : XFault := ⟨0x0B, 0, 0, false, 0, none⟩

/-- The check of an engine's access (08 R162). -/
def State.engPermit (s : State) (core ctx va : Nat) (n : Needs) : Option EngStop :=
  let ans := match (s.core core).lookup ctx va with | some e => PermRead.leaf e | none => s.permRead core ctx va false
  match ans with
  | .leaf e => if e.permits n then none else some (.fault 0x0B va .plain)
  | .denied _ => some (.fault 0x0B va .plain)
  | .absent pa => some (.absent pa)

/-- The record that tells the secure core of an access through a second name (14 R281): the access itself reports its own fault. -/
def State.synonym (s : State) (core ctx va : Nat) (x : XFault) : State :=
  let f := { (s.baseRec core ctx 0 0 0).withX x with va := va, line := va / 128 * 128, state := .secure }
  { s with faults := s.faults.put s.nextId f, nextId := s.nextId + 1 }

/-- The translation an engine's access to 64-byte lines of the line at an address goes on with, checked and reachable; `halves` says which of its
two. -/
def State.engXlat (s : State) (core ctx va : Nat) (halves : BitVec 128) (n : Needs) : State × Except EngStop Xlat :=
  let d := domainOfCore core
  if 2 ^ 55 ≤ va then (s, .error (.fault 0x0B (va % 2 ^ 55) .plain))
  else
    match s.engPermit core ctx va n with
    | some e => (s, .error e)
    | none =>
      match s.translate d (granule va) with
      | (s, .fault x) => (if x.kind = 3 then s.synonym core ctx va x else s, .error (.fault 0x0B va x))
      | (s, .absent pa) => (s, .error (.absent pa))
      | (s, .busy) => (s, .error .outside)
      | (s, .ok t) =>
        if !s.exists? (t.at va) then (s, .error (.absent (t.at va)))
        else if s.reaches d (t.at va) then
          let lines := hdmHalves (t.at (va / 128 * 128)) halves
          match s.place t.pa with
          | .home h => if s.hostClear h lines n.w then (s, .ok t) else (s, .error (.snoop h lines n.w))
          | _ => (s, .ok t)
        else (s, .error (.fault 0x0B va { XFault.plain with pa := t.at va }))

/-- The whole bytes of a sector as a domain's slice and its home give them, once the home has accepted what has been forwarded to it (14 R270, 15
R307). -/
def State.engSector (s : State) (d sec : Nat) (t : Xlat) (ext : List (Nat × Nat)) : Option (BitVec 256) :=
  let x := s.sector d sec
  let pa := t.at (32 * sec)
  if x.laid.any fun l => !s.accepted l.sid (sec / 4) then none
  else match x.held, s.place pa with
    | some h, _ => some h.data
    | none, .home h => some (s.homeSector h sec pa)
    | none, _ => s.outsideSector ext pa

/-- The half of its line that a sector lies in, as a mask of the line's bytes. -/
def halfMask (sec : Nat) : BitVec 128 := BitVec.ofNat 128 (byteMask (32 * (sec % 4)) 32)

/-- Reads the sectors of a list in order, until a stop; `va` of a sector names its first byte read. -/
def State.engReadsTo (s : State) (core ctx : Nat) (ext : List (Nat × Nat)) : List (Nat × Nat) → Map (BitVec 256) →
    State × Map (BitVec 256) × Option EngStop
  | [], got => (s, got, none)
  | (sec, va) :: rest, got =>
    match s.engXlat core ctx va (halfMask sec) ⟨true, false, false⟩ with
    | (s, .error e) => (s, got, some e)
    | (s, .ok t) =>
      match s.engSector (domainOfCore core) sec t ext with
      | none => (s, got, some .outside)
      | some x => State.engReadsTo (s.countAccess (domainOfCore core) t.pa t.ac va) core ctx ext rest (got.put sec x)

/-- Reads the sectors of a list, or stops. -/
def State.engReads (s : State) (core ctx : Nat) (ext : List (Nat × Nat)) (secs : List (Nat × Nat)) (got : Map (BitVec 256)) :
    State × Except EngStop (Map (BitVec 256)) :=
  match s.engReadsTo core ctx ext secs got with
  | (s, got, none) => (s, .ok got)
  | (s, _, some e) => (s, .error e)

/-- The sectors that elements touch, in order of first touch, each with the lowest byte read in it. -/
def sectorOrder (as : List Nat) (n : Nat) : List (Nat × Nat) :=
  let secs := (as.flatMap fun a => sectorSpan a n).foldl insertNew []
  secs.map fun sec => (sec, max (32 * sec) (((as.filter fun a => (sectorSpan a n).contains sec).min?).getD 0))

/-- `n` bytes at an address out of sectors that have been read. -/
def bytesAt (got : Map (BitVec 256)) (a : Nat) : Nat → Nat
  | 0 => 0
  | n + 1 =>
    let b := ((got.findD 0 (a / 32)) >>> (8 * (a % 32))).toNat % 256
    b + 256 * bytesAt got (a + 1) n

/-- The images by line of elements written in order: the later element's bytes remain (11 R248). -/
def engImages (lanes : Word) (n : Nat) (ws : List (Nat × Nat)) : Map LineImg :=
  ws.foldl (fun m w =>
    (List.range n).foldl (fun m k =>
      let a := (w.1 + k) % 2 ^ 55
      let i := imageOf a 1 (w.2 >>> (8 * k)) lanes
      m.put i.line (match m.find? i.line with
        | some o => ⟨i.line, o.mask ||| i.mask, mergeBytes 128 o.data i.data i.mask.toNat, lanes⟩
        | none => i)) m) []

/-- The lines elements touch, in order of first touch. -/
def lineOrder (n : Nat) (ws : List (Nat × Nat)) : List Nat :=
  (ws.flatMap fun w => [w.1 / 128, (w.1 + n - 1) % 2 ^ 55 / 128]).foldl insertNew []

/-- Writes one line of an engine's store: applied at a home in its own domain, sent to another (11 R248, 14 R271). -/
def State.engLine (s : State) (core sid : Nat) (i : LineImg) (t : Xlat) : State :=
  let d := domainOfCore core
  let s := ((s.dropL1Line core i.line).noInstall core fun sec => sec / 4 = i.line).countAccess d t.pa t.ac (128 * i.line)
  if s.place t.pa = .home d then (s.serialise d (some sid) t i).setLine sid i.line .confirmed
  else (s.forward d core sid i t).send ⟨d, (s.place t.pa).dest, core, false, .homeWrite sid i t⟩

/-- Writes lines in order until one faults: the fault's image, or none. -/
def State.engWrites (s : State) (core ctx sid : Nat) (images : Map LineImg) : List Nat → State × Option (EngStop × LineImg)
  | [] => (s, none)
  | line :: rest =>
    match images.find? line with
    | none => State.engWrites s core ctx sid images rest
    | some i =>
      match s.engXlat core ctx i.lowest i.mask ⟨false, true, false⟩ with
      | (s, .error e) => (s, some (e, i))
      | (s, .ok t) =>
        let s := s.onStore sid fun o => { o with lines := o.lines.put line .sent }
        State.engWrites (s.engLine core sid i t) core ctx sid images rest

/-! ## Running a command -/

/-- What a run of a command comes to: the state its accesses leave, its stop, the line at fault, the stores it made, and how far it has come. -/
structure EngRun where
  s : State
  stop : Option EngStop
  image : Option LineImg
  sids : List Nat
  done : Nat

/-- Must a run that stops so wait with nothing done: a line is to be given up by the host or data to come? -/
def EngStop.waits : EngStop → Bool
  | .fault .. => false
  | _ => true

/-- The record of a command's store. -/
def EngCmd.store (c : EngCmd) (core : Nat) (b : Block) : OutStore where
  core := core
  origin := core
  slot := slotOfKey c.reel
  reel := none
  launch := b.launch
  block := c.block
  linear := b.linear
  ctx := b.ctx
  pc := c.pc
  inst := c.word
  lanes := c.lanes
  seq := 0
  stamp := 0
  ex := false
  attr := false
  lines := []
  acks := 0
  counted := false
  eng := true
  last := none

/-- Reads pieces of `n` bytes of a layout's space in order, until a stop: the state, the values read, and the stop. The full bits of the words read
follow the layout's action, the poisoned word that stops it among them (08 R155, 11 R249, R253). -/
def State.engSource (s : State) (core : Nat) (c : EngCmd) (b : Block) (d : Layout) (as : List Nat) (n : Nat) (ext : List (Nat × Nat)) :
    State × List Nat × Option EngStop :=
  if d.space = 0 then
    let clean := as.takeWhile fun a => (b.poisonAt [a] n).isNone
    let stop := (as.drop clean.length).head?.map fun a => EngStop.fault 0x0C ((b.poisonAt [a] n).getD a) .plain
    (s.onBlock c.block fun q => d.onReadPieces q n (as.take (clean.length + 1)), clean.map fun a => b.spadRead a n, stop)
  else
    let (s, got, stop) := s.engReadsTo core b.ctx ext (sectorOrder as n) []
    let have_ := as.takeWhile fun a => (sectorSpan a n).all fun sec => (got.find? sec).isSome
    (s, have_.map fun a => bytesAt got a n, stop)

/-- Writes pieces of `n` bytes to a layout's space in order, until a stop: the scratchpad with the full bits of the layout's action, or lines of
global memory under a store record of their own (11 R248, R253). -/
def State.engDest (s : State) (core : Nat) (c : EngCmd) (d : Layout) (n : Nat) (ws : List (Nat × Nat)) : State × Option (EngStop × LineImg) × List Nat :=
  match s.blocks.find? c.block with
  | none => (s, none, [])
  | some b =>
    if d.space = 0 then
      (s.setBlock c.block (d.onWritePieces ((ws.foldl (fun b w => b.spadWrite w.1 n w.2) b).clearWhole (ws.map (·.1)) n) n (ws.map (·.1))), none, [])
    else if ws.isEmpty then (s, none, [])
    else
      let sid := s.nextId
      let s := { s with nextId := sid + 1, stores := s.stores.put sid (c.store core b) }
      let (s, stop) := s.engWrites core b.ctx sid (engImages c.lanes n ws) (lineOrder n ws)
      (s.storeProgress sid, stop, [sid])

/-- Moves pieces in order, until a stop: a write that faults comes before a read of a later piece that does. -/
def State.engMove (s : State) (core : Nat) (c : EngCmd) (b : Block) (p : EngPlan) (ms : List (Nat × Nat)) (vals : List Nat) (ext : List (Nat × Nat)) :
    EngRun :=
  let n := p.dst.pieceBytes
  let (s, got, stop) := if vals.isEmpty then s.engSource core c b p.src (ms.map (·.1)) n ext else (s, vals, none)
  if (stop.map EngStop.waits).getD false then ⟨s, stop, none, [], 0⟩
  else
    let (s, bad, sids) := s.engDest core c p.dst n ((ms.map (·.2)).zip got)
    match bad with
    | some (e, i) => ⟨s, some e, some i, sids, 0⟩
    | none => ⟨s, stop, none, sids, ms.length⟩

/-- Bytes of a copy's stop unit, and rows of a gather's or scatter's (11 R255; log entry 31). -/
def copyChunk : Nat := 4096
/-- Rows of a stop unit. -/
def rowChunk : Nat := 32

/-- Row `e` of a gather or scatter: its index word, then its data (11 R249). -/
def State.engRow (s : State) (core : Nat) (c : EngCmd) (p : EngPlan) (gather : Bool) (i : Layout) (e ia : Nat) (ext : List (Nat × Nat)) : EngRun :=
  match s.blocks.find? c.block with
  | none => ⟨s, none, none, [], 0⟩
  | some b =>
    let t := if gather then p.src else p.dst
    let r := b.spadRead ia 4
    let s' := s.onBlock c.block fun q => i.onReadPieces q 4 [ia]
    if (b.poisonAt [ia] 4).isSome then ⟨s', some (.fault 0x0C ((b.poisonAt [ia] 4).getD ia) .plain), none, [], 0⟩
    else if t.size1 < r then ⟨s', some (.fault 0x0A ia .plain), none, [], 0⟩
    else s'.engMove core c (i.onReadPieces b 4 [ia]) p (p.rowMoves gather e r) [] ext

/-- Rows of a gather or scatter from row `e` on, each after the one before it; a row that must wait leaves those before it moved. -/
def State.engRowsFrom (s : State) (core : Nat) (c : EngCmd) (p : EngPlan) (gather : Bool) (i : Layout) (ext : List (Nat × Nat)) :
    Nat → List Nat → List Nat → EngRun
  | e, [], sids => ⟨s, none, none, sids, e⟩
  | e, ia :: rest, sids =>
    let r := s.engRow core c p gather i e ia ext
    match r.stop with
    | some x =>
      if x.waits then (if e = c.done then ⟨s, some x, none, sids, e⟩ else ⟨s, none, none, sids, e⟩)
      else ⟨r.s, some x, r.image, sids ++ r.sids, e⟩
    | none => State.engRowsFrom r.s core c p gather i ext (e + 1) rest (sids ++ r.sids)

/-- Do a copy's source and destination share a byte of the scratchpad, so that the source is read whole first (11 R248)? -/
def EngPlan.onItself (p : EngPlan) : Bool :=
  p.src.space == 0 && p.dst.space == 0 && p.src.words.any p.dst.words.contains

/-- The values of a copy's pieces that were read before its first write: none but for a copy onto itself. -/
def EngCmd.readAhead (c : EngCmd) (b : Block) (p : EngPlan) : List Nat :=
  if c.done = 0 && p.onItself && (b.poisonAt (p.moves.map (·.1)) p.src.pieceBytes).isNone then
    p.moves.map fun m => b.spadRead m.1 p.src.pieceBytes
  else c.ahead

/-- Performs the accesses of a moving command's next stop unit (11 R248, R249, R255). -/
def State.engRun (s : State) (core : Nat) (c : EngCmd) (b : Block) (ext : List (Nat × Nat)) : EngRun :=
  match engPlan b c.op (c.images b) with
  | none => ⟨s, some (.fault 0x09 0 .plain), none, [], c.done⟩
  | some p =>
    match p.rows with
    | some (gather, i) => s.engRowsFrom core c p gather i ext c.done ((i.addrs.drop c.done).take rowChunk) []
    | none =>
      let k := copyChunk / p.dst.pieceBytes
      let ahead := c.readAhead b p
      let s := if c.done = 0 && !ahead.isEmpty then s.onBlock c.block fun q => p.src.onReadPieces q p.src.pieceBytes (p.moves.map (·.1)) else s
      let r := s.engMove core c b p ((p.moves.drop c.done).take k) ((ahead.drop c.done).take k) ext
      { r with s := r.s.onCmd core c.id fun c => { c with ahead := ahead }, done := c.done + r.done }

/-- How many pieces a copy moves, or rows a gather or scatter. -/
def EngCmd.total (c : EngCmd) (b : Block) : Nat :=
  match engPlan b c.op (c.images b) with
  | none => 0
  | some p => match p.rows with | some (_, i) => i.count | none => p.moves.length

/-- Reads a layout image (11 R246): the state, and the image or a stop. -/
def State.layRun (s : State) (core : Nat) (b : Block) (spad : Bool) (a : Nat) (ext : List (Nat × Nat)) :
    State × Except EngStop (BitVec 256) :=
  if spad then
    match b.poisonAt [a] 32 with
    | some va => (s, .error (.fault 0x0C va .plain))
    | none => (s, .ok (BitVec.ofNat 256 (b.spadRead a 32)))
  else
    match s.engReads core b.ctx ext [(a / 32, a)] [] with
    | (s, .ok got) => (s, .ok (got.findD 0 (a / 32)))
    | (s, .error e) => (s, .error e)

/-- eng falls for a command's reel (04 R88). -/
def State.engFalls (s : State) (c : EngCmd) : State := s.onReel c.reel fun r => { r with eng := r.eng - 1 }

/-- Removes a command. -/
def State.dropCmd (s : State) (core cmd : Nat) : State :=
  s.onCore core fun q => { q with cmds := q.cmds.filter fun e => e.id != cmd }

/-- The engine a command goes to: copy or gather/scatter. -/
def EngOp.engine : EngOp → Nat
  | .gath .. | .scat .. => 1
  | .mstart .. => 2
  | _ => 0

/-- May a command be accepted: those of its block before it for the same engine are, no unaccepted command before it loads or uses a layout
that it uses or loads, and its engine's queue has room (11 R246, R252)? -/
def Core.mayAccept (q : Core) (c : EngCmd) : Bool :=
  (q.cmds.all fun e =>
      e.block != c.block || c.id ≤ e.id || e.accepted
        || (e.op.engine != c.op.engine
          && (match e.op with | .layset n _ _ => !c.op.layRegs.contains n | _ => true)
          && (match c.op with | .layset n _ _ => !e.op.layRegs.contains n | _ => true)))
    && (q.cmds.filter fun e => e.accepted && e.op.engine == c.op.engine).length < 32

/-- A sequencer begins a stream (11 R226, R228). -/
def Seq.begin (q : Seq) (addr : VA) (q0 : Word) : Seq := { q with mode := .running, pc := addr, q := q.q.putD 0 0 q0, wait := none, hx := none }

/-- The stream address a start names (11 R226, R247). -/
def Block.streamAt (b : Block) (off : Word) : VA := vaOf (b.desc.stream + (off.toNat - off.toNat % 4))

/-- A sequencer accepts a start: it begins an idle one, or waits as the one pending start; none when it can accept none (11 R226). -/
def Seq.accept (q : Seq) (addr : VA) (q0 : Word) : Option Seq :=
  match q.mode, q.pending with
  | .idle, _ => some (q.begin addr q0)
  | .running, none => some { q with pending := some (addr, q0) }
  | _, _ => none

/-- A command of a core, with its block. -/
def State.findCmd (s : State) (core cmd : Nat) : Option (EngCmd × Block) := do
  let c ← (s.core core).cmds.find? fun e => e.id = cmd
  let b ← s.blocks.find? c.block
  pure (c, b)

/-- A layset completes: its register is written, and eng falls at its acceptance (11 R246). -/
def State.finishLayset (s : State) (core : Nat) (c : EngCmd) (lay : Nat) (img : BitVec 256) : State :=
  let s := (s.dropCmd core c.id).onBlock c.block fun b => { b with lays := b.lays.putD 0 lay img }
  if c.accepted then s else s.engFalls c

/-- An engine or the sequencer accepts a command, and eng falls (11 R246, R247, R252); a layset is accepted once its register is written. -/
def execEngineCommandAccept (core cmd : Nat) (ext : List (Nat × Nat)) (s : State) : Out :=
  match s.findCmd core cmd with
  | none => .next s
  | some (c, b) =>
    if c.accepted || !(s.core core).mayAccept c || !s.runs c.block b then .next s
    else
      match c.op with
      | .mstart sd sa =>
        match s.reels.find? c.reel with
        | none => .next s
        | some r =>
          match b.seq.accept (b.streamAt (r.sget sa)) (r.sget sd) with
          | none => .next s
          | some q => .next (((s.dropCmd core cmd).engFalls c).onBlock c.block fun b => { b with seq := q })
      | .layset lay spad a =>
        if !s.mayRun core c b then .next s
        else
          match s.layRun core b spad a ext with
          | (s', .ok img) => .next (s'.finishLayset core c lay img)
          | (_, .error e) => s.waitFor e
      | op =>
        let s := if op.publishes b then s.setPublished c.block else s
        .next ((s.engFalls c).onCmd core cmd fun c => { c with accepted := true, lays := op.layRegs.map b.lay })

/-- Has a command's release been made (11 R250, 15 R299)? -/
def State.cmdReleased (s : State) (c : EngCmd) : Bool :=
  let all := c.stores ++ c.inherited
  if c.scope = 0 then true else if c.scope = 1 then all.all s.storeSettled else all.all s.storeGone

/-- A command that is performed and released raises its semaphore and is gone (11 R250). -/
def State.finishCmd (s : State) (core cmd : Nat) : State :=
  match (s.core core).cmds.find? fun e => e.id = cmd with
  | none => s
  | some c =>
    if c.performed && c.record.isNone && s.cmdReleased c then
      let carry := (c.stores ++ c.inherited).filter fun i => !s.storeGone i
      (s.dropCmd core cmd).semUpdate c.block c.sem (· + BitVec.ofNat 32 c.inc) carry
    else s

/-- A performed command of a saved block raises its semaphore in the saved image once it is released (11 R255, 19 R359). -/
def State.finishSaved (s : State) (cmd : Nat) : State :=
  match (s.saved.findSome? fun v => v.cmds.find? fun e => e.id == cmd) with
  | none => s
  | some c =>
    if c.performed && c.record.isNone && s.cmdReleased c then
      let carry := (c.stores ++ c.inherited).filter fun i => !s.storeGone i
      let saved := s.saved.map fun v : Saved => ({ v with cmds := v.cmds.filter fun e => e.id != cmd } : Saved)
      ({ s with saved } : State).semUpdate c.block c.sem (· + BitVec.ofNat 32 c.inc) carry
    else s

/-- The words that a copy or a gather has written whole lose their poison; those of a scatter have lost it row by row (11 R253; log entry 91). -/
def Block.clearCopied (b : Block) (c : EngCmd) : Block :=
  match engPlan b c.op (c.images b) with
  | some ⟨_, _, some (false, _)⟩ | none => b
  | some p => if p.dst.space = 0 then b.clearWhole p.dst.addrs p.dst.elemBytes else b

/-- An engine performs a command's accesses, a stop unit at a time, and, once they are all made and it is released at its scope, adds to its semaphore
(11 R248 to R250, R255); that of a command whose block has been saved since is applied to the saved image. -/
def execEngineCommandComplete (core cmd : Nat) (ext : List (Nat × Nat)) (s : State) : Out :=
  match s.findCmd core cmd with
  | none => .next (s.finishSaved cmd)
  | some (c, b) =>
    if !c.accepted || c.record.isSome || !s.runs c.block b then .next s
    else if c.performed then .next (s.finishCmd core cmd)
    else if !s.mayRun core c b then .next s
    else
      match c.op with
      | .layset lay spad a =>
        match s.layRun core b spad a ext with
        | (s', .ok img) => .next (s'.finishLayset core c lay img)
        | (_, .error e) => s.waitFor e
      | _ =>
        let r := s.engRun core c b ext
        match r.stop with
        | none =>
          let s := r.s.onCmd core cmd fun q =>
            { q with performed := decide (c.total b ≤ r.done), done := r.done, stores := q.stores ++ r.sids }
          let s := if c.total b ≤ r.done then s.onBlock c.block fun q => q.clearCopied c else s
          .next (s.finishCmd core cmd)
        | some e => s.waitFor e

/-- Marks every word of a command's scratchpad destination poisoned (11 R253). -/
def Block.poisonDst (b : Block) (c : EngCmd) : Block :=
  match engPlan b c.op (c.images b) with
  | some p => if p.dst.space = 0 then { b with poison := p.dst.words.foldl (fun m w => m.putD false w true) b.poison } else b
  | none => b

/-- The record of a command's fault at an address (11 R253, 14 R285, R395). -/
def State.engFaultRec (s : State) (core : Nat) (c : EngCmd) (b : Block) (kind va : Nat) (x : XFault) (i : Option LineImg) : FaultRec :=
  let f := s.cmdRec core c (s.blankRec b c.block)
  { f.withX x with
    kind := kind, va := va, line := if kind = 0x0B then va / 128 * 128 else 0
    bmask := ((i.map (·.mask)).getD 0)
    image := ((i.map fun i => BitVec.ofNat 1024 (i.data.toNat &&& expandMask 128 i.mask.toNat)).getD 0) }

/-- A command's access, index or poisoned read faults (11 R246, R249, R253): it performs no more, its scratchpad destination is poisoned, and
a record is raised that holds no reel; a layset leaves its register all zeros. -/
def execEngineFault (core cmd : Nat) (ext : List (Nat × Nat)) (s : State) : Out :=
  match s.findCmd core cmd with
  | none => .next s
  | some (c, b) =>
    if c.record.isSome || c.performed || !s.mayRun core c b || !s.runs c.block b then .next s
    else
      match c.op with
      | .mstart .. => .next s
      | .layset lay spad a =>
        if !c.accepted && !(s.core core).mayAccept c then .next s
        else
          match s.layRun core b spad a ext with
          | (s, .error (.fault kind va x)) =>
            let s := s.onBlock c.block fun b => { b with lays := b.lays.putD 0 lay 0 }
            let s := if c.accepted then s else (s.engFalls c).onCmd core cmd fun c => { c with accepted := true }
            .next (s.raiseCmd core cmd (s.engFaultRec core c b kind va x none))
          | (_, .error e) => s.waitFor e
          | _ => .next s
      | _ =>
        if !c.accepted then .next s
        else
          let r := s.engRun core c b ext
          match r.stop with
          | some (.fault kind va x) =>
            let s := if kind = 0x09 then r.s else r.s.onBlock c.block fun q => q.poisonDst c
            let s := s.onCmd core cmd fun q => { q with done := r.done, stores := q.stores ++ r.sids }
            .next (s.raiseCmd core cmd (s.engFaultRec core c b kind va x r.image))
          | some e => s.waitFor e
          | none => .next s

end Sys2Proof.Machine
end

