-- ==== Sys2Proof/Machine/Device.lean ====
section
/-! DEFINITION. Reads and writes of memory by the device's own agents, through a context's tables or by physical address (11 R232, 14 R279,
19 R339, R342). -/

namespace Sys2Proof.Machine

/-- The lowest domain of a partition that is up: its translations serve the wafer's own agents. -/
def State.domOfPart (s : State) (part : Nat) : Nat :=
  ((List.range Config.domainCount).find? fun d => (s.domain d).part == part && !(s.domain d).fenced && !(s.domain d).regFailed).getD 0

/-- A core number of a domain, for the permission and translation of an agent that is no core. -/
def agentCore (d : Nat) : Nat := d * Config.coresPerDomain

/-- Reads `n` bytes at an address through a context's tables. -/
def State.deviceRead (s : State) (core ctx va n : Nat) (ext : List (Nat × Nat)) : State × Except EngStop Nat :=
  match s.engReads core ctx ext (sectorOrder [va] n) [] with
  | (s, .ok got) => (s, .ok (bytesAt got va n))
  | (s, .error e) => (s, .error e)

/-- Reads `n` bytes at each of several addresses, until a stop. -/
def State.deviceReads (s : State) (core ctx n : Nat) (ext : List (Nat × Nat)) : List Nat → State × Except EngStop (List Nat)
  | [] => (s, .ok [])
  | va :: rest =>
    match s.deviceRead core ctx va n ext with
    | (s, .error e) => (s, .error e)
    | (s, .ok v) =>
      match State.deviceReads s core ctx n ext rest with
      | (s, .ok vs) => (s, .ok (v :: vs))
      | (s, .error e) => (s, .error e)

/-- The images by line of `n` bytes from an address. -/
def deviceImages (va n x : Nat) : Map LineImg := engImages 0 1 ((List.range n).map fun k => (va + k, x >>> (8 * k)))

/-- Writes one line of a device's agent: serialised at its home at once, or sent to its home when the host or another agent has it first. No
store of a reel stands behind it: its identity is 0. -/
def State.deviceLine (s : State) (core : Nat) (i : LineImg) (t : Xlat) : State :=
  let msg : Msg := ⟨domainOfCore core, (s.place t.pa).dest, core, false, .homeWrite 0 i t⟩
  match s.place t.pa with
  | .home h => if s.hostClear h (hdmHalves (t.at (128 * i.line)) i.mask) true then s.serialise h none t i else s.send msg
  | _ => s.send msg

/-- Writes lines through a context's tables, until a check or a translation fails. -/
def State.deviceLines (s : State) (core ctx : Nat) : List LineImg → Except EngStop State
  | [] => .ok s
  | i :: rest =>
    match s.engXlat core ctx i.lowest i.mask ⟨false, true, false⟩ with
    | (s, .ok t) => State.deviceLines (s.deviceLine core i t) core ctx rest
    | (s, .error (.snoop h lines _)) =>
      match s.translate (domainOfCore core) (granule i.lowest) with
      | (s, .ok t) => State.deviceLines ((s.askHost h lines true).deviceLine core i t) core ctx rest
      | (_, _) => .error .outside
    | (_, .error e) => .error e

/-- Writes `n` bytes at an address through a context's tables; a stop where a check or a translation fails. -/
def State.deviceWrite (s : State) (core ctx va n x : Nat) : Except EngStop State :=
  s.deviceLines core ctx ((deviceImages va n x).map (·.2))

/-- Is a message a write of the wafer's own agents, which stand for no core? -/
def Body.ofAgent : Body → Bool
  | .homeWrite sid _ _ => sid == 0
  | _ => false

end Sys2Proof.Machine
end

