-- ==== Sys2Proof/Decode.lean ====
section
/-! DEFINITION. Decoding an instruction word by its major and fn (02 R25, R28), rejecting every other word by name (02 R30), and the
encoder of the same tables. -/

namespace Sys2Proof

/-- Why a word is not an instruction (02 R30). -/
inductive DecodeError where
  /-- Bits [31:26] are 0. -/
  | voidWord
  /-- A major that stands in no table. -/
  | unassignedMajor
  /-- A dash of the grid: an fn, op or condition without an instruction. -/
  | unassignedFn
  /-- A field that the instruction marks 0 is not. -/
  | unusedFieldNotZero
  /-- A hint word, which binds to an instruction and is none. -/
  | hintWord
  deriving DecidableEq, Repr

/-- Bits [lo + n - 1 : lo] of a word. -/
abbrev fieldAt (w : Word) (lo n : Nat) : BitVec n := w.extractLsb' lo n

/-- The fields of V3 in a word. -/
def V3.ofWord (w : Word) : V3 :=
  ⟨fieldAt w 21 1, fieldAt w 14 7, fieldAt w 7 7, fieldAt w 0 7⟩

/-- The fields of V2 in a word. -/
def V2.ofWord (w : Word) : V2 :=
  ⟨fieldAt w 14 7, fieldAt w 7 7⟩

/-- The fields of I9 in a word. -/
def I9.ofWord (w : Word) : I9 :=
  ⟨fieldAt w 16 7, fieldAt w 9 7, fieldAt w 0 9⟩

/-- The fields of ISh in a word. -/
def ISh.ofWord (w : Word) : ISh :=
  ⟨fieldAt w 16 7, fieldAt w 9 7, fieldAt w 0 5⟩

/-- The fields of IMov in a word. -/
def IMov.ofWord (w : Word) : IMov :=
  ⟨fieldAt w 16 7, fieldAt w 0 9⟩

/-- The fields of CmpOp in a word. -/
def CmpOp.ofWord (w : Word) : CmpOp :=
  ⟨fieldAt w 22 4, fieldAt w 20 2, fieldAt w 17 3, fieldAt w 16 1, fieldAt w 14 2, fieldAt w 7 7, fieldAt w 0 7⟩

/-- The fields of SelOp in a word. -/
def SelOp.ofWord (w : Word) : SelOp :=
  ⟨fieldAt w 21 3, fieldAt w 14 7, fieldAt w 7 7, fieldAt w 0 7⟩

/-- The fields of L3 in a word. -/
def L3.ofWord (w : Word) : L3 :=
  ⟨fieldAt w 14 7, fieldAt w 7 7, fieldAt w 0 7⟩

/-- The fields of KPre in a word. -/
def KPre.ofWord (w : Word) : KPre :=
  ⟨fieldAt w 21 3, fieldAt w 14 7⟩

/-- The fields of Ballot in a word. -/
def Ballot.ofWord (w : Word) : Ballot :=
  ⟨fieldAt w 14 3, fieldAt w 7 7⟩

/-- The fields of LrdI in a word. -/
def LrdI.ofWord (w : Word) : LrdI :=
  ⟨fieldAt w 14 6, fieldAt w 7 7, fieldAt w 0 5⟩

/-- The fields of LrdS in a word. -/
def LrdS.ofWord (w : Word) : LrdS :=
  ⟨fieldAt w 14 6, fieldAt w 7 7, fieldAt w 0 6⟩

/-- The fields of K3 in a word. -/
def K3.ofWord (w : Word) : K3 :=
  ⟨fieldAt w 14 3, fieldAt w 7 3, fieldAt w 0 3⟩

/-- The fields of K2 in a word. -/
def K2.ofWord (w : Word) : K2 :=
  ⟨fieldAt w 14 3, fieldAt w 7 3⟩

/-- The fields of KS in a word. -/
def KS.ofWord (w : Word) : KS :=
  ⟨fieldAt w 14 3, fieldAt w 7 6⟩

/-- The fields of SK in a word. -/
def SK.ofWord (w : Word) : SK :=
  ⟨fieldAt w 14 6, fieldAt w 7 3⟩

/-- The fields of CvtOp in a word. -/
def CvtOp.ofWord (w : Word) : CvtOp :=
  ⟨fieldAt w 14 7, fieldAt w 7 7, fieldAt w 4 3, fieldAt w 0 4⟩

/-- The fields of U3 in a word. -/
def U3.ofWord (w : Word) : U3 :=
  ⟨fieldAt w 16 6, fieldAt w 10 6, fieldAt w 0 6⟩

/-- The fields of UI in a word. -/
def UI.ofWord (w : Word) : UI :=
  ⟨fieldAt w 16 6, fieldAt w 10 6, fieldAt w 0 9⟩

/-- The fields of U2 in a word. -/
def U2.ofWord (w : Word) : U2 :=
  ⟨fieldAt w 16 6, fieldAt w 10 6⟩

/-- The fields of UMovI in a word. -/
def UMovI.ofWord (w : Word) : UMovI :=
  ⟨fieldAt w 16 6, fieldAt w 0 9⟩

/-- The fields of UCmp in a word. -/
def UCmp.ofWord (w : Word) : UCmp :=
  ⟨fieldAt w 16 6, fieldAt w 10 6, fieldAt w 6 3, fieldAt w 0 6⟩

/-- The fields of RdV in a word. -/
def RdV.ofWord (w : Word) : RdV :=
  ⟨fieldAt w 14 7, fieldAt w 0 7⟩

/-- The fields of RdS in a word. -/
def RdS.ofWord (w : Word) : RdS :=
  ⟨fieldAt w 14 6, fieldAt w 0 7⟩

/-- The fields of WrS in a word. -/
def WrS.ofWord (w : Word) : WrS :=
  ⟨fieldAt w 7 6, fieldAt w 0 7⟩

/-- The fields of VS in a word. -/
def VS.ofWord (w : Word) : VS :=
  ⟨fieldAt w 14 7, fieldAt w 7 6⟩

/-- The fields of SV in a word. -/
def SV.ofWord (w : Word) : SV :=
  ⟨fieldAt w 14 6, fieldAt w 7 7⟩

/-- The fields of MOp in a word. -/
def MOp.ofWord (w : Word) : MOp :=
  ⟨fieldAt w 15 7, fieldAt w 10 5, fieldAt w 3 7, fieldAt w 0 3⟩

/-- The fields of LdU in a word. -/
def LdU.ofWord (w : Word) : LdU :=
  ⟨fieldAt w 15 6, fieldAt w 10 5⟩

/-- The fields of AOp in a word. -/
def AOp.ofWord (w : Word) : AOp :=
  ⟨fieldAt w 20 2, fieldAt w 18 2, fieldAt w 17 1, fieldAt w 16 1, fieldAt w 7 7, fieldAt w 0 7⟩

/-- The fields of AOpW in a word. -/
def AOpW.ofWord (w : Word) : AOpW :=
  ⟨fieldAt w 20 2, fieldAt w 18 2, fieldAt w 17 1, fieldAt w 7 7, fieldAt w 0 7⟩

/-- The fields of AOpX in a word. -/
def AOpX.ofWord (w : Word) : AOpX :=
  ⟨fieldAt w 20 2, fieldAt w 18 2, fieldAt w 7 7, fieldAt w 0 7⟩

/-- The fields of AOpS in a word. -/
def AOpS.ofWord (w : Word) : AOpS :=
  ⟨fieldAt w 20 2, fieldAt w 17 1, fieldAt w 16 1, fieldAt w 7 7, fieldAt w 0 7⟩

/-- The fields of FenceOp in a word. -/
def FenceOp.ofWord (w : Word) : FenceOp :=
  ⟨fieldAt w 2 2, fieldAt w 0 2⟩

/-- The fields of WaitOp in a word. -/
def WaitOp.ofWord (w : Word) : WaitOp :=
  ⟨fieldAt w 20 6, fieldAt w 14 6, fieldAt w 10 4, fieldAt w 6 4⟩

/-- The fields of BInit in a word. -/
def BInit.ofWord (w : Word) : BInit :=
  ⟨fieldAt w 14 7, fieldAt w 0 4⟩

/-- The fields of BArr in a word. -/
def BArr.ofWord (w : Word) : BArr :=
  ⟨fieldAt w 14 6, fieldAt w 0 4⟩

/-- The fields of BWaitOp in a word. -/
def BWaitOp.ofWord (w : Word) : BWaitOp :=
  ⟨fieldAt w 14 6, fieldAt w 7 6, fieldAt w 0 4⟩

/-- The fields of BNum in a word. -/
def BNum.ofWord (w : Word) : BNum :=
  ⟨fieldAt w 0 4⟩

/-- The fields of SemSet in a word. -/
def SemSet.ofWord (w : Word) : SemSet :=
  ⟨fieldAt w 7 6, fieldAt w 0 5⟩

/-- The fields of SemOp in a word. -/
def SemOp.ofWord (w : Word) : SemOp :=
  ⟨fieldAt w 7 6, fieldAt w 5 2, fieldAt w 0 5⟩

/-- The fields of WatchOp in a word. -/
def WatchOp.ofWord (w : Word) : WatchOp :=
  ⟨fieldAt w 14 6, fieldAt w 7 6, fieldAt w 0 1⟩

/-- The fields of S2 in a word. -/
def S2.ofWord (w : Word) : S2 :=
  ⟨fieldAt w 14 6, fieldAt w 7 6⟩

/-- The fields of WNum in a word. -/
def WNum.ofWord (w : Word) : WNum :=
  ⟨fieldAt w 0 1⟩

/-- The fields of SLoopOp in a word. -/
def SLoopOp.ofWord (w : Word) : SLoopOp :=
  ⟨fieldAt w 14 6, fieldAt w 7 6, fieldAt w 0 7⟩

/-- The fields of SD in a word. -/
def SD.ofWord (w : Word) : SD :=
  ⟨fieldAt w 14 6⟩

/-- The fields of StOp in a word. -/
def StOp.ofWord (w : Word) : StOp :=
  ⟨fieldAt w 7 6, fieldAt w 0 7⟩

/-- The fields of SPostOp in a word. -/
def SPostOp.ofWord (w : Word) : SPostOp :=
  ⟨fieldAt w 7 6, fieldAt w 0 2⟩

/-- The fields of WaitMOp in a word. -/
def WaitMOp.ofWord (w : Word) : WaitMOp :=
  ⟨fieldAt w 14 6, fieldAt w 7 6, fieldAt w 2 1, fieldAt w 0 2⟩

/-- The fields of LayOp in a word. -/
def LayOp.ofWord (w : Word) : LayOp :=
  ⟨fieldAt w 14 6, fieldAt w 7 6⟩

/-- The fields of CpyOp in a word. -/
def CpyOp.ofWord (w : Word) : CpyOp :=
  ⟨fieldAt w 14 6, fieldAt w 7 6, fieldAt w 5 2, fieldAt w 0 5⟩

/-- The fields of AccOp in a word. -/
def AccOp.ofWord (w : Word) : AccOp :=
  ⟨fieldAt w 14 7, fieldAt w 7 6, fieldAt w 0 4⟩

/-- The fields of BrU in a word. -/
def BrU.ofWord (w : Word) : BrU :=
  ⟨fieldAt w 0 20⟩

/-- The fields of BrK in a word. -/
def BrK.ofWord (w : Word) : BrK :=
  ⟨fieldAt w 20 3, fieldAt w 0 20⟩

/-- The fields of SA in a word. -/
def SA.ofWord (w : Word) : SA :=
  ⟨fieldAt w 7 6⟩

/-- The fields of TrapN in a word. -/
def TrapN.ofWord (w : Word) : TrapN :=
  ⟨fieldAt w 0 7⟩

/-- The fields of HOp in a word. -/
def HOp.ofWord (w : Word) : HOp :=
  ⟨fieldAt w 14 7, fieldAt w 7 6, fieldAt w 0 7⟩

/-- The fields of HlOp in a word. -/
def HlOp.ofWord (w : Word) : HlOp :=
  ⟨fieldAt w 14 7, fieldAt w 7 6⟩

/-- The fields of LaunchOp in a word. -/
def LaunchOp.ofWord (w : Word) : LaunchOp :=
  ⟨fieldAt w 14 6, fieldAt w 7 6, fieldAt w 0 2⟩

/-- The fields of ClaimOp in a word. -/
def ClaimOp.ofWord (w : Word) : ClaimOp :=
  ⟨fieldAt w 21 1, fieldAt w 16 5, fieldAt w 11 5⟩

/-- The fields of MLoadOp in a word. -/
def MLoadOp.ofWord (w : Word) : MLoadOp :=
  ⟨fieldAt w 17 5, fieldAt w 11 6, fieldAt w 8 3, fieldAt w 7 1, fieldAt w 6 1, fieldAt w 2 4⟩

/-- The fields of MLoadpOp in a word. -/
def MLoadpOp.ofWord (w : Word) : MLoadpOp :=
  ⟨fieldAt w 17 5, fieldAt w 11 6, fieldAt w 10 1, fieldAt w 6 4⟩

/-- The fields of MTaddOp in a word. -/
def MTaddOp.ofWord (w : Word) : MTaddOp :=
  ⟨fieldAt w 18 4, fieldAt w 12 6, fieldAt w 10 2, fieldAt w 9 1, fieldAt w 5 4⟩

/-- The fields of MmaOp in a word. -/
def MmaOp.ofWord (w : Word) : MmaOp :=
  ⟨fieldAt w 18 4, fieldAt w 13 5, fieldAt w 8 5, fieldAt w 5 3⟩

/-- The fields of MmasOp in a word. -/
def MmasOp.ofWord (w : Word) : MmasOp :=
  ⟨fieldAt w 18 4, fieldAt w 13 5, fieldAt w 8 5, fieldAt w 3 5, fieldAt w 2 1, fieldAt w 0 2⟩

/-- The fields of MmapOp in a word. -/
def MmapOp.ofWord (w : Word) : MmapOp :=
  ⟨fieldAt w 18 4, fieldAt w 13 5, fieldAt w 8 5⟩

/-- The fields of MZeroOp in a word. -/
def MZeroOp.ofWord (w : Word) : MZeroOp :=
  ⟨fieldAt w 18 4, fieldAt w 16 2⟩

/-- The fields of MScaleOp in a word. -/
def MScaleOp.ofWord (w : Word) : MScaleOp :=
  ⟨fieldAt w 18 4, fieldAt w 12 6, fieldAt w 11 1, fieldAt w 8 3, fieldAt w 4 4⟩

/-- The fields of MStoreOp in a word. -/
def MStoreOp.ofWord (w : Word) : MStoreOp :=
  ⟨fieldAt w 18 4, fieldAt w 12 6, fieldAt w 9 3, fieldAt w 6 3, fieldAt w 5 1, fieldAt w 1 4⟩

/-- The fields of MBarS in a word. -/
def MBarS.ofWord (w : Word) : MBarS :=
  ⟨fieldAt w 16 4⟩

/-- The fields of MBarQ in a word. -/
def MBarQ.ofWord (w : Word) : MBarQ :=
  ⟨fieldAt w 16 4, fieldAt w 12 4⟩

/-- The fields of MSetOp in a word. -/
def MSetOp.ofWord (w : Word) : MSetOp :=
  ⟨fieldAt w 18 4, fieldAt w 0 16⟩

/-- The fields of MAddOp in a word. -/
def MAddOp.ofWord (w : Word) : MAddOp :=
  ⟨fieldAt w 18 4, fieldAt w 14 4, fieldAt w 0 14⟩

/-- The fields of MLoopOp in a word. -/
def MLoopOp.ofWord (w : Word) : MLoopOp :=
  ⟨fieldAt w 18 4, fieldAt w 0 18⟩

/-- The fields of MBraOp in a word. -/
def MBraOp.ofWord (w : Word) : MBraOp :=
  ⟨fieldAt w 0 16⟩

/-- The fields of MBraQ in a word. -/
def MBraQ.ofWord (w : Word) : MBraQ :=
  ⟨fieldAt w 18 4, fieldAt w 0 16⟩

-- Lean's runtime gives no object tag to a constructor with fields past the 245th, so the functions that build an `Instr` have no compiled code.
noncomputable section

/-- Major 0x01, INT-A (R105 on). -/
def decIntA (w : Word) : Except DecodeError Instr :=
  match (fieldAt w 22 4).toNat with
  | 0 => .ok (.iadd (.ofWord w))
  | 1 => .ok (.isub (.ofWord w))
  | 2 => .ok (.imul (.ofWord w))
  | 3 => .ok (.imulhI (.ofWord w))
  | 4 => .ok (.imulhZ (.ofWord w))
  | 5 => .ok (.iminI (.ofWord w))
  | 6 => .ok (.imaxI (.ofWord w))
  | 7 => .ok (.iminZ (.ofWord w))
  | 8 => .ok (.imaxZ (.ofWord w))
  | 9 => if fieldAt w 0 7 = 0 ∧ fieldAt w 21 1 = 0 then .ok (.iabs (.ofWord w))
    else .error .unusedFieldNotZero
  | 10 => .ok (.iaddSatI (.ofWord w))
  | 11 => .ok (.isubSatI (.ofWord w))
  | 12 => .ok (.iadd64 (.ofWord w))
  | 13 => .ok (.isub64 (.ofWord w))
  | 14 => .ok (.imulWideI (.ofWord w))
  | 15 => .ok (.imulWideZ (.ofWord w))
  | _ => .error .unassignedFn

/-- Major 0x02, INT-B (R107 on). -/
def decIntB (w : Word) : Except DecodeError Instr :=
  match (fieldAt w 22 4).toNat with
  | 0 => .ok (.and (.ofWord w))
  | 1 => .ok (.or (.ofWord w))
  | 2 => .ok (.xor (.ofWord w))
  | 3 => .ok (.andn (.ofWord w))
  | 4 => .ok (.shl (.ofWord w))
  | 5 => .ok (.shr (.ofWord w))
  | 6 => .ok (.sar (.ofWord w))
  | 7 => .ok (.rotl (.ofWord w))
  | 8 => .ok (.shl64 (.ofWord w))
  | 9 => .ok (.shr64 (.ofWord w))
  | 10 => if fieldAt w 0 7 = 0 ∧ fieldAt w 21 1 = 0 then .ok (.popc (.ofWord w))
    else .error .unusedFieldNotZero
  | 11 => if fieldAt w 0 7 = 0 ∧ fieldAt w 21 1 = 0 then .ok (.clz (.ofWord w))
    else .error .unusedFieldNotZero
  | 12 => if fieldAt w 0 7 = 0 ∧ fieldAt w 21 1 = 0 then .ok (.brev (.ofWord w))
    else .error .unusedFieldNotZero
  | 13 => .ok (.bfxZ (.ofWord w))
  | 14 => .ok (.bfxI (.ofWord w))
  | 15 => .ok (.bfi (.ofWord w))
  | _ => .error .unassignedFn

/-- Major 0x03, INT-I (R109 on). -/
def decIntI (w : Word) : Except DecodeError Instr :=
  match (fieldAt w 23 3).toNat with
  | 0 => .ok (.iaddi (.ofWord w))
  | 1 => .ok (.andi (.ofWord w))
  | 2 => .ok (.ori (.ofWord w))
  | 3 => .ok (.xori (.ofWord w))
  | 4 => if fieldAt w 5 4 = 0 then .ok (.shli (.ofWord w))
    else .error .unusedFieldNotZero
  | 5 => if fieldAt w 5 4 = 0 then .ok (.shri (.ofWord w))
    else .error .unusedFieldNotZero
  | 6 => if fieldAt w 5 4 = 0 then .ok (.sari (.ofWord w))
    else .error .unusedFieldNotZero
  | 7 => if fieldAt w 9 7 = 0 then .ok (.movi (.ofWord w))
    else .error .unusedFieldNotZero
  | _ => .error .unassignedFn

/-- Major 0x04, CMP (R110 on). -/
def decCmp (w : Word) : Except DecodeError Instr :=
  .ok (.cmp (.ofWord w))

/-- Major 0x05, SEL (R113 on). -/
def decSel (w : Word) : Except DecodeError Instr :=
  match (fieldAt w 24 2).toNat with
  | 0 => .ok (.sel (.ofWord w))
  | 1 => if fieldAt w 0 7 = 0 ∧ fieldAt w 21 3 = 0 then .ok (.mov (.ofWord w))
    else .error .unusedFieldNotZero
  | _ => .error .unassignedFn

/-- Major 0x06, LANE (R114 on). -/
def decLane (w : Word) : Except DecodeError Instr :=
  match (fieldAt w 24 2).toNat with
  | 0 => if fieldAt w 21 3 = 0 then .ok (.shflIdx (.ofWord w))
    else if fieldAt w 21 3 = 1 then .ok (.shflUp (.ofWord w))
    else if fieldAt w 21 3 = 2 then .ok (.shflDown (.ofWord w))
    else if fieldAt w 21 3 = 3 then .ok (.shflXor (.ofWord w))
    else .error .unusedFieldNotZero
  | 1 => if fieldAt w 0 14 = 0 then .ok (.kprefix (.ofWord w))
    else .error .unusedFieldNotZero
  | 2 => if fieldAt w 0 7 = 0 ∧ fieldAt w 17 7 = 0 then .ok (.ballot (.ofWord w))
    else .error .unusedFieldNotZero
  | 3 => if fieldAt w 5 2 = 0 ∧ fieldAt w 20 4 = 0 then .ok (.lrd (.ofWord w))
    else if fieldAt w 6 1 = 1 ∧ fieldAt w 20 4 = 0 then .ok (.lrdS (.ofWord w))
    else .error .unusedFieldNotZero
  | _ => .error .unassignedFn

/-- Major 0x07, KOPS (R118 on). -/
def decKops (w : Word) : Except DecodeError Instr :=
  match (fieldAt w 21 5).toNat with
  | 0 => if fieldAt w 3 4 = 0 ∧ fieldAt w 10 4 = 0 ∧ fieldAt w 17 4 = 0 then .ok (.kand (.ofWord w))
    else .error .unusedFieldNotZero
  | 1 => if fieldAt w 3 4 = 0 ∧ fieldAt w 10 4 = 0 ∧ fieldAt w 17 4 = 0 then .ok (.kor (.ofWord w))
    else .error .unusedFieldNotZero
  | 2 => if fieldAt w 3 4 = 0 ∧ fieldAt w 10 4 = 0 ∧ fieldAt w 17 4 = 0 then .ok (.kxor (.ofWord w))
    else .error .unusedFieldNotZero
  | 3 => if fieldAt w 0 7 = 0 ∧ fieldAt w 10 4 = 0 ∧ fieldAt w 17 4 = 0 then .ok (.knot (.ofWord w))
    else .error .unusedFieldNotZero
  | 4 => if fieldAt w 0 7 = 0 ∧ fieldAt w 13 1 = 0 ∧ fieldAt w 17 4 = 0 then .ok (.kmovKs (.ofWord w))
    else .error .unusedFieldNotZero
  | 5 => if fieldAt w 0 7 = 0 ∧ fieldAt w 10 4 = 0 ∧ fieldAt w 20 1 = 0 then .ok (.kmovSk (.ofWord w))
    else .error .unusedFieldNotZero
  | 6 => if fieldAt w 0 7 = 0 ∧ fieldAt w 10 4 = 0 ∧ fieldAt w 20 1 = 0 then .ok (.kpopc (.ofWord w))
    else .error .unusedFieldNotZero
  | 7 => if fieldAt w 0 7 = 0 ∧ fieldAt w 10 4 = 0 ∧ fieldAt w 20 1 = 0 then .ok (.kffs (.ofWord w))
    else .error .unusedFieldNotZero
  | _ => .error .unassignedFn

/-- Major 0x08, F32 (R123 on). -/
def decF32 (w : Word) : Except DecodeError Instr :=
  match (fieldAt w 22 4).toNat with
  | 0 => .ok (.faddF32 (.ofWord w))
  | 1 => .ok (.fsubF32 (.ofWord w))
  | 2 => .ok (.fmulF32 (.ofWord w))
  | 3 => .ok (.ffmaF32 (.ofWord w))
  | 4 => .ok (.ffmsF32 (.ofWord w))
  | 5 => .ok (.fnmaF32 (.ofWord w))
  | 6 => .ok (.fminF32 (.ofWord w))
  | 7 => .ok (.fmaxF32 (.ofWord w))
  | 8 => if fieldAt w 0 7 = 0 ∧ fieldAt w 21 1 = 0 then .ok (.fabsF32 (.ofWord w))
    else .error .unusedFieldNotZero
  | 9 => if fieldAt w 0 7 = 0 ∧ fieldAt w 21 1 = 0 then .ok (.fnegF32 (.ofWord w))
    else .error .unusedFieldNotZero
  | 10 => .ok (.fcsgnF32 (.ofWord w))
  | _ => .error .unassignedFn

/-- Major 0x09, F64 (R123 on). -/
def decF64 (w : Word) : Except DecodeError Instr :=
  match (fieldAt w 22 4).toNat with
  | 0 => .ok (.faddF64 (.ofWord w))
  | 1 => .ok (.fsubF64 (.ofWord w))
  | 2 => .ok (.fmulF64 (.ofWord w))
  | 3 => .ok (.ffmaF64 (.ofWord w))
  | 4 => .ok (.ffmsF64 (.ofWord w))
  | 5 => .ok (.fnmaF64 (.ofWord w))
  | 6 => .ok (.fminF64 (.ofWord w))
  | 7 => .ok (.fmaxF64 (.ofWord w))
  | 8 => if fieldAt w 0 7 = 0 ∧ fieldAt w 21 1 = 0 then .ok (.fabsF64 (.ofWord w))
    else .error .unusedFieldNotZero
  | 9 => if fieldAt w 0 7 = 0 ∧ fieldAt w 21 1 = 0 then .ok (.fnegF64 (.ofWord w))
    else .error .unusedFieldNotZero
  | 10 => .ok (.fcsgnF64 (.ofWord w))
  | _ => .error .unassignedFn

/-- Major 0x0A, F16X2 (R127 on). -/
def decF16x2 (w : Word) : Except DecodeError Instr :=
  match (fieldAt w 22 4).toNat with
  | 0 => .ok (.haddF16 (.ofWord w))
  | 1 => .ok (.hmulF16 (.ofWord w))
  | 2 => .ok (.hfmaF16 (.ofWord w))
  | 3 => .ok (.hminF16 (.ofWord w))
  | 4 => .ok (.hmaxF16 (.ofWord w))
  | 8 => .ok (.haddBf16 (.ofWord w))
  | 9 => .ok (.hmulBf16 (.ofWord w))
  | 10 => .ok (.hfmaBf16 (.ofWord w))
  | 11 => .ok (.hminBf16 (.ofWord w))
  | 12 => .ok (.hmaxBf16 (.ofWord w))
  | _ => .error .unassignedFn

/-- Major 0x0B, FUN (R128 on). -/
def decFun (w : Word) : Except DecodeError Instr :=
  match (fieldAt w 22 4).toNat with
  | 0 => if fieldAt w 0 7 = 0 ∧ fieldAt w 21 1 = 0 then .ok (.frcpF32 (.ofWord w))
    else .error .unusedFieldNotZero
  | 1 => if fieldAt w 0 7 = 0 ∧ fieldAt w 21 1 = 0 then .ok (.frsqF32 (.ofWord w))
    else .error .unusedFieldNotZero
  | 2 => if fieldAt w 0 7 = 0 ∧ fieldAt w 21 1 = 0 then .ok (.fsqrtF32 (.ofWord w))
    else .error .unusedFieldNotZero
  | 3 => if fieldAt w 0 7 = 0 ∧ fieldAt w 21 1 = 0 then .ok (.fexp2F32 (.ofWord w))
    else .error .unusedFieldNotZero
  | 4 => if fieldAt w 0 7 = 0 ∧ fieldAt w 21 1 = 0 then .ok (.flog2F32 (.ofWord w))
    else .error .unusedFieldNotZero
  | 5 => if fieldAt w 0 7 = 0 ∧ fieldAt w 21 1 = 0 then .ok (.ffloorF32 (.ofWord w))
    else .error .unusedFieldNotZero
  | 6 => if fieldAt w 0 7 = 0 ∧ fieldAt w 21 1 = 0 then .ok (.fceilF32 (.ofWord w))
    else .error .unusedFieldNotZero
  | 7 => if fieldAt w 0 7 = 0 ∧ fieldAt w 21 1 = 0 then .ok (.ftruncF32 (.ofWord w))
    else .error .unusedFieldNotZero
  | 8 => if fieldAt w 0 7 = 0 ∧ fieldAt w 21 1 = 0 then .ok (.frintF32 (.ofWord w))
    else .error .unusedFieldNotZero
  | 9 => if fieldAt w 0 7 = 0 ∧ fieldAt w 21 1 = 0 then .ok (.fclassF32 (.ofWord w))
    else .error .unusedFieldNotZero
  | 10 => .ok (.fdivF32 (.ofWord w))
  | 11 => if fieldAt w 0 7 = 0 ∧ fieldAt w 21 1 = 0 then .ok (.fsqrtF64 (.ofWord w))
    else .error .unusedFieldNotZero
  | 12 => if fieldAt w 0 7 = 0 ∧ fieldAt w 21 1 = 0 then .ok (.frcpF64 (.ofWord w))
    else .error .unusedFieldNotZero
  | 13 => .ok (.fdivF64 (.ofWord w))
  | _ => .error .unassignedFn

/-- Major 0x0C, CVT (R131 on). -/
def decCvt (w : Word) : Except DecodeError Instr :=
  match (fieldAt w 22 4).toNat with
  | 0 => if fieldAt w 21 1 = 0 then .ok (.cvtI32 (.ofWord w))
    else .error .unusedFieldNotZero
  | 1 => if fieldAt w 21 1 = 0 then .ok (.cvtZ32 (.ofWord w))
    else .error .unusedFieldNotZero
  | 2 => if fieldAt w 21 1 = 0 then .ok (.cvtI64 (.ofWord w))
    else .error .unusedFieldNotZero
  | 3 => if fieldAt w 21 1 = 0 then .ok (.cvtZ64 (.ofWord w))
    else .error .unusedFieldNotZero
  | 4 => if fieldAt w 21 1 = 0 then .ok (.cvtF32 (.ofWord w))
    else .error .unusedFieldNotZero
  | 5 => if fieldAt w 21 1 = 0 then .ok (.cvtF64 (.ofWord w))
    else .error .unusedFieldNotZero
  | 6 => if fieldAt w 21 1 = 0 then .ok (.cvtF16 (.ofWord w))
    else .error .unusedFieldNotZero
  | 7 => if fieldAt w 21 1 = 0 then .ok (.cvtBf16 (.ofWord w))
    else .error .unusedFieldNotZero
  | 8 => if fieldAt w 21 1 = 0 then .ok (.cvtE4m3 (.ofWord w))
    else .error .unusedFieldNotZero
  | 9 => if fieldAt w 21 1 = 0 then .ok (.cvtE5m2 (.ofWord w))
    else .error .unusedFieldNotZero
  | 10 => if fieldAt w 21 1 = 0 then .ok (.cvtI8 (.ofWord w))
    else .error .unusedFieldNotZero
  | 11 => if fieldAt w 21 1 = 0 then .ok (.cvtZ8 (.ofWord w))
    else .error .unusedFieldNotZero
  | 12 => if fieldAt w 21 1 = 0 then .ok (.cvtI16 (.ofWord w))
    else .error .unusedFieldNotZero
  | 13 => if fieldAt w 21 1 = 0 then .ok (.cvtZ16 (.ofWord w))
    else .error .unusedFieldNotZero
  | _ => .error .unassignedFn

/-- Major 0x10, UALU (R132 on). -/
def decUalu (w : Word) : Except DecodeError Instr :=
  match (fieldAt w 22 4).toNat with
  | 0 => if fieldAt w 6 4 = 0 then .ok (.uadd (.ofWord w))
    else if fieldAt w 9 1 = 1 then .ok (.uaddImm (.ofWord w))
    else .error .unusedFieldNotZero
  | 1 => if fieldAt w 6 4 = 0 then .ok (.usub (.ofWord w))
    else if fieldAt w 9 1 = 1 then .ok (.usubImm (.ofWord w))
    else .error .unusedFieldNotZero
  | 2 => if fieldAt w 6 4 = 0 then .ok (.umul (.ofWord w))
    else if fieldAt w 9 1 = 1 then .ok (.umulImm (.ofWord w))
    else .error .unusedFieldNotZero
  | 3 => if fieldAt w 6 4 = 0 then .ok (.uand (.ofWord w))
    else if fieldAt w 9 1 = 1 then .ok (.uandImm (.ofWord w))
    else .error .unusedFieldNotZero
  | 4 => if fieldAt w 6 4 = 0 then .ok (.uor (.ofWord w))
    else if fieldAt w 9 1 = 1 then .ok (.uorImm (.ofWord w))
    else .error .unusedFieldNotZero
  | 5 => if fieldAt w 6 4 = 0 then .ok (.uxor (.ofWord w))
    else if fieldAt w 9 1 = 1 then .ok (.uxorImm (.ofWord w))
    else .error .unusedFieldNotZero
  | 6 => if fieldAt w 6 4 = 0 then .ok (.ushl (.ofWord w))
    else if fieldAt w 9 1 = 1 then .ok (.ushlImm (.ofWord w))
    else .error .unusedFieldNotZero
  | 7 => if fieldAt w 6 4 = 0 then .ok (.ushr (.ofWord w))
    else if fieldAt w 9 1 = 1 then .ok (.ushrImm (.ofWord w))
    else .error .unusedFieldNotZero
  | 8 => if fieldAt w 6 4 = 0 then .ok (.usar (.ofWord w))
    else if fieldAt w 9 1 = 1 then .ok (.usarImm (.ofWord w))
    else .error .unusedFieldNotZero
  | 9 => if fieldAt w 6 4 = 0 then .ok (.uminI (.ofWord w))
    else if fieldAt w 9 1 = 1 then .ok (.uminIImm (.ofWord w))
    else .error .unusedFieldNotZero
  | 10 => if fieldAt w 6 4 = 0 then .ok (.umaxI (.ofWord w))
    else if fieldAt w 9 1 = 1 then .ok (.umaxIImm (.ofWord w))
    else .error .unusedFieldNotZero
  | 11 => if fieldAt w 0 10 = 0 then .ok (.umov (.ofWord w))
    else if fieldAt w 9 7 = 1 then .ok (.umovImm (.ofWord w))
    else .error .unusedFieldNotZero
  | 12 => if fieldAt w 6 4 = 0 then .ok (.uadd64 (.ofWord w))
    else if fieldAt w 9 1 = 1 then .ok (.uadd64Imm (.ofWord w))
    else .error .unusedFieldNotZero
  | 13 => if fieldAt w 9 1 = 0 then .ok (.ucmp (.ofWord w))
    else .error .unusedFieldNotZero
  | _ => .error .unassignedFn

/-- Major 0x12, SREG (R134 on). -/
def decSreg (w : Word) : Except DecodeError Instr :=
  match (fieldAt w 21 5).toNat with
  | 0 => if fieldAt w 7 7 = 0 then .ok (.rdsrV (.ofWord w))
    else .error .unusedFieldNotZero
  | 1 => if fieldAt w 7 7 = 0 ∧ fieldAt w 20 1 = 0 then .ok (.rdsr (.ofWord w))
    else .error .unusedFieldNotZero
  | 2 => if fieldAt w 13 8 = 0 then .ok (.wrsr (.ofWord w))
    else .error .unusedFieldNotZero
  | 3 => if fieldAt w 0 7 = 0 ∧ fieldAt w 13 1 = 0 then .ok (.vgetx (.ofWord w))
    else .error .unusedFieldNotZero
  | 4 => if fieldAt w 0 7 = 0 ∧ fieldAt w 20 1 = 0 then .ok (.vsetx (.ofWord w))
    else .error .unusedFieldNotZero
  | _ => .error .unassignedFn

/-- Major 0x13, LDG (R178 on). -/
def decLdg (w : Word) : Except DecodeError Instr :=
  match (fieldAt w 22 4).toNat with
  | 0 => .ok (.ldgZ8 (.ofWord w))
  | 1 => .ok (.ldgI8 (.ofWord w))
  | 2 => .ok (.ldgZ16 (.ofWord w))
  | 3 => .ok (.ldgI16 (.ofWord w))
  | 4 => .ok (.ldgB32 (.ofWord w))
  | 5 => .ok (.ldgB64 (.ofWord w))
  | 6 => .ok (.ldgB128 (.ofWord w))
  | 7 => if fieldAt w 0 10 = 1016 ∧ fieldAt w 21 1 = 0 then .ok (.lduB32 (.ofWord w))
    else .error .unusedFieldNotZero
  | 8 => if fieldAt w 0 10 = 1016 ∧ fieldAt w 21 1 = 0 then .ok (.lduB64 (.ofWord w))
    else .error .unusedFieldNotZero
  | _ => .error .unassignedFn

/-- Major 0x14, STG (R179 on). -/
def decStg (w : Word) : Except DecodeError Instr :=
  match (fieldAt w 22 4).toNat with
  | 0 => .ok (.stgB8 (.ofWord w))
  | 1 => .ok (.stgB16 (.ofWord w))
  | 2 => .ok (.stgB32 (.ofWord w))
  | 3 => .ok (.stgB64 (.ofWord w))
  | 4 => .ok (.stgB128 (.ofWord w))
  | _ => .error .unassignedFn

/-- Major 0x15, LDS (R182 on). -/
def decLds (w : Word) : Except DecodeError Instr :=
  match (fieldAt w 22 4).toNat with
  | 0 => .ok (.ldsZ16 (.ofWord w))
  | 4 => .ok (.ldsB32 (.ofWord w))
  | 5 => .ok (.ldsB32Wfull (.ofWord w))
  | 6 => .ok (.ldsB32Take (.ofWord w))
  | 8 => .ok (.ldsB64 (.ofWord w))
  | 9 => .ok (.ldsB64Wfull (.ofWord w))
  | 10 => .ok (.ldsB64Take (.ofWord w))
  | 12 => .ok (.ldsB128 (.ofWord w))
  | 13 => .ok (.ldsB128Wfull (.ofWord w))
  | 14 => .ok (.ldsB128Take (.ofWord w))
  | _ => .error .unassignedFn

/-- Major 0x16, STS (R182 on). -/
def decSts (w : Word) : Except DecodeError Instr :=
  match (fieldAt w 22 4).toNat with
  | 0 => .ok (.stsB16 (.ofWord w))
  | 4 => .ok (.stsB32 (.ofWord w))
  | 5 => .ok (.stsB32Put (.ofWord w))
  | 6 => .ok (.stsB32Fill (.ofWord w))
  | 7 => .ok (.stsB32Drain (.ofWord w))
  | 8 => .ok (.stsB64 (.ofWord w))
  | 9 => .ok (.stsB64Put (.ofWord w))
  | 10 => .ok (.stsB64Fill (.ofWord w))
  | 11 => .ok (.stsB64Drain (.ofWord w))
  | 12 => .ok (.stsB128 (.ofWord w))
  | 13 => .ok (.stsB128Put (.ofWord w))
  | 14 => .ok (.stsB128Fill (.ofWord w))
  | 15 => .ok (.stsB128Drain (.ofWord w))
  | _ => .error .unassignedFn

/-- Major 0x17, ATOMG (R185 on). -/
def decAtomg (w : Word) : Except DecodeError Instr :=
  match (fieldAt w 22 4).toNat with
  | 0 => if fieldAt w 14 2 = 0 then .ok (.atomgAdd (.ofWord w))
    else .error .unusedFieldNotZero
  | 1 => if fieldAt w 14 2 = 0 then .ok (.atomgFadd (.ofWord w))
    else .error .unusedFieldNotZero
  | 2 => if fieldAt w 14 2 = 0 then .ok (.atomgMinI (.ofWord w))
    else .error .unusedFieldNotZero
  | 3 => if fieldAt w 14 2 = 0 then .ok (.atomgMaxI (.ofWord w))
    else .error .unusedFieldNotZero
  | 4 => if fieldAt w 14 2 = 0 then .ok (.atomgMinZ (.ofWord w))
    else .error .unusedFieldNotZero
  | 5 => if fieldAt w 14 2 = 0 then .ok (.atomgMaxZ (.ofWord w))
    else .error .unusedFieldNotZero
  | 6 => if fieldAt w 14 2 = 0 then .ok (.atomgAnd (.ofWord w))
    else .error .unusedFieldNotZero
  | 7 => if fieldAt w 14 2 = 0 then .ok (.atomgOr (.ofWord w))
    else .error .unusedFieldNotZero
  | 8 => if fieldAt w 14 2 = 0 then .ok (.atomgXor (.ofWord w))
    else .error .unusedFieldNotZero
  | 9 => if fieldAt w 14 2 = 0 then .ok (.atomgExch (.ofWord w))
    else .error .unusedFieldNotZero
  | 10 => if fieldAt w 14 2 = 0 then .ok (.atomgCas (.ofWord w))
    else .error .unusedFieldNotZero
  | 11 => if fieldAt w 14 3 = 4 then .ok (.atomgLd (.ofWord w))
    else .error .unusedFieldNotZero
  | 12 => if fieldAt w 14 3 = 0 then .ok (.atomgSt (.ofWord w))
    else .error .unusedFieldNotZero
  | 13 => if fieldAt w 14 4 = 0 then .ok (.atomgXadd (.ofWord w))
    else .error .unusedFieldNotZero
  | _ => .error .unassignedFn

/-- Major 0x18, ATOMS (R187 on). -/
def decAtoms (w : Word) : Except DecodeError Instr :=
  match (fieldAt w 22 4).toNat with
  | 0 => if fieldAt w 14 2 = 0 ∧ fieldAt w 18 2 = 0 then .ok (.atomsAdd (.ofWord w))
    else .error .unusedFieldNotZero
  | 1 => if fieldAt w 14 2 = 0 ∧ fieldAt w 18 2 = 0 then .ok (.atomsFadd (.ofWord w))
    else .error .unusedFieldNotZero
  | 2 => if fieldAt w 14 2 = 0 ∧ fieldAt w 18 2 = 0 then .ok (.atomsMinI (.ofWord w))
    else .error .unusedFieldNotZero
  | 3 => if fieldAt w 14 2 = 0 ∧ fieldAt w 18 2 = 0 then .ok (.atomsMaxI (.ofWord w))
    else .error .unusedFieldNotZero
  | 4 => if fieldAt w 14 2 = 0 ∧ fieldAt w 18 2 = 0 then .ok (.atomsMinZ (.ofWord w))
    else .error .unusedFieldNotZero
  | 5 => if fieldAt w 14 2 = 0 ∧ fieldAt w 18 2 = 0 then .ok (.atomsMaxZ (.ofWord w))
    else .error .unusedFieldNotZero
  | 6 => if fieldAt w 14 2 = 0 ∧ fieldAt w 18 2 = 0 then .ok (.atomsAnd (.ofWord w))
    else .error .unusedFieldNotZero
  | 7 => if fieldAt w 14 2 = 0 ∧ fieldAt w 18 2 = 0 then .ok (.atomsOr (.ofWord w))
    else .error .unusedFieldNotZero
  | 8 => if fieldAt w 14 2 = 0 ∧ fieldAt w 18 2 = 0 then .ok (.atomsXor (.ofWord w))
    else .error .unusedFieldNotZero
  | 9 => if fieldAt w 14 2 = 0 ∧ fieldAt w 18 2 = 0 then .ok (.atomsExch (.ofWord w))
    else .error .unusedFieldNotZero
  | 10 => if fieldAt w 14 2 = 0 ∧ fieldAt w 18 2 = 0 then .ok (.atomsCas (.ofWord w))
    else .error .unusedFieldNotZero
  | _ => .error .unassignedFn

/-- Major 0x19, FENCE (R191 on). -/
def decFence (w : Word) : Except DecodeError Instr :=
  match (fieldAt w 21 5).toNat with
  | 0 => if fieldAt w 4 17 = 0 then .ok (.fence (.ofWord w))
    else .error .unusedFieldNotZero
  | 1 => if fieldAt w 0 21 = 0 then .ok .ifence
    else .error .unusedFieldNotZero
  | _ => .error .unassignedFn

/-- Major 0x1A, WAITC (R194 on). -/
def decWaitc (w : Word) : Except DecodeError Instr :=
  if fieldAt w 0 6 = 0 then .ok (.waitc (.ofWord w))
  else .error .unusedFieldNotZero

/-- Major 0x1B, SYNC (R197 on). -/
def decSync (w : Word) : Except DecodeError Instr :=
  match (fieldAt w 21 5).toNat with
  | 0 => if fieldAt w 4 10 = 0 then .ok (.binit (.ofWord w))
    else .error .unusedFieldNotZero
  | 1 => if fieldAt w 4 10 = 0 ∧ fieldAt w 20 1 = 0 then .ok (.barrive (.ofWord w))
    else .error .unusedFieldNotZero
  | 2 => if fieldAt w 4 3 = 0 ∧ fieldAt w 13 1 = 0 ∧ fieldAt w 20 1 = 0 then .ok (.bwait (.ofWord w))
    else .error .unusedFieldNotZero
  | 3 => if fieldAt w 4 17 = 0 then .ok (.bsync (.ofWord w))
    else .error .unusedFieldNotZero
  | 4 => if fieldAt w 5 2 = 0 ∧ fieldAt w 13 8 = 0 then .ok (.semset (.ofWord w))
    else .error .unusedFieldNotZero
  | 5 => if fieldAt w 13 8 = 0 then .ok (.semadd (.ofWord w))
    else .error .unusedFieldNotZero
  | 6 => if fieldAt w 13 8 = 0 then .ok (.semwait (.ofWord w))
    else .error .unusedFieldNotZero
  | 7 => if fieldAt w 1 6 = 0 ∧ fieldAt w 13 1 = 0 ∧ fieldAt w 20 1 = 0 then .ok (.watch (.ofWord w))
    else if fieldAt w 1 6 = 1 ∧ fieldAt w 13 1 = 0 ∧ fieldAt w 20 1 = 0 then .ok (.watchSpad (.ofWord w))
    else .error .unusedFieldNotZero
  | 8 => if fieldAt w 0 7 = 0 ∧ fieldAt w 13 1 = 0 ∧ fieldAt w 20 1 = 0 then .ok (.park (.ofWord w))
    else .error .unusedFieldNotZero
  | 9 => if fieldAt w 1 20 = 0 then .ok (.unwatch (.ofWord w))
    else .error .unusedFieldNotZero
  | _ => .error .unassignedFn

/-- Major 0x1C, STAGE (R212 on). -/
def decStage (w : Word) : Except DecodeError Instr :=
  match (fieldAt w 21 5).toNat with
  | 0 => if fieldAt w 13 1 = 0 ∧ fieldAt w 20 1 = 0 then .ok (.sloop (.ofWord w))
    else .error .unusedFieldNotZero
  | 1 => if fieldAt w 0 14 = 0 ∧ fieldAt w 20 1 = 0 then .ok (.siter (.ofWord w))
    else .error .unusedFieldNotZero
  | 2 => if fieldAt w 13 8 = 0 then .ok (.stadv (.ofWord w))
    else .error .unusedFieldNotZero
  | 3 => if fieldAt w 13 8 = 0 then .ok (.stjmp (.ofWord w))
    else .error .unusedFieldNotZero
  | 4 => if fieldAt w 13 8 = 0 then .ok (.waitl (.ofWord w))
    else .error .unusedFieldNotZero
  | 5 => if fieldAt w 0 21 = 0 then .ok .sdone
    else .error .unusedFieldNotZero
  | 6 => if fieldAt w 0 21 = 0 then .ok .send
    else .error .unusedFieldNotZero
  | 7 => if fieldAt w 2 5 = 0 ∧ fieldAt w 13 8 = 0 then .ok (.spost (.ofWord w))
    else .error .unusedFieldNotZero
  | 8 => if fieldAt w 3 4 = 0 ∧ fieldAt w 13 1 = 0 ∧ fieldAt w 20 1 = 0 then .ok (.waitm (.ofWord w))
    else .error .unusedFieldNotZero
  | 9 => if fieldAt w 0 7 = 0 ∧ fieldAt w 13 1 = 0 ∧ fieldAt w 20 1 = 0 then .ok (.sread (.ofWord w))
    else .error .unusedFieldNotZero
  | _ => .error .unassignedFn

/-- Major 0x1D, ENGINE (R246 on). -/
def decEngine (w : Word) : Except DecodeError Instr :=
  match (fieldAt w 21 5).toNat with
  | 0 => if fieldAt w 0 7 = 0 ∧ fieldAt w 13 1 = 0 ∧ fieldAt w 20 1 = 0 then .ok (.layset (.ofWord w))
    else if fieldAt w 0 7 = 1 ∧ fieldAt w 13 1 = 0 ∧ fieldAt w 20 1 = 0 then .ok (.laysetSpad (.ofWord w))
    else .error .unusedFieldNotZero
  | 1 => if fieldAt w 13 1 = 0 ∧ fieldAt w 20 1 = 0 then .ok (.cpy (.ofWord w))
    else .error .unusedFieldNotZero
  | 2 => if fieldAt w 13 1 = 0 ∧ fieldAt w 20 1 = 0 then .ok (.gath (.ofWord w))
    else .error .unusedFieldNotZero
  | 3 => if fieldAt w 13 1 = 0 ∧ fieldAt w 20 1 = 0 then .ok (.scat (.ofWord w))
    else .error .unusedFieldNotZero
  | 4 => if fieldAt w 0 7 = 0 ∧ fieldAt w 13 1 = 0 ∧ fieldAt w 20 1 = 0 then .ok (.mstart (.ofWord w))
    else .error .unusedFieldNotZero
  | 5 => if fieldAt w 4 3 = 0 ∧ fieldAt w 13 1 = 0 then .ok (.accget (.ofWord w))
    else if fieldAt w 4 10 = 4 ∧ fieldAt w 20 1 = 0 then .ok (.accgetSt (.ofWord w))
    else .error .unusedFieldNotZero
  | 6 => if fieldAt w 4 3 = 0 ∧ fieldAt w 13 1 = 0 then .ok (.accput (.ofWord w))
    else .error .unusedFieldNotZero
  | _ => .error .unassignedFn

/-- Major 0x1E, REMOTE (R266 on). -/
def decRemote (w : Word) : Except DecodeError Instr :=
  match (fieldAt w 22 4).toNat with
  | 0 => .ok (.rlds (.ofWord w))
  | 1 => .ok (.rldsWfull (.ofWord w))
  | 2 => .ok (.rldsTake (.ofWord w))
  | 4 => .ok (.rsts (.ofWord w))
  | 5 => .ok (.rstsPut (.ofWord w))
  | 6 => .ok (.rstsFill (.ofWord w))
  | 7 => .ok (.rstsDrain (.ofWord w))
  | 8 => .ok (.ratomAdd (.ofWord w))
  | 9 => .ok (.ratomExch (.ofWord w))
  | 10 => .ok (.ratomCas (.ofWord w))
  | 11 => .ok (.ratomOr (.ofWord w))
  | _ => .error .unassignedFn

/-- Major 0x20, BRANCH (R137 on). -/
def decBranch (w : Word) : Except DecodeError Instr :=
  match (fieldAt w 23 3).toNat with
  | 0 => if fieldAt w 20 3 = 0 then .ok (.bra (.ofWord w))
    else .error .unusedFieldNotZero
  | 1 => .ok (.braAny (.ofWord w))
  | 2 => .ok (.braAll (.ofWord w))
  | 3 => .ok (.braNone (.ofWord w))
  | 4 => .ok (.braDiv (.ofWord w))
  | 5 => if fieldAt w 20 3 = 0 then .ok (.call (.ofWord w))
    else .error .unusedFieldNotZero
  | _ => .error .unassignedFn

/-- Major 0x21, JUMP (R139 on). -/
def decJump (w : Word) : Except DecodeError Instr :=
  match (fieldAt w 21 5).toNat with
  | 0 => if fieldAt w 0 7 = 0 ∧ fieldAt w 13 8 = 0 then .ok (.jmpi (.ofWord w))
    else .error .unusedFieldNotZero
  | 1 => if fieldAt w 0 7 = 0 ∧ fieldAt w 13 1 = 0 ∧ fieldAt w 20 1 = 0 then .ok (.calli (.ofWord w))
    else .error .unusedFieldNotZero
  | 2 => if fieldAt w 0 7 = 0 ∧ fieldAt w 13 8 = 0 then .ok (.ret (.ofWord w))
    else .error .unusedFieldNotZero
  | 3 => if fieldAt w 0 21 = 0 then .ok .join
    else .error .unusedFieldNotZero
  | 4 => if fieldAt w 0 21 = 0 then .ok .yield
    else .error .unusedFieldNotZero
  | 5 => if fieldAt w 0 21 = 0 then .ok .nop
    else .error .unusedFieldNotZero
  | 6 => if fieldAt w 0 21 = 0 then .ok .exit
    else .error .unusedFieldNotZero
  | _ => .error .unassignedFn

/-- Major 0x22, TRAP (R142 on). -/
def decTrap (w : Word) : Except DecodeError Instr :=
  match (fieldAt w 21 5).toNat with
  | 0 => if fieldAt w 7 14 = 0 then .ok (.trap (.ofWord w))
    else .error .unusedFieldNotZero
  | 1 => if fieldAt w 0 21 = 0 then .ok .tretRetry
    else if fieldAt w 0 21 = 1 then .ok .tretSkip
    else .error .unusedFieldNotZero
  | 2 => if fieldAt w 0 21 = 0 then .ok .brk
    else .error .unusedFieldNotZero
  | _ => .error .unassignedFn

/-- Major 0x23, FSERV (R289 on). -/
def decFserv (w : Word) : Except DecodeError Instr :=
  match (fieldAt w 21 5).toNat with
  | 0 => if fieldAt w 13 1 = 0 then .ok (.hget (.ofWord w))
    else .error .unusedFieldNotZero
  | 1 => if fieldAt w 13 1 = 0 then .ok (.hset (.ofWord w))
    else .error .unusedFieldNotZero
  | 2 => if fieldAt w 0 7 = 0 ∧ fieldAt w 13 1 = 0 then .ok (.hldone (.ofWord w))
    else .error .unusedFieldNotZero
  | 3 => if fieldAt w 0 7 = 0 ∧ fieldAt w 13 1 = 0 ∧ fieldAt w 20 1 = 0 then .ok (.resumeContinue (.ofWord w))
    else if fieldAt w 0 7 = 1 ∧ fieldAt w 13 1 = 0 ∧ fieldAt w 20 1 = 0 then .ok (.resumeDrop (.ofWord w))
    else if fieldAt w 0 7 = 2 ∧ fieldAt w 13 1 = 0 ∧ fieldAt w 20 1 = 0 then .ok (.resumeRetry (.ofWord w))
    else .error .unusedFieldNotZero
  | 4 => if fieldAt w 0 7 = 0 ∧ fieldAt w 13 1 = 0 ∧ fieldAt w 20 1 = 0 then .ok (.kill (.ofWord w))
    else .error .unusedFieldNotZero
  | _ => .error .unassignedFn

/-- Major 0x24, LAUNCH (R350 on). -/
def decLaunch (w : Word) : Except DecodeError Instr :=
  match (fieldAt w 21 5).toNat with
  | 0 => if fieldAt w 2 5 = 0 ∧ fieldAt w 13 1 = 0 ∧ fieldAt w 20 1 = 0 then .ok (.launch (.ofWord w))
    else .error .unusedFieldNotZero
  | 1 => if fieldAt w 0 7 = 0 ∧ fieldAt w 13 1 = 0 ∧ fieldAt w 20 1 = 0 then .ok (.lstat (.ofWord w))
    else .error .unusedFieldNotZero
  | _ => .error .unassignedFn

/-- Major 0x30, MSLOT (R235 on). -/
def decMslot (w : Word) : Except DecodeError Instr :=
  match (fieldAt w 22 4).toNat with
  | 0 => if fieldAt w 0 11 = 0 then .ok (.mclaim (.ofWord w))
    else .error .unusedFieldNotZero
  | 1 => if fieldAt w 0 11 = 0 then .ok (.mrel (.ofWord w))
    else .error .unusedFieldNotZero
  | 2 => if fieldAt w 0 2 = 0 then .ok (.mload (.ofWord w))
    else .error .unusedFieldNotZero
  | 3 => if fieldAt w 0 6 = 0 then .ok (.mloadp (.ofWord w))
    else .error .unusedFieldNotZero
  | 4 => if fieldAt w 0 5 = 0 then .ok (.mtadd (.ofWord w))
    else .error .unusedFieldNotZero
  | _ => .error .unassignedFn

/-- Major 0x31, MMA (R237 on). -/
def decMma (w : Word) : Except DecodeError Instr :=
  match (fieldAt w 22 4).toNat with
  | 0 => if fieldAt w 0 5 = 0 then .ok (.mma (.ofWord w))
    else .error .unusedFieldNotZero
  | 1 => .ok (.mmas (.ofWord w))
  | 2 => if fieldAt w 0 8 = 0 then .ok (.mmap (.ofWord w))
    else .error .unusedFieldNotZero
  | _ => .error .unassignedFn

/-- Major 0x32, MACC (R240 on). -/
def decMacc (w : Word) : Except DecodeError Instr :=
  match (fieldAt w 22 4).toNat with
  | 0 => if fieldAt w 0 16 = 0 then .ok (.mzero (.ofWord w))
    else .error .unusedFieldNotZero
  | 1 => if fieldAt w 0 4 = 0 then .ok (.mscale (.ofWord w))
    else .error .unusedFieldNotZero
  | 2 => if fieldAt w 0 1 = 0 then .ok (.mstore (.ofWord w))
    else .error .unusedFieldNotZero
  | _ => .error .unassignedFn

/-- Major 0x33, MCTL (R243 on). -/
def decMctl (w : Word) : Except DecodeError Instr :=
  match (fieldAt w 22 4).toNat with
  | 0 => if fieldAt w 0 16 = 0 ∧ fieldAt w 20 2 = 0 then .ok (.mbarSync (.ofWord w))
    else if fieldAt w 0 12 = 0 ∧ fieldAt w 20 2 = 1 then .ok (.mbarArrive (.ofWord w))
    else if fieldAt w 0 12 = 0 ∧ fieldAt w 20 2 = 2 then .ok (.mbarWait (.ofWord w))
    else .error .unusedFieldNotZero
  | 1 => if fieldAt w 16 2 = 0 then .ok (.mset (.ofWord w))
    else .error .unusedFieldNotZero
  | 2 => .ok (.madd (.ofWord w))
  | 3 => .ok (.mloop (.ofWord w))
  | 4 => if fieldAt w 16 6 = 0 then .ok (.mbra (.ofWord w))
    else if fieldAt w 16 2 = 1 then .ok (.mbraZ (.ofWord w))
    else if fieldAt w 16 2 = 2 then .ok (.mbraNz (.ofWord w))
    else .error .unusedFieldNotZero
  | 5 => if fieldAt w 0 22 = 0 then .ok .mend
    else .error .unusedFieldNotZero
  | _ => .error .unassignedFn

/-- The instruction of a word, or why it is none (02 R28, R30): total, and by name. Operand values that an instruction's chapter
forbids are judged by `Instr.wf` when the instruction executes. -/
def decode (w : Word) : Except DecodeError Instr :=
  match (fieldAt w 26 6).toNat with
  | 0 => .error .voidWord
  | 1 => decIntA w
  | 2 => decIntB w
  | 3 => decIntI w
  | 4 => decCmp w
  | 5 => decSel w
  | 6 => decLane w
  | 7 => decKops w
  | 8 => decF32 w
  | 9 => decF64 w
  | 10 => decF16x2 w
  | 11 => decFun w
  | 12 => decCvt w
  | 16 => decUalu w
  | 18 => decSreg w
  | 19 => decLdg w
  | 20 => decStg w
  | 21 => decLds w
  | 22 => decSts w
  | 23 => decAtomg w
  | 24 => decAtoms w
  | 25 => decFence w
  | 26 => decWaitc w
  | 27 => decSync w
  | 28 => decStage w
  | 29 => decEngine w
  | 30 => decRemote w
  | 32 => decBranch w
  | 33 => decJump w
  | 34 => decTrap w
  | 35 => decFserv w
  | 36 => decLaunch w
  | 48 => decMslot w
  | 49 => decMma w
  | 50 => decMacc w
  | 51 => decMctl w
  | 63 => .error .hintWord
  | _ => .error .unassignedMajor

/-- The instruction the decoder reads from an instruction whose bits are `w` (each instruction is one 32-bit little-endian word, 00 R3,
so the table's numbering is the word's). -/
def decodeTableWord (nbits w : Nat) : Option Instr :=
  if nbits = 0 then none
  else
    match decode (BitVec.ofNat 32 w) with
    | .ok i => some i
    | .error _ => none

end

/-- The word of an instruction (02 R25, R28); the event rows have none, and the void word stands for it. -/
def encode : Instr → Word
  | .iadd f => 0x10#10 ++ f.sb ++ f.vd ++ f.va ++ f.vb
  | .isub f => 0x11#10 ++ f.sb ++ f.vd ++ f.va ++ f.vb
  | .imul f => 0x12#10 ++ f.sb ++ f.vd ++ f.va ++ f.vb
  | .imulhI f => 0x13#10 ++ f.sb ++ f.vd ++ f.va ++ f.vb
  | .imulhZ f => 0x14#10 ++ f.sb ++ f.vd ++ f.va ++ f.vb
  | .iminI f => 0x15#10 ++ f.sb ++ f.vd ++ f.va ++ f.vb
  | .imaxI f => 0x16#10 ++ f.sb ++ f.vd ++ f.va ++ f.vb
  | .iminZ f => 0x17#10 ++ f.sb ++ f.vd ++ f.va ++ f.vb
  | .imaxZ f => 0x18#10 ++ f.sb ++ f.vd ++ f.va ++ f.vb
  | .iabs f => 0x32#11 ++ f.vd ++ f.va ++ 0x0#7
  | .iaddSatI f => 0x1a#10 ++ f.sb ++ f.vd ++ f.va ++ f.vb
  | .isubSatI f => 0x1b#10 ++ f.sb ++ f.vd ++ f.va ++ f.vb
  | .iadd64 f => 0x1c#10 ++ f.sb ++ f.vd ++ f.va ++ f.vb
  | .isub64 f => 0x1d#10 ++ f.sb ++ f.vd ++ f.va ++ f.vb
  | .imulWideI f => 0x1e#10 ++ f.sb ++ f.vd ++ f.va ++ f.vb
  | .imulWideZ f => 0x1f#10 ++ f.sb ++ f.vd ++ f.va ++ f.vb
  | .and f => 0x20#10 ++ f.sb ++ f.vd ++ f.va ++ f.vb
  | .or f => 0x21#10 ++ f.sb ++ f.vd ++ f.va ++ f.vb
  | .xor f => 0x22#10 ++ f.sb ++ f.vd ++ f.va ++ f.vb
  | .andn f => 0x23#10 ++ f.sb ++ f.vd ++ f.va ++ f.vb
  | .shl f => 0x24#10 ++ f.sb ++ f.vd ++ f.va ++ f.vb
  | .shr f => 0x25#10 ++ f.sb ++ f.vd ++ f.va ++ f.vb
  | .sar f => 0x26#10 ++ f.sb ++ f.vd ++ f.va ++ f.vb
  | .rotl f => 0x27#10 ++ f.sb ++ f.vd ++ f.va ++ f.vb
  | .shl64 f => 0x28#10 ++ f.sb ++ f.vd ++ f.va ++ f.vb
  | .shr64 f => 0x29#10 ++ f.sb ++ f.vd ++ f.va ++ f.vb
  | .popc f => 0x54#11 ++ f.vd ++ f.va ++ 0x0#7
  | .clz f => 0x56#11 ++ f.vd ++ f.va ++ 0x0#7
  | .brev f => 0x58#11 ++ f.vd ++ f.va ++ 0x0#7
  | .bfxZ f => 0x2d#10 ++ f.sb ++ f.vd ++ f.va ++ f.vb
  | .bfxI f => 0x2e#10 ++ f.sb ++ f.vd ++ f.va ++ f.vb
  | .bfi f => 0x2f#10 ++ f.sb ++ f.vd ++ f.va ++ f.vb
  | .iaddi f => 0x18#9 ++ f.vd ++ f.va ++ f.imm
  | .andi f => 0x19#9 ++ f.vd ++ f.va ++ f.imm
  | .ori f => 0x1a#9 ++ f.vd ++ f.va ++ f.imm
  | .xori f => 0x1b#9 ++ f.vd ++ f.va ++ f.imm
  | .shli f => 0x1c#9 ++ f.vd ++ f.va ++ 0x0#4 ++ f.n
  | .shri f => 0x1d#9 ++ f.vd ++ f.va ++ 0x0#4 ++ f.n
  | .sari f => 0x1e#9 ++ f.vd ++ f.va ++ 0x0#4 ++ f.n
  | .movi f => 0x1f#9 ++ f.vd ++ 0x0#7 ++ f.imm
  | .cmp f => 0x4#6 ++ f.cond ++ f.type ++ f.kd ++ f.sb ++ f.comb ++ f.va ++ f.vb
  | .sel f => 0x14#8 ++ f.kc ++ f.vd ++ f.va ++ f.vb
  | .mov f => 0xa8#11 ++ f.vd ++ f.va ++ 0x0#7
  | .shflIdx f => 0xc0#11 ++ f.vd ++ f.va ++ f.vb
  | .shflUp f => 0xc1#11 ++ f.vd ++ f.va ++ f.vb
  | .shflDown f => 0xc2#11 ++ f.vd ++ f.va ++ f.vb
  | .shflXor f => 0xc3#11 ++ f.vd ++ f.va ++ f.vb
  | .kprefix f => 0x19#8 ++ f.kc ++ f.vd ++ 0x0#14
  | .ballot f => 0xd00#15 ++ f.kd ++ f.va ++ 0x0#7
  | .lrd f => 0x1b0#12 ++ f.sd ++ f.va ++ 0x0#2 ++ f.n
  | .lrdS f => 0x1b0#12 ++ f.sd ++ f.va ++ 0x1#1 ++ f.sn
  | .kand f => 0xe00#15 ++ f.kd ++ 0x0#4 ++ f.ka ++ 0x0#4 ++ f.kb
  | .kor f => 0xe10#15 ++ f.kd ++ 0x0#4 ++ f.ka ++ 0x0#4 ++ f.kb
  | .kxor f => 0xe20#15 ++ f.kd ++ 0x0#4 ++ f.ka ++ 0x0#4 ++ f.kb
  | .knot f => 0xe30#15 ++ f.kd ++ 0x0#4 ++ f.ka ++ 0x0#7
  | .kmovKs f => 0xe40#15 ++ f.kd ++ 0x0#1 ++ f.sa ++ 0x0#7
  | .kmovSk f => 0x1ca#12 ++ f.sd ++ 0x0#4 ++ f.ka ++ 0x0#7
  | .kpopc f => 0x1cc#12 ++ f.sd ++ 0x0#4 ++ f.ka ++ 0x0#7
  | .kffs f => 0x1ce#12 ++ f.sd ++ 0x0#4 ++ f.ka ++ 0x0#7
  | .faddF32 f => 0x80#10 ++ f.sb ++ f.vd ++ f.va ++ f.vb
  | .fsubF32 f => 0x81#10 ++ f.sb ++ f.vd ++ f.va ++ f.vb
  | .fmulF32 f => 0x82#10 ++ f.sb ++ f.vd ++ f.va ++ f.vb
  | .ffmaF32 f => 0x83#10 ++ f.sb ++ f.vd ++ f.va ++ f.vb
  | .ffmsF32 f => 0x84#10 ++ f.sb ++ f.vd ++ f.va ++ f.vb
  | .fnmaF32 f => 0x85#10 ++ f.sb ++ f.vd ++ f.va ++ f.vb
  | .fminF32 f => 0x86#10 ++ f.sb ++ f.vd ++ f.va ++ f.vb
  | .fmaxF32 f => 0x87#10 ++ f.sb ++ f.vd ++ f.va ++ f.vb
  | .fabsF32 f => 0x110#11 ++ f.vd ++ f.va ++ 0x0#7
  | .fnegF32 f => 0x112#11 ++ f.vd ++ f.va ++ 0x0#7
  | .fcsgnF32 f => 0x8a#10 ++ f.sb ++ f.vd ++ f.va ++ f.vb
  | .faddF64 f => 0x90#10 ++ f.sb ++ f.vd ++ f.va ++ f.vb
  | .fsubF64 f => 0x91#10 ++ f.sb ++ f.vd ++ f.va ++ f.vb
  | .fmulF64 f => 0x92#10 ++ f.sb ++ f.vd ++ f.va ++ f.vb
  | .ffmaF64 f => 0x93#10 ++ f.sb ++ f.vd ++ f.va ++ f.vb
  | .ffmsF64 f => 0x94#10 ++ f.sb ++ f.vd ++ f.va ++ f.vb
  | .fnmaF64 f => 0x95#10 ++ f.sb ++ f.vd ++ f.va ++ f.vb
  | .fminF64 f => 0x96#10 ++ f.sb ++ f.vd ++ f.va ++ f.vb
  | .fmaxF64 f => 0x97#10 ++ f.sb ++ f.vd ++ f.va ++ f.vb
  | .fabsF64 f => 0x130#11 ++ f.vd ++ f.va ++ 0x0#7
  | .fnegF64 f => 0x132#11 ++ f.vd ++ f.va ++ 0x0#7
  | .fcsgnF64 f => 0x9a#10 ++ f.sb ++ f.vd ++ f.va ++ f.vb
  | .haddF16 f => 0xa0#10 ++ f.sb ++ f.vd ++ f.va ++ f.vb
  | .hmulF16 f => 0xa1#10 ++ f.sb ++ f.vd ++ f.va ++ f.vb
  | .hfmaF16 f => 0xa2#10 ++ f.sb ++ f.vd ++ f.va ++ f.vb
  | .hminF16 f => 0xa3#10 ++ f.sb ++ f.vd ++ f.va ++ f.vb
  | .hmaxF16 f => 0xa4#10 ++ f.sb ++ f.vd ++ f.va ++ f.vb
  | .haddBf16 f => 0xa8#10 ++ f.sb ++ f.vd ++ f.va ++ f.vb
  | .hmulBf16 f => 0xa9#10 ++ f.sb ++ f.vd ++ f.va ++ f.vb
  | .hfmaBf16 f => 0xaa#10 ++ f.sb ++ f.vd ++ f.va ++ f.vb
  | .hminBf16 f => 0xab#10 ++ f.sb ++ f.vd ++ f.va ++ f.vb
  | .hmaxBf16 f => 0xac#10 ++ f.sb ++ f.vd ++ f.va ++ f.vb
  | .frcpF32 f => 0x160#11 ++ f.vd ++ f.va ++ 0x0#7
  | .frsqF32 f => 0x162#11 ++ f.vd ++ f.va ++ 0x0#7
  | .fsqrtF32 f => 0x164#11 ++ f.vd ++ f.va ++ 0x0#7
  | .fexp2F32 f => 0x166#11 ++ f.vd ++ f.va ++ 0x0#7
  | .flog2F32 f => 0x168#11 ++ f.vd ++ f.va ++ 0x0#7
  | .ffloorF32 f => 0x16a#11 ++ f.vd ++ f.va ++ 0x0#7
  | .fceilF32 f => 0x16c#11 ++ f.vd ++ f.va ++ 0x0#7
  | .ftruncF32 f => 0x16e#11 ++ f.vd ++ f.va ++ 0x0#7
  | .frintF32 f => 0x170#11 ++ f.vd ++ f.va ++ 0x0#7
  | .fclassF32 f => 0x172#11 ++ f.vd ++ f.va ++ 0x0#7
  | .fdivF32 f => 0xba#10 ++ f.sb ++ f.vd ++ f.va ++ f.vb
  | .fsqrtF64 f => 0x176#11 ++ f.vd ++ f.va ++ 0x0#7
  | .frcpF64 f => 0x178#11 ++ f.vd ++ f.va ++ 0x0#7
  | .fdivF64 f => 0xbd#10 ++ f.sb ++ f.vd ++ f.va ++ f.vb
  | .cvtI32 f => 0x180#11 ++ f.vd ++ f.va ++ f.rnd ++ f.src
  | .cvtZ32 f => 0x182#11 ++ f.vd ++ f.va ++ f.rnd ++ f.src
  | .cvtI64 f => 0x184#11 ++ f.vd ++ f.va ++ f.rnd ++ f.src
  | .cvtZ64 f => 0x186#11 ++ f.vd ++ f.va ++ f.rnd ++ f.src
  | .cvtF32 f => 0x188#11 ++ f.vd ++ f.va ++ f.rnd ++ f.src
  | .cvtF64 f => 0x18a#11 ++ f.vd ++ f.va ++ f.rnd ++ f.src
  | .cvtF16 f => 0x18c#11 ++ f.vd ++ f.va ++ f.rnd ++ f.src
  | .cvtBf16 f => 0x18e#11 ++ f.vd ++ f.va ++ f.rnd ++ f.src
  | .cvtE4m3 f => 0x190#11 ++ f.vd ++ f.va ++ f.rnd ++ f.src
  | .cvtE5m2 f => 0x192#11 ++ f.vd ++ f.va ++ f.rnd ++ f.src
  | .cvtI8 f => 0x194#11 ++ f.vd ++ f.va ++ f.rnd ++ f.src
  | .cvtZ8 f => 0x196#11 ++ f.vd ++ f.va ++ f.rnd ++ f.src
  | .cvtI16 f => 0x198#11 ++ f.vd ++ f.va ++ f.rnd ++ f.src
  | .cvtZ16 f => 0x19a#11 ++ f.vd ++ f.va ++ f.rnd ++ f.src
  | .uadd f => 0x100#10 ++ f.sd ++ f.sa ++ 0x0#4 ++ f.sb
  | .uaddImm f => 0x100#10 ++ f.sd ++ f.sa ++ 0x1#1 ++ f.imm
  | .usub f => 0x101#10 ++ f.sd ++ f.sa ++ 0x0#4 ++ f.sb
  | .usubImm f => 0x101#10 ++ f.sd ++ f.sa ++ 0x1#1 ++ f.imm
  | .umul f => 0x102#10 ++ f.sd ++ f.sa ++ 0x0#4 ++ f.sb
  | .umulImm f => 0x102#10 ++ f.sd ++ f.sa ++ 0x1#1 ++ f.imm
  | .uand f => 0x103#10 ++ f.sd ++ f.sa ++ 0x0#4 ++ f.sb
  | .uandImm f => 0x103#10 ++ f.sd ++ f.sa ++ 0x1#1 ++ f.imm
  | .uor f => 0x104#10 ++ f.sd ++ f.sa ++ 0x0#4 ++ f.sb
  | .uorImm f => 0x104#10 ++ f.sd ++ f.sa ++ 0x1#1 ++ f.imm
  | .uxor f => 0x105#10 ++ f.sd ++ f.sa ++ 0x0#4 ++ f.sb
  | .uxorImm f => 0x105#10 ++ f.sd ++ f.sa ++ 0x1#1 ++ f.imm
  | .ushl f => 0x106#10 ++ f.sd ++ f.sa ++ 0x0#4 ++ f.sb
  | .ushlImm f => 0x106#10 ++ f.sd ++ f.sa ++ 0x1#1 ++ f.imm
  | .ushr f => 0x107#10 ++ f.sd ++ f.sa ++ 0x0#4 ++ f.sb
  | .ushrImm f => 0x107#10 ++ f.sd ++ f.sa ++ 0x1#1 ++ f.imm
  | .usar f => 0x108#10 ++ f.sd ++ f.sa ++ 0x0#4 ++ f.sb
  | .usarImm f => 0x108#10 ++ f.sd ++ f.sa ++ 0x1#1 ++ f.imm
  | .uminI f => 0x109#10 ++ f.sd ++ f.sa ++ 0x0#4 ++ f.sb
  | .uminIImm f => 0x109#10 ++ f.sd ++ f.sa ++ 0x1#1 ++ f.imm
  | .umaxI f => 0x10a#10 ++ f.sd ++ f.sa ++ 0x0#4 ++ f.sb
  | .umaxIImm f => 0x10a#10 ++ f.sd ++ f.sa ++ 0x1#1 ++ f.imm
  | .umov f => 0x10b#10 ++ f.sd ++ f.sa ++ 0x0#10
  | .umovImm f => 0x10b#10 ++ f.sd ++ 0x1#7 ++ f.imm
  | .uadd64 f => 0x10c#10 ++ f.sd ++ f.sa ++ 0x0#4 ++ f.sb
  | .uadd64Imm f => 0x10c#10 ++ f.sd ++ f.sa ++ 0x1#1 ++ f.imm
  | .ucmp f => 0x10d#10 ++ f.sd ++ f.sa ++ 0x0#1 ++ f.cond ++ f.sb
  | .rdsrV f => 0x240#11 ++ f.vd ++ 0x0#7 ++ f.id
  | .rdsr f => 0x482#12 ++ f.sd ++ 0x0#7 ++ f.id
  | .wrsr f => 0x24200#19 ++ f.sa ++ f.id
  | .vgetx f => 0x243#11 ++ f.vd ++ 0x0#1 ++ f.sa ++ 0x0#7
  | .vsetx f => 0x488#12 ++ f.sd ++ f.va ++ 0x0#7
  | .ldgZ8 f => 0x130#10 ++ f.vt ++ f.sp ++ f.vo ++ f.sc
  | .ldgI8 f => 0x131#10 ++ f.vt ++ f.sp ++ f.vo ++ f.sc
  | .ldgZ16 f => 0x132#10 ++ f.vt ++ f.sp ++ f.vo ++ f.sc
  | .ldgI16 f => 0x133#10 ++ f.vt ++ f.sp ++ f.vo ++ f.sc
  | .ldgB32 f => 0x134#10 ++ f.vt ++ f.sp ++ f.vo ++ f.sc
  | .ldgB64 f => 0x135#10 ++ f.vt ++ f.sp ++ f.vo ++ f.sc
  | .ldgB128 f => 0x136#10 ++ f.vt ++ f.sp ++ f.vo ++ f.sc
  | .lduB32 f => 0x26e#11 ++ f.sd ++ f.sp ++ 0x3f8#10
  | .lduB64 f => 0x270#11 ++ f.sd ++ f.sp ++ 0x3f8#10
  | .stgB8 f => 0x140#10 ++ f.vt ++ f.sp ++ f.vo ++ f.sc
  | .stgB16 f => 0x141#10 ++ f.vt ++ f.sp ++ f.vo ++ f.sc
  | .stgB32 f => 0x142#10 ++ f.vt ++ f.sp ++ f.vo ++ f.sc
  | .stgB64 f => 0x143#10 ++ f.vt ++ f.sp ++ f.vo ++ f.sc
  | .stgB128 f => 0x144#10 ++ f.vt ++ f.sp ++ f.vo ++ f.sc
  | .ldsZ16 f => 0x150#10 ++ f.vt ++ f.sp ++ f.vo ++ f.sc
  | .ldsB32 f => 0x154#10 ++ f.vt ++ f.sp ++ f.vo ++ f.sc
  | .ldsB32Wfull f => 0x155#10 ++ f.vt ++ f.sp ++ f.vo ++ f.sc
  | .ldsB32Take f => 0x156#10 ++ f.vt ++ f.sp ++ f.vo ++ f.sc
  | .ldsB64 f => 0x158#10 ++ f.vt ++ f.sp ++ f.vo ++ f.sc
  | .ldsB64Wfull f => 0x159#10 ++ f.vt ++ f.sp ++ f.vo ++ f.sc
  | .ldsB64Take f => 0x15a#10 ++ f.vt ++ f.sp ++ f.vo ++ f.sc
  | .ldsB128 f => 0x15c#10 ++ f.vt ++ f.sp ++ f.vo ++ f.sc
  | .ldsB128Wfull f => 0x15d#10 ++ f.vt ++ f.sp ++ f.vo ++ f.sc
  | .ldsB128Take f => 0x15e#10 ++ f.vt ++ f.sp ++ f.vo ++ f.sc
  | .stsB16 f => 0x160#10 ++ f.vt ++ f.sp ++ f.vo ++ f.sc
  | .stsB32 f => 0x164#10 ++ f.vt ++ f.sp ++ f.vo ++ f.sc
  | .stsB32Put f => 0x165#10 ++ f.vt ++ f.sp ++ f.vo ++ f.sc
  | .stsB32Fill f => 0x166#10 ++ f.vt ++ f.sp ++ f.vo ++ f.sc
  | .stsB32Drain f => 0x167#10 ++ f.vt ++ f.sp ++ f.vo ++ f.sc
  | .stsB64 f => 0x168#10 ++ f.vt ++ f.sp ++ f.vo ++ f.sc
  | .stsB64Put f => 0x169#10 ++ f.vt ++ f.sp ++ f.vo ++ f.sc
  | .stsB64Fill f => 0x16a#10 ++ f.vt ++ f.sp ++ f.vo ++ f.sc
  | .stsB64Drain f => 0x16b#10 ++ f.vt ++ f.sp ++ f.vo ++ f.sc
  | .stsB128 f => 0x16c#10 ++ f.vt ++ f.sp ++ f.vo ++ f.sc
  | .stsB128Put f => 0x16d#10 ++ f.vt ++ f.sp ++ f.vo ++ f.sc
  | .stsB128Fill f => 0x16e#10 ++ f.vt ++ f.sp ++ f.vo ++ f.sc
  | .stsB128Drain f => 0x16f#10 ++ f.vt ++ f.sp ++ f.vo ++ f.sc
  | .atomgAdd f => 0x170#10 ++ f.ord ++ f.scope ++ f.w ++ f.ret ++ 0x0#2 ++ f.vd ++ f.va
  | .atomgFadd f => 0x171#10 ++ f.ord ++ f.scope ++ f.w ++ f.ret ++ 0x0#2 ++ f.vd ++ f.va
  | .atomgMinI f => 0x172#10 ++ f.ord ++ f.scope ++ f.w ++ f.ret ++ 0x0#2 ++ f.vd ++ f.va
  | .atomgMaxI f => 0x173#10 ++ f.ord ++ f.scope ++ f.w ++ f.ret ++ 0x0#2 ++ f.vd ++ f.va
  | .atomgMinZ f => 0x174#10 ++ f.ord ++ f.scope ++ f.w ++ f.ret ++ 0x0#2 ++ f.vd ++ f.va
  | .atomgMaxZ f => 0x175#10 ++ f.ord ++ f.scope ++ f.w ++ f.ret ++ 0x0#2 ++ f.vd ++ f.va
  | .atomgAnd f => 0x176#10 ++ f.ord ++ f.scope ++ f.w ++ f.ret ++ 0x0#2 ++ f.vd ++ f.va
  | .atomgOr f => 0x177#10 ++ f.ord ++ f.scope ++ f.w ++ f.ret ++ 0x0#2 ++ f.vd ++ f.va
  | .atomgXor f => 0x178#10 ++ f.ord ++ f.scope ++ f.w ++ f.ret ++ 0x0#2 ++ f.vd ++ f.va
  | .atomgExch f => 0x179#10 ++ f.ord ++ f.scope ++ f.w ++ f.ret ++ 0x0#2 ++ f.vd ++ f.va
  | .atomgCas f => 0x17a#10 ++ f.ord ++ f.scope ++ f.w ++ f.ret ++ 0x0#2 ++ f.vd ++ f.va
  | .atomgLd f => 0x17b#10 ++ f.ord ++ f.scope ++ f.w ++ 0x4#3 ++ f.vd ++ f.va
  | .atomgSt f => 0x17c#10 ++ f.ord ++ f.scope ++ f.w ++ 0x0#3 ++ f.vd ++ f.va
  | .atomgXadd f => 0x17d#10 ++ f.ord ++ f.scope ++ 0x0#4 ++ f.vd ++ f.va
  | .atomsAdd f => 0x180#10 ++ f.ord ++ 0x0#2 ++ f.w ++ f.ret ++ 0x0#2 ++ f.vd ++ f.va
  | .atomsFadd f => 0x181#10 ++ f.ord ++ 0x0#2 ++ f.w ++ f.ret ++ 0x0#2 ++ f.vd ++ f.va
  | .atomsMinI f => 0x182#10 ++ f.ord ++ 0x0#2 ++ f.w ++ f.ret ++ 0x0#2 ++ f.vd ++ f.va
  | .atomsMaxI f => 0x183#10 ++ f.ord ++ 0x0#2 ++ f.w ++ f.ret ++ 0x0#2 ++ f.vd ++ f.va
  | .atomsMinZ f => 0x184#10 ++ f.ord ++ 0x0#2 ++ f.w ++ f.ret ++ 0x0#2 ++ f.vd ++ f.va
  | .atomsMaxZ f => 0x185#10 ++ f.ord ++ 0x0#2 ++ f.w ++ f.ret ++ 0x0#2 ++ f.vd ++ f.va
  | .atomsAnd f => 0x186#10 ++ f.ord ++ 0x0#2 ++ f.w ++ f.ret ++ 0x0#2 ++ f.vd ++ f.va
  | .atomsOr f => 0x187#10 ++ f.ord ++ 0x0#2 ++ f.w ++ f.ret ++ 0x0#2 ++ f.vd ++ f.va
  | .atomsXor f => 0x188#10 ++ f.ord ++ 0x0#2 ++ f.w ++ f.ret ++ 0x0#2 ++ f.vd ++ f.va
  | .atomsExch f => 0x189#10 ++ f.ord ++ 0x0#2 ++ f.w ++ f.ret ++ 0x0#2 ++ f.vd ++ f.va
  | .atomsCas f => 0x18a#10 ++ f.ord ++ 0x0#2 ++ f.w ++ f.ret ++ 0x0#2 ++ f.vd ++ f.va
  | .fence f => 0x6400000#28 ++ f.scope ++ f.ord
  | .ifence => 0x64200000#32
  | .waitc f => 0x1a#6 ++ f.ld ++ f.st ++ f.eng ++ f.mx ++ 0x0#6
  | .binit f => 0x360#11 ++ f.n ++ 0x0#10 ++ f.b
  | .barrive f => 0x6c2#12 ++ f.sd ++ 0x0#10 ++ f.b
  | .bwait f => 0x6c4#12 ++ f.sd ++ 0x0#1 ++ f.sa ++ 0x0#3 ++ f.b
  | .bsync f => 0x6c60000#28 ++ f.b
  | .semset f => 0x36400#19 ++ f.sa ++ 0x0#2 ++ f.sm
  | .semadd f => 0x36500#19 ++ f.sa ++ f.scope ++ f.sm
  | .semwait f => 0x36600#19 ++ f.sa ++ f.scope ++ f.sm
  | .watch f => 0x6ce#12 ++ f.sd ++ 0x0#1 ++ f.sa ++ 0x0#6 ++ f.w
  | .watchSpad f => 0x6ce#12 ++ f.sd ++ 0x0#1 ++ f.sa ++ 0x1#6 ++ f.w
  | .park f => 0x6d0#12 ++ f.sd ++ 0x0#1 ++ f.sa ++ 0x0#7
  | .unwatch f => 0x36900000#31 ++ f.w
  | .sloop f => 0x700#12 ++ f.sc ++ 0x0#1 ++ f.sf ++ f.w
  | .siter f => 0x702#12 ++ f.sd ++ 0x0#14
  | .stadv f => 0x38200#19 ++ f.sa ++ f.n
  | .stjmp f => 0x38300#19 ++ f.sa ++ f.n
  | .waitl f => 0x38400#19 ++ f.sa ++ f.n
  | .sdone => 0x70a00000#32
  | .send => 0x70c00000#32
  | .spost f => 0x38700#19 ++ f.sa ++ 0x0#5 ++ f.scope
  | .waitm f => 0x710#12 ++ f.sd ++ 0x0#1 ++ f.sa ++ 0x0#4 ++ f.w ++ f.scope
  | .sread f => 0x712#12 ++ f.sd ++ 0x0#1 ++ f.sa ++ 0x0#7
  | .layset f => 0x740#12 ++ f.lay ++ 0x0#1 ++ f.sa ++ 0x0#7
  | .laysetSpad f => 0x740#12 ++ f.lay ++ 0x0#1 ++ f.sa ++ 0x1#7
  | .cpy f => 0x742#12 ++ f.ld ++ 0x0#1 ++ f.ls ++ f.scope ++ f.sm
  | .gath f => 0x744#12 ++ f.ld ++ 0x0#1 ++ f.ls ++ f.scope ++ f.sm
  | .scat f => 0x746#12 ++ f.ld ++ 0x0#1 ++ f.ls ++ f.scope ++ f.sm
  | .mstart f => 0x748#12 ++ f.sd ++ 0x0#1 ++ f.sa ++ 0x0#7
  | .accget f => 0x3a5#11 ++ f.vd ++ 0x0#1 ++ f.sa ++ 0x0#3 ++ f.ac
  | .accgetSt f => 0x74a#12 ++ f.sd ++ 0x4#10 ++ f.b
  | .accput f => 0x3a6#11 ++ f.vd ++ 0x0#1 ++ f.sa ++ 0x0#3 ++ f.ac
  | .rlds f => 0x1e0#10 ++ f.vt ++ f.sp ++ f.vo ++ f.sc
  | .rldsWfull f => 0x1e1#10 ++ f.vt ++ f.sp ++ f.vo ++ f.sc
  | .rldsTake f => 0x1e2#10 ++ f.vt ++ f.sp ++ f.vo ++ f.sc
  | .rsts f => 0x1e4#10 ++ f.vt ++ f.sp ++ f.vo ++ f.sc
  | .rstsPut f => 0x1e5#10 ++ f.vt ++ f.sp ++ f.vo ++ f.sc
  | .rstsFill f => 0x1e6#10 ++ f.vt ++ f.sp ++ f.vo ++ f.sc
  | .rstsDrain f => 0x1e7#10 ++ f.vt ++ f.sp ++ f.vo ++ f.sc
  | .ratomAdd f => 0x1e8#10 ++ f.vt ++ f.sp ++ f.vo ++ f.sc
  | .ratomExch f => 0x1e9#10 ++ f.vt ++ f.sp ++ f.vo ++ f.sc
  | .ratomCas f => 0x1ea#10 ++ f.vt ++ f.sp ++ f.vo ++ f.sc
  | .ratomOr f => 0x1eb#10 ++ f.vt ++ f.sp ++ f.vo ++ f.sc
  | .bra f => 0x800#12 ++ f.off
  | .braAny f => 0x101#9 ++ f.kc ++ f.off
  | .braAll f => 0x102#9 ++ f.kc ++ f.off
  | .braNone f => 0x103#9 ++ f.kc ++ f.off
  | .braDiv f => 0x104#9 ++ f.kc ++ f.off
  | .call f => 0x828#12 ++ f.off
  | .jmpi f => 0x42000#19 ++ f.sa ++ 0x0#7
  | .calli f => 0x842#12 ++ f.sd ++ 0x0#1 ++ f.sa ++ 0x0#7
  | .ret f => 0x42200#19 ++ f.sa ++ 0x0#7
  | .join => 0x84600000#32
  | .yield => 0x84800000#32
  | .nop => 0x84a00000#32
  | .exit => 0x84c00000#32
  | .trap f => 0x1100000#25 ++ f.n
  | .tretRetry => 0x88200000#32
  | .tretSkip => 0x88200001#32
  | .brk => 0x88400000#32
  | .hget f => 0x460#11 ++ f.d ++ 0x0#1 ++ f.sa ++ f.imm
  | .hset f => 0x461#11 ++ f.d ++ 0x0#1 ++ f.sa ++ f.imm
  | .hldone f => 0x462#11 ++ f.vs ++ 0x0#1 ++ f.sa ++ 0x0#7
  | .resumeContinue f => 0x8c6#12 ++ f.sd ++ 0x0#1 ++ f.sa ++ 0x0#7
  | .resumeDrop f => 0x8c6#12 ++ f.sd ++ 0x0#1 ++ f.sa ++ 0x1#7
  | .resumeRetry f => 0x8c6#12 ++ f.sd ++ 0x0#1 ++ f.sa ++ 0x2#7
  | .kill f => 0x8c8#12 ++ f.sd ++ 0x0#1 ++ f.sa ++ 0x0#7
  | .launch f => 0x900#12 ++ f.sd ++ 0x0#1 ++ f.sa ++ 0x0#5 ++ f.cls
  | .lstat f => 0x902#12 ++ f.sd ++ 0x0#1 ++ f.sa ++ 0x0#7
  | .mclaim f => 0x300#10 ++ f.kind ++ f.first ++ f.cnt ++ 0x0#11
  | .mrel f => 0x301#10 ++ f.kind ++ f.first ++ f.cnt ++ 0x0#11
  | .mload f => 0x302#10 ++ f.slot ++ f.lay ++ f.type ++ f.role ++ f.qo ++ f.q ++ 0x0#2
  | .mloadp f => 0x303#10 ++ f.slot ++ f.lay ++ f.qo ++ f.q ++ 0x0#6
  | .mtadd f => 0x304#10 ++ f.tile ++ f.lay ++ f.src ++ f.qo ++ f.q ++ 0x0#5
  | .mma f => 0x310#10 ++ f.c ++ f.a ++ f.b ++ f.rm ++ 0x0#5
  | .mmas f => 0x311#10 ++ f.c ++ f.a ++ f.b ++ f.md ++ f.dens ++ f.rm
  | .mmap f => 0x312#10 ++ f.c ++ f.a ++ f.b ++ 0x0#8
  | .mzero f => 0x320#10 ++ f.tile ++ f.fmt ++ 0x0#16
  | .mscale f => 0x321#10 ++ f.tile ++ f.lay ++ f.side ++ f.e ++ f.q ++ 0x0#4
  | .mstore f => 0x322#10 ++ f.tile ++ f.lay ++ f.type ++ f.rm ++ f.qo ++ f.q ++ 0x0#1
  | .mbarSync f => 0xcc0#12 ++ f.b ++ 0x0#16
  | .mbarArrive f => 0xcc1#12 ++ f.b ++ f.q ++ 0x0#12
  | .mbarWait f => 0xcc2#12 ++ f.b ++ f.q ++ 0x0#12
  | .mset f => 0x331#10 ++ f.qd ++ 0x0#2 ++ f.imm
  | .madd f => 0x332#10 ++ f.qd ++ f.qa ++ f.imm
  | .mloop f => 0x333#10 ++ f.q ++ f.off
  | .mbra f => 0xcd00#16 ++ f.off
  | .mbraZ f => 0x334#10 ++ f.q ++ 0x1#2 ++ f.off
  | .mbraNz f => 0x334#10 ++ f.q ++ 0x2#2 ++ f.off
  | .mend => 0xcd400000#32
  | .permissionFill _ _ _ => 0
  | .loadReturn _ _ => 0
  | .storeConfirmed _ => 0
  | .fullEmptyQualified _ _ => 0
  | .fullEmptyTimeout _ _ => 0
  | .remoteBankStep _ _ _ => 0
  | .victimRecompute _ => 0
  | .permissionShootdown _ _ _ _ => 0
  | .permissionShootdownAck _ => 0
  | .translationShootdown _ _ _ => 0
  | .sliceWriteAccept _ => 0
  | .sliceRead _ => 0
  | .translationWalkComplete _ _ _ => 0
  | .faultRecordDelivery _ => 0
  | .secureCoreResolve _ _ => 0
  | .faultServiceBlockStart _ => 0
  | .homeGuestRead _ _ => 0
  | .homeWrite _ => 0
  | .homeAtomic _ _ => 0
  | .homeWatchRegistration _ _ => 0
  | .homeWatchDeregistration _ => 0
  | .directoryEntryEvict _ _ => 0
  | .guestInvalidation _ => 0
  | .guestFill _ => 0
  | .watchStatusAnswer _ => 0
  | .watchReport _ _ _ => 0
  | .parkTimeout _ _ => 0
  | .waitmPoll _ _ => 0
  | .reductionContribution _ => 0
  | .reductionSlotTimeout _ => 0
  | .engineCommandAccept _ _ _ => 0
  | .engineCommandComplete _ _ _ => 0
  | .engineFault _ _ _ => 0
  | .mclaimGrant _ => 0
  | .mclaimTimeout _ => 0
  | .queueTakePacket _ _ => 0
  | .launchAdmit _ _ => 0
  | .blockStart _ _ => 0
  | .blockEnd _ => 0
  | .launchComplete _ => 0
  | .launchTimeLimit _ => 0
  | .doorbellWrite _ _ => 0
  | .pendingQueueBind _ => 0
  | .contextSwitchRequest _ _ _ _ => 0
  | .graceTimerExpiry _ => 0
  | .preemptSave _ => 0
  | .killTimerExpiry _ => 0
  | .timeSliceExpiry _ => 0
  | .restore _ _ => 0
  | .limiterSample _ _ => 0
  | .operatingPointLower _ => 0
  | .operatingPointRaise _ _ => 0
  | .thermalLower _ _ => 0
  | .thermalRaise _ _ => 0
  | .thermalTrip _ _ => 0
  | .coolantFlowLoss _ => 0
  | .heartbeat _ => 0
  | .heartbeatMissed _ => 0
  | .fencedRouterAnswer _ => 0
  | .eccError _ _ _ _ => 0
  | .linkError _ _ _ => 0
  | .dramChannelError _ _ _ _ => 0
  | .regulatorFailure _ => 0
  | .routeChange _ _ _ => 0
  | .coldReset _ => 0
  | .partitionReset _ _ _ => 0
  | .recoveryImageWrite _ _ => 0
  | .attestationReport _ => 0
  | .measurementExtend _ _ => 0
  | .statusWrite _ => 0
  | .powerWrite _ _ _ => 0
  | .timersWrite _ _ _ _ => 0
  | .partitionWrite _ _ _ => 0
  | .slotBindingWrite _ _ _ _ _ _ _ => 0
  | .mgmtRegisterWrite _ _ _ => 0
  | .drainQuiesced => 0
  | .drainImmediate => 0
  | .drainRestore _ => 0
  | .drainComplete => 0
  | .powerFailWarning => 0
  | .biasToDevice _ => 0
  | .biasToHost _ => 0
  | .birspArrival _ _ _ => 0
  | .hostHdmRead _ _ => 0
  | .hostHdmWrite _ _ _ => 0
  | .hostSnpInv _ => 0
  | .hostSnpData _ => 0
  | .hostSnpCur _ => 0
  | .relufCrcFail _ _ => 0
  | .waferUnreachableTimeout _ => 0
  | .collectiveDescriptor _ _ => 0
  | .collectiveComplete _ _ _ _ => 0
  | .collectiveAbandon _ _ _ _ _ _ => 0
  | .illegalWord _ => 0
  | .illegalStreamWord _ => 0
  | .cxlCacheHostResponse _ _ _ => 0
  | .invalidationAcknowledgement _ => 0
  | .accumulatorMoveComplete _ _ => 0
  | .domainUnitError _ _ => 0
  | .clockRelockComplete _ => 0
  | .configurationRequest => 0

end Sys2Proof
end

