-- ==== Sys2Proof/Machine/Control.lean ====
section
/-! DEFINITION. BRANCH, TRAP and JUMP but for `exit`: branches, divergence and joins, calls, and software traps (04 R81 to R98, 06 R137 to R143). -/

namespace Sys2Proof.Machine

/-! ## Branches -/

/-- The target of a branch: its own address and a signed count of words (02 R27). -/
def Issuer.target (x : Issuer) (off : BitVec 20) : VA := x.cur.bundle.ipc + (off.signExtend 55 <<< 2)

/-- A branch that goes to its target when a test of the split's lanes and the mask holds (06 R137). -/
def branchIf (test : Word → Word → Bool) (f : BrK) (s : State) : Out :=
  withIssuer s fun x =>
    let l := x.split.lanes
    if test l (l &&& x.reel.kget l f.kc.toNat) then x.jump x.reel (x.target f.off) else x.retire x.reel

/-- BRANCH cond 0 (06 R137). -/
def execBra (f : BrU) (s : State) : Out := withIssuer s fun x => x.jump x.reel (x.target f.off)
/-- BRANCH cond 1 (06 R137). -/
def execBraAny (f : BrK) (s : State) : Out := branchIf (fun _ t => t != 0) f s
/-- BRANCH cond 2 (06 R137). -/
def execBraAll (f : BrK) (s : State) : Out := branchIf (fun l t => t == l) f s
/-- BRANCH cond 3 (06 R137). -/
def execBraNone (f : BrK) (s : State) : Out := branchIf (fun _ t => t == 0) f s

/-- The lowest split number that is free, of four (04 R81). -/
def Reel.freeSplit (r : Reel) : Option Nat := (List.range 4).find? fun i => (r.splits.find? i).isNone

/-- Diverge (04 R81) where both sides hold lanes and the stack has room: in split mode a new split takes the target; in stack mode the entry
keeps the other side pending. -/
def Issuer.diverge (x : Issuer) (taken rest : Word) (target : VA) : Out :=
  let r := x.reel
  let id := r.nextEntry
  let stack := id :: x.split.stack
  match r.freeSplit with
  | some i =>
    let r := { r with entries := r.entries.put id ⟨x.split.lanes, 0, none, none⟩, nextEntry := id + 1
                      splits := r.splits.put i ⟨target, taken, stack, false, false, none, none⟩ }
    x.retireAs x.s r { x.split with pc := x.nextPc, lanes := rest, stack := stack }
  | none =>
    let r := { r with entries := r.entries.put id ⟨x.split.lanes, 0, none, some (x.nextPc, rest)⟩, nextEntry := id + 1 }
    x.retireAs x.s r { x.split with pc := target, lanes := taken, stack := stack }

/-- BRANCH cond 4 (04 R81, 06 R137). -/
def execBraDiv (f : BrK) (s : State) : Out :=
  withIssuer s fun x =>
    let l := x.split.lanes
    let k := x.reel.kget l f.kc.toNat
    if l &&& k = 0 then x.retire x.reel
    else if l &&& ~~~k = 0 then x.jump x.reel (x.target f.off)
    else if 8 ≤ x.split.stack.length then x.takeTrap x.reel 4 x.cur.bundle.word l 0
    else x.diverge (l &&& k) (l &&& ~~~k) (x.target f.off)

/-- A pc as a link pair (06 R137). -/
def linkOf (pc : VA) : DWord := pc.setWidth 64

/-- Moves the split to an address with a link in a uniform pair; waits at issue while the pair is the destination of an outstanding load. -/
def Issuer.callTo (x : Issuer) (sd : Nat) (target : VA) : Out :=
  if x.reel.busyS sd || x.reel.busyS (sd + 1) then x.wait else x.jump (x.reel.setSpair sd (linkOf x.nextPc)) target

/-- BRANCH cond 5 (06 R137). -/
def execCall (f : BrU) (s : State) : Out := withIssuer s fun x => x.callTo 62 (x.target f.off)

/-! ## Jumps -/

/-- The target of a jump through a uniform pair (06 R139). -/
def Reel.jumpTarget (r : Reel) (sa : Nat) : VA := r.saddr sa &&& ~~~3

/-- A jump through an even pair (06 R139). -/
def jumpPair (f : SA) (s : State) : Out :=
  withIssuer s fun x => if isEven f.sa then x.jump x.reel (x.reel.jumpTarget f.sa.toNat) else x.illegal

/-- JUMP fn 0 (06 R139). -/
def execJmpi (f : SA) (s : State) : Out := jumpPair f s
/-- JUMP fn 1 (06 R139). -/
def execCalli (f : S2) (s : State) : Out :=
  withIssuer s fun x =>
    if isEven f.sd && isEven f.sa && f.sd != 0 then x.callTo f.sd.toNat (x.reel.jumpTarget f.sa.toNat) else x.illegal
/-- JUMP fn 2 (06 R139, R141). -/
def execRet (f : SA) (s : State) : Out := jumpPair f s

/-- Entries that no split's stack holds are gone. -/
def Reel.dropEntries (r : Reel) : Reel :=
  { r with entries := r.entries.keep fun i _ => r.splits.any fun p => p.2.stack.contains i }

/-- Merges the splits `nums`, whose top entry is complete, into the lowest of them, which goes on after the join (04 R82). -/
def Reel.merge (r : Reel) (nums : List Nat) (join : Word) (pc : VA) (below : List Nat) : Reel :=
  match nums.min? with
  | none => r
  | some i =>
    let splits := r.splits.keep fun j _ => !nums.contains j
    ({ r with splits := splits.put i ⟨pc, join, below, false, false, none, none⟩ } : Reel).dropEntries

/-- The splits whose top entry is `e` and which stand parked at its join (04 R82, R83). -/
def Reel.parkedOn (r : Reel) (e : Nat) : List Nat :=
  (r.splits.filter fun p => p.2.parked && p.2.stack.head? == some e).map (·.1)

/-- JUMP fn 3: Join (04 R82, 06 R139). -/
def execJoin (s : State) : Out :=
  withIssuer s fun x =>
    let r := x.reel
    let j := x.cur.bundle.ipc
    match x.split.stack with
    | [] => x.retire r
    | id :: below =>
      match r.entries.find? id with
      | none => x.retire r
      | some e =>
        if e.joinPc.getD j ≠ j then x.takeTrap r 5 x.cur.bundle.word x.split.lanes 0
        else
          let e := { e with joinPc := some j, arrived := e.arrived ||| x.split.lanes }
          if e.arrived = e.join then
            x.finish x.s (r.merge (x.cur.split :: r.parkedOn id) e.join (j + 4) below)
          else
            match e.pending with
            | some (pc, lanes) =>
              x.retireAs x.s { r with entries := r.entries.put id { e with pending := none } }
                { x.split with pc := pc, lanes := lanes }
            | none =>
              x.retireAs x.s { r with entries := r.entries.put id e } { x.split with pc := j, parked := true }

/-- JUMP fn 4: the split issues nothing in the next cycle, and other ready splits have the reel's next turn (06 R139). -/
def execYield (s : State) : Out :=
  withIssuer s fun x => x.retire { x.reel with yielded := some (x.cur.split, x.s.clock x.coreId + 2) }

/-! ## Software traps -/

/-- TRAP fn 0 (06 R142, 04 R93). -/
def execTrap (f : TrapN) (s : State) : Out :=
  withIssuer s fun x => x.takeTrap x.reel 6 x.cur.bundle.word x.split.lanes (f.n.setWidth 32 <<< 16)
/-- TRAP fn 1 retry (06 R142, 04 R97). -/
def execTretRetry (s : State) : Out := withIssuer s fun x => x.trapReturn false
/-- TRAP fn 1 skip (06 R142, 04 R97). -/
def execTretSkip (s : State) : Out := withIssuer s fun x => x.trapReturn true
/-- TRAP fn 2 (06 R142). -/
def execBrk (s : State) : Out := withIssuer s fun x => x.takeTrap x.reel 7 x.cur.bundle.word x.split.lanes 0

end Sys2Proof.Machine
end

