-- ==== Sys2Proof/Machine/Stage.lean ====
section
/-! DEFINITION. STAGE: staged loops (10 R204 to R221). -/

namespace Sys2Proof.Machine

/-- The counter of an iteration that has passed every stage (10 R206). -/
def topCount : Nat := 0xFFFF

/-- The predicate of every stage wait (10 R206). -/
def passed (c s : Nat) : Bool := s < c || c == topCount

/-- The live entry of an iteration. -/
def Block.liveEntry (b : Block) (iter : Nat) : Option StageEntry :=
  (List.find? (fun e => e.2.iter == iter && !e.2.complete) b.stages).map (·.2)

/-- Is an iteration of the loop complete: admitted, and live no more? -/
def Block.isComplete (b : Block) (iter : Nat) : Bool :=
  b.loop.f ≤ iter && iter < b.loop.next && (b.liveEntry iter).isNone

/-- The counter of iteration `iter` − 1 as its successor sees it: 0xFFFF when it is complete or lies below f (10 R206). -/
def Block.predCount (b : Block) (iter : Nat) : Nat :=
  if iter ≤ b.loop.f then topCount
  else match b.liveEntry (iter - 1) with | some e => e.counter.toNat | none => topCount

/-- The unconfirmed stores that an iteration's advances have handed on (10 R208). -/
def Block.stageCarry (b : Block) (iter : Nat) : List Nat :=
  match b.liveEntry iter with | some e => e.carry | none => b.loop.carries.findD [] iter

/-- Those that all complete iterations of the loop hand on. -/
def LoopCtl.carry (l : LoopCtl) : List Nat := l.carries.foldl (fun a e => unionNew a e.2) []

/-- Those of the predecessor of iteration `iter`. -/
def Block.predCarry (b : Block) (iter : Nat) : List Nat := if iter ≤ b.loop.f then [] else b.stageCarry (iter - 1)

/-- The entry of a reel's live iteration. -/
def Issuer.entry (x : Issuer) : Option (Nat × StageEntry) :=
  x.reel.iter.bind fun i => (x.block.stages.find? i).map fun e => (i, e)

/-! ## Opening and admission -/

/-- STAGE fn 0 (10 R212). -/
def execSloop (f : SLoopOp) (s : State) : Out :=
  withIssuer s fun x =>
    let n := (x.reel.sget f.sc.toNat).toNat
    let first := (x.reel.sget f.sf.toNat).toNat
    if !f.ok || x.block.loop.isOpen || 2 ^ 31 ≤ first || 2 ^ 31 < first + n then x.illegal
    else x.retireFrom (x.s.onBlock x.reel.block fun b =>
      { b with loop := ⟨true, first, n, first, f.w.toNat, b.loop.gen + 1, []⟩, stages := [] })

/-- May the next iteration be admitted (10 R205)? -/
def Block.mayAdmit (b : Block) : Bool :=
  b.stages.all fun e => e.2.complete || b.loop.next < e.2.iter + b.loop.w

/-- Has some split of the block waited longer at `siter` than order `n` (10 R205)? -/
def State.waitsBefore (s : State) (block n : Nat) : Bool :=
  s.reels.any fun r => r.2.block == block && r.2.splits.any fun p =>
    match p.2.wait with | some (.siter m) => m < n | _ => false

/-- Admits the next iteration to a reel (10 R205): its entry is the lowest free or complete one. -/
def State.admitIter (s : State) (key block sd : Nat) : State :=
  match s.blocks.find? block with
  | none => s
  | some b =>
    let free := (List.range 32).find? fun i => match b.stages.find? i with | some e => e.complete | none => true
    let i := free.getD 0
    let n := b.loop.next
    let b := { b with loop := { b.loop with next := n + 1 }, stages := b.stages.put i ⟨n, 0, slotOfKey key, false, []⟩ }
    (s.setBlock block b).onReel key fun r => { r with iter := some i }.sset sd (BitVec.ofNat 32 n)

/-- STAGE fn 1 (10 R213). -/
def execSiter (f : SD) (s : State) : Out :=
  withIssuer s fun x =>
    let lp := x.block.loop
    let sd := f.sd.toNat
    if x.reel.iter.isSome then x.illegal
    else if x.reel.busyS sd then x.wait
    else if !lp.isOpen || lp.f + lp.n ≤ lp.next then x.retireFrom (x.s.onReel x.key fun r => r.sset sd 0xFFFFFFFF)
    else
      let order := match x.split.wait with | some (.siter n) => n | _ => x.s.nextId
      if x.block.mayAdmit && !x.s.waitsBefore x.reel.block order then x.retireFrom (x.s.admitIter x.key x.reel.block sd)
      else x.waitIn { x.s with nextId := x.s.nextId + 1 } x.reel (.siter order)

/-! ## Advancing and waiting -/

/-- A wait on the predecessor of iteration `iter` once an advance to a count has handed stores on (10 R207, R214). -/
def Wait.advanced (iter count : Nat) (carry : List Nat) : Wait → Wait
  | .waitl i stage none => .waitl i stage (if i = iter + 1 ∧ passed count stage then some carry else none)
  | w => w

/-- Changes the waits of every reel of a block. -/
def State.mapBlockWaits (s : State) (block : Nat) (f : Wait → Wait) : State :=
  { s with reels := s.reels.mapVals fun _ r => if r.block = block then r.mapWaits f else r }

/-- Changes the counter of a block's entry, hands stores on to what acquires from it, and readies every split whose stage its successor waits for is
passed now (10 R207, R208, R214). -/
def State.advance (s : State) (block i : Nat) (count : Nat → Nat) (carry : List Nat) : State :=
  match (s.blocks.find? block).bind fun b => b.stages.find? i with
  | none => s
  | some e =>
    let c := count e.counter.toNat
    let e := { e with counter := BitVec.ofNat 16 c, carry := unionNew (e.carry.filter fun x => !s.storeGone x) carry }
    (s.onBlock block fun b => { b with stages := b.stages.put i e }).mapBlockWaits block (Wait.advanced e.iter c e.carry)

/-- Does a split wait in the release of an advance that issued before identity `mark`: `stadv`, `stjmp` or `sdone`? -/
def Split.advancesBefore (p : Split) (mark : Nat) : Bool :=
  match p.wait, p.bundle with
  | some (.release m _), some b =>
    let fn := (b.word.extractLsb' 21 5).toNat
    decide (m < mark) && b.word.extractLsb' 26 6 == 0x1C && (fn == 2 || fn == 3 || fn == 5)
  | _, _ => false

/-- What a stage instruction reads as it issues and keeps while it waits: the iteration of its reel, the loop's generation, and an operand; none when
the reel holds no live iteration. -/
def Issuer.stageRead (x : Issuer) (arg : Nat) : Option (List Nat) :=
  match x.split.wait with
  | some (.release _ r) => some r
  | _ => x.entry.map fun e => [e.2.iter, x.block.loop.gen.toNat, arg]

/-- The entry of the iteration that was read, while it is still live. -/
def Issuer.readEntry (x : Issuer) (read : List Nat) : Option (Nat × StageEntry) :=
  x.entry.filter fun e => e.2.iter == read.getD 0 0 && x.block.loop.gen.toNat == read.getD 1 0

/-- An advance of the reel's live iteration: the block-scope release, then the counter (10 R207, R214). Advances of a reel apply in issue order (10
R209): one waits for the releases of its siblings' earlier ones. Its iteration and its operand are those at issue, and an iteration that another split
has completed meanwhile is left as it is (DESIGN CHOICE: 10 R214 does not say when they are read; log entry 92). -/
def Issuer.advanceBy (x : Issuer) (arg : Nat) (k : List Nat → Nat → Nat → State) : Out :=
  match x.stageRead arg with
  | none => x.illegal
  | some read =>
    let before := fun (mark : Nat) => x.reel.splits.any fun p => p.1 != x.cur.split && p.2.advancesBefore mark
    x.releaseWith 0 read before fun carry read =>
      match x.readEntry read with
      | some (i, _) => x.retireFrom (k carry i (read.getD 2 0))
      | none => x.retire x.reel

/-- The operand of `stadv`, `stjmp` and `waitl` (10 R214). -/
def Issuer.stageArg (x : Issuer) (f : StOp) : Nat := (x.reel.sget f.sa.toNat).toNat + x.cur.bundle.hints.imm7 f.n

/-- STAGE fn 2 (10 R214). -/
def execStadv (f : StOp) (s : State) : Out :=
  withIssuer s fun x => x.advanceBy (x.stageArg f) fun carry i a => x.s.advance x.reel.block i (fun c => min topCount (c + a)) carry

/-- STAGE fn 3 (10 R214). -/
def execStjmp (f : StOp) (s : State) : Out :=
  withIssuer s fun x => x.advanceBy (x.stageArg f) fun carry i t => x.s.advance x.reel.block i (fun c => max c (min topCount t)) carry

/-- STAGE fn 4 (10 R215). The iteration whose predecessor is waited for is that of issue, whatever the reel's other splits do meanwhile (DESIGN
CHOICE: the spec does not say; log entry 92). -/
def execWaitl (f : StOp) (s : State) : Out :=
  withIssuer s fun x =>
    match x.split.wait, x.entry with
    | some (.waitl _ _ (some carry)), _ => x.retireFrom (x.acquire x.s 0 carry)
    | some (.waitl ..), _ => x.wait
    | _, some (_, e) =>
      let stage := min topCount (x.stageArg f)
      if passed (x.block.predCount e.iter) stage then x.retireFrom (x.acquire x.s 0 (x.block.predCarry e.iter))
      else x.waitIn x.s x.reel (.waitl e.iter stage none)
    | _, none => x.illegal

/-- Completes a reel's live iteration (10 R217): its stores go on to what acquires from it and from the loop. -/
def State.completeIter (s : State) (key block i : Nat) (carry : List Nat) : State :=
  let s := s.advance block i (fun _ => topCount) carry
  let done := fun (b : Block) =>
    match b.stages.find? i with
    | some e => { b with loop := { b.loop with carries := b.loop.carries.putD [] e.iter e.carry }, stages := b.stages.put i { e with complete := true } }
    | none => b
  (s.onBlock block done).onReel key fun r => { r with iter := none }

/-- STAGE fn 5 (10 R217). -/
def execSdone (s : State) : Out :=
  withIssuer s fun x => x.advanceBy 0 fun carry i _ => x.s.completeIter x.key x.reel.block i carry

/-- Has the loop admitted every iteration, all of them complete? -/
def Block.loopDone (b : Block) : Bool := b.loop.f + b.loop.n ≤ b.loop.next && b.stages.all fun e => e.2.complete

/-- A wait of `send` once the loop of a generation has been closed. -/
def Wait.closed (gen : BitVec 8) (carry : List Nat) : Wait → Wait
  | .send g none => .send g (if g = gen then some carry else none)
  | w => w

/-- Closes a block's loop: every split that waits for it in `send` goes on (10 R218). -/
def State.closeLoop (s : State) (block : Nat) (l : LoopCtl) : State :=
  (s.onBlock block fun b => { b with loop := { b.loop with isOpen := false }, stages := [] }).mapBlockWaits block (Wait.closed l.gen l.carry)

/-- STAGE fn 6 (10 R218). -/
def execSend (s : State) : Out :=
  withIssuer s fun x =>
    let lp := x.block.loop
    let test := fun (gen : BitVec 8) =>
      if x.block.loopDone then x.retireFrom (x.acquire (x.s.closeLoop x.reel.block lp) 0 lp.carry) else x.waitIn x.s x.reel (.send gen none)
    match x.split.wait with
    | some (.send _ (some carry)) => x.retireFrom (x.acquire x.s 0 carry)
    | some (.send gen none) => test gen
    | _ => if x.reel.iter.isSome then x.illegal else if !lp.isOpen then x.retire x.reel else test lp.gen

/-- STAGE fn 9 (10 R216). -/
def execSread (f : S2) (s : State) : Out :=
  withIssuer s fun x =>
    let j := (x.reel.sget f.sa.toNat).toNat
    let b := x.block
    let v :=
      if !b.loop.isOpen then 0
      else match b.liveEntry j with
        | some e => e.counter.toNat
        | none => if j < b.loop.next then topCount else 0
    let sids := if b.loop.isOpen && j < b.loop.next then b.stageCarry j else []
    if x.reel.busyS f.sd.toNat then x.wait
    else x.retireFrom ((x.acquire x.s 0 sids).onReel x.key fun r => r.sset f.sd.toNat (BitVec.ofNat 32 v))

/-! ## Stage words in memory -/

/-- The address of a stage word: an even pair's, aligned to 4 (10 R219). -/
def Reel.stageAddr (r : Reel) (sa : Nat) : Nat := let a := (r.saddr sa).toNat; a - a % 4

/-- Posts a counter to a stage word with a release's stores handed on (10 R219). -/
def Issuer.post (x : Issuer) (scope va c : Nat) (carry : List Nat) : Out :=
  let i := imageOf va 4 c x.active
  let s := x.startStore (x.s.handOn x.coreId x.reel.block scope carry) [(i.line, i)]
  x.retireFrom (if 1 ≤ scope then s.setPublished x.reel.block else s)

/-- STAGE fn 7 (10 R219): address and permission before the release, and the counter after it: that of the iteration live at issue, 0xFFFF once that
is complete (log entry 92). -/
def execSpost (f : SPostOp) (s : State) : Out :=
  withIssuer s fun x =>
    let scope := f.scope.toNat
    match x.stageRead (x.reel.stageAddr f.sa.toNat) with
    | none => x.illegal
    | some read =>
      let go := x.releaseWith scope read (fun _ => 63 ≤ x.reel.st || Config.attributionEntries ≤ x.s.attrUsed x.coreId) fun carry read =>
        x.post scope (read.getD 2 0) (((x.readEntry read).map fun e => e.2.counter.toNat).getD topCount) carry
      if !isEven f.sa then x.illegal
      else match x.split.wait with
        | some (.release ..) => go
        | _ => x.withPerm [(0, read.getD 2 0)] ⟨false, true, false⟩ true go

/-- Arms slot w for a `waitm` and waits for the answer (10 R220). -/
def Issuer.rearm (x : Issuer) (r : WaitMRec) : Out :=
  let id := (x.s.disarm x.key r.slot).nextId
  let s := x.register x.s r.slot r.va (.waitm x.cur.split) false
  match s.reels.find? x.key with
  | some q => { x with reel := q }.waitIn s q (.waitm { r with phase := .arming id, told := false })
  | none => .next { s with cur := none }

/-- Ends a `waitm` with a word. -/
def Issuer.endWaitM (x : Issuer) (r : WaitMRec) (sd : Nat) (v : Word) (scope : Option Nat) : Out :=
  let s := (x.s.unwatch x.key r.slot).onReel x.key fun q => q.sset sd v
  x.retireFrom (match scope with | some sc => x.acquire s sc [] | none => s)

/-- A waiting `waitm` tests its word, or whether what it waits for has come (10 R220). -/
def Issuer.testWaitM (x : Issuer) (r : WaitMRec) (sd scope : Nat) : Out :=
  let armed := (x.reel.watchSlot r.slot).state == .armed
  match r.phase with
  | .got v =>
    if passed (v.setWidth 16 : BitVec 16).toNat r.stage then x.endWaitM r sd v (some scope)
    else if r.told then x.rearm r
    else if armed then x.waitIn x.s x.reel (.waitm { r with phase := .watching })
    else x.waitIn x.s x.reel (.waitm { r with phase := .polling (x.s.clock x.coreId) })
  | .watching => if armed && !r.told then x.wait else x.rearm r
  | .restart => x.rearm r
  | .dropped => x.endWaitM r sd 0 none
  | _ => x.wait

/-- STAGE fn 8 (10 R220). -/
def execWaitm (f : WaitMOp) (s : State) : Out :=
  withIssuer s fun x =>
    let va := x.reel.stageAddr f.sa.toNat
    let stage := ((x.reel.sget f.sd.toNat).setWidth 16 : BitVec 16).toNat
    if !isEven f.sa then x.illegal
    else match x.split.wait with
      | some (.waitm r) => x.testWaitM r f.sd.toNat f.scope.toNat
      | _ =>
        if x.reel.busyS f.sd.toNat then x.wait
        else x.withPerm [(0, va)] ⟨true, false, false⟩ true (x.rearm ⟨va, f.w.toNat, stage, .arming 0, false⟩)

end Sys2Proof.Machine
end

