-- ==== Sys2Proof/Machine/Exit.lean ====
section
/-! DEFINITION. JUMP fn 6: `exit`, what a split leaves behind, and the end of a reel (04 R83, R100, 06 R139). -/

namespace Sys2Proof.Machine

/-- Removes exiting lanes from every entry of the reel (04 R83). -/
def Reel.removeLanes (r : Reel) (lanes : Word) : Reel :=
  { r with entries := r.entries.mapVals fun _ e => { e with join := e.join &&& ~~~lanes, arrived := e.arrived &&& ~~~lanes } }

/-- How an ended split goes on: with the pending pair of an entry, or with the arrived lanes of one that is complete. -/
inductive GoesOn where
  | pending (pc : VA) (lanes : Word) | joined (pc : VA) (lanes : Word)
  deriving DecidableEq, Repr

/-- What keeps an exiting split going at an entry that no other split holds: its pending pair (04 R83), or the lanes that wait in it when
they are all it has left (log entry 16). -/
def Reel.goesOn (r : Reel) (self id : Nat) : Option GoesOn :=
  match r.entries.find? id with
  | none => none
  | some e =>
    if r.splits.any fun p => p.1 != self && p.2.stack.contains id then none
    else match e.pending, e.joinPc with
      | some (pc, lanes), _ => some (.pending pc lanes)
      | none, some j => if e.arrived = e.join ∧ e.join ≠ 0 then some (.joined (j + 4) e.join) else none
      | none, none => none

/-- The topmost entry of a stack at which an exiting split goes on, with the stack from it downwards. -/
def Reel.resumePoint (r : Reel) (self : Nat) : List Nat → Option (GoesOn × List Nat)
  | [] => none
  | id :: below => match r.goesOn self id with | some g => some (g, id :: below) | none => r.resumePoint self below

/-- Merges the splits parked on every entry whose arrived mask equals its join mask (04 R82, R83). -/
def Reel.mergeComplete (r : Reel) : Reel :=
  r.entries.foldl (fun q p =>
    let e := p.2
    match q.parkedOn p.1, e.joinPc with
    | [], _ | _, none => q
    | i :: is, some j =>
      if e.arrived = e.join then
        q.merge (i :: is) e.join (j + 4) ((((q.splits.find? i).map (·.stack)).getD []).tail)
      else q) r

/-- The reel after its split exits, all splits but the last (04 R83). -/
def Reel.exitSplit (r : Reel) (i : Nat) (p : Split) : Reel :=
  let r := r.removeLanes p.lanes
  let gone := (r.splits.del i)
  let r := match r.resumePoint i p.stack with
    | some (.pending pc lanes, id :: below) =>
      { r with entries := r.entries.adjust id (fun e => { e with pending := none })
               splits := r.splits.put i ⟨pc, lanes, id :: below, false, false, none, none⟩ }
    | some (.joined pc lanes, _ :: below) => { r with splits := r.splits.put i ⟨pc, lanes, below, false, false, none, none⟩ }
    | _ => { r with splits := gone }
  r.mergeComplete.dropEntries

/-- Marks the stores of a reel as those of an exited reel (08 R166). -/
def State.markExited (s : State) (key : Nat) : State :=
  { s with stores := s.stores.mapVals fun _ o => if o.reel = some key then { o with ex := true } else o }

/-- Ends a reel whose last lanes exit (04 R83, R100): its watches are disarmed; its loads are discarded when they return. -/
def State.exitReel (s : State) (key : Nat) : State :=
  (((s.disarm key 0).disarm key 1).markExited key).onReel key fun r => { r with exited := true, entries := [] }

/-- JUMP fn 6 (04 R83, R100, 06 R139); the last exit first performs `sdone` for a live iteration (10 R217). -/
def execExit (s : State) : Out :=
  withIssuer s fun x =>
    let r := x.reel.exitSplit x.cur.split x.split
    let finish := fun (s : State) =>
      match s.reels.find? x.key with
      | some q => x.finish s { q with splits := r.splits, entries := r.entries }
      | none => .next { s with cur := none }
    if x.reel.handler then x.illegal
    else if !r.splits.isEmpty then finish x.s
    else
      let last := fun (s : State) => finish (s.exitReel x.key)
      match x.reel.iter with
      | some i => x.release 0 fun carry => last (x.s.completeIter x.key x.reel.block i carry)
      | none => last x.s

end Sys2Proof.Machine
end

