-- ==== Sys2Proof/Machine/Stream.lean ====
section
/-! DEFINITION. The matrix sequencer: executing a stream word, halts, claims, barriers and control words; and `nop` and the illegal words of
reels and streams (11 R226 to R235, R243, R244, 02 R30 to R32). -/

namespace Sys2Proof.Machine

/-- What a stream word acts in: the state, the latched word, and its block. -/
structure Streamer where
  s : State
  cur : SCur
  block : Block

/-- Executes a stream word in its block; a reel that executes one takes the illegal-instruction trap (02 R30). -/
def withStream (s : State) (f : Streamer → Out) : Out :=
  match s.scur with
  | none => withIssuer s Issuer.illegal
  | some c =>
    match s.blocks.find? c.block with
    | none => .refused .noIssuer
    | some b => f ⟨s, c, b⟩

/-- An ill-formed word: the fields of its error record (11 R231, R232). -/
structure Halt where
  kind : Nat
  expected : Nat
  found : Nat
  loc : Nat
  va : Nat
  slot : Nat
  layout : Nat
  deriving DecidableEq, Repr

/-- A halt of a kind whose other fields are 0. -/
def Halt.of (kind : Nat) : Halt := ⟨kind, 0, 0, 0, 0, 0, 0⟩

/-- The error record (11 R232). -/
def State.errorRecord (s : State) (b : Block) (pc : VA) (word : Word) (tile : Option Nat) (h : Halt) : Nat :=
  h.kind + h.layout * 2 ^ 33 + h.slot * 2 ^ 39 + tile.getD 0 * 2 ^ 44 + h.va * 2 ^ 72 + s.wafer.gen * 2 ^ 128 + b.core * 2 ^ 160
    + s.lcore b.core * 2 ^ 176 + b.linear * 2 ^ 192 + b.launch * 2 ^ 224 + h.loc * 2 ^ 256 + h.found % 2 ^ 32 * 2 ^ 288
    + h.expected % 2 ^ 32 * 2 ^ 320 + word.toNat * 2 ^ 352 + pc.toNat * 2 ^ 384 + s.coreCycles b.core % 2 ^ 64 * 2 ^ 448

/-- The tiles that tile `n` stands for: both of a binary64 pair (11 R222, R224). -/
def Core.halves (c : Core) (n : Nat) : List Nat :=
  let wide := fun (i : Nat) => (c.ac.find? i).any fun t => t.fmt == 2
  if wide n && wide (n ^^^ 1) then [n, n ^^^ 1] else [n]

/-- Marks a tile of a block bad, and with it the other tile of a pair (11 R224, R233). A tile that the block does not hold is not marked: the spec
does not say what a halt does to it, and the model leaves the tile's own block undisturbed (DESIGN CHOICE; log entry 100). -/
def Core.markBad (c : Core) (block n : Nat) : Core :=
  if (c.ac.find? n).any fun t => t.owner == block then
    { c with ac := (c.halves n).foldl (fun m i => m.adjust i fun t => { t with bad := true }) c.ac }
  else c

/-- Halts a block's stream (11 R231 to R233): the error record, the bad tile, and the deferred fault of kind 0x0D. -/
def State.haltStream (s : State) (block : Nat) (pc : VA) (word : Word) (tile : Option Nat) (h : Halt) : State :=
  match s.blocks.find? block with
  | none => { s with scur := none }
  | some b =>
    let addr := if b.err = 0 then 0 else (b.err + 64 * b.linear) % 2 ^ 55
    let s := { s.setBlock block { b with seq := { b.seq with mode := .halted, pending := none, wait := none, hx := none } } with scur := none }
    let s := match tile with
      | some n => if h.kind = 1 then s else s.onCore b.core fun c => c.markBad block n
      | none => s
    let s := if addr = 0 then s else match s.deviceWrite b.core b.ctx addr 64 (s.errorRecord b pc word tile h) with
      | .ok s => s
      | .error _ => s
    (s.raiseRec { s.blankRec b block with kind := 0x0D, pc := pc, inst := word, va := addr } false).1

/-- Halts at the executing word. -/
def Streamer.halt (x : Streamer) (tile : Option Nat) (h : Halt) : Out :=
  .next (x.s.haltStream x.cur.block x.cur.pc x.cur.word tile h)

/-- Goes on at an address with the block as given. -/
def Streamer.goto (x : Streamer) (s : State) (b : Block) (pc : VA) : Out :=
  .next { s.setBlock x.cur.block { b with seq := { b.seq with pc := pc, wait := none, hx := none } } with scur := none }

/-- Goes on at the next word with the block as given. -/
def Streamer.advance (x : Streamer) (s : State) (b : Block) : Out := x.goto s b (x.cur.pc + 4)

/-- A stream word that accepts no HX, with its destination tile, if it has one (11 R228, R232). -/
def streamTo (dst : Option Nat) (s : State) (f : Streamer → Out) : Out :=
  withStream s fun x => if x.cur.hx.isSome then x.halt dst (.of 1) else f x

/-- A stream word without a destination tile that accepts no HX. -/
def streamWord (s : State) (f : Streamer → Out) : Out := streamTo none s f

/-- Writes a sequencer register. -/
def Block.setQ (b : Block) (n : Nat) (v : Word) : Block := { b with seq := { b.seq with q := b.seq.q.putD 0 n v } }
/-- A sequencer register. -/
def Block.getQ (b : Block) (n : Nat) : Word := b.seq.q.findD 0 n

/-! ## Words that are no instruction, and nop -/

/-- JUMP fn 5: no effect, in a reel and in a stream (06 R139, 11 R244). -/
def execNop (s : State) : Out :=
  match s.scur with
  | some _ => streamWord s fun x => x.advance x.s x.block
  | none => withIssuer s fun x => x.retire x.reel

/-- A reel executes a word that is not an instruction (02 R30); `w` is the word. -/
def execIllegalWord (w : Word) (s : State) : Out := withIssuer s fun x => x.takeTrap x.reel 2 w x.active 0

/-- The sequencer fetches a word that no stream holds (02 R32); `w` is the word. -/
def execIllegalStreamWord (w : Word) (s : State) : Out :=
  match s.scur with
  | none => .refused .noIssuer
  | some c => .next (s.haltStream c.block c.pc w none (.of 1))

/-! ## Claims (11 R222, R223, R235) -/

/-- The slots or tiles of a claim. -/
def claimList (first cnt : Nat) : List Nat := (List.range cnt).map (first + ·)

/-- The owner of a slot or tile. -/
def Core.owner (c : Core) (tiles : Bool) (n : Nat) : Option Nat :=
  if tiles then (c.ac.find? n).map (·.owner) else (c.om.find? n).map (·.owner)

/-- An unformatted tile of an owner (11 R224). -/
def AcTile.fresh (owner : Nat) : AcTile := ⟨owner, 0, false, false, 0, 0, none, none, []⟩

/-- Claims every resource of a list for a block. -/
def Core.claim (c : Core) (tiles : Bool) (block : Nat) (ns : List Nat) : Core :=
  if tiles then { c with ac := ns.foldl (fun m n => Map.put m n (AcTile.fresh block)) c.ac }
  else { c with om := ns.foldl (fun m n => Map.put m n ⟨block, .empty, []⟩) c.om }

/-- A tile loses its format, its bad mark apart. -/
def AcTile.unformat (t : AcTile) : AcTile := { AcTile.fresh t.owner with bad := t.bad }

/-- The other half of a binary64 pair loses its format when one half leaves it, by a release or a format of its own: the spec does not say what
becomes of it, and a half alone holds no element (DESIGN CHOICE; log entry 100). Its bad mark stays until it is released (11 R224). -/
def Core.breakPair (c : Core) (n : Nat) : Core :=
  match c.ac.find? n, c.ac.find? (n ^^^ 1) with
  | some t, some p => if t.fmt = 2 ∧ p.fmt = 2 then { c with ac := c.ac.put (n ^^^ 1) p.unformat } else c
  | _, _ => c

/-- Releases every resource of a list. -/
def Core.release (c : Core) (tiles : Bool) (ns : List Nat) : Core :=
  if tiles then ns.foldl (fun c n => { c.breakPair n with ac := (c.breakPair n).ac.del n }) c
  else { c with om := ns.foldl Map.del c.om }

/-- Are all resources of a list free? -/
def Core.free (c : Core) (tiles : Bool) (ns : List Nat) : Bool := ns.all fun n => (c.owner tiles n).isNone

/-- A halt of a claim, with the first slot at fault (11 R232). -/
def claimHalt (tiles : Bool) (at_ : Option Nat) : Halt := { Halt.of 8 with slot := if tiles then 0 else at_.getD 0 }

/-- Stream major 0x30 fn 0 (11 R235). -/
def execMclaim (f : ClaimOp) (s : State) : Out :=
  streamWord s fun x =>
    let c := x.s.core x.block.core
    let tiles := f.kind == 1
    let ns := claimList f.first.toNat (f.cnt.toNat + 1)
    if !f.ok then x.halt none (.of 1)
    else if ns.any fun n => c.owner tiles n == some x.cur.block then
      x.halt none (claimHalt tiles (ns.find? fun n => c.owner tiles n == some x.cur.block))
    else if c.free tiles ns then x.advance (x.s.onCore x.block.core fun c => c.claim tiles x.cur.block ns) x.block
    else
      let w := match x.block.seq.wait with
        | some (.claim k a n since spent) => SeqWait.claim k a n since spent
        | _ => .claim tiles f.first.toNat (f.cnt.toNat + 1) (x.s.clock x.block.core) 0
      .next { x.s.setBlock x.cur.block { x.block with seq := { x.block.seq with wait := some w } } with scur := none }

/-- The state of a slot for a block as an error record's found field shows it: 0 unclaimed, 1 empty, 2 loaded. 11 R231 asks for the slot state and
gives no codes (DESIGN CHOICE; log entry 100). -/
def Core.slotState (c : Core) (block n : Nat) : Nat :=
  match c.om.find? n with
  | some o => if o.owner ≠ block then 0 else if o.state = .empty then 1 else 2
  | none => 0

/-- Stream major 0x30 fn 1 (11 R235). -/
def execMrel (f : ClaimOp) (s : State) : Out :=
  streamWord s fun x =>
    let c := x.s.core x.block.core
    let tiles := f.kind == 1
    let ns := claimList f.first.toNat (f.cnt.toNat + 1)
    if !f.ok then x.halt none (.of 1)
    else
      match ns.find? fun n => c.owner tiles n != some x.cur.block with
      | some n => x.halt none (if tiles then { Halt.of 7 with found := ((c.ac.find? n).map (·.fmt)).getD 0 } else { Halt.of 2 with slot := n, found := c.slotState x.cur.block n })
      | none => x.advance (x.s.onCore x.block.core fun c => c.release tiles ns) x.block

/-- The word of a waiting claim (11 R234). -/
def claimWord (tiles : Bool) (first cnt : Nat) : Word :=
  0xC0000000 ||| BitVec.ofNat 32 ((if tiles then 2 ^ 21 else 0) + first * 2 ^ 16 + (cnt - 1) * 2 ^ 11)

/-- A waiting claim takes all named resources once they are free (11 R235). -/
def execMclaimGrant (block : Nat) (s : State) : Out :=
  match s.blocks.find? block with
  | none => .next s
  | some b =>
    match b.seq.wait with
    | some (.claim tiles first cnt _ _) =>
      let ns := claimList first cnt
      if (s.core b.core).free tiles ns then
        .next ((s.onCore b.core fun c => c.claim tiles block ns).setBlock block
          { b with seq := { b.seq with wait := none, pc := b.seq.pc + 4 } })
      else .next s
    | _ => .next s

/-- A claim still waiting after 2^24 cycles halts the stream (11 R235). -/
def execMclaimTimeout (block : Nat) (s : State) : Out :=
  match s.blocks.find? block with
  | none => .next s
  | some b =>
    match b.seq.wait with
    | some (.claim tiles first cnt since spent) =>
      if Config.longTimeout ≤ s.clock b.core - since + spent then
        .next (s.haltStream block b.seq.pc (claimWord tiles first cnt) none
          (claimHalt tiles ((claimList first cnt).find? fun n => ((s.core b.core).owner tiles n).isSome)))
      else .next s
    | _ => .next s

/-! ## Barriers (11 R229, R243) -/

/-- Waits for a barrier's flip as party 32. -/
def Streamer.awaitFlip (x : Streamer) (s : State) (b : Block) (i : Nat) (t : BitVec 16) (q : Option Nat) : Out :=
  let v := b.barrier i
  let b := b.setBarrier i { v with waiters := v.waiters ||| (1 : BitVec 33) <<< 32 }
  .next { s.setBlock x.cur.block { b with seq := { b.seq with wait := some (.barrier i t false q) } } with scur := none }

/-- Ends a wait on a barrier: the sequencer inherits what the barrier handed on. -/
def Streamer.endWait (x : Streamer) (s : State) (b : Block) (i : Nat) (q : Option (Nat × Word)) : Out :=
  let b := { b with seq := { b.seq with inherited := unionNew b.seq.inherited (b.barrier i).flipped } }
  x.advance s (match q with | some (n, v) => b.setQ n v | none => b)

/-- Waits with a token, and writes a status to a register if one is named. -/
def Streamer.waitOn (x : Streamer) (s : State) (b : Block) (i : Nat) (t : BitVec 16) (q : Option Nat) : Out :=
  let d := (b.barrier i).phase - t
  if d = 0 then x.awaitFlip s b i t q else x.endWait s b i (q.map fun n => (n, waitStatus d))

/-- Stream major 0x33 fn 0 mode 0 (11 R243). -/
def execMbarSync (f : MBarS) (s : State) : Out :=
  streamWord s fun x =>
    let i := f.b.toNat
    match x.block.seq.wait with
    | some (.barrier _ _ true _) => x.endWait x.s x.block i none
    | some (.barrier ..) => .next { x.s with scur := none }
    | _ =>
      let (s, t) := x.s.arrive x.cur.block i x.block.seq.inherited
      match s.blocks.find? x.cur.block with
      | some b => x.waitOn s b i t none
      | none => .next { s with scur := none }

/-- Stream major 0x33 fn 0 mode 1 (11 R243). -/
def execMbarArrive (f : MBarQ) (s : State) : Out :=
  streamWord s fun x =>
    let (s, t) := x.s.arrive x.cur.block f.b.toNat x.block.seq.inherited
    match s.blocks.find? x.cur.block with
    | some b => x.advance s (b.setQ f.q.toNat (t.setWidth 32))
    | none => .next { s with scur := none }

/-- Stream major 0x33 fn 0 mode 2 (11 R243). -/
def execMbarWait (f : MBarQ) (s : State) : Out :=
  streamWord s fun x =>
    let i := f.b.toNat
    match x.block.seq.wait with
    | some (.barrier _ _ true _) => x.endWait x.s x.block i (some (f.q.toNat, 0))
    | some (.barrier ..) => .next { x.s with scur := none }
    | _ => x.waitOn x.s x.block i ((x.block.getQ f.q.toNat).setWidth 16) (some f.q.toNat)

/-! ## Control words (11 R244) -/

/-- Stream major 0x33 fn 1 (11 R244). -/
def execMset (f : MSetOp) (s : State) : Out :=
  withStream s fun x =>
    match x.cur.hx with
    | none => x.advance x.s (x.block.setQ f.qd.toNat (f.imm.setWidth 32))
    | some p =>
      if p.extractLsb' 16 7 != 0 then x.halt none (.of 1)
      else x.advance x.s (x.block.setQ f.qd.toNat ((p.setWidth 16 : BitVec 16) ++ f.imm))

/-- Stream major 0x33 fn 2 (11 R244). -/
def execMadd (f : MAddOp) (s : State) : Out :=
  withStream s fun x =>
    let a := x.block.getQ f.qa.toNat
    match x.cur.hx with
    | none => x.advance x.s (x.block.setQ f.qd.toNat (a + f.imm.signExtend 32))
    | some p =>
      if p.extractLsb' 18 5 != 0 then x.halt none (.of 1)
      else x.advance x.s (x.block.setQ f.qd.toNat (a + ((p.setWidth 18 : BitVec 18) ++ f.imm)))

/-- Stream major 0x33 fn 3 (11 R244). -/
def execMloop (f : MLoopOp) (s : State) : Out :=
  streamWord s fun x =>
    let v := x.block.getQ f.q.toNat - 1
    let b := x.block.setQ f.q.toNat v
    if v = 0 then x.advance x.s b else x.goto x.s b (x.cur.pc + (f.off.signExtend 55 <<< 2))

/-- A branch of the stream when a condition holds (11 R244). -/
def streamBranch (off : BitVec 16) (test : Block → Bool) (s : State) : Out :=
  streamWord s fun x =>
    if test x.block then x.goto x.s x.block (x.cur.pc + (off.signExtend 55 <<< 2)) else x.advance x.s x.block

/-- Stream major 0x33 fn 4 cond 0 (11 R244). -/
def execMbra (f : MBraOp) (s : State) : Out := streamBranch f.off (fun _ => true) s
/-- Stream major 0x33 fn 4 cond 1 (11 R244). -/
def execMbraZ (f : MBraQ) (s : State) : Out := streamBranch f.off (fun b => b.getQ f.q.toNat == 0) s
/-- Stream major 0x33 fn 4 cond 2 (11 R244). -/
def execMbraNz (f : MBraQ) (s : State) : Out := streamBranch f.off (fun b => b.getQ f.q.toNat != 0) s

/-- Stream major 0x33 fn 5 (11 R226, R228, R244): the sequencer becomes idle, or takes its pending start. -/
def execMend (s : State) : Out :=
  streamWord s fun x =>
    let q := x.block.seq
    let q := match q.pending with
      | some (addr, v) => { q with pending := none }.begin addr v
      | none => { q with mode := .idle, wait := none, hx := none }
    .next { x.s.setBlock x.cur.block { x.block with seq := q } with scur := none }

end Sys2Proof.Machine
end

