-- ==== Sys2Proof/Machine/Issue.lean ====
section
/-! DEFINITION. Turns of reels and sequencers: which may issue, fetching a bundle or a stream word, hints, and testing a wait again (02 R24,
R31 to R36, 04 R78 to R80, 08 R160, R162, R166, 11 R226, R228). -/

namespace Sys2Proof.Machine

/-! ## Who may issue -/

/-- Is a split ready to issue a new bundle? -/
def Split.ready (p : Split) : Bool := !p.parked && !p.paused && p.wait.isNone

/-- Does a yield let split `i` issue: another split has yielded, or its rest is over and no other is ready (06 R139)? -/
def Reel.yieldLets (r : Reel) (now i : Nat) : Bool :=
  match r.yielded with
  | some (j, t) => i != j || (decide (t ≤ now) && !(r.splits.any fun p => p.1 != i && p.2.ready))
  | none => true

/-- How many split numbers the rotation passes from the last turn's split before it comes to split `i` (04 R79). -/
def Reel.distance (r : Reel) (i : Nat) : Nat := (i + 3 - r.turn) % 4

/-- May split `i` of a reel have the reel's next turn: in rotation by split number no ready split comes before it (04 R79)? -/
def Reel.mayTurn (r : Reel) (now i : Nat) : Bool :=
  decide (r.restUntil ≤ now) && r.yieldLets now i
    && r.splits.all fun p => !(p.2.ready && r.yieldLets now p.1) || decide (r.distance i ≤ r.distance p.1)

/-- May a split issue, or test its wait? -/
def State.mayIssue (s : State) (key i : Nat) (r : Reel) (p : Split) (b : Block) : Bool :=
  !r.held && !r.exited && !r.killed && !p.parked && !p.paused && s.runs r.block b && r.mayTurn (s.clock (coreOfKey key)) i
    && !s.skidFull key r

/-! ## The core's choice among its reels (08 R168, R169) -/

/-- Word at an address of a line. -/
def lineWord (x : BitVec 1024) (va : Nat) : Word := (x >>> (8 * (va % 128 / 4 * 4))).setWidth 32

/-- Does a word issue in the vector slot (08 R168): INT-A, INT-B, INT-I, CMP, SEL, LANE, F32, F64, F16X2, FUN or CVT? -/
def inVecSlot (w : Word) : Bool :=
  let maj := (w.extractLsb' 26 6).toNat
  (1 ≤ maj && maj ≤ 6) || (8 ≤ maj && maj ≤ 12)

/-- The issue slot of a core for vector words, or for all others. -/
def Core.issueQ (c : Core) (vec : Bool) : IssueQ := if vec then c.vecSlot else c.memSlot

/-- The instruction word of the bundle at an address, where the core has all of it: at most three hints before it. -/
def Core.bundleWord (c : Core) (ctx : Nat) : Nat → VA → Option Word
  | 0, _ => none
  | n + 1, pc =>
    if c.permit ctx [] ⟨false, false, true⟩ pc.toNat = .ok then
      match c.icache.find? (pc.toNat / 128) with
      | some x => let w := lineWord x pc.toNat; if isHint w then c.bundleWord ctx n (pc + 4) else some w
      | none => none
    else none

/-- Is a reel's next bundle ready for an issue slot: a split whose turn it is stands at a bundle of that slot, which the core has fetched? -/
def State.contends (s : State) (vec : Bool) (key : Nat) : Bool :=
  match s.reels.find? key with
  | none => false
  | some r =>
    match s.blocks.find? r.block with
    | none => false
    | some b => r.splits.any fun p =>
        p.2.ready && s.mayIssue key p.1 r p.2 b && ((s.core b.core).bundleWord b.ctx 4 p.2.pc).any fun w => inVecSlot w == vec

/-- The precedence of a priority: high, normal, low (02 R35). -/
def prioRank (p : Nat) : Nat := match p with | 2 => 0 | 0 => 1 | _ => 2

/-- A reel's place in an issue slot's choice, the lowest first (08 R169): one passed over for 32 cycles goes before all others; then priority, then
the longest wait since it last issued in the slot, then the reel slot's number. -/
def State.issueRank (s : State) (vec : Bool) (key : Nat) : Nat :=
  let q := (s.core (coreOfKey key)).issueQ vec
  let slot := slotOfKey key
  let due := (q.passed.find? slot).any fun t => t + 32 ≤ s.clock (coreOfKey key)
  let age := if q.order.contains slot then q.order.idxOf slot + 1 else 0
  (if due then 0 else 1 + prioRank (((s.reels.find? key).map (·.prio)).getD 0)) * 2048 + age * 32 + slot

/-- The other reels of a reel's core whose next bundle is ready for an issue slot. -/
def State.rivals (s : State) (vec : Bool) (key : Nat) : List Nat :=
  ((List.range 32).map (32 * coreOfKey key + ·)).filter fun k => k != key && s.contends vec k

/-- Does the core choose the reel in an issue slot: no other reel that is ready for it goes first (08 R169)? -/
def State.chosen (s : State) (vec : Bool) (key : Nat) : Bool := (s.rivals vec key).all fun k => s.issueRank vec key < s.issueRank vec k

/-- Does the split still stand at issue: nothing of its bundle has issued? -/
def State.atIssue (s : State) (key i : Nat) : Bool :=
  match (s.reels.find? key).bind fun r => r.splits.find? i with
  | some p => match p.wait with | some .issue | some (.perm ..) => true | _ => false
  | none => false

/-- An issue slot after a reel has issued in it at a time while others stood ready. -/
def IssueQ.issued (q : IssueQ) (slot : Nat) (late : List Nat) (t : Nat) : IssueQ :=
  ⟨q.order.filter (· != slot) ++ [slot], late.foldl (fun m k => Map.put m (slotOfKey k) (q.passed.findD t (slotOfKey k))) []⟩

/-- `t` after split `i` of a reel has had a turn with a word of an issue slot, which `s` gave it: unless the bundle still stands at issue, the
rotation of the splits and the slot's order go on from it (04 R79, 08 R169). -/
def State.tookTurn (t s : State) (key i : Nat) (vec : Bool) : State :=
  if t.atIssue key i then t
  else
    let late := s.rivals vec key
    let now := s.clock (coreOfKey key)
    (t.onReel key fun r => { r with turn := i }).onCore (coreOfKey key) fun c =>
      if vec then { c with vecSlot := c.vecSlot.issued (slotOfKey key) late now }
      else { c with memSlot := c.memSlot.issued (slotOfKey key) late now }

/-- Changes the state an outcome goes on with. -/
def mapNext (o : Out) (f : State → State) : Out := match o with | .next t => .next (f t) | o => o

/-! ## Fetching -/

/-- What the fetch of a word comes to. -/
inductive Fetched where
  | word (w : Word)
  /-- The lookaside misses on a granule. -/
  | miss (granule : Nat)
  /-- A fetch permission fault of a kind at an address. -/
  | denied (kind va : Nat)
  /-- A translation or memory fault at an address. -/
  | fault (va : Nat) (x : XFault)
  /-- Bytes of the line come from outside, or the host must give them up first. -/
  | stop (e : EngStop)
  deriving DecidableEq, Repr

/-- The sectors of an instruction line, through the slice. -/
def State.lineBytes (s : State) (d line : Nat) (t : Xlat) (ext : List (Nat × Nat)) : Option (BitVec 1024) := do
  let a ← s.engSector d (4 * line) t ext
  let b ← s.engSector d (4 * line + 1) t ext
  let c ← s.engSector d (4 * line + 2) t ext
  let e ← s.engSector d (4 * line + 3) t ext
  pure (e ++ c ++ b ++ a)

/-- Fills an instruction line: its permission stands; it is translated and read (08 R160). -/
def State.fillLine (s : State) (core va : Nat) (ext : List (Nat × Nat)) : State × Except Fetched (BitVec 1024) :=
  let d := domainOfCore core
  match s.translate d (granule va) with
  | (s, .fault x) => (s, .error (.fault va x))
  | (s, .absent pa) => (s, .error (.stop (.absent pa)))
  | (s, .busy) => (s, .error (.stop .outside))
  | (s, .ok t) =>
    let pa := t.at (va / 128 * 128)
    if !s.exists? pa then (s, .error (.stop (.absent pa)))
    else if !s.reaches d pa then (s, .error (.fault va ⟨0x16, 0, 0, false, pa, none⟩))
    else
      let clear := match s.place pa with | .home h => s.hostClear h (hdmLines pa 128) false | _ => true
      if !clear then (s, .error (.stop (.snoop (paDomain pa) (hdmLines pa 128) false)))
      else
        match s.lineBytes d (va / 128) t ext with
        | none => (s, .error (.stop .outside))
        | some x =>
          let s := (s.countAccess d t.pa t.ac va).onCore core fun c => { c with icache := c.icache.put (va / 128) x }
          (s, .ok x)

/-- Fetches one word: its permission first, then the instruction cache, filled through the slice (08 R160, R162). -/
def State.fetchWord (s : State) (core ctx : Nat) (den : List (Nat × Nat)) (ext : List (Nat × Nat)) (va : Nat) : State × Fetched :=
  match (s.core core).permit ctx den ⟨false, false, true⟩ va with
  | .miss => (s, .miss (granule va))
  | .denied k => (s, .denied k va)
  | .ok =>
    match (s.core core).icache.find? (va / 128) with
    | some x => (s, .word (lineWord x va))
    | none =>
      match s.fillLine core va ext with
      | (s, .ok x) => (s, .word (lineWord x va))
      | (s, .error e) => (s, e)

/-- Fetches words from an address until one that is no hint, at most `n` of them; what ends the fetch, if not a word. -/
def State.fetchBundle (s : State) (core ctx : Nat) (den : List (Nat × Nat)) (ext : List (Nat × Nat)) :
    Nat → VA → List Word → State × List Word × Option Fetched
  | 0, _, ws => (s, ws, none)
  | n + 1, pc, ws =>
    match s.fetchWord core ctx den ext pc.toNat with
    | (s, .word w) => if isHint w then State.fetchBundle s core ctx den ext n (pc + 4) (ws ++ [w]) else (s, ws ++ [w], none)
    | (s, e) => (s, ws, some e)

/-- How many hints lead a list of words. -/
def leadingHints : List Word → Nat
  | [] => 0
  | w :: ws => if isHint w then leadingHints ws + 1 else 0

/-! ## Turns of a reel -/

/-- The instruction a reel executes for a word. -/
noncomputable def instrOf (w : Word) : Instr := match decode w with | .ok i => i | .error _ => .illegalWord w

/-- The vector registers of the kernel that a reel runs. -/
def State.vregsOf (s : State) (key : Nat) : Nat :=
  (((s.reels.find? key).bind fun r => s.blocks.find? r.block).map (·.desc.vregs)).getD 0

/-- Executes a fetched bundle: a hint at fault in itself traps first, then a hint the instruction does not accept (02 R31), then the
instruction runs. -/
noncomputable def execBundle (run : Instr → State → Out) (key i : Nat) (start : VA) (ws : List Word) (s : State) : Out :=
  let n := min (leadingHints ws) 3
  let w := ws.getD n 0
  let at_ := fun (h : Hints) => { s with cur := some ⟨key, i, ⟨start, start + BitVec.ofNat 55 (4 * n), w, h⟩⟩ }
  match scanHints (badAddend w (s.vregsOf key)) ws Hints.empty 0 with
  | .bad word h => withIssuer (at_ (h.guardOnly w)) fun x => x.illegalHint (word.extractLsb' 23 3).toNat (word.setWidth 23)
  | .ok h _ => if h.kinds &&& ~~~acceptedHints w != 0 then withIssuer (at_ (h.guardOnly w)) Issuer.illegal else run (instrOf w) (at_ h)

/-- The record of a fault at the fetch of a bundle: no instruction has executed (14 R285, R291). -/
def Issuer.fetchFault (x : Issuer) (kind va : Nat) (f : XFault) : Out :=
  x.holdWith x.reel { (x.s.reelRec x.key x.reel x.block).withX f with
    kind := kind, pc := x.cur.bundle.start, lanes := x.split.lanes, va := va, line := va / 128 * 128 }

/-- Fetches a split's next bundle, and executes it where the core chooses the reel. A split whose line must come from outside, or waits for a walk, is
not ready meanwhile. -/
noncomputable def fetchTurn (run : Instr → State → Out) (key i : Nat) (r : Reel) (p : Split) (b : Block) (ext : List (Nat × Nat)) (s : State) :
    Out :=
  let den := Wait.deniedOf p.wait
  let clear := { p with wait := none, bundle := none }
  match s.fetchBundle b.core b.ctx den ext 4 p.pc [] with
  | (s, ws, none) =>
    let vec := inVecSlot (ws.getD (min (leadingHints ws) 3) 0)
    if s.chosen vec key then
      mapNext (execBundle run key i p.pc ws (s.onReel key fun r => r.setSplit i clear)) fun t => t.tookTurn s key i vec
    else .next s
  | (s, _, some e) =>
    let x : Issuer := ⟨s, ⟨key, i, ⟨p.pc, p.pc, 0, Hints.empty⟩⟩, r, clear, b⟩
    match e with
    | .miss g => .next (s.onReel key fun r => r.setSplit i { p with wait := some (.perm g den), bundle := none })
    | .denied kind va => x.fetchFault (r.permKind kind) va .plain
    | .fault va f => x.fetchFault f.kind va f
    | .stop e => mapNext (s.waitFor e) fun t => t.onReel key fun r => r.setSplit i { p with wait := some .issue, bundle := none }
    | .word _ => .next s

/-- A split whose ordered atomic has returned goes on: it acquires (09 R185). -/
def acquireTurn (key i : Nat) (r : Reel) (p : Split) (b : Block) (load scope : Nat) (s : State) : Out :=
  if r.loads.any fun o => o.id == load then .next s
  else .next ((s.acquireCaches b.core scope).onReel key fun r =>
    (r.inherit (s.carried b scope)).setSplit i { p with wait := none, bundle := none })

/-- A reel as split `i` takes its turn: a yield ends when another split issues, or when the split that yielded issues again. -/
def Reel.turnOf (r : Reel) (i : Nat) (p : Split) : Reel :=
  match r.yielded with
  | some (j, _) => if j = i ∨ p.wait.isNone then { r with yielded := none } else r
  | none => r

/-- A turn of a split: it acquires after an atomic, tests its wait again, or fetches. -/
noncomputable def issueTurn (run : Instr → State → Out) (key i : Nat) (ext : List (Nat × Nat)) (s : State) : Out :=
  match s.reels.find? key with
  | none => .next s
  | some r =>
    match r.splits.find? i, s.blocks.find? r.block with
    | some p, some b =>
      if !s.mayIssue key i r p b then .next s
      else
        let r := r.turnOf i p
        let s := s.setReel key r
        match p.wait, p.bundle with
        | some (.acquire load scope), _ => acquireTurn key i r p b load scope s
        | _, some bun =>
          let go := run (instrOf bun.word) { s with cur := some ⟨key, i, bun⟩ }
          let vec := inVecSlot bun.word
          if !s.atIssue key i then go
          else if s.chosen vec key then mapNext go fun t => t.tookTurn s key i vec
          else .next s
        | _, none => fetchTurn run key i r p b ext s
    | _, _ => .next s

/-! ## Turns of a sequencer -/

/-- The word of `nop` (06 R139). -/
def nopWord : Word := 0x84A00000

/-- The instruction a sequencer executes for a word: stream majors and `nop` (02 R32). -/
noncomputable def streamInstr (w : Word) : Instr :=
  if w = nopWord ∨ (0x30 ≤ (w.extractLsb' 26 6).toNat ∧ (w.extractLsb' 26 6).toNat ≤ 0x33) then
    match decode w with | .ok i => i | .error _ => .illegalStreamWord w
  else .illegalStreamWord w

/-- How many of the 16 positions of a window come before position `p` in the order in which the limiter takes them (18 R328; log entry 93). -/
def bubbleOrder (p : Nat) : Nat :=
  ((List.range 16).filter fun q =>
    Config.bubbleRank q < Config.bubbleRank p || (Config.bubbleRank q == Config.bubbleRank p && q < p)).length

/-- Is the present core cycle of a domain one in which its limiter starts no matrix instruction (01 R18, 18 R328)? -/
def State.bubbled (s : State) (d : Nat) : Bool := (s.domain d).level != 0 && decide (bubbleOrder (s.cycles d % 16) < (s.domain d).level)

/-- Is a stream word a matrix instruction: `mma`, `mmas` or `mmap` (11 R225)? -/
def isMatrixWord (w : Word) : Bool := w.extractLsb' 26 6 == 0x31

/-- Executes a stream word: HX is kept for the next word, and a second one halts (11 R228); a matrix instruction does not start in a bubble (18
R328). -/
noncomputable def execStream (run : Instr → State → Out) (key : Nat) (b : Block) (w : Word) (s : State) : Out :=
  let pc := b.seq.pc
  if isMatrixWord w && s.bubbled (domainOfCore b.core) then .next s
  else if w.extractLsb' 23 9 = 0x1F8 ∧ b.seq.hx.isNone then
    .next (s.onBlock key fun b => { b with seq := { b.seq with hx := some (w.setWidth 23, pc), pc := pc + 4, wait := none } })
  else run (streamInstr w) { s with scur := some ⟨key, pc, w, b.seq.hx.map (·.1)⟩ }

/-- Does a sequencer's wait let it try its word: it waits neither for a flip nor for a claim? -/
def SeqWait.retry : Option SeqWait → Bool
  | some (.barrier _ _ flipped _) => flipped
  | some (.claim ..) => false
  | _ => true

/-- The granules found denied that a sequencer's wait holds. -/
def SeqWait.deniedOf : Option SeqWait → List (Nat × Nat)
  | some (.perm _ d) => d
  | _ => []

/-- A turn of a sequencer: it fetches a stream word, with fetch permission checked, and executes it (11 R226). -/
noncomputable def streamTurn (run : Instr → State → Out) (key : Nat) (ext : List (Nat × Nat)) (s : State) : Out :=
  match s.blocks.find? key with
  | none => .next s
  | some b =>
    if b.seq.mode != .running || !SeqWait.retry b.seq.wait || !s.runs key b then .next s
    else
      let den := SeqWait.deniedOf b.seq.wait
      match s.fetchWord b.core b.ctx den ext b.seq.pc.toNat with
      | (s, .word w) => execStream run key b w s
      | (s, .miss g) => .next (s.onBlock key fun b => { b with seq := { b.seq with wait := some (.perm g den) } })
      | (s, .denied _ va) | (s, .fault va _) => .next (s.haltStream key b.seq.pc 0 none { Halt.of 9 with va := va })
      | (s, .stop e) => s.waitFor e

/-! ## Replacement -/

/-- An L2 sector leaves its slice: a Dirty one is written back; one with unresolved writes stays (14 R270). A copy of a host line leaves whole (21
R367). -/
def State.evictL2 (s : State) (d sec : Nat) : State :=
  let x := s.sector d sec
  match x.held, x.laid with
  | some h, [] =>
    let s := s.setSector d sec { x with held := none }
    let s := if h.kind = .guest ∧ s.place h.pa = .host then s.onSector d (mateOf sec) fun y => { y with held := none } else s
    if h.kind = .dirty then { s with mem := Memory.writeNat s.mem h.pa 32 h.data.toNat } else s
  | _, _ => s

end Sys2Proof.Machine
end

