-- ==== Sys2Proof/Machine/Placing.lean ====
section
/-! DEFINITION. A state in which a given word is the next to be fetched: a resident block with a reel, executable memory, and a turn for it
(log entry 20). -/

namespace Sys2Proof.Machine

/-- A reel at the start of its block: one split of all lanes at an address, s2:s3 the argument address, the trap entry (04 R77). -/
def Reel.fresh (block idx : Nat) (args : Nat) (pc xv : Nat) : Reel where
  block := block
  idx := idx
  v := []
  s := (Map.putD 0 (Map.putD 0 [] 2 (BitVec.ofNat 32 args)) 3 (BitVec.ofNat 32 (args / 2 ^ 32)))
  k := []
  splits := [(0, ⟨vaOf pc, BitVec.allOnes 32, [], false, false, none, none⟩)]
  entries := []
  nextEntry := 0
  heldBy := []
  stopped := false
  exited := false
  killed := false
  ld := 0
  st := 0
  eng := 0
  mx := 0
  loads := []
  moves := []
  tcr := 0
  tcrEntry := 0
  fflags := []
  xpc := 0
  xinst := 0
  xmask := 0
  xkind := 0
  xvec := BitVec.ofNat 32 xv
  xvechi := BitVec.ofNat 23 (xv / 2 ^ 32)
  handler := false
  trapPc := 0
  trapIpc := 0
  trapLanes := 0
  trapDepth := 0
  watches := []
  cycloLatch := none
  prio := 0
  yielded := none
  restUntil := 0
  turn := 0
  retired := 0
  seq := 0
  iter := none
  inherited := []

/-- A block at its start: scratchpad cleared, barriers, semaphores, layouts and loop control as at block start (08 R151, R172, 10 R204, 11
R226). -/
def Block.fresh (core launch linear ctx part prio : Nat) (desc : Desc) (args err slot0 baseRow : Nat) (coord grid : Nat × Nat × Nat) :
    Block where
  core := core
  launch := launch
  linear := linear
  ctx := ctx
  part := part
  prio := prio
  coord := coord
  grid := grid
  desc := desc
  args := args
  err := err
  baseRow := baseRow
  gang := [32 * core + slot0]
  member := 0
  spad := []
  full := []
  poison := []
  barriers := []
  sems := []
  lays := []
  loop := LoopCtl.closed
  stages := []
  seq := Seq.idle
  carry := []
  fsrec := 0
  service := none
  published := false
  gangPublished := false
  started := true
  resuming := []
  born := 0

/-- Is a word of a stream major? -/
def isStreamWord (w : Word) : Bool := 0x30 ≤ (w.extractLsb' 26 6).toNat && (w.extractLsb' 26 6).toNat ≤ 0x33

/-- The address at which a placed word stands: 64 KiB, so that its granule is not the one at 0. -/
def placedAt : Nat := 0x10000

/-- A kernel with 128 vector registers, one reel, scratchpad and a stream, whose words begin at an address. -/
def placedDesc : Desc := ⟨4096, 1, 128, 0, 0, placedAt, placedAt⟩

/-- Its physical page: the same offset in domain 0. -/
def State.placedPage (s : State) : Nat := s.mgmt.fabno.toNat * 2 ^ 44 + placedAt

/-- The state with a word placed. -/
def State.placeWord (s : State) (w : Word) : State :=
  let strm := isStreamWord w
  let b := Block.fresh 0 0 0 0 (s.domain 0).part 0 placedDesc 0 0 0 0 (0, 0, 0) (1, 1, 1)
  let b := if strm then { b with seq := { Seq.idle with mode := .running, pc := vaOf placedAt } } else b
  let c := s.core 0
  let c := { c with live := true, icache := c.icache.del (placedAt / 128), look := [⟨0, placedAt, 65536, true, true, true⟩] }
  let q := s.domain 0
  let q := { q with
    fenced := false, regFailed := false, relocking := false, lostRanges := [], level := 0
    l2 := q.l2.keep fun sec _ => sec / 4 != placedAt / 128
    xlats := q.xlats.put (granule placedAt) ⟨s.placedPage, 0, 32, false⟩
    routes := [], snoop := [] }
  { ((s.setCore 0 c).setDomain 0 q) with
    agenda := [⟨1, if strm then .stream 0 [] else .issue 0 0 []⟩]
    reels := s.reels.put 0 (Reel.fresh 0 0 0 placedAt 0)
    blocks := s.blocks.put 0 b
    mem := Memory.writeNat s.mem s.placedPage 4 w.toNat
    preempts := s.preempts.keep fun _ r => !r.blocks.contains 0
    stores := s.stores.keep fun _ o => o.reel != some 0
    mgmt := { s.mgmt with railsOff := false, drainRunning := false } }

end Sys2Proof.Machine
end

