-- ==== Sys2Proof/Machine/Placement.lean ====
section
/-! DEFINITION. Where blocks go: room on a core, gangs on a cluster, hint domains, spills, and putting a block's reels on a core (08 R149 to R151,
13 R264, 19 R346 to R348). -/

namespace Sys2Proof.Machine

/-! ## Domains and cores -/

/-- Is a domain up, as the Banner in force shows it: it takes part in dispatch (18 R324, R326)? -/
def Domain.up (q : Domain) : Bool := !q.fenced

/-- Is a domain up, with power for its own parts (18 R331)? -/
def Domain.powered (q : Domain) : Bool := q.up && !q.regFailed

/-- The live cores of a domain, ascending. -/
def State.liveCores (s : State) (d : Nat) : List Nat :=
  ((List.range Config.coresPerDomain).map (Config.coresPerDomain * d + ·)).filter fun c => (s.core c).live

/-- The up domains of a partition, ascending. -/
def State.upDomains (s : State) (part : Nat) : List Nat :=
  (List.range Config.domainCount).filter fun d => (s.domain d).part == part && (s.domain d).up

/-- The live cores of each cluster of a domain, clusters ascending (18 R322). -/
def State.clusters (s : State) (d : Nat) : List (List Nat) :=
  (List.range 30).map fun k => (s.liveCores d).filter fun c => c % Config.coresPerDomain / 4 == k

/-! ## Room on a core (19 R347, R348) -/

/-- Blocks of a kernel that a core holds beside scratchpad: by reels and vector registers. -/
def Desc.fit (k : Desc) : Nat := min (32 / k.reels) (2048 / (k.reels * k.vregs))

/-- The division a core that holds no block takes for a kernel, in steps of 48 KiB (19 R348). -/
def Desc.division (k : Desc) : Nat := min 12 ((k.fit * roundSpad k.spad + 49151) / 49152)

/-- Blocks of a kernel that an empty core holds at once. -/
def Desc.capacity (k : Desc) : Nat :=
  if roundSpad k.spad = 0 then k.fit else min k.fit (k.division * 49152 / roundSpad k.spad)

/-- The blocks on a core. -/
def State.blocksOn (s : State) (c : Nat) : List (Nat × Block) := s.blocks.filter fun b => b.2.core == c

/-- The rows a block's scratchpad takes: first and count. -/
def Block.rows (b : Block) : Nat × Nat := (b.baseRow, roundSpad b.desc.spad / 192)

/-- The lowest row at which `n` free rows stand in a row below `limit`, among ranges taken. -/
def freeRow (taken : List (Nat × Nat)) (n limit : Nat) : Option Nat :=
  ((0 :: taken.map fun t => t.1 + t.2).filter fun r =>
    decide (r + n ≤ limit) && taken.all fun t => decide (r + n ≤ t.1) || decide (t.1 + t.2 ≤ r)).min?

/-- Room for a block on a core: its reel slots, its first scratchpad row, and the core's division. -/
structure Room where
  slots : List Nat
  row : Nat
  division : Nat
  deriving DecidableEq, Repr

/-- The room a live core has for a kernel's block. -/
def State.room (s : State) (c : Nat) (k : Desc) : Option Room :=
  let here := s.blocksOn c
  let taken := (s.reels.filter fun r => coreOfKey r.1 == c).map fun r => slotOfKey r.1
  let slots := ((List.range Config.reelSlots).filter fun i => !taken.contains i).take k.reels
  let vregs := (here.map fun b => b.2.desc.reels * b.2.desc.vregs).sum
  let m := (s.core c).division.getD k.division
  if slots.length < k.reels || 2048 < vregs + k.reels * k.vregs then none
  else (freeRow (here.map fun b => b.2.rows) (roundSpad k.spad / 192) (256 * m)).map fun row => ⟨slots, row, m⟩

/-- The cores of a list with room for a block, in order. -/
def State.roomy (s : State) (cs : List Nat) (k : Desc) : List (Nat × Room) :=
  cs.filterMap fun c => (s.room c k).map fun r => (c, r)

/-- The cores of a domain that take the members of a gang of `g`: the lowest core with room, or the lowest cores with room of the lowest cluster
that has `g` of them (13 R264, 19 R347). Cores that have no power take none (18 R331). -/
def State.spots (s : State) (d g : Nat) (k : Desc) : Option (List (Nat × Room)) :=
  if (s.domain d).regFailed then none
  else if g = 1 then (s.roomy (s.liveCores d) k).head?.map fun x => [x]
  else ((s.clusters d).filterMap fun cs => let rs := s.roomy cs k; if g ≤ rs.length then some (rs.take g) else none).head?

/-! ## Hint domains (19 R346, R347) -/

/-- Hops of a domain's route to another (18 R320). -/
def State.hops (s : State) (a b : Nat) : Nat := ((s.route a b).extractLsb' 57 5).toNat

/-- The domain of linear spread: that whose live cores hold position `floor(b · N / B)` of the partition's. -/
def spreadDomain (ns : List (Nat × Nat)) (p : Nat) : Option Nat :=
  match ns with
  | [] => none
  | (d, n) :: rest => if p < n then some d else spreadDomain rest (p - n)

/-- The linear-spread domain of a block. -/
def State.linearSpread (s : State) (l : Launch) (b : Nat) : Nat :=
  let ns := (s.upDomains l.part).map fun d => (d, (s.liveCores d).length)
  (spreadDomain ns (b * (ns.map (·.2)).sum / max 1 l.pkt.blocks)).getD (s.domOfPart l.part)

/-- The hint domain of a block; a table byte that comes from outside, or that the host must give up first, makes the dispatcher wait. -/
def State.hintDomain (s : State) (l : Launch) (b : Nat) (ext : List (Nat × Nat)) : State × Except EngStop Nat :=
  let lin := s.linearSpread l b
  let at_ := s.domOfPart l.part
  match l.pkt.hmode with
  | 1 =>
    match s.deviceRead (agentCore at_) l.ctx ((l.pkt.haddr + b) % 2 ^ 55) 1 ext with
    | (s, .ok x) => (s, .ok (if x < 64 then x else lin))
    | (s, .error .outside) => (s, .error .outside)
    | (s, .error (.snoop h ls w)) => (s, .error (.snoop h ls w))
    | (s, .error _) => (s, .ok lin)
  | 2 =>
    match s.walkTables at_ (granule (wrapInt (l.pkt.haddr + l.pkt.hstride * b) 55)) 0 with
    | .ok x => (s, .ok (match s.place x.pa with | .home d => d | _ => lin))
    | _ => (s, .ok lin)
  | _ => (s, .ok lin)

/-- The domain with room nearest to another by route length, the lower number on a tie, with the cores that take a gang. -/
def State.spill (s : State) (part h g : Nat) (k : Desc) : Option (List (Nat × Room)) :=
  let found := (s.upDomains part).filterMap fun d => (s.spots d g k).map fun x => (s.hops h d, x)
  match (found.map (·.1)).min? with
  | none => none
  | some n => (List.find? (fun e => e.1 == n) found).map (·.2)

/-- Where a gang goes: its hint domain when that is an up domain of the partition with room, else the nearest with room. -/
def State.gangSpots (s : State) (part h g : Nat) (k : Desc) : Option (List (Nat × Room)) :=
  match (s.upDomains part).contains h, s.spots h g k with
  | true, some x => some x
  | _, _ => s.spill part h g k

/-! ## Putting blocks on cores -/

/-- A core as it goes from no block to one: its division, and its throttle as at the start (08 R149, R170). -/
def Core.occupy (c : Core) (m now : Nat) : Core :=
  if c.division.isSome then c
  else { c with division := some m, l1 := [], cap := 32, scores := [], allowed := List.range 32, extra := [], denied := [], hits := 0
                misses := 0, slotHits := [], windowStart := now }

/-- A core as it takes a block of a context: on a switch of context its lookaside loses every entry (08 R163). -/
def Core.enter (c : Core) (ctx : Nat) : Core := if c.ctx = some ctx then c else { c with ctx := some ctx, look := [] }

/-- Puts a block and its reels on a core; the start is an acquire of system scope (19 R345). -/
def State.settle (s : State) (c : Nat) (r : Room) (b : Block) (reels : List Reel) : State :=
  let key := 32 * c + r.slots.headD 0
  let s := s.onCore c fun q => (q.occupy r.division (s.clock c)).enter b.ctx
  let reels := (r.slots.zip reels).foldl (fun (m : Map Reel) (e : Nat × Reel) => Map.put m (32 * c + e.1) { e.2 with block := key }) s.reels
  let s := { s with blocks := s.blocks.put key { b with core := c, baseRow := r.row }, reels := reels }
  s.acquireCaches c 3

/-- The coordinates of a linear block number (19 R339). -/
def Packet.coord (p : Packet) (b : Nat) : Nat × Nat × Nat := (b % p.nx, b / p.nx % p.ny, b / (p.nx * p.ny))

/-- Starts one block of a launch on a core, one of a gang on cores (04 R77, 08 R151, R172). -/
def State.startBlock (s : State) (id : Nat) (l : Launch) (gang : List Nat) (member linear c : Nat) (r : Room) : State :=
  let k := l.desc
  let b := Block.fresh c id linear l.ctx l.part l.prio k l.pkt.args l.pkt.err 0 r.row (l.pkt.coord linear) (l.pkt.nx, l.pkt.ny, l.pkt.nz)
  let b := { b with gang := gang, member := member, born := s.nextId }
  ({ s with nextId := s.nextId + 1 }).settle c r b ((List.range k.reels).map fun i => Reel.fresh 0 i l.pkt.args k.entry k.xvec)

/-- Starts a gang's members on the cores found for them, all at once. -/
def State.startGang (s : State) (id : Nat) (l : Launch) (first : Nat) (spots : List (Nat × Room)) : State :=
  let gang := spots.map fun e => 32 * e.1 + e.2.slots.headD 0
  (spots.zipIdx).foldl (fun s e => s.startBlock id l gang e.2 (first + e.2) e.1.1 e.1.2) s

/-- Finds places for the gang that begins at a linear number and starts it; none where no core has room. -/
def State.placeGang (s : State) (id : Nat) (l : Launch) (first : Nat) (ext : List (Nat × Nat)) : State × Except EngStop (Option State) :=
  match s.hintDomain l first ext with
  | (s, .error e) => (s, .error e)
  | (s, .ok h) => (s, .ok ((s.gangSpots l.part h l.pkt.gang l.desc).map fun x => s.startGang id l first x))

/-- Starts `n` gangs from a linear number on, all or none. -/
def State.placeAll (s : State) (id : Nat) (l : Launch) (ext : List (Nat × Nat)) : Nat → Nat → State × Except EngStop (Option State)
  | 0, _ => (s, .ok (some s))
  | n + 1, first =>
    match s.placeGang id l first ext with
    | (s, .ok (some s')) =>
      match State.placeAll s' id l ext n (first + l.pkt.gang) with
      | (_, .error e) => (s, .error e)
      | (_, .ok none) => (s, .ok none)
      | (_, .ok (some s'')) => (s'', .ok (some s''))
    | r => r

end Sys2Proof.Machine
end

