-- ==== Sys2Proof/Machine/Service.lean ====
section
/-! DEFINITION. Fault records on their way: their 256 bytes, delivery to a ring, the secure management core, and the fault-service block (14 R285
to R288, 19 R354). -/

namespace Sys2Proof.Machine

/-! ## The record's bytes (14 R285) -/

/-- The 2,048 bits of a record. -/
def FaultRec.encode (f : FaultRec) : Nat :=
  packed [(0, f.kind % 256), (8, bit f.exited), (9, bit f.load), (10, bit f.store), (11, bit f.engine), (13, bit f.hmode), (14, bit f.held),
    (16, f.context % 2 ^ 12), (28, f.part % 16), (32, f.launch % 2 ^ 32), (64, f.block % 2 ^ 32), (96, f.lcore % 2 ^ 16),
    (112, f.pcore % 2 ^ 16), (128, f.bangen % 2 ^ 32), (160, f.reel % 32), (168, f.detail % 256), (176, f.seq % 2 ^ 16),
    (192, f.skid % 2 ^ 20), (224, f.inst.toNat), (256, f.pc.toNat), (320, f.lanes.toNat), (384, f.va % 2 ^ 55), (448, f.line % 2 ^ 55),
    (512, f.pa % 2 ^ 56), (576, f.level % 4), (578, bit f.stage), (608, f.aux.toNat), (896, f.bmask.toNat), (1024, f.image.toNat)]

/-! ## Rings (14 R287) -/

/-- The partition whose ring takes a record: that of the domain it arose in. -/
def State.ringPart (s : State) (f : FaultRec) : Nat := (s.domain f.dom).part

/-- Has the context been taken off the cores by a pre-emption of it, not yet restored (19 R354)? -/
def State.switchedOut (s : State) (part ctx : Nat) : Bool :=
  s.preempts.any fun p => p.2.asker != .dispatcher && p.2.part == part && p.2.ctx == ctx

/-- Is a record's reel or block saved (14 R287)? -/
def State.savedRec (s : State) (f : FaultRec) : Bool :=
  (s.preempts.any fun p => p.2.step == .saved && p.2.part == s.ringPart f && p.2.ctx == f.context)
    || s.saved.any fun v => f.blockKey == v.key

/-- Does a record wait for its ring and may it be delivered? -/
def State.deliverable (s : State) (f : FaultRec) : Bool := f.state == .waiting && !s.savedRec f

/-- The ring addresses of a partition that are taken. -/
def State.ringTaken (s : State) (part : Nat) : List Nat :=
  (s.faults.filter fun f => f.2.slotTaken && s.ringPart f.2 == part).map (·.2.addr)

/-- Address of a ring slot. -/
def Partition.ringAddr (p : Partition) (i : Nat) : Nat := (p.fringBase + 256 * i) % 2 ^ 55

/-- The first free slot of a ring from the one after the slot last written. -/
def State.freeSlot (s : State) (part : Nat) : Option Nat :=
  let p := s.partn part
  ((List.range p.fringSize).map fun i => (p.fringNext + i) % p.fringSize).find? fun i => !(s.ringTaken part).contains (p.ringAddr i)

/-- Writes a record's two lines, through the translations of its domain: no context's permission is asked for. -/
def State.ringWrite (s : State) (d : Nat) : List LineImg → Except EngStop State
  | [] => .ok s
  | i :: rest =>
    match s.translate d (granule i.lowest) with
    | (s, .ok t) => if s.exists? (t.at i.lowest) then State.ringWrite (s.deviceLine (agentCore d) i t) d rest else .error (.absent (t.at i.lowest))
    | (_, .fault x) => .error (.fault x.kind i.lowest x)
    | (_, .absent pa) => .error (.absent pa)
    | (_, .busy) => .error .outside

/-- No block waits any longer for a record that finds no room, in its ring or on a core (19 R357; log entry 99). -/
def State.unresume (s : State) (id : Nat) : State :=
  { s with blocks := s.blocks.mapVals fun _ b => { b with resuming := b.resuming.filter (· != id) } }

/-- FAULT_RECORD_DELIVERY (14 R287): the oldest waiting record of a ring goes to its next free slot. -/
def execFaultRecordDelivery (id : Nat) (s : State) : Out :=
  match s.faults.find? id with
  | none => .next s
  | some f =>
    let part := s.ringPart f
    let p := s.partn part
    let older := s.faults.any fun g => g.1 < id && s.deliverable g.2 && s.ringPart g.2 == part
    if !s.deliverable f || older then .next s
    else if p.fringBase == 0 then .next (s.unresume id)
    else
      match s.freeSlot part with
      | none => .next (s.unresume id)
      | some i =>
        match s.ringWrite f.dom ((deviceImages (p.ringAddr i) 256 f.encode).map (·.2)) with
        | .ok s =>
          let s := { s with faults := s.faults.put id { f with state := .delivered, addr := p.ringAddr i, slotTaken := true } }
          .next (s.setPart part { p with fringNext := (i + 1) % p.fringSize })
        | .error e => s.waitFor e

/-- SECURE_CORE_RESOLVE (14 R287): the secure management core resolves a record with a mode of `resume`, or forwards it to the ring (mode 3). -/
def execSecureCoreResolve (id mode : Nat) (s : State) : Out :=
  match s.faults.find? id with
  | none => .next s
  | some f =>
    if f.state != .secure then .next s
    else match mode with
      | 0 => .next (s.resolve id f .continue).1
      | 1 => .next (s.resolve id f .drop).1
      | 2 => .next (s.resolve id f .retry).1
      | _ => .next { s with faults := s.faults.put id { f with state := .waiting } }

/-! ## Pre-emption by the dispatcher (19 R354) -/

/-- May the dispatcher pre-empt a block for work of a priority: it is weakly parallel, of lower priority, from a slot without the non-pre-emptible
flag, and of a context that has a save area? -/
def State.mayPreempt (s : State) (prio : Nat) (b : Block) : Bool :=
  match s.launches.find? b.launch with
  | some l => l.pkt.cls == 2 && decide (b.prio < prio) && !l.npf && b.service.isNone && ((s.partn b.part).save.find? b.ctx).isSome
      && !s.switchedOut b.part b.ctx
  | none => false

/-- Whether a block comes before another in the choice: lower priority first, then the more recently started. -/
def victimBefore (a b : Block) : Bool := decide (a.prio < b.prio) || (a.prio == b.prio && decide (b.born < a.born))

/-- The block to pre-empt in a partition for work of a priority. -/
def State.victim (s : State) (part prio : Nat) : Option (Nat × Block) :=
  (s.blocks.filter fun b => b.2.part == part && s.mayPreempt prio b.2).foldl
    (fun best b => match best with | none => some b | some v => if victimBefore b.2 v.2 then some b else some v) none

/-- Bytes of a block's image (19 R356). -/
def State.imageBytes (s : State) (key : Nat) (b : Block) : Nat :=
  let c := s.core b.core
  let claims := (c.om.filter fun o => o.2.owner == key).length
  let tiles := (c.ac.filter fun t => t.2.owner == key).length
  let attr := (s.stores.filter fun o => o.2.attr && o.2.block == key).length
  let cmds := (c.cmds.filter fun e => e.block == key).length
  let spad := roundSpad b.desc.spad
  let regs := 4352 + b.desc.reels * (1024 + 128 * b.desc.vregs)
  (regs + 63) / 64 * 64 + spad + 2 * (spad / 32) + 4096 * claims + 4104 * tiles + 16 * attr + 64 * cmds

/-- What of a save area is free: the directory entries from a number on, and the offsets below one. The directory grows from the start of the area,
and the images stand from its end downwards, so that an area takes the images of later saves beside those it holds (19 R356; log entry 40). -/
def State.areaFree (s : State) (area : Nat × Nat) : Nat × Nat :=
  let here := s.saved.filter fun v => v.area == area
  ((here.map fun v => v.entry + 1).foldl max 0, (here.map (·.offset)).foldl min area.2)

/-- A place in a save area: the block, the directory entry, the image's offset and its size. -/
structure ImagePlace where
  key : Nat
  entry : Nat
  offset : Nat
  size : Nat
  deriving DecidableEq, Repr

/-- Places for the images of blocks in an area, from a directory entry on and below an offset; none where the area does not hold them. -/
def State.imagePlaces (s : State) : List Nat → Nat → Nat → Option (List ImagePlace)
  | [], entry, low => if 16 * entry ≤ low then some [] else none
  | k :: rest, entry, low =>
    match s.blocks.find? k with
    | none => State.imagePlaces s rest entry low
    | some b =>
      let n := s.imageBytes k b
      if low < n then none
      else
        let off := (low - n) / 64 * 64
        (State.imagePlaces s rest (entry + 1) off).map fun ps => ⟨k, entry, off, n⟩ :: ps

/-- Places for the images of blocks in an area beside what it holds. -/
def State.placesIn (s : State) (area : Nat × Nat) (keys : List Nat) : Option (List ImagePlace) :=
  s.imagePlaces keys (s.areaFree area).1 (s.areaFree area).2

/-- Does the area hold the directory and images of blocks? -/
def State.areaFits (s : State) (keys : List Nat) (area : Nat × Nat) : Bool := (s.placesIn area keys).isSome

/-- Makes a pre-emption request. -/
def State.request (s : State) (r : PreReq) : State := { s with nextId := s.nextId + 1, preempts := s.preempts.put s.nextId r }

/-- Asks for room: the chosen block's gang is to be pre-empted, unless a request of the dispatcher is under way in the partition (19 R354, R355). -/
def State.makeRoom (s : State) (part prio : Nat) : State :=
  if s.preempts.any fun p => p.2.asker == .dispatcher && p.2.part == part then s
  else match s.victim part prio with
    | none => s
    | some (_, b) =>
      let area := ((s.partn part).save.findD (0, 0) b.ctx)
      let gang := b.gang.filter fun k => (s.blocks.find? k).isSome
      if s.areaFits gang area then s.request ⟨gang, b.ctx, part, .dispatcher, s.time, .soft, area⟩ else s

/-- May blocks start at all: no drain runs, and the compute rails are up (21 R383, 22 R393)? -/
def State.dispatching (s : State) : Bool := !s.mgmt.drainRunning && !s.mgmt.railsOff

/-- Is a fault-service block to be started for a record: it has been delivered, and none has been; a kill that has resolved it since has left it its
ring slot (14 R288, R292)? -/
def FaultRec.startable (f : FaultRec) : Bool := !f.served && (f.state == .delivered || (f.state == .resolved && f.slotTaken))

/-- FAULT_SERVICE_BLOCK_START (14 R288): one reel at the launch's fault entry, in the faulting domain or the nearest with room. -/
def execFaultServiceBlockStart (id : Nat) (s : State) : Out :=
  match s.faults.find? id with
  | none => .next s
  | some f =>
    match s.launches.find? f.launch with
    | none => .next s
    | some l =>
      if !f.startable || l.verdict.isSome || s.switchedOut l.part l.ctx || !s.dispatching then .next s
      else
        let k := { l.desc with reels := 1, spad := 0 }
        match s.gangSpots l.part f.dom 1 k with
        | some ((c, r) :: _) =>
          let b := Block.fresh c f.launch f.block l.ctx l.part (l.prio + 1) k l.pkt.args l.pkt.err (r.slots.headD 0) r.row (l.pkt.coord f.block)
            (l.pkt.nx, l.pkt.ny, l.pkt.nz)
          let b := { b with fsrec := f.addr, service := some id, born := s.nextId }
          let s := { s with nextId := s.nextId + 1, faults := s.faults.put id { f with served := true } }
          .next (s.settle c r b [Reel.fresh 0 0 l.pkt.args k.fault k.xvec])
        | _ => .next ((s.unresume id).makeRoom l.part (l.prio + 1))

end Sys2Proof.Machine
end

