-- ==== Sys2Proof/Machine/Dispatcher.lean ====
section
/-! DEFINITION. The dispatcher: packets taken from queues, admission, blocks that start and end, and the completion of launches (04 R100, 19 R339 to
R347, R352, R353, 21 R375). -/

namespace Sys2Proof.Machine

/-! ## Queues (19 R343) -/

/-- The fields of a queue descriptor: base, rd, wr and the number of entries of its ring. -/
structure QueueDesc where
  base : Nat
  rd : Nat
  wr : Nat
  entries : Nat
  deriving DecidableEq, Repr

/-- A queue descriptor's 256 bits. -/
def QueueDesc.ofNat (x : Nat) : QueueDesc := ⟨bitsOf x 54 0, bitsOf x 191 160, bitsOf x 159 128, 2 ^ (bitsOf x 67 64 + 4)⟩

/-- Address of entry `rd` of a ring of `n`-byte entries. -/
def QueueDesc.entry (q : QueueDesc) (n : Nat) : Nat := (q.base + n * (q.rd % q.entries)) % 2 ^ 55

/-- Reads a queue's descriptor, and the entry at rd when the ring holds one. -/
def State.readQueue (s : State) (b : QueueBind) (n : Nat) (ext : List (Nat × Nat)) : State × Except EngStop (Option (QueueDesc × Nat)) :=
  let core := agentCore (s.domOfPart b.part)
  match s.deviceRead core b.ctx b.desc 32 ext with
  | (s, .error e) => (s, .error e)
  | (s, .ok x) =>
    let q := QueueDesc.ofNat x
    if q.rd = q.wr then (s, .ok none)
    else match s.deviceRead core b.ctx (q.entry n) n ext with
      | (s, .error e) => (s, .error e)
      | (s, .ok p) => (s, .ok (some (q, p)))

/-- Writes rd + 1 to a queue's descriptor. -/
def State.advanceQueue (s : State) (b : QueueBind) (q : QueueDesc) : Except EngStop State :=
  s.deviceWrite (agentCore (s.domOfPart b.part)) b.ctx (b.desc + 20) 4 ((q.rd + 1) % 2 ^ 32)

/-- Hardware queue slots (19 R344). -/
def queueSlots : Nat := 64

/-- Was a launch taken from the queue of a descriptor in a partition (19 R343)? -/
def Launch.ofQueue (l : Launch) (part desc : Nat) : Bool := l.part == part && l.queue.any fun r => r.desc == desc

/-- The launches of the same queue that were taken before. -/
def State.earlier (s : State) (id : Nat) (l : Launch) : List Launch :=
  match l.queue with
  | none => []
  | some r => (s.launches.filter fun o => o.1 != id && o.2.ofQueue l.part r.desc && o.2.queue.any fun q => decide (q.order < r.order)).map (·.2)

/-- Must a launch wait for earlier ones: one is not yet admitted, or, with its after bit, one has not completed (19 R343)? -/
def State.mustWait (s : State) (id : Nat) (l : Launch) : Bool :=
  (s.earlier id l).any fun o => o.state == .queued || l.pkt.after

/-- What a bound launch queue has to offer of packets not yet taken: the priority of the one at rd, unless a packet of the queue that has been taken
is still to be admitted, or its after bit makes it wait (19 R343, R344). -/
def State.ringOffer (s : State) (b : QueueBind) (ext : List (Nat × Nat)) : Option Nat :=
  if b.collective || s.launches.any fun l => l.2.ofQueue b.part b.desc && l.2.state == .queued then none
  else match (s.readQueue b 128 ext).2 with
    | .ok (some (_, x)) =>
      let p := Packet.ofNat x
      if p.after && s.launches.any fun l => l.2.ofQueue b.part b.desc then none else some (min p.prio b.cap)
    | _ => none

/-- The slots with packets to admit, each with the priority of the next: a packet that has been taken and neither waits for its queue nor has found
no room, or one that its ring holds (19 R344). -/
def State.offers (s : State) (ext : List (Nat × Nat)) : List (Nat × Nat) :=
  (s.launches.filterMap fun l => l.2.queue.bind fun r =>
      if l.2.state == .queued && !l.2.waits && !s.mustWait l.1 l.2 then some (r.slot, l.2.prio) else none)
    ++ (s.queues.filter fun q => decide (q.1 < queueSlots)).filterMap fun q => (s.ringOffer q.2 ext).map fun p => (q.1, p)

/-- How far a slot stands from the one served last, in rotation. -/
def State.slotTurn (s : State) (slot : Nat) : Nat := (slot + 127 - s.servedSlot) % queueSlots

/-- Does the dispatcher serve a slot that offers a priority: no slot offers a higher one, and of those that offer the same none comes before it in
rotation (19 R344)? -/
def State.serves? (s : State) (slot prio : Nat) (ext : List (Nat × Nat)) : Bool :=
  (s.offers ext).all fun o => decide (o.2 < prio) || (o.2 == prio && decide (s.slotTurn slot ≤ s.slotTurn o.1))

/-- QUEUE_TAKE_PACKET (19 R342 to R344): the packet at rd of the bound launch queue that is served next is copied and entered, and rd advances. A
descriptor or packet that cannot be read leaves the queue as it is. -/
def execQueueTakePacket (slot : Nat) (ext : List (Nat × Nat)) (s : State) : Out :=
  match s.queues.find? slot with
  | none => .next s
  | some b =>
    if b.collective || !s.dispatching || s.launches.any fun l => l.2.ofQueue b.part b.desc && l.2.state == .queued then .next s
    else match s.readQueue b 128 ext with
      | (_, .error e) => s.waitFor e
      | (s, .ok none) => .next s
      | (s, .ok (some (q, x))) =>
        let p := Packet.ofNat x
        let after := p.after && s.launches.any fun l => l.2.ofQueue b.part b.desc
        if !after && !s.serves? slot (min p.prio b.cap) ext then .next s
        else match s.advanceQueue b q with
        | .error e => s.waitFor e
        | .ok s =>
          let (s, _) := s.enter p b.ctx b.part b.cap (some ⟨b.reg, b.desc, slot, s.nextId⟩) b.npf b.vector
          .next { s with nextId := s.nextId + 1 }

/-! ## Admission (19 R339, R341, R345) -/

/-- The fields of a kernel descriptor's 512 bits. -/
def Desc.ofNat (x : Nat) : Desc :=
  ⟨bitsOf x 307 288, bitsOf x 271 264, bitsOf x 263 256, bitsOf x 246 192, bitsOf x 182 128, bitsOf x 118 64, bitsOf x 54 0⟩

/-- Is an address field of a descriptor misplaced: [1:0] or [63:55] not 0? -/
def badAddr (x lo : Nat) : Bool := bitsOf x (lo + 1) lo != 0 || bitsOf x (lo + 63) (lo + 55) != 0

/-- Is a descriptor one that a launch is refused for? -/
def badDesc (x : Nat) : Bool :=
  let k := Desc.ofNat x
  k.vregs == 0 || decide (128 < k.vregs) || k.reels == 0 || decide (32 < k.reels) || decide (2048 < k.reels * k.vregs)
    || decide (589824 < k.spad) || badAddr x 0 || badAddr x 64 || badAddr x 128 || badAddr x 192
    || bitsOf x 511 308 != 0 || bitsOf x 287 272 != 0

/-- Live cores of a partition's clusters, up domains only. -/
def State.clusterSizes (s : State) (part : Nat) : List Nat := (s.upDomains part).flatMap fun d => (s.clusters d).map List.length

/-- Is a gang not placeable: the blocks do not fill gangs, or no cluster has cores for one (13 R264, 19 R341)? -/
def State.badGang (s : State) (part : Nat) (p : Packet) : Bool :=
  p.blocks % p.gang != 0 || (s.clusterSizes part).all fun n => n < p.gang

/-- Gangs of a kernel that a partition's live cores hold at once when they hold nothing else. -/
def State.gangCapacity (s : State) (part g : Nat) (k : Desc) : Nat :=
  ((s.clusterSizes part).map fun n => if n < g then 0 else n * k.capacity / g).sum

/-- Can the device write a launch's completion word (19 R339)? An error is a fault, or a cause to wait. -/
def State.cwStop (s : State) (l : Launch) : Option EngStop :=
  match s.engXlat (agentCore (s.domOfPart l.part)) l.ctx l.pkt.cw (BitVec.ofNat 128 (byteMask (l.pkt.cw % 128) 8)) ⟨false, true, false⟩ with
  | (_, .error (.snoop ..)) | (_, .ok _) => none
  | (_, .error e) => some e

/-- Drops a launch whose completion word is unusable: its queue's refusal counter rises. -/
def State.dropLaunch (s : State) (id : Nat) (l : Launch) : State :=
  let s := { s with launches := s.launches.del id }
  match l.queue with
  | some r => { s with refusals := s.refusals.putD 0 r.reg (s.refusals.findD 0 r.reg + 1) }
  | none => s

/-- The dispatcher has served a launch's slot (19 R344). -/
def State.servedLaunch (s : State) (l : Launch) : State :=
  match l.queue with | some r => { s with servedSlot := r.slot } | none => s

/-- Refuses a launch at admission with status 3 and a detail. -/
def State.refuse (s : State) (id : Nat) (l : Launch) (detail : Nat) : State :=
  { s with launches := s.launches.put id { l with state := .admitted, verdict := some (3, detail, 0) } }

/-- A concurrent launch has found no room: it waits, and other slots are served meanwhile (19 R345). -/
def State.waitsForRoom (s : State) (id : Nat) : State := s.onLaunch id fun l => { l with waits := true }

/-- May a launch's admission be decided: it is a device launch, or has found no room before, or its slot is the one served next (19 R344, R345)? -/
def State.mayAdmit (s : State) (l : Launch) (ext : List (Nat × Nat)) : Bool :=
  l.waits || match l.queue with | some r => s.serves? r.slot l.prio ext | none => true

/-- Admits a launch whose descriptor is read (19 R345). -/
def State.admitLaunch (s : State) (id : Nat) (l : Launch) (ext : List (Nat × Nat)) : Out :=
  let l := { l with admitAt := s.time }
  let put := fun (s : State) (l : Launch) => { s with launches := s.launches.put id { l with state := .admitted } }
  if l.pkt.cls = 0 then
    let gangs := l.pkt.blocks / l.pkt.gang
    if s.gangCapacity l.part l.pkt.gang l.desc < gangs then .next (s.refuse id l 3)
    else if s.switchedOut l.part l.ctx then .next (s.waitsForRoom id)
    else match s.placeAll id l ext gangs 0 with
      | (_, .error e) => s.waitFor e
      | (_, .ok none) => .next ((s.waitsForRoom id).makeRoom l.part l.prio)
      | (_, .ok (some s)) => .next (put s { l with nextBlock := l.pkt.blocks })
  else .next (put s l)

/-- LAUNCH_ADMIT (19 R339, R341, R344, R345): a launch whose slot is served next is admitted or refused, or waits. -/
def execLaunchAdmit (id : Nat) (ext : List (Nat × Nat)) (s : State) : Out :=
  match s.launches.find? id with
  | none => .next s
  | some l =>
    if l.state != .queued || l.verdict.isSome || s.mustWait id l || !s.dispatching || !s.mayAdmit l ext then .next s
    else
      let s := s.servedLaunch l
      if !l.pkt.cwOk then .next (s.dropLaunch id l)
      else match s.cwStop l with
      | some (.fault ..) => .next (s.dropLaunch id l)
      | some e => s.waitFor e
      | none =>
        if l.pkt.malformed then .next (s.refuse id l 2)
        else match s.deviceRead (agentCore (s.domOfPart l.part)) l.ctx l.pkt.kdesc 64 ext with
          | (s', .error (.fault ..)) => .next (s'.refuse id l 1)
          | (_, .error e) => s.waitFor e
          | (s, .ok x) =>
            if badDesc x then .next (s.refuse id l 1)
            else if s.badGang l.part l.pkt then .next (s.refuse id l 4)
            else s.admitLaunch id { l with desc := Desc.ofNat x } ext

/-! ## Blocks that start and end -/

/-- The first linear number of the gang that starts next: one to be replayed, or the next in order. -/
def Launch.nextGang (l : Launch) : Option Nat :=
  match l.replay with
  | b :: _ => some (b / l.pkt.gang * l.pkt.gang)
  | [] => if l.nextBlock < l.pkt.blocks then some l.nextBlock else none

/-- A launch after the gang from a linear number on has started. -/
def Launch.started (l : Launch) (first : Nat) : Launch :=
  { l with replay := l.replay.filter fun b => b / l.pkt.gang * l.pkt.gang != first
           nextBlock := if first = l.nextBlock then first + l.pkt.gang else l.nextBlock }

/-- BLOCK_START (19 R345 to R347): the next gang of an admitted launch starts; with no room, the dispatcher asks for some (R354). -/
def execBlockStart (id : Nat) (ext : List (Nat × Nat)) (s : State) : Out :=
  match s.launches.find? id with
  | none => .next s
  | some l =>
    match l.nextGang with
    | none => .next s
    | some first =>
      if l.state != .admitted || l.verdict.isSome || s.switchedOut l.part l.ctx || !s.dispatching then .next s
      else match s.placeGang id l first ext with
        | (_, .error e) => s.waitFor e
        | (s, .ok none) => .next (s.makeRoom l.part l.prio)
        | (_, .ok (some s)) => .next { s with launches := s.launches.adjust id fun l => l.started first }

/-- A key that no block has: it stands in a gang for a member that has ended. -/
def endedKey : Nat := 2 ^ 60

/-- Is a command a start of the stream? -/
def EngOp.starts : EngOp → Bool
  | .mstart .. => true
  | _ => false

/-- Has every reel of a block exited or been killed, its sequencer stopped and its engine commands ended (04 R100)? A stream that has halted never
runs again, and accepts no start (11 R226). -/
def State.blockDone (s : State) (key : Nat) (b : Block) : Bool :=
  (s.reels.all fun r => r.2.block != key || r.2.exited || r.2.killed)
    && b.seq.mode != .running && b.seq.pending.isNone && (s.core b.core).cmds.all fun c => c.block != key || (b.seq.mode == .halted && c.op.starts)

/-- An issue slot without what it knows of reel slots that their reels have left. -/
def IssueQ.without (q : IssueQ) (slots : List Nat) : IssueQ :=
  ⟨q.order.filter fun i => !slots.contains i, q.passed.keep fun i _ => !slots.contains i⟩

/-- Takes a block and its reels off its core: its claims are given back, its commands go, its reel slots start again for other reels, and a core
left without a block loses its division (08 R149, R169, R170, 11 R222). -/
def State.unsettle (s : State) (key : Nat) (b : Block) : State :=
  let left := (s.reels.filter fun r => r.2.block == key).map fun r => slotOfKey r.1
  let s := { s with blocks := s.blocks.del key, reels := s.reels.keep fun _ r => r.block != key }
  let empty := (s.blocksOn b.core).isEmpty
  s.onCore b.core fun c =>
    { c with om := c.om.keep fun _ o => o.owner != key
             ac := c.ac.keep fun _ t => t.owner != key
             cmds := c.cmds.filter fun e => e.block != key
             extra := c.extra.filter fun i => !left.contains i
             denied := c.denied.keep fun i _ => !left.contains i
             vecSlot := c.vecSlot.without left
             memSlot := c.memSlot.without left
             division := if empty then none else c.division }

/-- The gang of a block that leaves it for good: its place is taken by no block, and the others keep whether it had published (13 R269). -/
def State.leaveGang (s : State) (key : Nat) (published : Bool) : State :=
  let left := fun (b : Block) =>
    if b.gang.contains key then
      { b with gang := b.gang.map fun k => if k = key then endedKey else k, gangPublished := b.gangPublished || published }
    else b
  { s with blocks := s.blocks.mapVals fun _ b => left b, saved := s.saved.map fun v => { v with block := left v.block } }

/-- A store whose reel goes keeps the reel's retired count (08 R166). -/
def OutStore.leave (reels : Map Reel) (keys : List Nat) (o : OutStore) : OutStore :=
  match o.reel with
  | some k => if keys.contains k then { o with reel := none, last := (reels.find? k).map (·.retired) } else o
  | none => o

/-- Ends a block: what outlives it no longer names its reels. -/
def State.endBlock (s : State) (key : Nat) (b : Block) : State :=
  let keys := (s.reels.filter fun r => r.2.block == key).map (·.1)
  let gone := fun (k : Option Nat) => match k with | some k => if keys.contains k then none else some k | none => none
  let s := { s with
    stores := s.stores.mapVals fun _ o => o.leave s.reels keys
    faults := s.faults.mapVals fun _ f => { f with reelKey := gone f.reelKey }
    preempts := s.preempts.mapVals fun _ p => { p with blocks := p.blocks.filter (· != key) } }
  let s := (s.unsettle key b).leaveGang key b.published
  match b.service with
  | some id => { s with faults := s.faults.adjust id fun f => if f.state == .resolved then { f with slotTaken := false } else f }
  | none => { s with launches := s.launches.adjust b.launch fun l => { l with ended := insertNew l.ended b.linear } }

/-- BLOCK_END (04 R100). -/
def execBlockEnd (key : Nat) (s : State) : Out :=
  match s.blocks.find? key with
  | none => .next s
  | some b => if s.blockDone key b then .next (s.endBlock key b) else .next s

/-! ## Completion (19 R342, R352, R353) -/

/-- The value of a completion word. -/
def Launch.word (l : Launch) (id : Nat) : Nat :=
  let (status, detail, kind) := l.verdict.getD (1, 0, 0)
  packed [(0, status), (8, detail), (16, kind), (32, id % 2 ^ 32)]

/-- The registration that a message gives up, on its way to its home. -/
def Body.leaves : Body → Option Nat
  | .watch _ _ reg _ false | .homeWatch _ _ reg _ false _ => some reg
  | _ => none

/-- Is nothing of a launch left: its blocks, its stores and atomics, the registrations its reels have given up, and its records, each of which has
had its fault-service block (09 R202, 14 R292, 19 R352)? -/
def State.launchDone (s : State) (id : Nat) (l : Launch) : Bool :=
  (l.verdict.isSome || (l.state == .admitted && l.ended.length == l.pkt.blocks))
    && (s.blocks.all fun b => b.2.launch != id) && (s.saved.all fun v => v.block.launch != id)
    && (s.stores.all fun o => o.2.launch != id)
    && (s.msgs.all fun m => !(m.2.body.leaves.any fun r => l.leaving.contains r))
    && s.faults.all fun f => f.2.launch != id || (f.2.state == .resolved && (l.verdict.isSome || !f.2.startable))

/-- Is a completion word, written as one of the messages below a mark, still on its way to its home? -/
def State.wordOnWay (s : State) (l : Launch) (mark : Nat) : Bool :=
  s.msgs.any fun m => decide (m.1 < mark) &&
    match m.2.body with | .homeWrite sid i _ => sid == 0 && i.line == l.pkt.cw / 128 | _ => false

/-- Ends a launch whose completion word has been written: the host is signalled (21 R375). -/
def State.endLaunch (s : State) (id : Nat) (l : Launch) : State :=
  { s with launches := s.launches.del id, faults := s.faults.keep fun _ f => f.launch != id
           irqs := if l.pkt.irq then s.irqs ++ [l.vector] else s.irqs }

/-- LAUNCH_COMPLETE (19 R342, R352, 21 R375): the completion word is written; once it stands at its home, the host is signalled. -/
def execLaunchComplete (id : Nat) (s : State) : Out :=
  match s.launches.find? id with
  | none => .next s
  | some l =>
    match l.state with
    | .written mark => .next (if s.wordOnWay l mark then s else s.endLaunch id l)
    | _ =>
      if !s.launchDone id l then .next s
      else if !l.pkt.cwOk then .next (s.dropLaunch id l)
      else match s.deviceWrite (agentCore (s.domOfPart l.part)) l.ctx l.pkt.cw 8 (l.word id) with
        | .error (.fault ..) => .next (s.dropLaunch id l)
        | .error e => s.waitFor e
        | .ok s =>
          .next (if s.wordOnWay l s.nextId then s.onLaunch id fun l => { l with state := .written s.nextId } else s.endLaunch id l)

/-- Units of time in a microsecond (00 R7). -/
def micro : Nat := 2500

/-- LAUNCH_TIME_LIMIT (19 R353). -/
def execLaunchTimeLimit (id : Nat) (s : State) : Out :=
  match s.launches.find? id with
  | none => .next s
  | some l =>
    if l.state == .admitted && l.verdict.isNone && l.pkt.limit != 0 && decide (l.admitAt + l.pkt.limit * micro ≤ s.time) then
      .next (s.killLaunch id (5, 0, 0))
    else .next s

end Sys2Proof.Machine
end

