-- ==== Sys2Proof/Machine/Transit.lean ====
section
/-! DEFINITION. Events between a core and its slice: permission fills, requests at the slice, the end of walks, fills and invalidations at a guest,
confirmations, and shootdowns (08 R163, R164, R170, 14 R270 to R282). -/

namespace Sys2Proof.Machine

/-! ## Permission fills and shootdowns (08 R163, R164) -/

/-- Installs a leaf in the lookaside, in a full one in the place of the oldest entry: the spec gives no replacement (DESIGN CHOICE; log entry 7). -/
def Core.install (c : Core) (e : LookEntry) : Core :=
  let look := (c.look.filter fun o => !(o.ctx == e.ctx && o.lo == e.lo && o.size == e.size)) ++ [e]
  { c with look := look.drop (look.length - Config.lookasideEntries) }

/-- A permission read ends: a leaf is installed, or a denial is noted with the wait. -/
def State.permFill (s : State) (core ctx g : Nat) (denied : List (Nat × Nat)) (bad : Bool) (put : State → Nat → List (Nat × Nat) → State) :
    Out :=
  match s.permRead core ctx (g * 65536) bad with
  | .leaf e => .next (put (s.onCore core fun c => c.install e) g denied)
  | .denied kind => .next (put s g (denied ++ [(g, kind)]))
  | .absent pa => .fault (.noSuchMemory pa)

/-- PERMISSION_FILL: the table reads of a waiting split, or of a sequencer (split 4), end (08 R163). -/
def execPermissionFill (reel split : Nat) (bad : Bool) (s : State) : Out :=
  if split = 4 then
    match s.blocks.find? reel with
    | some b =>
      match b.seq.wait with
      | some (.perm g den) =>
        s.permFill b.core b.ctx g den bad fun s g den => s.onBlock reel fun b => { b with seq := { b.seq with wait := some (.perm g den) } }
      | _ => .next s
    | none => .next s
  else
    match s.reels.find? reel with
    | none => .next s
    | some r =>
      match r.splits.find? split, s.blocks.find? r.block with
      | some p, some b =>
        match p.wait with
        | some (.perm g den) =>
          s.permFill b.core b.ctx g den bad fun s g den =>
            s.onReel reel fun r => { r with splits := r.splits.adjust split fun p => { p with wait := some (.perm g den) } }
        | _ => .next s
      | _, _ => .next s

/-- Do two ranges of addresses overlap? -/
def overlap (lo1 hi1 lo2 hi2 : Nat) : Bool := decide (lo1 < hi2) && decide (lo2 < hi1)

/-- The requests of a core to addresses of a range that have not yet entered the domain fabric. -/
def State.leaving (s : State) (core lo hi : Nat) : List Nat :=
  (s.msgs.filter fun m => m.2.core == core && !m.2.arrived
    && (match m.2.body.sliceLine with | some l => overlap (128 * l) (128 * l + 128) lo hi | none => false)).map (·.1)

/-- The cores of a partition. -/
def State.coresOf (s : State) (part : Nat) : List Nat := (List.range Config.coreCount).filter fun c => (s.domain (domainOfCore c)).part == part

/-- A list of denials without those of granules that overlap a range. -/
def undenied (lo hi : Nat) (den : List (Nat × Nat)) : List (Nat × Nat) :=
  den.filter fun d => !overlap (65536 * d.1) (65536 * d.1 + 65536) lo hi

/-- A wait with what it has found denied in a range discarded. -/
def Wait.undeny (lo hi : Nat) : Wait → Wait
  | .perm g den => .perm g (undenied lo hi den)
  | w => w

/-- A sequencer's wait with what it has found denied in a range discarded. -/
def SeqWait.undeny (lo hi : Nat) : SeqWait → SeqWait
  | .perm g den => .perm g (undenied lo hi den)
  | w => w

/-- Discards the fills of a context's blocks in a partition that have read the tables of a range and are still held with their waits: they are read
again (08 R164). -/
def State.refill (s : State) (part ctx lo hi : Nat) : State :=
  let mine := fun (b : Block) => b.part == part && b.ctx == ctx
  { s with
    reels := s.reels.mapVals fun _ r => if (s.blocks.find? r.block).any mine then r.mapWaits (Wait.undeny lo hi) else r
    blocks := s.blocks.mapVals fun _ b => if mine b then { b with seq := { b.seq with wait := b.seq.wait.map (SeqWait.undeny lo hi) } } else b }

/-- PERMISSION_SHOOTDOWN: every core of the partition drops the entries that overlap the range, and the range's instruction lines, and discards the
fills in progress (08 R164). -/
def execPermissionShootdown (part ctx lo hi : Nat) (s : State) : Out :=
  .next ((s.coresOf part).foldl (fun s core =>
    s.onCore core fun c =>
      { c with look := c.look.filter fun e => !(e.ctx == ctx && overlap e.lo (e.lo + e.size) lo hi)
               icache := c.icache.keep fun line _ => !overlap (128 * line) (128 * line + 128) lo hi
               shoot := c.shoot ++ [(ctx, lo, hi, s.leaving core lo hi)] }) (s.refill part ctx lo hi))

/-- PERMISSION_SHOOTDOWN_ACK: a core acknowledges its oldest shootdown once the accesses checked under a dropped entry have left it. -/
def execPermissionShootdownAck (core : Nat) (s : State) : Out :=
  match (s.core core).shoot with
  | [] => .next s
  | (_, _, _, ids) :: rest =>
    if ids.any fun i => match s.msgs.find? i with | some m => !m.arrived | none => false then .next s
    else .next (s.onCore core fun c => { c with shoot := rest })

/-- What a translation shootdown leaves of a sector: its unresolved writes, with no later use of fills that are out. -/
def L2Sector.shot (x : L2Sector) : L2Sector := { x.useOnce with held := none }

/-- A domain's part of a translation shootdown: translations dropped, Dirty sectors written back, the others dropped (14 R282). -/
def State.shootDomain (s : State) (d lo hi : Nat) : State :=
  let q := s.domain d
  let hit := fun sec => overlap (32 * sec) (32 * sec + 32) lo hi
  let mem := q.l2.foldl (fun m e =>
    match e.2.held with
    | some h => if hit e.1 && h.kind == .dirty then Memory.writeNat m h.pa 32 h.data.toNat else m
    | none => m) s.mem
  { s.setDomain d { q with
      xlats := q.xlats.keep fun g _ => !overlap (65536 * g) (65536 * g + 65536) lo hi
      l2 := (q.l2.mapVals fun sec x => if hit sec then x.shot else x).keep fun _ x => x != L2Sector.invalid } with mem := mem }

/-- The domains of a partition. -/
def State.domainsOf (s : State) (part : Nat) : List Nat := (List.range Config.domainCount).filter fun d => (s.domain d).part == part

/-- Has a domain a Provisional or Forwarded sector in a range? -/
def Domain.unresolved (q : Domain) (lo hi : Nat) : Bool :=
  q.l2.any fun e => overlap (32 * e.1) (32 * e.1 + 32) lo hi && !e.2.laid.isEmpty

/-- TRANSLATION_SHOOTDOWN (14 R282): acknowledged once no domain of the partition has a write of the range to resolve; until then system software asks
again. -/
def execTranslationShootdown (part lo hi : Nat) (s : State) : Out :=
  let s := (s.domainsOf part).foldl (fun s d => s.shootDomain d lo hi) s
  .next { s with answer := some (.shootdown ((s.domainsOf part).all fun d => !(s.domain d).unresolved lo hi)) }

/-! ## The throttle's window (08 R170) -/

/-- VICTIM_RECOMPUTE: scores, the cap and the allowed set, at the end of a window of 1,024 cycles. -/
def execVictimRecompute (core : Nat) (s : State) : Out :=
  inCore core s fun s =>
    let c := s.core core
    let now := s.clock core
    let scores : Map Nat := (List.range 32).foldl (fun m r =>
      Map.putD 0 m r (min 65535 (c.scores.findD 0 r / 2 + c.slotHits.findD 0 r))) []
    let cap := if c.misses < 8 * c.hits then max 1 (c.cap / 2) else if 32 * c.hits < c.misses then min 32 (c.cap + 2) else c.cap
    let late := ((c.denied.filter fun p => p.2 ≤ c.windowStart).map (·.1)).filter fun i => !(s.allowedNow core).contains i
    let s' := s.setCore core { c with scores := scores, cap := cap, hits := 0, misses := 0, slotHits := [], windowStart := now }
    if now < c.windowStart + 1024 then .next s
    else
      let best := (s'.ranked core).take cap
      .next (s'.onCore core fun q => { q with allowed := best, extra := late.filter fun i => !best.contains i })

/-! ## Requests at the slice (14 R270, R271) -/

/-- The translation a domain holds for an address, and the address without memory it leads to, if it does. -/
def State.absentAt (s : State) (d va : Nat) : Option Nat :=
  match (s.domain d).xlats.find? (granule va) with
  | some t => if s.exists? (t.at va) then none else some (t.at va)
  | none => none

/-- The reel a load's, store's or atomic's request is of. -/
def State.requester (s : State) : Body → Option Nat
  | .read r _ => some r.reel
  | .write sid _ | .atomic sid .. => (s.stores.find? sid).bind (·.reel)
  | _ => none

/-- Receives a request of a core at its slice: one that leads where no memory is stops the machine, and one of a reel that has come to this core
with a store of the line under way elsewhere waits for that store (09 R180, 15 R294). -/
def State.atSlice (s : State) (key : Nat) (k : Msg → Nat → State) : Out :=
  match s.receive? key with
  | none => .next s
  | some m =>
    match m.body.sliceLine with
    | none => .next s
    | some line =>
      if (s.requester m.body).any fun k => s.awayStore k line then .next s
      else match s.absentAt m.dst (128 * line) with
      | some pa => .fault (.noSuchMemory pa)
      | none => .next (k m line)

/-- SLICE_READ: a load, an atomic that returns, or a watch registration or deregistration reaches its slice. -/
def execSliceRead (msg : Nat) (s : State) : Out :=
  s.atSlice msg fun m line =>
    match m.body with
    | .read r sec => s.sliceRead msg m.dst r sec
    | .atomic sid (some rd) op wide lanes => s.sliceForward msg m (128 * line) (atomicHome sid (some rd) op wide lanes) true
    | .watch reel slot reg va add => s.sliceForward msg m va (.homeWatch reel slot reg va add) false
    | _ => s

/-- Must the replay of a faulted line wait: an earlier-sequence record of its reel for the line is open (14 R291)? -/
def State.replayWaits (s : State) (sid line : Nat) : Bool :=
  match s.stores.find? sid with
  | none => false
  | some o =>
    match o.lines.find? line with
    | some (.faulted _) =>
      s.faults.any fun f => f.2.state != .resolved && f.2.launch == o.launch && f.2.block == o.linear && f.2.reel == o.slot && f.2.line == 128 * line
        && (match f.2.sid with | some i => i < sid | none => false)
    | _ => false

/-- SLICE_WRITE_ACCEPT: a store's line, or an atomic that returns nothing, reaches its slice (14 R271). -/
def execSliceWriteAccept (msg : Nat) (s : State) : Out :=
  s.atSlice msg fun m line =>
    match m.body with
    | .write sid i => if s.replayWaits sid line then s else s.sliceWrite msg m sid i
    | .atomic sid none op wide lanes =>
      if s.replayWaits sid line then s else s.sliceForward msg m (128 * line) (atomicHome sid none op wide lanes) true
    | _ => s

/-- TRANSLATION_WALK_COMPLETE: one of the walks that run ends (14 R271, R277, R278, R281); `bad` names the table read that met an uncorrectable
error, 0 for none. -/
def execTranslationWalkComplete (dom page bad : Nat) (s : State) : Out :=
  if !((s.domain dom).walks.take walkSlots).contains page then .next s
  else
    match s.walk dom page bad with
    | (s, .ok t) => if s.exists? t.pa then .next (s.walkDone dom page t) else .fault (.noSuchMemory t.pa)
    | (s, .fault x) => .next (s.walkFault dom page x)
    | (_, .absent pa) => .fault (.noSuchMemory pa)

/-! ## At a guest (14 R272, R276) -/

/-- A sector takes a fill: the loads that waited are served, and it becomes Guest unless the fill is use-once, not to be installed, or homed
here. -/
def State.takeFill (s : State) (src d sec req : Nat) (data : BitVec 256) (install : Bool) : State :=
  match (s.sector d sec).fills.find? fun f => f.req == req with
  | none => s
  | some f =>
    let s := s.onSector d sec fun x => { x with fills := x.fills.filter fun f => f.req != req }
    let s := f.waiting.foldl (fun s r => s.serve r sec data (!f.useOnce)) s
    s.onSector d sec fun x =>
      if install && !f.useOnce && src != d && x.laid.isEmpty && x.held.isNone then { x with held := some ⟨.guest, f.pa, f.mode, f.ac, data⟩ } else x

/-- GUEST_FILL (14 R276). -/
def execGuestFill (msg : Nat) (s : State) : Out :=
  match s.receive? msg with
  | some m =>
    match m.body with
    | .fill dom sec req data mate install =>
      let both := install && (mate.isNone || ((s.sector dom sec).laid.isEmpty && (s.sector dom (mateOf sec)).laid.isEmpty))
      let s := (s.take msg).takeFill m.src dom sec req data both
      .next (match mate with | some x => s.takeFill m.src dom (mateOf sec) req x both | none => s)
    | _ => .next s
  | none => .next s

/-- The sectors of a grain, by VA / 32. -/
def grainSectors (va grain : Nat) : List Nat := (List.range (max 1 (grain / 32))).map (va / 32 + ·)

/-- Where an acknowledgement goes: to the writer's side (14 R275). -/
def State.ackDst (s : State) (src : Nat) : AckTo → Nat
  | .store sid => match s.stores.find? sid with | some o => domainOfCore o.core | none => src
  | _ => src

/-- GUEST_INVALIDATION (14 R272, R276): Guest sectors go, outstanding fills become use-once, Forwarded bytes stay; acknowledged at once. -/
def execGuestInvalidation (msg : Nat) (s : State) : Out :=
  match s.receive? msg with
  | some m =>
    match m.body with
    | .inval va grain whom =>
      let s := (grainSectors va grain).foldl (fun s sec => s.onSector m.dst sec L2Sector.dropGuest) (s.take msg)
      .next (s.send ⟨m.dst, s.ackDst m.src whom, 0, false, .ack whom⟩)
    | _ => .next s
  | none => .next s

/-- An acknowledgement reaches who waits for it. -/
def State.acked (s : State) : AckTo → State
  | .store sid => (s.onStore sid fun o => { o with acks := o.acks - 1 }).storeProgress sid
  | .host line => { s with hostLines := s.hostLines.adjust line fun l => { l with acks := l.acks - 1 } }
  | .nobody => s

/-- INVALIDATION_ACKNOWLEDGEMENT (14 R275, 21 R367). -/
def execInvalidationAcknowledgement (msg : Nat) (s : State) : Out :=
  match s.receive? msg with
  | some m =>
    match m.body with
    | .ack whom => .next ((s.take msg).acked whom)
    | _ => .next s
  | none => .next s

/-- A store of a reel that has moved to another core is confirmed: that core and its slice keep no older copy of the line (09 R180). -/
def State.confirmedAway (s : State) (sid line : Nat) : State :=
  match s.stores.find? sid with
  | none => s
  | some o =>
    if o.origin = o.core then s
    else
      let s := (s.dropL1Line o.core line).noInstall o.core fun sec => sec / 4 = line
      (List.range 4).foldl (fun s j => s.onSector (domainOfCore o.core) (4 * line + j) L2Sector.dropGuest) s

/-- STORE_CONFIRMED: a line's Forwarded bytes leave the slice, its attribution and st follow (04 R88, 08 R166, 14 R272). -/
def execStoreConfirmed (msg : Nat) (s : State) : Out :=
  match s.receive? msg with
  | some m =>
    match m.body with
    | .confirm sid line => .next ((((s.take msg).unlay m.dst line sid).confirmedAway sid line).setLine sid line .confirmed)
    | _ => .next s
  | none => .next s

/-! ## Scratchpad waits (08 R154, 09 R182) -/

/-- FULL_EMPTY_QUALIFIED: a waiting access finds every word qualified and is performed in one step (09 R182). -/
def execFullEmptyQualified (reel split : Nat) (s : State) : Out :=
  match s.issuerOf reel split with
  | none => .next s
  | some x =>
    match x.split.wait with
    | some (.fullEmpty a _ _) =>
      if x.reel.held || !s.runs x.reel.block x.block || s.skidFull reel x.reel || !a.qualifies x.block then .next s
      else x.performSpad a true
    | _ => .next s

/-- The lowest word of lanes that does not qualify, and the lanes that have such a word. -/
def Block.unready (b : Block) (load : Bool) (mode size : Nat) (lanes : List (Nat × Nat)) : Option Nat × List (Nat × Nat) :=
  let bad := lanes.filter fun l => !b.qualifies load mode (wordsAt l.2 size)
  (((bad.flatMap fun l => (wordsAt l.2 size).filter fun w => !b.qualifies load mode [w]).min?).map (4 * ·), bad)

/-- Raises the timeout of a waiting access: the reel is held, and nothing of the wait is performed (08 R154). -/
def Issuer.timeout (x : Issuer) (f : FaultRec) : Out :=
  .next ((x.s.raiseRec { f with kind := 8, split := x.cur.split, ipc := x.cur.bundle.ipc } true).1)

/-- The lanes of a REMOTE access whose words do not qualify. -/
def State.remoteUnready (s : State) (b : Block) (a : RemoteAcc) : List (Nat × Nat × Nat) :=
  a.lanes.filter fun l => !a.done.contains l.2.1 &&
    match (b.gang[l.2.1]?).bind s.blocks.find? with
    | some t => !t.qualifies (a.cls == 0) a.mode (wordsAt l.2.2 4)
    | none => true

/-- FULL_EMPTY_TIMEOUT: a full/empty wait reaches 2^24 cycles with some word unqualified (08 R154, 13 R267). -/
def execFullEmptyTimeout (reel split : Nat) (s : State) : Out :=
  match s.issuerOf reel split with
  | none => .next s
  | some x =>
    let now := s.clock x.coreId
    match x.split.wait with
    | some (.fullEmpty a since spent) =>
      let (va, bad) := x.block.unready a.load a.mode a.size a.lanes
      if x.reel.held || now - since + spent < Config.longTimeout || bad.isEmpty then .next s
      else x.timeout (x.spadRec 8 a.load bad va)
    | some (.remote a since spent) =>
      let bad := s.remoteUnready x.block a
      if x.reel.held || a.cls == 2 || now - since + spent < Config.longTimeout || bad.isEmpty then .next s
      else x.timeout (x.remoteRec a 8 bad)
    | _ => .next s

end Sys2Proof.Machine
end

