-- ==== Sys2Proof/Machine/Home.lean ====
section
/-! DEFINITION. Events at a home: guest reads, writes, atomics, watches and the directory; at an agent for host memory, and at another wafer's home
for its lines (09 R186, R199, 14 R274, R275, 21 R367, R368, R377). -/

namespace Sys2Proof.Machine

/-- The translation a message to a home carries, and the address it names. -/
def Body.homeAddr : Body → Option (Nat × Xlat)
  | .fillReq _ sec x => some (32 * sec, x)
  | .homeWrite _ i x => some (128 * i.line, x)
  | .homeAtomic _ _ _ _ lanes x => some (128 * lineOf lanes, x)
  | .homeWatch _ _ _ va _ x => some (va, x)
  | .contrib _ line _ _ x => some (128 * line, x)
  | _ => none

/-- Receives a request at its home: one that cannot be reached waits for its refusal (18 R335), and one that leads where no memory is stops
the machine. -/
def State.atHome (s : State) (key : Nat) (k : Msg → Nat → Xlat → Out) : Out :=
  match s.receive? key with
  | none => .next s
  | some m =>
    match m.body.homeAddr with
    | none => .next s
    | some (va, x) =>
      if !s.exists? (x.at va) then .fault (.noSuchMemory (x.at va))
      else if !s.reaches m.src (x.at va) then .next s
      else k m va x

/-! ## The directory (14 R274, R275) -/

/-- Entries a home directory holds, and those that may be pinned by watchers. -/
def directoryEntries : Nat := 2 ^ 20
/-- Pinned watcher entries of a domain. -/
def pinnedEntries : Nat := 4096

/-- Evicts an entry without watchers: every guest of its mask is invalidated. -/
def State.evictEntry (s : State) (h key : Nat) : State :=
  match (s.domain h).dir.find? key with
  | none => s
  | some e =>
    if !e.watchers.isEmpty then s
    else
      let s := ((List.range 64).filter fun d => e.sharers.getLsbD d).foldl (fun s d => s.send ⟨h, d, 0, false, .inval e.va e.grain .nobody⟩) s
      s.onDomain h fun q => { q with dir := q.dir.del key }

/-- Makes room in a full directory for a new grain: an entry without watchers goes. -/
def State.roomEntry (s : State) (h key : Nat) : State :=
  let dir := (s.domain h).dir
  if (dir.find? key).isSome || dir.length < directoryEntries then s
  else match List.find? (fun e => e.2.watchers.isEmpty) dir with
    | some e => s.evictEntry h e.1
    | none => s

/-- Changes the entry of the grain of an address, made when there is none. -/
def State.onEntry (s : State) (h va : Nat) (x : Xlat) (f : DirEntry → DirEntry) : State :=
  let g := va / x.grain * x.grain
  let s := s.roomEntry h (x.at g)
  s.onDomain h fun q => { q with dir := q.dir.put (x.at g) (f ((q.dir.find? (x.at g)).getD ⟨g, x.grain, 0, []⟩)) }

/-- DIRECTORY_ENTRY_EVICT (14 R274, R275). -/
def execDirectoryEntryEvict (dom grain : Nat) (s : State) : Out := .next (s.evictEntry dom grain)

/-! ## Guest reads -/

/-- A host line of which a domain reads a sector: its mask gains the domain unless the page is home-only. -/
def HostLine.read (l : HostLine) (dom : Nat) (x : Xlat) (va : Nat) : HostLine :=
  { l with mask := if x.mode = 2 then l.mask else l.mask ||| (1 : BitVec 64) <<< dom
           va := va / 64 * 64 }

/-- HOME_GUEST_READ: a sector goes to a guest, or to its own slice when the host had it first; `data` is the sector as another wafer's home
answers it. The guest is recorded for a tracked page (14 R275) and at an agent (21 R367). -/
def execHomeGuestRead (msg data : Nat) (s : State) : Out :=
  s.atHome msg fun m va x =>
    match m.body, s.place x.pa with
    | .fillReq dom sec _, .home h =>
      let pa := x.at va
      if !s.hostClear h (hdmLines pa 32) false then .next (s.askHost h (hdmLines pa 32) false)
      else
        let bytes := s.homeSector h sec pa
        let s := (s.take msg).onSector h sec fun q => q.holdClean pa x bytes
        let s := if x.mode = 0 ∧ dom ≠ h then s.onEntry h va x fun e => { e with sharers := e.sharers ||| (1 : BitVec 64) <<< dom } else s
        .next (s.send ⟨h, dom, m.core, false, .fill dom sec msg bytes none (x.mode != 2)⟩)
    | .fillReq dom sec _, .host =>
      let line := hostLineOf (x.at va)
      match s.hostLines.find? line with
      | none => .next (s.hostAsk line 0 0)
      | some l =>
        let s := { (s.take msg) with hostLines := s.hostLines.put line (l.read dom x va) }
        let half := fun (sec : Nat) => l.data.extractLsb' (256 * (sec % 2)) 256
        .next (s.send ⟨64, dom, m.core, false, .fill dom sec msg (half sec) (some (half (mateOf sec))) (x.mode != 2)⟩)
    | .fillReq dom sec _, .far _ =>
      .next ((s.take msg).send ⟨64, dom, m.core, false, .fill dom sec msg (BitVec.ofNat 256 data) none (x.mode != 2)⟩)
    | _, _ => .next s

/-! ## Writes -/

/-- Answers a write or an atomic without a returned value. -/
def State.confirmTo (s : State) (home : Nat) (m : Msg) (sid line : Nat) : State :=
  if sid = 0 then s else s.send ⟨home, m.src, m.core, false, .confirm sid line⟩

/-- HOME_WRITE: applied, published and confirmed (14 R275); at an agent that owns the line and has no domain copy left (21 R367); accepted at
another wafer's home (14 R279). -/
def execHomeWrite (msg : Nat) (s : State) : Out :=
  s.atHome msg fun m va x =>
    match m.body, s.place x.pa with
    | .homeWrite sid i _, .home h =>
      let lines := hdmHalves (x.at va) i.mask
      if !s.hostClear h lines true then .next (s.askHost h lines true)
      else .next (((s.take msg).serialise h (if sid = 0 then none else some sid) x i).confirmTo h m sid i.line)
    | .homeWrite sid i _, .host =>
      match s.hostOwn (hostHalves (x.at va) i.mask) with
      | (s, false) => .next s
      | (s, true) => .next (((s.take msg).hostWrite (x.at va) i).confirmTo 64 m sid i.line)
    | .homeWrite sid i _, .far _ => .next ((s.take msg).confirmTo 64 m sid i.line)
    | _, _ => .next s

/-! ## Atomics (09 R185, R186) -/

/-- What performing an atomic's lanes gives: the state, and each lane's old value. -/
structure AtomRun where
  s : State
  olds : List (Nat × Nat)

/-- One lane of an atomic at a home. -/
def AtomRun.atHome (a : AtomRun) (h : Nat) (x : Xlat) (op : AtomKind) (wide : Bool) (l : AtomLane) : AtomRun :=
  let n := atomBytes wide
  let old := a.s.homeRead h x l.va n
  let s := match atomNew op wide (BitVec.ofNat 64 old) l.x l.y with
    | some v =>
      let sec := l.va / 32
      a.s.writeSector h sec x (BitVec.ofNat 256 (lowBits v.toNat (8 * n) <<< (8 * (l.va % 32))))
        (BitVec.ofNat 32 (byteMask (l.va % 32) n))
    | none => a.s
  ⟨s, a.olds ++ [(l.lane, old)]⟩

/-- One lane of an atomic at an agent. -/
def AtomRun.atAgent (a : AtomRun) (x : Xlat) (op : AtomKind) (wide : Bool) (l : AtomLane) : AtomRun :=
  let n := atomBytes wide
  let pa := x.at l.va
  let old := a.s.hostRead pa n
  let s := match atomNew op wide (BitVec.ofNat 64 old) l.x l.y with
    | some v =>
      a.s.hostPut (hostLineOf pa) (BitVec.ofNat 512 (lowBits v.toNat (8 * n) <<< (8 * (pa % 64)))) (BitVec.ofNat 64 (byteMask (pa % 64) n))
    | none => a.s
  ⟨s, a.olds ++ [(l.lane, old)]⟩

/-- Did an operation write: does some lane's old value give a new one? -/
def atomWrote (op : AtomKind) (wide : Bool) (lanes : List AtomLane) (olds : List (Nat × Nat)) : List Nat :=
  ((lanes.zip olds).filter fun p => (atomNew op wide (BitVec.ofNat 64 p.2.2) p.1.x p.1.y).isSome).map (·.1.va)

/-- Answers an atomic: its old values go to the load that waits, in the order of the home's messages (14 R272); without one the line is confirmed. -/
def State.answerAtomic (s : State) (home : Nat) (m : Msg) (sid line : Nat) (rd : Option (Nat × Nat)) (olds : List (Nat × Nat)) : State :=
  match rd with
  | none => s.confirmTo home m sid line
  | some (reel, load) => s.send ⟨home, m.src, m.core, false, .atomAns sid reel load line olds⟩

/-- The bytes of their line that lanes of `n` bytes touch. -/
def lanesMask (n : Nat) (lanes : List AtomLane) : BitVec 128 :=
  lanes.foldl (fun m l => m ||| BitVec.ofNat 128 (byteMask (l.va % 128) n)) 0

/-- HOME_ATOMIC: every lane in ascending order (09 R185), at the home, at an agent that owns the lines (21 R367), or at another wafer's home,
whose old values `data` gives, 64 bits for each lane in order. -/
def execHomeAtomic (msg data : Nat) (s : State) : Out :=
  s.atHome msg fun m va x =>
    match m.body, s.place x.pa with
    | .homeAtomic sid rd op wide lanes _, .home h =>
      let w := op != .ld
      let lines' := hdmHalves (x.at va) (lanesMask (atomBytes wide) lanes)
      if !s.hostClear h lines' w then .next (s.askHost h lines' w)
      else
        let a := lanes.foldl (fun a l => a.atHome h x op wide l) (⟨s.take msg, []⟩ : AtomRun)
        let grains := ((atomWrote op wide lanes a.olds).map fun v => v / x.grain * x.grain).foldl insertNew []
        let s := grains.foldl (fun s g => s.publish h (some sid) x g) a.s
        .next (s.answerAtomic h m sid (va / 128) rd a.olds)
    | .homeAtomic sid rd op wide lanes _, .host =>
      match s.hostOwn ((lanes.map fun l => hostLineOf (x.at l.va)).foldl insertNew []) with
      | (s, false) => .next s
      | (s, true) =>
        let a := lanes.foldl (fun a l => a.atAgent x op wide l) (⟨s.take msg, []⟩ : AtomRun)
        .next (a.s.answerAtomic 64 m sid (va / 128) rd a.olds)
    | .homeAtomic sid rd _ _ lanes _, .far _ =>
      let olds := (lanes.zipIdx).map fun p => (p.1.lane, lowBits (data >>> (64 * p.2)) 64)
      .next ((s.take msg).answerAtomic 64 m sid (va / 128) rd olds)
    | _, _ => .next s

/-! ## Watches (09 R199, 14 R274, 21 R368) -/

/-- The code of a grain in a status. -/
def grainCode (grain : Nat) : Nat := if grain = 32 then 0 else if grain = 128 then 1 else 2

/-- A watcher list with a watcher put in the place of its reel's and slot's earlier one. -/
def addWatcher (ws : List Watcher) (w : Watcher) : List Watcher := (ws.filter fun o => !(o.reel == w.reel && o.slot == w.slot)) ++ [w]

/-- Would a new watcher of a grain pin one entry too many? -/
def Domain.pinFull (q : Domain) (key : Nat) : Bool :=
  (match q.dir.find? key with | some e => e.watchers.isEmpty | none => true)
    && pinnedEntries ≤ (q.dir.filter fun e => !e.2.watchers.isEmpty).length

/-- HOME_WATCH_REGISTRATION: the watcher is recorded, or refused; `status` is another wafer's answer. -/
def execHomeWatchRegistration (msg status : Nat) (s : State) : Out :=
  s.atHome msg fun m _ x =>
    match m.body with
    | .homeWatch reel slot reg va true _ =>
      let answer := fun (s : State) (home st grain : Nat) => Host.Outcome.next (s.send ⟨home, m.src, m.core, false, .watchAns reel slot reg st grain⟩)
      let g := va / x.grain * x.grain
      match s.place x.pa with
      | .home h =>
        if x.mode = 2 then answer (s.take msg) h 2 x.grain
        else if (s.domain h).pinFull (x.at g) then answer (s.take msg) h 1 x.grain
        else answer ((s.take msg).onEntry h va x fun e => { e with watchers := addWatcher e.watchers ⟨reel, slot, reg⟩ }) h 0 x.grain
      | .host =>
        if x.mode = 2 then answer (s.take msg) 64 2 128
        else
          let key := hostLineOf (x.at va) / 2
          answer { (s.take msg) with hostDir := s.hostDir.put key (addWatcher (s.hostDir.findD [] key) ⟨reel, slot, reg⟩) } 64 0 128
      | .far _ => answer (s.take msg) 64 (status % 4) x.grain
    | _ => .next s

/-- HOME_WATCH_DEREGISTRATION: the watcher goes, and an entry that is empty with it. -/
def execHomeWatchDeregistration (msg : Nat) (s : State) : Out :=
  s.atHome msg fun m _ x =>
    match m.body with
    | .homeWatch reel slot reg va false _ =>
      let s := s.take msg
      let drop := fun (ws : List Watcher) => ws.filter fun w => !(w.reel == reel && w.slot == slot && w.reg == reg)
      let g := va / x.grain * x.grain
      match s.place x.pa with
      | .home h =>
        match (s.domain h).dir.find? (x.at g) with
        | none => .next s
        | some e =>
          let e := { e with watchers := drop e.watchers }
          .next (s.onDomain h fun q =>
            { q with dir := if e.watchers.isEmpty && e.sharers == 0 then q.dir.del (x.at g) else q.dir.put (x.at g) e })
      | .host =>
        let key := hostLineOf (x.at va) / 2
        .next { s with hostDir := s.hostDir.putD [] key (drop (s.hostDir.findD [] key)) }
      | .far _ => .next s
    | _ => .next s

/-! ## Requests of other wafers (21 R377) -/

/-- The address of another wafer's request, and the translation that brought it here. -/
def FarOp.addr : FarOp → Nat × Xlat
  | .read va x => (va, x)
  | .write i x => (128 * i.line, x)
  | .atomic _ _ lanes x => (128 * lineOf lanes, x)
  | .watch _ va _ x => (va, x)

/-- The host's lines that another wafer's request touches at a home, and whether it may write them. -/
def FarOp.hostLines (op : FarOp) : List Nat × Bool :=
  let (va, x) := op.addr
  match op with
  | .read .. => (hdmLines (x.at va) 32, false)
  | .write i _ => (hdmHalves (x.at va) i.mask, true)
  | .atomic k wide lanes _ => (hdmHalves (x.at va) (lanesMask (atomBytes wide) lanes), k != .ld)
  | .watch .. => ([], false)

/-- The answer to another wafer's request. -/
def State.farAnswer (s : State) (x : Nat) : State := { s with answer := some (.far (some x)) }

/-- Performs another wafer's request at a home: a read that no entry records, a write or an atomic that is serialised as any, a watch. Its answer goes
out: the sector, 0 once the write is accepted, the lanes' old values in order, or the status of the watch. -/
def State.farServe (s : State) (h : Nat) : FarOp → State
  | .read va x => s.farAnswer (s.homeSector h (va / 32) (x.at (va / 32 * 32))).toNat
  | .write i x => (s.serialise h none x i).farAnswer 0
  | .atomic op wide lanes x =>
    let a := lanes.foldl (fun a l => a.atHome h x op wide l) (⟨s, []⟩ : AtomRun)
    let grains := ((atomWrote op wide lanes a.olds).map fun v => v / x.grain * x.grain).foldl insertNew []
    (grains.foldl (fun s g => s.publish h none x g) a.s).farAnswer ((a.olds.map (·.2)).foldr (fun v n => lowBits v 64 + 2 ^ 64 * n) 0)
  | .watch id va true x =>
    let key := x.at (va / x.grain * x.grain)
    if x.mode = 2 then s.farAnswer 2
    else if (s.domain h).pinFull key then s.farAnswer 1
    else (s.onEntry h va x fun e => { e with watchers := addWatcher e.watchers ⟨farWatcher id, 0, id⟩ }).farAnswer 0
  | .watch id va false x =>
    let drop := fun (e : DirEntry) => { e with watchers := e.watchers.filter fun w => w.reel != farWatcher id }
    let key := x.at (va / x.grain * x.grain)
    match (s.domain h).dir.find? key with
    | none => s.farAnswer 0
    | some e =>
      let e := drop e
      (s.onDomain h fun q =>
        { q with dir := if e.watchers.isEmpty && e.sharers == 0 then q.dir.del key else q.dir.put key e }).farAnswer 0

/-- A request of another wafer arrives at its home (21 R377): refused where no memory is reached, waiting while the host holds the line, and served
otherwise. It comes in at the router of the home's domain (21 R376). -/
def State.farAccess (s : State) (op : FarOp) : State :=
  let (va, x) := op.addr
  match s.place x.pa with
  | .home h =>
    let (lines, write) := op.hostLines
    if !s.exists? (x.at va) || s.refuses h (x.at va) then { s with answer := some (.far none) }
    else if (s.domain h).regFailed then s
    else if !s.hostClear h lines write then s.askHost h lines write
    else s.farServe h op
  | _ => { s with answer := some (.far none) }

end Sys2Proof.Machine
end

