-- ==== Sys2Proof/Machine/Watching.lean ====
section
/-! DEFINITION. Events of watches and of the waits that use them: answers, reports, timeouts, polls (09 R199 to R202, 10 R220). -/

namespace Sys2Proof.Machine

/-- Is the split parked in `park`? -/
def Split.inPark (p : Split) : Bool := match p.wait with | some (.park ..) => true | _ => false

/-- Is some split of the reel parked in `park`? -/
def Reel.anyPark (r : Reel) : Bool := r.splits.any fun p => p.2.inPark

/-- The status word of a registration's answer (09 R199). -/
def watchStatus (status grain : Nat) : Nat := status + (if status = 0 then 16 * grainCode grain else 0)

/-- A slot becomes armed at a home, on the grain of its address, or unarmed when the home refused it, if it is still the registration's (08 R172, 09
R199). -/
def Reel.answered (r : Reel) (slot reg home status grain : Nat) : Reel :=
  let w := r.watchSlot slot
  let word := BitVec.ofNat 32 (watchStatus status grain)
  if w.reg = reg ∧ w.state = .sent then
    if status = 0 then r.setWatch slot { w with state := .armed, va := w.va / grain * grain, grain := grain, home := home, status := word }
    else r.unregistered slot reg word
  else r

/-- Reads the word of a `waitm` at its home once its slot's registration is answered, as `atomg.ld` does (10 R220). -/
def State.loadStage (s : State) (reel : Nat) (o : OutLoad) (split : Nat) : State :=
  match s.reels.find? reel, o.pieces.head? with
  | some r, some p =>
    match s.blocks.find? r.block with
    | none => s
    | some b =>
      let sid := s.nextId
      let core := coreOfKey reel
      let d := domainOfCore core
      let line := p.va / 128
      let lanes : List AtomLane := [⟨0, p.va, 0, 0⟩]
      let st : OutStore := ⟨core, core, slotOfKey reel, some reel, b.launch, r.block, b.linear, b.ctx, o.pc, o.inst, o.lanes, r.seq, r.retired
        , false, false, [(line, .sent)], 0, false, false, none⟩
      let load : OutLoad := ⟨sid + 1, o.pc, o.inst, o.lanes, .waitm split, [⟨0, p.va, none, false⟩], some (.ld, false, lanes), [], 0, 0⟩
      let r := (r.endLoad o).onWaitM split fun w => { w with phase := .loading (sid + 1) }
      let s := { s with nextId := sid + 2, stores := s.stores.put sid st, reels := s.reels.put reel { r with loads := r.loads ++ [load] } }
      let s := (s.dropL1Line core line).noInstall core fun sec => sec / 4 = line
      s.send ⟨d, d, core, false, .atomic sid (some (reel, sid + 1)) .ld false lanes⟩
  | _, _ => s

/-- What the answer of a registration gives the load that waits for it: the status of `watch`, or the next step of `waitm`. -/
def State.answerWatch (s : State) (reel reg status grain : Nat) : State :=
  match s.load? reel reg with
  | none => s
  | some o =>
    match o.dst with
    | .waitm split => s.loadStage reel o split
    | _ =>
      let word := BitVec.ofNat 128 (watchStatus status grain)
      (s.onLoad reel reg fun o => { o with pieces := o.pieces.map fun p => { p with data := some word } }).returnLoad reel reg

/-- WATCH_STATUS_ANSWER (09 R199, R200). -/
def execWatchStatusAnswer (msg : Nat) (s : State) : Out :=
  match s.receive? msg with
  | none => .next s
  | some m =>
    match m.body with
    | .watchAns reel slot reg status grain =>
      .next (((s.take msg).onReel reel fun r => r.answered slot reg m.src status grain).answerWatch reel reg status grain)
    | _ => .next s

/-- A `waitm` that has armed a slot once something is reported of the slot (10 R220). -/
def Wait.tell (slot : Nat) : Wait → Wait
  | .waitm w => .waitm (if w.slot = slot then { w with told := true } else w)
  | w => w

/-- A reel as a write to the grain of an armed slot is reported, or the slot is lost in a scrub (09 R200, R201, 10 R220, 18 R336). -/
def Reel.report (r : Reel) (slot : Nat) (lost : Bool) : Reel :=
  let w := r.watchSlot slot
  let parked := r.anyPark
  let r := r.mapWaits (Wait.tell slot)
  if lost then
    let r := r.setWatch slot { WatchSlot.unarmed with lost := !parked, status := w.status }
    (r.wake (statusBit (5 + slot))).parkNone
  else if parked then r.wake (statusBit slot)
  else r.setWatch slot { w with latch := true }

/-- Is a report or a loss that names a registration that of the slot? -/
def Reel.watches? (r : Reel) (slot reg : Nat) : Bool := let w := r.watchSlot slot; w.reg == reg && w.state != .unarmed

/-- WATCH_REPORT (09 R201): a report reaches the reel; `msg` 0 stands for one that comes from outside, where the slot's registration stands. -/
def execWatchReport (msg reel slot : Nat) (s : State) : Out :=
  if msg = 0 then
    .next (s.onReel reel fun r =>
      if slot < 2 ∧ (r.watchSlot slot).state = .armed ∧ (r.watchSlot slot).home = 64 then r.report slot false else r)
  else
    match s.receive? msg with
    | none => .next s
    | some m =>
      match m.body with
      | .report reel slot reg lost => .next ((s.take msg).onReel reel fun r => if r.watches? slot reg then r.report slot lost else r)
      | _ => .next s

/-- PARK_TIMEOUT (09 R200). Only the split whose timeout has run out returns: whether its timeout ends the parks of the reel's other splits too, 04
R87 and 09 R200 do not say (DESIGN CHOICE; log entry 96). -/
def execParkTimeout (reel split : Nat) (s : State) : Out :=
  match (s.reels.find? reel).bind fun r => r.splits.find? split with
  | none => .next s
  | some p =>
    match p.wait with
    | some (.park timeout since cause) =>
      if timeout = 0 ∨ s.clock (coreOfKey reel) < since + timeout then .next s
      else .next (s.onReel reel fun r => r.setSplit split { p with wait := some (.park timeout since (some (cause.getD 0 ||| statusBit 3))) })
    | _ => .next s

/-- WAITM_POLL (10 R220): a `waitm` whose slot is not armed reads its word again after 1,024 cycles. -/
def execWaitmPoll (reel split : Nat) (s : State) : Out :=
  match s.issuerOf reel split with
  | none => .next s
  | some x =>
    match x.split.wait with
    | some (.waitm r) =>
      match r.phase with
      | .polling since =>
        if x.reel.held || !s.runs x.reel.block x.block || s.clock x.coreId < since + 1024 then .next s else x.rearm r
      | _ => .next s
    | _ => .next s

end Sys2Proof.Machine
end

