-- ==== Sys2Proof/Machine/Preempt.lean ====
section
/-! DEFINITION. Pre-emption: requests, the hard stop, the save, the kill timer, time slices and restore (09 R203, 10 R221, 19 R354 to R359). -/

namespace Sys2Proof.Machine

/-! ## Requests and the hard stop (19 R354, R355) -/

/-- The keys of the resident blocks of a context in a partition. -/
def State.contextBlocks (s : State) (part ctx : Nat) : List Nat :=
  (s.blocks.filter fun b => b.2.part == part && b.2.ctx == ctx).map (·.1)

/-- Requests the pre-emption of a context: requests of the dispatcher for its blocks become part of it. -/
def State.requestContext (s : State) (part ctx : Nat) (by_ : PreBy) (area : Nat × Nat) : State :=
  let keys := s.contextBlocks part ctx
  let s := { s with preempts := s.preempts.keep fun _ (p : PreReq) => !(p.asker == PreBy.dispatcher && p.part == part && p.ctx == ctx) }
  s.request ⟨keys, ctx, part, by_, s.time, .soft, area⟩

/-- CONTEXT_SWITCH_REQUEST (19 R354 to R356): system software names the context's save area; one that is too small refuses the request. A save area
can also be given without a request, by a write of the register (log entry 40). -/
def execContextSwitchRequest (part ctx base size : Nat) (s : State) : Out :=
  if s.switchedOut part ctx then .next { s with answer := some (.preempt part ctx 1) }
  else if !s.areaFits (s.contextBlocks part ctx) (base, size) then .next { s with answer := some (.preempt part ctx 1) }
  else
    let s := s.setPart part { s.partn part with save := (s.partn part).save.put ctx (base, size) }
    .next (s.requestContext part ctx .system (base, size))

/-- A claim's count of cycles as its sequencer stops. -/
def SeqWait.freeze (t : Nat) : SeqWait → SeqWait
  | .claim kind first cnt since spent => .claim kind first cnt t (spent + (t - since))
  | w => w

/-- A sequencer's wait as it goes on after a restore: a claim's count of cycles continues, and what was found of permissions is gone. -/
def SeqWait.thaw (t : Nat) : SeqWait → Option SeqWait
  | .claim kind first cnt _ spent => some (.claim kind first cnt t spent)
  | .perm .. => none
  | w => some w

/-- Stops a reel at its bundle boundary. -/
def Reel.stop (t : Nat) (r : Reel) : Reel :=
  let r := if r.held then r else r.mapWaits (Wait.freeze t)
  { r with stopped := !(r.exited || r.killed) }

/-- GRACE_TIMER_EXPIRY (19 R355): every party of the request stops at its unit: a reel and a sequencer between
instructions, an engine between the units of a command (11 R255). -/
def execGraceTimerExpiry (req : Nat) (s : State) : Out :=
  match s.preempts.find? req with
  | none => .next s
  | some p =>
    if p.step != .soft || s.time < p.since + (s.partn p.part).grace * micro then .next s
    else
      let s := { s with
        preempts := s.preempts.put req { p with step := .stopped }
        reels := s.reels.mapVals fun k r => if p.blocks.contains r.block then r.stop (s.clock (coreOfKey k)) else r
        blocks := s.blocks.mapVals fun k b => if p.blocks.contains k then
            { b with seq := { b.seq with wait := b.seq.wait.map (SeqWait.freeze (s.clock b.core)) } } else b }
      .next s

/-! ## The save (19 R356) -/

/-- Is a load's record of a line open? -/
def State.lineOpen (s : State) (o : OutLoad) (line : Nat) : Bool :=
  o.recs.any fun id => match s.faults.find? id with | some f => f.state != .resolved && f.line == 128 * line | none => false

/-- Has all come that a block has asked for: each piece of its loads has returned or has a record, moves have been made, and its engines' writes are
confirmed or have faulted? -/
def State.quiet (s : State) (key : Nat) : Bool :=
  (s.reels.all fun r => r.2.block != key
      || ((r.2.loads.all fun o => o.pieces.all fun p => p.data.isSome || p.lost || s.lineOpen o (p.va / 128)) && r.2.moves.isEmpty))
    && (s.stores.all fun o => !(o.2.eng && o.2.block == key) || o.2.attrDone)

/-- Does a load serve the `waitm` of a split? -/
def OutLoad.ofWaitM (o : OutLoad) (split : Nat) : Bool := match o.dst with | .waitm i => i == split | _ => false

/-- The wait of a split as it stands in the saved state: `park` will return with bit 4; `waitm` starts again at arming, unless a load of it has
faulted or has been dropped; and what was found of permissions is gone (09 R203, 10 R221). -/
def Wait.saved (loads : List OutLoad) (split : Nat) : Wait → Option Wait
  | .perm .. => none
  | .park t since st => some (.park t since (some (st.getD 0 ||| statusBit 4)))
  | .waitm r =>
    let held := (match r.phase with | .dropped => true | _ => false) || loads.any fun o => o.ofWaitM split && !o.recs.isEmpty
    some (.waitm (if held then r else { r with phase := .restart }))
  | w => some w

/-- Ends the loads of `waitm` that have no record: the wait reads its word again after the restore. -/
def Reel.endWaitMs (r : Reel) : Reel :=
  (r.loads.filter fun o => (match o.dst with | .waitm _ => true | _ => false) && o.recs.isEmpty).foldl (fun r o => r.endLoad o) r

/-- The slots that a reel's `waitm`s use: they are not registered again. -/
def Reel.waitmSlots (r : Reel) : List Nat :=
  r.splits.filterMap fun p => match p.2.wait with | some (.waitm m) => some m.slot | _ => none

/-- A reel as it is saved: times of its old core are gone, armed slots stay as slots to be registered again. -/
def Reel.saved (r : Reel) : Reel :=
  let splits := r.splits.mapVals fun i p =>
    let w := p.wait.bind (Wait.saved r.loads i)
    { p with wait := if p.wait.isSome && p.bundle.isSome && w.isNone then some .issue else w }
  let keep := fun (i : Nat) (w : WatchSlot) => if r.waitmSlots.contains i || r.loads.any (fun o => o.id == w.reg) then WatchSlot.unarmed else w
  { r.endWaitMs with splits := splits, watches := r.watches.mapD WatchSlot.unarmed keep, restUntil := 0, yielded := none, cycloLatch := none }

/-- Frees at their homes what a reel's armed slots hold. -/
def State.deregister (s : State) (key : Nat) (r : Reel) : State :=
  let d := domainOfCore (coreOfKey key)
  r.watches.foldl (fun s w =>
    if w.2.state = .unarmed then s else s.send ⟨d, d, coreOfKey key, false, .watch key w.1 w.2.reg w.2.va false⟩) s

/-- Follows a renaming of keys. -/
def renamed (names : List (Nat × Nat)) (k : Nat) : Nat := ((names.find? fun e => e.1 == k).map (·.2)).getD k

/-- Renames the reels and the block that stores, records and other blocks' gangs name. -/
def State.rename (s : State) (reels : List (Nat × Nat)) (old new : Nat) : State :=
  let blk := fun (k : Nat) => if k = old then new else k
  let gang := fun (b : Block) => { b with gang := b.gang.map blk }
  { s with
    stores := s.stores.mapVals fun _ o => { o with reel := o.reel.map (renamed reels), block := blk o.block }
    faults := s.faults.mapVals fun _ f => { f with reelKey := f.reelKey.map (renamed reels), blockKey := blk f.blockKey }
    blocks := s.blocks.mapVals fun _ b => gang b
    saved := s.saved.map fun v => { v with block := gang v.block } }

/-- A command with its reel and block renamed. -/
def EngCmd.rename (reels : List (Nat × Nat)) (block : Nat) (c : EngCmd) : EngCmd := { c with reel := renamed reels c.reel, block := block }

/-- A store whose reel is saved keeps the reel's retired count (08 R166). -/
def OutStore.freeze (reels : Map Reel) (keys : List Nat) (o : OutStore) : OutStore :=
  match o.reel with
  | some k => if keys.contains k then { o with last := (reels.find? k).map (·.retired) } else o
  | none => o

/-- The physical address of `size` bytes at an offset of a save area, where they lie in this wafer's DRAM. -/
def State.imageAt (s : State) (area : Nat × Nat) (offset size : Nat) : Option Nat :=
  let pa := area.1 + offset
  match s.place pa with
  | .home _ => if s.exists? (pa + size - 1) then some pa else none
  | _ => none

/-- Saves one block: its image is written at its place in a save area, if that lies in this wafer's DRAM, and stands among the saved; the block
leaves its core, whose lookaside loses its entries with the switch (08 R163; log entry 9). -/
def State.saveBlock (s : State) (area : Nat × Nat) (at_ : ImagePlace) : State :=
  let key := at_.key
  match s.blocks.find? key with
  | none => s
  | some b =>
    let image := s.imageAt area at_.offset at_.size
    let base := savedKey s.nextId
    let mine := s.reels.filter fun r => r.2.block == key
    let names : List (Nat × Nat) := mine.map fun r => (r.1, base + r.2.idx)
    let c := s.core b.core
    let byIdx := mine.foldl (fun (m : Map Reel) r => m.put r.2.idx r.2.saved) []
    let om := c.om.keep fun _ o => o.owner == key
    let ac := c.ac.keep fun _ t => t.owner == key
    let s := match image with | some a => s.writeImage a (b.image byIdx om ac) | none => s
    let s := mine.foldl (fun s r => s.deregister r.1 r.2) { s with nextId := s.nextId + 1 }
    let s := { s with stores := s.stores.mapVals fun _ (o : OutStore) => o.freeze s.reels (names.map Prod.fst) }
    let v : Saved :=
      { key := base
        block := b
        reels := byIdx
        image := image
        om := om
        ac := ac
        cmds := (c.cmds.filter fun e => e.block == key).map (EngCmd.rename names base)
        ctx := b.ctx
        gen := s.wafer.gen
        savedAt := s.time
        area := area
        entry := at_.entry
        offset := at_.offset
        size := at_.size }
    let s := (s.unsettle key b).onCore b.core fun q => { q with look := [], ctx := none }
    ({ s with saved := s.saved ++ [v] }).rename names key base

/-- Writes the directory entry of an image: 16 bytes (19 R356). -/
def State.directory (s : State) (area : Nat × Nat) (p : ImagePlace) : State :=
  match s.blocks.find? p.key, s.imageAt area (16 * p.entry) 16 with
  | some b, some pa => s.physWrite pa 16 (packed [(0, b.launch % 2 ^ 32), (32, b.linear % 2 ^ 32), (64, p.offset)])
  | _, _ => s

/-- Have the cores of blocks kept their state: none is without power (18 R331)? -/
def State.coresLive (s : State) (keys : List Nat) : Bool :=
  keys.all fun k => match s.blocks.find? k with | some b => (s.domain (domainOfCore b.core)).powered | none => true

/-- PREEMPT_SAVE (19 R355, R356): with every party stopped, the request's blocks are saved, if their area holds them, and their cores are free. -/
def execPreemptSave (req : Nat) (s : State) : Out :=
  match s.preempts.find? req with
  | none => .next s
  | some p =>
    let keys := p.blocks.filter fun k => (s.blocks.find? k).isSome
    match s.placesIn p.area keys with
    | none => .next s
    | some places =>
      if p.step != .stopped || !(keys.all s.quiet) || !s.coresLive keys then .next s
      else
      let s := places.foldl (fun s o => s.directory p.area o) s
      let s := places.foldl (fun s o => s.saveBlock p.area o) s
      let s := { s with answer := some (.preempt p.part p.ctx 0) }
      match p.asker with
      | .dispatcher => .next { s with preempts := s.preempts.del req }
      | _ => .next { s with preempts := s.preempts.put req { p with step := .saved, blocks := [] } }

/-- A core as a kill resets it: what its caches and its throttle hold is gone (19 R355). -/
def Core.wiped (c : Core) (now : Nat) : Core :=
  { c with l1 := [], icache := [], look := [], ctx := none, victims := [], cap := 32, hits := 0, misses := 0, slotHits := [], scores := []
           allowed := List.range 32, extra := [], denied := [], windowStart := now, vecSlot := ⟨[], []⟩, memSlot := ⟨[], []⟩, carry := [] }

/-- The abandon messages of a posted collective: one to each other member (21 R382). -/
def Coll.abandons (own : Nat) (c : Coll) : List (Nat × Nat × Nat) :=
  (c.members.filter (· != own)).map fun w => (w, c.desc.group, c.desc.seq)

/-- Ends the collectives of killed contexts: the peers hear of it, and what their rings still hold is not performed (21 R382). -/
def State.endColls (s : State) (hit : Nat → Nat → Bool) : State :=
  { s with
    colls := s.colls.filter fun c => !hit c.part c.ctx
    abandons := s.abandons ++ (s.colls.filter fun c => hit c.part c.ctx).flatMap (Coll.abandons s.mgmt.fabno.toNat)
    queues := s.queues.mapVals fun _ q => if q.collective && hit q.part q.ctx then { q with killed := true } else q }

/-- KILL_TIMER_EXPIRY (19 R355): the affected blocks are killed, with their launches (status 4, detail 1), and their cores are reset. -/
def execKillTimerExpiry (req : Nat) (s : State) : Out :=
  match s.preempts.find? req with
  | none => .next s
  | some p =>
    if p.step == .saved || s.time < p.since + (s.partn p.part).kill * micro then .next s
    else
      let hit := s.blocks.filter fun b => p.blocks.contains b.1
      let launches := (hit.map (·.2.launch)).foldl insertNew []
      let cores := (hit.map (·.2.core)).foldl insertNew []
      let s := launches.foldl (fun s l => s.killLaunch l (4, 1, 0)) s
      let s := cores.foldl (fun s c => s.onCore c fun q => q.wiped (s.clock c)) s
      let s := s.endColls fun part ctx => p.asker != .dispatcher && part == p.part && ctx == p.ctx
      .next { s with preempts := s.preempts.del req, answer := some (.preempt p.part p.ctx 2) }

/-! ## Time slices (19 R354, R358) -/

/-- The priority of a context in a partition: the highest of its launches. -/
def State.contextPrio (s : State) (part ctx : Nat) : Nat :=
  ((s.launches.filter fun l => l.2.part == part && l.2.ctx == ctx).map (·.2.prio)).max?.getD 0

/-- The contexts of a partition that wait for a core: put off by a slice, saved, or with work that has not started. -/
def State.waitingContexts (s : State) (part : Nat) : List Nat :=
  let out := (s.preempts.filter fun p => p.2.asker == .slice && p.2.step == .saved && p.2.part == part).map (·.2.ctx)
  let late := (s.launches.filter fun l => l.2.part == part && l.2.verdict.isNone && (l.2.state == .queued || l.2.nextGang.isSome)
    && !s.switchedOut part l.2.ctx).map (·.2.ctx)
  (out ++ late).foldl insertNew []

/-- TIME_SLICE_EXPIRY (19 R354, R358): a resident context makes way for one of equal priority that waits; one that an earlier slice put off may
come back. -/
def execTimeSliceExpiry (part : Nat) (s : State) : Out :=
  let p := s.partn part
  if s.time < p.sliceAt + max s.mgmt.saveBound p.slice * micro then .next s
  else
    let s := s.setPart part { p with sliceAt := s.time }
    let waiting := s.waitingContexts part
    let npf := fun (c : Nat) => s.launches.any fun l => l.2.part == part && l.2.ctx == c && l.2.npf
    let residents := ((s.blocks.filter fun b => b.2.part == part).map (·.2.ctx)).foldl insertNew []
    let pick := residents.find? fun c =>
      !waiting.contains c && !npf c && !s.switchedOut part c && (p.save.find? c).isSome
        && waiting.any fun w => s.contextPrio part w == s.contextPrio part c
    match pick with
    | none => .next s
    | some c =>
      let area := p.save.findD (0, 0) c
      if !s.areaFits (s.contextBlocks part c) area then .next s
      else
        let prio := s.contextPrio part c
        let back := fun (q : PreReq) => q.asker == .slice && q.step == .saved && q.part == part && s.contextPrio part q.ctx == prio
        .next (({ s with preempts := s.preempts.keep fun _ q => !back q }).requestContext part c .slice area)

/-! ## Restore (19 R357) -/

/-- May a saved block go to a core: are the slots and tiles that it claims free there? Its claims are by number (11 R222). -/
def State.mayReturn (s : State) (v : Saved) (c : Nat) : Bool :=
  let q := s.core c
  (v.om.all fun o => (q.om.find? o.1).isNone) && v.ac.all fun t => (q.ac.find? t.1).isNone

/-- Chooses a core for each of some saved blocks, all different, out of a list of cores. -/
def State.returnSpots (s : State) (cs : List Nat) : List Saved → Option (List (Saved × Nat × Room))
  | [] => some []
  | v :: rest =>
    match (cs.filterMap fun c => if s.mayReturn v c then (s.room c v.block.desc).map fun r => (c, r) else none).head? with
    | none => none
    | some (c, r) => (State.returnSpots s (cs.filter (· != c)) rest).map fun xs => (v, c, r) :: xs

/-- Places for the members of a saved gang: a core of the partition, or distinct cores of one cluster. -/
def State.gangReturn (s : State) (part : Nat) (vs : List Saved) : Option (List (Saved × Nat × Room)) :=
  if vs.length = 1 then s.returnSpots ((s.upDomains part).flatMap s.liveCores) vs
  else (((s.upDomains part).flatMap s.clusters).filterMap fun cs => s.returnSpots cs vs).head?

/-- Ids of the records that hold a reel by its key. -/
def State.holders (s : State) (key : Nat) : List Nat :=
  (s.faults.filter fun f => f.2.reelKey == some key && f.2.held && f.2.state != .resolved).map (·.1)

/-- Is a wait that of a scratchpad store, local or REMOTE, whose bank steps are still to come: it counts in st (04 R88)? -/
def Wait.stores : Wait → Bool
  | .fullEmpty a _ _ => !a.load
  | .remote a _ _ => a.cls == 1
  | _ => false

/-- A wait on a semaphore, tested against the values a block has come back with (09 R203). -/
def Wait.semRetest (b : Block) : Wait → Wait
  | .sem m th ready => Wait.semReady m (b.sems.findD Sem.zero m).value (.sem m th ready)
  | w => w

/-- A reel as it comes back on a core: st counts its attribution entries in use (08 R167) and its scratchpad stores that wait, waits on semaphores are
tested again, and records that came meanwhile hold it. -/
def State.returned (s : State) (b : Block) (old now : Nat) (r : Reel) : Reel :=
  let waiting := (r.splits.filter fun p => (p.2.wait.map Wait.stores).getD false).length
  let st := (s.stores.filter fun o => o.2.reel == some old && o.2.attr).length + waiting
  let r := { r.mapWaits (Wait.semRetest b) with heldBy := s.holders old, stopped := false, st := st }
  if r.held then r else r.mapWaits (Wait.thaw now)

/-- Registers a restored reel's armed slots again (09 R203). -/
def State.reregister (s : State) (key : Nat) : State :=
  match s.reels.find? key with
  | none => s
  | some r =>
    let d := domainOfCore (coreOfKey key)
    r.watches.foldl (fun s w =>
      if w.2.state = .unarmed then s
      else
        let reg := s.nextId
        let s := { s with nextId := reg + 1 }
        (s.onReel key fun r => r.setWatch w.1 { w.2 with state := .sent, reg := reg }).send
          ⟨d, d, coreOfKey key, false, .watch key w.1 reg w.2.va true⟩) s

/-- Sends again what the loads of a restored reel still need and no open record stands for: a fault of theirs was resolved with a retry while the
reel was saved (14 R291). -/
def State.reissueLoads (s : State) (key : Nat) : State :=
  match s.reels.find? key with
  | none => s
  | some r => r.loads.foldl (fun s o =>
      let lines := ((o.pieces.filter fun p => p.data.isNone && !p.lost && !s.lineOpen o (p.va / 128)).map fun p => p.va / 128).foldl insertNew []
      lines.foldl (fun s line => s.reissueLoad key o.id line) s) s

/-- Puts one saved block, as what is saved names it now, on a core, as its image holds it. -/
def State.restoreBlock (s : State) (saved : Saved) (c : Nat) (room : Room) : State :=
  let v := ((s.savedOf saved.key).getD saved).reload s
  let key := 32 * c + room.slots.headD 0
  let at_ := fun (i : Nat) => 32 * c + room.slots.getD i 0
  let names := v.reels.map fun r => (v.key + r.1, at_ r.1)
  let now := s.clock c
  let reels := v.reels.map fun r => s.returned v.block (v.key + r.1) now r.2
  let owner := fun (i : Nat) (e : StageEntry) =>
    match List.find? (fun (r : Nat × Reel) => r.2.iter == some i) v.reels with
    | some r => { e with owner := slotOfKey (at_ r.1) }
    | none => e
  let b := { v.block with
    stages := v.block.stages.mapVals owner
    seq := { v.block.seq with wait := v.block.seq.wait.bind (SeqWait.thaw now) } }
  let s := { s with
    saved := s.saved.filter fun o => o.key != v.key
    stores := s.stores.mapVals fun _ o => if o.block = v.key then
      { o with core := c, slot := (o.reel.map fun k => slotOfKey (renamed names k)).getD o.slot, last := none, counted := o.attr } else o }
  let s := (s.settle c room b reels).rename names v.key key
  let s := s.onCore c fun q =>
    { q with om := v.om.foldl (fun (m : Map OmSlot) o => m.put o.1 { o.2 with owner := key }) q.om
             ac := v.ac.foldl (fun (m : Map AcTile) t => m.put t.1 { t.2 with owner := key }) q.ac
             cmds := q.cmds ++ v.cmds.map (EngCmd.rename names key) }
  (names.map (·.2)).foldl State.reissueLoads ((names.map (·.2)).foldl State.reregister s)

/-- Restores some saved gangs, all or none. -/
def State.restoreAll (s : State) (part : Nat) : List (List Saved) → Option State
  | [] => some s
  | vs :: rest =>
    match s.gangReturn part vs with
    | none => none
    | some xs => State.restoreAll (xs.foldl (fun s x => s.restoreBlock x.1 x.2.1 x.2.2) s) part rest

/-- The saved blocks of a gang, in member order; a service block is a gang of its own. -/
def State.savedGang (s : State) (v : Saved) : List Saved :=
  if v.block.service.isSome then [v]
  else s.saved.filter fun o => o.block.service.isNone && o.block.launch == v.block.launch && o.block.gang == v.block.gang

/-- What must come back at once with a saved block: its gang, or, of a concurrent launch, every saved gang of it. -/
def State.savedUnit (s : State) (v : Saved) : List (List Saved) :=
  match s.launches.find? v.block.launch with
  | some l =>
    if l.pkt.cls = 0 ∧ v.block.service.isNone then
      let all := s.saved.filter fun o => o.block.launch == v.block.launch && o.block.service.isNone
      let first := all.filter fun o => ((all.find? fun q => q.block.gang == o.block.gang).map (·.key)) == some o.key
      first.map s.savedGang
    else [s.savedGang v]
  | none => [s.savedGang v]

/-- The records of a context that wait for delivery: the reels of its restored blocks go on after their fault-service blocks have started (19 R357).
-/
def State.awaitRecords (s : State) (part ctx : Nat) (old : List Nat) : State :=
  let ids := (s.faults.filter fun f => s.deliverable f.2 && s.ringPart f.2 == part && f.2.context == ctx).map (·.1)
  { s with blocks := s.blocks.mapVals fun k b => if b.part == part && b.ctx == ctx && !old.contains k then { b with resuming := ids } else b }

/-- RESTORE (19 R357): the context may run again, and the first of its saved units that fits comes back, fault-service blocks before others. -/
def execRestore (part ctx : Nat) (s : State) : Out :=
  if s.preempts.any fun p => p.2.part == part && p.2.ctx == ctx && p.2.asker != .dispatcher && p.2.step != .saved then .next s
  else if !s.dispatching then .next s
  else
    let s := { s with preempts := s.preempts.keep fun _ (p : PreReq) => !(p.part == part && p.ctx == ctx && p.step == PreStep.saved) }
    let mine := s.saved.filter fun (v : Saved) => v.ctx == ctx && v.block.part == part
    let units := (mine.filter fun v => v.block.service.isSome) ++ mine.filter fun v => v.block.service.isNone
    match units.findSome? fun v => s.restoreAll part (s.savedUnit v) with
    | some t => .next (t.awaitRecords part ctx (s.blocks.map (·.1)))
    | none => .next s

end Sys2Proof.Machine
end

