-- ==== Sys2Proof/Machine/Drain.lean ====
section
/-! DEFINITION. The drain of DRAM to a tier and its restore, the power-fail warning and thermal trips (21 R383, R384, 22 R385, R393). -/

namespace Sys2Proof.Machine

/-! ## Starting a drain -/

/-- A drain begins in a mode: its status and masks are cleared. -/
def State.startDrain (s : State) (mode : Nat) : State :=
  { s with mgmt := { s.mgmt with
      drainMode := mode, drainRunning := true, drainStatus := 0, absentMask := 0, skippedMask := 0, corruptMask := 0 } }

/-- The contexts with resident blocks, by partition and number. -/
def State.residents (s : State) : List (Nat × Nat) :=
  s.blocks.foldl (fun cs b => if cs.contains (b.2.part, b.2.ctx) then cs else cs ++ [(b.2.part, b.2.ctx)]) []

/-- DRAIN_QUIESCED (21 R383): every context is to be saved by the ladder of R355, whose first step refuses one that its save area cannot hold: the
drain waits for the blocks of that context to end. -/
def execDrainQuiesced (s : State) : Out :=
  if s.mgmt.drainRunning || !s.mgmt.ready then .next s
  else .next (s.residents.foldl (fun s c =>
    let area := (s.partn c.1).save.findD (0, 0) c.2
    if s.switchedOut c.1 c.2 || !s.areaFits (s.contextBlocks c.1 c.2) area then s
    else s.requestContext c.1 c.2 .system area) (s.startDrain 0))

/-- Starts a drain in mode 1, in the place of one in another mode; before ready no drain is started (22 R385). -/
def State.immediate (s : State) : State :=
  if !s.mgmt.ready || (s.mgmt.drainRunning && s.mgmt.drainMode == 1) then s else s.startDrain 1

/-- DRAIN_IMMEDIATE (21 R383). -/
def execDrainImmediate (s : State) : Out := .next s.immediate

/-- POWER_FAIL_WARNING (21 R383). -/
def execPowerFailWarning (s : State) : Out := .next s.immediate

/-- A trip asserts the power-fail warning; once the drain is over, or at once when none starts, the compute rails are removed (22 R393). -/
def State.trip (s : State) : State :=
  let s := s.immediate
  { s with mgmt := { s.mgmt with tripped := true, railsOff := s.mgmt.railsOff || !s.mgmt.drainRunning } }

/-- THERMAL_TRIP (22 R393): a junction at 105 C. -/
def execThermalTrip (dom temp : Nat) (s : State) : Out := inDomain dom s fun s => .next (if 105000 ≤ temp then s.trip else s)

/-- COOLANT_FLOW_LOSS (22 R393): as a trip, after 1 s. -/
def execCoolantFlowLoss (ms : Nat) (s : State) : Out := .next (if 1000 ≤ ms then s.trip else s)

/-! ## The image -/

/-- Can a domain's DRAM be reached: it is not fenced, and has power? -/
def State.drains (s : State) (d : Nat) : Bool := !(s.domain d).fenced && !(s.domain d).regFailed

/-- Writes back every Dirty sector of a domain that can be reached, which stays as Clean. -/
def State.writeBack (s : State) (d : Nat) : State :=
  let q := s.domain d
  if !s.drains d then s
  else
    let mem := q.l2.foldl (fun m e => match e.2.held with
      | some h => if h.kind = .dirty then Memory.writeNat m h.pa 32 h.data.toNat else m
      | none => m) s.mem
    let clean := fun (h : Held) => if h.kind = .dirty then { h with kind := .clean } else h
    { (s.setDomain d { q with l2 := q.l2.mapVals fun _ e => { e with held := e.held.map clean } }) with mem := mem }

/-- The domains whose DRAM cannot be reached, by mask. -/
def State.unreachable (s : State) : BitVec 64 :=
  (List.range Config.domainCount).foldl (fun m d => if s.drains d then m else m ||| (1 : BitVec 64) <<< d) 0

/-- The domain of this wafer whose DRAM a physical address lies in. -/
def State.dramDomain (s : State) (pa : Nat) : Option Nat := match s.place pa with | .home d => some d | _ => none

/-- Bytes of a domain's segment in the tier. -/
def segmentBytes : Nat := 2 ^ 35

/-- The segment of a domain, at its offset in the tier: domain d's DRAM from d·2^35 on (21 R383). -/
def State.segment (s : State) (d : Nat) : List Host.Cell :=
  let lo := s.mgmt.fabno.toNat * 2 ^ 44 + d * 2 ^ 38
  (s.mem.filter fun c => decide (lo ≤ c.1) && decide (c.1 < lo + segmentBytes)).map fun c => (segmentBytes * d + (c.1 - lo), c.2)

/-- The offset of the header in the tier (21 R383). -/
def headerAt : Nat := 2 ^ 41

/-- The bytes of 8-byte fields from an address on. -/
def fieldCells (at_ : Nat) (xs : List Nat) : List Host.Cell :=
  xs.zipIdx.flatMap fun x => (List.range 8).map fun k => (at_ + 8 * x.2 + k, BitVec.ofNat 8 (x.1 >>> (8 * k)))

/-- The image of the reachable domains' DRAM with its header: the layout version, the Banner generation, each domain's state (0 present, 1 absent), a
CRC-64 of each segment, and last one of the header itself (21 R383; log entry 22). -/
def State.tierImage (s : State) : Tier :=
  let ds := List.range Config.domainCount
  let states := ds.map fun d => if s.drains d then 0 else 1
  let crcs := ds.map fun d => if s.drains d then Config.crc64 (s.segment d) else 0
  let header := [Config.tierVersion, s.wafer.gen] ++ states ++ crcs
  ⟨s.mgmt.drainTarget, ds.flatMap fun d => if s.drains d then s.segment d else [], Config.tierVersion, s.wafer.gen, states, crcs,
    Config.crc64 (fieldCells headerAt header)⟩

/-- Streams DRAM to the tier that the drain register names. -/
def State.stream (s : State) : State :=
  let s := (List.range Config.domainCount).foldl State.writeBack s
  { s with tier := some s.tierImage }

/-- A core after its work is lost: nothing of a block is left on it. -/
def Core.emptied (c : Core) : Core := { Core.reset with live := c.live, cycleBase := c.cycleBase }

/-- Ends all running work without saving it: contexts, their stores that are not confirmed, and what is under way (21 R383). -/
def State.loseWork (s : State) : State :=
  { s with
    reels := [], blocks := [], msgs := [], stores := [], faults := [], launches := [], preempts := [], colls := []
    cores := s.cores.mapD Core.reset fun _ c => c.emptied
    domains := s.domains.mapD Domain.reset fun _ q =>
      { q with walks := [], slots := [], l2 := (q.l2.mapVals fun _ e => { e with laid := [], fills := [] }).keep fun _ e => e.held.isSome } }

/-- May a quiesced drain stream: no block is resident, and no sector is Provisional or Forwarded? -/
def State.quiesced (s : State) : Bool := s.blocks.isEmpty && s.domains.all fun q => q.2.l2.all fun e => e.2.laid.isEmpty

/-- The drain reports its completion; a trip then removes the rails (21 R383, R384, 22 R393). -/
def State.endDrain (s : State) (status : Nat) : State :=
  { s with mgmt := { s.mgmt with drainRunning := false, drainStatus := status, railsOff := s.mgmt.railsOff || s.mgmt.tripped } }

/-- DRAIN_COMPLETE (21 R383, R384): the stream ends and the status is written. -/
def execDrainComplete (s : State) : Out :=
  if !s.mgmt.drainRunning then .next s
  else match s.mgmt.drainMode with
    | 0 => if s.quiesced then .next (s.stream.endDrain 1) else .next s
    | 1 => .next (s.loseWork.stream.endDrain 1)
    | _ =>
      let masks := s.mgmt.absentMask ||| s.mgmt.skippedMask ||| s.mgmt.corruptMask
      .next (s.endDrain (if masks = 0 then 1 else 2))

/-! ## Restore (21 R384) -/

/-- Is a domain's DRAM written from its segment? -/
def State.takes (s : State) (i : TierImage) (d : Nat) : Bool := !i.absent.testBit d && !i.corrupt.testBit d && s.drains d

/-- Memory after the stream: the segments that hold, zeros where one is absent or corrupt, and fenced DRAM as it was. -/
def State.restored (s : State) (i : TierImage) : List Host.Cell :=
  let kept := s.mem.filter fun c => match s.dramDomain c.1 with | some d => !s.drains d | none => true
  i.cells.foldl (fun m c =>
    let d := c.1 / segmentBytes
    if d < Config.domainCount ∧ s.takes i d then
      Memory.write m (s.mgmt.fabno.toNat * 2 ^ 44 + d * 2 ^ 38 + c.1 % segmentBytes) c.2
    else m) kept

/-- DRAIN_RESTORE (21 R383, R384): with no block in any domain and a header that holds, the segments are read back by domain number. -/
def execDrainRestore (image : TierImage) (s : State) : Out :=
  if s.mgmt.drainRunning || !s.mgmt.ready || !s.blocks.isEmpty then .next s
  else if !image.headerOk || image.version != Config.tierVersion then .next ((s.startDrain 2).endDrain 3)
  else
    let fenced := s.unreachable
    let absent := BitVec.ofNat 64 image.absent
    let s := { s with mem := s.restored image }.startDrain 2
    .next { s with mgmt := { s.mgmt with
      absentMask := absent, skippedMask := fenced &&& ~~~absent, corruptMask := BitVec.ofNat 64 image.corrupt &&& ~~~(absent ||| fenced)
      drainGen := image.gen } }

end Sys2Proof.Machine
end

