-- ==== Sys2Proof/Machine/Banner.lean ====
section
/-! DEFINITION. The Banner: its bytes, a new generation, its move, and operating points (18 R322 to R330). -/

namespace Sys2Proof.Machine

/-- Boundaries of the mesh (18 R318). -/
def boundaryCount : Nat := 112

/-- The live cores of a domain as the Banner counts them: none once it is fenced (18 R334). -/
def State.bannerCores (s : State) (d : Nat) : List Nat := if (s.domain d).fenced then [] else s.liveCores d

/-- Clusters of a domain with at least `n` cores that the Banner counts live. -/
def State.bannerClusters (s : State) (d n : Nat) : Nat :=
  ((List.range 30).filter fun k => n ≤ ((s.bannerCores d).filter fun c => c % Config.coresPerDomain / 4 == k).length).length

/-- Bytes of a domain's stacked DRAM that can be reached: none of a fenced domain (18 R324, R331, R334, R335). -/
def Domain.reachable (q : Domain) : Nat := if q.fenced then 0 else dramBytes - (q.lostRanges.map (·.2)).sum

/-- A domain's record (18 R324). -/
def State.bannerRecord (s : State) (d : Nat) : Nat :=
  let q := s.domain d
  let cores := s.bannerCores d
  packed [(0, q.reachable / 2 ^ 20), (32, s.bannerClusters d 1), (40, s.bannerClusters d 2),
    (48, s.bannerClusters d 3), (56, s.bannerClusters d 4), (64, pointMHz q.point), (80, q.cap), (96, s.lcore (Config.coresPerDomain * d)),
    (122, bit q.fenced), (124, q.part % 16), (128, cores.length), (136, (cores.map fun c => 2 ^ (c % Config.coresPerDomain)).sum)]

/-- The header (18 R323). -/
def State.bannerHeader (s : State) : Nat :=
  let live := ((List.range Config.domainCount).map fun d => (s.bannerCores d).length).sum
  let ndom := ((List.range Config.domainCount).filter fun d => !(s.domain d).fenced).length
  packed [(0, 32), (16, 1), (32, s.wafer.gen % 2 ^ 32), (64, s.wafer.gstart % 2 ^ 32), (104, ndom), (128, live), (144, s.wafer.blive.toNat)]

/-- The 2,080 bytes of the Banner. -/
def State.bannerImage (s : State) : Nat :=
  s.bannerHeader + ((List.range Config.domainCount).map fun d => s.bannerRecord d * 2 ^ (256 * (d + 1))).sum

/-- Writes the Banner where the register points. -/
def State.writeBanner (s : State) : State := s.physWrite s.mgmt.banner 2080 s.bannerImage

/-- A new Banner generation: the four steps of an update, as one (18 R325; log entry 21). -/
def State.newGeneration (s : State) : State :=
  ({ s with wafer := { s.wafer with gen := s.wafer.gen + 1, gstart := s.wafer.gen + 1 } }).writeBanner

/-- The physical address of the Banner in a domain: a page at the start of its DRAM (18 R323, 22 R391). -/
def State.bannerIn (s : State) (d : Nat) : Nat := s.mgmt.fabno.toNat * 2 ^ 44 + d * 2 ^ 38

/-- Moves the Banner out of a fenced domain to the next up domain, and sets the moved bit (18 R323). -/
def State.moveBanner (s : State) : State :=
  if !(s.domain (paDomain s.mgmt.banner)).fenced then s
  else match (List.range Config.domainCount).find? fun d => (s.domain d).powered with
    | some d => { s with mgmt := { s.mgmt with banner := s.bannerIn d, moved := true } }
    | none => s

/-- Changes what decides a domain's operating point: its clock and its bubble count are brought up to date, and a change of point stops its issue
until the clock relocks and makes a new generation (18 R325, R330). -/
def State.onPoint (s : State) (d : Nat) (f : Domain → Domain) : State :=
  let q := s.domain d
  let now := s.cycles d
  let q' := f { q with clkBase := now, clkAt := s.time, bubbles := s.bubbleCount d, bubblesAt := now }
  if q'.point = q.point then s.setDomain d q'
  else (s.setDomain d { q' with relocking := true }).newGeneration

/-- The status bits of the power and thermal limits: some domain is held below its set point by the rule (18 R329, 22 R391, R393). -/
def State.limitBits (s : State) : State :=
  { s with mgmt := { s.mgmt with
    power := s.domains.any fun q => decide (q.2.setPoint < q.2.powerAsk)
    thermal := s.domains.any fun q => decide (q.2.setPoint < q.2.thermAsk) } }

end Sys2Proof.Machine
end

