-- ==== Sys2Proof/Machine/Failures.lean ====
section
/-! DEFINITION. Failures: core memory errors, links, DRAM channels, regulators, heartbeats and fences, and what becomes of the blocks and
messages of what is fenced (08 R174, 13 R269, 18 R319, R331, R334 to R337). -/

namespace Sys2Proof.Machine

/-! ## Blocks of a failed unit (13 R269, 18 R337) -/

/-- Resolves as drop every record that names a reel. -/
def State.dropRecords (s : State) (key : Nat) : State :=
  ((s.faults.filter fun f => f.2.reelKey == some key).map (·.1)).foldl State.dropAtKill s

/-- Takes a block off its core by force: its reels' records are resolved, its commands end, and its stores go on to confirmation. What is left of
its gang keeps whether it had published. -/
def State.removeBlock (s : State) (key : Nat) (b : Block) : State :=
  let keys := (s.reels.filter fun r => r.2.block == key).map (·.1)
  let s := keys.foldl State.dropRecords s
  let s := keys.foldl (fun s k => (s.disarm k 0).disarm k 1) s
  let s := { s with
    stores := s.stores.mapVals fun _ o => o.leave s.reels keys
    preempts := s.preempts.mapVals fun _ p => { p with blocks := p.blocks.filter (· != key) } }
  (s.unsettle key b).leaveGang key b.published

/-- A number put in its place in a rising list. -/
def sortedIn (xs : List Nat) (n : Nat) : List Nat := xs.filter (· < n) ++ [n] ++ xs.filter (n < ·)

/-- A block is to be started again (18 R337): a fault-service block by its record, another by its launch. -/
def State.replayBlock (s : State) (key : Nat) (b : Block) : State :=
  let s := s.removeBlock key b
  match b.service with
  | some id => { s with faults := s.faults.adjust id fun f => { f with served := false } }
  | none => { s with launches := s.launches.adjust b.launch fun l => { l with replay := sortedIn l.replay b.linear } }

/-- A published block ends, a fault-service block for good: one record of kind 0x16 that holds nothing is raised for it (18 R337). -/
def State.loseBlock (s : State) (key : Nat) (b : Block) : State :=
  let f := { s.blankRec b key with kind := 0x16 }
  let s := s.removeBlock key b
  let s := match b.service with
    | some _ => s
    | none => s.onLaunch b.launch fun l => { l with ended := insertNew l.ended b.linear }
  (s.raiseRec f false).1

/-- A surviving member of a gang that has published ends through fault service: each of its reels is held with a record of kind 0x15 (13 R269; log
entry 101). -/
def State.strand (s : State) (key : Nat) : State :=
  (s.reels.filter fun r => r.2.block == key && !r.2.exited && !r.2.killed).foldl (fun s r =>
    match s.reels.find? r.1, s.blocks.find? key with
    | some q, some b => (s.raiseRec { s.reelRec r.1 q b with kind := 0x15 } true).1
    | _, _ => s) s

/-- A block of a failed unit: its gang is replayed whole when no member has published, those that have ended or been lost included; else the block
ends, and the members that are left end through fault service (13 R269, 18 R337). -/
def State.failBlock (s : State) (key : Nat) : State :=
  match s.blocks.find? key with
  | none => s
  | some b =>
    let gang := b.gang.filterMap fun k => (s.blocks.find? k).map fun g => (k, g)
    if b.gangPublished || gang.any fun g => g.2.published then
      ((gang.map (·.1)).filter (· != key)).foldl State.strand (s.loseBlock key b)
    else gang.foldl (fun s g => match s.blocks.find? g.1 with | some q => s.replayBlock g.1 q | none => s) s

/-- Fences a core: it is dead from now on, its blocks fail, and a new generation records it (08 R174, 18 R334). -/
def State.fenceCore (s : State) (c : Nat) : State :=
  let s := s.onCore c fun q => { q with live := false }
  let s := ((s.blocksOn c).map (·.1)).foldl State.failBlock s
  s.newGeneration

/-! ## Core memory errors (08 R174) -/

/-- Logs an error that a retry has put right (08 R174, 18 R334). -/
def State.logError (s : State) (e : ErrSite) : State := { s with errLog := s.errLog ++ [(s.time, e)] }

/-- How the va of a record of kind 0x0E names a location: its class (0 scratchpad, 1 vector registers, 2 uniform registers, 3 operand memory, 4
accumulator memory) in bits [39:32], and a byte offset within the class below (DESIGN CHOICE; log entry 95). -/
def locationAt (cls offset : Nat) : Nat := cls * 2 ^ 32 + offset % 2 ^ 32

/-- The block an error's place belongs to, with the reel slot, the lanes and the location its record names. -/
def State.errorAt (s : State) (core : Nat) : EccPlace → Option (Nat × Nat × Word × Nat)
  | .spad block word => some (block, 0, 0, locationAt 0 (4 * word))
  | .vreg reel reg lane => (s.reels.find? reel).map fun r => (r.block, slotOfKey reel, (1 : Word) <<< lane, locationAt 1 (128 * reg + 4 * lane))
  | .ureg reel reg => (s.reels.find? reel).map fun r => (r.block, slotOfKey reel, 0, locationAt 2 (4 * reg))
  | .operand slot word => ((s.core core).om.find? slot).map fun o => (o.owner, 0, 0, locationAt 3 (4096 * slot + 4 * word))
  | .tile tile word => ((s.core core).ac.find? tile).map fun t => (t.owner, 0, 0, locationAt 4 (4096 * tile + 4 * word))
  | _ => none

/-- Reports lost data of a block: a record of kind 0x0E (its reel is lost with the core, so it holds none). -/
def State.dataLost (s : State) (core : Nat) (place : EccPlace) : State :=
  match s.errorAt core place with
  | none => s
  | some (key, slot, lanes, va) =>
    match s.blocks.find? key with
    | none => s
    | some b =>
      if b.core ≠ core then s else (s.raiseRec { s.blankRec b key with kind := 0x0E, reel := slot, lanes := lanes, va := va } false).1

/-- Reports a store whose attribution entry is lost (kind 0x0F): what the entry held is unknown. -/
def State.attributionLost (s : State) (sid : Nat) : State :=
  match s.stores.find? sid with
  | none => s
  | some o =>
    let f := { s.baseRec o.core o.ctx o.launch o.linear o.block with kind := 0x0F, store := true, exited := o.ex }
    (s.onStore sid fun o => { o with attr := false }).raiseRec f false |>.1

/-- ECC_ERROR (08 R174): a single-bit error is corrected in place; of a double one, a cached line is dropped, and lost data is reported; `again` says
that the second try failed too, which fences the core, and every error that does not is logged as transient. -/
def execEccError (core : Nat) (place : EccPlace) (double again : Bool) (s : State) : Out :=
  inCore core s fun s =>
    let logged := s.logError (.core core place)
    if !double then .next logged
    else
      let s' := if again then s else logged
      let last := fun (s : State) => if again then s.fenceCore core else s
      match place with
      | .l1 sec => .next (last (s'.dropL1Line core (sec / 4)))
      | .icache line => .next (last (s'.onCore core fun c => { c with icache := c.icache.del line }))
      | .lookaside i => .next (logged.onCore core fun c => { c with look := c.look.eraseIdx i })
      | .victim i => .next (logged.onCore core fun c => { c with victims := c.victims.eraseIdx i })
      | .attribution sid => .next ((s.attributionLost sid).fenceCore core)
      | p => .next (if again then (s.dataLost core p).fenceCore core else logged)

/-! ## Fencing a domain (18 R331, R335, R336) -/

/-- Does a message belong to a fenced domain's own cores, or is it a request of theirs that its router still held? -/
def Msg.queuedIn (m : Msg) (d : Nat) : Bool :=
  (m.body.sliceLine.isSome && m.dst == d) || (m.body.channel == 1 && m.src == d && !m.body.ofAgent)

/-- A directory after the scrub of a domain: its sharer bits and its cores' watchers are gone. -/
def scrubDir (d : Nat) (dir : Map DirEntry) : Map DirEntry :=
  let own := fun (w : Watcher) => domainOfCore (coreOfKey w.reel) == d
  (dir.mapVals fun _ e => { e with sharers := e.sharers &&& ~~~((1 : BitVec 64) <<< d), watchers := e.watchers.filter fun w => !own w }).keep
    fun _ e => e.sharers != 0 || !e.watchers.isEmpty

/-- A reel whose slots armed at a fenced home are lost (18 R336); a registration whose answer has not come is refused instead. -/
def Reel.loseWatches (d : Nat) (r : Reel) : Reel :=
  [0, 1].foldl (fun r w => if (r.watchSlot w).state = .armed ∧ (r.watchSlot w).home = d then r.report w true else r) r

/-- The scrub of a fenced domain from the other domains' directories and watch tables, and from the agents (18 R336). -/
def State.scrub (s : State) (d : Nat) : State :=
  { s with
    domains := s.domains.mapD Domain.reset fun h q => if h = d then q else { q with dir := scrubDir d q.dir }
    hostLines := s.hostLines.mapVals fun _ l => { l with mask := l.mask &&& ~~~((1 : BitVec 64) <<< d) }
    hostDir := (s.hostDir.mapVals fun _ ws => ws.filter fun w => domainOfCore (coreOfKey w.reel) != d).keep fun _ ws => !ws.isEmpty
    reels := s.reels.mapVals fun _ r => r.loseWatches d }

/-- The refusal of a request whose home cannot be reached (18 R335). -/
def refusal (pa : Nat) : XFault := ⟨0x16, 0, 0, false, pa, none⟩

/-- The bytes of a store's line that its slice still holds as forwarded. -/
def State.heldImage (s : State) (d sid line : Nat) : LineImg :=
  [0, 1, 2, 3].foldl (fun i j =>
    match (s.sector d (4 * line + j)).laid.find? fun l => l.sid == sid with
    | some l =>
      { i with mask := i.mask ||| (l.mask.setWidth 128 <<< (32 * j)), data := i.data ||| (l.data.setWidth 1024 <<< (256 * j)) }
    | none => i) ⟨line, 0, 0, ((s.stores.find? sid).map (·.lanes)).getD 0⟩

/-- The physical address of a fill that a sector of a slice waits for. -/
def State.fillAddr (s : State) (d sec req : Nat) : Nat :=
  (((s.sector d sec).fills.find? fun f => f.req == req).map (·.pa)).getD 0

/-- What a domain's router held for others when it was fenced is discarded. Who waits for it learns of the fence: the answers of requests become
refusals, and what waited for an acknowledgement waits no longer (18 R335, R336; log entry 49). -/
def State.discard (s : State) (d key : Nat) (m : Msg) : State :=
  match m.body with
  | .fill dom sec req .. =>
    (s.take key).faultRequest req ⟨dom, d, m.core, false, .fillReq dom sec ⟨0, 0, 32, false⟩⟩ (refusal (s.fillAddr dom sec req))
  | .confirm sid line => s.faultWrite key m.dst m.core sid (s.heldImage m.dst sid line) (refusal 0)
  | .atomAns sid reel load line _ => ((s.take key).setLine sid line .settled).faultLoad reel load line (refusal 0)
  | .watchAns reel slot reg .. =>
    let s := (s.take key).onReel reel fun r => r.unregistered slot reg (r.watchSlot slot).status
    match (s.load? reel reg).bind fun o => o.pieces.head? with
    | some p => s.faultLoad reel reg (p.va / 128) (refusal 0)
    | none => s
  | .inval _ _ whom | .ack whom => (s.take key).acked whom
  | _ => s.take key

/-- Does a store outlive the domain of the core it was issued on: its block has been saved, or has come back elsewhere (19 R357)? -/
def OutStore.outlives (o : OutStore) (d : Nat) : Bool := decide (savedBase ≤ o.block) || domainOfCore o.core != d

/-- A request that a domain's cores had under way when it was fenced: one of a block that has left is refused, the others are gone with their cores.
-/
def State.discardOwn (s : State) (d key : Nat) (m : Msg) : State :=
  let sid := match m.body with | .write i _ | .homeWrite i .. | .atomic i .. | .homeAtomic i .. | .contrib i .. => some i | _ => none
  if ((sid.bind s.stores.find?).map fun o => o.outlives d).getD false then s.faultRequest key m (refusal 0) else s.take key

/-- Fences a domain: its queued messages are discarded, its blocks fail, the scrub runs, and the Banner goes to its next generation (18 R323, R335
to R337). What its cores had stored and not had confirmed is gone with them. -/
def State.fenceDomain (s : State) (d : Nat) : State :=
  if (s.domain d).fenced then s
  else
    let s := s.onDomain d fun q => { q with fenced := true, walks := [] }
    let s := ((s.blocks.filter fun b => domainOfCore b.2.core == d).map (·.1)).foldl State.failBlock s
    let s := (s.msgs.filter fun m => m.2.queuedIn d).foldl (fun s m => s.discardOwn d m.1 m.2) s
    let s := { s with stores := s.stores.keep fun _ o => o.outlives d }
    let s := (s.msgs.filter fun m => m.2.src == d && 2 ≤ m.2.body.channel).foldl (fun s m => s.discard d m.1 m.2) s
    ((s.scrub d).moveBanner).newGeneration

/-- DOMAIN_UNIT_ERROR (18 R334). -/
def execDomainUnitError (dom : Nat) (again : Bool) (s : State) : Out :=
  inDomain dom s fun s => .next (if again then s.fenceDomain dom else s.logError (.unit dom))

/-- HEARTBEAT (18 R335): a domain that has power and is not fenced is heard. -/
def execHeartbeat (dom : Nat) (s : State) : Out :=
  inDomain dom s fun s => .next (if (s.domain dom).powered then s.onDomain dom fun q => { q with missed := 0, beatAt := s.time } else s)

/-- HEARTBEAT_MISSED (18 R335): a heartbeat that is due every 10 us has not come; the third in a row fences the domain. -/
def execHeartbeatMissed (dom : Nat) (s : State) : Out :=
  inDomain dom s fun s =>
    let q := s.domain dom
    if q.fenced || s.time < q.beatAt + 10 * micro then .next s
    else
      let s := s.onDomain dom fun q => { q with missed := q.missed + 1, beatAt := s.time }
      .next (if 3 ≤ q.missed + 1 then s.fenceDomain dom else s)

/-- REGULATOR_FAILURE (18 R331): the domain's parts stop, and its L2 slice and what its units held are lost. What its cores held is lost too:
nothing of a core without power is saved, and its blocks end or are replayed at the fence. -/
def execRegulatorFailure (dom : Nat) (s : State) : Out :=
  inDomain dom s fun s => .next (s.onDomain dom fun q =>
    { q with regFailed := true, l2 := [], dir := [], xlats := [], walks := [], counts := [], slots := [], snoop := [], biOut := [] })

/-- FENCED_ROUTER_ANSWER (18 R320, R335, 21 R378): a router answers a message to a fenced domain, or a request to what cannot be reached: an
invalidation is acknowledged, a request is refused, the rest is discarded; a store of a block that has left the domain is confirmed all the same. -/
def execFencedRouterAnswer (msg : Nat) (s : State) : Out :=
  match s.msgs.find? msg with
  | none => .next s
  | some m =>
    let lost := (s.domain m.dst).fenced || match m.body.homeAddr with | some (va, x) => s.refuses m.src (x.at va) | none => false
    if !lost || m.body.sliceLine.isSome then .next s
    else match m.body with
      | .inval _ _ whom => .next ((s.take msg).send ⟨m.dst, s.ackDst m.src whom, 0, false, .ack whom⟩)
      | body =>
        match body.homeAddr with
        | some (va, x) => .next (s.faultRequest msg m (refusal (x.at va)))
        | none => 
          .next (match body with
            | .confirm sid line => (s.take msg).setLine sid line .confirmed
            | .ack whom => (s.take msg).acked whom
            | _ => s.take msg)

/-! ## Links, channels and routes (18 R318 to R320, R334) -/

/-- Links of a direction of a boundary, spares included. -/
def linkCount : Nat := 22

/-- LINK_ERROR (18 R334): a lasting error fences a link; with none left the boundary carries traffic in both directions no more. -/
def execLinkError (boundary dir : Nat) (again : Bool) (s : State) : Out :=
  if boundaryCount ≤ boundary || 2 ≤ dir then .next s
  else if !again then .next (s.logError (.link boundary dir))
  else
    let k := 2 * boundary + dir
    let n := min linkCount (s.wafer.linksLost.findD 0 k + 1)
    let dead := n = linkCount ∧ s.wafer.blive.getLsbD boundary
    let live := s.wafer.blive &&& ~~~((1 : BitVec 112) <<< boundary)
    let w := { s.wafer with linksLost := s.wafer.linksLost.put k n, blive := if dead then live else s.wafer.blive }
    .next (if dead then ({ s with wafer := w }).newGeneration else { s with wafer := w })

/-- Ranges of offsets with one more, those that touch it made one with it. -/
def addRange (rs : List (Nat × Nat)) (first size : Nat) : List (Nat × Nat) :=
  let touch := fun (r : Nat × Nat) => decide (r.1 ≤ first + size) && decide (first ≤ r.1 + r.2)
  let hit := rs.filter touch
  let lo := (hit.map (·.1)).foldl min first
  let hi := (hit.map fun r => r.1 + r.2).foldl max (first + size)
  (rs.filter fun r => !touch r) ++ [(lo, hi - lo)]

/-- DRAM_CHANNEL_ERROR (18 R334): a lasting error fences the channel's range of offsets; one within a range that is fenced already changes nothing. -/
def execDramChannelError (dom first size : Nat) (again : Bool) (s : State) : Out :=
  inDomain dom s fun s =>
    let size := min size (dramBytes - first)
    if !again then .next (s.logError (.channel dom first size))
    else if size = 0 ∨ ((s.domain dom).lostRanges.any fun r => decide (r.1 ≤ first) && decide (first + size ≤ r.1 + r.2)) then .next s
    else .next (s.onDomain dom fun q => { q with lostRanges := addRange q.lostRanges first size }).newGeneration

/-- The bits of a route entry that are not 0 (18 R320). -/
def routeMask : BitVec 64 := 0xFE00FFFFFFFFFFFF

/-- ROUTE_CHANGE (18 R319): firmware changes a route once nothing is under way on it. -/
def execRouteChange (src dst entry : Nat) (s : State) : Out :=
  inDomain src s fun s => inDomain dst s fun s =>
    if s.msgs.any fun m => m.2.src == src && m.2.dst == dst then .next s
    else .next (s.onDomain src fun q => { q with routes := q.routes.put dst (BitVec.ofNat 64 entry &&& routeMask) })

end Sys2Proof.Machine
end

