-- ==== Sys2Proof/Machine/Sha.lean ====
section
/-! DEFINITION. SHA-384, which the spec names and does not describe (22 R388, R390): as FIPS 180-4 gives it (log entry 23). -/

namespace Sys2Proof.Machine

/-- The largest x below 2^(n+1) whose `k`-th power is at most `v`, from its bits n downward on top of `x`. -/
def rootFrom (k v : Nat) : Nat → Nat → Nat
  | 0, x => x
  | n + 1, x => let y := x + 2 ^ n; rootFrom k v n (if y ^ k ≤ v then y else x)

/-- The first primes. -/
def primesTo (n : Nat) : List Nat := (List.range n).filter fun p => decide (2 ≤ p) && (List.range p).all fun d => decide (d < 2) || p % d != 0

/-- The first 64 bits of the fraction of the k-th root of a prime. -/
def rootFraction (k p : Nat) : DWord := BitVec.ofNat 64 (rootFrom k (p * 2 ^ (64 * k)) 70 0)

/-- The 80 round constants: cube roots of the first 80 primes. -/
def shaK : List DWord := (primesTo 410).map (rootFraction 3)

/-- The initial hash value: square roots of the ninth to the sixteenth prime. -/
def shaH : List DWord := ((primesTo 54).drop 8).map (rootFraction 2)

/-- Bits chosen by a word. -/
def shaCh (x y z : DWord) : DWord := (x &&& y) ^^^ (~~~x &&& z)
/-- The majority of three words. -/
def shaMaj (x y z : DWord) : DWord := (x &&& y) ^^^ (x &&& z) ^^^ (y &&& z)
/-- The large sigmas. -/
def shaBig (a b c : Nat) (x : DWord) : DWord := x.rotateRight a ^^^ x.rotateRight b ^^^ x.rotateRight c
/-- The small sigmas. -/
def shaSmall (a b c : Nat) (x : DWord) : DWord := x.rotateRight a ^^^ x.rotateRight b ^^^ (x >>> c)

/-- Extends the last sixteen words of a message schedule, newest first, by `n` words, all newest first. -/
def shaExtend : Nat → List DWord → List DWord
  | 0, w => w
  | n + 1, w => shaExtend n ((shaSmall 19 61 6 (w.getD 1 0) + w.getD 6 0 + shaSmall 1 8 7 (w.getD 14 0) + w.getD 15 0) :: w)

/-- One round on the eight working words. -/
def shaRound (v : List DWord) (kw : DWord × DWord) : List DWord :=
  match v with
  | [a, b, c, d, e, f, g, h] =>
    let t := h + shaBig 14 18 41 e + shaCh e f g + kw.1 + kw.2
    [t + shaBig 28 34 39 a + shaMaj a b c, a, b, c, d + t, e, f, g]
  | v => v

/-- Compresses one block of sixteen words. -/
def shaBlock (h block : List DWord) : List DWord :=
  let w := (shaExtend 64 block.reverse).reverse
  h.zipWith (· + ·) ((shaK.zip w).foldl shaRound h)

/-- The bytes of a number, the highest first. -/
def beBytes : Nat → Nat → List Byte
  | 0, _ => []
  | n + 1, x => BitVec.ofNat 8 (x / 256 ^ n) :: beBytes n x

/-- The number of bytes, the highest first. -/
def beNat (bs : List Byte) : Nat := bs.foldl (fun a b => 256 * a + b.toNat) 0

/-- A message padded to whole blocks of 128 bytes. -/
def shaPad (m : List Byte) : List Byte :=
  m ++ [0x80] ++ List.replicate ((239 - m.length % 128) % 128) 0 ++ beBytes 16 (8 * m.length)

/-- Compresses `n` blocks of a padded message. -/
def shaBlocks : Nat → List DWord → List Byte → List DWord
  | 0, h, _ => h
  | n + 1, h, m =>
    let words := (List.range 16).map fun i => BitVec.ofNat 64 (beNat ((m.drop (8 * i)).take 8))
    shaBlocks n (shaBlock h words) (m.drop 128)

/-- SHA-384 of a message: the first six words of the hash. -/
def sha384 (m : List Byte) : BitVec 384 :=
  let p := shaPad m
  BitVec.ofNat 384 (((shaBlocks (p.length / 128) shaH p).take 6).foldl (fun a x => a * 2 ^ 64 + x.toNat) 0)

end Sys2Proof.Machine
end

