-- ==== Sys2Proof/Machine/Boot.lean ====
section
/-! DEFINITION. Cold reset, firmware images, partition reset and attestation (22 R385 to R390). -/

namespace Sys2Proof.Machine

/-! ## Signed images (22 R388, R389) -/

/-- The magic number of a firmware header. -/
def fwMagic : Nat := 0x4B4A3634

/-- The fields that the signatures of a header cover. -/
def signedFields (i : FwImage) : List Nat := [i.magic, i.version, i.rollback, i.length, i.digest, (i.raiseMin.map (· + 1)).getD 0]

/-- Is an image accepted: both signatures verify, the digest matches, and the rollback counter is at least the fused minimum? -/
def Boot.accepts (b : Boot) (i : FwImage) : Bool :=
  i.magic == fwMagic && Config.rsaVerifies (signedFields i) i.rsa && Config.slhVerifies (signedFields i) i.slh
    && i.digest == (sha384 i.body).toNat && decide (b.fusedMin ≤ i.rollback)

/-- RECOVERY_IMAGE_WRITE (22 R388): in recovery the mailbox takes a new image for a slot, if it is accepted. -/
def execRecoveryImageWrite (slotB : Bool) (image : FwImage) (s : State) : Out :=
  if !s.mgmt.recovery then .next s
  else
    let ok := s.boot.accepts image
    let v : Image := ⟨image.version, image.rollback, image.raiseMin, true⟩
    let boot := if !ok then s.boot else if slotB then { s.boot with slotB := some v } else { s.boot with slotA := some v }
    .next { s with boot := boot, answer := some (.mailbox ok) }

/-- The image of a slot, if it may boot. -/
def Boot.usable (b : Boot) (slotB : Bool) : Option Image :=
  (if slotB then b.slotB else b.slotA).filter fun i => i.accepted && decide (b.fusedMin ≤ i.rollback)

/-- The slot that boots: the higher accepted version, slot A when both are the same. -/
def Boot.choose (b : Boot) : Option (Bool × Image) :=
  match b.usable false, b.usable true with
  | some a, some c => if a.version < c.version then some (true, c) else some (false, a)
  | some a, none => some (false, a)
  | none, some c => some (true, c)
  | none, none => none

/-! ## Measurements (22 R390) -/

/-- Extends a measurement register by a digest of 48 bytes. -/
def extendMeas (m : Map (BitVec 384)) (reg digest : Nat) : Map (BitVec 384) :=
  m.putD 0 reg (sha384 (beBytes 48 (m.findD 0 reg).toNat ++ beBytes 48 digest))

/-- MEASUREMENT_EXTEND (22 R390): system software extends registers 4 to 7. -/
def execMeasurementExtend (reg digest : Nat) (s : State) : Out :=
  if reg < 4 || 7 < reg then .next { s with answer := some (.mailbox false) }
  else .next { s with boot := { s.boot with meas := extendMeas s.boot.meas reg digest }, answer := some (.mailbox true) }

/-- ATTESTATION_REPORT (22 R390): the eight registers and the nonce, signed with both identity keys. -/
def execAttestationReport (nonce : Nat) (s : State) : Out :=
  let fields := nonce :: (List.range 8).map fun i => (s.boot.meas.findD 0 i).toNat
  .next { s with answer := some (.report nonce s.boot.meas (Config.rsaSigns fields) (Config.slhSigns fields)) }

/-! ## Cold reset (22 R385, R386) -/

/-- The cores that come up dead: a core fused once stays so (18 R321). -/
def State.deadCores (s : State) (found : List Nat) : List Nat :=
  (List.range Config.coreCount).filter fun c => !(s.core c).live || found.contains c

/-- Cores after a reset: all as after reset, the dead ones dead. -/
def coresAtReset (dead : List Nat) : Map Core := dead.map fun c => (c, { Core.reset with live := false })

/-- What a cold reset leaves before the controller has booted: every register at its value after reset. Slots, fuses and the tier stand; so do the
model's own fields. -/
def State.coldStart (s : State) : State :=
  { State.reset with
    agenda := s.agenda, rot := s.rot, nextId := s.nextId, tier := s.tier
    cores := coresAtReset (s.deadCores [])
    boot := { s.boot with booted := none, meas := [] } }

/-- Measures a boot stage. -/
def State.measure (s : State) (b : BootInput) (reg : Nat) : State :=
  { s with boot := { s.boot with meas := extendMeas s.boot.meas reg (b.digests.getD reg 0) } }

/-- The rails stay off. -/
def State.railsDown (s : State) : State := { s with mgmt := { s.mgmt with railsOff := true } }

/-- Steps 3 to 7 of the power-on sequence. -/
def State.bringUp (s : State) (b : BootInput) (slotB : Bool) (i : Image) : State :=
  let s := (s.measure b 2).measure b 3
  let dead := s.deadCores b.dead
  let fab := BitVec.ofNat 12 (if b.fabno % 4096 = 4095 ∧ b.host then 0 else b.fabno)
  let s := { s with
    cores := coresAtReset dead
    wafer := { s.wafer with fusedDead := dead }
    nextId := s.nextId + 1
    mgmt := { s.mgmt with fabno := fab, banner := fab.toNat * 2 ^ 44, saveBound := Config.measuredBound s.nextId } }
  let s := s.writeBanner
  { s with
    mgmt := { s.mgmt with ready := true }
    boot := { s.boot with booted := some slotB, fusedMin := max s.boot.fusedMin (i.raiseMin.getD 0) } }

/-- COLD_RESET (22 R385, R386, R388, R389): to ready, to recovery when no slot holds an accepted image, or to a stop when a power-fail warning comes
in steps 3 to 6. -/
def execColdReset (b : BootInput) (s : State) : Out :=
  let s := s.coldStart.measure b 0
  match s.boot.choose with
  | none => .next ({ s with mgmt := { s.mgmt with recovery := true } }).railsDown
  | some (slotB, i) =>
    let s := s.measure b 1
    if b.powerFail then .next s.railsDown else .next (s.bringUp b slotB i)

/-! ## Partition reset (22 R387) -/

/-- A domain of a partition that has been reset: its lines, directory and translations are gone, its limiter and operating point start again, and it
is up. -/
def State.domainRestart (s : State) (d : Nat) (q : Domain) : Domain :=
  { q with
    l2 := [], dir := [], xlats := [], walks := [], slots := []
    level := 0, satSamples := 0, okSamples := 0, bubbles := s.bubbleCount d, bubblesAt := s.cycles d
    setPoint := 0, powerAsk := 0, thermAsk := 0, relocking := false, clkBase := s.cycles d, clkAt := s.time
    fenced := false, regFailed := false, missed := 0, beatAt := s.time }

/-- Restarts a domain and its cores; a core that now fails self-test is dead. -/
def State.restartDomain (s : State) (dead : List Nat) (d : Nat) : State :=
  let s := s.setDomain d (s.domainRestart d (s.domain d))
  ((List.range Config.coresPerDomain).map (Config.coresPerDomain * d + ·)).foldl (fun s c =>
    s.setCore c { Core.reset with live := (s.core c).live && !dead.contains c, cycleBase := s.clock c }) s

/-- Ends what a partition holds: launches are killed with status 4 and detail 2, their blocks leave their cores, and saved contexts and requests
go, and its collectives are abandoned (21 R382). -/
def State.endPartition (s : State) (part : Nat) : State :=
  let s := ((s.launches.filter fun l => l.2.part == part).map (·.1)).foldl (fun s l => s.killLaunch l (4, 2, 0)) s
  let s := ((s.blocks.filter fun b => b.2.part == part).map (·.1)).foldl (fun s k => match s.blocks.find? k with | some b => s.removeBlock k b | none => s) s
  { s.endColls (fun p _ => p == part) with
    saved := s.saved.filter fun v => v.block.part != part
    preempts := s.preempts.keep fun _ p => p.part != part }

/-- PARTITION_RESET (22 R387): the scrub bit writes the partition's DRAM with zeros; one new generation is made, and logical numbers stay. -/
def execPartitionReset (part : Nat) (scrub : Bool) (dead : List Nat) (s : State) : Out :=
  inPart part s fun s =>
    let ds := (List.range Config.domainCount).filter fun d => (s.domain d).part == part
    let s := s.endPartition part
    let s := { s with
      msgs := s.msgs.keep fun _ m => !(ds.any m.queuedIn)
      stores := s.stores.keep fun _ o => !ds.contains (domainOfCore o.core)
      mem := if scrub then s.mem.filter fun c => match s.dramDomain c.1 with | some d => !ds.contains d | none => true else s.mem }
    .next (((ds.foldl (State.restartDomain · dead) s).limitBits).newGeneration)

end Sys2Proof.Machine
end

