-- ==== Sys2Proof/Machine/Fabric.lean ====
section
/-! DEFINITION. Reluf ports and wafers that cannot be reached (21 R376, R378). -/

namespace Sys2Proof.Machine

/-- Reluf ports: one at each domain's router (21 R376). -/
def relufPorts : Nat := 64

/-- RELUF_CRC_FAIL (21 R378): a flit that fails its CRC is resent; a second failure fences the port. -/
def execRelufCrcFail (port : Nat) (again : Bool) (s : State) : Out :=
  if !again || relufPorts ≤ port || (s.portsFenced.find? port).isSome then .next s
  else .next { s with portsFenced := s.portsFenced.put port s.time }

/-- The valid ports of a wafer's entry in the Reluf route table (22 R391). -/
def State.relufRoutes (s : State) (wafer : Nat) : List Nat :=
  let e := s.physRead (s.mgmt.rroute + 8 * wafer) 8
  ((List.range 4).map fun i => bitsOf e (16 * i + 15) (16 * i)).filterMap fun f => if f.testBit 15 then some (f % 64) else none

/-- Has a wafer had no route for 100 us: each of its ports has been fenced as long? -/
def State.noRoute (s : State) (wafer : Nat) : Bool :=
  (s.relufRoutes wafer).all fun p => match s.portsFenced.find? p with | some t => decide (t + 100 * micro ≤ s.time) | none => false

/-- WAFER_UNREACHABLE_TIMEOUT (21 R378): from now on each request to the wafer is refused. -/
def execWaferUnreachableTimeout (wafer : Nat) (s : State) : Out :=
  if 4096 ≤ wafer || wafer == s.mgmt.fabno.toNat || !s.noRoute wafer then .next s
  else .next { s with lostWafers := insertNew s.lostWafers wafer }

end Sys2Proof.Machine
end

