-- ==== Sys2Proof/Machine/Collective.lean ====
section
/-! DEFINITION. The wafer's collective unit: descriptors, the combination of the members' elements, completion and abandonment (21 R379 to R382). -/

namespace Sys2Proof.Machine

/-! ## Descriptors and groups (21 R379) -/

/-- A descriptor's 512 bits. The bits that its table gives as 0 are ignored (02 R5), but for the upper bits of an address, which make it none. -/
def CollDesc.ofNat (x : Nat) : CollDesc where
  cw := bitsOf x 447 384
  dst := bitsOf x 374 320
  src := bitsOf x 310 256
  count := bitsOf x 255 224
  seq := bitsOf x 223 192
  group := bitsOf x 191 176
  type := bitsOf x 167 164
  op := bitsOf x 163 160
  root := bitsOf x 159 148
  malformed := decide (3 < bitsOf x 167 164) || decide (4 < bitsOf x 163 160) || bitsOf x 255 224 == 0 || decide (2 ^ 31 < bitsOf x 255 224)
    || bitsOf x 383 375 != 0 || bitsOf x 319 311 != 0

/-- Can a completion word stand at the descriptor's cw: an address, not 0, and aligned (21 R379, R381)? -/
def CollDesc.cwUsable (d : CollDesc) : Bool := d.cw != 0 && d.cw % 8 == 0 && decide (d.cw < 2 ^ 55)

/-- Bytes of an element. -/
def CollDesc.size (c : CollDesc) : Nat := if c.type = 1 then 8 else 4

/-- The partition and the members of a group, from the group table in device memory. -/
def State.group (s : State) (g : Nat) : Nat × List Nat :=
  let e := s.physRead (s.mgmt.gtab + 8 * g) 8
  let list := bitsOf e 55 16 * 2 ^ 16
  (bitsOf e 15 12, (List.range (bitsOf e 11 0 + 1)).map fun i => s.physRead (list + 2 * i) 2 % 2 ^ 12)

/-- The member index of this wafer. -/
def Coll.self (c : Coll) (s : State) : Option Nat := c.members.findIdx? (· == s.mgmt.fabno.toNat)

/-- The completion word (21 R381). -/
def collWord (status detail flags chunks : Nat) : Nat := packed [(0, status), (8, detail), (16, flags), (32, chunks)]

/-- Puts a collective in the place of what the unit held of it. -/
def State.putColl (s : State) (c : Coll) : State := { s with colls := s.colls.filter (fun o => o.id != c.id) ++ [c] }

/-- A collective is over. -/
def State.dropColl (s : State) (c : Coll) : State := { s with colls := s.colls.filter fun o => o.id != c.id }

/-- The other members hear that a member's collective has ended without them (21 R381, R382). -/
def State.abandon (s : State) (c : Coll) : State := { s with abandons := s.abandons ++ c.abandons s.mgmt.fabno.toNat }

/-- Has everything that the wafer's agents wrote been applied, and every copy it made stale been told so? -/
def State.agentsQuiet (s : State) : Bool :=
  s.msgs.all fun m => !m.2.body.ofAgent && match m.2.body with | .inval _ _ .nobody => false | _ => true

/-- Ends a collective whose completion word is unusable with a deferred engine fault, which belongs to no launch (21 R381). -/
def State.collFault (s : State) (c : Coll) (va : Nat) (x : XFault) : State :=
  let s := (s.abandon c).dropColl c
  let core := agentCore (s.domOfPart c.part)
  let f := { s.baseRec core c.ctx 0 0 0 with
    kind := 0x0B, engine := true, lcore := 0, pcore := 0, va := va, line := va / 128 * 128, pa := x.pa, level := x.level, stage := x.stage }
  { s with nextId := s.nextId + 1, faults := s.faults.put s.nextId f }

/-- A decided collective writes its completion word once its destination has been released at system scope; then it is over. One that has failed
tells the other members (21 R381). -/
def State.finishColl (s : State) (c : Coll) (word : Nat) : Out :=
  let s := s.putColl { c with outcome := some word }
  if !s.agentsQuiet then .next s
  else
    let core := agentCore (s.domOfPart c.part)
    let ended := fun (s : State) => (if word % 256 = 4 then s.abandon c else s).dropColl c
    match s.deviceWrite core c.ctx c.desc.cw 8 word with
    | .ok s => .next (ended s)
    | .error (.fault _ va x) => .next (s.collFault c va x)
    | .error e => s.waitFor e

/-- A descriptor taken from a ring is posted. One of a killed context is abandoned (21 R382); one whose completion word cannot be written faults; a
malformed one, one of another partition's group, and one of a group this wafer is not in complete with status 4 (21 R379, R381). -/
def State.postColl (s : State) (b : QueueBind) (x : Nat) : Out :=
  let d := CollDesc.ofNat x
  let (part, members) := s.group d.group
  let c : Coll := ⟨s.nextId, d, b.ctx, b.part, members, none⟩
  let s := { s with nextId := s.nextId + 1 }
  if b.killed then .next (s.abandon c)
  else if !d.cwUsable then .next (s.collFault c (d.cw % 2 ^ 55) .plain)
  else if d.malformed || part != b.part || (c.self s).isNone || (d.op == 3 && decide (members.length ≤ d.root)) then
    s.finishColl c (collWord 4 0 0 0)
  else .next (s.putColl c)

/-- COLLECTIVE_DESCRIPTOR (21 R379, R381): the descriptor at rd of a ring is taken. -/
def execCollectiveDescriptor (slot : Nat) (ext : List (Nat × Nat)) (s : State) : Out :=
  match s.queues.find? slot with
  | none => .next s
  | some b =>
    if !b.collective then .next s
    else match s.readQueue b 64 ext with
      | (_, .error e) => s.waitFor e
      | (s, .ok none) => .next s
      | (s, .ok (some (q, x))) =>
        match s.advanceQueue b q with
        | .error e => s.waitFor e
        | .ok s => s.postColl b x

/-! ## Combination (21 R380) -/

/-- One step of an all-reduce on bit patterns: result and flags. -/
def collCombine (type op : Nat) (r x : Nat) : Nat × Flags :=
  let fp := fun (f : Fmt) =>
    let a := FVal.read f false r
    let b := FVal.read f false x
    if op = 0 then fAdd f .rne false a b else fMinMax f (op == 2) a b
  match type with
  | 0 => fp .f32
  | 1 => fp .f64
  | 2 => if op = 0 then ((r + x) % 2 ^ 32, 0) else (if (decide (sxNat r 32 < sxNat x 32) == (op == 2)) then x else r, 0)
  | _ => if op = 0 then ((r + x) % 2 ^ 32, 0) else (if (decide (r < x) == (op == 2)) then x else r, 0)

/-- Combines the members' values of one element in ascending member order. -/
def combineAll (type op : Nat) : List Nat → Nat × Flags
  | [] => (0, 0)
  | x :: rest => rest.foldl (fun a y => let r := collCombine type op a.1 y; (r.1, a.2 ||| r.2)) (x, 0)

/-- What the members' elements give: the destination's elements and the flags. -/
def CollDesc.result (d : CollDesc) (xs : List (List Nat)) : List Nat × Flags :=
  match d.op with
  | 3 => (xs.getD d.root [], 0)
  | 4 => (xs.flatten, 0)
  | op =>
    let rs := (List.range d.count).map fun e => combineAll d.type op (xs.map fun x => x.getD e 0)
    (rs.map (·.1), (rs.map (·.2)).foldl (· ||| ·) 0)

/-- Elements as one little-endian number. -/
def elemsNat (size : Nat) : List Nat → Nat
  | [] => 0
  | x :: rest => x % 2 ^ (8 * size) + 2 ^ (8 * size) * elemsNat size rest

/-- A number's little-endian elements. -/
def natElems (size : Nat) : Nat → Nat → List Nat
  | 0, _ => []
  | n + 1, x => x % 2 ^ (8 * size) :: natElems size n (x / 2 ^ (8 * size))

/-- Has another member posted something other than this one: op, type, count or root? -/
def CollDesc.differs (d : CollDesc) (p : Peer) : Bool := !(p.op == d.op && p.type == d.type && p.count == d.count && p.root == d.root)

/-- The members' elements in member order, this wafer's read from src after an acquire at system scope; none while some member's are not there. -/
def State.gather (s : State) (c : Coll) (peers : List Peer) (ext : List (Nat × Nat)) : State × Option (Except EngStop (List (List Nat))) :=
  match c.self s with
  | none => (s, none)
  | some me =>
    let d := s.domOfPart c.part
    let s := s.onDomain d fun q => { q with l2 := (q.l2.mapVals fun _ x => s.afterAcquire 3 x).keep fun _ x => x != L2Sector.invalid }
    match s.deviceRead (agentCore d) c.ctx c.desc.src (c.desc.count * c.desc.size) ext with
    | (s, .error e) => (s, some (.error e))
    | (s, .ok x) =>
      let own := natElems c.desc.size c.desc.count x
      let data := (List.range c.members.length).map fun i =>
        if i = me then some own else (peers.find? fun p => p.index == i).map fun p => (List.range c.desc.count).map fun e => p.data.getD e 0
      (s, if data.all Option.isSome then some (.ok (data.map fun x => x.getD [])) else none)

/-- Bytes of a chunk of a destination (21 R380). -/
def chunkBytes : Nat := 4096

/-- Writes the chunks of a destination in ascending order, `n` of them from chunk `k` on; answers how many it has written, and whether a fault came
before the next. -/
def State.writeChunks (s : State) (core : Nat) (c : Coll) (total x : Nat) : Nat → Nat → Except EngStop (State × Nat × Bool)
  | 0, k => .ok (s, k, false)
  | n + 1, k =>
    let at_ := chunkBytes * k
    match s.deviceWrite core c.ctx (c.desc.dst + at_) (min chunkBytes (total - at_)) (x >>> (8 * at_)) with
    | .ok s => State.writeChunks s core c total x n (k + 1)
    | .error (.fault ..) => .ok (s, k, true)
    | .error e => .error e

/-- What writing a collective's destination gives: the state, the chunks that hold final values, the flags of their elements, and whether it has
faulted. -/
structure Scattered where
  s : State
  chunks : Nat
  flags : Flags
  faulted : Bool

/-- Writes a collective's destination, at most `limit` chunks of it. -/
def State.scatter (s : State) (c : Coll) (xs : List (List Nat)) (limit : Option Nat) : Except EngStop Scattered :=
  let size := c.desc.size
  let total := (c.desc.result xs).1.length * size
  let all := (total + chunkBytes - 1) / chunkBytes
  let n := match limit with | some k => min all k | none => all
  match s.writeChunks (agentCore (s.domOfPart c.part)) c total (elemsNat size (c.desc.result xs).1) n 0 with
  | .error e => .error e
  | .ok (s, k, faulted) =>
    let firsts := ({ c.desc with count := min c.desc.count (chunkBytes * k / size) } : CollDesc)
    .ok ⟨s, k, (firsts.result xs).2, faulted⟩

/-- Decides a collective that has all its members' elements: its destination is written, all of it or its first chunks, and `word` gives the
completion word of chunks and flags; a fault on src or dst completes it with status 4, with the chunks written before it. -/
def State.settleColl (s : State) (c : Coll) (peers : List Peer) (ext : List (Nat × Nat)) (limit : Option Nat) (word : Nat → Flags → Nat) : Out :=
  match s.gather c peers ext with
  | (_, none) => .next s
  | (s, some (.error (.fault ..))) => s.finishColl c (collWord 4 0 0 0)
  | (s, some (.error e)) => s.waitFor e
  | (s, some (.ok xs)) =>
    match s.scatter c xs limit with
    | .ok w => w.s.finishColl c (if w.faulted then collWord 4 0 w.flags.toNat w.chunks else word w.chunks w.flags)
    | .error e => s.waitFor e

/-- The posted collective of a group and a sequence number: one that is decided before others, and of these the one posted first. -/
def State.coll? (s : State) (group seq : Nat) : Option Coll :=
  let mine := s.colls.filter fun c => c.desc.group == group && c.desc.seq == seq
  (List.find? (fun c => c.outcome.isSome) mine).or mine.head?

/-- COLLECTIVE_COMPLETE (21 R380, R381): with every member's descriptor at hand, the members agree and the result is written; or they differ (status
3); or one has failed (status 2, detail 1). -/
def execCollectiveComplete (group seq : Nat) (peers : List Peer) (ext : List (Nat × Nat)) (s : State) : Out :=
  match s.coll? group seq with
  | none => .next s
  | some c =>
    match c.outcome with
    | some w => s.finishColl c w
    | none =>
      if peers.any Peer.failed then s.finishColl c (collWord 2 1 0 0)
      else if !((List.range c.members.length).all fun i => c.self s == some i || peers.any fun p => p.index == i) then .next s
      else if peers.any c.desc.differs then s.finishColl c (collWord 3 0 0 0)
      else s.settleColl c peers ext none fun chunks flags => collWord 1 0 flags.toNat chunks

/-- Is some member's wafer out of reach (21 R378, R382)? -/
def State.memberLost (s : State) (c : Coll) : Bool := c.members.any s.lostWafers.contains

/-- COLLECTIVE_ABANDON (21 R382): the collective ends with status 2, its first chunks final; detail 1: a peer's abandon message has come; detail 2:
a member cannot be reached, and nothing happens while every one can. -/
def execCollectiveAbandon (group seq detail chunks : Nat) (peers : List Peer) (ext : List (Nat × Nat)) (s : State) : Out :=
  match s.coll? group seq with
  | none => .next s
  | some c =>
    let detail := if detail = 2 then 2 else 1
    match c.outcome with
    | some w => s.finishColl c w
    | none =>
      if detail = 2 && !s.memberLost c then .next s
      else if chunks = 0 then s.finishColl c (collWord 2 detail 0 0)
      else s.settleColl c peers ext (some chunks) fun chunks flags => collWord 2 detail flags.toNat chunks

end Sys2Proof.Machine
end

