-- ==== Sys2Proof/Machine/Fp.lean ====
section
/-! DEFINITION. F32, F64, F16X2, FUN and CVT: floating-point lanes, packed halves, functions and conversions (06 R121 to R131). -/

namespace Sys2Proof.Machine

/-- A floating-point operation in a format, under a rounding mode and flushing, on three encodings. -/
abbrev FpFn := Fmt → RMode → Bool → Nat → Nat → Nat → FRes

/-- An operation on values in place of encodings. -/
def onVals2 (g : Fmt → RMode → Bool → FVal → FVal → FRes) : FpFn :=
  fun f rm fz a b _ => g f rm fz (FVal.read f fz a) (FVal.read f fz b)

/-- A unary operation on a value. -/
def onVals1 (g : Fmt → RMode → Bool → FVal → FRes) : FpFn := fun f rm fz a _ _ => g f rm fz (FVal.read f fz a)

/-- A fused operation: the signs of the product and the addend as given (06 R123). -/
def onFma (negP negC : Bool) : FpFn := fun f rm fz a b c =>
  let v := FVal.read f fz a
  let w := FVal.read f fz c
  fFma f rm fz (if negP then v.neg else v) (FVal.read f fz b) (if negC then w.neg else w)

/-- a − b (06 R123). -/
def fSub (f : Fmt) (rm : RMode) (fz : Bool) (a b : FVal) : FRes := fAdd f rm fz a b.neg

/-- The environment of an instruction with its HT hint. -/
def Issuer.rm (x : Issuer) : RMode := roundMode x.reel x.cur.bundle.hints.ht
/-- Does the instruction flush (03 R64)? -/
def Issuer.fz (x : Issuer) : Bool := flushes x.reel x.cur.bundle.hints.ht

/-- An operation in a lane of a scalar format of 32 or 64 bits. -/
def fpLane (f : Fmt) (rm : RMode) (fz : Bool) (g : FpFn) : LaneFn := fun _ a b c =>
  let r := g f rm fz a.toNat b.toNat c.toNat
  (BitVec.ofNat 64 r.1, r.2)

/-- An operation on both halves of a lane (06 R127). -/
def packedLane (f : Fmt) (rm : RMode) (fz : Bool) (g : FpFn) : LaneFn := fun _ a b c =>
  let lo := g f rm fz (a.toNat % 2 ^ 16) (b.toNat % 2 ^ 16) (c.toNat % 2 ^ 16)
  let hi := g f rm fz (a.toNat / 2 ^ 16 % 2 ^ 16) (b.toNat / 2 ^ 16 % 2 ^ 16) (c.toNat / 2 ^ 16 % 2 ^ 16)
  (BitVec.ofNat 64 (hi.1 * 2 ^ 16 + lo.1), lo.2 ||| hi.2)

/-- The addend of a fused instruction: the destination, or the register of HX; a payload beyond it or a register beyond the reel is a fault
of the hint word (06 R125). -/
def Issuer.withAddend (x : Issuer) (k : CSrc → Out) : Out :=
  match x.cur.bundle.hints.hx with
  | none => k .dest
  | some p =>
    if p.extractLsb' 7 16 ≠ 0 ∨ x.block.desc.vregs ≤ (p.setWidth 7 : BitVec 7).toNat then x.illegalHint 0 p
    else k (.vec (p.setWidth 7 : BitVec 7).toNat)

/-- A binary operation of F32 (`wide = false`) or F64. -/
def fp2 (wide : Bool) (g : FpFn) (f : V3) (s : State) : Out :=
  withIssuer s fun x =>
    if f.ok wide wide wide then
      x.vector ⟨f.vd.toNat, f.va.toNat, bsrcOf f.sb f.vb, .none, wide, wide, wide, true⟩
        (fpLane (if wide then .f64 else .f32) x.rm x.fz g)
    else x.illegal

/-- A fused operation of F32 or F64 (06 R123, R125). -/
def fp3 (wide : Bool) (g : FpFn) (f : V3) (s : State) : Out :=
  withIssuer s fun x =>
    x.withAddend fun c =>
      if f.ok wide wide wide then
        x.vector ⟨f.vd.toNat, f.va.toNat, bsrcOf f.sb f.vb, c, wide, wide, wide, true⟩
          (fpLane (if wide then .f64 else .f32) x.rm x.fz g)
      else x.illegal

/-- A unary operation of a 32-bit or 64-bit format. -/
def fp1 (wide : Bool) (g : FpFn) (f : V2) (s : State) : Out :=
  withIssuer s fun x =>
    if f.ok wide wide then
      x.vector ⟨f.vd.toNat, f.va.toNat, .none, .none, wide, wide, false, true⟩
        (fpLane (if wide then .f64 else .f32) x.rm x.fz g)
    else x.illegal

/-- A binary operation on packed halves (06 R127). -/
def half2 (fmt : Fmt) (g : FpFn) (f : V3) (s : State) : Out :=
  withIssuer s fun x =>
    if f.ok false false false then
      x.vector ⟨f.vd.toNat, f.va.toNat, bsrcOf f.sb f.vb, .none, false, false, false, true⟩ (packedLane fmt x.rm x.fz g)
    else x.illegal

/-- A fused operation on packed halves (06 R127, R125). -/
def half3 (fmt : Fmt) (g : FpFn) (f : V3) (s : State) : Out :=
  withIssuer s fun x =>
    x.withAddend fun c =>
      if f.ok false false false then
        x.vector ⟨f.vd.toNat, f.va.toNat, bsrcOf f.sb f.vb, c, false, false, false, true⟩ (packedLane fmt x.rm x.fz g)
      else x.illegal

/-- Minimum and maximum (03 R68). -/
def onMinMax (mx : Bool) : FpFn := onVals2 fun f _ _ a b => fMinMax f mx a b

/-- The top bit of a format of 32 or 64 bits. -/
def signAt (wide : Bool) : Nat := if wide then 2 ^ 63 else 2 ^ 31

/-- A bit operation on the sign, which raises nothing and ignores flushing (06 R124). -/
def signOp1 (wide : Bool) (g : Nat → Nat) (f : V2) (s : State) : Out := fp1 wide (fun _ _ _ a _ _ => (g a, 0)) f s

/-- F32 fn 0 (06 R123). -/
def execFaddF32 (f : V3) (s : State) : Out := fp2 false (onVals2 fAdd) f s
/-- F32 fn 1 (06 R123). -/
def execFsubF32 (f : V3) (s : State) : Out := fp2 false (onVals2 fSub) f s
/-- F32 fn 2 (06 R123). -/
def execFmulF32 (f : V3) (s : State) : Out := fp2 false (onVals2 fMul) f s
/-- F32 fn 3: a · b + c (06 R123). -/
def execFfmaF32 (f : V3) (s : State) : Out := fp3 false (onFma false false) f s
/-- F32 fn 4: a · b − c (06 R123). -/
def execFfmsF32 (f : V3) (s : State) : Out := fp3 false (onFma false true) f s
/-- F32 fn 5: −(a · b) + c (06 R123). -/
def execFnmaF32 (f : V3) (s : State) : Out := fp3 false (onFma true false) f s
/-- F32 fn 6 (06 R123). -/
def execFminF32 (f : V3) (s : State) : Out := fp2 false (onMinMax false) f s
/-- F32 fn 7 (06 R123). -/
def execFmaxF32 (f : V3) (s : State) : Out := fp2 false (onMinMax true) f s
/-- F32 fn 8 (06 R123, R124). -/
def execFabsF32 (f : V2) (s : State) : Out := signOp1 false (· % signAt false) f s
/-- F32 fn 9 (06 R123, R124). -/
def execFnegF32 (f : V2) (s : State) : Out := signOp1 false (· ^^^ signAt false) f s
/-- F32 fn 10: a's magnitude with b's sign (06 R123, R124). -/
def execFcsgnF32 (f : V3) (s : State) : Out :=
  fp2 false (fun _ _ _ a b _ => (a % signAt false + b / signAt false * signAt false, 0)) f s

/-- F64 fn 0 (06 R123). -/
def execFaddF64 (f : V3) (s : State) : Out := fp2 true (onVals2 fAdd) f s
/-- F64 fn 1 (06 R123). -/
def execFsubF64 (f : V3) (s : State) : Out := fp2 true (onVals2 fSub) f s
/-- F64 fn 2 (06 R123). -/
def execFmulF64 (f : V3) (s : State) : Out := fp2 true (onVals2 fMul) f s
/-- F64 fn 3 (06 R123). -/
def execFfmaF64 (f : V3) (s : State) : Out := fp3 true (onFma false false) f s
/-- F64 fn 4 (06 R123). -/
def execFfmsF64 (f : V3) (s : State) : Out := fp3 true (onFma false true) f s
/-- F64 fn 5 (06 R123). -/
def execFnmaF64 (f : V3) (s : State) : Out := fp3 true (onFma true false) f s
/-- F64 fn 6 (06 R123). -/
def execFminF64 (f : V3) (s : State) : Out := fp2 true (onMinMax false) f s
/-- F64 fn 7 (06 R123). -/
def execFmaxF64 (f : V3) (s : State) : Out := fp2 true (onMinMax true) f s
/-- F64 fn 8 (06 R123, R124). -/
def execFabsF64 (f : V2) (s : State) : Out := signOp1 true (· % signAt true) f s
/-- F64 fn 9 (06 R123, R124). -/
def execFnegF64 (f : V2) (s : State) : Out := signOp1 true (· ^^^ signAt true) f s
/-- F64 fn 10 (06 R123, R124). -/
def execFcsgnF64 (f : V3) (s : State) : Out :=
  fp2 true (fun _ _ _ a b _ => (a % signAt true + b / signAt true * signAt true, 0)) f s

/-- F16X2 fn 0 (06 R127). -/
def execHaddF16 (f : V3) (s : State) : Out := half2 .f16 (onVals2 fAdd) f s
/-- F16X2 fn 1 (06 R127). -/
def execHmulF16 (f : V3) (s : State) : Out := half2 .f16 (onVals2 fMul) f s
/-- F16X2 fn 2 (06 R127). -/
def execHfmaF16 (f : V3) (s : State) : Out := half3 .f16 (onFma false false) f s
/-- F16X2 fn 3 (06 R127). -/
def execHminF16 (f : V3) (s : State) : Out := half2 .f16 (onMinMax false) f s
/-- F16X2 fn 4 (06 R127). -/
def execHmaxF16 (f : V3) (s : State) : Out := half2 .f16 (onMinMax true) f s
/-- F16X2 fn 8 (06 R127). -/
def execHaddBf16 (f : V3) (s : State) : Out := half2 .bf16 (onVals2 fAdd) f s
/-- F16X2 fn 9 (06 R127). -/
def execHmulBf16 (f : V3) (s : State) : Out := half2 .bf16 (onVals2 fMul) f s
/-- F16X2 fn 10 (06 R127). -/
def execHfmaBf16 (f : V3) (s : State) : Out := half3 .bf16 (onFma false false) f s
/-- F16X2 fn 11 (06 R127). -/
def execHminBf16 (f : V3) (s : State) : Out := half2 .bf16 (onMinMax false) f s
/-- F16X2 fn 12 (06 R127). -/
def execHmaxBf16 (f : V3) (s : State) : Out := half2 .bf16 (onMinMax true) f s

/-- FUN fn 0 (06 R128). -/
def execFrcpF32 (f : V2) (s : State) : Out := fp1 false (onVals1 fRcp) f s
/-- FUN fn 1 (06 R128). -/
def execFrsqF32 (f : V2) (s : State) : Out := fp1 false (onVals1 fRsq) f s
/-- FUN fn 2 (06 R128). -/
def execFsqrtF32 (f : V2) (s : State) : Out := fp1 false (onVals1 fSqrt) f s
/-- FUN fn 3 (06 R128). -/
def execFexp2F32 (f : V2) (s : State) : Out := fp1 false (onVals1 fExp2) f s
/-- FUN fn 4 (06 R128). -/
def execFlog2F32 (f : V2) (s : State) : Out := fp1 false (onVals1 fLog2) f s
/-- FUN fn 5 (06 R128). -/
def execFfloorF32 (f : V2) (s : State) : Out := fp1 false (onVals1 fun f _ _ a => fIntegral f .rd false a) f s
/-- FUN fn 6 (06 R128). -/
def execFceilF32 (f : V2) (s : State) : Out := fp1 false (onVals1 fun f _ _ a => fIntegral f .ru false a) f s
/-- FUN fn 7 (06 R128). -/
def execFtruncF32 (f : V2) (s : State) : Out := fp1 false (onVals1 fun f _ _ a => fIntegral f .rz false a) f s
/-- FUN fn 8 (06 R128). -/
def execFrintF32 (f : V2) (s : State) : Out := fp1 false (onVals1 fun f rm _ a => fIntegral f rm true a) f s
/-- FUN fn 9 (06 R129). -/
def execFclassF32 (f : V2) (s : State) : Out := fp1 false (onVals1 fun f _ _ a => fClass f a) f s
/-- FUN fn 10 (06 R128). -/
def execFdivF32 (f : V3) (s : State) : Out := fp2 false (onVals2 fDiv) f s
/-- FUN fn 11 (06 R128). -/
def execFsqrtF64 (f : V2) (s : State) : Out := fp1 true (onVals1 fSqrt) f s
/-- FUN fn 12 (06 R128). -/
def execFrcpF64 (f : V2) (s : State) : Out := fp1 true (onVals1 fRcp) f s
/-- FUN fn 13 (06 R128). -/
def execFdivF64 (f : V3) (s : State) : Out := fp2 true (onVals2 fDiv) f s

/-! ## Conversion -/

/-- A type of CVT (06 R130): a float of a format, or an integer of a width, signed or not. -/
inductive CvtType where
  | flt (f : Fmt)
  | int (bits : Nat) (signed : Bool)
  deriving DecidableEq, Repr

/-- The type of a code (06 R130). -/
def CvtType.ofCode (n : Nat) : CvtType :=
  match n with
  | 0 => .int 32 true | 1 => .int 32 false | 2 => .int 64 true | 3 => .int 64 false
  | 4 => .flt .f32 | 5 => .flt .f64 | 6 => .flt .f16 | 7 => .flt .bf16 | 8 => .flt .e4m3 | 9 => .flt .e5m2
  | 10 => .int 8 true | 11 => .int 8 false | 12 => .int 16 true | _ => .int 16 false

/-- The least value of an integer type (03 R57). -/
def intMin (bits : Nat) (signed : Bool) : Int := if signed then -2 ^ (bits - 1) else 0
/-- The greatest value of an integer type (03 R57). -/
def intMax (bits : Nat) (signed : Bool) : Int := if signed then 2 ^ (bits - 1) - 1 else 2 ^ bits - 1

/-- An integer as it stands in a register: a narrow one extended to 32 bits by its signedness (03 R58). -/
def placeInt (bits : Nat) (v : Int) (signed : Bool) : Nat :=
  let low : Int := if signed then sxNat (wrapInt v bits) bits else wrapInt v bits
  wrapInt low (if bits = 64 then 64 else 32)

/-- The integer value of a source (03 R58). -/
def readInt (bits : Nat) (signed : Bool) (x : Nat) : Int := if signed then sxNat x bits else (x % 2 ^ bits : Nat)

/-- A conversion between two types (06 R131): `sat` is code 5. -/
def convert (dst src : CvtType) (rm : RMode) (fz : Bool) (x : Nat) : FRes :=
  match src, dst with
  | .flt a, .flt b => cvtFF b rm fz (FVal.read a fz x)
  | .flt a, .int n sg =>
    let r := cvtFI (intMin n sg) (intMax n sg) rm (FVal.read a fz (x % 2 ^ a.width))
    (placeInt n r.1 sg, r.2)
  | .int n sg, .flt b => cvtIF b rm fz (readInt n sg x)
  | .int n sg, .int m tg =>
    let v := readInt n sg x
    let v := if rm = .sat then max (intMin m tg) (min v (intMax m tg)) else v
    (placeInt m v tg, 0)

/-- A conversion to type code `dst`: a rounding code of the word beside a rounding of HT is illegal (02 R35). -/
def cvtTo (dst : Nat) (f : CvtOp) (s : State) : Out :=
  withIssuer s fun x =>
    let htRnd : BitVec 3 := match x.cur.bundle.hints.ht with | some p => p.setWidth 3 | none => 0
    if !f.ok dst || (f.rnd != 0 && htRnd != 0) then x.illegal
    else
      let rm := if f.rnd = 0 then x.rm else RMode.ofCode f.rnd.toNat
      x.vector ⟨f.vd.toNat, f.va.toNat, .none, .none, cvtWide dst, cvtWide f.src.toNat, false, true⟩ fun _ a _ _ =>
        let r := convert (.ofCode dst) (.ofCode f.src.toNat) rm x.fz a.toNat
        (BitVec.ofNat 64 r.1, r.2)

/-- CVT fn 0 (06 R131). -/
def execCvtI32 (f : CvtOp) (s : State) : Out := cvtTo 0 f s
/-- CVT fn 1 (06 R131). -/
def execCvtZ32 (f : CvtOp) (s : State) : Out := cvtTo 1 f s
/-- CVT fn 2 (06 R131). -/
def execCvtI64 (f : CvtOp) (s : State) : Out := cvtTo 2 f s
/-- CVT fn 3 (06 R131). -/
def execCvtZ64 (f : CvtOp) (s : State) : Out := cvtTo 3 f s
/-- CVT fn 4 (06 R131). -/
def execCvtF32 (f : CvtOp) (s : State) : Out := cvtTo 4 f s
/-- CVT fn 5 (06 R131). -/
def execCvtF64 (f : CvtOp) (s : State) : Out := cvtTo 5 f s
/-- CVT fn 6 (06 R131). -/
def execCvtF16 (f : CvtOp) (s : State) : Out := cvtTo 6 f s
/-- CVT fn 7 (06 R131). -/
def execCvtBf16 (f : CvtOp) (s : State) : Out := cvtTo 7 f s
/-- CVT fn 8 (06 R131). -/
def execCvtE4m3 (f : CvtOp) (s : State) : Out := cvtTo 8 f s
/-- CVT fn 9 (06 R131). -/
def execCvtE5m2 (f : CvtOp) (s : State) : Out := cvtTo 9 f s
/-- CVT fn 10 (06 R131). -/
def execCvtI8 (f : CvtOp) (s : State) : Out := cvtTo 10 f s
/-- CVT fn 11 (06 R131). -/
def execCvtZ8 (f : CvtOp) (s : State) : Out := cvtTo 11 f s
/-- CVT fn 12 (06 R131). -/
def execCvtI16 (f : CvtOp) (s : State) : Out := cvtTo 12 f s
/-- CVT fn 13 (06 R131). -/
def execCvtZ16 (f : CvtOp) (s : State) : Out := cvtTo 13 f s

end Sys2Proof.Machine
end

