-- ==== Sys2Proof/Machine/HostMem.lean ====
section
/-! DEFINITION. The host's accesses of the device's DRAM, the bias of its pages, and back-invalidate snoops (21 R366, R370 to R372, 22 R385). -/

namespace Sys2Proof.Machine

/-! ## HDM addresses and bias -/

/-- The domain of an HDM offset (21 R366). -/
def hdmDomain (o : Nat) : Nat := bitsOf o 40 35
/-- The device offset of an HDM offset. -/
def hdmOffset (o : Nat) : Nat := bitsOf o 34 0
/-- The physical address of a device offset of a domain. -/
def State.hdmAddr (s : State) (d off : Nat) : Nat := s.mgmt.fabno.toNat * 2 ^ 44 + d * 2 ^ 38 + off

/-- Word `w` of a domain's bias table: two bits for each of 32 pages (21 R370). -/
def Domain.biasWord (q : Domain) (w : Nat) : Nat := ((List.range 32).map fun i => (q.bias.findD 0 (32 * w + i)).toNat * 4 ^ i).sum

/-- Writes word `w` of a domain's bias table to where its base register points; with the register at 0 there is no table in memory. -/
def State.writeBias (s : State) (d w : Nat) : State :=
  let q := s.domain d
  let pa := q.biasBase + 8 * w
  if q.biasBase = 0 then s
  else match s.place pa with
    | .home _ => if s.exists? (pa + 7) then s.physWrite pa 8 (q.biasWord w) else s
    | _ => s

/-- Sets the bias of a page of a domain. -/
def State.setBias (s : State) (d page : Nat) (v : BitVec 2) : State :=
  (s.onDomain d fun q => { q with bias := q.bias.putD 0 page v }).writeBias d (page / 32)

/-- Is a device offset out of reach: its domain is fenced, or its DRAM channel is (21 R366)? -/
def Domain.offsetFenced (q : Domain) (off : Nat) : Bool := q.fenced || q.lostRanges.any fun r => r.1 ≤ off && off < r.1 + r.2

/-! ## Lines -/

/-- The page under which a home knows a physical address, as the frame's entry names it, with its translation (14 R280, R281). -/
def State.framePage (s : State) (pa : Nat) : Option (Nat × Xlat) :=
  let first := pa / 65536 * 65536
  match s.frameEntry first with
  | none => none
  | some a =>
    let e := s.physRead a 8
    let page := bitsOf e 54 16
    let known := ((s.domain (paDomain pa)).xlats.find? page).filter fun t => t.pa == first
    if e.testBit 63 then some (page, known.getD ⟨first, 0, 32, false⟩) else none

/-- The sector that holds the bytes of a sector of DRAM once they are written: none yet, and a page that names it. -/
def State.homeOfSector (s : State) (pa : Nat) : Option (Nat × Xlat) :=
  match s.framePage pa with
  | some (page, t) =>
    let sec := (page * 65536 + pa % 65536) / 32
    if (s.sector (paDomain pa) sec).held.isNone then some (sec, t) else none
  | none => none

/-- Writes bytes of one sector of a home's DRAM into the home's slice, where they are Dirty; memory that no page names takes them itself (21 R371,
R372). -/
def State.mergeSector (s : State) (pa : Nat) (data : BitVec 256) (mask : BitVec 32) : State :=
  let d := paDomain pa
  if mask = 0 ∨ s.inBiasTable pa then s
  else if ((s.domain d).heldAt pa).isSome then
    let patch := fun (h : Held) =>
      if h.kind ≠ .guest ∧ h.pa = pa then { h with kind := .dirty, data := mergeBytes 32 h.data data mask.toNat } else h
    (s.ringBells (s.bellsOf pa mask)).onDomain d fun q => { q with l2 := q.l2.mapVals fun _ e => { e with held := e.held.map patch } }
  else match s.homeOfSector pa with
    | some (sec, t) => s.writeSector d sec t data mask
    | none =>
      let old := BitVec.ofNat 256 (Memory.readNat s.mem pa 32)
      let s := s.ringBells (s.bellsOf pa mask)
      { s with mem := Memory.writeNat s.mem pa 32 (mergeBytes 32 old data mask.toNat).toNat }

/-- Merges bytes of a 64-byte line that the host writes, and publishes them as any write at the home (14 R275, 21 R371, R372). -/
def State.hostMerge (s : State) (d pa data mask : Nat) : State :=
  let half := fun (s : State) (j : Nat) =>
    s.mergeSector (pa + 32 * j) (BitVec.ofNat 256 (data >>> (256 * j))) (BitVec.ofNat 32 (mask >>> (32 * j)))
  (half (half s 0) 1).publishRange d pa 64

/-- Invalidates the guests of a line that the host takes to own; the watchers stay. -/
def State.dropGuests (s : State) (d pa : Nat) : State :=
  ((s.domain d).entriesAt pa 64).foldl (fun s e =>
    let s := ((List.range 64).filter fun g => e.2.sharers.getLsbD g).foldl (fun s g => s.send ⟨d, g, 0, false, .inval e.2.va e.2.grain .nobody⟩) s
    s.onDomain d fun q =>
      { q with dir := if e.2.watchers.isEmpty then q.dir.del e.1 else q.dir.put e.1 { e.2 with sharers := 0 } }) s

/-! ## Host accesses (21 R366, R371) -/

/-- What becomes of a host access of a device offset: it meets no memory, it waits, or it is served after its page has gone to host bias. -/
inductive HdmGate where
  | refused | waits | served
  deriving DecidableEq, Repr

/-- A host access before ready or of a fenced range is refused; one waits while a drain runs, while its page goes to device bias, while a snoop of
its line is out, and while the domain has no power (21 R366, R372, R383, 22 R385). -/
def State.hdmGate (s : State) (d off : Nat) : HdmGate :=
  let q := s.domain d
  if !s.mgmt.ready || q.offsetFenced off then .refused
  else if s.mgmt.drainRunning || q.regFailed || q.biasOf (off / 64) == 2 || (q.biOut.any fun o => o.1 == off / 64) then .waits
  else .served

/-- Logs an access that the range refuses. -/
def State.logFenced (s : State) : State := { s with mgmt := { s.mgmt with cxFenced := s.mgmt.cxFenced + 1 } }

/-- Brings a page to host bias: through state 3 to 1 (21 R371). -/
def State.toHostBias (s : State) (d page : Nat) : State := (s.setBias d page 3).setBias d page 1

/-- 64-byte lines a host snoop filter holds. -/
def filterLines : Nat := 2 ^ 18

/-- Sends BISnpInv for lines, unless it is out already. -/
def State.snoopInv (s : State) (d : Nat) (lines : List Nat) : State :=
  s.onDomain d fun q => { q with biOut := q.biOut ++ (lines.filter fun l => !q.biOut.contains (l, true)).map fun l => (l, true) }

/-- Records a line as held by the host; in a full filter the oldest line is asked back first. -/
def State.recordLine (s : State) (d line : Nat) (own : Bool) : State × Bool :=
  let q := s.domain d
  if q.snoop.any fun e => e.1 == line then
    (s.setDomain d { q with snoop := q.snoop.map fun e => if e.1 = line then (line, own) else e }, true)
  else if q.snoop.length < filterLines then (s.setDomain d { q with snoop := q.snoop ++ [(line, own)] }, true)
  else (s.snoopInv d ((q.snoop.take 1).map (·.1)), false)

/-- HOST_HDM_READ (21 R371): the host reads a line, to own it or not. -/
def execHostHdmRead (offset : Nat) (own : Bool) (s : State) : Out :=
  let d := hdmDomain offset
  let off := hdmOffset offset / 64 * 64
  match s.hdmGate d off with
  | .refused => .next { s.logFenced with answer := some (.hdmRead true 0) }
  | .waits => .next s
  | .served =>
    let s := if (s.domain d).biasOf (off / 64) = 1 then s else s.toHostBias d (off / 4096)
    match s.recordLine d (off / 64) own with
    | (s, false) => .next s
    | (s, true) =>
      let pa := s.hdmAddr d off
      let data := s.physRead pa 32 + s.physRead (pa + 32) 32 * 2 ^ 256
      let s := if own then s.dropGuests d pa else s
      .next { s with answer := some (.hdmRead false (BitVec.ofNat 512 data)) }

/-- HOST_HDM_WRITE (21 R371): the host writes bytes of a line. -/
def execHostHdmWrite (offset data mask : Nat) (s : State) : Out :=
  let d := hdmDomain offset
  let off := hdmOffset offset / 64 * 64
  match s.hdmGate d off with
  | .refused => .next { s.logFenced with answer := some (.hdmWrite true) }
  | .waits => .next s
  | .served =>
    let s := if (s.domain d).biasOf (off / 64) = 1 then s else s.toHostBias d (off / 4096)
    .next { s.hostMerge d (s.hdmAddr d off) data mask with answer := some (.hdmWrite false) }

/-! ## Bias commands and snoop responses (21 R372) -/

/-- The lines of a page in the host snoop filter. -/
def Domain.hostLinesOf (q : Domain) (page : Nat) : List Nat := (q.snoop.map (·.1)).filter fun l => l / 64 == page

/-- Answers a bias command. -/
def State.biasAnswer (s : State) (status : Nat) : State := { s with answer := some (.bias status) }

/-- A page in state 2 of which the host holds no line goes to device bias, and its command is done. -/
def State.finishBias (s : State) (d page : Nat) : State :=
  let q := s.domain d
  if q.bias.findD 0 page = 2 ∧ (q.hostLinesOf page).isEmpty then (s.setBias d page 0).biasAnswer 0 else s

/-- A bias command of a page: refused with 2 in a fenced range and 1 while the page is in transition. -/
def State.biasCommand (s : State) (offset : Nat) (k : Nat → Nat → State) : State :=
  let d := hdmDomain offset
  let page := hdmOffset offset / 4096
  let q := s.domain d
  if q.offsetFenced (4096 * page) then s.biasAnswer 2
  else if q.bias.findD 0 page = 2 ∨ q.bias.findD 0 page = 3 then s.biasAnswer 1
  else k d page

/-- BIAS_TO_DEVICE (21 R372): the page enters state 2 and every line the host holds is asked back. -/
def execBiasToDevice (offset : Nat) (s : State) : Out :=
  .next (s.biasCommand offset fun d page =>
    let s := s.setBias d page 2
    (s.snoopInv d ((s.domain d).hostLinesOf page)).finishBias d page)

/-- BIAS_TO_HOST (21 R372). -/
def execBiasToHost (offset : Nat) (s : State) : Out :=
  .next (s.biasCommand offset fun d page => (s.setBias d page 1).biasAnswer 0)

/-- BIRSP_ARRIVAL (21 R371, R372): the host answers the oldest snoop of a line, with its write-back if it has one; after BISnpInv it holds the line no
more, after BISnpData it holds it shared. -/
def execBirspArrival (dom line : Nat) (data : Option Nat) (s : State) : Out :=
  inDomain dom s fun s =>
    let q := s.domain dom
    match q.biOut.find? fun o => o.1 == line with
    | none => .next s
    | some o =>
      let s := match data with
        | some x => s.hostMerge dom (s.hdmAddr dom (64 * line)) x (2 ^ 64 - 1)
        | none => s
      let s := s.onDomain dom fun q =>
        { q with biOut := q.biOut.erase o
                 snoop := if o.2 then q.snoop.filter fun e => e.1 != line else q.snoop.map fun e => if e.1 = line then (line, false) else e }
      .next (s.finishBias dom (line / 64))

end Sys2Proof.Machine
end

