-- ==== Sys2Proof/Machine/Manage.lean ====
section
/-! DEFINITION. Writes of management registers that have no event of their own, partitions and the connection matrix, and configuration requests (18
R323, R332, 22 R385, R391, R392). -/

namespace Sys2Proof.Machine

/-- Answers a write of a management register: done or busy. -/
def State.mgmtAnswer (s : State) (busy : Bool) : State := { s with answer := some (.mgmt busy) }

/-- A write that is busy under a condition, and changes nothing then (22 R392). -/
def State.unlessBusy (s : State) (busy : Bool) (f : State → State) : Out := .next (if busy then s.mgmtAnswer true else (f s).mgmtAnswer false)

/-- Does a partition hold a block? -/
def State.holdsBlock (s : State) (p : Nat) : Bool := s.blocks.any fun b => b.2.part == p

/-- Does a partition's ring hold records that are not resolved? -/
def State.ringBusy (s : State) (p : Nat) : Bool := s.faults.any fun f => s.ringPart f.2 == p && f.2.state == .delivered

/-- STATUS_WRITE (18 R323, 22 R391): writing 1 to bit 5 clears the Banner-moved bit; the other bits are not written. -/
def execStatusWrite (value : Nat) (s : State) : Out :=
  .next { s with mgmt := { s.mgmt with moved := s.mgmt.moved && !value.testBit 5 } }

/-- Does a domain hold nothing of its partition: no block, no line and no directory entry (18 R332)? -/
def State.domainEmpty (s : State) (d : Nat) : Bool :=
  (s.blocks.all fun b => domainOfCore b.2.core != d) && (s.domain d).l2.isEmpty && (s.domain d).dir.isEmpty

/-- PARTITION_WRITE (18 R325, R332): a register of the connection matrix, or a domain's partition, which is busy unless the domain is empty; a change
of partition makes one new generation. -/
def execPartitionWrite (matrix : Bool) (index value : Nat) (s : State) : Out :=
  if matrix then inPart index s fun s => s.unlessBusy false fun s => s.setPart index { s.partn index with conn := BitVec.ofNat 16 value }
  else inDomain index s fun s =>
    s.unlessBusy (!s.domainEmpty index) fun s =>
      if (s.domain index).part = value % 16 then s else (s.onDomain index fun q => { q with part := value % 16 }).newGeneration

/-- Writes a register of a partition. -/
def State.partWrite (s : State) (p : Nat) (busy : Bool) (f : Partition → Partition) : Out :=
  inPart p s fun s => s.unlessBusy busy fun s => s.setPart p (f (s.partn p))

/-- Writes a register of a domain. -/
def State.domWrite (s : State) (d : Nat) (f : Domain → Domain) : Out := inDomain d s fun s => s.unlessBusy false fun s => s.onDomain d f

/-- Writes a register of the module. -/
def State.modWrite (s : State) (busy : Bool) (f : Mgmt → Mgmt) : Out := s.unlessBusy busy fun s => { s with mgmt := f s.mgmt }

/-- The bytes of a held sector that lie in a range of physical addresses, by mask. -/
def Held.maskIn (h : Held) (lo hi : Nat) : Nat :=
  ((List.range 32).filter fun k => decide (lo ≤ h.pa + k) && decide (h.pa + k < hi)).foldl (fun m k => m + 2 ^ k) 0

/-- A held sector with its bytes of a range at 0. -/
def Held.zeroIn (h : Held) (lo hi : Nat) : Held :=
  if h.kind = .guest then h else { h with data := mergeBytes 32 h.data 0 (h.maskIn lo hi) }

/-- Writes zeros to a range of a home's memory, and publishes them (14 R275). -/
def State.zeroRange (s : State) (lo n : Nat) : State :=
  let s := { s with mem := s.mem.filter fun c => decide (c.1 < lo) || decide (lo + n ≤ c.1) }
  (s.onDomain (paDomain lo) fun q =>
    { q with l2 := q.l2.mapVals fun _ e => { e with held := e.held.map fun h => h.zeroIn lo (lo + n) } }).publishRange (paDomain lo) lo n

/-- Gives a domain's bias table its base: the table stands there whole from now on (21 R370; log entry 58). -/
def State.moveBias (s : State) (d base : Nat) : State :=
  let s := match s.place base with
    | .home _ => if base ≠ 0 ∧ s.exists? (base + biasBytes - 1) then s.zeroRange base biasBytes else s
    | _ => s
  let s := s.onDomain d fun q => { q with biasBase := base }
  (((s.domain d).bias.map fun e => e.1 / 32).foldl insertNew []).foldl (fun s w => s.writeBias d w) s

/-- MGMT_REGISTER_WRITE (22 R391, R392): the registers that no other event writes, by offset; `scope` is the partition or the domain. An offset of no
such register changes nothing. A write of ctxsw without a request gives a context its save area; its fields are the model's choice (log entry 40). -/
def execMgmtRegisterWrite (offset scope value : Nat) (s : State) : Out :=
  let v := value % 2 ^ 64
  match offset with
  | 0x10 => s.partWrite scope (s.holdsBlock scope) fun p => { p with ctxtab := v }
  | 0x18 => s.partWrite scope (s.holdsBlock scope) fun p => { p with xlat1 := v }
  | 0x20 => s.partWrite scope (s.holdsBlock scope) fun p => { p with xlat2 := v }
  | 0x28 => s.domWrite scope fun q => { q with frames := v }
  | 0x30 => s.partWrite scope (s.ringBusy scope) fun p => { p with fringBase := v, fringNext := 0 }
  | 0x38 => s.partWrite scope (s.ringBusy scope) fun p => { p with fringSize := v, fringNext := 0 }
  | 0x48 => s.partWrite scope false fun p =>
      { p with save := p.save.put (bitsOf v 63 52) (1024 * bitsOf v 45 0, 2 ^ bitsOf v 51 46) }
  | 0x80 => s.domWrite scope fun q => { q with ctrBase := v, ctrIdx := 0 }
  | 0x88 => s.domWrite scope fun q => { q with ctrSize := v, ctrIdx := 0 }
  | 0xA0 => s.modWrite s.mgmt.drainRunning fun m => { m with drainTarget := v }
  | 0xB0 => inDomain scope s fun s => s.unlessBusy false fun s => s.moveBias scope v
  | 0xB8 => s.modWrite false fun m => { m with hframes := v }
  | 0xC0 => s.modWrite false fun m => { m with dbbase := v }
  | 0xC8 => s.modWrite false fun m => { m with dbreg := v }
  | 0xD0 => if s.mgmt.ready then .next s else s.modWrite false fun m => { m with fabno := BitVec.ofNat 12 v }
  | 0xD8 => s.modWrite false fun m => { m with rroute := v }
  | 0xE0 => s.modWrite false fun m => { m with gtab := v }
  | 0xE8 => s.domWrite scope fun q => { q with ctrThr := v }
  | _ => .next s

/-- CONFIGURATION_REQUEST (21 R365, 22 R385): retry status until ready; then an option outside the column of what is supported is refused. What is
asked for is the host's: a free value (log entry 102). -/
def execConfigurationRequest (s : State) : Out :=
  let option := Config.linkOption s.nextId
  .next { s with nextId := s.nextId + 1, answer := some (.config (if !s.mgmt.ready then 1 else if option.supported then 0 else 2)) }

end Sys2Proof.Machine
end

