-- ==== Sys2Proof/Machine/Matrix.lean ====
section
/-! DEFINITION. The matrix sequencer's loads, products and accumulator words (03 R59, R60, R69 to R73, 11 R222 to R225, R234 to R242). -/

namespace Sys2Proof.Machine

/-! ## Reading tiles of scratchpad through layouts -/

/-- The descriptor of a word, with its q-offset (11 R228). -/
def Block.layoutOf (b : Block) (lay : Nat) (q : Option Nat) : Layout :=
  let d := Layout.ofImage (b.lay lay)
  match q with
  | some n => { d with base := (d.base + (b.getQ n).toNat) % 2 ^ 32 }
  | none => d

/-- The q register of a word whose q-offset bit is set. -/
def qOf (qo : BitVec 1) (q : BitVec 4) : Option Nat := if qo = 1 then some q.toNat else none

/-- The checks of a layout in scratchpad: element code, size0 + 1 and size1 + 1 (11 R231 kind 4, R236). -/
def Block.checkLay (b : Block) (lay : Nat) (q : Option Nat) (esize n0 n1 : Nat) : Except Halt Layout :=
  let d := b.layoutOf lay q
  if d.ok b.desc.spad && d.space == 0 && d.esize == esize && d.size0 + 1 == n0 && d.size1 + 1 == n1 && d.size2 == 0 && d.size3 == 0 then .ok d
  else .error { Halt.of 4 with expected := n0, found := d.size0 + 1, layout := lay }

/-- Reads elements of `n` bytes, or halts on a poisoned word (11 R231 kind 10). -/
def Block.readElems (b : Block) (d : Layout) : Except Halt (List Nat) :=
  match b.poisonAt d.addrs d.elemBytes with
  | some va => .error { Halt.of 10 with va := va }
  | none => .ok (d.addrs.map fun a => b.spadRead a d.elemBytes)

/-- Elements of a list numbered from 0, as a map that reads 0 elsewhere. -/
def numbered (xs : List Nat) : Map Word := ((List.range xs.length).zip xs).foldl (fun m p => Map.putD 0 m p.1 (BitVec.ofNat 32 p.2)) []

/-- Positions along K of an input type: 0 bf16, 1 f16, 2 e4m3, 3 e5m2, 4 i8, 5 f32 (11 R225). -/
def kOf (type : Nat) : Nat := match type with | 0 | 1 => 64 | 5 => 32 | _ => 128

/-- Element code of an input type (11 R236). -/
def esizeOf (type : Nat) : Nat := match type with | 0 | 1 => 1 | 5 | 6 => 2 | _ => 0

/-- Loads a slot from elements read. -/
def Streamer.load (x : Streamer) (slot : Nat) (st : SlotState) (data : Map Word) (d : Layout) : Out :=
  x.advance (x.s.onCore x.block.core fun c => { c with om := c.om.put slot ⟨x.cur.block, st, data⟩ }) (d.onRead x.block d.addrs)

/-- Does a word load a claimed slot (11 R223)? -/
def Streamer.slotHalt (x : Streamer) (slot : Nat) : Option Halt :=
  if (x.s.core x.block.core).slotState x.cur.block slot = 0 then some { Halt.of 2 with slot := slot } else none

/-- The sizes `mload` requires: elements along dimension 0 and 1 (11 R236); of metadata the group count is the layout's own. -/
def loadSizes (f : MLoadOp) (own : Nat) : Nat × Nat :=
  let k := kOf f.type.toNat
  if f.type = 6 then (own, 32) else if f.role = 1 then (32, k) else (k, 32)

/-- Stream major 0x30 fn 2 (11 R236). -/
def execMload (f : MLoadOp) (s : State) : Out :=
  streamWord s fun x =>
    let type := f.type.toNat
    let own := (x.block.layoutOf f.lay.toNat (qOf f.qo f.q)).size0 + 1
    let (n0, n1) := loadSizes f (min own 16)
    if !f.ok then x.halt none (.of 1)
    else
      match x.slotHalt f.slot.toNat with
      | some h => x.halt none h
      | none =>
        match x.block.checkLay f.lay.toNat (qOf f.qo f.q) (esizeOf type) n0 n1 with
        | .error h => x.halt none h
        | .ok d =>
          match x.block.readElems d with
          | .error h => x.halt none h
          | .ok es => x.load f.slot.toNat (.loaded type (f.role == 1) (if type = 6 then n0 else kOf type) 0) (numbered es) d

/-- The value of element `e` of a plane group in its first `k` planes, from the group's words (03 R59, R60). -/
def planeValue (group k e : Nat) : Int :=
  let bit := fun (p : Nat) => if group.testBit (32 * p + e) then (1 : Int) else 0
  (List.range k).foldl (fun a p => if p = 0 then a - 128 * bit 0 else a + 2 ^ (7 - p) * bit p) 0

/-- The elements of plane groups by K position and column: group i0 of column i1 holds positions 32·i0 to 32·i0 + 31 (11 R236). -/
def planeData (k : Nat) (groups : List Nat) : Map Word :=
  ((List.range groups.length).zip groups).foldl (fun m p =>
    (List.range 32).foldl (fun m e =>
      Map.putD 0 m ((32 * (p.1 % 4) + e) * 32 + p.1 / 4) (BitVec.ofInt 32 (planeValue p.2 k e))) m) []

/-- Stream major 0x30 fn 3 (11 R236). -/
def execMloadp (f : MLoadpOp) (s : State) : Out :=
  streamWord s fun x =>
    match x.slotHalt f.slot.toNat with
    | some h => x.halt none h
    | none =>
      match x.block.checkLay f.lay.toNat (qOf f.qo f.q) 5 4 32 with
      | .error h => x.halt none h
      | .ok d =>
        match x.block.readElems d with
        | .error h => x.halt none h
        | .ok gs => x.load f.slot.toNat (.loaded 7 true 128 d.planes) (planeData d.planes gs) d

/-! ## Slots and tiles as operands -/

/-- A loaded slot of a role, and of metadata or planes where asked (11 R223): type, K, planes and contents. -/
def Streamer.loaded (x : Streamer) (slot : Nat) (roleB : Bool) (types : List Nat) : Except Halt (Nat × Nat × Nat × Map Word) :=
  let c := x.s.core x.block.core
  let bad := { Halt.of 2 with slot := slot, found := c.slotState x.cur.block slot }
  match c.om.find? slot with
  | some o =>
    match o.state with
    | .loaded t r k p => if o.owner = x.cur.block ∧ r = roleB ∧ types.contains t then .ok (t, k, p, o.data) else .error bad
    | .empty => .error bad
  | none => .error bad

/-- A tile the block holds in one of the formats; a binary64 pair is even and wholly claimed (11 R222, R231 kind 7). -/
def Streamer.tile (x : Streamer) (n : Nat) (fmts : List Nat) : Except Halt AcTile :=
  let c := x.s.core x.block.core
  match c.ac.find? n with
  | none => .error (.of 7)
  | some t =>
    let pair := match c.ac.find? (n + 1) with | some p => p.owner == x.cur.block && p.fmt == 2 | none => false
    if t.owner = x.cur.block ∧ fmts.contains t.fmt ∧ (t.fmt = 2 → n % 2 = 0 ∧ pair = true) then .ok t
    else .error { Halt.of 7 with found := t.fmt }

/-- Writes a tile. -/
def State.putAc (s : State) (core n : Nat) (t : AcTile) : State := s.onCore core fun c => { c with ac := c.ac.put n t }

/-- The format of a floating-point tile (11 R224). -/
def tileFmt (fmt : Nat) : Fmt := if fmt = 2 then .f64 else .f32

/-- The value of an input element of a type. -/
def inputVal (type : Nat) (x : Nat) : FVal :=
  match type with
  | 0 => FVal.read .bf16 false x
  | 1 => FVal.read .f16 false x
  | 2 => FVal.read .e4m3 false x
  | 3 => FVal.read .e5m2 false x
  | _ => FVal.read .f32 false x

/-- The integer value of an i8 element or a plane integer. -/
def inputInt (type : Nat) (x : Word) : Int := if type = 7 then x.toInt else sxNat x.toNat 8

/-- An exact product as an addend: 0 · ∞ and a NaN operand are NaNs (03 R70). -/
def addendMul (a b : FVal) : FVal := if a.isNaN || b.isNaN then .nan false 0 false else (mulExact a b).getD (.nan false 0 false)

/-! ## Scales (11 R240) -/

/-- How many scale blocks cover Ktot. -/
def scaleBlocks (ktot len : Nat) : Nat := (ktot + len - 1) / len

/-- The scales of one side for a product of `kp` positions: a function of position and row or column; 1 when none are declared. -/
def Block.scales (b : Block) (cursor kp : Nat) : Option Scale → Except Halt (Nat → Nat → FVal)
  | none => .ok fun _ _ => .fin false 1 0
  | some sc =>
    if sc.ktot < cursor + kp then .error { Halt.of 6 with expected := sc.ktot, found := cursor + kp }
    else
      let n0 := scaleBlocks sc.ktot sc.len
      match b.checkLay sc.lay none 2 n0 32 with
      | .error h => .error h
      | .ok d =>
        match b.readElems d with
        | .error h => .error h
        | .ok es =>
          let m := numbered es
          .ok fun k i => FVal.read .f32 false (m.findD 0 (n0 * i + (cursor + k) / sc.len)).toNat

/-- The full bits after the scales of a tile have been read. -/
def Block.afterScales (b : Block) : Option Scale → Block
  | none => b
  | some sc => let d := b.layoutOf sc.lay none; d.onRead b d.addrs

/-! ## Products (03 R69 to R73, 11 R237 to R239) -/

/-- An i32 sum clamped, and whether it clamped (03 R73). -/
def clampAcc (v : Int) : Word × Bool :=
  if 2 ^ 31 - 1 < v then (0x7FFFFFFF, true) else if v < -2 ^ 31 then (0x80000000, true) else (BitVec.ofInt 32 v, false)

/-- The positions of a chunk that take part. -/
def chunk (c : Nat) : List Nat := (List.range 32).map (32 * c + ·)

/-- One floating-point element after `n` chunks from chunk `c` on: its bits and flags. -/
def chunksF (f : Fmt) (rm : RMode) (term : Nat → Option FVal) (v : Nat) (fl : Flags) (c : Nat) : Nat → Nat × Flags
  | 0 => (v, fl)
  | n + 1 =>
    let r := windowSum f rm (FVal.read f false v :: (chunk c).filterMap term)
    chunksF f rm term r.1 (fl ||| r.2) (c + 1) n

/-- One integer element after `n` chunks from chunk `c` on: its value and whether it clamped. -/
def chunksI (term : Nat → Int) (v : Word) (sat : Bool) (c : Nat) : Nat → Word × Bool
  | 0 => (v, sat)
  | n + 1 =>
    let r := clampAcc ((chunk c).foldl (fun a k => a + term k) v.toInt)
    chunksI term r.1 (sat || r.2) (c + 1) n

/-- The elements of a tile. -/
def tileElems : List Nat := List.range 1024

/-- A floating-point tile after a product of `n` chunks whose terms are given by row, column and position. -/
def AcTile.mulF (t : AcTile) (rm : RMode) (term : Nat → Nat → Nat → Option FVal) (n : Nat) : AcTile :=
  tileElems.foldl (fun q e =>
    let r := chunksF (tileFmt t.fmt) rm (term (e / 32) (e % 32)) (t.data.findD 0 e).toNat 0 0 n
    { q with data := q.data.putD 0 e (BitVec.ofNat 64 r.1), flags := q.flags ||| r.2 }) t

/-- An i32 tile after a product of `n` chunks. -/
def AcTile.mulI (t : AcTile) (term : Nat → Nat → Nat → Int) (n : Nat) : AcTile :=
  tileElems.foldl (fun q e =>
    let r := chunksI (term (e / 32) (e % 32)) (loWord (t.data.findD 0 e)) false 0 n
    { q with data := q.data.putD 0 e (r.1.setWidth 64), sat := q.sat || r.2 }) t

/-- The row of 11 R225 an input type belongs to: 16-bit floats, 8-bit floats, int8, binary32. -/
def typeRow (type : Nat) : Nat := match type with | 0 | 1 => 0 | 2 | 3 => 1 | 4 => 2 | _ => 3

/-- The tile formats a row of 11 R225 allows. -/
def rowFmts (row : Nat) : List Nat := match row with | 0 | 1 => [1, 2] | 2 => [3] | _ => [1]

/-- The terms of a product by row, column and logical position: exact products of floats, none at a position without one, or of integers;
and the logical K. -/
structure Product where
  floats : Nat → Nat → Nat → Option FVal
  ints : Nat → Nat → Nat → Int
  k : Nat

/-- The product of stored values of two types: of A by row and position, if there is one, and of B, with its type, by position and column. -/
def Product.of (ta : Nat) (a : Nat → Nat → Option Word) (b : Nat → Nat → Nat × Word) (k : Nat) : Product where
  floats := fun i j p => (a i p).map fun v => addendMul (inputVal ta v.toNat) (inputVal (b p j).1 (b p j).2.toNat)
  ints := fun i j p => match a i p with | some v => inputInt ta v * inputInt (b p j).1 (b p j).2 | none => 0
  k := k

/-- Performs a product into tile `n` (11 R237): the scales are read, every element is accumulated, and the cursor advances. -/
def Streamer.product (x : Streamer) (n : Nat) (t : AcTile) (p : Product) (rm : RMode) : Out :=
  let next := fun (t : AcTile) => { t with count := t.count + BitVec.ofNat 32 p.k }
  if t.fmt = 3 then
    x.advance (x.s.putAc x.block.core n (next (t.mulI p.ints (p.k / 32)))) x.block
  else
    match x.block.scales t.count.toNat p.k t.rowScale, x.block.scales t.count.toNat p.k t.colScale with
    | .error h, _ | _, .error h => x.halt (some n) h
    | .ok sr, .ok sc =>
      let term := fun i j k => (p.floats i j k).map (addendMul (addendMul (sr k i) (sc k j)))
      x.advance (x.s.putAc x.block.core n (next (t.mulF rm term (p.k / 32)))) ((x.block.afterScales t.rowScale).afterScales t.colScale)

/-- Rounding of a stream word: 0 RNE, 1 RZ, 2 RD, 3 RU, 4 saturating RNE (11 R234). -/
def streamRm (n : Nat) : RMode := RMode.ofCode (n + 1)

/-- Stream major 0x31 fn 0 (11 R237). -/
def execMma (f : MmaOp) (s : State) : Out :=
  streamTo (some f.c.toNat) s fun x =>
    let c := f.c.toNat
    let dst := some c
    if !f.ok then x.halt dst (.of 1)
    else
      match x.loaded f.a.toNat false [0, 1, 2, 3, 4, 5], x.loaded f.b.toNat true [0, 1, 2, 3, 4, 5], x.tile c [1, 2, 3] with
      | .error h, _, _ | _, .error h, _ | _, _, .error h => x.halt dst h
      | .ok (ta, k, _, a), .ok (tb, _, _, b), .ok t =>
        if typeRow ta ≠ typeRow tb ∨ (rowFmts (typeRow ta)).contains t.fmt = false then x.halt dst (.of 3)
        else x.product c t (.of ta (fun i p => some (a.findD 0 (k * i + p))) (fun p j => (tb, b.findD 0 (32 * p + j))) k) (streamRm f.rm.toNat)

/-- How many bits of a word below position `p` are set. -/
def rankBelow (m : Word) (p : Nat) : Nat := ((List.range p).filter fun i => m.getLsbD i).length

/-- The first mask word, by row and group, whose population is not `n` (11 R238). -/
def badMask (md : Map Word) (groups n : Nat) : Option (Nat × Nat × Nat) :=
  ((List.range 32).flatMap fun i => (List.range groups).map fun g => (i, g, popCount (md.findD 0 (groups * i + g)))).find?
    fun p => p.2.2 != n

/-- The B slots of a sparse product: their types and contents (11 R238). -/
def Streamer.sparseB (x : Streamer) (first : Nat) : Nat → Except Halt (List (Nat × Map Word))
  | 0 => .ok []
  | n + 1 =>
    match x.loaded first true [0, 1, 2, 3, 4, 5], Streamer.sparseB x (first + 1) n with
    | .error h, _ | _, .error h => .error h
    | .ok (t, _, _, d), .ok r => .ok ((t, d) :: r)

/-- Stream major 0x31 fn 1 (11 R238). -/
def execMmas (f : MmasOp) (s : State) : Out :=
  streamTo (some f.c.toNat) s fun x =>
    let c := f.c.toNat
    let dst := some c
    let n := if f.dens = 1 then 8 else 16
    if !f.ok then x.halt dst (.of 1)
    else
      match x.loaded f.a.toNat false [0, 1, 2, 3, 4, 5], x.sparseB f.b.toNat (32 / n), x.loaded f.md.toNat false [6], x.tile c [1, 2, 3] with
      | .error h, _, _, _ | _, .error h, _, _ | _, _, .error h, _ | _, _, _, .error h => x.halt dst h
      | .ok (ta, kp, _, a), .ok bs, .ok (_, g, _, md), .ok t =>
        let groups := kp / n
        if typeRow ta = 3 ∨ (bs.any fun b => typeRow b.1 != typeRow ta) ∨ (rowFmts (typeRow ta)).contains t.fmt = false then x.halt dst (.of 3)
        else if g ≠ groups then x.halt dst { Halt.of 2 with slot := f.md.toNat, found := 2 }
        else
          match badMask md groups n with
          | some (i, g, found) => x.halt dst { Halt.of 5 with expected := n, found := found, loc := i * 2 ^ 16 + g }
          | none =>
            let va := fun (i p : Nat) =>
              let m := md.findD 0 (groups * i + p / 32)
              if m.getLsbD (p % 32) then some (a.findD 0 (kp * i + (n * (p / 32) + rankBelow m (p % 32)))) else none
            let vb := fun (p j : Nat) => let b := bs.getD (p / kp) (0, []); (b.1, b.2.findD 0 (32 * (p % kp) + j))
            x.product c t (.of ta va vb (32 * groups)) (streamRm f.rm.toNat)

/-- Stream major 0x31 fn 2 (11 R239). -/
def execMmap (f : MmapOp) (s : State) : Out :=
  streamTo (some f.c.toNat) s fun x =>
    let c := f.c.toNat
    let dst := some c
    match x.loaded f.a.toNat false [4], x.loaded f.b.toNat true [7], x.tile c [3] with
    | .error h, _, _ | _, .error h, _ | _, _, .error h => x.halt dst h
    | .ok (_, k, _, a), .ok (_, _, _, b), .ok t =>
      if t.rowScale.isSome || t.colScale.isSome then x.halt dst { Halt.of 7 with found := t.fmt }
      else x.product c t (.of 4 (fun i p => some (a.findD 0 (k * i + p))) (fun p j => (7, b.findD 0 (32 * p + j))) k) .rne

/-! ## Accumulator words (11 R240 to R242) -/

/-- Formats a tile, and its pair's other half for binary64 (11 R224, R240): the bad mark alone stays. -/
def Core.format (c : Core) (block n fmt : Nat) : Core :=
  let bad := ((c.ac.find? n).map (·.bad)).getD false || (fmt == 2 && ((c.ac.find? (n + 1)).map (·.bad)).getD false)
  let c := c.breakPair n
  let c := if fmt = 2 then c.breakPair (n + 1) else c
  let t := { AcTile.fresh block with fmt := fmt, bad := bad }
  let c := { c with ac := c.ac.put n t }
  if fmt = 2 then { c with ac := c.ac.put (n + 1) t } else c

/-- Stream major 0x32 fn 0 (11 R240). -/
def execMzero (f : MZeroOp) (s : State) : Out :=
  streamTo (some f.tile.toNat) s fun x =>
    let n := f.tile.toNat
    let fmt := f.fmt.toNat + 1
    let c := x.s.core x.block.core
    let mine := fun i => c.owner true i == some x.cur.block
    if !f.ok then x.halt (some n) (.of 1)
    else if !mine n || (fmt == 2 && (n % 2 == 1 || !mine (n + 1))) then
      x.halt (some n) { Halt.of 7 with found := ((c.ac.find? n).map (·.fmt)).getD 0 }
    else x.advance (x.s.onCore x.block.core fun c => c.format x.cur.block n fmt) x.block

/-- Stream major 0x32 fn 1 (11 R240). -/
def execMscale (f : MScaleOp) (s : State) : Out :=
  streamTo (some f.tile.toNat) s fun x =>
    let n := f.tile.toNat
    let dst := some n
    let len := 32 * 2 ^ f.e.toNat
    let ktot := (x.block.getQ f.q.toNat).toNat
    match x.tile n [1, 2] with
    | .error h => x.halt dst h
    | .ok t =>
      let d := x.block.layoutOf f.lay.toNat none
      if !(d.ok x.block.desc.spad && d.space == 0 && d.esize == 2 && d.size1 + 1 == 32 && d.size2 == 0 && d.size3 == 0) then
        x.halt dst { Halt.of 4 with expected := scaleBlocks ktot len, found := d.size0 + 1, layout := f.lay.toNat }
      else if ktot = 0 ∨ ktot % 32 ≠ 0 ∨ d.size0 + 1 ≠ scaleBlocks ktot len then
        x.halt dst { Halt.of 6 with expected := scaleBlocks ktot len, found := d.size0 + 1, layout := f.lay.toNat }
      else
        let sc : Scale := ⟨f.lay.toNat, len, ktot⟩
        let t := { t with count := 0 }
        x.advance (x.s.putAc x.block.core n (if f.side = 1 then { t with colScale := some sc } else { t with rowScale := some sc })) x.block

/-- Adds a tile's elements (11 R241). -/
def AcTile.addElems (t : AcTile) (src : Nat) (es : Map DWord) : AcTile :=
  tileElems.foldl (fun q e =>
    let v := t.data.findD 0 e
    let w := es.findD 0 e
    if t.fmt = 3 then
      let r := clampAcc ((loWord v).toInt + (loWord w).toInt)
      { q with data := q.data.putD 0 e (r.1.setWidth 64), sat := q.sat || r.2 }
    else
      let f := tileFmt t.fmt
      let r := windowSum f .rne [FVal.read f false v.toNat, FVal.read (if src = 1 then .f64 else .f32) false w.toNat]
      { q with data := q.data.putD 0 e (BitVec.ofNat 64 r.1), flags := q.flags ||| r.2 }) t

/-- Elements of up to 8 bytes numbered from 0. -/
def numbered64 (xs : List Nat) : Map DWord := ((List.range xs.length).zip xs).foldl (fun m p => Map.putD 0 m p.1 (BitVec.ofNat 64 p.2)) []

/-- Stream major 0x30 fn 4 (11 R241). -/
def execMtadd (f : MTaddOp) (s : State) : Out :=
  streamTo (some f.tile.toNat) s fun x =>
    let n := f.tile.toNat
    let dst := some n
    let src := f.src.toNat
    if !f.ok then x.halt dst (.of 1)
    else
      match x.tile n [1, 2, 3] with
      | .error h => x.halt dst h
      | .ok t =>
        if (src = 2) ≠ (t.fmt = 3) then x.halt dst (.of 3)
        else
          match x.block.checkLay f.lay.toNat (qOf f.qo f.q) (if src = 1 then 3 else 2) 32 32 with
          | .error h => x.halt dst h
          | .ok d =>
            match x.block.readElems d with
            | .error h => x.halt dst h
            | .ok es => x.advance (x.s.putAc x.block.core n (t.addElems src (numbered64 es))) (d.onRead x.block d.addrs)

/-- The CVT type of an `mstore` type: 0 f32, 1 f64, 2 bf16, 3 f16, 4 e4m3, 5 e5m2, 6 i32 (11 R234). -/
def storeType (type : Nat) : CvtType :=
  match type with
  | 0 => .flt .f32 | 1 => .flt .f64 | 2 => .flt .bf16 | 3 => .flt .f16 | 4 => .flt .e4m3 | 5 => .flt .e5m2 | _ => .int 32 true

/-- The element code of an `mstore` type. -/
def storeEsize (type : Nat) : Nat := match type with | 1 => 3 | 2 | 3 => 1 | 4 | 5 => 0 | _ => 2

/-- May a tile of a format be stored in a type under a rounding code (11 R242)? -/
def storeOk (fmt type rm : Nat) : Bool := if fmt = 3 then (type == 6 && rm == 0) || type == 0 else type < 6

/-- The type a tile's elements convert from. -/
def tileType (fmt : Nat) : CvtType := match fmt with | 1 => .flt .f32 | 2 => .flt .f64 | _ => .int 32 true

/-- The results of an `mstore` in element order. -/
def AcTile.stored (t : AcTile) (type : Nat) (rm : RMode) : List FRes :=
  tileElems.map fun e => convert (storeType type) (tileType t.fmt) rm false (t.data.findD 0 e).toNat

/-- Stream major 0x32 fn 2 (11 R242). -/
def execMstore (f : MStoreOp) (s : State) : Out :=
  streamWord s fun x =>
    let n := f.tile.toNat
    let type := f.type.toNat
    let rm := f.rm.toNat
    if !f.ok then x.halt none (.of 1)
    else
      match x.tile n [1, 2, 3] with
      | .error h => x.halt none h
      | .ok t =>
        if !storeOk t.fmt type rm then x.halt none (.of 3)
        else
          match x.block.checkLay f.lay.toNat (qOf f.qo f.q) (storeEsize type) 32 32 with
          | .error h => x.halt none h
          | .ok d =>
            let rs := t.stored type (streamRm rm)
            let b := (d.addrs.zip rs).foldl (fun b p => b.spadWrite p.1 d.elemBytes p.2.1) x.block
            let fl := rs.foldl (fun a r => a ||| r.2) 0
            x.advance (x.s.putAc x.block.core n { t with flags := t.flags ||| fl }) (d.onWrite (b.clearWhole d.addrs d.elemBytes) d.addrs)

end Sys2Proof.Machine
end

