-- ==== Sys2Proof/Machine/Power.lean ====
section
/-! DEFINITION. The current limiter, operating points, clocks and caps, and the timers of a partition (18 R327 to R330, 19 R358, 22 R393). Draws are in
mW, temperatures in thousandths of a degree Celsius. -/

namespace Sys2Proof.Machine

/-- Sets the limiter's level, with the bubble count brought up to date. -/
def State.setLevel (s : State) (d t : Nat) : State :=
  s.onDomain d fun q => { q with bubbles := s.bubbleCount d, bubblesAt := s.cycles d, level := t }

/-- The limiter's level after a sample. -/
def limiterLevel (t draw cap : Nat) : Nat :=
  if cap * 1000 < draw then min 16 (t + 1) else if draw * 100 < cap * 95000 then t - 1 else t

/-- LIMITER_SAMPLE (18 R328, R329): at most once in a microsecond; samples saturated over the cap, and samples below saturation, are counted in a
row. -/
def execLimiterSample (dom draw : Nat) (s : State) : Out :=
  inDomain dom s fun s =>
    let q := s.domain dom
    let t := limiterLevel q.level draw q.cap
    if s.time < q.sampleAt + micro then .next s
    else .next ((s.setLevel dom t).onDomain dom fun q =>
      { q with satSamples := if t = 16 ∧ q.cap * 1000 < draw then q.satSamples + 1 else 0
               okSamples := if t < 16 then q.okSamples + 1 else 0
               sampleAt := s.time })

/-- What a rule asks for one step toward the set point from what it has asked for: nothing once that is reached (18 R329, 22 R393). -/
def raised (ask set : Nat) : Nat := if ask - 1 ≤ set then 0 else ask - 1

/-- OPERATING_POINT_LOWER (18 R329): the power rule asks for one step below the point in use. -/
def execOperatingPointLower (dom : Nat) (s : State) : Out :=
  let q := s.domain dom
  if q.satSamples < 100 || 3 ≤ q.point then .next s
  else .next (s.onPoint dom fun r => { r with powerAsk := q.point + 1, satSamples := 0 }).limitBits

/-- OPERATING_POINT_RAISE (18 R329): after 10 ms of samples below saturation, with the draw below 0.8 of the cap. -/
def execOperatingPointRaise (dom draw : Nat) (s : State) : Out :=
  let q := s.domain dom
  if q.okSamples < 10000 || q.cap * 800 ≤ draw || q.powerAsk ≤ q.setPoint then .next s
  else .next (s.onPoint dom fun q => { q with powerAsk := raised q.powerAsk q.setPoint, okSamples := 0 }).limitBits

/-- The least time between two steps of the thermal rule. -/
def thermalPause : Nat := 10000 * micro

/-- THERMAL_LOWER (22 R393). -/
def execThermalLower (dom temp : Nat) (s : State) : Out :=
  inDomain dom s fun s =>
    let q := s.domain dom
    if temp ≤ 95000 || s.time < q.thermAt || 3 ≤ q.point then .next s
    else .next (s.onPoint dom fun r => { r with thermAsk := q.point + 1, thermAt := s.time + thermalPause }).limitBits

/-- THERMAL_RAISE (22 R393). -/
def execThermalRaise (dom temp : Nat) (s : State) : Out :=
  let q := s.domain dom
  if 85000 ≤ temp || s.time < q.thermAt || q.thermAsk ≤ q.setPoint then .next s
  else .next (s.onPoint dom fun q => { q with thermAsk := raised q.thermAsk q.setPoint, thermAt := s.time + thermalPause }).limitBits

/-- CLOCK_RELOCK_COMPLETE (18 R330): issue in the domain resumes. -/
def execClockRelockComplete (dom : Nat) (s : State) : Out :=
  inDomain dom s fun s => .next (s.onDomain dom fun q => { q with relocking := false })

/-- POWER_WRITE (18 R325, R327, R330): the cap goes to the nearest bound, and the operating point is set; a change makes one new generation. -/
def execPowerWrite (dom cap point : Nat) (s : State) : Out :=
  inDomain dom s fun s =>
    let q := s.domain dom
    let cap := max 100 (min 330 cap)
    let s' := s.onDomain dom fun q => { q with cap := cap }
    let s'' := (s'.onPoint dom fun q => { q with setPoint := point % 4 }).limitBits
    .next (if s''.wafer.gen = s.wafer.gen ∧ cap ≠ q.cap then s''.newGeneration else s'')

/-- TIMERS_WRITE (19 R358), in microseconds: no slice is shorter than the bound measured at boot. -/
def execTimersWrite (part grace kill slice : Nat) (s : State) : Out :=
  inPart part s fun s =>
    let grace := max 1 (min 65535 grace)
    .next (s.setPart part { s.partn part with grace := grace, kill := if kill ≤ grace then grace + 1 else kill, slice := max s.mgmt.saveBound slice })

end Sys2Proof.Machine
end

