-- ==== Sys2Proof/Machine/Queues.lean ====
section
/-! DEFINITION. Queue slots, doorbells, registrations and pending queues (19 R344, 21 R373, R374). -/

namespace Sys2Proof.Machine

/-- Reads entry `n` of the doorbell registration table, if it is valid (21 R373). -/
def State.registration (s : State) (n : Nat) : Option QueueBind :=
  let pa := s.mgmt.dbreg + 32 * n
  match s.place pa with
  | .home _ =>
    let lo := s.physRead pa 8
    let hi := s.physRead (pa + 8) 8
    if lo.testBit 63 then
      some { reg := n, desc := bitsOf lo 54 0, collective := lo.testBit 62, ctx := bitsOf hi 11 0, part := bitsOf hi 15 12, cap := bitsOf hi 18 16
             npf := hi.testBit 19, vector := bitsOf hi 42 32, boundAt := s.nextId
             killed := false }
    else none
  | _ => none

/-- Binds a queue to a slot: it is pending no longer (21 R374). -/
def State.bindSlot (s : State) (slot : Nat) (b : QueueBind) : State :=
  { s with nextId := s.nextId + 1, queues := s.queues.put slot { b with boundAt := s.nextId }
           mgmt := { s.mgmt with pendingBells := s.mgmt.pendingBells.filter (· != b.reg) } }

/-- The lowest free slot. -/
def State.freeQueueSlot (s : State) : Option Nat := (List.range queueSlots).find? fun i => (s.queues.find? i).isNone

/-- Is a bound queue known to be empty: can its descriptor be read, with rd = wr? -/
def State.queueEmpty (s : State) (b : QueueBind) (ext : List (Nat × Nat)) : Bool :=
  match s.deviceRead (agentCore (s.domOfPart b.part)) b.ctx b.desc 32 ext with
  | (_, .ok x) => (QueueDesc.ofNat x).rd == (QueueDesc.ofNat x).wr
  | _ => false

/-- Does a bound queue give up its slot before another: an empty one first, then the lower cap, then the one bound longest (21 R374)? -/
def givesWay (a b : Bool × QueueBind) : Bool :=
  if a.1 != b.1 then a.1 else if a.2.cap != b.2.cap then decide (a.2.cap < b.2.cap) else decide (a.2.boundAt < b.2.boundAt)

/-- The slot whose queue gives way, with whether that queue is empty. -/
def State.displaced (s : State) (ext : List (Nat × Nat)) : Option (Nat × Bool × QueueBind) :=
  let cs := (s.queues.filter fun q => decide (q.1 < queueSlots) && !q.2.npf).map fun q => (q.1, s.queueEmpty q.2 ext, q.2)
  cs.foldl (fun best c => match best with | none => some c | some v => if givesWay c.2 v.2 then some c else some v) none

/-- Sets a registration's pending bit. -/
def State.setPending (s : State) (n : Nat) : State := { s with mgmt := { s.mgmt with pendingBells := insertNew s.mgmt.pendingBells n } }

/-- Counts a dropped notify. -/
def State.dropNotify (s : State) : State := { s with mgmt := { s.mgmt with cxDropped := s.mgmt.cxDropped + 1 } }

/-- Binds a notified launch queue: to a free slot, or to that of a queue that gives way; else it is pending. -/
def State.notify (s : State) (b : QueueBind) (ext : List (Nat × Nat)) : State :=
  if s.queues.any fun q => decide (q.1 < queueSlots) && q.2.reg == b.reg then s
  else match s.freeQueueSlot, s.displaced ext with
    | some i, _ => s.bindSlot i b
    | none, some (i, empty, old) =>
      let s := s.bindSlot i b
      if empty || doorbells ≤ old.reg then s else s.setPending old.reg
    | none, none => s.setPending b.reg

/-- DOORBELL_WRITE (21 R373, R374): by the host, or by device code as it reaches the array; a write before ready is dropped and logged (22 R385). A
collective ring is known to the collective unit from its first notify on, under a key above the slots. -/
def execDoorbellWrite (n : Nat) (ext : List (Nat × Nat)) (s : State) : Out :=
  let s := { s with mgmt := { s.mgmt with rung := s.mgmt.rung.filter (· != n) } }
  if doorbells ≤ n then .next s
  else if !s.mgmt.ready then .next { s with mgmt := { s.mgmt with cxFenced := s.mgmt.cxFenced + 1 } }
  else match s.registration n with
    | none => .next s.dropNotify
    | some b => if b.collective then .next { s with queues := s.queues.put (queueSlots + n) b } else .next (s.notify b ext)

/-- PENDING_QUEUE_BIND (21 R374): the queue whose pending bit was set first binds once a slot is free. -/
def execPendingQueueBind (ext : List (Nat × Nat)) (s : State) : Out :=
  match s.mgmt.pendingBells, s.freeQueueSlot with
  | n :: rest, some _ =>
    let s := { s with mgmt := { s.mgmt with pendingBells := rest } }
    match s.registration n with
    | some b => .next (s.notify b ext)
    | none => .next s.dropNotify
  | _, _ => .next s

/-- SLOT_BINDING_WRITE (19 R344): system software binds a queue to a slot, or unbinds it; a registration that names the same descriptor is its
own, and gives its interrupt vector. -/
def execSlotBindingWrite (slot desc ctx part cap : Nat) (npf bind : Bool) (s : State) : Out :=
  if queueSlots ≤ slot then .next s
  else if !bind then .next { s with queues := s.queues.del slot }
  else
    let d := desc % 2 ^ 55
    let own := ((List.range doorbells).filterMap s.registration).find? fun b => b.desc == d && !b.collective
    let (reg, vector) := match own with | some b => (b.reg, b.vector) | none => (doorbells + slot, 0)
    .next (s.bindSlot slot ⟨reg, d, false, ctx % 2 ^ 12, part % 16, cap % 8, npf, vector, 0, false⟩)

end Sys2Proof.Machine
end

