-- ==== Sys2Proof/Machine/Reduce.lean ====
section
/-! DEFINITION. Exact reduction cells: slots, contributions, results and their timeout (03 R74, R75, 09 R188 to R190). -/

namespace Sys2Proof.Machine

/-- Reduction slots of a home. -/
def reductionSlots : Nat := 64

/-- A slot as it is taken, with the count and the mode its cell declares (09 R189). -/
def RedSlot.open (va count rm launch ctx part : Nat) : RedSlot where
  va := va
  sum := 0
  posInf := false
  negInf := false
  nan := false
  allNegZero := true
  anyNzOrNeg := false
  count := 0
  declared := count
  rm := rm
  launch := launch
  ctx := ctx
  part := part

/-- A slot with one more contribution (03 R74): a finite value m·2^e is added in units of 2^−149. -/
def RedSlot.add (q : RedSlot) (x : Nat) : RedSlot :=
  let q := { q with count := q.count + 1 }
  match FVal.read .f32 false x with
  | .fin neg m e =>
    let negZero := m == 0 && neg
    { q with
      sum := q.sum + signedNat neg (m * 2 ^ (e + 149).toNat)
      allNegZero := q.allNegZero && negZero
      anyNzOrNeg := q.anyNzOrNeg || m != 0 || neg }
  | .inf neg => if neg then { q with negInf := true, allNegZero := false } else { q with posInf := true, allNegZero := false }
  | .nan .. => { q with nan := true, allNegZero := false }

/-- The result and flags of a complete slot (03 R75). -/
def RedSlot.result (q : RedSlot) : FRes :=
  if q.nan || (q.posInf && q.negInf) then ⟨0x7FC00000, flInvalid⟩
  else if q.posInf then ⟨0x7F800000, 0⟩
  else if q.negInf then ⟨0xFF800000, 0⟩
  else if q.sum = 0 then ⟨if q.allNegZero || (q.rm == 2 && q.anyNzOrNeg) then 0x80000000 else 0, 0⟩
  else roundFin .f32 (RMode.ofTcr (BitVec.ofNat 2 q.rm)) false (decide (q.sum < 0)) q.sum.natAbs (-149)

/-- The 16 bytes of a cell with result, flags and done written (09 R188). -/
def cellWith (cell : Nat) (r : FRes) : Nat :=
  let rest := bitsOf cell 63 32 * 2 ^ 32 + bitsOf cell 71 64 * 2 ^ 64 + bitsOf cell 79 77 * 2 ^ 77 + bitsOf cell 94 80 * 2 ^ 80
    + bitsOf cell 127 96 * 2 ^ 96
  rest + r.1 % 2 ^ 32 + r.2.toNat * 2 ^ 72 + 2 ^ 95

/-- Writes a complete slot's result to its cell as one write at the home, and frees the slot (09 R189). -/
def State.finishSlot (s : State) (h : Nat) (x : Xlat) (q : RedSlot) : State :=
  let pa := x.at q.va
  let sec := q.va / 32
  let cell := cellWith (s.homeRead h x q.va 16) q.result
  let s := s.onDomain h fun d => { d with slots := d.slots.del pa }
  let off := q.va % 32
  let s := s.writeSector h sec x (BitVec.ofNat 256 (cell <<< (8 * off))) (BitVec.ofNat 32 (byteMask off 16))
  s.publish h none x (q.va / x.grain * x.grain)

/-- The contributions of a message as the home takes them: those that still wait, and those to an unarmed cell. -/
structure Contrib where
  s : State
  left : List AtomLane
  bad : List AtomLane

/-- A slot takes one more contribution: it is complete, or stands. -/
def State.putSlot (s : State) (h : Nat) (x : Xlat) (q : RedSlot) : State :=
  if q.count = q.declared then s.finishSlot h x q
  else s.onDomain h fun d => { d with slots := d.slots.put (x.at q.va) q }

/-- One contribution at its home (09 R189, R190). -/
def Contrib.take (c : Contrib) (h launch ctx part : Nat) (x : Xlat) (l : AtomLane) : Contrib :=
  let slots := (c.s.domain h).slots
  match slots.find? (x.at l.va) with
  | some q => { c with s := c.s.putSlot h x (q.add (l.x.toNat % 2 ^ 32)) }
  | none =>
    let cell := c.s.homeRead h x l.va 16
    if reductionSlots ≤ slots.length then { c with left := c.left ++ [l] }
    else if cell.testBit 95 || bitsOf cell 63 32 == 0 then { c with bad := c.bad ++ [l] }
    else { c with s := c.s.putSlot h x ((RedSlot.open l.va (bitsOf cell 63 32) (bitsOf cell 65 64) launch ctx part).add (l.x.toNat % 2 ^ 32)) }

/-- Discards contributions of a store and raises their fault: a part of the store of its own (09 R190). -/
def State.faultContrib (s : State) (sid kind : Nat) (lanes : List AtomLane) : State :=
  match lanes, s.stores.find? sid with
  | [], _ | _, none => s
  | lanes, some o =>
    let piece := 2 ^ 50 + s.nextId
    let i := atomImage .xadd false lanes
    let s := ({ s with nextId := s.nextId + 1 }).onStore sid fun o => { o with lines := o.lines.put piece .sent }
    s.faultStore sid piece { s.storeRec sid o with
      kind := kind, lanes := i.lanes, va := i.lowest, line := 128 * i.line, bmask := i.mask, image := i.data
      atom := some (.xadd, false, lanes) }

/-- The launch and the context a store belongs to, and the partition of its core's domain. -/
def State.ownerOf (s : State) (sid : Nat) : Nat × Nat × Nat :=
  match s.stores.find? sid with
  | some o => (o.launch, o.ctx, (s.domain (domainOfCore o.origin)).part)
  | none => (0, 0, 0)

/-- REDUCTION_CONTRIBUTION (09 R189, R190): the lanes of a message in ascending order; those that find no free slot wait at the home. -/
def execReductionContribution (msg : Nat) (s : State) : Out :=
  s.atHome msg fun m _ x =>
    match m.body, s.place x.pa with
    | .contrib sid line lanes since _, .home h =>
      match lanes.find? fun l => !s.hostClear h (hdmLines (x.at l.va) 16) true with
      | some l => .next (s.askHost h (hdmLines (x.at l.va) 16) true)
      | none =>
        let (launch, ctx, part) := s.ownerOf sid
        let c := lanes.foldl (fun c l => c.take h launch ctx part x l) (⟨s, [], []⟩ : Contrib)
        let s := c.s.faultContrib sid 0x10 c.bad
        if c.left.isEmpty then .next ((s.take msg).confirmTo h m sid line)
        else
          let since := if m.arrived then since else s.cycles h
          .next { s with msgs := s.msgs.put msg { m with arrived := true, body := .contrib sid line c.left since x } }
    | .contrib sid line lanes _ _, _ => .next (((s.take msg).faultContrib sid 0x11 lanes).confirmTo 64 m sid line)
    | _, _ => .next s

/-- REDUCTION_SLOT_TIMEOUT (09 R190). -/
def execReductionSlotTimeout (msg : Nat) (s : State) : Out :=
  s.atHome msg fun m _ x =>
    match m.body, s.place x.pa with
    | .contrib sid line lanes since _, .home h =>
      if !m.arrived || s.cycles h < since + Config.longTimeout || (s.domain h).slots.length < reductionSlots then .next s
      else .next (((s.take msg).faultContrib sid 0x12 lanes).confirmTo h m sid line)
    | _, _ => .next s

end Sys2Proof.Machine
end

