-- ==== Sys2Proof/Machine/Dispatch.lean ====
section
/-! DEFINITION. One arm per instruction and event: each calls its meaning. -/

namespace Sys2Proof.Machine

/-- The meaning of an instruction or event. -/
def exec (i : Instr) (s : State) : Host.Outcome State Fault Refusal :=
  match i with
  | .iadd f => Sys2Proof.Machine.execIadd f s
  | .isub f => Sys2Proof.Machine.execIsub f s
  | .imul f => Sys2Proof.Machine.execImul f s
  | .imulhI f => Sys2Proof.Machine.execImulhI f s
  | .imulhZ f => Sys2Proof.Machine.execImulhZ f s
  | .iminI f => Sys2Proof.Machine.execIminI f s
  | .imaxI f => Sys2Proof.Machine.execImaxI f s
  | .iminZ f => Sys2Proof.Machine.execIminZ f s
  | .imaxZ f => Sys2Proof.Machine.execImaxZ f s
  | .iabs f => Sys2Proof.Machine.execIabs f s
  | .iaddSatI f => Sys2Proof.Machine.execIaddSatI f s
  | .isubSatI f => Sys2Proof.Machine.execIsubSatI f s
  | .iadd64 f => Sys2Proof.Machine.execIadd64 f s
  | .isub64 f => Sys2Proof.Machine.execIsub64 f s
  | .imulWideI f => Sys2Proof.Machine.execImulWideI f s
  | .imulWideZ f => Sys2Proof.Machine.execImulWideZ f s
  | .and f => Sys2Proof.Machine.execAnd f s
  | .or f => Sys2Proof.Machine.execOr f s
  | .xor f => Sys2Proof.Machine.execXor f s
  | .andn f => Sys2Proof.Machine.execAndn f s
  | .shl f => Sys2Proof.Machine.execShl f s
  | .shr f => Sys2Proof.Machine.execShr f s
  | .sar f => Sys2Proof.Machine.execSar f s
  | .rotl f => Sys2Proof.Machine.execRotl f s
  | .shl64 f => Sys2Proof.Machine.execShl64 f s
  | .shr64 f => Sys2Proof.Machine.execShr64 f s
  | .popc f => Sys2Proof.Machine.execPopc f s
  | .clz f => Sys2Proof.Machine.execClz f s
  | .brev f => Sys2Proof.Machine.execBrev f s
  | .bfxZ f => Sys2Proof.Machine.execBfxZ f s
  | .bfxI f => Sys2Proof.Machine.execBfxI f s
  | .bfi f => Sys2Proof.Machine.execBfi f s
  | .iaddi f => Sys2Proof.Machine.execIaddi f s
  | .andi f => Sys2Proof.Machine.execAndi f s
  | .ori f => Sys2Proof.Machine.execOri f s
  | .xori f => Sys2Proof.Machine.execXori f s
  | .shli f => Sys2Proof.Machine.execShli f s
  | .shri f => Sys2Proof.Machine.execShri f s
  | .sari f => Sys2Proof.Machine.execSari f s
  | .movi f => Sys2Proof.Machine.execMovi f s
  | .cmp f => Sys2Proof.Machine.execCmp f s
  | .sel f => Sys2Proof.Machine.execSel f s
  | .mov f => Sys2Proof.Machine.execMov f s
  | .shflIdx f => Sys2Proof.Machine.execShflIdx f s
  | .shflUp f => Sys2Proof.Machine.execShflUp f s
  | .shflDown f => Sys2Proof.Machine.execShflDown f s
  | .shflXor f => Sys2Proof.Machine.execShflXor f s
  | .kprefix f => Sys2Proof.Machine.execKprefix f s
  | .ballot f => Sys2Proof.Machine.execBallot f s
  | .lrd f => Sys2Proof.Machine.execLrd f s
  | .lrdS f => Sys2Proof.Machine.execLrdS f s
  | .kand f => Sys2Proof.Machine.execKand f s
  | .kor f => Sys2Proof.Machine.execKor f s
  | .kxor f => Sys2Proof.Machine.execKxor f s
  | .knot f => Sys2Proof.Machine.execKnot f s
  | .kmovKs f => Sys2Proof.Machine.execKmovKs f s
  | .kmovSk f => Sys2Proof.Machine.execKmovSk f s
  | .kpopc f => Sys2Proof.Machine.execKpopc f s
  | .kffs f => Sys2Proof.Machine.execKffs f s
  | .faddF32 f => Sys2Proof.Machine.execFaddF32 f s
  | .fsubF32 f => Sys2Proof.Machine.execFsubF32 f s
  | .fmulF32 f => Sys2Proof.Machine.execFmulF32 f s
  | .ffmaF32 f => Sys2Proof.Machine.execFfmaF32 f s
  | .ffmsF32 f => Sys2Proof.Machine.execFfmsF32 f s
  | .fnmaF32 f => Sys2Proof.Machine.execFnmaF32 f s
  | .fminF32 f => Sys2Proof.Machine.execFminF32 f s
  | .fmaxF32 f => Sys2Proof.Machine.execFmaxF32 f s
  | .fabsF32 f => Sys2Proof.Machine.execFabsF32 f s
  | .fnegF32 f => Sys2Proof.Machine.execFnegF32 f s
  | .fcsgnF32 f => Sys2Proof.Machine.execFcsgnF32 f s
  | .faddF64 f => Sys2Proof.Machine.execFaddF64 f s
  | .fsubF64 f => Sys2Proof.Machine.execFsubF64 f s
  | .fmulF64 f => Sys2Proof.Machine.execFmulF64 f s
  | .ffmaF64 f => Sys2Proof.Machine.execFfmaF64 f s
  | .ffmsF64 f => Sys2Proof.Machine.execFfmsF64 f s
  | .fnmaF64 f => Sys2Proof.Machine.execFnmaF64 f s
  | .fminF64 f => Sys2Proof.Machine.execFminF64 f s
  | .fmaxF64 f => Sys2Proof.Machine.execFmaxF64 f s
  | .fabsF64 f => Sys2Proof.Machine.execFabsF64 f s
  | .fnegF64 f => Sys2Proof.Machine.execFnegF64 f s
  | .fcsgnF64 f => Sys2Proof.Machine.execFcsgnF64 f s
  | .haddF16 f => Sys2Proof.Machine.execHaddF16 f s
  | .hmulF16 f => Sys2Proof.Machine.execHmulF16 f s
  | .hfmaF16 f => Sys2Proof.Machine.execHfmaF16 f s
  | .hminF16 f => Sys2Proof.Machine.execHminF16 f s
  | .hmaxF16 f => Sys2Proof.Machine.execHmaxF16 f s
  | .haddBf16 f => Sys2Proof.Machine.execHaddBf16 f s
  | .hmulBf16 f => Sys2Proof.Machine.execHmulBf16 f s
  | .hfmaBf16 f => Sys2Proof.Machine.execHfmaBf16 f s
  | .hminBf16 f => Sys2Proof.Machine.execHminBf16 f s
  | .hmaxBf16 f => Sys2Proof.Machine.execHmaxBf16 f s
  | .frcpF32 f => Sys2Proof.Machine.execFrcpF32 f s
  | .frsqF32 f => Sys2Proof.Machine.execFrsqF32 f s
  | .fsqrtF32 f => Sys2Proof.Machine.execFsqrtF32 f s
  | .fexp2F32 f => Sys2Proof.Machine.execFexp2F32 f s
  | .flog2F32 f => Sys2Proof.Machine.execFlog2F32 f s
  | .ffloorF32 f => Sys2Proof.Machine.execFfloorF32 f s
  | .fceilF32 f => Sys2Proof.Machine.execFceilF32 f s
  | .ftruncF32 f => Sys2Proof.Machine.execFtruncF32 f s
  | .frintF32 f => Sys2Proof.Machine.execFrintF32 f s
  | .fclassF32 f => Sys2Proof.Machine.execFclassF32 f s
  | .fdivF32 f => Sys2Proof.Machine.execFdivF32 f s
  | .fsqrtF64 f => Sys2Proof.Machine.execFsqrtF64 f s
  | .frcpF64 f => Sys2Proof.Machine.execFrcpF64 f s
  | .fdivF64 f => Sys2Proof.Machine.execFdivF64 f s
  | .cvtI32 f => Sys2Proof.Machine.execCvtI32 f s
  | .cvtZ32 f => Sys2Proof.Machine.execCvtZ32 f s
  | .cvtI64 f => Sys2Proof.Machine.execCvtI64 f s
  | .cvtZ64 f => Sys2Proof.Machine.execCvtZ64 f s
  | .cvtF32 f => Sys2Proof.Machine.execCvtF32 f s
  | .cvtF64 f => Sys2Proof.Machine.execCvtF64 f s
  | .cvtF16 f => Sys2Proof.Machine.execCvtF16 f s
  | .cvtBf16 f => Sys2Proof.Machine.execCvtBf16 f s
  | .cvtE4m3 f => Sys2Proof.Machine.execCvtE4m3 f s
  | .cvtE5m2 f => Sys2Proof.Machine.execCvtE5m2 f s
  | .cvtI8 f => Sys2Proof.Machine.execCvtI8 f s
  | .cvtZ8 f => Sys2Proof.Machine.execCvtZ8 f s
  | .cvtI16 f => Sys2Proof.Machine.execCvtI16 f s
  | .cvtZ16 f => Sys2Proof.Machine.execCvtZ16 f s
  | .uadd f => Sys2Proof.Machine.execUadd f s
  | .uaddImm f => Sys2Proof.Machine.execUaddImm f s
  | .usub f => Sys2Proof.Machine.execUsub f s
  | .usubImm f => Sys2Proof.Machine.execUsubImm f s
  | .umul f => Sys2Proof.Machine.execUmul f s
  | .umulImm f => Sys2Proof.Machine.execUmulImm f s
  | .uand f => Sys2Proof.Machine.execUand f s
  | .uandImm f => Sys2Proof.Machine.execUandImm f s
  | .uor f => Sys2Proof.Machine.execUor f s
  | .uorImm f => Sys2Proof.Machine.execUorImm f s
  | .uxor f => Sys2Proof.Machine.execUxor f s
  | .uxorImm f => Sys2Proof.Machine.execUxorImm f s
  | .ushl f => Sys2Proof.Machine.execUshl f s
  | .ushlImm f => Sys2Proof.Machine.execUshlImm f s
  | .ushr f => Sys2Proof.Machine.execUshr f s
  | .ushrImm f => Sys2Proof.Machine.execUshrImm f s
  | .usar f => Sys2Proof.Machine.execUsar f s
  | .usarImm f => Sys2Proof.Machine.execUsarImm f s
  | .uminI f => Sys2Proof.Machine.execUminI f s
  | .uminIImm f => Sys2Proof.Machine.execUminIImm f s
  | .umaxI f => Sys2Proof.Machine.execUmaxI f s
  | .umaxIImm f => Sys2Proof.Machine.execUmaxIImm f s
  | .umov f => Sys2Proof.Machine.execUmov f s
  | .umovImm f => Sys2Proof.Machine.execUmovImm f s
  | .uadd64 f => Sys2Proof.Machine.execUadd64 f s
  | .uadd64Imm f => Sys2Proof.Machine.execUadd64Imm f s
  | .ucmp f => Sys2Proof.Machine.execUcmp f s
  | .rdsrV f => Sys2Proof.Machine.execRdsrV f s
  | .rdsr f => Sys2Proof.Machine.execRdsr f s
  | .wrsr f => Sys2Proof.Machine.execWrsr f s
  | .vgetx f => Sys2Proof.Machine.execVgetx f s
  | .vsetx f => Sys2Proof.Machine.execVsetx f s
  | .ldgZ8 f => Sys2Proof.Machine.execLdgZ8 f s
  | .ldgI8 f => Sys2Proof.Machine.execLdgI8 f s
  | .ldgZ16 f => Sys2Proof.Machine.execLdgZ16 f s
  | .ldgI16 f => Sys2Proof.Machine.execLdgI16 f s
  | .ldgB32 f => Sys2Proof.Machine.execLdgB32 f s
  | .ldgB64 f => Sys2Proof.Machine.execLdgB64 f s
  | .ldgB128 f => Sys2Proof.Machine.execLdgB128 f s
  | .lduB32 f => Sys2Proof.Machine.execLduB32 f s
  | .lduB64 f => Sys2Proof.Machine.execLduB64 f s
  | .stgB8 f => Sys2Proof.Machine.execStgB8 f s
  | .stgB16 f => Sys2Proof.Machine.execStgB16 f s
  | .stgB32 f => Sys2Proof.Machine.execStgB32 f s
  | .stgB64 f => Sys2Proof.Machine.execStgB64 f s
  | .stgB128 f => Sys2Proof.Machine.execStgB128 f s
  | .ldsZ16 f => Sys2Proof.Machine.execLdsZ16 f s
  | .ldsB32 f => Sys2Proof.Machine.execLdsB32 f s
  | .ldsB32Wfull f => Sys2Proof.Machine.execLdsB32Wfull f s
  | .ldsB32Take f => Sys2Proof.Machine.execLdsB32Take f s
  | .ldsB64 f => Sys2Proof.Machine.execLdsB64 f s
  | .ldsB64Wfull f => Sys2Proof.Machine.execLdsB64Wfull f s
  | .ldsB64Take f => Sys2Proof.Machine.execLdsB64Take f s
  | .ldsB128 f => Sys2Proof.Machine.execLdsB128 f s
  | .ldsB128Wfull f => Sys2Proof.Machine.execLdsB128Wfull f s
  | .ldsB128Take f => Sys2Proof.Machine.execLdsB128Take f s
  | .stsB16 f => Sys2Proof.Machine.execStsB16 f s
  | .stsB32 f => Sys2Proof.Machine.execStsB32 f s
  | .stsB32Put f => Sys2Proof.Machine.execStsB32Put f s
  | .stsB32Fill f => Sys2Proof.Machine.execStsB32Fill f s
  | .stsB32Drain f => Sys2Proof.Machine.execStsB32Drain f s
  | .stsB64 f => Sys2Proof.Machine.execStsB64 f s
  | .stsB64Put f => Sys2Proof.Machine.execStsB64Put f s
  | .stsB64Fill f => Sys2Proof.Machine.execStsB64Fill f s
  | .stsB64Drain f => Sys2Proof.Machine.execStsB64Drain f s
  | .stsB128 f => Sys2Proof.Machine.execStsB128 f s
  | .stsB128Put f => Sys2Proof.Machine.execStsB128Put f s
  | .stsB128Fill f => Sys2Proof.Machine.execStsB128Fill f s
  | .stsB128Drain f => Sys2Proof.Machine.execStsB128Drain f s
  | .atomgAdd f => Sys2Proof.Machine.execAtomgAdd f s
  | .atomgFadd f => Sys2Proof.Machine.execAtomgFadd f s
  | .atomgMinI f => Sys2Proof.Machine.execAtomgMinI f s
  | .atomgMaxI f => Sys2Proof.Machine.execAtomgMaxI f s
  | .atomgMinZ f => Sys2Proof.Machine.execAtomgMinZ f s
  | .atomgMaxZ f => Sys2Proof.Machine.execAtomgMaxZ f s
  | .atomgAnd f => Sys2Proof.Machine.execAtomgAnd f s
  | .atomgOr f => Sys2Proof.Machine.execAtomgOr f s
  | .atomgXor f => Sys2Proof.Machine.execAtomgXor f s
  | .atomgExch f => Sys2Proof.Machine.execAtomgExch f s
  | .atomgCas f => Sys2Proof.Machine.execAtomgCas f s
  | .atomgLd f => Sys2Proof.Machine.execAtomgLd f s
  | .atomgSt f => Sys2Proof.Machine.execAtomgSt f s
  | .atomgXadd f => Sys2Proof.Machine.execAtomgXadd f s
  | .atomsAdd f => Sys2Proof.Machine.execAtomsAdd f s
  | .atomsFadd f => Sys2Proof.Machine.execAtomsFadd f s
  | .atomsMinI f => Sys2Proof.Machine.execAtomsMinI f s
  | .atomsMaxI f => Sys2Proof.Machine.execAtomsMaxI f s
  | .atomsMinZ f => Sys2Proof.Machine.execAtomsMinZ f s
  | .atomsMaxZ f => Sys2Proof.Machine.execAtomsMaxZ f s
  | .atomsAnd f => Sys2Proof.Machine.execAtomsAnd f s
  | .atomsOr f => Sys2Proof.Machine.execAtomsOr f s
  | .atomsXor f => Sys2Proof.Machine.execAtomsXor f s
  | .atomsExch f => Sys2Proof.Machine.execAtomsExch f s
  | .atomsCas f => Sys2Proof.Machine.execAtomsCas f s
  | .fence f => Sys2Proof.Machine.execFence f s
  | .ifence => Sys2Proof.Machine.execIfence s
  | .waitc f => Sys2Proof.Machine.execWaitc f s
  | .binit f => Sys2Proof.Machine.execBinit f s
  | .barrive f => Sys2Proof.Machine.execBarrive f s
  | .bwait f => Sys2Proof.Machine.execBwait f s
  | .bsync f => Sys2Proof.Machine.execBsync f s
  | .semset f => Sys2Proof.Machine.execSemset f s
  | .semadd f => Sys2Proof.Machine.execSemadd f s
  | .semwait f => Sys2Proof.Machine.execSemwait f s
  | .watch f => Sys2Proof.Machine.execWatch f s
  | .watchSpad f => Sys2Proof.Machine.execWatchSpad f s
  | .park f => Sys2Proof.Machine.execPark f s
  | .unwatch f => Sys2Proof.Machine.execUnwatch f s
  | .sloop f => Sys2Proof.Machine.execSloop f s
  | .siter f => Sys2Proof.Machine.execSiter f s
  | .stadv f => Sys2Proof.Machine.execStadv f s
  | .stjmp f => Sys2Proof.Machine.execStjmp f s
  | .waitl f => Sys2Proof.Machine.execWaitl f s
  | .sdone => Sys2Proof.Machine.execSdone s
  | .send => Sys2Proof.Machine.execSend s
  | .spost f => Sys2Proof.Machine.execSpost f s
  | .waitm f => Sys2Proof.Machine.execWaitm f s
  | .sread f => Sys2Proof.Machine.execSread f s
  | .layset f => Sys2Proof.Machine.execLayset f s
  | .laysetSpad f => Sys2Proof.Machine.execLaysetSpad f s
  | .cpy f => Sys2Proof.Machine.execCpy f s
  | .gath f => Sys2Proof.Machine.execGath f s
  | .scat f => Sys2Proof.Machine.execScat f s
  | .mstart f => Sys2Proof.Machine.execMstart f s
  | .accget f => Sys2Proof.Machine.execAccget f s
  | .accgetSt f => Sys2Proof.Machine.execAccgetSt f s
  | .accput f => Sys2Proof.Machine.execAccput f s
  | .rlds f => Sys2Proof.Machine.execRlds f s
  | .rldsWfull f => Sys2Proof.Machine.execRldsWfull f s
  | .rldsTake f => Sys2Proof.Machine.execRldsTake f s
  | .rsts f => Sys2Proof.Machine.execRsts f s
  | .rstsPut f => Sys2Proof.Machine.execRstsPut f s
  | .rstsFill f => Sys2Proof.Machine.execRstsFill f s
  | .rstsDrain f => Sys2Proof.Machine.execRstsDrain f s
  | .ratomAdd f => Sys2Proof.Machine.execRatomAdd f s
  | .ratomExch f => Sys2Proof.Machine.execRatomExch f s
  | .ratomCas f => Sys2Proof.Machine.execRatomCas f s
  | .ratomOr f => Sys2Proof.Machine.execRatomOr f s
  | .bra f => Sys2Proof.Machine.execBra f s
  | .braAny f => Sys2Proof.Machine.execBraAny f s
  | .braAll f => Sys2Proof.Machine.execBraAll f s
  | .braNone f => Sys2Proof.Machine.execBraNone f s
  | .braDiv f => Sys2Proof.Machine.execBraDiv f s
  | .call f => Sys2Proof.Machine.execCall f s
  | .jmpi f => Sys2Proof.Machine.execJmpi f s
  | .calli f => Sys2Proof.Machine.execCalli f s
  | .ret f => Sys2Proof.Machine.execRet f s
  | .join => Sys2Proof.Machine.execJoin s
  | .yield => Sys2Proof.Machine.execYield s
  | .nop => Sys2Proof.Machine.execNop s
  | .exit => Sys2Proof.Machine.execExit s
  | .trap f => Sys2Proof.Machine.execTrap f s
  | .tretRetry => Sys2Proof.Machine.execTretRetry s
  | .tretSkip => Sys2Proof.Machine.execTretSkip s
  | .brk => Sys2Proof.Machine.execBrk s
  | .hget f => Sys2Proof.Machine.execHget f s
  | .hset f => Sys2Proof.Machine.execHset f s
  | .hldone f => Sys2Proof.Machine.execHldone f s
  | .resumeContinue f => Sys2Proof.Machine.execResumeContinue f s
  | .resumeDrop f => Sys2Proof.Machine.execResumeDrop f s
  | .resumeRetry f => Sys2Proof.Machine.execResumeRetry f s
  | .kill f => Sys2Proof.Machine.execKill f s
  | .launch f => Sys2Proof.Machine.execLaunch f s
  | .lstat f => Sys2Proof.Machine.execLstat f s
  | .mclaim f => Sys2Proof.Machine.execMclaim f s
  | .mrel f => Sys2Proof.Machine.execMrel f s
  | .mload f => Sys2Proof.Machine.execMload f s
  | .mloadp f => Sys2Proof.Machine.execMloadp f s
  | .mtadd f => Sys2Proof.Machine.execMtadd f s
  | .mma f => Sys2Proof.Machine.execMma f s
  | .mmas f => Sys2Proof.Machine.execMmas f s
  | .mmap f => Sys2Proof.Machine.execMmap f s
  | .mzero f => Sys2Proof.Machine.execMzero f s
  | .mscale f => Sys2Proof.Machine.execMscale f s
  | .mstore f => Sys2Proof.Machine.execMstore f s
  | .mbarSync f => Sys2Proof.Machine.execMbarSync f s
  | .mbarArrive f => Sys2Proof.Machine.execMbarArrive f s
  | .mbarWait f => Sys2Proof.Machine.execMbarWait f s
  | .mset f => Sys2Proof.Machine.execMset f s
  | .madd f => Sys2Proof.Machine.execMadd f s
  | .mloop f => Sys2Proof.Machine.execMloop f s
  | .mbra f => Sys2Proof.Machine.execMbra f s
  | .mbraZ f => Sys2Proof.Machine.execMbraZ f s
  | .mbraNz f => Sys2Proof.Machine.execMbraNz f s
  | .mend => Sys2Proof.Machine.execMend s
  | .permissionFill reel split bad => Sys2Proof.Machine.execPermissionFill reel split bad s
  | .loadReturn reel load => Sys2Proof.Machine.execLoadReturn reel load s
  | .storeConfirmed msg => Sys2Proof.Machine.execStoreConfirmed msg s
  | .fullEmptyQualified reel split => Sys2Proof.Machine.execFullEmptyQualified reel split s
  | .fullEmptyTimeout reel split => Sys2Proof.Machine.execFullEmptyTimeout reel split s
  | .remoteBankStep reel split member => Sys2Proof.Machine.execRemoteBankStep reel split member s
  | .victimRecompute core => Sys2Proof.Machine.execVictimRecompute core s
  | .permissionShootdown part ctx lo hi => Sys2Proof.Machine.execPermissionShootdown part ctx lo hi s
  | .permissionShootdownAck core => Sys2Proof.Machine.execPermissionShootdownAck core s
  | .translationShootdown part lo hi => Sys2Proof.Machine.execTranslationShootdown part lo hi s
  | .sliceWriteAccept msg => Sys2Proof.Machine.execSliceWriteAccept msg s
  | .sliceRead msg => Sys2Proof.Machine.execSliceRead msg s
  | .translationWalkComplete dom page bad => Sys2Proof.Machine.execTranslationWalkComplete dom page bad s
  | .faultRecordDelivery rec => Sys2Proof.Machine.execFaultRecordDelivery rec s
  | .secureCoreResolve rec mode => Sys2Proof.Machine.execSecureCoreResolve rec mode s
  | .faultServiceBlockStart rec => Sys2Proof.Machine.execFaultServiceBlockStart rec s
  | .homeGuestRead msg data => Sys2Proof.Machine.execHomeGuestRead msg data s
  | .homeWrite msg => Sys2Proof.Machine.execHomeWrite msg s
  | .homeAtomic msg data => Sys2Proof.Machine.execHomeAtomic msg data s
  | .homeWatchRegistration msg status => Sys2Proof.Machine.execHomeWatchRegistration msg status s
  | .homeWatchDeregistration msg => Sys2Proof.Machine.execHomeWatchDeregistration msg s
  | .directoryEntryEvict dom grain => Sys2Proof.Machine.execDirectoryEntryEvict dom grain s
  | .guestInvalidation msg => Sys2Proof.Machine.execGuestInvalidation msg s
  | .guestFill msg => Sys2Proof.Machine.execGuestFill msg s
  | .watchStatusAnswer msg => Sys2Proof.Machine.execWatchStatusAnswer msg s
  | .watchReport msg reel slot => Sys2Proof.Machine.execWatchReport msg reel slot s
  | .parkTimeout reel split => Sys2Proof.Machine.execParkTimeout reel split s
  | .waitmPoll reel split => Sys2Proof.Machine.execWaitmPoll reel split s
  | .reductionContribution msg => Sys2Proof.Machine.execReductionContribution msg s
  | .reductionSlotTimeout msg => Sys2Proof.Machine.execReductionSlotTimeout msg s
  | .engineCommandAccept core cmd ext => Sys2Proof.Machine.execEngineCommandAccept core cmd ext s
  | .engineCommandComplete core cmd ext => Sys2Proof.Machine.execEngineCommandComplete core cmd ext s
  | .engineFault core cmd ext => Sys2Proof.Machine.execEngineFault core cmd ext s
  | .mclaimGrant block => Sys2Proof.Machine.execMclaimGrant block s
  | .mclaimTimeout block => Sys2Proof.Machine.execMclaimTimeout block s
  | .queueTakePacket slot ext => Sys2Proof.Machine.execQueueTakePacket slot ext s
  | .launchAdmit launch ext => Sys2Proof.Machine.execLaunchAdmit launch ext s
  | .blockStart launch ext => Sys2Proof.Machine.execBlockStart launch ext s
  | .blockEnd block => Sys2Proof.Machine.execBlockEnd block s
  | .launchComplete launch => Sys2Proof.Machine.execLaunchComplete launch s
  | .launchTimeLimit launch => Sys2Proof.Machine.execLaunchTimeLimit launch s
  | .doorbellWrite n ext => Sys2Proof.Machine.execDoorbellWrite n ext s
  | .pendingQueueBind ext => Sys2Proof.Machine.execPendingQueueBind ext s
  | .contextSwitchRequest part ctx base size => Sys2Proof.Machine.execContextSwitchRequest part ctx base size s
  | .graceTimerExpiry req => Sys2Proof.Machine.execGraceTimerExpiry req s
  | .preemptSave req => Sys2Proof.Machine.execPreemptSave req s
  | .killTimerExpiry req => Sys2Proof.Machine.execKillTimerExpiry req s
  | .timeSliceExpiry part => Sys2Proof.Machine.execTimeSliceExpiry part s
  | .restore part ctx => Sys2Proof.Machine.execRestore part ctx s
  | .limiterSample dom draw => Sys2Proof.Machine.execLimiterSample dom draw s
  | .operatingPointLower dom => Sys2Proof.Machine.execOperatingPointLower dom s
  | .operatingPointRaise dom draw => Sys2Proof.Machine.execOperatingPointRaise dom draw s
  | .thermalLower dom temp => Sys2Proof.Machine.execThermalLower dom temp s
  | .thermalRaise dom temp => Sys2Proof.Machine.execThermalRaise dom temp s
  | .thermalTrip dom temp => Sys2Proof.Machine.execThermalTrip dom temp s
  | .coolantFlowLoss ms => Sys2Proof.Machine.execCoolantFlowLoss ms s
  | .heartbeat dom => Sys2Proof.Machine.execHeartbeat dom s
  | .heartbeatMissed dom => Sys2Proof.Machine.execHeartbeatMissed dom s
  | .fencedRouterAnswer msg => Sys2Proof.Machine.execFencedRouterAnswer msg s
  | .eccError core place double again => Sys2Proof.Machine.execEccError core place double again s
  | .linkError boundary dir again => Sys2Proof.Machine.execLinkError boundary dir again s
  | .dramChannelError dom first size again => Sys2Proof.Machine.execDramChannelError dom first size again s
  | .regulatorFailure dom => Sys2Proof.Machine.execRegulatorFailure dom s
  | .routeChange src dst entry => Sys2Proof.Machine.execRouteChange src dst entry s
  | .coldReset b => Sys2Proof.Machine.execColdReset b s
  | .partitionReset part scrub dead => Sys2Proof.Machine.execPartitionReset part scrub dead s
  | .recoveryImageWrite slotB image => Sys2Proof.Machine.execRecoveryImageWrite slotB image s
  | .attestationReport nonce => Sys2Proof.Machine.execAttestationReport nonce s
  | .measurementExtend reg digest => Sys2Proof.Machine.execMeasurementExtend reg digest s
  | .statusWrite value => Sys2Proof.Machine.execStatusWrite value s
  | .powerWrite dom cap point => Sys2Proof.Machine.execPowerWrite dom cap point s
  | .timersWrite part grace kill slice => Sys2Proof.Machine.execTimersWrite part grace kill slice s
  | .partitionWrite matrix index value => Sys2Proof.Machine.execPartitionWrite matrix index value s
  | .slotBindingWrite slot desc ctx part cap npf bind => Sys2Proof.Machine.execSlotBindingWrite slot desc ctx part cap npf bind s
  | .mgmtRegisterWrite offset scope value => Sys2Proof.Machine.execMgmtRegisterWrite offset scope value s
  | .drainQuiesced => Sys2Proof.Machine.execDrainQuiesced s
  | .drainImmediate => Sys2Proof.Machine.execDrainImmediate s
  | .drainRestore image => Sys2Proof.Machine.execDrainRestore image s
  | .drainComplete => Sys2Proof.Machine.execDrainComplete s
  | .powerFailWarning => Sys2Proof.Machine.execPowerFailWarning s
  | .biasToDevice offset => Sys2Proof.Machine.execBiasToDevice offset s
  | .biasToHost offset => Sys2Proof.Machine.execBiasToHost offset s
  | .birspArrival dom line data => Sys2Proof.Machine.execBirspArrival dom line data s
  | .hostHdmRead offset own => Sys2Proof.Machine.execHostHdmRead offset own s
  | .hostHdmWrite offset data mask => Sys2Proof.Machine.execHostHdmWrite offset data mask s
  | .hostSnpInv line => Sys2Proof.Machine.execHostSnpInv line s
  | .hostSnpData line => Sys2Proof.Machine.execHostSnpData line s
  | .hostSnpCur line => Sys2Proof.Machine.execHostSnpCur line s
  | .relufCrcFail port again => Sys2Proof.Machine.execRelufCrcFail port again s
  | .waferUnreachableTimeout wafer => Sys2Proof.Machine.execWaferUnreachableTimeout wafer s
  | .collectiveDescriptor slot ext => Sys2Proof.Machine.execCollectiveDescriptor slot ext s
  | .collectiveComplete group seq peers ext => Sys2Proof.Machine.execCollectiveComplete group seq peers ext s
  | .collectiveAbandon group seq detail chunks peers ext => Sys2Proof.Machine.execCollectiveAbandon group seq detail chunks peers ext s
  | .illegalWord w => Sys2Proof.Machine.execIllegalWord w s
  | .illegalStreamWord w => Sys2Proof.Machine.execIllegalStreamWord w s
  | .cxlCacheHostResponse line data exclusive => Sys2Proof.Machine.execCxlCacheHostResponse line data exclusive s
  | .invalidationAcknowledgement msg => Sys2Proof.Machine.execInvalidationAcknowledgement msg s
  | .accumulatorMoveComplete reel move => Sys2Proof.Machine.execAccumulatorMoveComplete reel move s
  | .domainUnitError dom again => Sys2Proof.Machine.execDomainUnitError dom again s
  | .clockRelockComplete dom => Sys2Proof.Machine.execClockRelockComplete dom s
  | .configurationRequest => Sys2Proof.Machine.execConfigurationRequest s

end Sys2Proof.Machine
end

