-- ==== Sys2Proof/Machine/Schedule.lean ====
section
/-! DEFINITION. Who moves when the agenda names no one: the splits, the sequencers and the machine's own events that may move, in rotation
(log entry 1). -/

namespace Sys2Proof.Machine

noncomputable section

/-- The turns of splits that may issue or test a wait. -/
def State.issueActs (s : State) : List Act :=
  s.reels.flatMap fun r =>
    match s.blocks.find? r.2.block with
    | none => []
    | some b => r.2.splits.filterMap fun p => if s.mayIssue r.1 p.1 r.2 p.2 b then some (.issue r.1 p.1 []) else none

/-- The turns of sequencers. -/
def State.streamActs (s : State) : List Act :=
  s.blocks.filterMap fun b =>
    if b.2.seq.mode == .running && SeqWait.retry b.2.seq.wait && s.runs b.1 b.2 then some (.stream b.1 []) else none

/-- Is the home of an address on another wafer, whose answers come from outside? -/
def State.isFar (s : State) (x : Xlat) : Bool := match s.place x.pa with | .far _ => true | _ => false

/-- The events by which a message goes on. -/
def State.messageEvents (s : State) (k : Nat) (m : Msg) : List Instr :=
  let near := fun (x : Xlat) (i : Instr) => (if s.isFar x then [] else [i]) ++ [.fencedRouterAnswer k]
  match m.body with
  | .read .. | .atomic _ (some _) _ _ _ | .watch .. => [.sliceRead k]
  | .write .. | .atomic _ none _ _ _ => [.sliceWriteAccept k]
  | .fillReq _ _ x => near x (.homeGuestRead k 0)
  | .homeWrite .. => [.homeWrite k, .fencedRouterAnswer k]
  | .homeAtomic _ _ _ _ _ x => near x (.homeAtomic k 0)
  | .homeWatch _ _ _ _ true x => near x (.homeWatchRegistration k 0)
  | .homeWatch _ _ _ _ false _ => [.homeWatchDeregistration k, .fencedRouterAnswer k]
  | .contrib .. => [.reductionContribution k, .reductionSlotTimeout k, .fencedRouterAnswer k]
  | .fill .. => [.guestFill k, .fencedRouterAnswer k]
  | .confirm .. => [.storeConfirmed k, .fencedRouterAnswer k]
  | .atomAns _ reel load _ _ => [.loadReturn reel load, .fencedRouterAnswer k]
  | .inval .. => [.guestInvalidation k, .fencedRouterAnswer k]
  | .ack .. => [.invalidationAcknowledgement k, .fencedRouterAnswer k]
  | .report reel slot _ _ => [.watchReport k reel slot, .fencedRouterAnswer k]
  | .watchAns .. => [.watchStatusAnswer k, .fencedRouterAnswer k]

/-- The events by which a split's wait goes on. -/
def waitEvents (reel split : Nat) (w : Wait) : List Instr :=
  match w with
  | .perm .. => [.permissionFill reel split false]
  | .fullEmpty .. => [.fullEmptyQualified reel split, .fullEmptyTimeout reel split]
  | .remote .. => (List.range 4).map (.remoteBankStep reel split ·) ++ [.fullEmptyTimeout reel split]
  | .park .. => [.parkTimeout reel split]
  | .waitm .. => [.waitmPoll reel split]
  | _ => []

/-- The events of a reel: its waits, its loads and its moves. -/
def reelEvents (key : Nat) (r : Reel) : List Instr :=
  (r.splits.flatMap fun p => match p.2.wait with | some w => waitEvents key p.1 w | none => [])
    ++ r.loads.map (fun o => .loadReturn key o.id) ++ r.moves.map fun m => .accumulatorMoveComplete key m.id

/-- The events of a block: its sequencer's waits, and its end. -/
def blockEvents (key : Nat) (b : Block) : List Instr :=
  (match b.seq.wait with
    | some (.perm ..) => [.permissionFill key 4 false]
    | some (.claim ..) => [.mclaimGrant key, .mclaimTimeout key]
    | _ => []) ++ [.blockEnd key]

/-- The events of a core: its engines, its throttle and its shootdowns. -/
def coreEvents (c : Nat) (q : Core) : List Instr :=
  [.victimRecompute c] ++ (if q.shoot.isEmpty then [] else [.permissionShootdownAck c])
    ++ q.cmds.flatMap fun e => [if e.accepted then .engineCommandComplete c e.id [] else .engineCommandAccept c e.id [], .engineFault c e.id []]

/-- The events of a domain: its walks, its clock and its operating point. -/
def domainEvents (d : Nat) (q : Domain) : List Instr :=
  q.walks.map (fun p => .translationWalkComplete d p 0) ++ (if q.relocking then [.clockRelockComplete d] else []) ++ [.operatingPointLower d]

/-- The events of a launch. -/
def launchEvents (id : Nat) (l : Launch) : List Instr :=
  (match l.state with
    | .queued => [.launchAdmit id []]
    | .admitted => [.blockStart id []]
    | .written _ => []) ++ [.launchComplete id, .launchTimeLimit id]

/-- The events of pre-emption: requests, time slices and what may come back. -/
def State.preemptEvents (s : State) : List Instr :=
  (s.preempts.flatMap fun p => [.graceTimerExpiry p.1, .preemptSave p.1, .killTimerExpiry p.1])
    ++ (((s.blocks.map (·.2.part)).foldl insertNew []).map .timeSliceExpiry)
    ++ ((s.saved.filter fun v => !s.switchedOut v.block.part v.ctx).map fun v => .restore v.block.part v.ctx)
    ++ s.saved.flatMap fun v => v.cmds.map fun c => .engineCommandComplete v.block.core c.id []

/-- The events by which collectives end: the decided ones, and those that wait for a wafer that cannot be reached (21 R382). -/
def State.collEvents (s : State) : List Instr :=
  s.colls.flatMap fun c =>
    if c.outcome.isSome then [.collectiveComplete c.desc.group c.desc.seq [] []]
    else if c.members.any s.lostWafers.contains then [.collectiveAbandon c.desc.group c.desc.seq 2 0 [] []]
    else []

/-- The machine's own events that may be due. -/
def State.events (s : State) : List Instr :=
  (s.msgs.flatMap fun m => s.messageEvents m.1 m.2) ++ (s.reels.flatMap fun r => reelEvents r.1 r.2)
    ++ (s.blocks.flatMap fun b => blockEvents b.1 b.2) ++ (s.cores.flatMap fun c => coreEvents c.1 c.2)
    ++ (s.domains.flatMap fun d => domainEvents d.1 d.2)
    ++ (s.faults.flatMap fun f => .faultRecordDelivery f.1 :: (if f.2.startable then [.faultServiceBlockStart f.1] else []))
    ++ (s.launches.flatMap fun l => launchEvents l.1 l.2)
    ++ (s.queues.map fun q => if q.2.collective then .collectiveDescriptor q.1 [] else .queueTakePacket q.1 [])
    ++ s.preemptEvents ++ (if s.mgmt.pendingBells.isEmpty then [] else [.pendingQueueBind []])
    ++ (if s.mgmt.drainRunning then [.drainComplete] else [])
    ++ s.collEvents ++ s.mgmt.rung.map fun n => .doorbellWrite n []

/-- Everything that may move. -/
def State.candidates (s : State) : List Act := s.issueActs ++ s.streamActs ++ s.events.map .event

/-- The turn taken when the agenda is empty: one unit of time passes, and the next candidate in rotation moves. -/
def State.defaultTurn (s : State) : Option Act :=
  let cs := s.candidates
  cs[s.rot % (max 1 cs.length)]?

end

end Sys2Proof.Machine
end

