-- ==== Sys2Proof/Machine/Step.lean ====
section
/-! DEFINITION. One step of the module: time passes, and one party moves. -/

namespace Sys2Proof.Machine

noncomputable section

/-- A party moves. -/
def act (a : Act) (s : State) : Host.Outcome State Fault Refusal :=
  match a with
  | .issue key i ext => issueTurn exec key i ext s
  | .stream key ext => streamTurn exec key ext s
  | .event i => exec i { s with cur := none, scur := none }
  | .evictL1 c line => .next (s.onCore c fun q => q.evictL1 line)
  | .evictI c line => .next (s.onCore c fun q => { q with icache := q.icache.del line })
  | .evictL2 d sec => .next (s.evictL2 d sec)
  | .evictHost line => .next (s.evictHost line)
  | .far op => .next (s.farAccess op)

/-- One step: the next turn of the agenda, or the default turn when it is empty (log entry 1). -/
def step (s : State) : Host.Outcome State Fault Refusal :=
  match s.agenda with
  | t :: rest => act t.act { s with agenda := rest, time := s.time + t.cycles }
  | [] =>
    let s := { s with time := s.time + 1, rot := s.rot + 1 }
    match s.defaultTurn with
    | some a => act a s
    | none => .next s

end

/-- `s` with an instruction word where the next step fetches: a block of one reel stands on core 0 with the word at its PC, and the agenda gives
it the next turn (log entry 20). -/
def State.withFetchWord (s : State) (nbits w : Nat) : State := s.placeWord (BitVec.ofNat 32 (lowBits w nbits))

end Sys2Proof.Machine
end

