-- ==== Sys2Proof/Safety.lean ====
section
/-! DEFINITION. The vocabulary of the statements: what a safe state is, what an instruction acts in, and what it leaves behind. -/

namespace Sys2Proof.Machine

/-- Memory has its canonical form. -/
def State.memOk (s : State) : Prop := Memory.wf s.mem

/-- `x` is what the bundle latched in `s` acts in: its reel, its split and its block are resident (04 R77), and no stream word is latched. -/
structure Issuer.Stands (x : Issuer) (s : State) : Prop where
  state : x.s = s
  alone : s.scur = none
  latched : s.cur = some x.cur
  reel : s.reels.find? x.cur.reel = some x.reel
  split : x.reel.splits.find? x.cur.split = some x.split
  block : s.blocks.find? x.reel.block = some x.block

/-- The executing reel after an instruction that retires and changes nothing else: its split goes on at `pc` and waits for nothing, the reel
has retired one more, and an HS hint has set its priority and, with yield, its rest (02 R35, 08 R165). -/
def Issuer.advanced (x : Issuer) (pc : VA) : Reel :=
  { x.reel with
    splits := x.reel.splits.put x.cur.split { x.split with pc := pc, wait := none, bundle := none }
    retired := x.reel.retired + 1
    prio := match x.cur.bundle.hints.hs with | some p => (p.extractLsb' 1 2).toNat | none => x.reel.prio
    restUntil := match x.cur.bundle.hints.hs with
      | some p => if p.getLsbD 0 then x.s.clock x.coreId + 2 else x.reel.restUntil
      | none => x.reel.restUntil }

/-- The state in which only the executing reel has changed, to `r`, and the bundle is done with. -/
def Issuer.into (x : Issuer) (r : Reel) : State := { x.s with reels := x.s.reels.put x.cur.reel r, cur := none }

/-- The same with the model's identity counter left open: it is no state of the machine (log entry 3). -/
def Issuer.Into (x : Issuer) (t : State) (r : Reel) : Prop := t = { x.into r with nextId := t.nextId }

/-- Is lane `l` one the instruction works on (02 R37)? -/
def Issuer.lane (x : Issuer) (l : Nat) : Prop := x.active.getLsbD l = true

/-- The operands of a vector instruction are legal, some lane is active, and no destination waits for outstanding work (02 R37, R39, 04 R89). -/
structure Issuer.Ready (x : Issuer) (o : VOperands) : Prop where
  legal : o.ok x.cur.bundle.hints.extent x.cur.bundle.hints.hb.isSome x.block.desc.vregs = true
  active : x.active ≠ 0
  free : ∀ m ∈ o.dests x.cur.bundle.hints.extent, x.reel.busyV m = false

/-- Register `m` of lane `l` of reel `r` holds the result of an element of the block that writes it: the low word, or the high word in the
second register of a pair (02 R38). Where the strides keep destinations apart, exactly one element writes `m`. -/
def Issuer.Result (x : Issuer) (o : VOperands) (f : LaneFn) (r : Reel) (m l : Nat) : Prop :=
  ∃ p ∈ x.cur.bundle.hints.extent.elems,
    (m = o.dreg x.cur.bundle.hints.extent p.1 p.2 ∧
        r.vget m l = loWord (o.result f x.reel x.cur.bundle.hints.extent p.1 p.2 l).1) ∨
      (o.wd = true ∧ m = o.dreg x.cur.bundle.hints.extent p.1 p.2 + 1 ∧
        r.vget m l = hiWord (o.result f x.reel x.cur.bundle.hints.extent p.1 p.2 l).1)

/-- The exceptions a lane raises over all elements (02 R40). -/
def Issuer.raised (x : Issuer) (o : VOperands) (f : LaneFn) (l : Nat) : Flags := o.laneFlags f x.reel x.cur.bundle.hints.extent l

/-- What a vector instruction with operands `o` and lane function `f` has made of the vector registers and flags of its reel, but for the
lanes `out`: every destination register of every active lane holds its element's result, every other register and lane is unchanged, and
every active lane's exceptions have been added to its flags. -/
structure Issuer.Lanes (x : Issuer) (o : VOperands) (f : LaneFn) (out : Nat → Prop) (r : Reel) : Prop where
  written : ∀ l m, x.lane l → ¬ out l → m ∈ o.dests x.cur.bundle.hints.extent → x.Result o f r m l
  kept : ∀ l m, l < 32 → (¬ x.lane l ∨ out l ∨ m ∉ o.dests x.cur.bundle.hints.extent) → r.vget m l = x.reel.vget m l
  flags : ∀ l, x.lane l → r.flagsOf l = x.reel.flagsOf l ||| x.raised o f l
  flagsKept : ∀ l, ¬ x.lane l → r.flagsOf l = x.reel.flagsOf l

/-- A vector instruction has retired: only the vector registers and flags of its reel have changed, as `Lanes` says, and its split has gone
on to the next word. -/
def Issuer.Computes (x : Issuer) (t : State) (o : VOperands) (f : LaneFn) : Prop :=
  ∃ r, x.Into t r ∧ r = { x.advanced x.nextPc with v := r.v, fflags := r.fflags } ∧ x.Lanes o f (fun _ => False) r

/-- The reel `r` after taking a precise trap to its handler (04 R94): the trap registers, handler mode, the handler's address in the trapping
split, every other split paused. -/
def Issuer.trapped (x : Issuer) (r : Reel) (word mask kind : Word) : Reel :=
  { r with
    xpc := x.cur.bundle.start.setWidth 32, xinst := word, xmask := mask, xkind := kind
    handler := true, tcrEntry := r.tcr
    trapPc := x.cur.bundle.start, trapIpc := x.cur.bundle.ipc, trapLanes := x.split.lanes, trapDepth := x.split.stack.length
    splits := (r.splits.mapVals fun j p => if j = x.cur.split then p else { p with paused := true }).put x.cur.split
      { x.split with pc := r.xvechi ++ r.xvec, wait := none, bundle := none } }

/-- The reel has a handler and is not in it, so that a precise trap vectors (04 R94 to R96). -/
structure Issuer.Vectors (x : Issuer) : Prop where
  outside : x.reel.handler = false
  handled : ¬ (x.reel.xvec = 0 ∧ x.reel.xvechi = 0)

end Sys2Proof.Machine
end

