-- ==== Sys2Proof/Certificates/Slice0/Obligations.lean ====
section
/-! DEFINITION. The statements about the model, each of a numbered rule of the spec or derived from its sections. -/

namespace Sys2Proof.Rows

end Sys2Proof.Rows

open Sys2Proof Sys2Proof.Machine Sys2Proof.Rows

/-! ## Integer lanes -/

namespace Sys2Proof.Rows

/-- The operands of a 3V word: destination, two sources, and which of them are pairs (05 R103). -/
def ops3 (f : V3) (wd wa wb : Bool) (c : CSrc) : VOperands := ⟨f.vd.toNat, f.va.toNat, bsrcOf f.sb f.vb, c, wd, wa, wb, true⟩
/-- The operands of a unary word. -/
def ops2 (f : V2) (wd wa : Bool) : VOperands := ⟨f.vd.toNat, f.va.toNat, .none, .none, wd, wa, false, true⟩
/-- The operands of an immediate word. -/
def opsI (vd va : BitVec 7) (useA : Bool) (x : Nat) : VOperands :=
  ⟨vd.toNat, va.toNat, .imm (BitVec.ofNat 64 x), .none, false, false, false, useA⟩

/-- imm9 sign-extended to 32 bits, or the 32 raw bits payload · 2^9 + imm9 of HX (02 R27, R35, 05 R109). -/
def immS (x : Issuer) (i : BitVec 9) : Nat :=
  match x.cur.bundle.hints.hx with | some p => p.toNat * 2 ^ 9 + i.toNat | none => (sxNat i.toNat 9 % 2 ^ 32).toNat
/-- imm9 zero-extended, or the same raw bits. -/
def immZ (x : Issuer) (i : BitVec 9) : Nat :=
  match x.cur.bundle.hints.hx with | some p => p.toNat * 2 ^ 9 + i.toNat | none => i.toNat

/-- Sx(a, 32). -/
def sx (a : Nat) : Int := sxNat a 32
/-- The count of a shift: the low byte (05 R107). -/
def cnt (b : Nat) : Nat := b % 256
/-- Position and clipped length of a field (05 R108). -/
def fpos (b : Nat) : Nat := b % 32
/-- The clipped length. -/
def flen (b : Nat) : Nat := min (b / 2 ^ 8 % 2 ^ 6) (32 - fpos b)
/-- The mask of a field. -/
def fmask (b : Nat) : Nat := (2 ^ flen b - 1) * 2 ^ fpos b
/-- The field of a. -/
def field (a b : Nat) : Nat := (a &&& fmask b) / 2 ^ fpos b

/-- What a lane computes from its number and three operands, as an exact integer of which the destination keeps the low 32 or 64 bits. -/
abbrev Exact := Nat → Nat → Nat → Nat → Int

/-- The lane function of exact integers, which raises no exception (05 R101). -/
def exact (g : Exact) : LaneFn := fun l a b d => (BitVec.ofInt 64 (g l a.toNat b.toNat d.toNat), 0)

/-- The integer instructions, selects and moves: the instruction, its operands in an issuer, and its result in exact integers, as the tables
of 05 R105, R107, R108, R109 and R113 give it. -/
inductive IntRow (x : Issuer) : Instr → VOperands → Exact → Prop
  | iadd f : f.ok false false false → IntRow x (.iadd f) (ops3 f false false false .none) fun _ a b _ => a + b
  | isub f : f.ok false false false → IntRow x (.isub f) (ops3 f false false false .none) fun _ a b _ => a - b
  | imul f : f.ok false false false → IntRow x (.imul f) (ops3 f false false false .none) fun _ a b _ => a * b
  | imulhI f : f.ok false false false → IntRow x (.imulhI f) (ops3 f false false false .none) fun _ a b _ => sx a * sx b / 2 ^ 32
  | imulhZ f : f.ok false false false → IntRow x (.imulhZ f) (ops3 f false false false .none) fun _ a b _ => a * b / 2 ^ 32
  | iminI f : f.ok false false false → IntRow x (.iminI f) (ops3 f false false false .none) fun _ a b _ => min (sx a) (sx b)
  | imaxI f : f.ok false false false → IntRow x (.imaxI f) (ops3 f false false false .none) fun _ a b _ => max (sx a) (sx b)
  | iminZ f : f.ok false false false → IntRow x (.iminZ f) (ops3 f false false false .none) fun _ a b _ => min a b
  | imaxZ f : f.ok false false false → IntRow x (.imaxZ f) (ops3 f false false false .none) fun _ a b _ => max a b
  | iabs f : IntRow x (.iabs f) (ops2 f false false) fun _ a _ _ => |sx a|
  | iaddSatI f : f.ok false false false →
      IntRow x (.iaddSatI f) (ops3 f false false false .none) fun _ a b _ => max (-2 ^ 31) (min (sx a + sx b) (2 ^ 31 - 1))
  | isubSatI f : f.ok false false false →
      IntRow x (.isubSatI f) (ops3 f false false false .none) fun _ a b _ => max (-2 ^ 31) (min (sx a - sx b) (2 ^ 31 - 1))
  | iadd64 f : f.ok true true true → IntRow x (.iadd64 f) (ops3 f true true true .none) fun _ a b _ => a + b
  | isub64 f : f.ok true true true → IntRow x (.isub64 f) (ops3 f true true true .none) fun _ a b _ => a - b
  | imulWideI f : f.ok true false false → IntRow x (.imulWideI f) (ops3 f true false false .none) fun _ a b _ => sx a * sx b
  | imulWideZ f : f.ok true false false → IntRow x (.imulWideZ f) (ops3 f true false false .none) fun _ a b _ => a * b
  | and f : f.ok false false false → IntRow x (.and f) (ops3 f false false false .none) fun _ a b _ => (a &&& b : Nat)
  | or f : f.ok false false false → IntRow x (.or f) (ops3 f false false false .none) fun _ a b _ => (a ||| b : Nat)
  | xor f : f.ok false false false → IntRow x (.xor f) (ops3 f false false false .none) fun _ a b _ => (a ^^^ b : Nat)
  | andn f : f.ok false false false →
      IntRow x (.andn f) (ops3 f false false false .none) fun _ a b _ => (a &&& (2 ^ 32 - 1 - b) : Nat)
  | shl f : f.ok false false false → IntRow x (.shl f) (ops3 f false false false .none) fun _ a b _ => a * 2 ^ cnt b
  | shr f : f.ok false false false → IntRow x (.shr f) (ops3 f false false false .none) fun _ a b _ => a / 2 ^ cnt b
  | sar f : f.ok false false false → IntRow x (.sar f) (ops3 f false false false .none) fun _ a b _ => sx a / 2 ^ cnt b
  | rotl f : f.ok false false false → IntRow x (.rotl f) (ops3 f false false false .none)
      fun _ a b _ => a * 2 ^ (cnt b % 32) + a / 2 ^ (32 - cnt b % 32)
  | shl64 f : f.ok true true false → IntRow x (.shl64 f) (ops3 f true true false .none) fun _ a b _ => a * 2 ^ cnt b
  | shr64 f : f.ok true true false → IntRow x (.shr64 f) (ops3 f true true false .none) fun _ a b _ => a / 2 ^ cnt b
  | popc f : IntRow x (.popc f) (ops2 f false false) fun _ a _ _ => ((List.range 32).filter fun i => a.testBit i).length
  | clz f : IntRow x (.clz f) (ops2 f false false) fun _ a _ _ => 32 - (if a = 0 then 0 else Nat.log2 a + 1)
  | brev f : IntRow x (.brev f) (ops2 f false false) fun _ a _ _ => (BitVec.ofNat 32 a).reverse.toNat
  | bfxZ f : f.ok false false false → IntRow x (.bfxZ f) (ops3 f false false false .none) fun _ a b _ => field a b
  | bfxI f : f.ok false false false →
      IntRow x (.bfxI f) (ops3 f false false false .none) fun _ a b _ => sxNat (field a b) (flen b)
  | bfi f : f.ok false false false → IntRow x (.bfi f) (ops3 f false false false .dest)
      fun _ a b d => ((d &&& (2 ^ 32 - 1 - fmask b)) ||| (a * 2 ^ fpos b &&& fmask b) : Nat)
  | iaddi f : IntRow x (.iaddi f) (opsI f.vd f.va true (immS x f.imm)) fun _ a b _ => a + b
  | andi f : IntRow x (.andi f) (opsI f.vd f.va true (immZ x f.imm)) fun _ a b _ => (a &&& b : Nat)
  | ori f : IntRow x (.ori f) (opsI f.vd f.va true (immZ x f.imm)) fun _ a b _ => (a ||| b : Nat)
  | xori f : IntRow x (.xori f) (opsI f.vd f.va true (immZ x f.imm)) fun _ a b _ => (a ^^^ b : Nat)
  | shli f : IntRow x (.shli f) (opsI f.vd f.va true f.n.toNat) fun _ a b _ => a * 2 ^ b
  | shri f : IntRow x (.shri f) (opsI f.vd f.va true f.n.toNat) fun _ a b _ => a / 2 ^ b
  | sari f : IntRow x (.sari f) (opsI f.vd f.va true f.n.toNat) fun _ a b _ => sx a / 2 ^ b
  | movi f : IntRow x (.movi f) (opsI f.vd 0 false (immS x f.imm)) fun _ _ b _ => b
  | sel f : IntRow x (.sel f) ⟨f.vd.toNat, f.va.toNat, .vec f.vb.toNat, .none, false, false, false, true⟩
      fun l a b _ => if (x.reel.kget x.split.lanes f.kc.toNat).getLsbD l then a else b
  | mov f : IntRow x (.mov f) (ops2 f false false) fun _ a _ _ => a

end Sys2Proof.Rows


/-- 05 R101, R105 to R109, R113: every integer instruction, `sel` and `mov`, with legal operands and some lane active, retires; each active
lane of each element's destination holds the table's result modulo 2^32 or 2^64, and nothing else of the machine changes: no other lane or
register, no flag, no counter, no byte of memory. -/
def Obligations.IntegerResults : Prop :=
  ∀ (i : Instr) (x : Issuer) (o : VOperands) (g : Exact) (s : State),
    IntRow x i o g → x.Stands s → x.Ready o → ∃ t, exec i s = .next t ∧ x.Computes t o (exact g) ∧ t.mem = s.mem

/-! ## Floating-point lanes -/

namespace Sys2Proof.Rows

/-- The addend of a fused instruction: the destination, or the register of an HX hint whose payload [22:7] is 0 (06 R125). -/
inductive Addend (x : Issuer) : CSrc → Prop
  | dest : x.cur.bundle.hints.hx = none → Addend x .dest
  | vec p : x.cur.bundle.hints.hx = some p → p.extractLsb' 7 16 = 0 → (p.setWidth 7 : BitVec 7).toNat < x.block.desc.vregs →
      Addend x (.vec (p.setWidth 7 : BitVec 7).toNat)

/-- A bit operation on the sign: it raises nothing and ignores flushing (06 R124). -/
def bits (g : Nat → Nat → Nat) : LaneFn := fun _ a b _ => (BitVec.ofNat 64 (g a.toNat b.toNat), 0)

/-- The operands of a conversion to type code `dst` (06 R130). -/
def opsCvt (dst : Nat) (f : CvtOp) : VOperands := ⟨f.vd.toNat, f.va.toNat, .none, .none, cvtWide dst, cvtWide f.src.toNat, false, true⟩

/-- A conversion that the word and its HT hint allow: legal codes and registers, and no rounding named twice (02 R35, 06 R130). -/
structure CvtUse (x : Issuer) (dst : Nat) (f : CvtOp) : Prop where
  ok : f.ok dst = true
  once : f.rnd = 0 ∨ ∀ p, x.cur.bundle.hints.ht = some p → (p.setWidth 3 : BitVec 3) = 0

/-- A conversion's lane: the word's rounding code, or the environment's mode (03 R61, 06 R131). -/
def cvtLane (x : Issuer) (dst : Nat) (f : CvtOp) : LaneFn := fun _ a _ _ =>
  let r := convert (.ofCode dst) (.ofCode f.src.toNat) (if f.rnd = 0 then x.rm else RMode.ofCode f.rnd.toNat) x.fz a.toNat
  (BitVec.ofNat 64 r.1, r.2)

/-- The floating-point instructions and conversions: the instruction, its operands and its lane function (06 R123 to R131). -/
inductive FpRow (x : Issuer) : Instr → VOperands → LaneFn → Prop
  | faddF32 f : f.ok false false false → FpRow x (.faddF32 f) (ops3 f false false false .none) (fpLane .f32 x.rm x.fz (onVals2 fAdd))
  | fsubF32 f : f.ok false false false → FpRow x (.fsubF32 f) (ops3 f false false false .none) (fpLane .f32 x.rm x.fz (onVals2 fSub))
  | fmulF32 f : f.ok false false false → FpRow x (.fmulF32 f) (ops3 f false false false .none) (fpLane .f32 x.rm x.fz (onVals2 fMul))
  | ffmaF32 f c : f.ok false false false → Addend x c → FpRow x (.ffmaF32 f) (ops3 f false false false c) (fpLane .f32 x.rm x.fz (onFma false false))
  | ffmsF32 f c : f.ok false false false → Addend x c → FpRow x (.ffmsF32 f) (ops3 f false false false c) (fpLane .f32 x.rm x.fz (onFma false true))
  | fnmaF32 f c : f.ok false false false → Addend x c → FpRow x (.fnmaF32 f) (ops3 f false false false c) (fpLane .f32 x.rm x.fz (onFma true false))
  | fminF32 f : f.ok false false false → FpRow x (.fminF32 f) (ops3 f false false false .none) (fpLane .f32 x.rm x.fz (onMinMax false))
  | fmaxF32 f : f.ok false false false → FpRow x (.fmaxF32 f) (ops3 f false false false .none) (fpLane .f32 x.rm x.fz (onMinMax true))
  | fabsF32 f : f.ok false false → FpRow x (.fabsF32 f) (ops2 f false false) (bits fun a _ => a % 2 ^ 31)
  | fnegF32 f : f.ok false false → FpRow x (.fnegF32 f) (ops2 f false false) (bits fun a _ => a ^^^ 2 ^ 31)
  | fcsgnF32 f : f.ok false false false → FpRow x (.fcsgnF32 f) (ops3 f false false false .none) (bits fun a b => a % 2 ^ 31 + b / 2 ^ 31 * 2 ^ 31)
  | faddF64 f : f.ok true true true → FpRow x (.faddF64 f) (ops3 f true true true .none) (fpLane .f64 x.rm x.fz (onVals2 fAdd))
  | fsubF64 f : f.ok true true true → FpRow x (.fsubF64 f) (ops3 f true true true .none) (fpLane .f64 x.rm x.fz (onVals2 fSub))
  | fmulF64 f : f.ok true true true → FpRow x (.fmulF64 f) (ops3 f true true true .none) (fpLane .f64 x.rm x.fz (onVals2 fMul))
  | ffmaF64 f c : f.ok true true true → Addend x c → FpRow x (.ffmaF64 f) (ops3 f true true true c) (fpLane .f64 x.rm x.fz (onFma false false))
  | ffmsF64 f c : f.ok true true true → Addend x c → FpRow x (.ffmsF64 f) (ops3 f true true true c) (fpLane .f64 x.rm x.fz (onFma false true))
  | fnmaF64 f c : f.ok true true true → Addend x c → FpRow x (.fnmaF64 f) (ops3 f true true true c) (fpLane .f64 x.rm x.fz (onFma true false))
  | fminF64 f : f.ok true true true → FpRow x (.fminF64 f) (ops3 f true true true .none) (fpLane .f64 x.rm x.fz (onMinMax false))
  | fmaxF64 f : f.ok true true true → FpRow x (.fmaxF64 f) (ops3 f true true true .none) (fpLane .f64 x.rm x.fz (onMinMax true))
  | fabsF64 f : f.ok true true → FpRow x (.fabsF64 f) (ops2 f true true) (bits fun a _ => a % 2 ^ 63)
  | fnegF64 f : f.ok true true → FpRow x (.fnegF64 f) (ops2 f true true) (bits fun a _ => a ^^^ 2 ^ 63)
  | fcsgnF64 f : f.ok true true true → FpRow x (.fcsgnF64 f) (ops3 f true true true .none) (bits fun a b => a % 2 ^ 63 + b / 2 ^ 63 * 2 ^ 63)
  | haddF16 f : f.ok false false false → FpRow x (.haddF16 f) (ops3 f false false false .none) (packedLane .f16 x.rm x.fz (onVals2 fAdd))
  | hmulF16 f : f.ok false false false → FpRow x (.hmulF16 f) (ops3 f false false false .none) (packedLane .f16 x.rm x.fz (onVals2 fMul))
  | hfmaF16 f c : f.ok false false false → Addend x c → FpRow x (.hfmaF16 f) (ops3 f false false false c) (packedLane .f16 x.rm x.fz (onFma false false))
  | hminF16 f : f.ok false false false → FpRow x (.hminF16 f) (ops3 f false false false .none) (packedLane .f16 x.rm x.fz (onMinMax false))
  | hmaxF16 f : f.ok false false false → FpRow x (.hmaxF16 f) (ops3 f false false false .none) (packedLane .f16 x.rm x.fz (onMinMax true))
  | haddBf16 f : f.ok false false false → FpRow x (.haddBf16 f) (ops3 f false false false .none) (packedLane .bf16 x.rm x.fz (onVals2 fAdd))
  | hmulBf16 f : f.ok false false false → FpRow x (.hmulBf16 f) (ops3 f false false false .none) (packedLane .bf16 x.rm x.fz (onVals2 fMul))
  | hfmaBf16 f c : f.ok false false false → Addend x c → FpRow x (.hfmaBf16 f) (ops3 f false false false c) (packedLane .bf16 x.rm x.fz (onFma false false))
  | hminBf16 f : f.ok false false false → FpRow x (.hminBf16 f) (ops3 f false false false .none) (packedLane .bf16 x.rm x.fz (onMinMax false))
  | hmaxBf16 f : f.ok false false false → FpRow x (.hmaxBf16 f) (ops3 f false false false .none) (packedLane .bf16 x.rm x.fz (onMinMax true))
  | frcpF32 f : f.ok false false → FpRow x (.frcpF32 f) (ops2 f false false) (fpLane .f32 x.rm x.fz (onVals1 fRcp))
  | frsqF32 f : f.ok false false → FpRow x (.frsqF32 f) (ops2 f false false) (fpLane .f32 x.rm x.fz (onVals1 fRsq))
  | fsqrtF32 f : f.ok false false → FpRow x (.fsqrtF32 f) (ops2 f false false) (fpLane .f32 x.rm x.fz (onVals1 fSqrt))
  | fexp2F32 f : f.ok false false → FpRow x (.fexp2F32 f) (ops2 f false false) (fpLane .f32 x.rm x.fz (onVals1 fExp2))
  | flog2F32 f : f.ok false false → FpRow x (.flog2F32 f) (ops2 f false false) (fpLane .f32 x.rm x.fz (onVals1 fLog2))
  | ffloorF32 f : f.ok false false → FpRow x (.ffloorF32 f) (ops2 f false false) (fpLane .f32 x.rm x.fz (onVals1 fun f _ _ a => fIntegral f .rd false a))
  | fceilF32 f : f.ok false false → FpRow x (.fceilF32 f) (ops2 f false false) (fpLane .f32 x.rm x.fz (onVals1 fun f _ _ a => fIntegral f .ru false a))
  | ftruncF32 f : f.ok false false → FpRow x (.ftruncF32 f) (ops2 f false false) (fpLane .f32 x.rm x.fz (onVals1 fun f _ _ a => fIntegral f .rz false a))
  | frintF32 f : f.ok false false → FpRow x (.frintF32 f) (ops2 f false false) (fpLane .f32 x.rm x.fz (onVals1 fun f rm _ a => fIntegral f rm true a))
  | fclassF32 f : f.ok false false → FpRow x (.fclassF32 f) (ops2 f false false) (fpLane .f32 x.rm x.fz (onVals1 fun f _ _ a => fClass f a))
  | fsqrtF64 f : f.ok true true → FpRow x (.fsqrtF64 f) (ops2 f true true) (fpLane .f64 x.rm x.fz (onVals1 fSqrt))
  | frcpF64 f : f.ok true true → FpRow x (.frcpF64 f) (ops2 f true true) (fpLane .f64 x.rm x.fz (onVals1 fRcp))
  | fdivF32 f : f.ok false false false → FpRow x (.fdivF32 f) (ops3 f false false false .none) (fpLane .f32 x.rm x.fz (onVals2 fDiv))
  | fdivF64 f : f.ok true true true → FpRow x (.fdivF64 f) (ops3 f true true true .none) (fpLane .f64 x.rm x.fz (onVals2 fDiv))
  | cvtI32 f : CvtUse x 0 f → FpRow x (.cvtI32 f) (opsCvt 0 f) (cvtLane x 0 f)
  | cvtZ32 f : CvtUse x 1 f → FpRow x (.cvtZ32 f) (opsCvt 1 f) (cvtLane x 1 f)
  | cvtI64 f : CvtUse x 2 f → FpRow x (.cvtI64 f) (opsCvt 2 f) (cvtLane x 2 f)
  | cvtZ64 f : CvtUse x 3 f → FpRow x (.cvtZ64 f) (opsCvt 3 f) (cvtLane x 3 f)
  | cvtF32 f : CvtUse x 4 f → FpRow x (.cvtF32 f) (opsCvt 4 f) (cvtLane x 4 f)
  | cvtF64 f : CvtUse x 5 f → FpRow x (.cvtF64 f) (opsCvt 5 f) (cvtLane x 5 f)
  | cvtF16 f : CvtUse x 6 f → FpRow x (.cvtF16 f) (opsCvt 6 f) (cvtLane x 6 f)
  | cvtBf16 f : CvtUse x 7 f → FpRow x (.cvtBf16 f) (opsCvt 7 f) (cvtLane x 7 f)
  | cvtE4m3 f : CvtUse x 8 f → FpRow x (.cvtE4m3 f) (opsCvt 8 f) (cvtLane x 8 f)
  | cvtE5m2 f : CvtUse x 9 f → FpRow x (.cvtE5m2 f) (opsCvt 9 f) (cvtLane x 9 f)
  | cvtI8 f : CvtUse x 10 f → FpRow x (.cvtI8 f) (opsCvt 10 f) (cvtLane x 10 f)
  | cvtZ8 f : CvtUse x 11 f → FpRow x (.cvtZ8 f) (opsCvt 11 f) (cvtLane x 11 f)
  | cvtI16 f : CvtUse x 12 f → FpRow x (.cvtI16 f) (opsCvt 12 f) (cvtLane x 12 f)
  | cvtZ16 f : CvtUse x 13 f → FpRow x (.cvtZ16 f) (opsCvt 13 f) (cvtLane x 13 f)

end Sys2Proof.Rows


/-- 06 R121 and the tables of R123 to R131: every floating-point instruction and conversion, with legal operands, some lane active and no enabled
exception raised, retires; each active lane of each element's destination holds the operation's result under the rounding mode and flushing in
force, the exceptions it raises are added to the lane's flags, and nothing else of the machine changes. Choices of the model that it rests on: log
entries 10 and 29. -/
def Obligations.FloatResults : Prop :=
  ∀ (i : Instr) (x : Issuer) (o : VOperands) (f : LaneFn) (s : State),
    FpRow x i o f → x.Stands s → x.Ready o →
      (∀ l, x.lane l → x.raised o f l &&& enables x.reel x.cur.bundle.hints.ht = 0) →
      ∃ t, exec i s = .next t ∧ x.Computes t o f ∧ t.mem = s.mem

/-- 04 R92 to R94, 02 R40: where some active lane of a floating-point instruction raises an enabled exception, the instruction takes the
arithmetic trap. `xmask` holds exactly the lanes that raised an enabled exception, `xkind` is cause 1 with the OR of the enabled exceptions
they raised in [12:8], the destination is written in every other active lane and in no lane of `xmask`, every raised exception is added to
its lane's flags, and the split goes on at the handler. -/
def Obligations.ArithmeticTrap : Prop :=
  ∀ (i : Instr) (x : Issuer) (o : VOperands) (f : LaneFn) (s : State) (l₀ : Nat),
    FpRow x i o f → x.Stands s → x.Ready o → x.Vectors → x.lane l₀ →
      x.raised o f l₀ &&& enables x.reel x.cur.bundle.hints.ht ≠ 0 →
      ∃ (t : State) (r : Reel) (mask kind : Word), exec i s = .next t ∧ x.Into t r
        ∧ r = { x.trapped x.reel x.cur.bundle.word mask kind with v := r.v, fflags := r.fflags }
        ∧ (∀ l, l < 32 → (mask.getLsbD l = true ↔ x.lane l ∧ x.raised o f l &&& enables x.reel x.cur.bundle.hints.ht ≠ 0))
        ∧ kind.setWidth 8 = (1 : BitVec 8) ∧ kind >>> 13 = 0
        ∧ (∀ b, b < 5 → (kind.getLsbD (8 + b) = true ↔
            ∃ l, x.lane l ∧ (x.raised o f l &&& enables x.reel x.cur.bundle.hints.ht).getLsbD b = true))
        ∧ x.Lanes o f (fun l => x.raised o f l &&& enables x.reel x.cur.bundle.hints.ht ≠ 0) r

/-! ## Compares, masks, uniform registers and lane exchange -/

namespace Sys2Proof.Rows

/-- A uniform register as a number. -/
abbrev S (x : Issuer) (n : BitVec 6) : Nat := (x.reel.sget n.toNat).toNat
/-- A lane mask as a number. -/
abbrev K (x : Issuer) (n : BitVec 3) : Nat := (x.reel.kget x.split.lanes n.toNat).toNat

/-- The relation of a compare's condition on integers: eq, ne, lt, le, gt, ge (05 R110). -/
def iHolds (c : Nat) (a b : Int) : Bool :=
  match c with | 0 => a == b | 1 => a != b | 2 => a < b | 3 => a ≤ b | 4 => b < a | _ => b ≤ a

/-- A compare's bit and the exceptions it raises: integers by R110, floats by R111. -/
def cmpBit (f : CmpOp) (fz : Bool) (a b : DWord) : Bool × Flags :=
  match f.type.toNat with
  | 0 => (iHolds f.cond.toNat (sx (a.toNat % 2 ^ 32)) (sx (b.toNat % 2 ^ 32)), 0)
  | 1 => (iHolds f.cond.toNat (a.toNat % 2 ^ 32 : Nat) (b.toNat % 2 ^ 32 : Nat), 0)
  | 2 => fCmp (.ofCode f.cond.toNat) (FVal.read .f32 fz (a.toNat % 2 ^ 32)) (FVal.read .f32 fz (b.toNat % 2 ^ 32))
  | _ => fCmp (.ofCode f.cond.toNat) (FVal.read .f64 fz a.toNat) (FVal.read .f64 fz b.toNat)

/-- A compare's second operand in a lane: a uniform register or pair, or a vector one (05 R110). -/
def cmpB (x : Issuer) (f : CmpOp) (l : Nat) : DWord :=
  if f.sb = 1 then (if f.type = 3 then x.reel.spair f.vb.toNat else (x.reel.sget f.vb.toNat).setWidth 64)
  else x.reel.vread (f.type == 3) f.vb.toNat l

/-- A compare of a lane. -/
def cmpLane (x : Issuer) (f : CmpOp) (l : Nat) : Bool × Flags :=
  cmpBit f (flushes x.reel none) (x.reel.vread (f.type == 3) f.va.toNat l) (cmpB x f l)

/-- How a compare's bit joins the mask's (05 R110). -/
def joined (comb : Nat) (old t : Bool) : Bool :=
  match comb with | 0 => t | 1 => old && t | 2 => old || t | _ => old && !t

/-- A compare whose registers are legal, on some lane. -/
structure CmpUse (x : Issuer) (f : CmpOp) : Prop where
  ok : f.ok = true
  va : vregOk x.block.desc.vregs (f.type == 3) f.va.toNat = true
  vb : if f.sb = 1 then f.type = 3 → f.vb.toNat % 2 = 0 else vregOk x.block.desc.vregs (f.type == 3) f.vb.toNat = true
  active : x.active ≠ 0

/-- The mask register of a compare, and its flags, after the lanes but `out`. -/
structure CmpLanes (x : Issuer) (f : CmpOp) (out : Nat → Prop) (r : Reel) : Prop where
  bit : f.kd ≠ 0 → ∀ l, x.lane l → ¬ out l → (r.kget x.split.lanes f.kd.toNat).getLsbD l =
    joined f.comb.toNat ((x.reel.kget x.split.lanes f.kd.toNat).getLsbD l) (cmpLane x f l).1
  kept : ∀ l, l < 32 → (¬ x.lane l ∨ out l) → (r.kget x.split.lanes f.kd.toNat).getLsbD l = (x.reel.kget x.split.lanes f.kd.toNat).getLsbD l
  others : ∀ n, n ≠ f.kd.toNat ∨ n = 0 → r.kget x.split.lanes n = x.reel.kget x.split.lanes n
  flags : ∀ l, x.lane l → r.flagsOf l = x.reel.flagsOf l ||| (cmpLane x f l).2
  flagsKept : ∀ l, ¬ x.lane l → r.flagsOf l = x.reel.flagsOf l

/-- The condition of `ucmp` (06 R133). -/
def uHolds (c a b : Nat) : Bool :=
  match c with | 0 => a == b | 1 => a != b | 2 => sx a < sx b | 3 => a < b | 4 => sx a ≤ sx b | _ => a ≤ b

/-- The instructions that write one uniform register: the instruction, the register, and the exact value of which it keeps 32 bits (05 R117,
R118, 06 R132, R133). -/
inductive UniRow (x : Issuer) : Instr → Nat → Int → Prop
  | uadd f : UniRow x (.uadd f) f.sd.toNat (let a := S x f.sa; let b := S x f.sb; a + b)
  | uaddImm f : UniRow x (.uaddImm f) f.sd.toNat (let a := S x f.sa; let b := immS x f.imm; a + b)
  | usub f : UniRow x (.usub f) f.sd.toNat (let a := S x f.sa; let b := S x f.sb; (a : Int) - b)
  | usubImm f : UniRow x (.usubImm f) f.sd.toNat (let a := S x f.sa; let b := immS x f.imm; (a : Int) - b)
  | umul f : UniRow x (.umul f) f.sd.toNat (let a := S x f.sa; let b := S x f.sb; a * b)
  | umulImm f : UniRow x (.umulImm f) f.sd.toNat (let a := S x f.sa; let b := immS x f.imm; a * b)
  | uand f : UniRow x (.uand f) f.sd.toNat (let a := S x f.sa; let b := S x f.sb; (a &&& b : Nat))
  | uandImm f : UniRow x (.uandImm f) f.sd.toNat (let a := S x f.sa; let b := immS x f.imm; (a &&& b : Nat))
  | uor f : UniRow x (.uor f) f.sd.toNat (let a := S x f.sa; let b := S x f.sb; (a ||| b : Nat))
  | uorImm f : UniRow x (.uorImm f) f.sd.toNat (let a := S x f.sa; let b := immS x f.imm; (a ||| b : Nat))
  | uxor f : UniRow x (.uxor f) f.sd.toNat (let a := S x f.sa; let b := S x f.sb; (a ^^^ b : Nat))
  | uxorImm f : UniRow x (.uxorImm f) f.sd.toNat (let a := S x f.sa; let b := immS x f.imm; (a ^^^ b : Nat))
  | ushl f : UniRow x (.ushl f) f.sd.toNat (let a := S x f.sa; let b := S x f.sb; a * 2 ^ cnt b)
  | ushlImm f : UniRow x (.ushlImm f) f.sd.toNat (let a := S x f.sa; let b := immS x f.imm; a * 2 ^ cnt b)
  | ushr f : UniRow x (.ushr f) f.sd.toNat (let a := S x f.sa; let b := S x f.sb; (a / 2 ^ cnt b : Nat))
  | ushrImm f : UniRow x (.ushrImm f) f.sd.toNat (let a := S x f.sa; let b := immS x f.imm; (a / 2 ^ cnt b : Nat))
  | usar f : UniRow x (.usar f) f.sd.toNat (let a := S x f.sa; let b := S x f.sb; sx a / 2 ^ cnt b)
  | usarImm f : UniRow x (.usarImm f) f.sd.toNat (let a := S x f.sa; let b := immS x f.imm; sx a / 2 ^ cnt b)
  | uminI f : UniRow x (.uminI f) f.sd.toNat (let a := S x f.sa; let b := S x f.sb; min (sx a) (sx b))
  | uminIImm f : UniRow x (.uminIImm f) f.sd.toNat (let a := S x f.sa; let b := immS x f.imm; min (sx a) (sx b))
  | umaxI f : UniRow x (.umaxI f) f.sd.toNat (let a := S x f.sa; let b := S x f.sb; max (sx a) (sx b))
  | umaxIImm f : UniRow x (.umaxIImm f) f.sd.toNat (let a := S x f.sa; let b := immS x f.imm; max (sx a) (sx b))
  | umov f : UniRow x (.umov f) f.sd.toNat (S x f.sa)
  | umovImm f : UniRow x (.umovImm f) f.sd.toNat (immS x f.imm)
  | ucmp f : f.ok = true → UniRow x (.ucmp f) f.sd.toNat (if uHolds f.cond.toNat (S x f.sa) (S x f.sb) then 1 else 0)
  | kmovSk f : UniRow x (.kmovSk f) f.sd.toNat (K x f.ka)
  | kpopc f : UniRow x (.kpopc f) f.sd.toNat (((List.range 32).filter fun i => (K x f.ka).testBit i).length)
  | kffs f : UniRow x (.kffs f) f.sd.toNat ((((List.range 32).find? fun i => (K x f.ka).testBit i).getD 32 : Nat))
  | lrd f : f.va.toNat < x.block.desc.vregs → x.active ≠ 0 →
      UniRow x (.lrd f) f.sd.toNat (if x.active.getLsbD f.n.toNat then (x.reel.vget f.va.toNat f.n.toNat).toNat else 0)
  | lrdS f : f.va.toNat < x.block.desc.vregs → x.active ≠ 0 → UniRow x (.lrdS f) f.sd.toNat
      (if x.active.getLsbD (S x f.sn % 32) then (x.reel.vget f.va.toNat (S x f.sn % 32)).toNat else 0)

/-- The instructions that write one whole lane mask: the instruction, the mask, and each of its bits (05 R116, R118). -/
inductive MaskRow (x : Issuer) : Instr → Nat → (Nat → Bool) → Prop
  | kand f : MaskRow x (.kand f) f.kd.toNat fun l => (K x f.ka).testBit l && (K x f.kb).testBit l
  | kor f : MaskRow x (.kor f) f.kd.toNat fun l => (K x f.ka).testBit l || (K x f.kb).testBit l
  | kxor f : MaskRow x (.kxor f) f.kd.toNat fun l => (K x f.ka).testBit l ^^ (K x f.kb).testBit l
  | knot f : MaskRow x (.knot f) f.kd.toNat fun l => !(K x f.ka).testBit l
  | kmovKs f : MaskRow x (.kmovKs f) f.kd.toNat fun l => (S x f.sa).testBit l
  | ballot f : f.va.toNat < x.block.desc.vregs → x.active ≠ 0 →
      MaskRow x (.ballot f) f.kd.toNat fun l => x.active.getLsbD l && x.reel.vget f.va.toNat l != 0

/-- The source lane of a shuffle mode with d = V[vb][l] mod 32, in exact integers (05 R114). -/
def shuffled (x : Issuer) (f : L3) (src : Int) (l : Nat) : Word :=
  if 0 ≤ src ∧ src < 32 ∧ x.active.getLsbD src.toNat then x.reel.vget f.va.toNat src.toNat else x.reel.vget f.va.toNat l

/-- Legal registers of a lane exchange. -/
def legalL3 (x : Issuer) (f : L3) : Prop :=
  f.vd.toNat < x.block.desc.vregs ∧ f.va.toNat < x.block.desc.vregs ∧ f.vb.toNat < x.block.desc.vregs

/-- The instructions that write one vector register in every active lane, raising nothing: the instruction, the register, and each lane's
value (05 R114, R115, 06 R134, R135). -/
inductive LaneRow (x : Issuer) : Instr → Nat → (Nat → Word) → Prop
  | shflIdx f : legalL3 x f → LaneRow x (.shflIdx f) f.vd.toNat fun l => shuffled x f ((x.reel.vget f.vb.toNat l).toNat % 32 : Nat) l
  | shflUp f : legalL3 x f → LaneRow x (.shflUp f) f.vd.toNat fun l => shuffled x f (l - ((x.reel.vget f.vb.toNat l).toNat % 32 : Nat)) l
  | shflDown f : legalL3 x f → LaneRow x (.shflDown f) f.vd.toNat fun l => shuffled x f (l + ((x.reel.vget f.vb.toNat l).toNat % 32 : Nat)) l
  | shflXor f : legalL3 x f → LaneRow x (.shflXor f) f.vd.toNat
      fun l => shuffled x f (l ^^^ ((x.reel.vget f.vb.toNat l).toNat % 32) : Nat) l
  | kprefix f : f.vd.toNat < x.block.desc.vregs → LaneRow x (.kprefix f) f.vd.toNat
      fun l => BitVec.ofNat 32 ((List.range l).filter fun m => (K x f.kc).testBit m && x.active.getLsbD m).length
  | vgetx f : f.vd.toNat < x.block.desc.vregs → S x f.sa < x.block.desc.vregs →
      LaneRow x (.vgetx f) f.vd.toNat fun l => x.reel.vget (S x f.sa) l
  | vsetx f : f.va.toNat < x.block.desc.vregs → S x f.sd < x.block.desc.vregs →
      LaneRow x (.vsetx f) (S x f.sd) fun l => x.reel.vget f.va.toNat l

/-- Register `vd` of every active lane holds `g`, and every other register and lane is unchanged. -/
def laneWrite (x : Issuer) (vd : Nat) (g : Nat → Word) (r : Reel) : Prop :=
  ∀ m l, l < 32 → r.vget m l = if m = vd ∧ x.active.getLsbD l = true then g l else x.reel.vget m l

/-- The core cycle counter (02 R42). -/
def cyclo (x : Issuer) : Nat := x.s.coreCycles x.coreId

/-- The content of the special registers by ID (02 R42, R43): the core counter's high half is the latched one where a read has latched it. -/
def specialReg (x : Issuer) (id : Nat) : Nat :=
  match id with
  | 1 => x.reel.idx | 2 => x.block.desc.reels
  | 3 => x.block.coord.1 | 4 => x.block.coord.2.1 | 5 => x.block.coord.2.2
  | 6 => x.block.grid.1 | 7 => x.block.grid.2.1 | 8 => x.block.grid.2.2
  | 9 => x.s.lcore x.coreId | 10 => x.coreId | 11 => domainOfCore x.coreId | 12 => x.block.launch
  | 13 => cyclo x
  | 14 => match x.reel.cycloLatch with | some h => h.toNat | none => cyclo x / 2 ^ 32
  | 15 => ((x.reel.iter.bind x.block.stages.find?).map fun e => e.counter.toNat).getD 0
  | 16 => ((x.reel.iter.bind x.block.stages.find?).map fun e => e.iter).getD 0
  | 17 => x.reel.xpc.toNat | 18 => x.reel.xinst.toNat | 19 => x.reel.xmask.toNat | 20 => x.reel.xkind.toNat
  | 21 => x.reel.tcr.toNat
  | 22 => ((laneList x.active).foldl (fun a l => a ||| x.reel.flagsOf l) 0).toNat
  | 23 => x.reel.xvec.toNat | 24 => x.reel.xvechi.toNat
  | 25 => (x.s.bubbleCount (domainOfCore x.coreId)).toNat | 26 => x.s.wafer.gen | 27 => (x.s.core x.coreId).cap
  | 28 => x.block.fsrec | 29 => x.block.fsrec / 2 ^ 32
  | _ => 0

/-- The reel after a read of a special register: a read of cyclo latches the high half (02 R43). -/
def latched (x : Issuer) (id : Nat) : Option Word := if id = 13 then some (BitVec.ofNat 32 (cyclo x / 2 ^ 32)) else x.reel.cycloLatch

end Sys2Proof.Rows


/-- 05 R110, R111: a compare with legal operands, some lane active and no enabled invalid raised combines each active lane's condition into
the lane's bit of K[kd], adds the invalid it raises to the lane's flags, and changes nothing else; a write to k0 is discarded. Where some active
lane raises an enabled invalid, also with kd = 0, the compare takes the arithmetic trap: `xmask` holds exactly those lanes, whose bits of K[kd] are
unchanged, `xkind` is cause 1 with invalid, and every other active lane is written. ord and uno of an integer type are illegal. -/
def Obligations.CompareResults : Prop :=
  ∀ (f : CmpOp) (x : Issuer) (s : State), x.Stands s →
    let excepts := fun (l : Nat) => (cmpLane x f l).2 &&& enables x.reel none ≠ 0
    (CmpUse x f → (∀ l, x.lane l → ¬ excepts l) →
      ∃ r, exec (.cmp f) s = .next (x.into r) ∧ r = { x.advanced x.nextPc with k := r.k, fflags := r.fflags }
        ∧ CmpLanes x f (fun _ => False) r ∧ (x.into r).mem = s.mem)
    ∧ (∀ l₀, CmpUse x f → x.Vectors → x.lane l₀ → excepts l₀ →
      ∃ r mask, exec (.cmp f) s = .next (x.into r)
        ∧ r = { x.trapped x.reel x.cur.bundle.word mask 0x101 with k := r.k, fflags := r.fflags }
        ∧ (∀ l, l < 32 → (mask.getLsbD l = true ↔ x.lane l ∧ excepts l)) ∧ CmpLanes x f excepts r)
    ∧ (f.type.toNat < 2 → 6 ≤ f.cond.toNat → x.Vectors →
      exec (.cmp f) s = .next (x.into (x.trapped x.reel x.cur.bundle.word x.active 2)))

/-- 05 R117, R118, 06 R132, R133: every instruction that writes one uniform register retires with S[sd] holding its result modulo 2^32; a write to
s0 is discarded, and nothing else of the machine changes. 06 R132: `uadd.64` writes the pair sd with the sum modulo 2^64 of the pair sa and the
pair sb, or the 32-bit immediate sign-extended. -/
def Obligations.UniformResults : Prop :=
  (
    ∀ (i : Instr) (x : Issuer) (sd : Nat) (v : Int) (s : State), UniRow x i sd v → x.Stands s → x.reel.busyS sd = false →
      ∃ r, exec i s = .next (x.into r) ∧ r = { x.advanced x.nextPc with s := r.s }
        ∧ (∀ n, r.sget n = if n = sd ∧ n ≠ 0 then BitVec.ofInt 32 v else x.reel.sget n) ∧ (x.into r).mem = s.mem
  ) ∧ (
    ∀ (x : Issuer) (s : State), x.Stands s →
      (∀ f : U3, f.ok64 = true → x.reel.busyS f.sd.toNat = false → x.reel.busyS (f.sd.toNat + 1) = false →
        ∃ r, exec (.uadd64 f) s = .next (x.into r) ∧ r = { x.advanced x.nextPc with s := r.s }
          ∧ ∀ n, r.sget n =
            let v := BitVec.ofNat 64 ((x.reel.spair f.sa.toNat).toNat + (x.reel.spair f.sb.toNat).toNat)
            if n = f.sd.toNat + 1 then hiWord v else if n = f.sd.toNat ∧ n ≠ 0 then loWord v else x.reel.sget n)
      ∧ ∀ f : UI, f.ok64 = true → x.reel.busyS f.sd.toNat = false → x.reel.busyS (f.sd.toNat + 1) = false →
        ∃ r, exec (.uadd64Imm f) s = .next (x.into r) ∧ r = { x.advanced x.nextPc with s := r.s }
          ∧ ∀ n, r.sget n =
            let v := BitVec.ofInt 64 ((x.reel.spair f.sa.toNat).toNat + sx (immS x f.imm))
            if n = f.sd.toNat + 1 then hiWord v else if n = f.sd.toNat ∧ n ≠ 0 then loWord v else x.reel.sget n
  )


/-- 05 R116, R118, R119: every instruction that writes a whole lane mask retires with every bit of K[kd] written; a write to k0 is discarded,
and nothing else of the machine changes. -/
def Obligations.MaskResults : Prop :=
  ∀ (i : Instr) (x : Issuer) (kd : Nat) (g : Nat → Bool) (s : State), MaskRow x i kd g → x.Stands s →
    ∃ r, exec i s = .next (x.into r) ∧ r = { x.advanced x.nextPc with k := r.k }
      ∧ (∀ n, n ≠ kd ∨ n = 0 → r.kget x.split.lanes n = x.reel.kget x.split.lanes n)
      ∧ (kd ≠ 0 → ∀ l, l < 32 → (r.kget x.split.lanes kd).getLsbD l = g l) ∧ (x.into r).mem = s.mem

/-- 05 R114, R115, 06 R134, R135: a lane exchange, a prefix count or an indirect move retires with V[vd] written in every active lane and
every other register and lane as it was. -/
def Obligations.LaneResults : Prop :=
  ∀ (i : Instr) (x : Issuer) (vd : Nat) (g : Nat → Word) (s : State), LaneRow x i vd g → x.Stands s → x.active ≠ 0 →
    x.reel.busyV vd = false →
    ∃ r, exec i s = .next (x.into r) ∧ r = { x.advanced x.nextPc with v := r.v } ∧ laneWrite x vd g r ∧ (x.into r).mem = s.mem

/-- 02 R42, R43, 06 R134: `rdsr` writes S[sd] with the register of an ID 1 to 29, and `rdsr.v` writes V[vd] in every active lane with the register
of an ID 0 to 29, lane and fflags being each lane's own; a read of cyclo latches the high half, and nothing else changes. 02 R43, R44, 04 R94, 06
R136: `wrsr` writes `tcr` but for its reserved bits, the flags of every active lane with bits [4:0], `xvec` with bits [1:0] 0, and `xvechi` with
bits [22:0]; nothing else changes. Any other ID is an illegal-instruction trap. Choices of the model that it rests on: log entry 26. -/
def Obligations.SpecialRegisters : Prop :=
  (
    ∀ (x : Issuer) (s : State), x.Stands s →
      (∀ f : RdS, 1 ≤ f.id.toNat → f.id.toNat < 30 → x.reel.busyS f.sd.toNat = false →
        ∃ r, exec (.rdsr f) s = .next (x.into r) ∧ r = { x.advanced x.nextPc with s := r.s, cycloLatch := latched x f.id.toNat }
          ∧ ∀ n, r.sget n = if n = f.sd.toNat ∧ n ≠ 0 then BitVec.ofNat 32 (specialReg x f.id.toNat) else x.reel.sget n)
      ∧ ∀ f : RdV, f.id.toNat < 30 → f.vd.toNat < x.block.desc.vregs → x.active ≠ 0 → x.reel.busyV f.vd.toNat = false →
        ∃ r, exec (.rdsrV f) s = .next (x.into r) ∧ r = { x.advanced x.nextPc with v := r.v, cycloLatch := latched x f.id.toNat }
          ∧ laneWrite x f.vd.toNat (fun l => BitVec.ofNat 32 (if f.id.toNat = 0 then l
              else if f.id.toNat = 22 then (x.reel.flagsOf l).toNat else specialReg x f.id.toNat)) r
  ) ∧ (
    ∀ (f : WrS) (x : Issuer) (s : State), x.Stands s →
      let v := x.reel.sget f.sa.toNat
      (f.id = 21 → exec (.wrsr f) s = .next (x.into { x.advanced x.nextPc with tcr := v &&& 0x71F }))
      ∧ (f.id = 22 → ∃ r, exec (.wrsr f) s = .next (x.into r) ∧ r = { x.advanced x.nextPc with fflags := r.fflags }
          ∧ ∀ l, r.flagsOf l = if x.active.getLsbD l = true then v.setWidth 5 else x.reel.flagsOf l)
      ∧ (f.id = 23 → exec (.wrsr f) s = .next (x.into { x.advanced x.nextPc with xvec := v &&& 0xFFFFFFFC }))
      ∧ (f.id = 24 → exec (.wrsr f) s = .next (x.into { x.advanced x.nextPc with xvechi := v.setWidth 23 }))
      ∧ (f.id ≠ 21 → f.id ≠ 22 → f.id ≠ 23 → f.id ≠ 24 → x.Vectors →
          exec (.wrsr f) s = .next (x.into (x.trapped x.reel x.cur.bundle.word x.active 2)))
  )


/-! ## Branches, joins and traps -/

namespace Sys2Proof.Rows

/-- A branch's target: its own address and a signed count of words, modulo 2^55 (02 R27, 06 R137). -/
def branchTo (x : Issuer) (off : BitVec 20) : VA := BitVec.ofInt 55 (x.cur.bundle.ipc.toNat + 4 * sxNat off.toNat 20)
/-- The target of a jump through a pair: S[a+1][22:0] · 2^32 + S[a] with bits [1:0] ignored (06 R139). -/
def jumpTo (x : Issuer) (sa : BitVec 6) : VA :=
  let a := (x.reel.sget (sa.toNat + 1)).toNat % 2 ^ 23 * 2 ^ 32 + (x.reel.sget sa.toNat).toNat
  BitVec.ofNat 55 (a - a % 4)
/-- T = L AND K[kc] (06 R137). -/
def taken (x : Issuer) (kc : BitVec 3) : Word := x.split.lanes &&& x.reel.kget x.split.lanes kc.toNat
/-- N = L AND NOT K[kc] (04 R81). -/
def passing (x : Issuer) (kc : BitVec 3) : Word := x.split.lanes &&& ~~~x.reel.kget x.split.lanes kc.toNat

/-- The instructions that only move their split: the instruction and where it goes on (04 R81, R82, 06 R137, R139). -/
inductive JumpRow (x : Issuer) : Instr → VA → Prop
  | bra f : JumpRow x (.bra f) (branchTo x f.off)
  | braAny f : JumpRow x (.braAny f) (if taken x f.kc ≠ 0 then branchTo x f.off else x.nextPc)
  | braAll f : JumpRow x (.braAll f) (if taken x f.kc = x.split.lanes then branchTo x f.off else x.nextPc)
  | braNone f : JumpRow x (.braNone f) (if taken x f.kc = 0 then branchTo x f.off else x.nextPc)
  | braDivNone f : taken x f.kc = 0 → JumpRow x (.braDiv f) x.nextPc
  | braDivAll f : taken x f.kc ≠ 0 → passing x f.kc = 0 → JumpRow x (.braDiv f) (branchTo x f.off)
  | jmpi f : f.sa.toNat % 2 = 0 → JumpRow x (.jmpi f) (jumpTo x f.sa)
  | ret f : f.sa.toNat % 2 = 0 → JumpRow x (.ret f) (jumpTo x f.sa)
  | join : x.split.stack = [] → JumpRow x .join x.nextPc
  | nop : JumpRow x .nop x.nextPc

/-- The state after an instruction that leaves the uniform pair `sd` holding its link and goes on at an address (06 R137, R139). -/
def Linked (x : Issuer) (sd : Nat) (pc : VA) (r : Reel) : Prop :=
  r = { x.advanced pc with s := r.s } ∧
    ∀ n, r.sget n = if n = sd then x.nextPc.setWidth 32 else if n = sd + 1 then (x.nextPc.extractLsb' 32 23).setWidth 32 else x.reel.sget n

/-- A fresh split: its address, lanes and stack, waiting for nothing. -/
def newSplit (pc : VA) (lanes : Word) (stack : List Nat) : Split := ⟨pc, lanes, stack, false, false, none, none⟩

/-- The instructions whose own effect is a precise trap: the instruction, its lanes and its `xkind` (04 R91, R93, 06 R142). -/
inductive TrapRow (x : Issuer) : Instr → Word → Nat → Prop
  | trap f : TrapRow x (.trap f) x.split.lanes (f.n.toNat * 2 ^ 16 + 6)
  | brk : TrapRow x .brk x.split.lanes 7
  | illegal : TrapRow x (.illegalWord x.cur.bundle.word) x.active 2

/-- Is the instruction a fused one, which takes an addend from an HX hint (06 R125)? -/
def isFused : Instr → Prop
  | .ffmaF32 _ | .ffmsF32 _ | .fnmaF32 _ | .ffmaF64 _ | .ffmsF64 _ | .fnmaF64 _ | .hfmaF16 _ | .hfmaBf16 _ => True
  | _ => False

/-- Does the payload of an HX hint name no addend of a reel: bits [22:7] are not 0, or the register lies beyond `.vregs` (06 R125)? -/
def noAddend (x : Issuer) (p : BitVec 23) : Prop := p.toNat / 2 ^ 7 ≠ 0 ∨ x.block.desc.vregs ≤ p.toNat % 2 ^ 7

/-- Is the instruction one of a matrix stream, which a reel never executes from a word it decodes (02 R30)? -/
def isStream : Instr → Prop
  | .mclaim _ | .mrel _ | .mload _ | .mloadp _ | .mtadd _ | .mma _ | .mmas _ | .mmap _ | .mzero _ | .mscale _ | .mstore _ => True
  | _ => False

end Sys2Proof.Rows


/-- 06 R137, R139, 04 R81, R82: a branch, a jump through an even pair, a `bra.div` with lanes on one side only, a `join` with an empty stack and
`nop` move the split and change nothing else of the machine. 06 R137, R139: `call` leaves PC + 4 in s62:s63 and goes to its target; `calli` reads
its target before it writes its link pair. -/
def Obligations.JumpsAndCalls : Prop :=
  (
    ∀ (i : Instr) (x : Issuer) (pc : VA) (s : State), JumpRow x i pc → x.Stands s →
      exec i s = .next (x.into (x.advanced pc)) ∧ (x.into (x.advanced pc)).mem = s.mem
  ) ∧ (
    ∀ (x : Issuer) (s : State), x.Stands s →
      (∀ f : BrU, x.reel.busyS 62 = false → x.reel.busyS 63 = false →
        ∃ r, exec (.call f) s = .next (x.into r) ∧ Linked x 62 (branchTo x f.off) r)
      ∧ ∀ f : S2, f.sd.toNat % 2 = 0 → f.sa.toNat % 2 = 0 → f.sd ≠ 0 →
        x.reel.busyS f.sd.toNat = false → x.reel.busyS (f.sd.toNat + 1) = false →
        ∃ r, exec (.calli f) s = .next (x.into r) ∧ Linked x f.sd.toNat (jumpTo x f.sa) r
  )


/-- 04 R81: a `bra.div` with lanes on one side only goes on at its target, or after itself, and is no divergence. With lanes on both sides it
pushes an entry that joins all its lanes. With fewer than four splits a new split, of the lowest free number, takes the target with the taken
lanes, and this split goes on with the others; with four, the other side waits in the entry. At depth 8 it takes the reconvergence-overflow
trap with the split's lanes. -/
def Obligations.Divergence : Prop :=
  ∀ (f : BrK) (x : Issuer) (s : State), x.Stands s →
    (taken x f.kc = 0 → exec (.braDiv f) s = .next (x.into (x.advanced x.nextPc)))
    ∧ (taken x f.kc ≠ 0 → passing x f.kc = 0 → exec (.braDiv f) s = .next (x.into (x.advanced (branchTo x f.off))))
    ∧ (taken x f.kc ≠ 0 → passing x f.kc ≠ 0 →
      let e := x.reel.nextEntry
      (x.split.stack.length < 8 → ∀ n, n < 4 → x.reel.splits.find? n = none → (∀ m, m < n → x.reel.splits.find? m ≠ none) →
        exec (.braDiv f) s = .next (x.into { x.advanced x.nextPc with
          entries := x.reel.entries.put e ⟨x.split.lanes, 0, none, none⟩
          nextEntry := e + 1
          splits := (x.reel.splits.put n (newSplit (branchTo x f.off) (taken x f.kc) (e :: x.split.stack))).put x.cur.split
            { x.split with pc := x.nextPc, lanes := passing x f.kc, stack := e :: x.split.stack, wait := none, bundle := none } }))
      ∧ (x.split.stack.length < 8 → (∀ m, m < 4 → x.reel.splits.find? m ≠ none) →
        exec (.braDiv f) s = .next (x.into { x.advanced x.nextPc with
          entries := x.reel.entries.put e ⟨x.split.lanes, 0, none, some (x.nextPc, passing x f.kc)⟩
          nextEntry := e + 1
          splits := x.reel.splits.put x.cur.split
            { x.split with pc := branchTo x f.off, lanes := taken x f.kc, stack := e :: x.split.stack, wait := none, bundle := none } }))
      ∧ (8 ≤ x.split.stack.length → x.Vectors →
        exec (.braDiv f) s = .next (x.into (x.trapped x.reel x.cur.bundle.word x.split.lanes 4))))

/-- 04 R82: a `join` with an empty stack goes on; one whose lanes are not the entry's last parks the split at the join, or, where the entry keeps
a pending side, switches the split to it; in either case the entry has the join's address and the arrived lanes. At another address than the
entry's it takes the unstructured-join trap. 04 R82: when a `join` brings an entry's last lanes, the splits parked on the entry and the executing
one become the lowest of them, with the entry's join mask, the stack below it and the address after the join; the others are gone, and no lane's
registers change. -/
def Obligations.Joins : Prop :=
  (
    (∀ (x : Issuer) (s : State), x.Stands s → x.split.stack = [] → exec .join s = .next (x.into (x.advanced x.nextPc)))
    ∧ ∀ (x : Issuer) (s : State) (id : Nat) (below : List Nat) (e : Reconv), x.Stands s → x.split.stack = id :: below →
      x.reel.entries.find? id = some e →
      let j := x.cur.bundle.ipc
      let e' : Reconv := { e with joinPc := some j, arrived := e.arrived ||| x.split.lanes }
      ((e.joinPc = none ∨ e.joinPc = some j) → e'.arrived ≠ e.join → e.pending = none →
        exec .join s = .next (x.into { x.advanced j with
          entries := x.reel.entries.put id e'
          splits := x.reel.splits.put x.cur.split { x.split with pc := j, parked := true, wait := none, bundle := none } }))
      ∧ (∀ pc lanes, (e.joinPc = none ∨ e.joinPc = some j) → e'.arrived ≠ e.join → e.pending = some (pc, lanes) →
        exec .join s = .next (x.into { x.advanced j with
          entries := x.reel.entries.put id { e' with pending := none }
          splits := x.reel.splits.put x.cur.split { x.split with pc := pc, lanes := lanes, wait := none, bundle := none } }))
      ∧ (∀ k, e.joinPc = some k → k ≠ j → x.Vectors →
        exec .join s = .next (x.into (x.trapped x.reel x.cur.bundle.word x.split.lanes 5)))
  ) ∧ (
    ∀ (x : Issuer) (s : State) (id : Nat) (below : List Nat) (e : Reconv), x.Stands s → x.split.stack = id :: below →
      x.reel.entries.find? id = some e → (e.joinPc = none ∨ e.joinPc = some x.cur.bundle.ipc) →
      e.arrived ||| x.split.lanes = e.join →
      ∃ (r : Reel) (i : Nat), exec .join s = .next (x.into r)
        ∧ r = { x.advanced x.nextPc with splits := r.splits, entries := r.entries }
        ∧ (i = x.cur.split ∨ i ∈ x.reel.parkedOn id) ∧ (∀ j, (j = x.cur.split ∨ j ∈ x.reel.parkedOn id) → i ≤ j)
        ∧ r.splits.find? i = some (newSplit x.nextPc e.join below)
        ∧ (∀ j, j ≠ i → (j = x.cur.split ∨ j ∈ x.reel.parkedOn id) → r.splits.find? j = none)
        ∧ ∀ j, j ≠ x.cur.split → j ∉ x.reel.parkedOn id → r.splits.find? j = x.reel.splits.find? j
  )


/-- 06 R139: `yield` retires; its split's number and the end of the cycle it rests are noted for the reel's next turns (04 R79). 04 R83, R100:
`exit` in a reel that has not diverged. While other splits remain, the split is gone and nothing else changes but the retired count and the
priority; the last one exits the reel: its watches are disarmed and its outstanding stores are those of an exited reel. The statement is of reels
with no reconvergence entry and no live staged-loop iteration; in handler mode `exit` is illegal. Choices of the model that it rests on: log
entries 16 and 79. -/
def Obligations.YieldsAndExits : Prop :=
  (
    ∀ (x : Issuer) (s : State), x.Stands s →
      exec .yield s = .next (x.into { x.advanced x.nextPc with yielded := some (x.cur.split, x.s.clock x.coreId + 2) })
  ) ∧ (
    ∀ (x : Issuer) (s : State), x.Stands s → x.split.stack = [] → x.reel.entries = [] →
      (x.reel.handler = false → (∃ j, j ≠ x.cur.split ∧ x.reel.splits.find? j ≠ none) →
        exec .exit s = .next (x.into { x.advanced x.nextPc with splits := x.reel.splits.del x.cur.split }))
      ∧ (x.reel.handler = false → x.reel.iter = none → (∀ j, j ≠ x.cur.split → x.reel.splits.find? j = none) →
        ∃ t r, exec .exit s = .next t ∧ t.reels.find? x.cur.reel = some r
          ∧ r.exited = true ∧ r.splits = [] ∧ r.v = x.reel.v ∧ r.s = x.reel.s ∧ r.k = x.reel.k ∧ r.loads = x.reel.loads
          ∧ (∀ w, w < 2 → (r.watchSlot w).state = .unarmed)
          ∧ (∀ k, k ≠ x.cur.reel → t.reels.find? k = s.reels.find? k)
          ∧ (∀ k o, t.stores.find? k = some o → o.reel = some x.cur.reel → o.ex = true)
          ∧ t.blocks = s.blocks ∧ t.mem = s.mem)
      ∧ (x.reel.handler = true → x.reel.exited = false → x.s.faultEntry x.block.launch x.reel.block ≠ 0 →
        ∃ t id f r, exec .exit s = .next t ∧ t.faults.find? id = some f ∧ f.kind = 0x14 ∧ f.detail = 2
          ∧ t.reels.find? x.cur.reel = some r ∧ id ∈ r.heldBy ∧ r.exited = false)
  )


/-- 04 R91 to R94, 06 R142: `trap`, `brk` and a word that is no instruction take their precise traps: `xpc` is the bundle's start, `xinst` the
word, `xmask` and `xkind` as 04 R91 and R93 say; the split goes on in handler mode at `xvechi`:`xvec`, every other split is paused, and nothing
else of the machine changes: no register of a lane, no counter, no byte of memory. 04 R95, R96: in a reel with no handler, and in handler mode,
those traps hold the reel with a record of kind 0x13 or 0x14 that carries the bundle's start, the word, the lanes, the cause and what `xkind`
would hold; the trap registers keep their values, and the split stays at its bundle. -/
def Obligations.TrapEntry : Prop :=
  (
    ∀ (i : Instr) (x : Issuer) (lanes : Word) (kind : Nat) (s : State), TrapRow x i lanes kind → x.Stands s → x.Vectors →
      exec i s = .next (x.into (x.trapped x.reel x.cur.bundle.word lanes (BitVec.ofNat 32 kind)))
        ∧ (x.into (x.trapped x.reel x.cur.bundle.word lanes (BitVec.ofNat 32 kind))).mem = s.mem
  ) ∧ (
    ∀ (i : Instr) (x : Issuer) (lanes : Word) (kind : Nat) (s : State), TrapRow x i lanes kind → x.Stands s → x.reel.exited = false →
      x.s.faultEntry x.block.launch x.reel.block ≠ 0 → (x.reel.handler = true ∨ (x.reel.xvec = 0 ∧ x.reel.xvechi = 0)) →
      ∃ t id f r, exec i s = .next t ∧ t.faults.find? id = some f
        ∧ f.kind = (if x.reel.handler then 0x14 else 0x13) ∧ f.pc = x.cur.bundle.start ∧ f.inst = x.cur.bundle.word ∧ f.lanes = lanes
        ∧ f.detail = kind % 256 ∧ f.aux = BitVec.ofNat 32 kind ∧ f.launch = x.block.launch ∧ f.block = x.block.linear
        ∧ f.reelKey = some x.cur.reel ∧ f.state = .waiting
        ∧ t.reels.find? x.cur.reel = some r ∧ id ∈ r.heldBy
        ∧ r.xpc = x.reel.xpc ∧ r.xinst = x.reel.xinst ∧ r.xmask = x.reel.xmask ∧ r.xkind = x.reel.xkind ∧ r.handler = x.reel.handler
        ∧ r.v = x.reel.v ∧ r.s = x.reel.s ∧ r.k = x.reel.k
        ∧ t.mem = s.mem ∧ t.blocks = s.blocks
  )


/-- 04 R97, 06 R143: in handler mode, with the lanes and the depth of handler entry, `tret` ends handler mode, un-pauses every split, and goes on
at the saved bundle (retry) or at the word after the trapping instruction (skip); the trap registers keep their values. With other
lanes or another depth it is a nested trap, which holds the reel; outside handler mode it is an illegal instruction. -/
def Obligations.TrapReturn : Prop :=
  ∀ (x : Issuer) (s : State), x.Stands s →
    (x.reel.handler = true → x.split.lanes = x.reel.trapLanes → x.split.stack.length = x.reel.trapDepth →
      let back := fun (pc : VA) => x.into { x.advanced pc with
        handler := false
        splits := (x.reel.splits.mapVals fun _ p => { p with paused := false }).put x.cur.split
          { x.split with pc := pc, paused := false, wait := none, bundle := none } }
      exec .tretRetry s = .next (back x.reel.trapPc) ∧ exec .tretSkip s = .next (back (x.reel.trapIpc + 4)))
    ∧ (x.reel.handler = true → x.split.lanes ≠ x.reel.trapLanes ∨ x.split.stack.length ≠ x.reel.trapDepth → x.reel.exited = false →
      x.s.faultEntry x.block.launch x.reel.block ≠ 0 → ∀ i, i = .tretRetry ∨ i = .tretSkip →
        ∃ t id f r, exec i s = .next t ∧ t.faults.find? id = some f ∧ f.kind = 0x14 ∧ f.detail = 2
          ∧ t.reels.find? x.cur.reel = some r ∧ id ∈ r.heldBy)
    ∧ (x.Vectors → exec .tretRetry s = .next (x.into (x.trapped x.reel x.cur.bundle.word x.active 2))
        ∧ exec .tretSkip s = .next (x.into (x.trapped x.reel x.cur.bundle.word x.active 2)))

/-- 02 R30, 04 R91, R92: an instruction of a reel whose fields fail the checks of its chapter takes the illegal-instruction trap, with the
instruction word in `xinst`, the active lanes in `xmask` and cause 2; it writes no other register, no memory location and no counter. 02 R31, 06
R125: a fused instruction after an HX hint whose payload names no addend takes the same trap with the hint word in `xinst`, whatever its own
fields. Choices of the model that it rests on: log entries 25 and 27. -/
def Obligations.IllegalForms : Prop :=
  ∀ (i : Instr) (x : Issuer) (s : State), x.Stands s → x.Vectors →
    (i.wf = false → ¬ isStream i → (isFused i → ∀ p, x.cur.bundle.hints.hx = some p → ¬ noAddend x p) →
      exec i s = .next (x.into (x.trapped x.reel x.cur.bundle.word x.active 2)))
    ∧ (isFused i → ∀ p, x.cur.bundle.hints.hx = some p → noAddend x p →
      exec i s = .next (x.into (x.trapped x.reel (BitVec.ofNat 32 (0x3F * 2 ^ 26 + p.toNat)) x.active 2)))

/-! ## Global memory -/

namespace Sys2Proof.Rows

/-- The virtual address in the even pair `n`: S[n+1][22:0] · 2^32 + S[n] (09 R175). -/
def pairVa (x : Issuer) (n : Nat) : Nat := (x.reel.sget (n + 1)).toNat % 2 ^ 23 * 2 ^ 32 + (x.reel.sget n).toNat

/-- The displacement of an HX hint: its payload, signed (09 R175). -/
def dispOf (x : Issuer) : Int := match x.cur.bundle.hints.hx with | some p => p.toInt | none => 0

/-- The address lane `l` of an M word accesses with `n` bytes: base, offset and displacement modulo 2^55, or 2^32 in scratchpad, with the bits
below the size ignored (09 R175, R176). -/
def addrOf (x : Issuer) (f : MOp) (bits n l : Nat) : Nat :=
  let base := if bits = 55 then pairVa x (2 * f.sp.toNat) else (x.reel.sget (2 * f.sp.toNat)).toNat
  let off := if f.vo = 127 then 0 else (x.reel.vget f.vo.toNat l).toNat * 2 ^ f.sc.toNat
  let ea := (((base + off : Nat) : Int) + dispOf x) % 2 ^ bits
  ea.toNat - ea.toNat % n

/-- The active lanes of an M word, ascending, with their addresses. -/
def lanesOf (x : Issuer) (f : MOp) (bits n : Nat) : List (Nat × Nat) := (laneList x.active).map fun l => (l, addrOf x f bits n l)

/-- The registers of an M word are legal for `n` bytes a lane: vt's lie below `.vregs` and start at an even number, or a multiple of 4, where
they are two or four; vo lies below it, and there is no scale without one (02 R30, 09 R175, R177). -/
def MLegal (x : Issuer) (f : MOp) (n : Nat) : Prop :=
  f.vt.toNat + (n + 3) / 4 ≤ x.block.desc.vregs ∧ (8 ≤ n → f.vt.toNat % 2 = 0) ∧ (16 ≤ n → f.vt.toNat % 4 = 0)
    ∧ (f.vo = 127 → f.sc = 0) ∧ (f.vo ≠ 127 → f.vo.toNat < x.block.desc.vregs)

/-- The value of `n` bytes lane `l` stores from register `vt` on, lowest word first. -/
def stored (r : Reel) (vt n l : Nat) : Nat := ((List.range ((n + 3) / 4)).map fun i => (r.vget (vt + i) l).toNat * 2 ^ (32 * i)).sum

/-- The lookaside of the issuing core permits an access of an address by the block's context (08 R162, R163). -/
def Allows (x : Issuer) (rd w : Bool) (va : Nat) : Prop :=
  ∃ e, (x.s.core x.coreId).lookup x.block.ctx va = some e ∧ (rd = true → e.r = true) ∧ (w = true → e.w = true)

/-- The throttle lets the access issue: its memory class is 2, or its reel slot is among those allowed (08 R170, R171). -/
def Unthrottled (x : Issuer) : Prop :=
  x.cur.bundle.hints.memClass = 2 ∨ slotOfKey x.cur.reel ∈ x.s.allowedNow x.coreId

/-- The message of the issuing core to its slice. -/
def toSlice (x : Issuer) (b : Body) : Msg := ⟨domainOfCore x.coreId, domainOfCore x.coreId, x.coreId, false, b⟩

/-- Of the cores, only the issuing one may have changed, and of it only the L1, what the throttle counts and whom it denies, and what acquires
inherit in the core, which is now `carry`. -/
def CoresKept (x : Issuer) (t : State) (carry : List Nat) : Prop :=
  ∀ c, t.core c = if c = x.coreId then { x.s.core c with
      l1 := (t.core c).l1, misses := (t.core c).misses, hits := (t.core c).hits, slotHits := (t.core c).slotHits, denied := (t.core c).denied
      carry := carry }
    else x.s.core c

/-- What a release of a scope leaves for later acquires in a block or a core that has handed on `old`: the reel's stores that are not yet gone are
added (15 R299). -/
def handedOn (x : Issuer) (old : List Nat) : List Nat :=
  if x.s.carryOf x.cur.reel x.reel = [] then old else unionNew (old.filter fun i => !x.s.storeGone i) (x.s.carryOf x.cur.reel x.reel)

/-- Of the domains, only that of the issuing core may have changed, and of it only which outstanding fills install in the L1. -/
def DomainsKept (x : Issuer) (t : State) : Prop :=
  ∀ d, (d ≠ domainOfCore x.coreId → t.domain d = x.s.domain d)
    ∧ t.domain d = { x.s.domain d with l2 := (t.domain d).l2 }
    ∧ ∀ sec, (t.sector d sec).held = (x.s.sector d sec).held ∧ (t.sector d sec).laid = (x.s.sector d sec).laid

/-- The loads of global memory: the instruction, where its data goes, and the lanes' addresses (09 R177). -/
inductive LoadRow (x : Issuer) : Instr → LoadDst → List (Nat × Nat) → Prop
  | ldgZ8 f : MLegal x f 1 → LoadRow x (.ldgZ8 f) (.vec f.vt.toNat 1 false) (lanesOf x f 55 1)
  | ldgI8 f : MLegal x f 1 → LoadRow x (.ldgI8 f) (.vec f.vt.toNat 1 true) (lanesOf x f 55 1)
  | ldgZ16 f : MLegal x f 2 → LoadRow x (.ldgZ16 f) (.vec f.vt.toNat 2 false) (lanesOf x f 55 2)
  | ldgI16 f : MLegal x f 2 → LoadRow x (.ldgI16 f) (.vec f.vt.toNat 2 true) (lanesOf x f 55 2)
  | ldgB32 f : MLegal x f 4 → LoadRow x (.ldgB32 f) (.vec f.vt.toNat 4 false) (lanesOf x f 55 4)
  | ldgB64 f : MLegal x f 8 → LoadRow x (.ldgB64 f) (.vec f.vt.toNat 8 false) (lanesOf x f 55 8)
  | ldgB128 f : MLegal x f 16 → LoadRow x (.ldgB128 f) (.vec f.vt.toNat 16 false) (lanesOf x f 55 16)
  | lduB32 f : LoadRow x (.lduB32 f) (.uni f.sd.toNat 4)
      [(0, let ea := (((pairVa x (2 * f.sp.toNat) : Nat) : Int) + dispOf x) % 2 ^ 55; ea.toNat - ea.toNat % 4)]
  | lduB64 f : f.sd.toNat % 2 = 0 → LoadRow x (.lduB64 f) (.uni f.sd.toNat 8)
      [(0, let ea := (((pairVa x (2 * f.sp.toNat) : Nat) : Int) + dispOf x) % 2 ^ 55; ea.toNat - ea.toNat % 8)]

/-- The stores to global memory: the instruction, its word and its bytes a lane (09 R177). -/
inductive StoreRow (x : Issuer) : Instr → MOp → Nat → Prop
  | stgB8 f : MLegal x f 1 → StoreRow x (.stgB8 f) f 1
  | stgB16 f : MLegal x f 2 → StoreRow x (.stgB16 f) f 2
  | stgB32 f : MLegal x f 4 → StoreRow x (.stgB32 f) f 4
  | stgB64 f : MLegal x f 8 → StoreRow x (.stgB64 f) f 8
  | stgB128 f : MLegal x f 16 → StoreRow x (.stgB128 f) f 16

/-- The images a store sends: its lanes, addresses and values, gathered by line. -/
def imagesOf (x : Issuer) (f : MOp) (n : Nat) : Map LineImg :=
  storeImages n ((lanesOf x f 55 n).map fun p => (p.1, p.2, stored x.reel f.vt.toNat n p.1))

/-- The byte that accesses of `n` bytes (lane, address, value) leave at an address: that of the last lane to write it, none if none does. -/
def lastByte (accs : List (Nat × Nat × Nat)) (n a : Nat) : Option Nat :=
  accs.foldl (fun o p => if p.2.1 ≤ a ∧ a < p.2.1 + n then some (p.2.2 / 256 ^ (a - p.2.1) % 256) else o) none

/-- The atomics on global memory: the instruction, its operation, 64 bits wide or not, whether it returns the old value, ord, scope, vd and va,
where its word and its registers are legal (09 R183, R184). -/
inductive AtomicRow (x : Issuer) : Instr → AtomKind → Bool → Bool → Nat → Nat → Nat → Nat → Prop
  | add f : f.ok false = true → AtomicRow x (.atomgAdd f) .add (f.w == 1) (f.ret == 1) f.ord.toNat f.scope.toNat f.vd.toNat f.va.toNat
  | fadd f : f.ok false = true → AtomicRow x (.atomgFadd f) .fadd (f.w == 1) (f.ret == 1) f.ord.toNat f.scope.toNat f.vd.toNat f.va.toNat
  | minI f : f.ok false = true → AtomicRow x (.atomgMinI f) .minI (f.w == 1) (f.ret == 1) f.ord.toNat f.scope.toNat f.vd.toNat f.va.toNat
  | maxI f : f.ok false = true → AtomicRow x (.atomgMaxI f) .maxI (f.w == 1) (f.ret == 1) f.ord.toNat f.scope.toNat f.vd.toNat f.va.toNat
  | minZ f : f.ok false = true → AtomicRow x (.atomgMinZ f) .minZ (f.w == 1) (f.ret == 1) f.ord.toNat f.scope.toNat f.vd.toNat f.va.toNat
  | maxZ f : f.ok false = true → AtomicRow x (.atomgMaxZ f) .maxZ (f.w == 1) (f.ret == 1) f.ord.toNat f.scope.toNat f.vd.toNat f.va.toNat
  | and f : f.ok false = true → AtomicRow x (.atomgAnd f) .and (f.w == 1) (f.ret == 1) f.ord.toNat f.scope.toNat f.vd.toNat f.va.toNat
  | or f : f.ok false = true → AtomicRow x (.atomgOr f) .or (f.w == 1) (f.ret == 1) f.ord.toNat f.scope.toNat f.vd.toNat f.va.toNat
  | xor f : f.ok false = true → AtomicRow x (.atomgXor f) .xor (f.w == 1) (f.ret == 1) f.ord.toNat f.scope.toNat f.vd.toNat f.va.toNat
  | exch f : f.ok false = true → AtomicRow x (.atomgExch f) .exch (f.w == 1) (f.ret == 1) f.ord.toNat f.scope.toNat f.vd.toNat f.va.toNat
  | cas f : f.ok true = true → AtomicRow x (.atomgCas f) .cas (f.w == 1) (f.ret == 1) f.ord.toNat f.scope.toNat f.vd.toNat f.va.toNat
  | ld f : f.okLd = true → AtomicRow x (.atomgLd f) .ld (f.w == 1) true f.ord.toNat f.scope.toNat f.vd.toNat f.va.toNat
  | st f : f.okSt = true → AtomicRow x (.atomgSt f) .st (f.w == 1) false f.ord.toNat f.scope.toNat f.vd.toNat f.va.toNat
  | xadd f : f.ok = true → AtomicRow x (.atomgXadd f) .xadd false false f.ord.toNat f.scope.toNat f.vd.toNat f.va.toNat

/-- The address of lane `l` of a global atomic: the pair va:va+1 and the displacement modulo 2^55, aligned to the cell (09 R183, R189). -/
def atomAddr (x : Issuer) (op : AtomKind) (wide : Bool) (va l : Nat) : Nat :=
  let base := (x.reel.vget (va + 1) l).toNat % 2 ^ 23 * 2 ^ 32 + (x.reel.vget va l).toNat
  let ea := (((base : Nat) : Int) + dispOf x) % 2 ^ 55
  ea.toNat - ea.toNat % (if op = .xadd then 16 else if wide then 8 else 4)

/-- A lane's share of a global atomic: its address and its operands, from one register, or a pair where it is wide; `cas` compares with the
first and writes the second (09 R184). -/
def atomLane (x : Issuer) (op : AtomKind) (wide : Bool) (vd va l : Nat) : AtomLane :=
  let arg := fun n => if wide then x.reel.vpair n l else (x.reel.vget n l).setWidth 64
  ⟨l, atomAddr x op wide va l, arg vd, if op = .cas then arg (vd + if wide then 2 else 1) else 0⟩

/-- How many vector registers vd names. -/
def atomWidth (op : AtomKind) (wide : Bool) : Nat := (if wide then 2 else 1) * (if op = .cas then 2 else 1)

end Sys2Proof.Rows


/-- 04 R88, 08 R159, R162, R170, 09 R175 to R178: a load from global memory whose addresses the lookaside permits, whose destination waits for no
other load, with ld below 63 and its reel not throttled, retires. ld has risen by one; an outstanding load names the destination and each active
lane's address; each lane's bytes have been taken from the core's L1 or asked for at its domain's slice, always the latter under HC policy 2. No
register changes yet, and no byte of memory. Choices of the model that it rests on: log entry 83. -/
def Obligations.GlobalLoads : Prop :=
  ∀ (i : Instr) (x : Issuer) (dst : LoadDst) (accs : List (Nat × Nat)) (s : State),
    LoadRow x i dst accs → x.Stands s → x.active ≠ 0 → (∀ p ∈ accs, Allows x true false p.2) →
    (∀ n ∈ dst.vregs, x.reel.busyV n = false) → (∀ n ∈ dst.sregs, x.reel.busyS n = false) → x.reel.ld < 63 → Unthrottled x →
    ∃ t r o, exec i s = .next t
      ∧ t = { x.s with reels := x.s.reels.put x.cur.reel r, cur := none, nextId := t.nextId, msgs := t.msgs, cores := t.cores }
      ∧ r = { x.advanced x.nextPc with ld := x.reel.ld + 1, loads := r.loads } ∧ CoresKept x t (x.s.core x.coreId).carry
      ∧ o ∈ r.loads ∧ o.id = x.s.nextId ∧ o.dst = dst ∧ o.pieces.map (fun p => (p.lane, p.va)) = accs
      ∧ (∀ q ∈ x.reel.loads, q.id ≠ x.s.nextId → q ∈ r.loads)
      ∧ ∀ p ∈ o.pieces, p.lost = false ∧
        ((∃ k install, t.msgs.find? k = some (toSlice x (.read
            ⟨x.coreId, x.cur.reel, o.id, install, x.cur.bundle.hints.memClass, x.cur.bundle.hints.policy⟩ (p.va / 32)))) ∨
          (x.cur.bundle.hints.policy ≠ 2 ∧ ∃ l, (x.s.core x.coreId).l1.find? (p.va / 32) = some l ∧
            p.data = some ((l.data >>> (8 * (p.va % 32))).setWidth 128)))

/-- 04 R88, 08 R162, R165, R166, 09 R175 to R177, R179: a store to global memory whose addresses the lookaside permits, with st below 63, an
attribution entry free and its reel not throttled, retires. st and the store sequence have risen by one; an attribution entry names its
instruction and the lines it writes; the image of every line is on its way to the slice; its block is marked as having published. No register
changes, and no byte of memory until a home takes an image. 09 R179: the images of a store hold exactly the bytes its lanes write, a byte that
several lanes write as the highest of them has it: for aligned accesses of 1, 2, 4, 8 or 16 bytes, the image of a byte's line names the byte and
holds the last lane's, and names no byte that no lane writes. Choices of the model that it rests on: log entry 83. -/
def Obligations.GlobalStores : Prop :=
  (
    ∀ (i : Instr) (x : Issuer) (f : MOp) (n : Nat) (s : State),
      StoreRow x i f n → x.Stands s → x.active ≠ 0 → (∀ p ∈ lanesOf x f 55 n, Allows x false true p.2) →
      x.reel.st < 63 → x.s.attrUsed x.coreId < 512 → Unthrottled x →
      ∃ t r, exec i s = .next t
        ∧ t = { x.s with
            reels := x.s.reels.put x.cur.reel r, cur := none, blocks := x.s.blocks.put x.reel.block { x.block with published := true }
            nextId := t.nextId, msgs := t.msgs, cores := t.cores, domains := t.domains, stores := t.stores }
        ∧ r = { x.advanced x.nextPc with st := x.reel.st + 1, seq := x.reel.seq + 1 }
        ∧ CoresKept x t (x.s.core x.coreId).carry ∧ DomainsKept x t
        ∧ (∀ k, t.stores.find? k = if k = x.s.nextId then some
              { core := x.coreId, origin := x.coreId, slot := slotOfKey x.cur.reel, reel := some x.cur.reel, launch := x.block.launch, block := x.reel.block
                linear := x.block.linear, ctx := x.block.ctx, pc := x.cur.bundle.ipc, inst := x.cur.bundle.word, lanes := x.active
                seq := x.reel.seq, stamp := x.reel.retired, ex := false, attr := true
                lines := (imagesOf x f n).map fun p => (p.1, .sent), acks := 0, counted := true, eng := false, last := none }
            else x.s.stores.find? k)
        ∧ ∀ p ∈ imagesOf x f n, ∃ k, t.msgs.find? k = some (toSlice x (.write x.s.nextId p.2))
  ) ∧ (
    ∀ (n : Nat) (accs : List (Nat × Nat × Nat)) (a : Nat), n ∈ [1, 2, 4, 8, 16] → (∀ p ∈ accs, p.2.1 % n = 0) →
      match lastByte accs n a with
      | some b => ∃ i, (storeImages n accs).find? (a / 128) = some i ∧ i.line = a / 128 ∧ i.mask.getLsbD (a % 128) = true
          ∧ (i.data.toNat / 256 ^ (a % 128)) % 256 = b
      | none => ∀ i, (storeImages n accs).find? (a / 128) = some i → i.mask.getLsbD (a % 128) = false
  )


/-- 04 R88, 08 R162, R166, 09 R183 to R186, R191: an atomic on global memory whose addresses the lookaside permits, with the counter that counts it
below 63, no outstanding destination, an attribution entry where it returns nothing, its reel not throttled and a release of its scope done where it
has release order, and with no other split of its reel in an acquire where it has acquire order (15 R302), is sent, one request for every line it
touches, and its core drops its own copies of those lines. With ret it raises ld, and an outstanding load waits for the old values; without, st and
the store sequence rise. With acquire order its split then waits for its load to return. No register changes yet, and no byte of memory. A release
hands the reel's stores on in its block, and from domain scope in its core. Choices of the model that it rests on: log entry 83. -/
def Obligations.GlobalAtomics : Prop :=
  ∀ (i : Instr) (x : Issuer) (op : AtomKind) (wide ret : Bool) (ord scope vd va : Nat) (s : State),
    AtomicRow x i op wide ret ord scope vd va → x.Stands s → x.active ≠ 0 → x.split.wait = none →
    vd + atomWidth op wide ≤ x.block.desc.vregs → va + 2 ≤ x.block.desc.vregs →
    (∀ l, x.lane l → Allows x (op ≠ .st) (op ≠ .ld) (atomAddr x op wide va l)) →
    (ret = true → x.reel.ld < 63 ∧ ∀ k, k < (if wide then 2 else 1) → x.reel.busyV (vd + k) = false) →
    (ret = false → x.reel.st < 63 ∧ x.s.attrUsed x.coreId < 512) →
    (2 ≤ ord → x.s.releaseDone x.cur.reel x.reel scope x.s.nextId = true) → Unthrottled x →
    (ord % 2 = 1 → ∀ j p, (j, p) ∈ x.reel.splits → j ≠ x.cur.split → ∀ load sc, p.wait ≠ some (.acquire load sc)) →
    let lanes := (laneList x.active).map (atomLane x op wide vd va)
    let acquire := if ord % 2 = 1 then some (Wait.acquire (x.s.nextId + 1) scope) else none
    ∃ t r, exec i s = .next t
      ∧ t = { x.s with
          reels := x.s.reels.put x.cur.reel r, cur := none, blocks := t.blocks
          nextId := t.nextId, msgs := t.msgs, cores := t.cores, domains := t.domains, stores := t.stores }
      ∧ r = { x.advanced x.nextPc with
          splits := x.reel.splits.put x.cur.split { x.split with pc := x.nextPc, wait := acquire, bundle := none }
          ld := if ret then x.reel.ld + 1 else x.reel.ld
          st := if ret then x.reel.st else x.reel.st + 1
          seq := if ret then x.reel.seq else x.reel.seq + 1
          loads := if ret then x.reel.loads ++ [⟨x.s.nextId + 1, x.cur.bundle.ipc, x.cur.bundle.word, x.active,
              .vec vd (if wide then 8 else 4) false, lanes.map fun l => ⟨l.lane, l.va, none, false⟩, some (op, wide, lanes), [], 0, 0⟩]
            else x.reel.loads }
      ∧ (∀ k, t.blocks.find? k = if k = x.reel.block
          then some { x.block with
            published := x.block.published || op ≠ .ld
            carry := if 2 ≤ ord then handedOn x x.block.carry else x.block.carry }
          else x.s.blocks.find? k)
      ∧ CoresKept x t (let old := (x.s.core x.coreId).carry; if 2 ≤ ord ∧ scope ≠ 0 then handedOn x old else old)
      ∧ DomainsKept x t
      ∧ (∃ o, t.stores.find? x.s.nextId = some o ∧ o.attr = !ret ∧ o.counted = !ret ∧ o.reel = some x.cur.reel ∧ o.seq = x.reel.seq
          ∧ ∀ line, o.lines.find? line = if ∃ l ∈ lanes, l.va / 128 = line then some .sent else none)
      ∧ (∀ k, k ≠ x.s.nextId → t.stores.find? k = x.s.stores.find? k)
      ∧ ∀ a ∈ lanes,
        (∃ k, t.msgs.find? k = some (toSlice x (.atomic x.s.nextId (if ret then some (x.cur.reel, x.s.nextId + 1) else none) op wide
            (lanes.filter fun l => l.va / 128 = a.va / 128))))
        ∧ ∀ j, j < 4 → (t.core x.coreId).l1.find? (4 * (a.va / 128) + j) = none

/-! ## Scratchpad -/

namespace Sys2Proof.Rows

/-- The loads and stores of scratchpad: the instruction, its word, whether it loads, its mode and its bytes a lane. Modes of a load: 0 plain, 1
wfull, 2 take; of a store: 0 plain, 1 put, 2 fill, 3 drain (09 R181). -/
inductive SpadRow (x : Issuer) : Instr → MOp → Bool → Nat → Nat → Prop
  | ldsZ16 f : MLegal x f 2 → SpadRow x (.ldsZ16 f) f true 0 2
  | ldsB32 f : MLegal x f 4 → SpadRow x (.ldsB32 f) f true 0 4
  | ldsB32Wfull f : MLegal x f 4 → SpadRow x (.ldsB32Wfull f) f true 1 4
  | ldsB32Take f : MLegal x f 4 → SpadRow x (.ldsB32Take f) f true 2 4
  | ldsB64 f : MLegal x f 8 → SpadRow x (.ldsB64 f) f true 0 8
  | ldsB64Wfull f : MLegal x f 8 → SpadRow x (.ldsB64Wfull f) f true 1 8
  | ldsB64Take f : MLegal x f 8 → SpadRow x (.ldsB64Take f) f true 2 8
  | ldsB128 f : MLegal x f 16 → SpadRow x (.ldsB128 f) f true 0 16
  | ldsB128Wfull f : MLegal x f 16 → SpadRow x (.ldsB128Wfull f) f true 1 16
  | ldsB128Take f : MLegal x f 16 → SpadRow x (.ldsB128Take f) f true 2 16
  | stsB16 f : MLegal x f 2 → SpadRow x (.stsB16 f) f false 0 2
  | stsB32 f : MLegal x f 4 → SpadRow x (.stsB32 f) f false 0 4
  | stsB32Put f : MLegal x f 4 → SpadRow x (.stsB32Put f) f false 1 4
  | stsB32Fill f : MLegal x f 4 → SpadRow x (.stsB32Fill f) f false 2 4
  | stsB32Drain f : MLegal x f 4 → SpadRow x (.stsB32Drain f) f false 3 4
  | stsB64 f : MLegal x f 8 → SpadRow x (.stsB64 f) f false 0 8
  | stsB64Put f : MLegal x f 8 → SpadRow x (.stsB64Put f) f false 1 8
  | stsB64Fill f : MLegal x f 8 → SpadRow x (.stsB64Fill f) f false 2 8
  | stsB64Drain f : MLegal x f 8 → SpadRow x (.stsB64Drain f) f false 3 8
  | stsB128 f : MLegal x f 16 → SpadRow x (.stsB128 f) f false 0 16
  | stsB128Put f : MLegal x f 16 → SpadRow x (.stsB128Put f) f false 1 16
  | stsB128Fill f : MLegal x f 16 → SpadRow x (.stsB128Fill f) f false 2 16
  | stsB128Drain f : MLegal x f 16 → SpadRow x (.stsB128Drain f) f false 3 16

/-- Word `w` of scratchpad holds a byte of an access of `n` bytes at an offset. -/
def inWord (a n w : Nat) : Prop := a < 4 * w + 4 ∧ 4 * w < a + n

/-- Some lane's access of `n` bytes touches word `w`. -/
def touched (accs : List (Nat × Nat)) (n w : Nat) : Prop := ∃ p ∈ accs, inWord p.2 n w

/-- Every byte of word `w` is one that some lane's access of `n` bytes holds. -/
def covered (accs : List (Nat × Nat)) (n w : Nat) : Prop := ∀ k, k < 4 → ∃ p ∈ accs, p.2 ≤ 4 * w + k ∧ 4 * w + k < p.2 + n

/-- Every word the lanes touch qualifies for the mode: full for wfull and take, empty for put (09 R181). -/
def Qualified (b : Block) (load : Bool) (mode : Nat) (accs : List (Nat × Nat)) (n : Nat) : Prop :=
  ∀ w, touched accs n w → (load = true → mode = 1 ∨ mode = 2 → b.full.findD false w = true)
    ∧ (load = false → mode = 1 → b.full.findD false w = false)

/-- No word the lanes touch is poisoned (11 R253). -/
def Unpoisoned (b : Block) (accs : List (Nat × Nat)) (n : Nat) : Prop := ∀ w, touched accs n w → b.poison.findD false w = false

/-- The full bits of a block's words after an access in a mode: take and drain leave the words it touches empty, put and fill leave them full,
every other mode and every other word as it was (09 R181). -/
def FullAfter (b b' : Block) (load : Bool) (mode : Nat) (accs : List (Nat × Nat)) (n : Nat) : Prop :=
  ∀ w, (¬ touched accs n w → b'.full.findD false w = b.full.findD false w)
    ∧ (touched accs n w → b'.full.findD false w =
        if load then (if mode = 2 then false else b.full.findD false w)
        else if mode = 1 ∨ mode = 2 then true else if mode = 3 then false else b.full.findD false w)

/-- The lanes of an M word with what each stores. -/
def storesOf (x : Issuer) (f : MOp) (bits n : Nat) : List (Nat × Nat × Nat) :=
  (lanesOf x f bits n).map fun p => (p.1, p.2, stored x.reel f.vt.toNat n p.1)

/-- The atomics on scratchpad: the instruction, its operation and its word, where the word is legal (09 R183, R184). -/
inductive BankRow : Instr → AtomKind → AOpS → Prop
  | add f : f.ok false = true → BankRow (.atomsAdd f) .add f
  | fadd f : f.ok false = true → BankRow (.atomsFadd f) .fadd f
  | minI f : f.ok false = true → BankRow (.atomsMinI f) .minI f
  | maxI f : f.ok false = true → BankRow (.atomsMaxI f) .maxI f
  | minZ f : f.ok false = true → BankRow (.atomsMinZ f) .minZ f
  | maxZ f : f.ok false = true → BankRow (.atomsMaxZ f) .maxZ f
  | and f : f.ok false = true → BankRow (.atomsAnd f) .and f
  | or f : f.ok false = true → BankRow (.atomsOr f) .or f
  | xor f : f.ok false = true → BankRow (.atomsXor f) .xor f
  | exch f : f.ok false = true → BankRow (.atomsExch f) .exch f
  | cas f : f.ok true = true → BankRow (.atomsCas f) .cas f

/-- A lane's offset and operands of a scratchpad atomic: va and the displacement modulo 2^32, aligned to its width (09 R183, R187). -/
def bankLane (x : Issuer) (op : AtomKind) (f : AOpS) (l : Nat) : AtomLane :=
  let n := if f.w = 1 then 8 else 4
  let ea := (((x.reel.vget f.va.toNat l).toNat : Int) + dispOf x) % 2 ^ 32
  let arg := fun m => if f.w = 1 then x.reel.vpair m l else (x.reel.vget m l).setWidth 64
  ⟨l, ea.toNat - ea.toNat % n, arg f.vd.toNat, if op = .cas then arg (f.vd.toNat + if f.w = 1 then 2 else 1) else 0⟩

/-- What an atomic of `n` bytes writes to a cell that holds `old`, with operands `a` and `b`; `ld`, and a `cas` whose comparison fails, write
nothing (09 R184, R185). -/
def cellAfter (op : AtomKind) (n old a b : Nat) : Option Nat :=
  let sv := fun v => sxNat v (8 * n)
  match op with
  | .add | .xadd => some (old + a)
  | .fadd => let t := if n = 8 then Fmt.f64 else Fmt.f32; some (fAdd t .rne false (FVal.read t false old) (FVal.read t false a)).1
  | .minI => some (if sv old ≤ sv a then old else a)
  | .maxI => some (if sv old ≤ sv a then a else old)
  | .minZ => some (min old a)
  | .maxZ => some (max old a)
  | .and => some (old &&& a)
  | .or => some (old ||| a)
  | .xor => some (old ^^^ a)
  | .exch | .st => some a
  | .cas => if old = a then some b else none
  | .ld => none

/-- The lanes of an atomic performed on a memory one after the other: the memory they leave, and each lane's old value. -/
def performed (op : AtomKind) (n : Nat) : List Host.Cell → List AtomLane → List Host.Cell × List (Nat × Nat × Nat)
  | m, [] => (m, [])
  | m, l :: ls =>
    let old := Memory.readNat m l.va n
    let r := performed op n (match cellAfter op n old l.x.toNat l.y.toNat with | some v => Memory.writeNat m l.va n v | none => m) ls
    (r.1, (l.lane, l.va, old) :: r.2)

end Sys2Proof.Rows


/-- 04 R88, 08 R150 to R153, 09 R175 to R177, R181, R182: a load from scratchpad within its block's bytes, whose words are full in a waiting
mode and not poisoned, whose destination waits for no load, with ld below 63, is performed and retires: ld has risen by one, an
outstanding load holds each active lane's bytes, lowest first, take leaves the words it read empty, and nothing else of the block, no
register and no byte of memory changes. -/
def Obligations.ScratchpadLoads : Prop :=
  ∀ (i : Instr) (x : Issuer) (f : MOp) (mode n : Nat) (s : State),
    SpadRow x i f true mode n → x.Stands s → x.active ≠ 0 → x.split.wait = none →
    (∀ p ∈ lanesOf x f 32 n, p.2 + n ≤ x.block.desc.spad) → x.reel.ld < 63 →
    (∀ m, f.vt.toNat ≤ m → m < f.vt.toNat + (n + 3) / 4 → x.reel.busyV m = false) →
    Qualified x.block true mode (lanesOf x f 32 n) n → Unpoisoned x.block (lanesOf x f 32 n) n →
    ∃ t r b id, exec i s = .next t
      ∧ t = { x.s with reels := x.s.reels.put x.cur.reel r, blocks := x.s.blocks.put x.reel.block b, cur := none, nextId := t.nextId }
      ∧ b = { x.block with full := b.full } ∧ FullAfter x.block b true mode (lanesOf x f 32 n) n
      ∧ r = { x.advanced x.nextPc with
          ld := x.reel.ld + 1
          loads := x.reel.loads ++ [⟨id, x.cur.bundle.ipc, x.cur.bundle.word, x.active, .vec f.vt.toNat n false,
            (lanesOf x f 32 n).map fun p => ⟨p.1, p.2, some (BitVec.ofNat 128 (Memory.readNat x.block.spad p.2 n)), false⟩, none, [], 0, 0⟩] }

/-- 08 R150 to R153, 09 R175 to R177, R181, R182, 11 R253, 15 R296: a store to scratchpad within its block's bytes, whose words are empty for put,
and whose reel has no scratchpad store or atomic still to be accepted where it is put, fill or drain, is performed and retires. Each byte the
lanes write holds what the highest of them stores there, every other byte is unchanged; the words touched are left full by put and fill, empty by
drain; a word that the lanes together write whole is no longer poisoned, and no other word's poison changes; nothing else of the block, no
register and no byte of memory changes. Choices of the model that it rests on: log entry 91. 04 R91, R94, 09 R182,
R187: a scratchpad access of which some lane passes the end of its block's bytes takes the scratchpad-bounds trap with exactly those lanes and has
no effect, outside handler mode in a reel that has a handler. -/
def Obligations.ScratchpadStores : Prop :=
  (
    ∀ (i : Instr) (x : Issuer) (f : MOp) (mode n : Nat) (s : State),
      SpadRow x i f false mode n → x.Stands s → x.active ≠ 0 → x.split.wait = none →
      (∀ p ∈ lanesOf x f 32 n, p.2 + n ≤ x.block.desc.spad) → x.reel.st < 63 →
      Qualified x.block false mode (lanesOf x f 32 n) n → (mode ≠ 0 → x.reel.scratchDone x.cur.split x.s.nextId = true) →
      ∃ t b, exec i s = .next t
        ∧ t = { x.s with
            reels := x.s.reels.put x.cur.reel (x.advanced x.nextPc), blocks := x.s.blocks.put x.reel.block b
            cur := none, nextId := t.nextId }
        ∧ b = { x.block with spad := b.spad, full := b.full, poison := b.poison }
        ∧ FullAfter x.block b false mode (lanesOf x f 32 n) n
        ∧ (∀ a, (Memory.read b.spad a).toNat = (lastByte (storesOf x f 32 n) n a).getD (Memory.read x.block.spad a).toNat)
        ∧ ∀ w, b.poison.findD false w = true ↔ x.block.poison.findD false w = true ∧ ¬ covered (lanesOf x f 32 n) n w
  ) ∧ (
    ∀ (i : Instr) (x : Issuer) (s : State), x.Stands s → x.Vectors →
      (∀ (f : MOp) (load : Bool) (mode n : Nat), SpadRow x i f load mode n →
        (∃ p ∈ lanesOf x f 32 n, x.block.desc.spad < p.2 + n) →
        exec i s = .next (x.into (x.trapped x.reel x.cur.bundle.word
          (maskOf (((lanesOf x f 32 n).filter fun p => x.block.desc.spad < p.2 + n).map (·.1))) 3)))
      ∧ ∀ (op : AtomKind) (f : AOpS), BankRow i op f → f.vd.toNat + atomWidth op (f.w == 1) ≤ x.block.desc.vregs →
        f.va.toNat < x.block.desc.vregs →
        (∃ l, x.lane l ∧ x.block.desc.spad < (bankLane x op f l).va + (if f.w = 1 then 8 else 4)) →
        exec i s = .next (x.into (x.trapped x.reel x.cur.bundle.word
          (maskOf ((laneList x.active).filter fun l => x.block.desc.spad < (bankLane x op f l).va + (if f.w = 1 then 8 else 4))) 3))
  )


/-- 04 R88, 08 R150, 09 R183 to R187, R191, 10 R208, 11 R253, 15 R299: an atomic on scratchpad within its block's bytes, on words that are not
poisoned unless it is an `exch` that returns nothing, performs its lanes in ascending order and retires. With ret an outstanding load holds each
lane's old value; release order hands on the stores still to be performed; with acquire order its split then waits for its load to return. No full
bit, no register and no byte of memory changes. Choices of the model that it rests on: log entry 54. -/
def Obligations.ScratchpadAtomics : Prop :=
  ∀ (i : Instr) (x : Issuer) (op : AtomKind) (f : AOpS) (s : State),
    BankRow i op f → x.Stands s → x.active ≠ 0 → x.split.wait = none →
    f.vd.toNat + atomWidth op (f.w == 1) ≤ x.block.desc.vregs → f.va.toNat < x.block.desc.vregs →
    let n := if f.w = 1 then 8 else 4
    let lanes := (laneList x.active).map (bankLane x op f)
    let accs := lanes.map fun l => (l.lane, l.va)
    (∀ l ∈ lanes, l.va + n ≤ x.block.desc.spad) →
    (f.ret = 1 → x.reel.ld < 63 ∧ ∀ k, k < n / 4 → x.reel.busyV (f.vd.toNat + k) = false) → (f.ret = 0 → x.reel.st < 63) →
    (op = .exch ∧ f.ret = 0 ∨ Unpoisoned x.block accs n) →
    (2 ≤ f.ord.toNat → x.s.releaseDone x.cur.reel x.reel 0 x.s.nextId = true) →
    ∃ t r b, exec i s = .next t
      ∧ t = { x.s with reels := x.s.reels.put x.cur.reel r, blocks := x.s.blocks.put x.reel.block b, cur := none, nextId := t.nextId }
      ∧ b = { x.block with
          spad := (performed op n x.block.spad lanes).1, poison := b.poison
          carry := if 2 ≤ f.ord.toNat then unionNew (x.block.carry.filter fun i => !x.s.storeGone i) (x.s.carryOf x.cur.reel x.reel)
            else x.block.carry }
      ∧ (∀ w, b.poison.findD false w = true ↔ x.block.poison.findD false w = true ∧ ¬ touched accs n w)
      ∧ r = { x.advanced x.nextPc with
          splits := x.reel.splits.put x.cur.split { x.split with
            pc := x.nextPc, wait := if f.ord.toNat % 2 = 1 then some (.acquire x.s.nextId 0) else none, bundle := none }
          ld := if f.ret = 1 then x.reel.ld + 1 else x.reel.ld
          loads := if f.ret = 1 then x.reel.loads ++ [⟨x.s.nextId, x.cur.bundle.ipc, x.cur.bundle.word, x.active, .vec f.vd.toNat n false,
              (performed op n x.block.spad lanes).2.map fun p => ⟨p.1, p.2.1, some (BitVec.ofNat 128 p.2.2), false⟩, none, [], 0, 0⟩]
            else x.reel.loads }

/-! ## Fences, barriers, semaphores and watches -/

namespace Sys2Proof.Rows

/-- No HX hint of another payload than 0 widens the immediate of a SYNC or ENGINE word (09 R195, 11 R245). -/
def NoWide (x : Issuer) : Prop := x.cur.bundle.hints.hx = none ∨ x.cur.bundle.hints.hx = some 0

/-- The state in which the executing split is left waiting in its instruction and nothing else has changed (04 R78). -/
def waitsIn (x : Issuer) (w : Wait) : State :=
  x.into { x.reel with splits := x.reel.splits.put x.cur.split { x.split with wait := some w, bundle := some x.cur.bundle } }

/-- Only the executing reel, to `r`, and its block, to `b`, have changed. -/
def Local (x : Issuer) (t : State) (r : Reel) (b : Block) : Prop :=
  t = { x.s with reels := x.s.reels.put x.cur.reel r, blocks := t.blocks, cur := none, nextId := t.nextId }
    ∧ ∀ k, t.blocks.find? k = if k = x.reel.block then some b else x.s.blocks.find? k

/-- Only reels and the executing reel's block, to `b`, have changed; the executing reel to `r`, and of the others those of its block in what their
splits wait for, by `f`. -/
def Stirred (x : Issuer) (t : State) (f : Wait → Wait) (r : Reel) (b : Block) : Prop :=
  t = { x.s with reels := t.reels, blocks := t.blocks, cur := none, nextId := t.nextId }
    ∧ (∀ k, t.blocks.find? k = if k = x.reel.block then some b else x.s.blocks.find? k)
    ∧ t.reels.find? x.cur.reel = some r
    ∧ ∀ k, k ≠ x.cur.reel → t.reels.find? k = (x.s.reels.find? k).map fun q => if q.block = x.reel.block then q.mapWaits f else q

/-- The splits of the executing reel after a change of what they wait for, the executing split at the next word. -/
def stirredSplits (x : Issuer) (f : Wait → Wait) : Map Split :=
  (x.reel.mapWaits f).splits.put x.cur.split { x.split with pc := x.nextPc, wait := none, bundle := none }

/-- The caches of the issuing core and its domain after an acquire of a scope, or after none (09 R191): from domain scope the core's L1 is
empty; from wafer scope the slice has lost the Guest copies of the pages that the scope drops, and no other copy, and later reads go behind the
bytes forwarded to other homes (14 R273, 15 R299). Of the core, what its releases hand on may have become `carry`. -/
def Acquired (x : Issuer) (t : State) (acq : Prop) (scope : Nat) (carry : List Nat) : Prop :=
  let own := domainOfCore x.coreId
  (∀ c, c ≠ x.coreId → t.core c = x.s.core c)
    ∧ (¬ (acq ∧ 1 ≤ scope) → t.core x.coreId = { x.s.core x.coreId with carry := carry })
    ∧ (acq → 1 ≤ scope → t.core x.coreId = { x.s.core x.coreId with carry := carry, l1 := [] })
    ∧ (∀ d, (d ≠ own ∨ ¬ acq ∨ scope = 0 → t.domain d = x.s.domain d)
      ∧ t.domain d = { x.s.domain d with l2 := (t.domain d).l2 }
      ∧ ((x.s.domain d).l2.sorted → ∀ sec,
        (scope ≤ 1 → (t.sector d sec).held = (x.s.sector d sec).held ∧ (t.sector d sec).laid = (x.s.sector d sec).laid)
        ∧ (d = own → acq → 2 ≤ scope →
          (t.sector d sec).laid = (x.s.sector d sec).laid.map (fun l => { l with hidden := l.hidden || l.forwarded })
          ∧ ((x.s.sector d sec).held = none → (t.sector d sec).held = none)
          ∧ ∀ h, (x.s.sector d sec).held = some h → (t.sector d sec).held =
              if h.kind = .guest ∧ x.s.drops scope h.pa h.mode = true then none else some h)))

/-- Store `i` is one that releases have handed on in block `b`, or, from domain scope, in its core, as `t` holds it (15 R299). -/
def handedTo (t : State) (b : Block) (scope i : Nat) : Prop := i ∈ b.carry ∨ (scope ≠ 0 ∧ i ∈ (t.core b.core).carry)

/-- What the end of a slot's registration leaves with the launch: until the home has freed it, the launch is not complete (09 R202, 16 R312). -/
def Leaves (x : Issuer) (w : Nat) (t : State) : Prop :=
  ∀ k, t.launches.find? k = (x.s.launches.find? k).map fun l =>
    if k = x.block.launch ∧ (x.reel.watchSlot w).state ≠ .unarmed then { l with leaving := l.leaving ++ [(x.reel.watchSlot w).reg] } else l

/-- A park ends with bit 7 (09 R200). -/
def parkEnds : Wait → Wait
  | .park timeout since cause => .park timeout since (some (cause.getD 0 ||| 128))
  | w => w

/-- What the end of slot `w` does to the reel's waits: every park ends where the other slot is not armed either (09 R200). -/
def unparked (x : Issuer) (w : Nat) : Wait → Wait :=
  if (w = 0 ∨ (x.reel.watchSlot 0).state = .unarmed) ∧ (w = 1 ∨ (x.reel.watchSlot 1).state = .unarmed) then parkEnds else id

/-- A slot's cell as its registration is sent: the address watched, no latch, the last status kept (08 R172, 09 R199). -/
def sentSlot (x : Issuer) (w va id : Nat) : WatchSlot := ⟨.sent, va, 0, false, (x.reel.watchSlot w).status, false, id, 64⟩

/-- A slot's cause bits in a `park` status: a latched write at bit w with bit 2, a loss at bit 5 + w (09 R200). -/
def causeBits (v : WatchSlot) (w : Nat) : Nat := (if v.latch then 2 ^ w + 4 else 0) ||| (if v.lost then 2 ^ (5 + w) else 0)

/-- The status `park` can return at once: the causes latched in both slots, and bit 7 with no slot armed (09 R200). -/
def parkNow (r : Reel) : Nat :=
  causeBits (r.watchSlot 0) 0 ||| causeBits (r.watchSlot 1) 1
    ||| if (r.watchSlot 0).state = .unarmed ∧ (r.watchSlot 1).state = .unarmed then 128 else 0

/-- What an update of semaphore `m` to a value does to a wait: it is over once (value − threshold) mod 2^32 is below 2^31 (09 R198). -/
def semReady (m : Nat) (v : Word) : Wait → Wait
  | .sem m' th ready => .sem m' th (ready || (m' == m && decide ((v - th).toNat < 2 ^ 31)))
  | w => w

end Sys2Proof.Rows


/-- 09 R191, R193, R194, 10 R208, 15 R299: a fence whose release, if it has one, has nothing left to wait for performs its acquire, if it has one,
and retires; the stores its release hands on are those later acquires inherit, in its block, and from domain scope in its core. `ifence` empties the
core's instruction cache. `waitc` retires once each counter is at most its operand, and waits at issue otherwise. No register, no counter and no
byte of memory changes. Choices of the model that it rests on: log entries 54 and 78. -/
def Obligations.FencesAndCounterWaits : Prop :=
  ∀ (x : Issuer) (s : State), x.Stands s →
    (∀ f : FenceOp, f.ord ≠ 0 → x.split.wait = none →
      (2 ≤ f.ord.toNat → x.s.releaseDone x.cur.reel x.reel f.scope.toNat x.s.nextId = true) →
      ∃ t r b, exec (.fence f) s = .next t
        ∧ t = { x.s with
            reels := x.s.reels.put x.cur.reel r, blocks := t.blocks, cur := none, msgs := t.msgs, cores := t.cores, domains := t.domains }
        ∧ (∀ k, t.blocks.find? k = if k = x.reel.block then some b else x.s.blocks.find? k)
        ∧ b = { x.block with carry :=
            if 2 ≤ f.ord.toNat then unionNew (x.block.carry.filter fun i => !x.s.storeGone i) (x.s.carryOf x.cur.reel x.reel)
            else x.block.carry }
        ∧ r = { x.advanced x.nextPc with inherited := r.inherited }
        ∧ (∀ i, i ∈ r.inherited ↔ i ∈ x.reel.inherited ∨ (f.ord.toNat % 2 = 1 ∧ handedTo t b f.scope.toNat i))
        ∧ Acquired x t (f.ord.toNat % 2 = 1) f.scope.toNat
            (let old := (x.s.core x.coreId).carry
            if 2 ≤ f.ord.toNat ∧ 1 ≤ f.scope.toNat then unionNew (old.filter fun i => !x.s.storeGone i) (x.s.carryOf x.cur.reel x.reel) else old))
    ∧ (∃ t, exec .ifence s = .next t ∧ t = { x.into (x.advanced x.nextPc) with cores := t.cores }
      ∧ ∀ c, t.core c = if c = x.coreId then { x.s.core c with icache := [] } else x.s.core c)
    ∧ ∀ f : WaitOp,
      let met := x.reel.ld ≤ f.ld.toNat ∧ x.reel.st ≤ f.st.toNat ∧ x.reel.eng ≤ f.eng.toNat ∧ x.reel.mx ≤ f.mx.toNat
      (met → exec (.waitc f) s = .next (x.into (x.advanced x.nextPc)))
      ∧ (¬ met → exec (.waitc f) s = .next (waitsIn x (x.split.wait.getD .issue)))

/-- 08 R172, 09 R195 to R197, 15 R299: `binit` sets the expected count of a barrier nobody has arrived at or waits for. An arrival returns the
phase as the token; the one that makes the expected count flips the barrier, once: the phase rises, arrivals and waiters are 0, and every wait on
it is over. `bwait` writes its status at once by the distance of the phase from the token and waits at distance 0, where `bsync` waits too unless
its own arrival has flipped the barrier; a wait that the flip has ended writes status 0. No other barrier, no semaphore, no scratchpad byte and no
byte of memory changes. Choices of the model that it rests on: log entry 54. -/
def Obligations.Barriers : Prop :=
  ∀ (x : Issuer) (s : State), x.Stands s → NoWide x →
    (∀ f : BInit, 1 ≤ f.n.toNat → f.n.toNat ≤ 33 →
      let v := x.block.barrier f.b.toNat
      (v.arrivals = 0 → v.waiters = 0 →
        ∃ t b, exec (.binit f) s = .next t ∧ Local x t (x.advanced x.nextPc) b ∧ b = { x.block with barriers := b.barriers }
          ∧ ∀ j, b.barrier j = if j = f.b.toNat then { v with expected := f.n.toNat } else x.block.barrier j)
      ∧ (v.arrivals ≠ 0 ∨ v.waiters ≠ 0 → x.Vectors →
        exec (.binit f) s = .next (x.into (x.trapped x.reel x.cur.bundle.word x.active 2))))
    ∧ (∀ f : BArr, x.split.wait = none → x.reel.busyS f.sd.toNat = false → x.s.releaseDone x.cur.reel x.reel 0 x.s.nextId = true →
      let i := f.b.toNat
      let v := x.block.barrier i
      let all := unionNew v.carry (x.s.carryOf x.cur.reel x.reel)
      let reg := (x.reel.sset f.sd.toNat (v.phase.setWidth 32)).s
      (v.arrivals + 1 ≠ v.expected →
        ∃ t b, exec (.barrive f) s = .next t ∧ Local x t { x.advanced x.nextPc with s := reg } b
          ∧ b = { x.block with barriers := b.barriers }
          ∧ ∀ j, b.barrier j = if j = i then { v with arrivals := v.arrivals + 1, carry := all } else x.block.barrier j)
      ∧ (v.arrivals + 1 = v.expected →
        ∃ t r b, exec (.barrive f) s = .next t ∧ Stirred x t (Wait.flip i) r b
          ∧ r = { x.advanced x.nextPc with s := reg, splits := stirredSplits x (Wait.flip i) }
          ∧ b = { x.block with barriers := b.barriers, seq := { x.block.seq with wait := x.block.seq.wait.map (SeqWait.flip i) } }
          ∧ (∀ j, j ≠ i → b.barrier j = x.block.barrier j)
          ∧ (b.barrier i).phase = v.phase + 1 ∧ (b.barrier i).arrivals = 0 ∧ (b.barrier i).waiters = 0
          ∧ (b.barrier i).expected = v.expected))
    ∧ (∀ f : BWaitOp, x.reel.busyS f.sd.toNat = false →
      let i := f.b.toNat
      let token : BitVec 16 := (x.reel.sget f.sa.toNat).setWidth 16
      let v := x.block.barrier i
      let d := (v.phase - token).toNat
      let ends := fun (st : Word) => ∃ t r, exec (.bwait f) s = .next t ∧ Local x t r x.block
        ∧ r = { x.advanced x.nextPc with s := (x.reel.sset f.sd.toNat st).s, inherited := r.inherited }
        ∧ ∀ j, j ∈ r.inherited ↔ j ∈ x.reel.inherited ∨ j ∈ v.flipped ∨ j ∈ x.block.carry
      (x.split.wait = none → d ≠ 0 → ends (if d = 1 then 0 else if d < 2 ^ 15 then 1 else 2))
      ∧ (∀ b' t', x.split.wait = some (.barrier b' t' true) → ends 0)
      ∧ (x.split.wait = none → d = 0 →
        ∃ t b, exec (.bwait f) s = .next t ∧ Local x t
          { x.reel with splits :=
              x.reel.splits.put x.cur.split { x.split with wait := some (.barrier i token false), bundle := some x.cur.bundle } } b
          ∧ b = { x.block with barriers := b.barriers }
          ∧ ∀ j, b.barrier j = if j = i then { v with waiters := v.waiters ||| (1 : BitVec 33) <<< x.reel.idx } else x.block.barrier j))
    ∧ ∀ f : BNum,
      let i := f.b.toNat
      let v := x.block.barrier i
      (x.split.wait = none → x.s.releaseDone x.cur.reel x.reel 0 x.s.nextId = true → v.arrivals + 1 = v.expected →
        ∃ t r b, exec (.bsync f) s = .next t ∧ Stirred x t (Wait.flip i) r b
          ∧ r = { x.advanced x.nextPc with splits := stirredSplits x (Wait.flip i), inherited := r.inherited }
          ∧ b = { x.block with barriers := b.barriers, seq := { x.block.seq with wait := x.block.seq.wait.map (SeqWait.flip i) } }
          ∧ (∀ j, j ≠ i → b.barrier j = x.block.barrier j) ∧ (b.barrier i).expected = v.expected
          ∧ (b.barrier i).phase = v.phase + 1 ∧ (b.barrier i).arrivals = 0 ∧ (b.barrier i).waiters = 0
          ∧ ∀ j, j ∈ r.inherited ↔ j ∈ x.reel.inherited ∨ j ∈ (b.barrier i).flipped ∨ j ∈ x.block.carry)
      ∧ (x.split.wait = none → x.s.releaseDone x.cur.reel x.reel 0 x.s.nextId = true → v.arrivals + 1 ≠ v.expected →
        ∃ t b, exec (.bsync f) s = .next t ∧ Local x t
          { x.reel with splits :=
              x.reel.splits.put x.cur.split { x.split with wait := some (.barrier i v.phase false), bundle := some x.cur.bundle } } b
          ∧ b = { x.block with barriers := b.barriers } ∧ (b.barrier i).expected = v.expected
          ∧ (b.barrier i).arrivals = v.arrivals + 1 ∧ (b.barrier i).waiters = v.waiters ||| (1 : BitVec 33) <<< x.reel.idx
          ∧ (b.barrier i).phase = v.phase ∧ ∀ j, j ≠ i → b.barrier j = x.block.barrier j)
      ∧ (∀ b' t', x.split.wait = some (.barrier b' t' true) →
        ∃ t r, exec (.bsync f) s = .next t ∧ Local x t r x.block ∧ r = { x.advanced x.nextPc with inherited := r.inherited }
          ∧ ∀ j, j ∈ r.inherited ↔ j ∈ x.reel.inherited ∨ j ∈ v.flipped ∨ j ∈ x.block.carry)

/-- 08 R172, 09 R198, 15 R299: `semset` sets a semaphore of the block and `semadd`, its release done, adds to it modulo 2^32; in either case every
wait of the block that the new value satisfies is over, and no other semaphore changes. `semwait` retires where (value − S[sa]) mod 2^32 < 2^31,
with the acquire of its scope, or once an update has satisfied it, and waits otherwise. Choices of the model that it rests on: log entry 54. -/
def Obligations.Semaphores : Prop :=
  ∀ (x : Issuer) (s : State), x.Stands s → NoWide x →
    (∀ f : SemSet,
      let v := x.reel.sget f.sa.toNat
      ∃ t r b, exec (.semset f) s = .next t ∧ Stirred x t (semReady f.sm.toNat v) r b
        ∧ r = { x.advanced x.nextPc with splits := stirredSplits x (semReady f.sm.toNat v) } ∧ b = { x.block with sems := b.sems }
        ∧ (b.sem f.sm.toNat).value = v ∧ ∀ j, j ≠ f.sm.toNat → b.sem j = x.block.sem j)
    ∧ (∀ f : SemOp, x.split.wait = none → x.s.releaseDone x.cur.reel x.reel f.scope.toNat x.s.nextId = true →
      let v := (x.block.sem f.sm.toNat).value + x.reel.sget f.sa.toNat
      ∃ t r b, exec (.semadd f) s = .next t ∧ Stirred x t (semReady f.sm.toNat v) r b
        ∧ r = { x.advanced x.nextPc with splits := stirredSplits x (semReady f.sm.toNat v) } ∧ b = { x.block with sems := b.sems }
        ∧ (b.sem f.sm.toNat).value = v
        ∧ (b.sem f.sm.toNat).carry = unionNew (x.block.sem f.sm.toNat).carry (x.s.carryOf x.cur.reel x.reel)
        ∧ ∀ j, j ≠ f.sm.toNat → b.sem j = x.block.sem j)
    ∧ ∀ f : SemOp,
      let m := x.block.sem f.sm.toNat
      let th := x.reel.sget f.sa.toNat
      ((x.split.wait = none ∧ (m.value - th).toNat < 2 ^ 31) ∨ (∃ m' th', x.split.wait = some (.sem m' th' true)) →
        ∃ t r, exec (.semwait f) s = .next t
          ∧ t = { x.s with reels := x.s.reels.put x.cur.reel r, cur := none, msgs := t.msgs, cores := t.cores, domains := t.domains }
          ∧ r = { x.advanced x.nextPc with inherited := r.inherited }
          ∧ (∀ j, j ∈ r.inherited ↔ j ∈ x.reel.inherited ∨ j ∈ m.carry ∨ handedTo x.s x.block f.scope.toNat j)
          ∧ Acquired x t True f.scope.toNat (x.s.core x.coreId).carry)
      ∧ (x.split.wait = none → 2 ^ 31 ≤ (m.value - th).toNat → exec (.semwait f) s = .next (waitsIn x (.sem f.sm.toNat th false)))

/-- 04 R88, 08 R162, R172, 09 R199 to R202: `watch` of an address that may be read registers its slot: the slot awaits its answer under a new
identity, ld has risen, the answer goes to `sd`, and the registration is on its way to the slice; a slot that was armed has first been disarmed.
`watch.spad` and `unwatch` leave the slot unarmed, the former with status 3 in `sd` and in the slot at once, and where the other slot is not armed
either every park of the reel ends with bit 7. `park` returns at once with the latched causes and bit 7 where no slot is armed, clearing both
latches; it waits where there is none, and returns with the status that has come. No byte of memory changes. Choices of the model that it rests on:
log entry 3. -/
def Obligations.Watches : Prop :=
  ∀ (x : Issuer) (s : State), x.Stands s → NoWide x →
    let bye := fun (w : Nat) => Body.watch x.cur.reel w (x.reel.watchSlot w).reg (x.reel.watchSlot w).va false
    let gone := fun (t : State) (w : Nat) => (x.reel.watchSlot w).state ≠ .unarmed → ∃ k, t.msgs.find? k = some (toSlice x (bye w))
    (∀ f : WatchOp, f.sa.toNat % 2 = 0 → Allows x true false (pairVa x f.sa.toNat) → x.reel.busyS f.sd.toNat = false → x.reel.ld < 63 →
      let w := f.w.toNat
      let va := pairVa x f.sa.toNat
      ∃ t r id, exec (.watch f) s = .next t
        ∧ t = { x.s with
            reels := x.s.reels.put x.cur.reel r, cur := none, msgs := t.msgs, nextId := t.nextId, launches := t.launches }
        ∧ Leaves x w t
        ∧ r = { x.advanced x.nextPc with
            ld := x.reel.ld + 1, watches := r.watches
            loads := x.reel.loads ++ [⟨id, x.cur.bundle.ipc, x.cur.bundle.word, x.active, .status f.sd.toNat w,
              [⟨0, va, none, false⟩], none, [], 0, 0⟩] }
        ∧ (∀ j, r.watchSlot j = if j = w then sentSlot x w va id else x.reel.watchSlot j)
        ∧ (∃ k, t.msgs.find? k = some (toSlice x (.watch x.cur.reel w id va true))) ∧ gone t w)
    ∧ (∀ f : WatchOp, x.reel.busyS f.sd.toNat = false →
      ∃ t r, exec (.watchSpad f) s = .next t
        ∧ t = { x.s with
            reels := x.s.reels.put x.cur.reel r, cur := none, msgs := t.msgs, nextId := t.nextId, launches := t.launches }
        ∧ Leaves x f.w.toNat t
        ∧ r = { x.advanced x.nextPc with
            s := (x.reel.sset f.sd.toNat 3).s, watches := r.watches, splits := stirredSplits x (unparked x f.w.toNat) }
        ∧ (r.watchSlot f.w.toNat).state = .unarmed ∧ (r.watchSlot f.w.toNat).status = 3 ∧ (∀ j, j ≠ f.w.toNat → r.watchSlot j = x.reel.watchSlot j) ∧ gone t f.w.toNat)
    ∧ (∀ f : S2, x.reel.busyS f.sd.toNat = false →
      let returns := fun (st : Word) => ∃ r, exec (.park f) s = .next (x.into r)
        ∧ r = { x.advanced x.nextPc with s := (x.reel.sset f.sd.toNat st).s, watches := r.watches }
        ∧ (∀ j, j < 2 → r.watchSlot j = { x.reel.watchSlot j with latch := false, lost := false })
      let bare := (x.reel.watchSlot 0).state = .unarmed ∧ (x.reel.watchSlot 1).state = .unarmed
      (x.split.wait = none → parkNow x.reel ≠ 0 → returns (BitVec.ofNat 32 (parkNow x.reel)))
      ∧ (∀ timeout since st, x.split.wait = some (.park timeout since (some st)) → returns (st ||| if bare then 128 else 0))
      ∧ (x.split.wait = none → parkNow x.reel = 0 →
        exec (.park f) s = .next (waitsIn x (.park (x.reel.sget f.sa.toNat).toNat (x.s.clock x.coreId) none))))
    ∧ ∀ f : WNum, ∃ t r, exec (.unwatch f) s = .next t
      ∧ t = { x.s with reels := x.s.reels.put x.cur.reel r, cur := none, msgs := t.msgs, nextId := t.nextId, launches := t.launches }
      ∧ Leaves x f.w.toNat t
      ∧ r = { x.advanced x.nextPc with watches := r.watches, splits := stirredSplits x (unparked x f.w.toNat) }
      ∧ (r.watchSlot f.w.toNat).state = .unarmed ∧ (∀ j, j ≠ f.w.toNat → r.watchSlot j = x.reel.watchSlot j) ∧ gone t f.w.toNat

/-! ## Staged loops -/

namespace Sys2Proof.Rows

/-- The operand of `stadv`, `stjmp` and `waitl`: S[sa] plus the immediate, which an HX hint widens (10 R214). -/
def stageOp (x : Issuer) (f : StOp) : Nat :=
  (x.reel.sget f.sa.toNat).toNat + match x.cur.bundle.hints.hx with | some p => p.toNat * 2 ^ 7 + f.n.toNat | none => f.n.toNat

/-- The reel is in live iteration `e` of its block's loop, which stage entry `i` holds (10 R204). -/
def InIteration (x : Issuer) (i : Nat) (e : StageEntry) : Prop := x.reel.iter = some i ∧ x.block.stages.find? i = some e

/-- The split has just come to its release, which has nothing left to wait for at a scope (09 R191). -/
def Released (x : Issuer) (scope : Nat) : Prop :=
  x.split.wait = none ∧ x.s.releaseDone x.cur.reel x.reel scope x.s.nextId = true

/-- The stores that an advance of entry `e` hands on (10 R208). -/
def handed (x : Issuer) (e : StageEntry) : List Nat := unionNew (e.carry.filter fun i => !x.s.storeGone i) (x.s.carryOf x.cur.reel x.reel)

/-- No other split of the reel still waits in the release of an advance that issued earlier: `stadv`, `stjmp` or `sdone` (10 R209). -/
def InOrder (x : Issuer) : Prop := ∀ p ∈ x.reel.splits, p.1 ≠ x.cur.split → p.2.advancesBefore x.s.nextId = false

/-- A wait of `waitl` once the counter of iteration `iter` has reached `c`, with the stores its advances have handed on (10 R208, R214). -/
def waitsPast (iter c : Nat) (carry : List Nat) : Wait → Wait
  | .waitl i stage none => .waitl i stage (if i = iter + 1 ∧ (stage < c ∨ c = 0xFFFF) then some carry else none)
  | w => w

/-- A wait of `send` once the loop of generation `gen` is closed, with the stores its iterations have handed on (10 R218). -/
def waitsEnd (gen : BitVec 8) (carry : List Nat) : Wait → Wait
  | .send g none => .send g (if g = gen then some carry else none)
  | w => w

/-- An entry that a new iteration may take: one that holds no live iteration (10 R205). -/
def freeEntry (b : Block) (i : Nat) : Prop := ∀ e, b.stages.find? i = some e → e.complete = true

/-- The address of a stage word: the pair's, modulo 2^55 and aligned to 4 (10 R219). -/
def stageVa (x : Issuer) (sa : Nat) : Nat := pairVa x sa - pairVa x sa % 4

end Sys2Proof.Rows


/-- 10 R204 to R208, R211 to R218: `sloop` opens a closed loop with a legal window and range. `siter` answers 2^32 − 1 where the loop is closed or
exhausted; admits the next iteration into the lowest free entry where the window allows it and no split has waited longer; and waits otherwise.
`stadv` and `stjmp` raise the reel's own counter, never past 0xFFFF and never down, and ready the splits whose stage is passed by that; `waitl`
retires once its predecessor has passed the stage, inheriting what its advances handed on; `sdone` completes the iteration. `send` closes the loop
once every iteration is complete, for every split that waits for that; `sread` reads an iteration's counter. In a reel that holds a live iteration
`siter` and `send`, and in one that holds none the advances, `sdone` and `waitl`, take the trap of code 2 with no change. No other entry, no
scratchpad byte and no byte of memory changes. Choices of the model that it rests on: log entries 54 and 92. -/
def Obligations.StagedLoops : Prop :=
  ∀ (x : Issuer) (s : State), x.Stands s →
    (∀ f : SLoopOp, 1 ≤ f.w.toNat → f.w.toNat ≤ 32 →
      let first := (x.reel.sget f.sf.toNat).toNat
      let n := (x.reel.sget f.sc.toNat).toNat
      (x.block.loop.isOpen = false → first < 2 ^ 31 → first + n ≤ 2 ^ 31 →
        ∃ t b, exec (.sloop f) s = .next t ∧ Local x t (x.advanced x.nextPc) b
          ∧ b = { x.block with loop := ⟨true, first, n, first, f.w.toNat, x.block.loop.gen + 1, []⟩, stages := [] })
      ∧ (x.block.loop.isOpen = true ∨ 2 ^ 31 ≤ first ∨ 2 ^ 31 < first + n → x.Vectors →
        exec (.sloop f) s = .next (x.into (x.trapped x.reel x.cur.bundle.word x.active 2))))
    ∧ (∀ f : SD, x.reel.iter = none → x.reel.busyS f.sd.toNat = false →
      let lp := x.block.loop
      let may := (∀ p ∈ x.block.stages, p.2.complete = true ∨ lp.next < p.2.iter + lp.w)
        ∧ x.s.waitsBefore x.reel.block x.s.nextId = false
      (lp.isOpen = false ∨ lp.f + lp.n ≤ lp.next →
        exec (.siter f) s = .next (x.into { x.advanced x.nextPc with s := (x.reel.sset f.sd.toNat 0xFFFFFFFF).s }))
      ∧ (∀ i, x.split.wait = none → lp.isOpen = true → lp.next < lp.f + lp.n → may → i < 32 → freeEntry x.block i →
          (∀ j, j < i → ¬ freeEntry x.block j) →
        ∃ t b, exec (.siter f) s = .next t
          ∧ Local x t { x.advanced x.nextPc with iter := some i, s := (x.reel.sset f.sd.toNat (BitVec.ofNat 32 lp.next)).s } b
          ∧ b = { x.block with
              loop := { lp with next := lp.next + 1 }, stages := x.block.stages.put i ⟨lp.next, 0, slotOfKey x.cur.reel, false, []⟩ })
      ∧ (x.split.wait = none → lp.isOpen = true → lp.next < lp.f + lp.n → ¬ may →
        exec (.siter f) s = .next { waitsIn x (.siter x.s.nextId) with nextId := x.s.nextId + 1 }))
    ∧ (∀ (f : StOp) (i : Nat) (e : StageEntry), InIteration x i e → Released x 0 → InOrder x →
      let c := e.counter.toNat
      let advances := fun (j : Instr) (c' : Nat) => ∃ t r b, exec j s = .next t ∧ Stirred x t (waitsPast e.iter c' (handed x e)) r b
        ∧ r = { x.advanced x.nextPc with splits := stirredSplits x (waitsPast e.iter c' (handed x e)) }
        ∧ b = { x.block with stages := x.block.stages.put i { e with counter := BitVec.ofNat 16 c', carry := handed x e } }
      advances (.stadv f) (min 0xFFFF (c + stageOp x f)) ∧ advances (.stjmp f) (max c (min 0xFFFF (stageOp x f)))
      ∧ ∃ t r b, exec .sdone s = .next t ∧ Stirred x t (waitsPast e.iter 0xFFFF (handed x e)) r b
        ∧ r = { x.advanced x.nextPc with iter := none, splits := stirredSplits x (waitsPast e.iter 0xFFFF (handed x e)) }
        ∧ b = { x.block with
            stages := x.block.stages.put i { e with counter := 0xFFFF, carry := handed x e, complete := true }
            loop := { x.block.loop with carries := x.block.loop.carries.putD [] e.iter (handed x e) } })
    ∧ (∀ (f : StOp) (i : Nat) (e : StageEntry), InIteration x i e → x.split.wait = none →
      let stage := min 0xFFFF (stageOp x f)
      let c := x.block.predCount e.iter
      (stage < c ∨ c = 0xFFFF →
        ∃ t r, exec (.waitl f) s = .next t ∧ Local x t r x.block ∧ r = { x.advanced x.nextPc with inherited := r.inherited }
          ∧ ∀ j, j ∈ r.inherited ↔ j ∈ x.reel.inherited ∨ j ∈ x.block.predCarry e.iter ∨ j ∈ x.block.carry)
      ∧ (¬ (stage < c ∨ c = 0xFFFF) → exec (.waitl f) s = .next (waitsIn x (.waitl e.iter stage none))))
    ∧ (∀ (f : StOp) i stage carry, x.split.wait = some (.waitl i stage (some carry)) →
      ∃ t r, exec (.waitl f) s = .next t ∧ Local x t r x.block ∧ r = { x.advanced x.nextPc with inherited := r.inherited }
        ∧ ∀ j, j ∈ r.inherited ↔ j ∈ x.reel.inherited ∨ j ∈ carry ∨ j ∈ x.block.carry)
    ∧ (x.reel.iter = none → x.split.wait = none →
      let lp := x.block.loop
      let ended := lp.f + lp.n ≤ lp.next ∧ ∀ p ∈ x.block.stages, p.2.complete = true
      (lp.isOpen = false → exec .send s = .next (x.into (x.advanced x.nextPc)))
      ∧ (lp.isOpen = true → ended →
        ∃ t r b, exec .send s = .next t ∧ Stirred x t (waitsEnd lp.gen lp.carry) r b
          ∧ b = { x.block with loop := { lp with isOpen := false }, stages := [] }
          ∧ r = { x.advanced x.nextPc with splits := stirredSplits x (waitsEnd lp.gen lp.carry), inherited := r.inherited }
          ∧ ∀ j, j ∈ r.inherited ↔ j ∈ x.reel.inherited ∨ (∃ p ∈ lp.carries, j ∈ p.2) ∨ j ∈ x.block.carry)
      ∧ (lp.isOpen = true → ¬ ended → exec .send s = .next (waitsIn x (.send lp.gen none))))
    ∧ (∀ gen carry, x.split.wait = some (.send gen (some carry)) →
      ∃ t r, exec .send s = .next t ∧ Local x t r x.block ∧ r = { x.advanced x.nextPc with inherited := r.inherited }
        ∧ ∀ j, j ∈ r.inherited ↔ j ∈ x.reel.inherited ∨ j ∈ carry ∨ j ∈ x.block.carry)
    ∧ (x.Vectors →
      let refused := (Host.Outcome.next (x.into (x.trapped x.reel x.cur.bundle.word x.active 2)) : Host.Outcome State Fault Refusal)
      (x.reel.iter ≠ none → (∀ f : SD, exec (.siter f) s = refused) ∧ (x.split.wait = none → exec .send s = refused))
      ∧ (x.reel.iter = none → x.split.wait = none →
        exec .sdone s = refused ∧ ∀ f : StOp, exec (.stadv f) s = refused ∧ exec (.stjmp f) s = refused ∧ exec (.waitl f) s = refused))
    ∧ ∀ f : S2, x.reel.busyS f.sd.toNat = false →
      let j := (x.reel.sget f.sa.toNat).toNat
      ∃ t r v, exec (.sread f) s = .next t ∧ Local x t r x.block
        ∧ r = { x.advanced x.nextPc with s := (x.reel.sset f.sd.toNat (BitVec.ofNat 32 v)).s, inherited := r.inherited }
        ∧ v = (if x.block.loop.isOpen = false then 0
            else match x.block.liveEntry j with | some e => e.counter.toNat | none => if j < x.block.loop.next then 0xFFFF else 0)
        ∧ ∀ q, q ∈ r.inherited ↔ q ∈ x.reel.inherited
            ∨ (x.block.loop.isOpen = true ∧ j < x.block.loop.next ∧ q ∈ x.block.stageCarry j) ∨ q ∈ x.block.carry

/-- 04 R88, 08 R162, R166, 09 R179, 10 R206, R208, R219, R220: `spost`, its release done, sends its reel's own counter, 32 bits, to the stage word
its pair names, as a store does: st and the store sequence rise, and an image of exactly those four bytes is on its way to the slice. `waitm`
first arms its slot on the word, with a registration on its way to the slice; once the word has been read, it retires with the word in `sd`, its
slot unarmed and its acquire performed, if bits [15:0] have passed the stage `sd` named, and else waits for a write to the word, or, its slot
not armed, for a later reading of it; where a report of its slot has come since, it arms and reads again; one whose record was dropped ends with 0.
Choices of the model that it rests on: log entry 3. -/
def Obligations.StageWords : Prop :=
  ∀ (x : Issuer) (s : State), x.Stands s →
    (∀ (f : SPostOp) (i : Nat) (e : StageEntry), f.sa.toNat % 2 = 0 → InIteration x i e → Released x f.scope.toNat →
      let va := stageVa x f.sa.toNat
      Allows x false true va → x.reel.st < 63 → x.s.attrUsed x.coreId < 512 →
      ∃ t r k g, exec (.spost f) s = .next t
        ∧ t = { x.s with
            reels := x.s.reels.put x.cur.reel r, cur := none, blocks := t.blocks
            nextId := t.nextId, msgs := t.msgs, cores := t.cores, domains := t.domains, stores := t.stores }
        ∧ r = { x.advanced x.nextPc with st := x.reel.st + 1, seq := x.reel.seq + 1 }
        ∧ (∀ j, t.blocks.find? j = if j = x.reel.block
            then some { x.block with
              published := x.block.published || 1 ≤ f.scope.toNat
              carry := unionNew (x.block.carry.filter fun i => !x.s.storeGone i) (x.s.carryOf x.cur.reel x.reel) }
            else x.s.blocks.find? j)
        ∧ CoresKept x t (let old := (x.s.core x.coreId).carry
            if 1 ≤ f.scope.toNat then unionNew (old.filter fun i => !x.s.storeGone i) (x.s.carryOf x.cur.reel x.reel) else old)
        ∧ DomainsKept x t
        ∧ t.msgs.find? k = some (toSlice x (.write x.s.nextId g)) ∧ g.line = va / 128
        ∧ ∀ a, a / 128 = va / 128 → (g.mask.getLsbD (a % 128) = true ↔ va ≤ a ∧ a < va + 4)
          ∧ (va ≤ a → a < va + 4 → g.data.toNat / 256 ^ (a % 128) % 256 = e.counter.toNat / 256 ^ (a - va) % 256))
    ∧ ∀ f : WaitMOp, f.sa.toNat % 2 = 0 →
      let arms := fun (m : WaitMRec) => ∃ t r id, exec (.waitm f) s = .next t
          ∧ t = { x.s with
              reels := x.s.reels.put x.cur.reel r, cur := none, msgs := t.msgs, nextId := t.nextId, launches := t.launches }
          ∧ Leaves x m.slot t
          ∧ r = { x.reel with
              splits := x.reel.splits.put x.cur.split { x.split with bundle := some x.cur.bundle, wait := some (.waitm
                { m with phase := .arming id, told := false }) }
              watches := r.watches
              loads := x.reel.loads ++ [⟨id, x.cur.bundle.ipc, x.cur.bundle.word, x.active, .waitm x.cur.split,
                [⟨0, m.va, none, false⟩], none, [], 0, 0⟩] }
          ∧ (∀ j, r.watchSlot j = if j = m.slot then sentSlot x m.slot m.va id else x.reel.watchSlot j)
          ∧ ∃ k, t.msgs.find? k = some (toSlice x (.watch x.cur.reel m.slot id m.va true))
      (x.split.wait = none → x.reel.busyS f.sd.toNat = false → Allows x true false (stageVa x f.sa.toNat) →
        arms ⟨stageVa x f.sa.toNat, f.w.toNat, (x.reel.sget f.sd.toNat).toNat % 2 ^ 16, .arming 0, false⟩)
      ∧ (∀ m : WaitMRec, x.split.wait = some (.waitm m) → m.phase = .dropped →
        ∃ t r, exec (.waitm f) s = .next t
          ∧ t = { x.s with
              reels := x.s.reels.put x.cur.reel r, cur := none, msgs := t.msgs, nextId := t.nextId, launches := t.launches }
          ∧ Leaves x m.slot t
          ∧ r = { x.advanced x.nextPc with
              splits := stirredSplits x (unparked x m.slot), s := (x.reel.sset f.sd.toNat 0).s, watches := r.watches }
          ∧ (r.watchSlot m.slot).state = .unarmed)
      ∧ ∀ (m : WaitMRec) (v : Word), x.split.wait = some (.waitm m) → m.phase = .got v →
        let c := v.toNat % 2 ^ 16
        let w := x.reel.watchSlot m.slot
        ((m.stage < c ∨ c = 0xFFFF) →
          ∃ t r, exec (.waitm f) s = .next t
            ∧ t = { x.s with
                reels := x.s.reels.put x.cur.reel r, cur := none, msgs := t.msgs, nextId := t.nextId, cores := t.cores, domains := t.domains
                launches := t.launches }
            ∧ Leaves x m.slot t
            ∧ r = { x.advanced x.nextPc with
                splits := stirredSplits x (unparked x m.slot)
                s := (x.reel.sset f.sd.toNat v).s, watches := r.watches, inherited := r.inherited }
            ∧ (r.watchSlot m.slot).state = .unarmed ∧ (∀ j, j ≠ m.slot → r.watchSlot j = x.reel.watchSlot j)
            ∧ (∀ j, j ∈ r.inherited ↔ j ∈ x.reel.inherited ∨ handedTo x.s x.block f.scope.toNat j)
            ∧ Acquired x t True f.scope.toNat (x.s.core x.coreId).carry)
        ∧ (¬ (m.stage < c ∨ c = 0xFFFF) → m.told = true → arms m)
        ∧ (¬ (m.stage < c ∨ c = 0xFFFF) → m.told = false → exec (.waitm f) s = .next (waitsIn x (.waitm
            { m with phase := if w.state = .armed then .watching else .polling (x.s.clock x.coreId) })))

/-! ## Engine commands and tile access -/

namespace Sys2Proof.Rows

/-- The increment of a moving command: 1 more than the payload of HX, of which bits above 7 are 0 (11 R245). -/
def incOf (x : Issuer) : Nat := (match x.cur.bundle.hints.hx with | some p => p.toNat | none => 0) + 1

/-- An address aligned down to a descriptor's 32 bytes (11 R246). -/
def down32 (a : Nat) : Nat := a - a % 32

/-- The commands of the engines and the sequencer: the instruction, the command, and its semaphore, scope and increment, where the word is legal
(11 R245 to R249). -/
inductive CmdRow (x : Issuer) : Instr → EngOp → Nat → Nat → Nat → Prop
  | layset f : f.sa.toNat % 2 = 0 → NoWide x → CmdRow x (.layset f) (.layset f.lay.toNat false (down32 (pairVa x f.sa.toNat))) 0 0 0
  | laysetSpad f : NoWide x → down32 (x.reel.sget f.sa.toNat).toNat + 32 ≤ x.block.desc.spad →
      CmdRow x (.laysetSpad f) (.layset f.lay.toNat true (down32 (x.reel.sget f.sa.toNat).toNat)) 0 0 0
  | cpy f : incOf x ≤ 256 → CmdRow x (.cpy f) (.cpy f.ld.toNat f.ls.toNat) f.sm.toNat f.scope.toNat (incOf x)
  | gath f : incOf x ≤ 256 → f.ls ≠ 63 → CmdRow x (.gath f) (.gath f.ld.toNat f.ls.toNat) f.sm.toNat f.scope.toNat (incOf x)
  | scat f : incOf x ≤ 256 → f.ld ≠ 63 → CmdRow x (.scat f) (.scat f.ld.toNat f.ls.toNat) f.sm.toNat f.scope.toNat (incOf x)
  | mstart f : NoWide x → x.block.desc.stream ≠ 0 → CmdRow x (.mstart f) (.mstart f.sd.toNat f.sa.toNat) 0 0 0

/-- The command writes memory outside its block: `cpy` and `scat` whose destination layout, as the register stands, is global (18 R337). -/
def leavesBlock (x : Issuer) : EngOp → Bool
  | .cpy d _ => (Layout.ofImage (x.block.lays.findD 0 d)).space == 1
  | .scat d _ => (Layout.ofImage (x.block.lays.findD 0 d)).space == 1
  | _ => false

/-- Tile `n` is one the executing block may read and write from its reels: claimed by it, formatted, not bad, and not the upper half of a binary64
pair (11 R222, R254). -/
def OwnTile (x : Issuer) (n : Nat) (t : AcTile) : Prop :=
  (x.s.core x.coreId).ac.find? n = some t ∧ t.owner = x.reel.block ∧ t.fmt ≠ 0 ∧ t.bad = false ∧ (t.fmt = 2 → n % 2 = 0)

/-- A register, or an even pair for a binary64 tile, below `.vregs`. -/
def tileReg (x : Issuer) (t : AcTile) (vd : Nat) : Prop :=
  if t.fmt = 2 then vd % 2 = 0 ∧ vd + 1 < x.block.desc.vregs else vd < x.block.desc.vregs

/-- The status word of a tile, 0 where it is not claimed: the format in bits [1:0], mine in [2], bad in [3], the row and column scales in [4] and
[5], the flags from [6], saturation in [11], and the K positions over 32, saturating, in [31:16] (11 R224). -/
def statusOf (x : Issuer) (n : Nat) : Nat :=
  match (x.s.core x.coreId).tile n with
  | none => 0
  | some t => t.fmt + (if t.owner = x.reel.block then 4 else 0) + (if t.bad then 8 else 0) + (if t.rowScale.isSome then 16 else 0)
      + (if t.colScale.isSome then 32 else 0) + t.flags.toNat * 64 + (if t.sat then 2048 else 0) + min 0xFFFF (t.count.toNat / 32) * 2 ^ 16

end Sys2Proof.Rows


/-- 04 R88, 11 R245 to R251, 15 R299: a command of the engines or a start of the sequencer, in a legal word with eng below 15, is issued and
retires: eng has risen by one, and the command stands last among its core's, not yet accepted, with its operands, its semaphore, scope,
increment and policy, its reel's active lanes, and the stores its reel hands on; nothing of it is done. 18 R337: a `cpy` or `scat` whose destination
is global marks its block as having published. A scratchpad descriptor that passes the block's bytes takes the scratchpad-bounds trap. No register,
no scratchpad byte and no byte of memory changes. -/
def Obligations.EngineCommands : Prop :=
  ∀ (x : Issuer) (s : State), x.Stands s →
    (∀ (i : Instr) (op : EngOp) (sem scope inc : Nat), CmdRow x i op sem scope inc → x.reel.eng < 15 →
      ∃ t, exec i s = .next t
        ∧ t = { x.s with
            reels := x.s.reels.put x.cur.reel { x.advanced x.nextPc with eng := x.reel.eng + 1 }, cur := none
            nextId := x.s.nextId + 1, cores := t.cores, blocks := t.blocks }
        ∧ (∀ k, t.blocks.find? k = if k = x.reel.block
            then some { x.block with published := x.block.published || leavesBlock x op } else x.s.blocks.find? k)
        ∧ ∀ c, t.core c = if c = x.coreId then { x.s.core c with cmds := (x.s.core c).cmds ++
            [⟨x.s.nextId, x.cur.reel, x.reel.block, x.cur.bundle.ipc, x.cur.bundle.word, x.active, op, sem, scope, inc,
              x.cur.bundle.hints.policy, false, false, [], 0, [], [], x.s.carryOf x.cur.reel x.reel, none⟩] } else x.s.core c)
    ∧ ∀ f : LayOp, NoWide x → x.block.desc.spad < down32 (x.reel.sget f.sa.toNat).toNat + 32 → x.Vectors →
      exec (.laysetSpad f) s = .next (x.into (x.trapped x.reel x.cur.bundle.word x.active 3))

/-- 04 R88, 11 R222, R224, R254: `accget` and `accput` of a tile the block may access, on a legal register that nothing outstanding writes, with
mx below 15, are issued and retire: mx has risen by one and the move stands last among the reel's, with the row's elements, or the register's
lanes, of the active lanes as they stand. `accgetst` writes the tile's status word. No vector register, no tile and no byte of memory changes
until the move is made. Choices of the model that it rests on: log entry 84. -/
def Obligations.TileMoves : Prop :=
  ∀ (x : Issuer) (s : State), x.Stands s → NoWide x →
    (∀ (f : AccOp) (t : AcTile), OwnTile x f.ac.toNat t → tileReg x t f.vd.toNat → x.active ≠ 0 → x.reel.mx < 15 →
      let row := (x.reel.sget f.sa.toNat).toNat % 32
      let move := fun (get : Bool) (val : Nat → DWord) => x.into { x.advanced x.nextPc with
        mx := x.reel.mx + 1
        moves := x.reel.moves ++
          [⟨x.s.nextId, get, f.ac.toNat, row, x.active, f.vd.toNat, t.fmt == 2, (laneList x.active).map fun l => (l, val l)⟩] }
      (x.reel.busyV f.vd.toNat = false → (t.fmt = 2 → x.reel.busyV (f.vd.toNat + 1) = false) →
        exec (.accget f) s = .next { move true fun l => t.data.findD 0 (32 * row + l) with nextId := x.s.nextId + 1 })
      ∧ exec (.accput f) s = .next { move false fun l => x.reel.vread (t.fmt == 2) f.vd.toNat l with nextId := x.s.nextId + 1 })
    ∧ ∀ f : BArr, x.reel.busyS f.sd.toNat = false →
      exec (.accgetSt f) s = .next (x.into { x.advanced x.nextPc with
        s := (x.reel.sset f.sd.toNat (BitVec.ofNat 32 (statusOf x f.b.toNat))).s })

/-! ## Scratchpad of other blocks of the gang -/

namespace Sys2Proof.Rows

/-- The accesses to scratchpad of the gang: the instruction, its word, its class (0 load, 1 store, 2 atomic), its mode, and the bytes vt's registers
hold. Modes of a load: 0 plain, 1 wfull, 2 take; of a store: 0 plain, 1 put, 2 fill, 3 drain; of an atomic: 0 add, 1 exch, 2 cas, 3 or
(13 R266). -/
inductive RemoteRow (x : Issuer) : Instr → MOp → Nat → Nat → Nat → Prop
  | rlds f : MLegal x f 4 → RemoteRow x (.rlds f) f 0 0 4
  | rldsWfull f : MLegal x f 4 → RemoteRow x (.rldsWfull f) f 0 1 4
  | rldsTake f : MLegal x f 4 → RemoteRow x (.rldsTake f) f 0 2 4
  | rsts f : MLegal x f 4 → RemoteRow x (.rsts f) f 1 0 4
  | rstsPut f : MLegal x f 4 → RemoteRow x (.rstsPut f) f 1 1 4
  | rstsFill f : MLegal x f 4 → RemoteRow x (.rstsFill f) f 1 2 4
  | rstsDrain f : MLegal x f 4 → RemoteRow x (.rstsDrain f) f 1 3 4
  | ratomAdd f : MLegal x f 4 → RemoteRow x (.ratomAdd f) f 2 0 4
  | ratomExch f : MLegal x f 4 → RemoteRow x (.ratomExch f) f 2 1 4
  | ratomCas f : MLegal x f 8 → RemoteRow x (.ratomCas f) f 2 2 8
  | ratomOr f : MLegal x f 4 → RemoteRow x (.ratomOr f) f 2 3 4

/-- The member and the offset of a remote address word: bits [31:30] and bits [29:0] (13 R265). -/
def memberOf (x : Issuer) (f : MOp) (l : Nat) : Nat := addrOf x f 32 4 l / 2 ^ 30
/-- The offset. -/
def offsetOf (x : Issuer) (f : MOp) (l : Nat) : Nat := addrOf x f 32 4 l % 2 ^ 30

/-- Lanes of a REMOTE access with their operands, as an atomic's. -/
def remoteLanes (x : Issuer) (f : MOp) (n : Nat) : List AtomLane :=
  (laneList x.active).map fun l => ⟨l, offsetOf x f l, (x.reel.vget f.vt.toNat l).setWidth 64,
    if n = 8 then (x.reel.vget (f.vt.toNat + 1) l).setWidth 64 else 0⟩

/-- The operation of a remote atomic's mode. -/
def remoteKind (mode : Nat) : AtomKind := if mode = 0 then .add else if mode = 1 then .exch else if mode = 2 then .cas else .or

/-- The lanes of a REMOTE access with the word each stores. -/
def remoteStores (x : Issuer) (f : MOp) : List (Nat × Nat × Nat) :=
  (laneList x.active).map fun l => (l, offsetOf x f l, (x.reel.vget f.vt.toNat l).toNat)

/-- No other split of the reel has a REMOTE access under way. -/
def NoneUnderWay (x : Issuer) : Prop := ∀ p ∈ x.reel.splits, p.1 = x.cur.split ∨ ∀ a c d, p.2.wait ≠ some (.remote a c d)

/-- Block `b` of key `k` after the executing block has published where `pub` holds (18 R337). -/
def markedPub (x : Issuer) (pub : Prop) [Decidable pub] (k : Nat) (b : Block) : Block :=
  if k = x.reel.block ∧ pub then { b with published := true } else b

end Sys2Proof.Rows


/-- 04 R88, 13 R263 to R268, 09 R181: a REMOTE access whose lanes all name one member of the gang, resident, within its bytes, on words that qualify
for the mode and are not poisoned, is issued with its counter raised and its split waiting; the step at the member's banks then, where no
attribution entry's skid is full and, for put, fill and drain, no earlier scratchpad store or atomic of the reel is still to be accepted, performs
it and it retires, its counter back: a load's or atomic's old words are in vt, the bytes a store writes and the words an atomic changes are in the
member's scratchpad, and put, fill, take and drain set the full bits of the words touched. 18 R337: a store or atomic marks its block as
having published. No other register, no other block and no byte of memory changes. A lane that names no member, or passes the bytes, takes
the scratchpad-bounds trap. -/
def Obligations.RemoteAccesses : Prop :=
  ∀ (i : Instr) (x : Issuer) (f : MOp) (cls mode n : Nat) (s : State), RemoteRow x i f cls mode n → x.Stands s → x.active ≠ 0 →
    x.split.wait = none →
    let accs := (laneList x.active).map fun l => (l, offsetOf x f l)
    (∀ (m target : Nat) (b : Block), (∀ l, x.lane l → memberOf x f l = m ∧ offsetOf x f l + 4 ≤ x.block.desc.spad) →
      x.block.gang[m]? = some target → x.s.blocks.find? target = some b → x.reel.held = false → NoneUnderWay x →
      x.s.skidFull x.cur.reel x.reel = false → (cls = 1 → mode ≠ 0 → x.reel.scratchDone x.cur.split x.s.nextId = true) →
      (cls ≠ 1 → x.reel.ld < 63 ∧ x.reel.busyV f.vt.toNat = false) → (cls = 1 → x.reel.st < 63) →
      let pub := cls ≠ 0
      (cls ≠ 2 → Qualified b (cls == 0) mode accs 4) → (cls ≠ 1 → Unpoisoned b accs 4) →
      ∃ t u a q r b', exec i s = .next t ∧ exec (.remoteBankStep x.cur.reel x.cur.split m) t = .next u
        ∧ t = { x.into q with nextId := x.s.nextId + 1, blocks := t.blocks }
        ∧ (∀ k, t.blocks.find? k = (x.s.blocks.find? k).map (markedPub x pub k))
        ∧ q = { x.reel with
            splits := x.reel.splits.put x.cur.split { x.split with
              wait := some (.remote a (x.s.clock x.coreId) 0), bundle := some x.cur.bundle }
            ld := if cls = 1 then x.reel.ld else x.reel.ld + 1
            st := if cls = 1 then x.reel.st + 1 else x.reel.st }
        ∧ u = { x.s with reels := x.s.reels.put x.cur.reel r, blocks := u.blocks, cur := none, nextId := x.s.nextId + 1 }
        ∧ (∀ k, u.blocks.find? k = if k = target then some b' else (x.s.blocks.find? k).map (markedPub x pub k))
        ∧ r = { x.advanced x.nextPc with v := r.v }
        ∧ b' = { markedPub x pub target b with spad := b'.spad, full := b'.full, poison := b'.poison }
        ∧ (∀ k l, l < 32 → k ≠ f.vt.toNat ∨ ¬ x.lane l ∨ cls = 1 → r.vget k l = x.reel.vget k l)
        ∧ (cls = 0 → b'.spad = b.spad ∧ ∀ l, x.lane l → (r.vget f.vt.toNat l).toNat = Memory.readNat b.spad (offsetOf x f l) 4)
        ∧ (cls = 1 → ∀ k, (Memory.read b'.spad k).toNat = (lastByte (remoteStores x f) 4 k).getD (Memory.read b.spad k).toNat)
        ∧ (cls = 2 → b'.spad = (performed (remoteKind mode) 4 b.spad (remoteLanes x f n)).1
          ∧ ∀ p ∈ (performed (remoteKind mode) 4 b.spad (remoteLanes x f n)).2, (r.vget f.vt.toNat p.1).toNat = p.2.2)
        ∧ (cls ≠ 2 → FullAfter b b' (cls == 0) mode accs 4) ∧ (cls = 2 → b'.full = b.full)
        ∧ ∀ w, b'.poison.findD false w = true ↔ b.poison.findD false w = true ∧ ¬ (cls = 1 ∧ touched accs 4 w))
    ∧ ((∃ l, x.lane l ∧ (x.block.gang.length ≤ memberOf x f l ∨ x.block.desc.spad < offsetOf x f l + 4)) → x.Vectors →
      exec i s = .next (x.into (x.trapped x.reel x.cur.bundle.word
        (maskOf ((laneList x.active).filter fun l =>
          x.block.gang.length ≤ memberOf x f l ∨ x.block.desc.spad < offsetOf x f l + 4)) 3)))

/-! ## Fault service -/

namespace Sys2Proof.Rows

/-- The executing block serves the record `q` of identity `id`, whose address its even pair holds (14 R288, R290). -/
def Serves (x : Issuer) (sa : BitVec 6) (id : Nat) (q : FaultRec) : Prop :=
  sa.toNat % 2 = 0 ∧ x.block.service = some id ∧ pairVa x sa.toNat = x.block.fsrec ∧ x.s.faults.find? id = some q

/-- The record holds another reel than the executing one: `r`, of key `k` (14 R290). -/
def Holds (x : Issuer) (id : Nat) (q : FaultRec) (k : Nat) (r : Reel) : Prop :=
  q.reelKey = some k ∧ x.s.reels.find? k = some r ∧ id ∈ r.heldBy ∧ k ≠ x.cur.reel

/-- The register file an HX hint selects (14 R289). -/
def fileOf (x : Issuer) : Nat := match x.cur.bundle.hints.hx with | some p => p.toNat | none => 0

/-- A word of a split: its address low and high, its lanes, its state (14 R289). -/
def splitField (r : Reel) (n v : Nat) : Prop :=
  (r.splits.find? (n / 4) = none → v = 0) ∧ ∀ p, r.splits.find? (n / 4) = some p →
    (n % 4 = 0 → v = p.pc.toNat % 2 ^ 32) ∧ (n % 4 = 1 → v = p.pc.toNat / 2 ^ 32) ∧ (n % 4 = 2 → v = p.lanes.toNat)
      ∧ (n % 4 = 3 → v = if p.parked then 3 else if p.wait.isSome then 2 else if p.paused || r.stopped then 4 else 1)

/-- `v` is the word `hget` reads of a held reel: a uniform register, a lane mask, a special register, a split's word. Its k0 is its one split's
lanes, and has no stated value where it has more (14 R289; log entry 19). -/
def HeldWord (x : Issuer) (k : Nat) (r : Reel) (file n : Nat) (v : Word) : Prop :=
  (file = 1 → v = r.sget n) ∧ (file = 2 → n ≠ 0 → v = r.k.findD 0 n) ∧ (file = 2 → n = 0 → ∀ j p, r.splits = [(j, p)] → v = p.lanes)
    ∧ (file = 3 → ∀ b, x.s.blocks.find? r.block = some b → v = (x.s.heldIssuer k r b).special n) ∧ (file = 4 → splitField r n v.toNat)

/-- The executing reel after an instruction that writes `v` to S[sd] and retires, in a state whose other changes are said elsewhere. -/
def Done (x : Issuer) (t : State) (sd : Nat) (v : Word) : Prop :=
  ∃ r, t.reels.find? x.cur.reel = some r ∧ r.s = (x.reel.sset sd v).s ∧ r.v = x.reel.v ∧ r.k = x.reel.k
    ∧ r.splits.find? x.cur.split = some { x.split with pc := x.nextPc, wait := none, bundle := none } ∧ t.cur = none

/-- `resume` in its three modes. -/
inductive ResumeRow : Instr → ResumeMode → S2 → Prop
  | continue f : ResumeRow (.resumeContinue f) .continue f
  | drop f : ResumeRow (.resumeDrop f) .drop f
  | retry f : ResumeRow (.resumeRetry f) .retry f

end Sys2Proof.Rows


/-- 14 R288 to R290: in a fault-service block, `hget` reads a register of the reel its record holds into its own registers, and 0 where the record
holds none; `hset` writes one, and `hldone` the destination of the record's vector load in the lanes the record names. The held reel changes in
that register alone, and nothing else of the machine but the executing split. Choices of the model that it rests on: log entry 19. -/
def Obligations.HeldRegisters : Prop :=
  ∀ (x : Issuer) (s : State) (id : Nat) (q : FaultRec), x.Stands s →
    (∀ f : HOp, Serves x f.sa id q → selectorOk x.block.desc.vregs (fileOf x) f.imm.toNat = true →
      let n := f.imm.toNat
      let d := f.d.toNat
      (fileOf x = 0 → d < x.block.desc.vregs → x.active ≠ 0 → x.reel.busyV d = false →
        ∃ r' : Reel, exec (.hget f) s = .next (x.into { x.advanced x.nextPc with v := r'.v })
          ∧ (∀ m l, l < 32 → m ≠ d ∨ ¬ x.lane l → r'.vget m l = x.reel.vget m l)
          ∧ (∀ k r, Holds x id q k r → ∀ l, x.lane l → r'.vget d l = r.vget n l)
          ∧ (q.reelKey = none → ∀ l, x.lane l → r'.vget d l = 0))
      ∧ (fileOf x ≠ 0 → d < 64 → x.reel.busyS d = false →
        ∃ v, exec (.hget f) s = .next { x.into { x.advanced x.nextPc with s := (x.reel.sset d v).s } with nextId := x.s.nextId + 1 }
          ∧ (∀ k r, Holds x id q k r → HeldWord x k r (fileOf x) n v) ∧ (q.reelKey = none → v = 0))
      ∧ (q.reelKey = none → selectorWritable (fileOf x) n = true → (fileOf x = 0 → d < x.block.desc.vregs) → (fileOf x ≠ 0 → d < 64) →
        exec (.hset f) s = .next (x.into (x.advanced x.nextPc)))
      ∧ (∀ k r, Holds x id q k r → selectorWritable (fileOf x) n = true → (fileOf x = 0 → d < x.block.desc.vregs) →
          (fileOf x ≠ 0 → d < 64) →
        ∃ (t : State) (r' : Reel), exec (.hset f) s = .next t
          ∧ t = { x.s with reels := (x.s.reels.put k r').put x.cur.reel (x.advanced x.nextPc), cur := none }
          ∧ r' = { r with v := r'.v, s := r'.s, k := r'.k, tcr := r'.tcr, fflags := r'.fflags, xvec := r'.xvec, xvechi := r'.xvechi }
          ∧ (∀ m l, l < 32 → r'.vget m l = if fileOf x = 0 ∧ m = n ∧ x.active.getLsbD l = true then x.reel.vget d l else r.vget m l)
          ∧ (∀ m, r'.sget m = if fileOf x = 1 ∧ m = n ∧ m ≠ 0 then x.reel.sget d else r.sget m)
          ∧ (∀ m, m ≠ 0 → r'.k.findD 0 m = if fileOf x = 2 ∧ m = n then x.reel.sget d else r.k.findD 0 m)
          ∧ r'.xvec = (if fileOf x = 3 ∧ n = 23 then x.reel.sget d &&& ~~~3 else r.xvec)
          ∧ r'.xvechi = (if fileOf x = 3 ∧ n = 24 then (x.reel.sget d).setWidth 23 else r.xvechi)
          ∧ r'.tcr = (if fileOf x = 3 ∧ n = 21 then x.reel.sget d &&& tcrMask else r.tcr)
          ∧ ∀ l, l < 32 → r'.flagsOf l = if fileOf x = 3 ∧ n = 22 then (x.reel.sget d).setWidth 5 else r.flagsOf l))
    ∧ ∀ (f : HlOp) (k : Nat) (r : Reel) (o : OutLoad) (reg n : Nat) (sx : Bool), Serves x f.sa id q → Holds x id q k r → NoWide x →
      r.loads.find? (fun o => some o.id == q.loadId) = some o → o.dst = .vec reg n sx → f.vs.toNat + (n + 3) / 4 ≤ x.block.desc.vregs →
      ∃ (t : State) (r' : Reel), exec (.hldone f) s = .next t
        ∧ t = { x.s with reels := (x.s.reels.put k r').put x.cur.reel (x.advanced x.nextPc), cur := none } ∧ r' = { r with v := r'.v }
        ∧ ∀ m l, l < 32 → r'.vget m l = if q.lanes.getLsbD l = true ∧ reg ≤ m ∧ m < reg + (n + 3) / 4
          then x.reel.vget (f.vs.toNat + (m - reg)) l else r.vget m l

/-- 14 R290, R291: `resume` answers 3 where its address is no record of its block, 1 where the record is resolved, and 2, changing nothing, where
the record's kind does not take the mode. On a precise fault of an instruction that holds a resident reel it answers 0, resolves the record and ends
its hold: continue lets the faulting split go on after its instruction, retry at it. Drop of a store's record settles the line it names, and answers
0 where the record holds a reel, resident or saved. 14 R290, R292: `kill` of the reel a delivered record holds answers 0: the reel runs no more, its
loads are gone and its counter ld is 0, nothing holds it, and the record is resolved. No byte of memory changes but in the image of a saved block.
Choices of the model that it rests on: log entries 33 and 97. -/
def Obligations.ResumesAndKills : Prop :=
  (
    ∀ (i : Instr) (m : ResumeMode) (f : S2) (x : Issuer) (s : State) (id : Nat), ResumeRow i m f → x.Stands s → NoWide x →
      f.sa.toNat % 2 = 0 → x.block.service = some id → x.reel.busyS f.sd.toNat = false →
      let answers := fun (v : Word) => x.into { x.advanced x.nextPc with s := (x.reel.sset f.sd.toNat v).s }
      (pairVa x f.sa.toNat ≠ x.block.fsrec → exec i s = .next (answers 3))
      ∧ ∀ q, Serves x f.sa id q →
        let kept := fun (t : State) => t.blocks = s.blocks
          ∧ ((∀ k, q.reelKey = some k → x.s.reels.find? k ≠ none ∨ x.s.savedOf k = none) → t.mem = s.mem)
        (q.state = .resolved → ∃ t, exec i s = .next t ∧ Done x t f.sd.toNat 1 ∧ kept t)
        ∧ (q.state ≠ .resolved → q.accepts m = false → exec i s = .next (answers 2))
        ∧ (∀ k r p, q.state ≠ .resolved → q.accepts m = true → q.cls = .precise → q.noInstruction = false → Holds x id q k r →
            r.splits.find? q.split = some p → p.wait = none →
          ∃ (t : State) (r' : Reel), exec i s = .next t ∧ Done x t f.sd.toNat 0
            ∧ t = { x.s with
                reels := t.reels, cur := none, faults := x.s.faults.put id { q with state := .resolved, slotTaken := false } }
            ∧ t.reels.find? k = some r' ∧ r' = { r with heldBy := r'.heldBy, splits := r'.splits }
            ∧ r'.heldBy = r.heldBy.filter (· ≠ id)
            ∧ r'.splits.find? q.split = some (if m = .continue then { p with pc := q.ipc + 4, wait := none, bundle := none } else p)
            ∧ ∀ j, j ≠ k → j ≠ x.cur.reel → t.reels.find? j = x.s.reels.find? j)
        ∧ (∀ sid, q.state ≠ .resolved → m = .drop → q.cls = .store → q.kind ≠ 0x16 → q.loadId = none → q.cmd = none → q.sid = some sid →
          ∃ t f', exec i s = .next t ∧ t.faults.find? id = some f' ∧ f'.state = .resolved ∧ kept t
            ∧ (∃ v, Done x t f.sd.toNat v ∧ (v = 0 ↔ ∃ k r, q.reelKey = some k ∧ x.s.reel? k = some r ∧ id ∈ r.heldBy))
            ∧ ∀ o st, t.stores.find? sid = some o → o.lines.find? q.piece = some st → st = .settled)
  ) ∧ (
    ∀ (f : S2) (x : Issuer) (s : State) (id : Nat) (q : FaultRec) (k : Nat) (r : Reel), x.Stands s → NoWide x → Serves x f.sa id q →
      x.reel.busyS f.sd.toNat = false → Holds x id q k r → q.state = .delivered → r.exited = false → r.killed = false →
      ∃ (t : State) (r' : Reel), exec (.kill f) s = .next t ∧ Done x t f.sd.toNat 0
        ∧ ((∀ j g c e, x.s.faults.find? j = some g → g.reelKey = some k → g.cmd = some c → x.s.findCmd? c = some e →
            x.s.blocks.find? e.block ≠ none ∨ x.s.savedOf e.block = none) → t.mem = s.mem)
        ∧ t.reels.find? k = some r' ∧ r'.killed = true ∧ r'.splits = [] ∧ r'.loads = [] ∧ r'.moves = [] ∧ r'.ld = 0 ∧ r'.heldBy = []
        ∧ r'.stopped = false ∧ r'.v = r.v ∧ r'.s = r.s ∧ r'.iter = r.iter
        ∧ ∃ q', t.faults.find? id = some q' ∧ q'.state = .resolved
  )


/-! ## Launches from a reel -/

namespace Sys2Proof.Rows

/-- The state of launch `n` as a block of a context and partition reads it: 0 unknown, 1 entered, 2 admitted, 3 complete; a launch refused or ended by
force is complete once none of its blocks is left (19 R351). -/
def launchState (x : Issuer) (n v : Nat) : Prop :=
  (x.s.launches.find? n = none → v = 0) ∧ ∀ l, x.s.launches.find? n = some l →
    (l.ctx ≠ x.block.ctx ∨ l.part ≠ x.block.part → v = 0)
    ∧ (l.ctx = x.block.ctx → l.part = x.block.part →
      (l.verdict = none → (l.state = .queued → v = 1)
        ∧ (l.state = .admitted → v = if l.ended.length < l.pkt.nx * l.pkt.ny * l.pkt.nz then 2 else 3)
        ∧ ∀ m, l.state = .written m → v = 3)
      ∧ (l.verdict ≠ none → v = if (∃ b ∈ x.s.blocks, b.2.launch = n) ∨ (∃ w ∈ x.s.saved, w.block.launch = n) then 2 else 3))

end Sys2Proof.Rows


/-- 04 R88, 08 R162, 19 R338, R350, R351: `launch` of a packet the block may read, its release done, reads the 128 bytes at its pair, aligned, as
one load: ld has risen and an outstanding load of eight pieces stands for `sd`, each taken from the L1 or asked for at the slice. `lstat` writes
the state of the launch its register names. No other register and no byte of memory changes. -/
def Obligations.DeviceLaunches : Prop :=
  ∀ (x : Issuer) (s : State), x.Stands s →
    (∀ f : LaunchOp, f.sa.toNat % 2 = 0 → Allows x true false (pairVa x f.sa.toNat - pairVa x f.sa.toNat % 128) →
      x.reel.busyS f.sd.toNat = false → x.reel.ld < 63 → Released x f.cls.toNat →
      let accs := (List.range 8).map fun k => (k, pairVa x f.sa.toNat - pairVa x f.sa.toNat % 128 + 16 * k)
      ∃ t r o, exec (.launch f) s = .next t
        ∧ t = { x.s with
            reels := x.s.reels.put x.cur.reel r, blocks := x.s.blocks.put x.reel.block { x.block with published := true }
            cur := none, nextId := t.nextId, msgs := t.msgs, cores := t.cores }
        ∧ r = { x.advanced x.nextPc with ld := x.reel.ld + 1, loads := r.loads } ∧ CoresKept x t (x.s.core x.coreId).carry
        ∧ o ∈ r.loads ∧ o.id = x.s.nextId ∧ o.dst = .launch f.sd.toNat ∧ o.pieces.map (fun p => (p.lane, p.va)) = accs
        ∧ (∀ q ∈ x.reel.loads, q.id ≠ x.s.nextId → q ∈ r.loads)
        ∧ ∀ p ∈ o.pieces, p.lost = false ∧
          ((∃ k install, t.msgs.find? k = some (toSlice x (.read
              ⟨x.coreId, x.cur.reel, o.id, install, x.cur.bundle.hints.memClass, x.cur.bundle.hints.policy⟩ (p.va / 32)))) ∨
            (x.cur.bundle.hints.policy ≠ 2 ∧ ∃ l, (x.s.core x.coreId).l1.find? (p.va / 32) = some l ∧
              p.data = some ((l.data >>> (8 * (p.va % 32))).setWidth 128))))
    ∧ ∀ f : S2, x.reel.busyS f.sd.toNat = false → x.reel.ld < 63 →
      ∃ v, exec (.lstat f) s = .next (x.into { x.advanced x.nextPc with s := (x.reel.sset f.sd.toNat (BitVec.ofNat 32 v)).s })
        ∧ launchState x (x.reel.sget f.sa.toNat).toNat v

/-! ## The matrix sequencer -/

namespace Sys2Proof.Rows

/-- `y` is what the stream word latched in `s` acts in: its block is resident (11 R226). -/
structure StreamStands (y : Streamer) (s : State) : Prop where
  state : y.s = s
  latched : s.scur = some y.cur
  block : s.blocks.find? y.cur.block = some y.block

/-- The word is the latched one, and no HX word is bound to it. -/
def Plain (y : Streamer) (s : State) : Prop := StreamStands y s ∧ y.cur.hx = none

/-- The word after the latched one. -/
def after (y : Streamer) : VA := y.cur.pc + 4

/-- A stream branch's target: a signed count of words from the word's own address, modulo 2^55 (11 R244). -/
def streamTo (y : Streamer) (off n : Nat) : VA := BitVec.ofInt 55 (y.cur.pc.toNat + 4 * sxNat off n)

/-- The block of the stream as `b`, its sequencer going on at `pc` with nothing to wait for; nothing else has changed but what `t` is
built on. -/
def wentOn (y : Streamer) (b : Block) (pc : VA) : Map Block :=
  y.s.blocks.put y.cur.block { b with seq := { b.seq with pc := pc, wait := none, hx := none } }

/-- The control words: the word, where the stream goes on, and the sequencer register it writes with its value (11 R244). -/
inductive ControlRow (y : Streamer) : Instr → VA → Option (Nat × Word) → Prop
  | mset f : y.cur.hx = none → ControlRow y (.mset f) (after y) (some (f.qd.toNat, BitVec.ofNat 32 f.imm.toNat))
  | msetWide f p : y.cur.hx = some p → p.toNat < 2 ^ 16 →
      ControlRow y (.mset f) (after y) (some (f.qd.toNat, BitVec.ofNat 32 (p.toNat * 2 ^ 16 + f.imm.toNat)))
  | madd f : y.cur.hx = none →
      ControlRow y (.madd f) (after y) (some (f.qd.toNat, y.block.getQ f.qa.toNat + BitVec.ofInt 32 (sxNat f.imm.toNat 14)))
  | maddWide f p : y.cur.hx = some p → p.toNat < 2 ^ 18 →
      ControlRow y (.madd f) (after y) (some (f.qd.toNat, y.block.getQ f.qa.toNat + BitVec.ofNat 32 (p.toNat * 2 ^ 14 + f.imm.toNat)))
  | mloop f : y.cur.hx = none → y.block.getQ f.q.toNat ≠ 1 →
      ControlRow y (.mloop f) (streamTo y f.off.toNat 18) (some (f.q.toNat, y.block.getQ f.q.toNat - 1))
  | mloopEnd f : y.cur.hx = none → y.block.getQ f.q.toNat = 1 → ControlRow y (.mloop f) (after y) (some (f.q.toNat, 0))
  | mbra f : y.cur.hx = none → ControlRow y (.mbra f) (streamTo y f.off.toNat 16) none
  | mbraZ f : y.cur.hx = none →
      ControlRow y (.mbraZ f) (if y.block.getQ f.q.toNat = 0 then streamTo y f.off.toNat 16 else after y) none
  | mbraNz f : y.cur.hx = none →
      ControlRow y (.mbraNz f) (if y.block.getQ f.q.toNat ≠ 0 then streamTo y f.off.toNat 16 else after y) none
  | nop : y.cur.hx = none → ControlRow y .nop (after y) none

/-- The block with one sequencer register written, if one is. -/
def QWritten (y : Streamer) (b : Block) (w : Option (Nat × Word)) : Prop :=
  b = { y.block with seq := { y.block.seq with q := b.seq.q } }
    ∧ ∀ j, b.getQ j = match w with | some (n, v) => if j = n then v else y.block.getQ j | none => y.block.getQ j

/-- The slots or tiles a claim names: `cnt` + 1 from `first` (11 R235). -/
def named (f : ClaimOp) (n : Nat) : Prop := f.first.toNat ≤ n ∧ n < f.first.toNat + f.cnt.toNat + 1

/-- Who has claimed slot or tile `n` of a core (11 R222). -/
def claimant (c : Core) (f : ClaimOp) (n : Nat) : Option Nat :=
  if f.kind = 1 then (c.ac.find? n).map (·.owner) else (c.om.find? n).map (·.owner)

/-- The layout of a word with its q-offset: the base raised by the register modulo 2^32 (11 R228). -/
def layoutAt (y : Streamer) (lay : Nat) (qo : BitVec 1) (q : BitVec 4) : Layout :=
  let d := Layout.ofImage (y.block.lays.findD 0 lay)
  if qo = 1 then { d with base := (d.base + (y.block.getQ q.toNat).toNat) % 2 ^ 32 } else d

/-- A two-dimensional layout in scratchpad of the sizes and the element code a word requires, on words that are not poisoned (08 R157, 11 R231,
R236). -/
def LayoutFits (y : Streamer) (d : Layout) (esize n0 n1 : Nat) : Prop :=
  d.ok y.block.desc.spad = true ∧ d.space = 0 ∧ d.esize = esize ∧ d.size0 + 1 = n0 ∧ d.size1 + 1 = n1 ∧ d.size2 = 0 ∧ d.size3 = 0

/-- No element of a layout lies on a poisoned word. -/
def Readable (y : Streamer) (d : Layout) : Prop :=
  ∀ a ∈ d.addrs, ∀ w, inWord a d.elemBytes w → y.block.poison.findD false w = false

/-- The loads of operand slots: the word, its slot, what the slot is loaded as, its layout, the element code and the sizes it requires (11 R236). -/
inductive SlotRow (y : Streamer) : Instr → Nat → SlotState → Layout → Nat → Nat → Nat → Prop
  | a f : f.type.toNat < 6 → f.role = 0 → SlotRow y (.mload f) f.slot.toNat (.loaded f.type.toNat false (kOf f.type.toNat) 0)
      (layoutAt y f.lay.toNat f.qo f.q) (esizeOf f.type.toNat) (kOf f.type.toNat) 32
  | b f : f.type.toNat < 6 → f.role = 1 → SlotRow y (.mload f) f.slot.toNat (.loaded f.type.toNat true (kOf f.type.toNat) 0)
      (layoutAt y f.lay.toNat f.qo f.q) (esizeOf f.type.toNat) 32 (kOf f.type.toNat)
  | groups f g : f.type = 6 → f.role = 0 → g ≤ 16 → SlotRow y (.mload f) f.slot.toNat (.loaded 6 false g 0)
      (layoutAt y f.lay.toNat f.qo f.q) 2 g 32

end Sys2Proof.Rows


/-- 11 R228, R231, R232, R244, 02 R32: a control word of a stream writes its sequencer register, if it has one, and goes on at its target; `mend`
leaves the sequencer idle, or begins the pending start with its address and q0. A word that is no stream word halts the stream: the sequencer is
halted with nothing pending, and a record of kind 0x0D names the word and its address. No scratchpad byte, no reel and, where the block has no
error record, no byte of memory changes. 09 R196, 11 R229, R243: a stream's `mbar` words. An arrival as the barrier's party writes the token, or
waits for the flip with bit 32 of the waiters unless it made the expected count itself, in which case the barrier flips; a wait writes its status
by the distance of the phase from the token, and waits at distance 0. A wait that the flip has ended goes on. Choices of the model that it rests
on: log entries 54 and 56. -/
def Obligations.StreamControl : Prop :=
  (
    ∀ (y : Streamer) (s : State), StreamStands y s →
      (∀ (i : Instr) (pc : VA) (w : Option (Nat × Word)), ControlRow y i pc w →
        ∃ b, exec i s = .next { s with blocks := wentOn y b pc, scur := none } ∧ QWritten y b w)
      ∧ (y.cur.hx = none → y.block.seq.pending = none →
        exec .mend s = .next { s with
          blocks := s.blocks.put y.cur.block { y.block with seq := { y.block.seq with mode := .idle, wait := none, hx := none } }, scur := none })
      ∧ (∀ a v, y.cur.hx = none → y.block.seq.pending = some (a, v) →
        ∃ q, exec .mend s = .next { s with
            blocks := s.blocks.put y.cur.block { y.block with seq :=
              { y.block.seq with mode := .running, pc := a, pending := none, wait := none, hx := none, q := q } }, scur := none }
          ∧ ∀ j, Map.findD 0 q j = if j = 0 then v else y.block.getQ j)
      ∧ ∀ w : Word, y.block.err = 0 → s.faultEntry y.block.launch y.cur.block ≠ 0 →
        ∃ t f, exec (.illegalStreamWord w) s = .next t
          ∧ t = { s with
              blocks := s.blocks.put y.cur.block { y.block with seq :=
                { y.block.seq with mode := .halted, pending := none, wait := none, hx := none } }
              faults := s.faults.put s.nextId f, nextId := s.nextId + 1, scur := none }
          ∧ f.kind = 0x0D ∧ f.pc = y.cur.pc ∧ f.inst = w ∧ f.va = 0 ∧ f.launch = y.block.launch ∧ f.block = y.block.linear
          ∧ f.state = .waiting ∧ f.held = false
  ) ∧ (
    ∀ (y : Streamer) (s : State), Plain y s →
      let waits := fun (b : Block) (i : Nat) (t : BitVec 16) (q : Option Nat) => { s with
        blocks := s.blocks.put y.cur.block { b with seq := { b.seq with wait := some (.barrier i t false q) } }, scur := none }
      let early := fun (i : Nat) => (y.block.barrier i).arrivals + 1 ≠ (y.block.barrier i).expected
      let flipped := fun (t : State) (b : Block) (i : Nat) => t = { s with
          blocks := wentOn y b (after y), scur := none
          reels := s.reels.mapVals fun _ r => if r.block = y.cur.block then r.mapWaits (Wait.flip i) else r }
        ∧ (b.barrier i).phase = (y.block.barrier i).phase + 1 ∧ (b.barrier i).arrivals = 0 ∧ (b.barrier i).waiters = 0
        ∧ (∀ j, j ≠ i → b.barrier j = y.block.barrier j) ∧ b.spad = y.block.spad ∧ b.sems = y.block.sems
      (∀ f : MBarQ,
        let i := f.b.toNat
        let v := y.block.barrier i
        (early i → ∃ b, exec (.mbarArrive f) s = .next { s with blocks := wentOn y b (after y), scur := none }
          ∧ (b.barrier i).arrivals = v.arrivals + 1 ∧ (b.barrier i).phase = v.phase
          ∧ ∀ j, b.getQ j = if j = f.q.toNat then v.phase.setWidth 32 else y.block.getQ j)
        ∧ (¬ early i → ∃ t b, exec (.mbarArrive f) s = .next t ∧ flipped t b i
          ∧ ∀ j, b.getQ j = if j = f.q.toNat then v.phase.setWidth 32 else y.block.getQ j))
      ∧ (∀ f : MBarS,
        let i := f.b.toNat
        let v := y.block.barrier i
        (y.block.seq.wait = none → early i → ∃ b, exec (.mbarSync f) s = .next (waits b i v.phase none)
          ∧ (b.barrier i).arrivals = v.arrivals + 1 ∧ (b.barrier i).waiters = v.waiters ||| (1 : BitVec 33) <<< 32
          ∧ (b.barrier i).phase = v.phase ∧ ∀ j, j ≠ i → b.barrier j = y.block.barrier j)
        ∧ (y.block.seq.wait = none → ¬ early i → ∃ t b, exec (.mbarSync f) s = .next t ∧ flipped t b i ∧ ∀ j, b.getQ j = y.block.getQ j)
        ∧ (∀ i' t' q', y.block.seq.wait = some (.barrier i' t' true q') →
          ∃ b, exec (.mbarSync f) s = .next { s with blocks := wentOn y b (after y), scur := none }
            ∧ b = { y.block with seq := { y.block.seq with inherited := unionNew y.block.seq.inherited v.flipped } }))
      ∧ ∀ f : MBarQ,
        let i := f.b.toNat
        let v := y.block.barrier i
        let token : BitVec 16 := (y.block.getQ f.q.toNat).setWidth 16
        let d := (v.phase - token).toNat
        let ends := fun (st : Word) => ∃ b, exec (.mbarWait f) s = .next { s with blocks := wentOn y b (after y), scur := none }
          ∧ b = { y.block with seq := { y.block.seq with q := b.seq.q, inherited := unionNew y.block.seq.inherited v.flipped } }
          ∧ ∀ j, b.getQ j = if j = f.q.toNat then st else y.block.getQ j
        (y.block.seq.wait = none → d ≠ 0 → ends (if d = 1 then 0 else if d < 2 ^ 15 then 1 else 2))
        ∧ (∀ i' t' q', y.block.seq.wait = some (.barrier i' t' true q') → ends 0)
        ∧ (y.block.seq.wait = none → d = 0 → ∃ b, exec (.mbarWait f) s = .next (waits b i token (some f.q.toNat))
          ∧ b = { y.block with barriers := b.barriers }
          ∧ ∀ j, b.barrier j = if j = i then { v with waiters := v.waiters ||| (1 : BitVec 33) <<< 32 } else y.block.barrier j)
  )


/-- 11 R222, R223, R235, R236: `mclaim` of slots or tiles that are all free makes them its block's, slots empty and tiles without a format; `mrel`
of its own frees them. `mload` and `mloadp` of a claimed slot through a fitting layout make its elements, in index order, the slot's contents with
their type, role and K, each plane integer made of its planes; the layout's read action alone changes full bits. No tile, no scratchpad byte, no
reel and no byte of memory changes. Choices of the model that it rests on: log entry 56. -/
def Obligations.StreamClaimsAndLoads : Prop :=
  ∀ (y : Streamer) (s : State), Plain y s →
    let core := y.block.core
    let c := s.core core
    let runs := fun (i : Instr) (b : Block) (c' : Core) => ∃ t, exec i s = .next t
      ∧ t = { s with blocks := wentOn y b (after y), scur := none, cores := t.cores }
      ∧ t.core core = c' ∧ ∀ k, k ≠ core → t.core k = s.core k
    (∀ f : ClaimOp, f.first.toNat + f.cnt.toNat < (if f.kind = 1 then 16 else 32) → (∀ n, named f n → claimant c f n = none) →
      ∃ c', runs (.mclaim f) y.block c'
        ∧ c' = (if f.kind = 1 then { c with ac := c'.ac } else { c with om := c'.om })
        ∧ (f.kind = 1 → ∀ n, c'.ac.find? n = if f.first.toNat ≤ n ∧ n < f.first.toNat + f.cnt.toNat + 1
            then some ⟨y.cur.block, 0, false, false, 0, 0, none, none, []⟩ else c.ac.find? n)
        ∧ (f.kind = 0 → ∀ n, c'.om.find? n = if f.first.toNat ≤ n ∧ n < f.first.toNat + f.cnt.toNat + 1
            then some ⟨y.cur.block, .empty, []⟩ else c.om.find? n))
    ∧ (∀ f : ClaimOp, f.first.toNat + f.cnt.toNat < (if f.kind = 1 then 16 else 32) →
      (∀ n, named f n → claimant c f n = some y.cur.block) →
      ∃ c', runs (.mrel f) y.block c' ∧ (∀ n, named f n → claimant c' f n = none)
        ∧ (∀ n, ¬ named f n → claimant c' f n = claimant c f n) ∧ (f.kind = 0 → c' = { c with om := c'.om })
        ∧ (f.kind = 1 → c' = { c with ac := c'.ac }))
    ∧ (∀ (i : Instr) (slot : Nat) (st : SlotState) (d : Layout) (esize n0 n1 : Nat) (o : OmSlot), SlotRow y i slot st d esize n0 n1 →
      c.om.find? slot = some o → o.owner = y.cur.block → LayoutFits y d esize n0 n1 → Readable y d →
      ∃ c' b o', runs i b c' ∧ c' = { c with om := c.om.put slot o' } ∧ o'.owner = y.cur.block ∧ o'.state = st
        ∧ b = { y.block with full := b.full } ∧ (d.fe ≠ 2 → b = y.block)
        ∧ (d.fe = 2 → ∀ w, b.full.findD false w = true ↔ y.block.full.findD false w = true ∧ ∀ a ∈ d.addrs, ¬ inWord a d.elemBytes w)
        ∧ ∀ j a, d.addrs[j]? = some a → (o'.data.findD 0 j).toNat = Memory.readNat y.block.spad a d.elemBytes)
    ∧ ∀ (f : MLoadpOp) (o : OmSlot),
      let d := layoutAt y f.lay.toNat f.qo f.q
      c.om.find? f.slot.toNat = some o → o.owner = y.cur.block → LayoutFits y d 5 4 32 → Readable y d →
      ∃ c' b o', runs (.mloadp f) b c' ∧ c' = { c with om := c.om.put f.slot.toNat o' } ∧ o'.owner = y.cur.block
        ∧ o'.state = .loaded 7 true 128 d.planes ∧ b = { y.block with full := b.full } ∧ (d.fe ≠ 2 → b = y.block)
        ∧ ∀ g a e, d.addrs[g]? = some a → e < 32 → (o'.data.findD 0 ((32 * (g % 4) + e) * 32 + g / 4)).toInt =
          planeValue (Memory.readNat y.block.spad a d.elemBytes) d.planes e

/-! ## Products and accumulator tiles -/

namespace Sys2Proof.Rows

/-- An operand slot of the stream's block in a loaded state (11 R223). -/
def SlotIs (y : Streamer) (c : Core) (n : Nat) (st : SlotState) (data : Map Word) : Prop :=
  ∃ o, c.om.find? n = some o ∧ o.owner = y.cur.block ∧ o.state = st ∧ o.data = data

/-- A formatted tile of the stream's block; a binary64 pair is even, and the block's wholly (11 R222, R231). -/
def TileIs (y : Streamer) (c : Core) (n : Nat) (t : AcTile) : Prop :=
  c.ac.find? n = some t ∧ t.owner = y.cur.block ∧ (t.fmt = 1 ∨ t.fmt = 2 ∨ t.fmt = 3)
    ∧ (t.fmt = 2 → n % 2 = 0 ∧ ∃ p, c.ac.find? (n + 1) = some p ∧ p.owner = y.cur.block ∧ p.fmt = 2)

/-- Set bits of a mask word below a position. -/
def below (m : Word) (p : Nat) : Nat := ((List.range p).filter fun i => m.getLsbD i).length

/-- A float of an operand's stored value by its type code. -/
abbrev stF := inputVal
/-- An integer of an operand's stored value by its type code. -/
abbrev stI := inputInt

/-- The products: the word, its tile's number and contents, A's type, A's stored value by row and position where it has one, B's type and stored
value by position and column, the positions, and the rounding (11 R234, R237 to R239). -/
inductive ProductRow (y : Streamer) (c : Core) :
    Instr → Nat → AcTile → Nat → (Nat → Nat → Option Word) → (Nat → Nat → Nat × Word) → Nat → RMode → Prop
  | mma f t ta tb k kb pa pb a b : f.rm.toNat < 4 → ta < 6 → tb < 6 → SlotIs y c f.a.toNat (.loaded ta false k pa) a →
      SlotIs y c f.b.toNat (.loaded tb true kb pb) b → TileIs y c f.c.toNat t → typeRow ta = typeRow tb → t.fmt ∈ rowFmts (typeRow ta) →
      ProductRow y c (.mma f) f.c.toNat t ta (fun i p => some (a.findD 0 (k * i + p))) (fun p j => (tb, b.findD 0 (32 * p + j))) k
        (streamRm f.rm.toNat)
  | mmas f t ta k g pa pm a md (bs : Nat → Nat × Map Word) (n : Nat) : n = (if f.dens = 1 then 8 else 16) →
      f.b.toNat + 32 / n ≤ 32 → ta < 6 → SlotIs y c f.a.toNat (.loaded ta false k pa) a → SlotIs y c f.md.toNat (.loaded 6 false g pm) md →
      (∀ q, q < 32 / n → (bs q).1 < 6 ∧ typeRow (bs q).1 = typeRow ta
        ∧ ∃ kb pb, SlotIs y c (f.b.toNat + q) (.loaded (bs q).1 true kb pb) (bs q).2) →
      (∀ q, 32 / n ≤ q → bs q = (0, [])) →
      TileIs y c f.c.toNat t → typeRow ta ≠ 3 → t.fmt ∈ rowFmts (typeRow ta) → g = k / n →
      (∀ i e, i < 32 → e < g → popCount (md.findD 0 (g * i + e)) = n) →
      ProductRow y c (.mmas f) f.c.toNat t ta
        (fun i p => let m := md.findD 0 (g * i + p / 32)
          if m.getLsbD (p % 32) then some (a.findD 0 (k * i + (n * (p / 32) + below m (p % 32)))) else none)
        (fun p j => ((bs (p / k)).1, (bs (p / k)).2.findD 0 (32 * (p % k) + j))) (32 * g) (streamRm f.rm.toNat)
  | mmap f t k kb pa pb a b : SlotIs y c f.a.toNat (.loaded 4 false k pa) a → SlotIs y c f.b.toNat (.loaded 7 true kb pb) b →
      TileIs y c f.c.toNat t → t.fmt = 3 → t.rowScale = none → t.colScale = none →
      ProductRow y c (.mmap f) f.c.toNat t 4 (fun i p => some (a.findD 0 (k * i + p))) (fun p j => (7, b.findD 0 (32 * p + j))) k .rne

/-- A floating-point element after the chunks of a product: each chunk of 32 positions is summed with the element in one window, in ascending
order (03 R69 to R72). -/
def sumF (f : Fmt) (rm : RMode) (term : Nat → Option FVal) (v chunks : Nat) : Nat × Flags :=
  (List.range chunks).foldl (fun a c =>
    let r := windowSum f rm (FVal.read f false a.1 :: ((List.range 32).map (32 * c + ·)).filterMap term)
    (r.1, a.2 ||| r.2)) (v, 0)

/-- A 32-bit integer clamped, and whether it clamped (03 R73). -/
def clamp (v : Int) : Int × Bool := (max (-2 ^ 31) (min v (2 ^ 31 - 1)), v < -2 ^ 31 || 2 ^ 31 - 1 < v)

/-- An integer element after the chunks of a product: each chunk's sum is clamped once (03 R73). -/
def sumI (term : Nat → Int) (v : Int) (chunks : Nat) : Int × Bool :=
  (List.range chunks).foldl (fun a c =>
    let r := clamp (((List.range 32).map (32 * c + ·)).foldl (fun s k => s + term k) a.1)
    (r.1, a.2 || r.2)) (v, false)

/-- The values an `mstore` writes, in element order, with the exceptions of the conversion (11 R242). -/
def stores (t : AcTile) (type : Nat) (rm : RMode) : List FRes :=
  (List.range 1024).map fun e => convert (storeType type) (tileType t.fmt) rm false (t.data.findD 0 e).toNat

end Sys2Proof.Rows


/-- 03 R69 to R73, 11 R225, R234, R237 to R240: a product of loaded slots, of types the tile's format takes, into a tile of its block whose scales
cover it accumulates every element over its chunks of 32 positions: floats in one window a chunk, each product scaled by its row's and its
column's scale, integers clamped once a chunk. The tile's count rises by the positions and its flags gather the exceptions; no other tile, no
slot, no scratchpad byte, no reel and no byte of memory changes. -/
def Obligations.StreamProducts : Prop :=
  ∀ (y : Streamer) (s : State) (i : Instr) (n : Nat) (t : AcTile) (ta : Nat) (a : Nat → Nat → Option Word) (b : Nat → Nat → Nat × Word)
    (k : Nat) (rm : RMode) (sr sc : Nat → Nat → FVal),
    Plain y s → ProductRow y (s.core y.block.core) i n t ta a b k rm →
    (t.fmt ≠ 3 → y.block.scales t.count.toNat k t.rowScale = .ok sr ∧ y.block.scales t.count.toNat k t.colScale = .ok sc) →
    let termF := fun (i j p : Nat) => (a i p).map fun v =>
      addendMul (addendMul (sr p i) (sc p j)) (addendMul (stF ta v.toNat) (stF (b p j).1 (b p j).2.toNat))
    let termI := fun (i j p : Nat) => match a i p with | some v => stI ta v * stI (b p j).1 (b p j).2 | none => 0
    let elemF := fun (e : Nat) => sumF (if t.fmt = 2 then .f64 else .f32) rm (termF (e / 32) (e % 32)) (t.data.findD 0 e).toNat (k / 32)
    let elemI := fun (e : Nat) => sumI (termI (e / 32) (e % 32)) (loWord (t.data.findD 0 e)).toInt (k / 32)
    ∃ u t' b', exec i s = .next u
      ∧ u = { s with blocks := wentOn y b' (after y), scur := none, cores := u.cores }
      ∧ (∀ j, u.core j = if j = y.block.core then { s.core j with ac := (s.core j).ac.put n t' } else s.core j)
      ∧ b' = { y.block with full := b'.full } ∧ (t.rowScale = none → t.colScale = none → b' = y.block)
      ∧ t' = { t with data := t'.data, sat := t'.sat, flags := t'.flags, count := t.count + BitVec.ofNat 32 k }
      ∧ (t.fmt ≠ 3 → t'.sat = t.sat ∧ t'.flags = (List.range 1024).foldl (fun fl e => fl ||| (elemF e).2) t.flags
        ∧ ∀ e, e < 1024 → t'.data.findD 0 e = BitVec.ofNat 64 (elemF e).1)
      ∧ (t.fmt = 3 → t'.flags = t.flags ∧ (t'.sat = true ↔ t.sat = true ∨ ∃ e, e < 1024 ∧ (elemI e).2 = true)
        ∧ ∀ e, e < 1024 → (loWord (t'.data.findD 0 e)).toInt = (elemI e).1)

/-- 03 R72, R73, 08 R155, 11 R224, R236, R240 to R242: `mzero` formats a tile of its block, or an even pair for binary64, with every element 0 and
nothing sticky but the bad mark. `mscale` declares a side's scales through a layout of 32 columns that cover Ktot, and begins the count anew.
`mtadd` adds a layout's elements to a tile, rounding to nearest even, or clamping an integer. `mstore` converts a tile's elements and writes
them through a layout, and the tile's flags gather the exceptions; 11 R253: words written whole are no longer poisoned. Choices of the model that it
rests on: log entries 91 and 100. -/
def Obligations.StreamTiles : Prop :=
  ∀ (y : Streamer) (s : State), Plain y s →
    let c := s.core y.block.core
    let runs := fun (i : Instr) (b : Block) (c' : Core) => ∃ u, exec i s = .next u
      ∧ u = { s with blocks := wentOn y b (after y), scur := none, cores := u.cores }
      ∧ (∀ j, u.core j = if j = y.block.core then c' else s.core j) ∧ c' = { c with ac := c'.ac }
    (∀ (f : MZeroOp) (t : AcTile), f.fmt ≠ 3 → c.ac.find? f.tile.toNat = some t → t.owner = y.cur.block →
      let n := f.tile.toNat
      let fmt := f.fmt.toNat + 1
      (fmt = 2 → n % 2 = 0 ∧ ∃ p, c.ac.find? (n + 1) = some p ∧ p.owner = y.cur.block) →
      ∃ c' t', runs (.mzero f) y.block c' ∧ c'.ac.find? n = some t' ∧ (fmt = 2 → c'.ac.find? (n + 1) = some t')
        ∧ t' = { t with fmt := fmt, bad := t'.bad, sat := false, flags := 0, count := 0, rowScale := none, colScale := none, data := [] }
        ∧ (t'.bad = true ↔ t.bad = true ∨ (fmt = 2 ∧ ∃ p, c.ac.find? (n + 1) = some p ∧ p.bad = true))
        ∧ ∀ m, m ≠ n → (fmt = 2 → m ≠ n + 1) → m ≠ n ^^^ 1 → c'.ac.find? m = c.ac.find? m)
    ∧ (∀ (f : MScaleOp) (t : AcTile), TileIs y c f.tile.toNat t → t.fmt ≠ 3 →
      let len := 32 * 2 ^ f.e.toNat
      let ktot := (y.block.getQ f.q.toNat).toNat
      LayoutFits y (layoutAt y f.lay.toNat 0 0) 2 ((ktot + len - 1) / len) 32 → ktot ≠ 0 → ktot % 32 = 0 →
      ∃ c', runs (.mscale f) y.block c' ∧ c' = { c with ac := c.ac.put f.tile.toNat { t with
        count := 0
        rowScale := if f.side = 1 then t.rowScale else some ⟨f.lay.toNat, len, ktot⟩
        colScale := if f.side = 1 then some ⟨f.lay.toNat, len, ktot⟩ else t.colScale } })
    ∧ (∀ (f : MTaddOp) (t : AcTile), TileIs y c f.tile.toNat t → f.src ≠ 3 → (f.src = 2 ↔ t.fmt = 3) →
      let d := layoutAt y f.lay.toNat f.qo f.q
      let word := fun (e : Nat) => Memory.readNat y.block.spad (d.addrs.getD e 0) d.elemBytes
      let f1 := if t.fmt = 2 then Fmt.f64 else Fmt.f32
      let sum := fun (e : Nat) => windowSum f1 .rne [FVal.read f1 false (t.data.findD 0 e).toNat,
        FVal.read (if f.src = 1 then .f64 else .f32) false (word e)]
      let isum := fun (e : Nat) => clamp ((loWord (t.data.findD 0 e)).toInt + sxNat (word e) 32)
      LayoutFits y d (if f.src = 1 then 3 else 2) 32 32 → Readable y d →
      ∃ c' b t', runs (.mtadd f) b c' ∧ c' = { c with ac := c.ac.put f.tile.toNat t' } ∧ b = { y.block with full := b.full }
        ∧ (d.fe ≠ 2 → b = y.block) ∧ t' = { t with data := t'.data, sat := t'.sat, flags := t'.flags }
        ∧ (t.fmt ≠ 3 → t'.sat = t.sat ∧ t'.flags = (List.range 1024).foldl (fun fl e => fl ||| (sum e).2) t.flags
          ∧ ∀ e, e < 1024 → t'.data.findD 0 e = BitVec.ofNat 64 (sum e).1)
        ∧ (t.fmt = 3 → t'.flags = t.flags ∧ (t'.sat = true ↔ t.sat = true ∨ ∃ e, e < 1024 ∧ (isum e).2 = true)
          ∧ ∀ e, e < 1024 → (loWord (t'.data.findD 0 e)).toInt = (isum e).1))
    ∧ ∀ (f : MStoreOp) (t : AcTile), TileIs y c f.tile.toNat t → f.type ≠ 7 → f.rm.toNat < 5 → storeOk t.fmt f.type.toNat f.rm.toNat = true →
      let d := layoutAt y f.lay.toNat f.qo f.q
      let vs := stores t f.type.toNat (streamRm f.rm.toNat)
      let writes := (d.addrs.zip vs).map fun p => (0, p.1, p.2.1)
      LayoutFits y d (storeEsize f.type.toNat) 32 32 →
      ∃ c' b, runs (.mstore f) b c' ∧ c' = { c with ac := c.ac.put f.tile.toNat { t with flags := vs.foldl (fun a r => a ||| r.2) t.flags } }
        ∧ b = { y.block with spad := b.spad, full := b.full, poison := b.poison } ∧ (d.fe ≠ 1 → b.full = y.block.full)
        ∧ (∀ a, (Memory.read b.spad a).toNat = (lastByte writes d.elemBytes a).getD (Memory.read y.block.spad a).toNat)
        ∧ ∀ w, b.poison.findD false w = true ↔ y.block.poison.findD false w = true ∧ ¬ covered (d.addrs.map fun a => (0, a)) d.elemBytes w

/-! ## Events at a slice -/

namespace Sys2Proof.Rows

/-- A message may be received at its domain: nothing before it holds it back, and the domain is up and has power (14 R270, R272, 18 R331). -/
def Arrives (s : State) (k : Nat) (m : Msg) : Prop :=
  s.msgs.find? k = some m ∧ (∀ p ∈ s.msgs, p.1 < k → p.2.blocks m = false)
    ∧ (s.domain m.dst).fenced = false ∧ (s.domain m.dst).regFailed = false

/-- The state with a message received and another sent. -/
def relayed (s : State) (k : Nat) (m : Msg) : State := { s with msgs := (s.msgs.del k).put s.nextId m, nextId := s.nextId + 1 }

/-- Of the domains, only the L2 sectors of one have changed, and those as `f` says. -/
def SectorsBecome (s t : State) (d : Nat) (f : Nat → L2Sector → L2Sector) : Prop :=
  ∀ e, t.domain e = { s.domain e with l2 := (t.domain e).l2 }
    ∧ ∀ sec, t.sector e sec = if e = d then f sec (s.sector e sec) else s.sector e sec

/-- An outstanding load with the bytes of a sector in the pieces that lie there and have none. -/
def takes (o : OutLoad) (sec : Nat) (data : BitVec 256) : OutLoad :=
  { o with pieces := o.pieces.map fun p =>
      if p.va / 32 = sec ∧ p.data = none ∧ p.lost = false then { p with data := some ((data >>> (8 * (p.va % 32))).setWidth 128) } else p }

/-- The L1 of core `c` has taken a sector for a reading, and has become that of `c'`: a line it holds already keeps the slot and class of the access
that brought it; a new line takes those of the reading, and where the L1 is full one line has gone for it (08 R149, R159, R170). -/
def Installed (c c' : Core) (r : Reading) (sec : Nat) (data : BitVec 256) : Prop :=
  c' = { c with l1 := c'.l1, victims := c'.victims }
    ∧ (∀ x, c.l1Of (sec / 4) = some x → c'.l1.find? sec = some ⟨data, x.slot, x.scored⟩)
    ∧ (c.l1Of (sec / 4) = none → c'.l1.find? sec = some ⟨data, slotOfKey r.reel, r.cls == 1⟩)
    ∧ (c.l1Of (sec / 4) ≠ none ∨ c.l1Lines.length < c.l1Capacity → c'.victims = c.victims ∧ ∀ j, j ≠ sec → c'.l1.find? j = c.l1.find? j)
    ∧ (c.l1Of (sec / 4) = none → c.l1Capacity ≤ c.l1Lines.length →
      ∃ line ∈ c.l1Lines, ∀ j, j ≠ sec → c'.l1.find? j = if j / 4 = line then none else c.l1.find? j)

/-- A read has been served with a sector: its message is gone, its load has the bytes, and where it installs and the core has an L1, its L1 has the
sector (08 R149, R159, 14 R270). -/
def Served (s t : State) (k : Nat) (r : Reading) (sec : Nat) (data : BitVec 256) (whole : Bool) : Prop :=
  let installs := r.install = true ∧ whole = true ∧ (s.core r.core).l1Capacity ≠ 0
  t = { s with msgs := s.msgs.del k, reels := t.reels, cores := t.cores, domains := t.domains, nextId := t.nextId }
    ∧ (∀ j, t.reels.find? j = (s.reels.find? j).map fun q =>
        if j = r.reel then { q with loads := q.loads.map fun o => if o.id = r.load then takes o sec data else o } else q)
    ∧ (∀ c, c ≠ r.core ∨ ¬ installs → t.core c = s.core c)
    ∧ (installs → Installed (s.core r.core) (t.core r.core) r sec data)

/-- The bytes that a read of a sector finds at byte `b`, if any are laid over it: those written last, unless reads pass them by (14 R270). -/
def lastOver (x : L2Sector) (b : Nat) : Option Layer := (x.laid.filter fun l => !l.hidden && l.mask.getLsbD b).getLast?

/-- A core's read may take the bytes of a layer: its own core wrote them, or they are Forwarded and their home has accepted them (14 R270, R271, 15
R307). -/
def Sees (s : State) (core line : Nat) (l : Layer) : Prop :=
  l.core = core ∨ (l.forwarded = true ∧ ∀ p ∈ s.msgs, ∀ i e, p.2.body = .homeWrite l.sid i e → i.line ≠ line)

/-- A request stands at its slice until the walk of its granule ends (14 R271). -/
def Stands (s t : State) (k d page : Nat) (f : Nat → L2Sector → L2Sector) : Prop :=
  t = { s with msgs := s.msgs.adjust k fun m => { m with arrived := true }, domains := t.domains }
    ∧ ∀ e, t.domain e = { s.domain e with
          l2 := (t.domain e).l2
          walks := if e = d ∧ page ∉ (s.domain e).walks then (s.domain e).walks ++ [page] else (s.domain e).walks }
      ∧ ∀ sec, t.sector e sec = if e = d then f sec (s.sector e sec) else s.sector e sec

/-- An image's bytes laid over the sectors of its line that it touches, provisional or forwarded (14 R271). -/
def laidOver (forwarded : Bool) (core sid : Nat) (i : LineImg) (sec : Nat) (x : L2Sector) : L2Sector :=
  if sec / 4 = i.line ∧ i.smask (sec % 4) ≠ 0 then
    { x with laid := x.laid ++ [⟨sid, core, forwarded, false, i.sector (sec % 4), i.smask (sec % 4)⟩] }
  else x

/-- The sectors of a line whose copies go as bytes of it are forwarded: those written, and of a host line both (14 R271, 21 R367). -/
def copyGone (host : Bool) (i : LineImg) (sec : Nat) (x : L2Sector) : L2Sector :=
  if sec / 4 = i.line ∧ (i.smask (sec % 4) ≠ 0 ∨ (host = true ∧ i.smask (mateOf (sec % 4)) ≠ 0)) then x.dropGuest else x

/-- A line's sectors without the bytes of a store (14 R272). -/
def without (sid line sec : Nat) (x : L2Sector) : L2Sector :=
  if sec / 4 = line then { x with laid := x.laid.filter fun l => l.sid != sid } else x

/-- A sector after a fill has come for it: a copy from where it may be installed and nothing stands there, of the page the fill was asked for (14
R276). -/
def filled (req : Nat) (ok : Bool) (data : BitVec 256) (y : L2Sector) : L2Sector :=
  match y.fills.find? fun f => f.req == req with
  | none => y
  | some f => { y with
      fills := y.fills.filter fun f => f.req != req
      held := if ok = true ∧ f.useOnce = false ∧ y.laid = [] ∧ y.held = none then some ⟨.guest, f.pa, f.mode, f.ac, data⟩ else y.held }

/-- A store has come so far: its attribution entry is free once every line is confirmed or faulted; st falls once when every line is settled; it is
gone when no invalidation is left to wait for either (04 R88, 08 R166, 09 R191). -/
def Progressed (s t : State) (sid : Nat) (o : OutStore) : Prop :=
  (∀ j, t.stores.find? j = if j = sid then
        if o.settled = true ∧ o.acks = 0 then none
        else some { o with attr := o.attr && !o.attrDone, counted := o.counted && !o.settled }
      else s.stores.find? j)
    ∧ ∀ j, t.reels.find? j = (s.reels.find? j).map fun q =>
        if o.settled = true ∧ o.counted = true ∧ o.reel = some j then { q with st := q.st - 1 } else q

/-- The invalidations a write of a grain causes: one for each recorded guest (14 R275). -/
def guestsOf (s : State) (h : Nat) (e : Xlat) (va : Nat) : List Nat :=
  match (s.domain h).dir.find? (e.at va) with
  | some n => (List.range 64).filter fun d => n.sharers.getLsbD d
  | none => []

/-- Doorbells that written bytes ring are noted, where the array is mapped; nothing else of the controller's registers changes (21 R373). -/
def Rung (s t : State) : Prop := t.mgmt = { s.mgmt with rung := t.mgmt.rung } ∧ (s.mgmt.dbbase = 0 → t.mgmt = s.mgmt)

/-- A write has been published at its home: each recorded guest is sent an invalidation, each watcher a report, and the entry keeps no guest and
goes where it has no watcher (14 R275). -/
def Published (s t : State) (h : Nat) (whom : AckTo) (e : Xlat) (va : Nat) : Prop :=
  ∀ n, (s.domain h).dir.find? (e.at va) = some n →
    (∀ d ∈ guestsOf s h e va, ∃ k, t.msgs.find? k = some ⟨h, d, 0, false, .inval n.va n.grain whom⟩)
    ∧ (∀ w ∈ n.watchers, ∃ k, t.msgs.find? k = some ⟨h, w.dest, coreOfKey w.reel, false, .report w.reel w.slot w.reg false⟩)
    ∧ (t.domain h).dir.find? (e.at va) = if n.watchers = [] then none else some { n with sharers := 0 }

/-- The bytes of a sector at its home after bytes of an image. -/
def writtenSector (s : State) (h : Nat) (e : Xlat) (i : LineImg) (sec : Nat) : BitVec 256 :=
  let old := s.homeSector h sec (e.at (32 * sec))
  if s.inBiasTable (e.at (32 * sec)) then old else mergeBytes 32 old (i.sector (sec % 4)) (i.smask (sec % 4)).toNat

/-- An image has been written at its home `h`: every sector it touches is Dirty with its bytes, no other sector holds anything else than before,
and each grain is published (14 R275). -/
def WrittenAt (s t : State) (h : Nat) (whom : AckTo) (e : Xlat) (i : LineImg) : Prop :=
  (∀ d, d ≠ h → t.domain d = s.domain d)
    ∧ t.domain h = { s.domain h with l2 := (t.domain h).l2, dir := (t.domain h).dir }
    ∧ (∀ sec, (t.sector h sec).held =
        if sec / 4 = i.line ∧ i.smask (sec % 4) ≠ 0 then some ⟨.dirty, e.at (32 * sec), e.mode, e.ac, writtenSector s h e i sec⟩
        else (s.sector h sec).held)
    ∧ (∀ va ∈ i.grains e.grain, Published s t h whom e va)
    ∧ ∀ a, (∀ va ∈ i.grains e.grain, a ≠ e.at va) → (t.domain h).dir.find? a = (s.domain h).dir.find? a

end Sys2Proof.Rows


/-- 08 R159, 09 R185, R199, 14 R270, R271, R275: what a request of a core does when it reaches its slice, at pages that do not count accesses. A
load is served by a sector held whole, by bytes laid over the sector, its core's own or Forwarded ones that their home has accepted, or, at home, by
DRAM, whose sector the slice then holds Clean; a page of another home sends a fill request, of a host line for both its sectors; a granule without
translation leaves the request standing and a walk started. An atomic or a watch goes on to its home; an atomic drops the slice's Guest copies of its
line, and later reads go behind the bytes forwarded to it. A store's line without translation becomes Provisional; at home it is applied, published
and confirmed; of another home its bytes become Forwarded and the write is sent on. Choices of the model that it rests on: log entries 30, 83 and
87. -/
def Obligations.SliceRequests : Prop :=
  ∀ (s : State) (k : Nat) (m : Msg), Arrives s k m →
    let d := m.dst
    let ready := fun (va : Nat) => s.absentAt d va = none ∧ ∀ q, s.requester m.body = some q → s.awayStore q (va / 128) = false
    (∀ (r : Reading) (sec : Nat) (o : OutLoad), m.body = .read r sec → s.load? r.reel r.load = some o → s.reels.find? r.reel ≠ none →
        ready (128 * (sec / 4)) →
      let x := s.sector d sec
      let e? := (s.domain d).xlats.find? (granule (32 * sec))
      (∀ h, x.laid = [] → x.held = some h → h.ac = false →
          h.kind = .guest ∨ (s.reaches d h.pa = true ∧ s.hostClear d (hdmLines h.pa 32) false = true) →
        ∃ t, exec (.sliceRead k) s = .next t ∧ Served s t k r sec h.data true ∧ t.domains = s.domains)
      ∧ (x.laid ≠ [] → (∀ e, e? = some e → e.ac = false) →
        (∀ b, b < 32 → (o.need sec).testBit b = true → ∃ l, lastOver x b = some l ∧ Sees s r.core (sec / 4) l) →
        ∃ t data, exec (.sliceRead k) s = .next t ∧ Served s t k r sec data false ∧ t.domains = s.domains
          ∧ ∀ b l, b < 32 → lastOver x b = some l → data.extractLsb' (8 * b) 8 = l.data.extractLsb' (8 * b) 8)
      ∧ (x.laid = [] → x.held = none →
        (∀ e, e? = some e → e.ac = false →
          (s.place e.pa = .home d → s.reaches d (e.at (32 * sec)) = true → s.hostClear d (hdmLines (e.at (32 * sec)) 32) false = true →
            let data := BitVec.ofNat 256 (Memory.readNat s.mem (e.at (32 * sec)) 32)
            ∃ t, exec (.sliceRead k) s = .next t ∧ Served s t k r sec data true
              ∧ SectorsBecome s t d fun j y =>
                if j = sec then { y with held := some ⟨.clean, e.at (32 * sec), e.mode, e.ac, data⟩ } else y)
          ∧ (s.place e.pa ≠ .home d → x.fills = [] →
            let fill := fun (j : Nat) (rs : List Reading) => (⟨s.nextId, e.at (32 * j), e.mode, e.ac, false, rs⟩ : Fill)
            ∃ t, exec (.sliceRead k) s = .next t
              ∧ t = { relayed s k ⟨d, (s.place e.pa).dest, r.core, false, .fillReq d sec e⟩ with domains := t.domains }
              ∧ SectorsBecome s t d fun j y =>
                if j = sec then { y with fills := [fill j [r]] }
                else if s.place e.pa = .host ∧ j = mateOf sec then { y with fills := y.fills ++ [fill j []] } else y))
        ∧ ((s.domain d).xlats.find? (granule (32 * sec)) = none →
          ∃ t, exec (.sliceRead k) s = .next t ∧ Stands s t k d (granule (32 * sec)) fun _ y => y)))
    ∧ (∀ sid rd op wide lanes, m.body = .atomic sid rd op wide lanes → ready (128 * lineOf lanes) →
      (rd = none → s.replayWaits sid (lineOf lanes) = false) →
      let i := if rd = none then Instr.sliceWriteAccept k else .sliceRead k
      (∀ e, (s.domain d).xlats.find? (granule (128 * lineOf lanes)) = some e → e.ac = false →
        let on := if op = .xadd then Body.contrib sid (lineOf lanes) lanes 0 e else .homeAtomic sid rd op wide lanes e
        ∃ t, exec i s = .next t ∧ t = { relayed s k ⟨d, (s.place e.pa).dest, m.core, false, on⟩ with domains := t.domains }
          ∧ SectorsBecome s t d fun j y => if j / 4 = lineOf lanes then { y.dropGuest with
              laid := y.laid.map fun l => { l with hidden := l.hidden || l.forwarded } } else y)
      ∧ ((s.domain d).xlats.find? (granule (128 * lineOf lanes)) = none →
        ∃ t, exec i s = .next t ∧ Stands s t k d (granule (128 * lineOf lanes)) fun _ y => y))
    ∧ (∀ reel slot reg va add e, m.body = .watch reel slot reg va add → ready (128 * (va / 128)) →
      (s.domain d).xlats.find? (granule va) = some e → e.ac = false →
      exec (.sliceRead k) s = .next (relayed s k ⟨d, (s.place e.pa).dest, m.core, false, .homeWatch reel slot reg va add e⟩))
    ∧ ∀ sid i, m.body = .write sid i → ready (128 * i.line) → s.replayWaits sid i.line = false →
      ((s.domain d).xlats.find? (granule (128 * i.line)) = none → m.arrived = false →
        ∃ t, exec (.sliceWriteAccept k) s = .next t ∧ Stands s t k d (granule (128 * i.line)) (laidOver false m.core sid i))
      ∧ ∀ e, (s.domain d).xlats.find? (granule (128 * i.line)) = some e → e.ac = false →
        (s.place e.pa = .home d → e.grain = 32 ∨ e.grain = 128 ∨ e.grain = 512 → s.reaches d (e.at (128 * i.line)) = true →
            s.hostClear d (hdmHalves (e.at (128 * i.line)) i.mask) true = true →
          ∃ t, exec (.sliceWriteAccept k) s = .next t
            ∧ t = { s with msgs := t.msgs, nextId := t.nextId, stores := t.stores, domains := t.domains, mgmt := t.mgmt } ∧ Rung s t
            ∧ WrittenAt s t d (.store sid) e i
            ∧ (∀ j, t.stores.find? j = (s.stores.find? j).map fun o =>
                if j = sid then { o with acks := o.acks + ((i.grains e.grain).map fun va => (guestsOf s d e va).length).sum } else o)
            ∧ ∃ j, t.msgs.find? j = some ⟨d, d, m.core, false, .confirm sid i.line⟩)
        ∧ (s.place e.pa ≠ .home d →
          ∃ t, exec (.sliceWriteAccept k) s = .next t
            ∧ t = { relayed s k ⟨d, (s.place e.pa).dest, m.core, false, .homeWrite sid i e⟩ with domains := t.domains }
            ∧ SectorsBecome s t d fun j y =>
              laidOver true m.core sid i j (copyGone (s.place e.pa == .host) i j (without sid i.line j y)))

/-- 04 R88, 08 R159, R166, 14 R272, R275, R276: what a message of a home does at a domain. A confirmation takes the store's bytes off the line and
confirms it for its store, of a reel that has not moved since. A fill serves the loads that wait on it, and its sector becomes Guest where it may be
installed and nothing else stands there; the two sectors of a host line come together. An invalidation drops the Guest copies of its grain, marks
their fills use-once, and is acknowledged at once. An acknowledgement lowers what its store's release, or its host line, waits for. Choices of the
model that it rests on: log entries 30, 49 and 80. -/
def Obligations.SliceAnswers : Prop :=
  ∀ (s : State) (k : Nat) (m : Msg), Arrives s k m →
    (∀ sid line o, m.body = .confirm sid line → s.stores.find? sid = some o → o.origin = o.core →
      ∃ t, exec (.storeConfirmed k) s = .next t
        ∧ t = { s with msgs := s.msgs.del k, stores := t.stores, reels := t.reels, domains := t.domains }
        ∧ Progressed s t sid { o with lines := o.lines.adjust line fun _ => .confirmed }
        ∧ SectorsBecome s t m.dst (without sid line))
    ∧ (∀ dom sec req data mate install f, m.body = .fill dom sec req data mate install →
        ((s.sector dom sec).fills.find? fun f => f.req == req) = some f →
        (∀ r ∈ f.waiting, s.reels.find? r.reel ≠ none ∨ s.savedOf r.reel = none) →
        (∀ g ∈ (s.sector dom (mateOf sec)).fills, mate ≠ none → g.req = req → g.waiting = []) →
      let inst := fun (c : Nat) (r : Reading) => r ∈ f.waiting ∧ r.core = c ∧ r.install = true ∧ f.useOnce = false ∧ (s.core c).l1Capacity ≠ 0
      let ok := install && m.src != dom && (mate.isNone || ((s.sector dom sec).laid.isEmpty && (s.sector dom (mateOf sec)).laid.isEmpty))
      ∃ t, exec (.guestFill k) s = .next t
        ∧ t = { s with msgs := s.msgs.del k, reels := t.reels, cores := t.cores, domains := t.domains, nextId := t.nextId }
        ∧ (∀ j, t.reels.find? j = (s.reels.find? j).map fun q => { q with loads := q.loads.map fun o =>
            if (f.waiting.any fun r => r.reel == j && r.load == o.id) = true then takes o sec data else o })
        ∧ (∀ c, ((∀ r, ¬ inst c r) → t.core c = s.core c)
          ∧ ((∃ r, inst c r) → ∃ r, inst c r ∧ Installed (s.core c) (t.core c) r sec data))
        ∧ SectorsBecome s t dom fun j y =>
          if j = sec then filled req ok data y
          else match mate with | some x => if j = mateOf sec then filled req ok x y else y | none => y)
    ∧ (∀ va grain whom, m.body = .inval va grain whom →
      let goal := match whom with | .store sid => (s.stores.find? sid).elim m.src fun o => domainOfCore o.core | _ => m.src
      ∃ t, exec (.guestInvalidation k) s = .next t ∧ t = { relayed s k ⟨m.dst, goal, 0, false, .ack whom⟩ with domains := t.domains }
        ∧ SectorsBecome s t m.dst fun j y => if va / 32 ≤ j ∧ j < va / 32 + max 1 (grain / 32) then y.dropGuest else y)
    ∧ ∀ whom, m.body = .ack whom →
      ∃ t, exec (.invalidationAcknowledgement k) s = .next t
        ∧ t = { s with msgs := s.msgs.del k, stores := t.stores, reels := t.reels, hostLines := t.hostLines }
        ∧ (∀ sid o, whom = .store sid → s.stores.find? sid = some o → Progressed s t sid { o with acks := o.acks - 1 })
        ∧ (∀ j, t.hostLines.find? j = (s.hostLines.find? j).map fun l => if whom = .host j then { l with acks := l.acks - 1 } else l)
        ∧ ((∀ sid, whom ≠ .store sid) → t.stores = s.stores ∧ t.reels = s.reels)

/-! ## Events at a home -/

namespace Sys2Proof.Rows

/-- A request of address `va` can be served at its place: there is memory, and its home is reached (14 R279, 18 R331, R335). -/
def Servable (s : State) (m : Msg) (e : Xlat) (va : Nat) : Prop := s.exists? (e.at va) = true ∧ s.reaches m.src (e.at va) = true

/-- A byte of a page at its home: of the slice where it holds the sector, else of DRAM (14 R270). -/
def homeByte (s : State) (h : Nat) (e : Xlat) (a : Nat) : Byte :=
  match (s.sector h (a / 32)).held with
  | some x => x.data.extractLsb' (8 * (a % 32)) 8
  | none => Memory.read s.mem (e.at (a / 32 * 32) + a % 32)

/-- Of the domains, only the L2 and the directory of one have changed. -/
def HomeOnly (s t : State) (h : Nat) : Prop :=
  ∀ d, t.domain d = if d = h then { s.domain d with l2 := (t.domain h).l2, dir := (t.domain h).dir } else s.domain d

/-- A home's directory has room for the grain of an address: an entry of its own, or one free (14 R274). -/
def RoomFor (s : State) (h : Nat) (e : Xlat) (va : Nat) : Prop :=
  ((s.domain h).dir.find? (e.at (va / e.grain * e.grain))).isSome = true ∨ (s.domain h).dir.length < 2 ^ 20

/-- The entry of the grain of an address, empty where there is none. -/
def entryOf (s : State) (h : Nat) (e : Xlat) (va : Nat) : DirEntry :=
  ((s.domain h).dir.find? (e.at (va / e.grain * e.grain))).getD ⟨va / e.grain * e.grain, e.grain, 0, []⟩

/-- Of the domains, only the directory of one has changed, and of it the entry of an address' grain, to `n`. -/
def EntryBecomes (s t : State) (h : Nat) (e : Xlat) (va : Nat) (n : Option DirEntry) : Prop :=
  (∀ d, t.domain d = if d = h then { s.domain d with dir := (t.domain h).dir } else s.domain d)
    ∧ ∀ a, (t.domain h).dir.find? a = if a = e.at (va / e.grain * e.grain) then n else (s.domain h).dir.find? a

/-- An atomic has been answered: its lanes' old values are on their way to the load that waits, or a confirmation is; its store waits for the
invalidations it has caused (09 R185, 14 R272, R275). -/
def Answered (s t : State) (home : Nat) (m : Msg) (sid line : Nat) (rd : Option (Nat × Nat)) (olds : List (Nat × Nat × Nat)) (acks : Nat) : Prop :=
  (∀ j, t.stores.find? j = (s.stores.find? j).map fun o => if j = sid then { o with acks := o.acks + acks } else o)
    ∧ match rd with
      | none => sid ≠ 0 → ∃ j, t.msgs.find? j = some ⟨home, m.src, m.core, false, .confirm sid line⟩
      | some (reel, load) => ∃ j, t.msgs.find? j =
          some ⟨home, m.src, m.core, false, .atomAns sid reel load line (olds.map fun p => (p.1, p.2.2))⟩

/-- A reduction slot after one more contribution of binary32 bits: a finite m·2^e adds m·2^(e + 149); zeros, infinities and NaNs are noted (03
R74). -/
def contributed (q : RedSlot) (x : Nat) : RedSlot :=
  match FVal.read .f32 false x with
  | .fin neg m e => { q with
      count := q.count + 1, sum := q.sum + (if neg then -1 else 1) * (m * 2 ^ (e + 149).toNat : Nat)
      allNegZero := q.allNegZero && (m == 0 && neg), anyNzOrNeg := q.anyNzOrNeg || m != 0 || neg }
  | .inf neg => { q with count := q.count + 1, allNegZero := false, negInf := q.negInf || neg, posInf := q.posInf || !neg }
  | .nan .. => { q with count := q.count + 1, allNegZero := false, nan := true }

/-- One contribution at a home: the cell's open slot, or a new one with the count and the mode the cell declares, takes it; a slot whose count is
complete writes its result, its flags and done to the cell as one write, which is published, and is free again (03 R75, 09 R188, R189). -/
inductive Contributes (h : Nat) (e : Xlat) (launch ctx part : Nat) : State → AtomLane → State → Prop
  | slot s l q t : ((s.domain h).slots.find? (e.at l.va) = some q ∨
        (s.domain h).slots.find? (e.at l.va) = none ∧ (s.domain h).slots.length < 64 ∧
          q = RedSlot.open l.va (bitsOf (s.homeRead h e l.va 16) 63 32) (bitsOf (s.homeRead h e l.va 16) 65 64) launch ctx part) →
      (contributed q (l.x.toNat % 2 ^ 32)).count ≠ q.declared →
      t = { s with domains := t.domains } →
      (∀ d, t.domain d = if d = h then
        { s.domain d with slots := (s.domain d).slots.put (e.at l.va) (contributed q (l.x.toNat % 2 ^ 32)) } else s.domain d) →
      Contributes h e launch ctx part s l t
  | last s l q t : ((s.domain h).slots.find? (e.at l.va) = some q ∨
        (s.domain h).slots.find? (e.at l.va) = none ∧ (s.domain h).slots.length < 64 ∧
          q = RedSlot.open l.va (bitsOf (s.homeRead h e l.va 16) 63 32) (bitsOf (s.homeRead h e l.va 16) 65 64) launch ctx part) →
      (contributed q (l.x.toNat % 2 ^ 32)).count = q.declared →
      t = { s with domains := t.domains, msgs := t.msgs, nextId := t.nextId, mgmt := t.mgmt } → Rung s t →
      (∀ d, t.domain d = if d = h then
        { s.domain d with l2 := (t.domain h).l2, dir := (t.domain h).dir, slots := (s.domain d).slots.del (e.at l.va) } else s.domain d) →
      (∀ sec, sec ≠ l.va / 32 → (t.sector h sec).held = (s.sector h sec).held) →
      (s.inBiasTable (e.at (32 * (l.va / 32))) = false →
        let r := (contributed q (l.x.toNat % 2 ^ 32)).result
        let c := t.homeRead h e l.va 16
        bitsOf c 31 0 = r.1 % 2 ^ 32 ∧ bitsOf c 76 72 = r.2.toNat ∧ c.testBit 95 = true
          ∧ bitsOf c 71 32 = bitsOf (s.homeRead h e l.va 16) 71 32 ∧ bitsOf c 94 77 = bitsOf (s.homeRead h e l.va 16) 94 77
          ∧ bitsOf c 127 96 = bitsOf (s.homeRead h e l.va 16) 127 96) →
      Published s t h .nobody e (l.va / e.grain * e.grain) →
      Contributes h e launch ctx part s l t

/-- The contributions of a list, one after the other. -/
inductive ContributesAll (h : Nat) (e : Xlat) (launch ctx part : Nat) : State → List AtomLane → State → Prop
  | nil s : ContributesAll h e launch ctx part s [] s
  | cons s l u ls t : Contributes h e launch ctx part s l u → ContributesAll h e launch ctx part u ls t →
      ContributesAll h e launch ctx part s (l :: ls) t

/-- Every lane of a message finds a slot: its cell's, or a free one where the cell is armed; and no cell takes more of them than it declares (09
R189, R190). -/
def CellsTake (s : State) (h : Nat) (e : Xlat) (lanes : List AtomLane) : Prop :=
  (s.domain h).slots.length + lanes.length ≤ 64 ∧ ∀ l ∈ lanes,
    let n := (lanes.filter fun m => m.va == l.va).length
    match (s.domain h).slots.find? (e.at l.va) with
    | some q => q.va = l.va ∧ q.count + n ≤ q.declared
    | none => (s.homeRead h e l.va 16).testBit 95 = false ∧ n ≤ bitsOf (s.homeRead h e l.va 16) 63 32

end Sys2Proof.Rows


/-- 09 R185, R186, 14 R274 to R276, 21 R367, R377: reads, writes and atomics at a home the host does not block, of pages of this wafer's DRAM. A
read sends the sector as the slice holds it or as DRAM has it, and the directory records a guest of a tracked page. A write is applied, published
and confirmed. An atomic performs its lanes in ascending order, and its old values go to the load that waits; each write is published. At an agent a
line the domain may use is sent, one it does not hold is asked of the host, and a line held alone in E or M takes a write and is M. At another
wafer's home a read and an atomic bring its bytes, a write its confirmation. Choices of the model that it rests on: log entry 30. -/
def Obligations.HomeAccesses : Prop :=
  ∀ (s : State) (k : Nat) (m : Msg), Arrives s k m →
    (∀ dom sec e data, m.body = .fillReq dom sec e → Servable s m e (32 * sec) →
      let fill := fun (home : Nat) (x : BitVec 256) (mate : Option (BitVec 256)) =>
        relayed s k ⟨home, dom, m.core, false, .fill dom sec k x mate (e.mode != 2)⟩
      (∀ h, s.place e.pa = .home h → s.hostClear h (hdmLines (e.at (32 * sec)) 32) false = true → RoomFor s h e (32 * sec) →
        ∃ t, exec (.homeGuestRead k data) s = .next t
          ∧ t = { fill h (s.homeSector h sec (e.at (32 * sec))) none with domains := t.domains } ∧ HomeOnly s t h
          ∧ (∀ j, (t.sector h j).held = if j = sec ∧ (s.sector h j).held = none
              then some ⟨.clean, e.at (32 * sec), e.mode, e.ac, BitVec.ofNat 256 (Memory.readNat s.mem (e.at (32 * sec)) 32)⟩
              else (s.sector h j).held)
          ∧ ∀ a, (t.domain h).dir.find? a =
            if e.mode = 0 ∧ dom ≠ h ∧ a = e.at (32 * sec / e.grain * e.grain)
            then some { entryOf s h e (32 * sec) with sharers := (entryOf s h e (32 * sec)).sharers ||| (1 : BitVec 64) <<< dom }
            else (s.domain h).dir.find? a)
      ∧ (s.place e.pa = .host →
        (∀ l, s.hostLines.find? (hostLineOf (e.at (32 * sec))) = some l →
          exec (.homeGuestRead k data) s = .next { fill 64 (l.data.extractLsb' (256 * (sec % 2)) 256)
              (some (l.data.extractLsb' (256 * (mateOf sec % 2)) 256)) with
            hostLines := s.hostLines.put (hostLineOf (e.at (32 * sec)))
              { l with mask := if e.mode = 2 then l.mask else l.mask ||| (1 : BitVec 64) <<< dom, va := 32 * sec / 64 * 64 } })
        ∧ (s.hostLines.find? (hostLineOf (e.at (32 * sec))) = none → (∀ r ∈ s.hostReqs, r.line ≠ hostLineOf (e.at (32 * sec))) →
          exec (.homeGuestRead k data) s = .next { s with hostReqs := s.hostReqs ++ [⟨hostLineOf (e.at (32 * sec)), 0, 0⟩] }))
      ∧ ∀ w, s.place e.pa = .far w → exec (.homeGuestRead k data) s = .next (fill 64 (BitVec.ofNat 256 data) none))
    ∧ (∀ sid i e, m.body = .homeWrite sid i e → Servable s m e (128 * i.line) →
      (∀ h, s.place e.pa = .home h → s.hostClear h (hdmHalves (e.at (128 * i.line)) i.mask) true = true →
          e.grain = 32 ∨ e.grain = 128 ∨ e.grain = 512 →
        ∃ t, exec (.homeWrite k) s = .next t
          ∧ t = { s with msgs := t.msgs, nextId := t.nextId, stores := t.stores, domains := t.domains, mgmt := t.mgmt } ∧ Rung s t
          ∧ WrittenAt s t h (if sid = 0 then .nobody else .store sid) e i
          ∧ (∀ j, t.stores.find? j = (s.stores.find? j).map fun o => if j = sid ∧ sid ≠ 0
              then { o with acks := o.acks + ((i.grains e.grain).map fun va => (guestsOf s h e va).length).sum } else o)
          ∧ (sid ≠ 0 → ∃ j, t.msgs.find? j = some ⟨h, m.src, m.core, false, .confirm sid i.line⟩))
      ∧ (s.place e.pa = .host →
        (∀ n ∈ hostHalves (e.at (128 * i.line)) i.mask, ∃ l, s.hostLines.find? n = some l ∧ l.state ≠ .shared ∧ l.mask = 0 ∧ l.acks = 0) →
        ∃ t, exec (.homeWrite k) s = .next t ∧ t = { s with msgs := t.msgs, nextId := t.nextId, hostLines := t.hostLines }
          ∧ (∀ n l, s.hostLines.find? n = some l → t.hostLines.find? n = some (
              let j := n - hostLineOf (e.at (128 * i.line))
              if n ∈ hostHalves (e.at (128 * i.line)) i.mask then
                { l with
                  state := .modified
                  data := mergeBytes 64 l.data (i.data.extractLsb' (512 * j) 512) (i.mask.extractLsb' (64 * j) 64).toNat }
              else l))
          ∧ (∀ n ∈ hostHalves (e.at (128 * i.line)) i.mask, ∀ w ∈ s.hostDir.findD [] (n / 2), ∃ j, t.msgs.find? j =
              some ⟨64, domainOfCore (coreOfKey w.reel), coreOfKey w.reel, false, .report w.reel w.slot w.reg false⟩)
          ∧ (sid ≠ 0 → ∃ j, t.msgs.find? j = some ⟨64, m.src, m.core, false, .confirm sid i.line⟩))
      ∧ ∀ w, s.place e.pa = .far w → sid ≠ 0 → exec (.homeWrite k) s = .next (relayed s k ⟨64, m.src, m.core, false, .confirm sid i.line⟩))
    ∧ ∀ sid rd op wide lanes e data, m.body = .homeAtomic sid rd op wide lanes e → Servable s m e (128 * lineOf lanes) →
      let line := lineOf lanes
      let n := if wide then 8 else 4
      (∀ h cells, s.place e.pa = .home h →
        s.hostClear h (hdmHalves (e.at (128 * line)) (lanesMask n lanes)) (op != .ld) = true →
        e.grain = 32 ∨ e.grain = 128 ∨ e.grain = 512 → (∀ l ∈ lanes, l.va / 128 = line ∧ l.va % n = 0) →
        (∀ l ∈ lanes, s.inBiasTable (e.at (32 * (l.va / 32))) = false) →
        (∀ a, a / 128 = line → Memory.read cells a = homeByte s h e a) →
        let run := performed op n cells lanes
        let wrote := fun (l : AtomLane) (old : Nat) => (cellAfter op n old l.x.toNat l.y.toNat).isSome = true
        let grains := (((lanes.zip run.2).filter fun p => (cellAfter op n p.2.2.2 p.1.x.toNat p.1.y.toNat).isSome).map fun p =>
          p.1.va / e.grain * e.grain).foldl insertNew []
        ∃ t, exec (.homeAtomic k data) s = .next t
          ∧ t = { s with msgs := t.msgs, nextId := t.nextId, stores := t.stores, domains := t.domains, mgmt := t.mgmt } ∧ Rung s t
          ∧ HomeOnly s t h
          ∧ (∀ a, a / 128 = line → homeByte t h e a = Memory.read run.1 a)
          ∧ (∀ sec, sec / 4 ≠ line → (t.sector h sec).held = (s.sector h sec).held)
          ∧ (∀ p ∈ lanes.zip run.2, wrote p.1 p.2.2.2 → Published s t h (.store sid) e (p.1.va / e.grain * e.grain))
          ∧ Answered s t h m sid line rd run.2 (grains.map fun va => (guestsOf s h e va).length).sum)
      ∧ (∀ w, s.place e.pa = .far w →
        ∃ t, exec (.homeAtomic k data) s = .next t
          ∧ t = { s with msgs := t.msgs, nextId := t.nextId }
          ∧ Answered s t 64 m sid line rd (lanes.zipIdx.map fun p => (p.1.lane, p.1.va, data / 2 ^ (64 * p.2) % 2 ^ 64)) 0)

/-- 03 R74, R75, 09 R188 to R190, R199, R202, 14 R274, 21 R368: watches, directory entries and reduction cells at a home. A registration of a watch is
recorded in its grain's entry and answered 0; a page that is home-only is answered 2, a home with no entry to pin 1. A deregistration takes
the watcher off, and an entry left empty goes. An entry without watchers that is evicted invalidates its guests. Contributions that find
their cells' slots are added in ascending order of lane and confirmed. Those that still find no slot after 2^24 cycles are discarded with a
record of kind 0x12 that names their lanes. -/
def Obligations.HomeEntries : Prop :=
  ∀ (s : State) (k : Nat) (m : Msg),
    (∀ reel slot reg va add e status, Arrives s k m → m.body = .homeWatch reel slot reg va add e → Servable s m e va →
      let ans := fun (home st grain : Nat) => relayed s k ⟨home, m.src, m.core, false, .watchAns reel slot reg st grain⟩
      let runs := exec (.homeWatchRegistration k status) s
      let mine := fun (w : Watcher) => w.reel = reel ∧ w.slot = slot
      (add = true →
        (∀ h, s.place e.pa = .home h →
          (e.mode = 2 → runs = .next (ans h 2 e.grain))
          ∧ (e.mode ≠ 2 → (s.domain h).pinFull (e.at (va / e.grain * e.grain)) = true → runs = .next (ans h 1 e.grain))
          ∧ (e.mode ≠ 2 → (s.domain h).pinFull (e.at (va / e.grain * e.grain)) = false → RoomFor s h e va →
            ∃ t, runs = .next t ∧ t = { ans h 0 e.grain with domains := t.domains }
              ∧ EntryBecomes s t h e va (some { entryOf s h e va with
                  watchers := ((entryOf s h e va).watchers.filter fun w => !(w.reel == reel && w.slot == slot)) ++ [⟨reel, slot, reg⟩] })))
        ∧ (s.place e.pa = .host → e.mode = 2 → runs = .next (ans 64 2 128))
        ∧ (s.place e.pa = .host → e.mode ≠ 2 →
          ∃ t, runs = .next t ∧ t = { ans 64 0 128 with hostDir := t.hostDir }
            ∧ ∀ g, (∀ w, w ∈ t.hostDir.findD [] g ↔ if g = hostLineOf (e.at va) / 2
                then w = ⟨reel, slot, reg⟩ ∨ (w ∈ s.hostDir.findD [] g ∧ ¬ mine w) else w ∈ s.hostDir.findD [] g))
        ∧ ∀ w, s.place e.pa = .far w → runs = .next (ans 64 (status % 4) e.grain))
      ∧ (add = false →
        let left := fun (ws : List Watcher) => ws.filter fun w => !(w.reel == reel && w.slot == slot && w.reg == reg)
        (∀ h n, s.place e.pa = .home h → (s.domain h).dir.find? (e.at (va / e.grain * e.grain)) = some n →
          ∃ t, exec (.homeWatchDeregistration k) s = .next t ∧ t = { s with msgs := s.msgs.del k, domains := t.domains }
            ∧ EntryBecomes s t h e va (if left n.watchers = [] ∧ n.sharers = 0 then none else some { n with watchers := left n.watchers }))
        ∧ (s.place e.pa = .host →
          ∃ t, exec (.homeWatchDeregistration k) s = .next t ∧ t = { s with msgs := s.msgs.del k, hostDir := t.hostDir }
            ∧ ∀ g, t.hostDir.findD [] g = if g = hostLineOf (e.at va) / 2 then left (s.hostDir.findD [] g) else s.hostDir.findD [] g)))
    ∧ (∀ h a n, (s.domain h).dir.find? a = some n → n.watchers = [] →
      ∃ t, exec (.directoryEntryEvict h a) s = .next t ∧ t = { s with msgs := t.msgs, nextId := t.nextId, domains := t.domains }
        ∧ (∀ d, d < 64 → n.sharers.getLsbD d = true → ∃ j, t.msgs.find? j = some ⟨h, d, 0, false, .inval n.va n.grain .nobody⟩)
        ∧ ∀ d, t.domain d = if d = h then { s.domain d with dir := (s.domain d).dir.del a } else s.domain d)
    ∧ ∀ sid line lanes since e, Arrives s k m → m.body = .contrib sid line lanes since e → Servable s m e (128 * line) →
      ∀ h o, s.place e.pa = .home h → s.stores.find? sid = some o →
        (sid ≠ 0 → (∀ l ∈ lanes, s.hostClear h (hdmLines (e.at l.va) 16) true = true) → (∀ l ∈ lanes, l.va / 128 = line ∧ l.va % 16 = 0) →
          CellsTake s h e lanes →
          ∃ t, ContributesAll h e o.launch o.ctx (s.domain (domainOfCore o.origin)).part s lanes t
            ∧ exec (.reductionContribution k) s = .next (relayed t k ⟨h, m.src, m.core, false, .confirm sid line⟩))
        ∧ (sid ≠ 0 → lanes ≠ [] → m.arrived = true → since + 2 ^ 24 ≤ s.cycles h → 64 ≤ (s.domain h).slots.length → o.eng = false →
          s.faultEntry o.launch o.block ≠ 0 →
          ∃ t id f, exec (.reductionSlotTimeout k) s = .next t
            ∧ t = { s with msgs := t.msgs, nextId := t.nextId, stores := t.stores, faults := t.faults, reels := t.reels }
            ∧ t.faults.find? id = some f ∧ f.kind = 0x12 ∧ f.lanes = maskOf (lanes.map AtomLane.lane) ∧ f.sid = some sid
            ∧ f.inst = o.inst ∧ f.pc = o.pc ∧ f.state = .waiting
            ∧ (∀ j, j ≠ id → t.faults.find? j = s.faults.find? j)
            ∧ ∃ j, t.msgs.find? j = some ⟨h, m.src, m.core, false, .confirm sid line⟩)

/-! ## Events that end a wait of a reel -/

namespace Sys2Proof.Rows

/-- Word `i` a load of `n` bytes a lane writes from the bytes it has read: short ones are zero-extended or sign-extended (09 R177). -/
def loadWord (d : BitVec 128) (n : Nat) (sx : Bool) (i : Nat) : Word :=
  if n < 4 then (if sx then BitVec.ofInt 32 (sxNat d.toNat (8 * n)) else BitVec.ofNat 32 (d.toNat % 2 ^ (8 * n)))
  else BitVec.ofNat 32 (d.toNat / 2 ^ (32 * i))

/-- Load `o` of a reel `r`, of key `k`, that is on its core; no answer of a home is under way to it but for message `but` (09 R185, 14 R272). -/
def Outstanding (s : State) (k : Nat) (r : Reel) (o : OutLoad) (but : Nat) : Prop :=
  s.reels.find? k = some r ∧ (r.loads.find? fun q => q.id = o.id) = some o
    ∧ ∀ p ∈ s.msgs, p.1 ≠ but → ∀ sid line olds, p.2.body ≠ .atomAns sid k o.id line olds

/-- Load `o` of reel `r` has been performed: each of its bytes is there or has been dropped (04 R88). -/
def Performed (s : State) (k : Nat) (r : Reel) (o : OutLoad) : Prop :=
  (∃ but, Outstanding s k r o but ∧ s.msgs.find? but = none) ∧ o.recs = [] ∧ ∀ p ∈ o.pieces, p.data.isSome = true ∨ p.lost = true

/-- A load's piece as an answer reaches it: in the line of the answer it takes its lane's old value. -/
def answered (line : Nat) (olds : List (Nat × Nat)) (p : Piece) : Piece :=
  match List.find? (fun e => e.1 == p.lane) olds with
  | some e => if p.va / 128 = line ∧ p.data = none then { p with data := some (BitVec.ofNat 128 e.2) } else p
  | none => p

/-- The reel with a load that counts in ld returned. -/
def returned (r : Reel) (o : OutLoad) : Reel := { r with loads := r.loads.filter fun q => q.id != o.id, ld := r.ld - 1 }

/-- The state with reel `k` changed to `r`. -/
def withReel (s : State) (k : Nat) (r : Reel) : State := { s with reels := s.reels.put k r }

/-- A waiting split as what its instruction acts in, of a reel that is not held and whose block runs (04 R78). -/
def Resumable (s : State) (k split : Nat) (x : Issuer) : Prop :=
  s.issuerOf k split = some x ∧ x.reel.held = false ∧ s.runs x.reel.block x.block = true

/-- A wait as something is reported of watch slot `slot`: a `waitm` on that slot knows of it (10 R220). -/
def tolds (slot : Nat) : Wait → Wait
  | .waitm m => .waitm { m with told := m.told || m.slot == slot }
  | w => w

/-- Every other watch slot of a reel than `slot` is unarmed. -/
def NoOther (r : Reel) (slot : Nat) : Prop := ∀ j, j < 2 → j ≠ slot → (r.watchSlot j).state = .unarmed

/-- Reel `q` is reel `r` once something is reported of watch slot `slot`. A write wakes the parked splits with the slot's bit, or is latched where
none is parked. A lost slot is unarmed and wakes them with bit 5 or 6, and with bit 7 where no slot is armed any more; with none parked the loss is
latched (09 R200, R201, 18 R336). -/
def Reported (r : Reel) (slot : Nat) (lost : Bool) (q : Reel) : Prop :=
  let parked := ∃ p ∈ r.splits, ∃ a b c, p.2.wait = some (.park a b c)
  let w := r.watchSlot slot
  let r' := r.mapWaits (tolds slot)
  q = { r with watches := q.watches, splits := q.splits } ∧ (∀ j, j ≠ slot → q.watchSlot j = r.watchSlot j)
    ∧ (lost = false → parked → q.watchSlot slot = w ∧ q.splits = (r'.mapWaits (Wait.wake ((1 : Word) <<< slot))).splits)
    ∧ (lost = false → ¬ parked → q.watchSlot slot = { w with latch := true } ∧ q.splits = r'.splits)
    ∧ (lost = true → (q.watchSlot slot).state = .unarmed ∧ (q.watchSlot slot).status = w.status ∧ ((q.watchSlot slot).lost = true ↔ ¬ parked)
      ∧ let o := r'.mapWaits (Wait.wake ((1 : Word) <<< (5 + slot)))
        (NoOther r slot → q.splits = (o.mapWaits parkEnds).splits) ∧ (¬ NoOther r slot → q.splits = o.splits))

/-- The lanes of a scratchpad access that touch a word which does not qualify (09 R181). -/
def Unready (b : Block) (a : SpadAcc) (l : Nat × Nat) : Prop :=
  l ∈ a.lanes ∧ ∃ w, inWord l.2 a.size w ∧ ((a.load = true ∧ (a.mode = 1 ∨ a.mode = 2) ∧ b.full.findD false w = false)
    ∨ (a.load = false ∧ a.mode = 1 ∧ b.full.findD false w = true))

end Sys2Proof.Rows


/-- 04 R88, R100, 09 R177, R178, 10 R220, 11 R224, R254: the return of a performed load writes its destination in one step and ld falls: each lane's
words of a vector load, a uniform load's words, a watch's status; a `waitm` has its word; an exited reel's load is discarded. Where the old values
of an atomic are under way from their home, they reach the load first and confirm the line; a load that still lacks bytes stays. The end of a
move of a tile's row writes the registers of the lanes that moved, or the row's elements in a tile its block still holds, and mx falls. -/
def Obligations.LoadReturns : Prop :=
  ∀ (s : State) (k : Nat) (r : Reel),
    (∀ o, Performed s k r o →
      let ends := fun (q : Reel) => exec (.loadReturn k o.id) s = .next (withReel s k q)
      (r.exited = false →
        (∀ reg n sx, o.dst = .vec reg n sx → (o.pieces.map (·.lane)).Nodup → (∀ p ∈ o.pieces, p.lane < 32) →
          ∃ q, ends q ∧ q = { returned r o with v := q.v }
            ∧ (∀ p ∈ o.pieces, ∀ d i, p.data = some d → i < (n + 3) / 4 → q.vget (reg + i) p.lane = loadWord d n sx i)
            ∧ ∀ m l, l < 32 → ((∀ p ∈ o.pieces, p.lane ≠ l ∨ p.data = none) ∨ m < reg ∨ reg + (n + 3) / 4 ≤ m) → q.vget m l = r.vget m l)
        ∧ (∀ reg n p d, o.dst = .uni reg n → o.pieces = [p] → p.data = some d →
          ∃ q, ends q ∧ q = { returned r o with s := q.s }
            ∧ ∀ m, q.sget m = if m ≠ 0 ∧ reg ≤ m ∧ m < reg + (n + 3) / 4 then loadWord d n false (m - reg) else r.sget m)
        ∧ (∀ reg w p d, o.dst = .status reg w → o.pieces = [p] → p.data = some d →
          ends { returned r o with s := (r.sset reg (d.setWidth 32)).s })
        ∧ (∀ split p w m, o.dst = .waitm split → o.pieces = [p] → r.splits.find? split = some w → w.wait = some (.waitm m) →
          (∀ x, m.phase ≠ .got x) → m.phase ≠ .dropped →
          ends { r with
            loads := r.loads.filter fun q => q.id != o.id
            splits := r.splits.put split { w with wait := some (.waitm { m with
              phase := match p.data with | some d => .got (d.setWidth 32) | none => .dropped }) } }))
      ∧ (r.exited = true → (∀ split, o.dst ≠ .waitm split) → ends (returned r o)))
    ∧ (∀ j m sid line olds o st, Outstanding s k r o j → Arrives s j m → m.body = .atomAns sid k o.id line olds → s.stores.find? sid = some st →
      ∃ t, exec (.loadReturn k o.id) s = exec (.loadReturn k o.id) t
        ∧ t = { s with msgs := s.msgs.del j, reels := t.reels, stores := t.stores }
        ∧ Progressed (withReel s k { r with
            loads := r.loads.map fun q => if q.id = o.id then { q with pieces := q.pieces.map (answered line olds) } else q })
          t sid { st with lines := st.lines.adjust line fun _ => .confirmed })
    ∧ (∀ o but, Outstanding s k r o but → s.msgs.find? but = none → (∃ p ∈ o.pieces, p.data = none ∧ p.lost = false) →
      exec (.loadReturn k o.id) s = .next s)
    ∧ ∀ m, s.reels.find? k = some r → (r.moves.find? fun q => q.id == m.id) = some m → (m.data.map (·.1)).Nodup → (∀ p ∈ m.data, p.1 < 32) →
      let done := { r with moves := r.moves.filter fun q => q.id != m.id, mx := r.mx - 1 }
      (m.get = true → r.exited = false →
        ∃ q, exec (.accumulatorMoveComplete k m.id) s = .next (withReel s k q) ∧ q = { done with v := q.v }
          ∧ (∀ p ∈ m.data, q.vget m.reg p.1 = loWord p.2 ∧ (m.wide = true → q.vget (m.reg + 1) p.1 = hiWord p.2))
          ∧ ∀ n l, l < 32 → ((∀ p ∈ m.data, p.1 ≠ l) ∨ (n ≠ m.reg ∧ (m.wide = false ∨ n ≠ m.reg + 1))) → q.vget n l = r.vget n l)
      ∧ (m.get = true → r.exited = true → exec (.accumulatorMoveComplete k m.id) s = .next (withReel s k done))
      ∧ (∀ t, m.get = false → (s.core (coreOfKey k)).ac.find? m.tile = some t → t.owner = r.block → t.fmt ≠ 0 → t.bad = false →
          (t.fmt = 2 ↔ m.wide = true) → (t.fmt = 2 → m.tile % 2 = 0) →
        ∃ u t', exec (.accumulatorMoveComplete k m.id) s = .next u ∧ u = { withReel s k done with cores := u.cores }
          ∧ (∀ c, u.core c = if c = coreOfKey k then { s.core c with ac := (s.core c).ac.put m.tile t' } else s.core c)
          ∧ t' = { t with data := t'.data }
          ∧ ∀ e, t'.data.findD 0 e = match List.find? (fun p => 32 * m.row + p.1 == e) m.data with | some p => p.2 | none => t.data.findD 0 e)

/-- 04 R78, R88, 08 R150 to R154, R166, R172, 09 R182, R199 to R202, 10 R220, 11 R253: what ends a wait. A scratchpad access whose words have all
come to qualify is performed as at issue and retires, its count in st ending there and that in ld with the return of its data, unless an attribution
entry's skid is full; one that has waited 2^24 cycles raises a record of kind 8 that names the lanes on words that do not qualify and holds the
reel, its wait going on. A `park` past its timeout has bit 3. A `waitm` that polls arms its slot anew after 1,024 cycles. The answer of a
registration arms its slot on the grain at its home, or leaves it unarmed, which ends the parks of a reel without another, and the status is the
slot's and returns to its load; a `waitm` reads its word. A report wakes the parked splits of its reel, or is latched; a slot lost in a scrub is
unarmed and wakes them; a write that another wafer's home or the host's agent reports reaches a slot registered there. Choices of the model that it
rests on: log entries 11, 86, 91 and 96. -/
def Obligations.WaitsEnd : Prop :=
  ∀ (s : State) (k : Nat),
    (∀ split x a since spent, Resumable s k split x → x.split.wait = some (.fullEmpty a since spent) →
      (Qualified x.block a.load a.mode a.lanes a.size → (a.load = true → Unpoisoned x.block a.lanes a.size) → a.lanes ≠ [] →
        s.skidFull k x.reel = false → (a.load = true → x.reel.ld ≠ 0) →
        ∃ t b r, exec (.fullEmptyQualified k split) s = .next t
          ∧ t = { s with reels := s.reels.put k r, blocks := s.blocks.put x.reel.block b, cur := none, nextId := t.nextId }
          ∧ b = { x.block with spad := b.spad, full := b.full, poison := b.poison } ∧ FullAfter x.block b a.load a.mode a.lanes a.size
          ∧ (∀ v, (Memory.read b.spad v).toNat = if a.load = true then (Memory.read x.block.spad v).toNat else
              (lastByte (a.lanes.map fun l => (l.1, l.2, a.vals.findD 0 l.1)) a.size v).getD (Memory.read x.block.spad v).toNat)
          ∧ (∀ w, b.poison.findD false w = true ↔
              x.block.poison.findD false w = true ∧ (a.load = true ∨ ¬ covered a.lanes a.size w))
          ∧ ∃ id, r = { x.advanced x.nextPc with
              st := if a.load = true then x.reel.st else x.reel.st - 1
              loads := if a.load = true then x.reel.loads ++ [⟨id, x.cur.bundle.ipc, x.cur.bundle.word, x.active, .vec a.reg a.size false,
                a.lanes.map fun p => ⟨p.1, p.2, some (BitVec.ofNat 128 (Memory.readNat x.block.spad p.2 a.size)), false⟩, none, [], 0, 0⟩]
                else x.reel.loads })
      ∧ ((∃ l, Unready x.block a l) → 2 ^ 24 ≤ s.clock (coreOfKey k) - since + spent → x.reel.exited = false →
        s.faultEntry x.block.launch x.reel.block ≠ 0 →
        ∃ t f r, exec (.fullEmptyTimeout k split) s = .next t
          ∧ t = { s with reels := s.reels.put k r, faults := s.faults.put s.nextId f, nextId := s.nextId + 1 }
          ∧ f.kind = 8 ∧ f.held = true ∧ f.load = a.load ∧ f.inst = x.cur.bundle.word ∧ f.pc = x.cur.bundle.ipc ∧ f.reelKey = some k
          ∧ f.split = split ∧ (∀ l, l < 32 → (f.lanes.getLsbD l = true ↔ ∃ o, Unready x.block a (l, o)))
          ∧ r = { x.reel with heldBy := r.heldBy, splits := r.splits } ∧ s.nextId ∈ r.heldBy
          ∧ ∃ p, r.splits.find? split = some p ∧ ∃ u v, p.wait = some (.fullEmpty a u v)))
    ∧ (∀ split r p timeout since cause, s.reels.find? k = some r → r.splits.find? split = some p →
      p.wait = some (.park timeout since cause) → timeout ≠ 0 → since + timeout ≤ s.clock (coreOfKey k) →
      exec (.parkTimeout k split) s = .next (withReel s k { r with
        splits := r.splits.put split { p with wait := some (.park timeout since (some (cause.getD 0 ||| 8))) } }))
    ∧ (∀ split x m since, Resumable s k split x → x.split.wait = some (.waitm m) → m.phase = .polling since →
      since + 1024 ≤ s.clock (coreOfKey k) →
      ∃ t r id, exec (.waitmPoll k split) s = .next t
        ∧ t = { s with reels := s.reels.put k r, cur := none, msgs := t.msgs, nextId := t.nextId, launches := t.launches }
        ∧ Leaves x m.slot t
        ∧ r = { x.reel with
            splits := x.reel.splits.put split { x.split with
              bundle := some x.cur.bundle, wait := some (.waitm { m with phase := .arming id, told := false }) }
            watches := r.watches
            loads := x.reel.loads ++ [⟨id, x.cur.bundle.ipc, x.cur.bundle.word, x.active, .waitm split, [⟨0, m.va, none, false⟩], none, [], 0, 0⟩] }
        ∧ (∀ j, r.watchSlot j = if j = m.slot then sentSlot x m.slot m.va id else x.reel.watchSlot j)
        ∧ ∃ j, t.msgs.find? j = some (toSlice x (.watch k m.slot id m.va true)))
    ∧ (∀ msg m slot reg status grain r o p w, Arrives s msg m → m.body = .watchAns k slot reg status grain → s.reels.find? k = some r →
      (r.loads.find? fun q => q.id = reg) = some o → o.pieces = [p] → o.recs = [] → r.watchSlot slot = w → w.reg = reg → w.state = .sent →
      r.exited = false → grain = 32 ∨ grain = 128 ∨ grain = 512 →
      let took := fun (q : Reel) => exec (.watchStatusAnswer msg) s = .next { withReel s k q with msgs := s.msgs.del msg }
      let word := BitVec.ofNat 32 (status + if status = 0 then 16 * (if grain = 32 then 0 else if grain = 128 then 1 else 2) else 0)
      let becomes := if status = 0 then { w with state := .armed, va := w.va / grain * grain, grain := grain, home := m.src, status := word }
        else { WatchSlot.unarmed with status := word }
      let woken := fun (splits : Map Split) => (status = 0 ∨ ¬ NoOther r slot → splits = r.splits)
        ∧ (status ≠ 0 → NoOther r slot → splits = (r.mapWaits parkEnds).splits)
      (∀ sd v, o.dst = .status sd v →
        ∃ q, took q ∧ q = { returned r o with watches := q.watches, splits := q.splits, s := (r.sset sd word).s } ∧ woken q.splits
          ∧ ∀ j, q.watchSlot j = if j = slot then becomes else r.watchSlot j)
      ∧ ∀ split x b c, o.dst = .waitm split → r.splits.find? split = some x → x.wait = some (.waitm c) →
          s.blocks.find? r.block = some b →
        ∃ t q j d p', exec (.watchStatusAnswer msg) s = .next t
          ∧ t = { withReel s k q with msgs := t.msgs, stores := t.stores, nextId := t.nextId, cores := t.cores, domains := t.domains }
          ∧ woken p' ∧ q.splits = p'.put split { x with wait := some (.waitm { c with phase := .loading d }) }
          ∧ (∀ j, q.watchSlot j = if j = slot then becomes else r.watchSlot j) ∧ (∃ l ∈ q.loads, l.id = d ∧ l.dst = .waitm split)
          ∧ t.msgs.find? j = some ⟨domainOfCore (coreOfKey k), domainOfCore (coreOfKey k), coreOfKey k, false,
              .atomic s.nextId (some (k, d)) .ld false [⟨0, p.va, 0, 0⟩]⟩)
    ∧ (∀ msg m slot reg lost r w, Arrives s msg m → m.body = .report k slot reg lost → s.reels.find? k = some r → r.watchSlot slot = w →
      w.reg = reg → w.state ≠ .unarmed → msg ≠ 0 →
      ∃ q, exec (.watchReport msg k slot) s = .next { withReel s k q with msgs := s.msgs.del msg } ∧ Reported r slot lost q)
    ∧ ∀ slot r, s.reels.find? k = some r → slot < 2 → (r.watchSlot slot).state = .armed →
      ((r.watchSlot slot).home = 64 → ∃ q, exec (.watchReport 0 k slot) s = .next (withReel s k q) ∧ Reported r slot false q)
      ∧ ((r.watchSlot slot).home ≠ 64 → exec (.watchReport 0 k slot) s = .next (withReel s k r))

/-! ## Events of engines, sequencers, lookasides and walks -/

namespace Sys2Proof.Rows

/-- Command `c` of block `b` stands at its core, in a block that runs (11 R245, R252). -/
def Commands (s : State) (core : Nat) (c : EngCmd) (b : Block) : Prop :=
  ((s.core core).cmds.find? fun e => e.id = c.id) = some c ∧ s.blocks.find? c.block = some b ∧ s.runs c.block b = true

/-- The core's commands are `cmds`, and no other core has changed. -/
def CmdsBecome (s t : State) (core : Nat) (cmds : List EngCmd) : Prop :=
  ∀ j, t.core j = if j = core then { s.core j with cmds := cmds } else s.core j

/-- eng of the command's reel has fallen by one. -/
def EngFalls (s t : State) (c : EngCmd) : Prop :=
  ∀ j, t.reels.find? j = (s.reels.find? j).map fun q => if j = c.reel then { q with eng := q.eng - 1 } else q

/-- Data, table and index layouts fit each other (11 R249). -/
def TableFits (b : Block) (d t i : Layout) : Prop :=
  d.ok b.desc.spad = true ∧ t.ok b.desc.spad = true ∧ i.ok b.desc.spad = true ∧ i.space = 0 ∧ i.esize = 2 ∧ t.size2 = 0 ∧ t.size3 = 0
    ∧ d.esize = t.esize ∧ d.planes = t.planes ∧ d.count = i.count * (t.size0 + 1)

/-- A gather (`true`) or scatter with its captured descriptors: its data, table and index layouts (11 R249). -/
inductive TableRow (b : Block) : EngOp → List (BitVec 256) → Bool → Layout → Layout → Layout → Prop
  | gath ld lt di ti ii d t i : d = Layout.ofImage di → t = Layout.ofImage ti → i = Layout.ofImage ii → TableFits b d t i →
      TableRow b (.gath ld lt) [di, ti, ii] true d t i
  | scat lt ld di ti ii d t i : d = Layout.ofImage di → t = Layout.ofImage ti → i = Layout.ofImage ii → TableFits b d t i →
      TableRow b (.scat lt ld) [di, ti, ii] false d t i

/-- Bytes of the pieces in which an element moves: a word, or the whole of a smaller element (11 R251). -/
def pieceOf (l : Layout) : Nat := min 4 l.elemBytes

/-- The pieces of elements at addresses, in order. -/
def piecesOf (l : Layout) (as : List Nat) : List Nat :=
  as.flatMap fun a => (List.range (l.elemBytes / pieceOf l)).map fun k => a + pieceOf l * k

/-- No word of `n` bytes at any of some addresses is poisoned. -/
def Clean (b : Block) (as : List Nat) (n : Nat) : Prop := ∀ a ∈ as, ∀ w, inWord a n w → b.poison.findD false w = false

/-- Some of `n` bytes at one of some addresses lies in word `w`. -/
def reaching (as : List Nat) (n w : Nat) : Prop := ∃ a ∈ as, inWord a n w

/-- Values of `n` bytes have gone to addresses of a block's scratchpad that a layout writes, after the words of which `rd` holds were read and
emptied: the bytes in order, the full bits, and the poison of the words written whole (08 R155, 11 R248, R253). -/
def Wrote (b b' : Block) (n : Nat) (ws : List (Nat × Nat)) (rd : Nat → Prop) (dst : Layout) : Prop :=
  let filled := fun w => dst.fe = 1 ∧ reaching (ws.map (·.1)) n w
  b' = { b with spad := b'.spad, full := b'.full, poison := b'.poison }
    ∧ (∀ a, (Memory.read b'.spad a).toNat = (lastByte (ws.map fun w => (0, w.1, w.2)) n a).getD (Memory.read b.spad a).toNat)
    ∧ (∀ w, (filled w → b'.full.findD false w = true) ∧ (¬ filled w → rd w → b'.full.findD false w = false)
      ∧ (¬ filled w → ¬ rd w → b'.full.findD false w = b.full.findD false w))
    ∧ ∀ w, b'.poison.findD false w = true ↔ b.poison.findD false w = true ∧ ¬ covered (ws.map fun w => (0, w.1)) n w

/-- The pieces of row `r` of a table, from which or to which the elements of row `e` of the data move (11 R249). -/
def tablePieces (t : Layout) (r : Nat) : List Nat := piecesOf t ((List.range (t.size0 + 1)).map fun j => t.addr j r 0 0)
/-- The pieces of row `e` of the data. -/
def dataPieces (d t : Layout) (e : Nat) : List Nat := piecesOf d ((d.addrs.drop ((t.size0 + 1) * e)).take (t.size0 + 1))

/-- Rows of a gather or scatter, by the addresses of their indexes from row `e` on, one after the other: its index is read, then its data, and then
the data is written (11 R249). -/
inductive RowsMoved (gather : Bool) (d t i : Layout) : Nat → List Nat → Block → Block → Prop
  | nil e b : RowsMoved gather d t i e [] b b
  | cons e ia rest b b1 b2 src dst : Memory.readNat b.spad ia 4 ≤ t.size1 →
      src = (if gather then tablePieces t (Memory.readNat b.spad ia 4) else dataPieces d t e) →
      dst = (if gather then dataPieces d t e else tablePieces t (Memory.readNat b.spad ia 4)) →
      Clean b [ia] 4 → Clean b src (pieceOf d) →
      Wrote b b1 (pieceOf d) (dst.zip (src.map fun a => Memory.readNat b.spad a (pieceOf d)))
        (fun w => (i.fe = 2 ∧ reaching [ia] 4 w) ∨ ((if gather then t else d).fe = 2 ∧ reaching src (pieceOf d) w)) (if gather then d else t) →
      RowsMoved gather d t i (e + 1) rest b1 b2 → RowsMoved gather d t i e (ia :: rest) b b2

/-- The layout registers whose descriptors a moving command captures: destination and source of `cpy`, else data, table and index (11 R248, R249). -/
def descsOf : EngOp → List Nat
  | .cpy d s => [d, s]
  | .gath d t | .scat t d => [d, t, t + 1]
  | _ => []

/-- A command publishes its block: a `cpy` or `scat` that writes global memory (18 R337). -/
def publishes (b : Block) : EngOp → Prop
  | .cpy d _ | .scat d _ => (Layout.ofImage (b.lays.findD 0 d)).space = 1
  | _ => False

/-- A table entry of this wafer, as the memory controller that serves its address reads it (08 R163, 14 R277). -/
def TableWord (s : State) (src pa e : Nat) : Prop :=
  (∃ d, s.place pa = .home d) ∧ s.exists? pa = true ∧ s.reaches src pa = true ∧ Memory.readNat s.mem pa 8 = e

/-- The leaf of an address in a table of three levels from a level and base on: the entry and its level (08 R161, 14 R277). An entry is valid where
`ok` says so of it and of being a leaf. -/
inductive TablePath (s : State) (src va : Nat) (ok : Nat → Nat → Bool → Prop) : Nat → Nat → Nat → Nat → Prop
  | leaf level base e : TableWord s src (base + 8 * (va / 2 ^ (55 - 13 * level) % 2 ^ 13)) e → e % 2 = 1 → level = 3 ∨ e.testBit 1 = true →
      ok level e true → TablePath s src va ok level base e level
  | next level base e e' level' : TableWord s src (base + 8 * (va / 2 ^ (55 - 13 * level) % 2 ^ 13)) e → e % 2 = 1 → level < 3 →
      e.testBit 1 = false → ok level e false → TablePath s src va ok (level + 1) (e / 2 ^ 16 % 2 ^ 40 * 2 ^ 16) e' level' →
      TablePath s src va ok level base e' level'

/-- A well-formed entry of the first stage: its 0 fields are 0, and a leaf is aligned to what it covers and has no reserved mode or grain (14
R278). -/
def xlatOk (level e : Nat) (leaf : Bool) : Prop :=
  bitsOf e 58 56 = 0 ∧ bitsOf e 15 2 = 0
    ∧ (leaf = true → bitsOf e 55 16 * 2 ^ 16 % 2 ^ (55 - 13 * level) = 0 ∧ bitsOf e 63 62 ≠ 3 ∧ bitsOf e 61 60 ≠ 3)

/-- A request stands at a domain's slice for a granule. -/
def StandsFor (m : Msg) (d page : Nat) : Prop :=
  m.arrived = true ∧ m.dst = d ∧ ∃ line, m.body.sliceLine = some line ∧ granule (128 * line) = page

/-- A list of denials without those of granules that a range touches (08 R164). -/
def undenials (lo hi : Nat) (den : List (Nat × Nat)) : List (Nat × Nat) :=
  den.filter fun d => !(decide (65536 * d.1 < hi) && decide (lo < 65536 * d.1 + 65536))

/-- A wait without what its permission reads have found denied in a range. -/
def undenies (lo hi : Nat) : Wait → Wait
  | .perm g den => .perm g (undenials lo hi den)
  | w => w

/-- A sequencer's wait likewise. -/
def undeniesSeq (lo hi : Nat) : SeqWait → SeqWait
  | .perm g den => .perm g (undenials lo hi den)
  | w => w

/-- The slots the throttle ranks before another: those of a lower score, and of the same score the lower (08 R170). -/
def ranksBefore (c : Core) (i j : Nat) : Prop := c.scores.findD 0 i < c.scores.findD 0 j ∨ (c.scores.findD 0 i = c.scores.findD 0 j ∧ i < j)

end Sys2Proof.Rows


/-- 04 R88, 08 R155, 11 R222, R226, R228, R235, R246 to R255, 18 R337: an engine accepts a command by capturing its descriptors, which publishes its
block where it is to write global memory, the sequencer a start by beginning its stream or holding it pending, a layout load by writing its
register, and eng falls. A command between layouts in scratchpad moves its next unit: a copy 4 KiB of its elements in order, a source that its
destination shares a word with read whole before the first write; a gather or scatter 32 rows, each index, then the row's data read before the row
is written. With the last unit done and the command released, its increment is added to its semaphore and it is gone; else its progress stands. A
bad descriptor or a poisoned source raises a record that holds no reel, and of a poisoned source every word of the destination is poisoned. A claim
takes its resources once all are free, and halts the stream after 2^24 cycles. Choices of the model that it rests on: log entries 31 and 91. -/
def Obligations.EngineEvents : Prop :=
  ∀ (s : State),
    (∀ core c b ext, Commands s core c b →
      let others := (s.core core).cmds.filter fun e => e.id != c.id
      let goesOn := fun (cmds : List EngCmd) (b' : Block) => ∃ t, exec (.engineCommandAccept core c.id ext) s = .next t
        ∧ t = { s with cores := t.cores, reels := t.reels, blocks := t.blocks } ∧ CmdsBecome s t core cmds ∧ EngFalls s t c
        ∧ ∀ j, t.blocks.find? j = if j = c.block then some b' else s.blocks.find? j
      (c.accepted = false → (s.core core).mayAccept c = true →
        (descsOf c.op ≠ [] →
          let captured := (s.core core).cmds.map fun e =>
            if e.id = c.id then { e with accepted := true, lays := (descsOf c.op).map fun n => b.lays.findD 0 n } else e
          (publishes b c.op → goesOn captured { b with published := true }) ∧ (¬ publishes b c.op → goesOn captured b))
        ∧ (∀ sd sa r, c.op = .mstart sd sa → s.reels.find? c.reel = some r →
          let at_ : VA := BitVec.ofNat 55 (b.desc.stream + ((r.sget sa).toNat - (r.sget sa).toNat % 4))
          (b.seq.mode = .idle → goesOn others { b with
            seq := { b.seq with mode := .running, pc := at_, q := b.seq.q.putD 0 0 (r.sget sd), wait := none, hx := none } })
          ∧ (b.seq.mode = .running → b.seq.pending = none →
            goesOn others { b with seq := { b.seq with pending := some (at_, r.sget sd) } }))
        ∧ ∀ lay a, c.op = .layset lay true a → s.mayRun core c b = true → Clean b [a] 32 →
          goesOn others { b with lays := b.lays.putD 0 lay (BitVec.ofNat 256 (Memory.readNat b.spad a 32)) })
      ∧ (c.accepted = true → c.performed = false → c.record = none → s.mayRun core c b = true →
          let runs := exec (.engineCommandComplete core c.id ext) s
          let rest := fun (f : EngCmd → EngCmd) (b1 : Block) => ∃ t, runs = .next t ∧ t = { s with cores := t.cores, blocks := t.blocks }
            ∧ CmdsBecome s t core ((s.core core).cmds.map fun e => if e.id = c.id then f e else e)
            ∧ ∀ j, t.blocks.find? j = if j = c.block then some b1 else s.blocks.find? j
          let ends := fun (whole : List Nat) (n : Nat) (b1 : Block) =>
            (∀ i ∈ c.stores ++ c.inherited, (c.scope = 1 → s.storeSettled i = true) ∧ (2 ≤ c.scope → s.storeGone i = true)) →
            let v := (b.sems.findD Sem.zero c.sem).value + BitVec.ofNat 32 c.inc
            ∃ t b', runs = .next t
              ∧ t = { s with cores := t.cores, reels := t.reels, blocks := t.blocks } ∧ CmdsBecome s t core others
              ∧ (∀ j, t.blocks.find? j = if j = c.block then some b' else s.blocks.find? j)
              ∧ (∀ j, t.reels.find? j = (s.reels.find? j).map fun q => if q.block = c.block then q.mapWaits (semReady c.sem v) else q)
              ∧ b' = { b1 with poison := b'.poison, sems := b'.sems }
              ∧ (∀ w, b'.poison.findD false w = true ↔
                  b1.poison.findD false w = true ∧ ¬ covered (whole.map fun a => (0, a)) n w)
              ∧ ∀ m, if m = c.sem then (b'.sems.findD Sem.zero m).value = v else b'.sems.findD Sem.zero m = b.sems.findD Sem.zero m
          (∀ ld ls di si d l, c.op = .cpy ld ls → c.lays = [di, si] → d = Layout.ofImage di → l = Layout.ofImage si →
              d.ok b.desc.spad = true → l.ok b.desc.spad = true → d.sameShape l = true → d.space = 0 → l.space = 0 →
            let n := pieceOf l
            let moves := (piecesOf l l.addrs).zip (piecesOf d d.addrs)
            let unit := (moves.drop c.done).take (4096 / n)
            let ontoItself := ∃ w, reaching l.addrs l.elemBytes w ∧ reaching d.addrs d.elemBytes w
            let read := fun (ms : List (Nat × Nat)) => ms.map fun m => Memory.readNat b.spad m.1 n
            let vals := if c.ahead = [] then read unit else (c.ahead.drop c.done).take (4096 / n)
            c.done < moves.length → (c.ahead ≠ [] → c.ahead.length = moves.length) → (c.ahead = [] → Clean b (unit.map (·.1)) n) →
            (c.done = 0 → c.ahead = [] ∧ (ontoItself → Clean b (moves.map (·.1)) n)) →
            ∃ b1 ahead, Wrote b b1 n ((unit.map (·.2)).zip vals) (fun w => l.fe = 2
                ∧ ((c.done = 0 ∧ ontoItself ∧ reaching (moves.map (·.1)) n w)
                  ∨ ((c.done ≠ 0 ∨ ¬ ontoItself) ∧ c.ahead = [] ∧ reaching (unit.map (·.1)) n w))) d
              ∧ (c.done = 0 → ontoItself → ahead = read moves) ∧ (c.done ≠ 0 ∨ ¬ ontoItself → ahead = c.ahead)
              ∧ (c.done + unit.length < moves.length →
                  rest (fun e => { e with performed := false, done := c.done + unit.length, ahead := ahead }) b1)
              ∧ (moves.length ≤ c.done + unit.length → ends d.addrs d.elemBytes b1))
          ∧ ∀ gather d t i, TableRow b c.op c.lays gather d t i → d.space = 0 → t.space = 0 → c.done < i.addrs.length →
            let rows := (i.addrs.drop c.done).take 32
            (∃ b0, RowsMoved gather d t i c.done rows b b0) →
            ∃ b1, RowsMoved gather d t i c.done rows b b1
              ∧ (c.done + rows.length < i.addrs.length → rest (fun e => { e with performed := false, done := c.done + rows.length }) b1)
              ∧ (i.addrs.length ≤ c.done + rows.length → ends (if gather then d.addrs else []) d.elemBytes b1))
      ∧ (∀ dst src, c.op = .cpy dst src → c.accepted = true → c.performed = false → c.record = none → s.mayRun core c b = true →
          s.faultEntry b.launch c.block ≠ 0 →
          let d := Layout.ofImage (c.lays.getD 0 0)
          let l := Layout.ofImage (c.lays.getD 1 0)
          let faults := fun (kind : Nat) (b' : Block) => ∃ t f done, ∃ ahead : EngCmd → List Nat, exec (.engineFault core c.id ext) s = .next t
            ∧ t = { s with faults := s.faults.put s.nextId f, nextId := s.nextId + 1, cores := t.cores, blocks := t.blocks }
            ∧ f.kind = kind ∧ f.engine = true ∧ f.held = false ∧ f.cmd = some c.id ∧ f.inst = c.word ∧ f.pc = c.pc
            ∧ CmdsBecome s t core ((s.core core).cmds.map fun e =>
                if e.id = c.id then { e with record := some s.nextId, done := done, ahead := ahead e } else e)
            ∧ ∀ j, t.blocks.find? j = if j = c.block then some b' else s.blocks.find? j
          (d.ok b.desc.spad = false ∨ l.ok b.desc.spad = false ∨ d.sameShape l = false ∨ (d.space ≠ 0 ∧ l.space ≠ 0) → faults 0x09 b)
          ∧ (∀ a w, d.ok b.desc.spad = true → l.ok b.desc.spad = true → d.sameShape l = true → d.space = 0 → l.space = 0 → c.ahead = [] →
              a ∈ ((piecesOf l l.addrs).drop c.done).take (4096 / pieceOf l) → inWord a (pieceOf l) w → b.poison.findD false w = true →
            ∃ b', faults 0x0C b' ∧ b' = { b with spad := b'.spad, full := b'.full, poison := b'.poison }
              ∧ (∀ w, b'.poison.findD false w = true ↔ b.poison.findD false w = true ∨ reaching d.addrs d.elemBytes w)
              ∧ ∀ v, (∀ e ∈ d.addrs, v < e ∨ e + d.elemBytes ≤ v) → Memory.read b'.spad v = Memory.read b.spad v)))
    ∧ ∀ k b tiles first cnt since spent, s.blocks.find? k = some b → b.seq.wait = some (.claim tiles first cnt since spent) →
      let named := fun n => first ≤ n ∧ n < first + cnt
      ((∀ n, named n → if tiles = true then (s.core b.core).ac.find? n = none else (s.core b.core).om.find? n = none) →
        ∃ t, exec (.mclaimGrant k) s = .next t
          ∧ t = { s with cores := t.cores, blocks := s.blocks.put k { b with seq := { b.seq with wait := none, pc := b.seq.pc + 4 } } }
          ∧ ∀ j, t.core j = { s.core j with ac := (t.core j).ac, om := (t.core j).om }
            ∧ (∀ n, (t.core j).ac.find? n = if j = b.core ∧ tiles = true ∧ named n
                then some ⟨k, 0, false, false, 0, 0, none, none, []⟩ else (s.core j).ac.find? n)
            ∧ ∀ n, (t.core j).om.find? n = if j = b.core ∧ tiles = false ∧ named n then some ⟨k, .empty, []⟩ else (s.core j).om.find? n)
      ∧ (2 ^ 24 ≤ s.clock b.core - since + spent → b.err = 0 → s.faultEntry b.launch k ≠ 0 →
        ∃ f, exec (.mclaimTimeout k) s = .next { s with
            blocks := s.blocks.put k { b with seq := { b.seq with mode := .halted, pending := none, wait := none, hx := none } }
            scur := none, faults := s.faults.put s.nextId f, nextId := s.nextId + 1 }
          ∧ f.kind = 0x0D ∧ f.held = false ∧ f.pc = b.seq.pc ∧ f.launch = b.launch ∧ f.block = b.linear)

/-- 08 R161 to R164, R170, 14 R271, R277, R278, R280 to R282, R333: a permission read of a waiting split ends with the leaf in the lookaside, or
with a denial noted of an invalid context. A walk that ends caches its granule's translation, claims its frame, and lets the requests that stood
go on. A shootdown takes a range's entries from every core of its partition and what waits have found denied there, and a core acknowledges once what
was checked under them has left; a
domain's drops the translations of the range, writes its Dirty sectors back and drops the rest, and is acknowledged once no write of the range stands
there unresolved. A throttle window's end halves the scores, sets
the cap by hits and misses, and lets the first of its ranking issue, with those that stood denied throughout the window. Choices of the model that it
rests on: log entries 7 and 53. -/
def Obligations.TablesAndThrottle : Prop :=
  ∀ (s : State),
    (∀ k split r p b g den, split < 4 → s.reels.find? k = some r → r.splits.find? split = some p → s.blocks.find? r.block = some b →
      p.wait = some (.perm g den) →
      let d := domainOfCore b.core
      let root := (s.partn (s.domain d).part).ctxtab + 8 * b.ctx
      (∀ c e level, TableWord s d root c → c % 2 = 1 → TablePath s d (g * 65536) (fun _ _ _ => True) 1 (c / 2 ^ 16 % 2 ^ 40 * 2 ^ 16) e level →
        let size := 2 ^ (55 - 13 * level)
        let leaf : LookEntry := ⟨b.ctx, g * 65536 / size * size, size, e.testBit 4, e.testBit 3, e.testBit 2⟩
        ∃ t, exec (.permissionFill k split false) s = .next t ∧ t = { s with cores := t.cores, reels := t.reels }
          ∧ (∀ j, t.reels.find? j = s.reels.find? j)
          ∧ ∀ j, t.core j = { s.core j with look := (t.core j).look } ∧ (j ≠ b.core → (t.core j).look = (s.core j).look)
            ∧ (j = b.core → leaf ∈ (t.core j).look ∧ ∀ o ∈ (t.core j).look, o = leaf ∨ o ∈ (s.core j).look))
      ∧ (∀ c, TableWord s d root c → c % 2 = 0 →
        exec (.permissionFill k split false) s = .next (withReel s k { r with
          splits := r.splits.put split { p with wait := some (.perm g (den ++ [(g, 6)])) } })))
    ∧ (∀ part ctx lo hi,
      let within := fun (a n : Nat) => a < hi ∧ lo < a + n
      let mine := fun (b : Block) => b.part = part ∧ b.ctx = ctx
      ∃ t, exec (.permissionShootdown part ctx lo hi) s = .next t ∧ t = { s with cores := t.cores, reels := t.reels, blocks := t.blocks }
        ∧ (∀ j b, s.blocks.find? j = some b → t.blocks.find? j = some (if mine b then
            { b with seq := { b.seq with wait := b.seq.wait.map (undeniesSeq lo hi) } } else b))
        ∧ (∀ j r b, s.reels.find? j = some r → s.blocks.find? r.block = some b →
          t.reels.find? j = some (if mine b then r.mapWaits (undenies lo hi) else r))
        ∧ ∀ c, (¬ (c < Config.coreCount ∧ (s.domain (domainOfCore c)).part = part) → t.core c = s.core c)
          ∧ (c < Config.coreCount → (s.domain (domainOfCore c)).part = part →
            t.core c = { s.core c with look := (t.core c).look, icache := (t.core c).icache, shoot := (t.core c).shoot }
            ∧ (∀ e, e ∈ (t.core c).look ↔ e ∈ (s.core c).look ∧ ¬ (e.ctx = ctx ∧ within e.lo e.size))
            ∧ (∀ p, p ∈ (t.core c).icache ↔ p ∈ (s.core c).icache ∧ ¬ within (128 * p.1) 128)
            ∧ ∃ ids, (t.core c).shoot = (s.core c).shoot ++ [(ctx, lo, hi, ids)]
              ∧ ∀ p ∈ s.msgs, p.1 ∈ ids ∨ ¬ (p.2.core = c ∧ p.2.arrived = false ∧
                ∃ line, p.2.body.sliceLine = some line ∧ within (128 * line) 128)))
    ∧ (∀ core ctx lo hi ids rest, (s.core core).shoot = (ctx, lo, hi, ids) :: rest →
      (∀ i ∈ ids, ∀ m, s.msgs.find? i = some m → m.arrived = true) →
      ∃ t, exec (.permissionShootdownAck core) s = .next t ∧ t = { s with cores := t.cores }
        ∧ ∀ j, t.core j = if j = core then { s.core j with shoot := rest } else s.core j)
    ∧ (∀ part lo hi, (∀ d, (s.domain d).l2.sorted) →
      let hit := fun (d sec : Nat) => d < Config.domainCount ∧ (s.domain d).part = part ∧ 32 * sec < hi ∧ lo < 32 * sec + 32
      let dirty := fun (d sec : Nat) (h : Held) => hit d sec ∧ (s.sector d sec).held = some h ∧ h.kind = .dirty
      ∃ t done, exec (.translationShootdown part lo hi) s = .next t
        ∧ t = { s with domains := t.domains, mem := t.mem, answer := some (.shootdown done) }
        ∧ (done = true ↔ ∀ d sec, hit d sec → (s.sector d sec).laid = [])
        ∧ (∀ d, t.domain d = { s.domain d with xlats := (t.domain d).xlats, l2 := (t.domain d).l2 }
          ∧ (∀ p, p ∈ (t.domain d).xlats ↔ p ∈ (s.domain d).xlats
            ∧ ¬ (d < Config.domainCount ∧ (s.domain d).part = part ∧ 65536 * p.1 < hi ∧ lo < 65536 * p.1 + 65536))
          ∧ ∀ sec, (hit d sec → (t.sector d sec).held = none ∧ (t.sector d sec).laid = (s.sector d sec).laid)
            ∧ (¬ hit d sec → t.sector d sec = s.sector d sec))
        ∧ (∀ a, (∀ d sec h, dirty d sec h → a < h.pa ∨ h.pa + 32 ≤ a) → Memory.read t.mem a = Memory.read s.mem a)
        ∧ ∀ d sec h, dirty d sec h → (∀ d' sec' h', dirty d' sec' h' → (d' = d ∧ sec' = sec) ∨ h'.pa + 32 ≤ h.pa ∨ h.pa + 32 ≤ h'.pa) →
          Memory.readNat t.mem h.pa 32 = h.data.toNat)
    ∧ (∀ d page e level h, page ∈ (s.domain d).walks.take 48 → s.msgs.sorted → (∀ p ∈ s.msgs, StandsFor p.2 d page → p.2.body.isWrite = false) →
      let q := s.partn (s.domain d).part
      let va := page * 2 ^ 16
      let out := bitsOf e 55 16 * 2 ^ 16 + va % 2 ^ (55 - 13 * level)
      let frame := (s.domain h).frames + 8 * bitsOf out 37 16
      TablePath s d va xlatOk 1 q.xlat1 e level → q.xlat2 = 0 → s.place out = .home h → s.exists? out = true →
      q.conn.getLsbD (s.domain h).part = true → (s.domain d).xlats.length < 65536 →
      ((s.physRead frame 8).testBit 63 = false ∨ bitsOf (s.physRead frame 8) 54 16 = page) →
      ∃ t, exec (.translationWalkComplete d page 0) s = .next t
        ∧ t = { s with domains := t.domains, msgs := t.msgs, mem := t.mem, nextId := t.nextId }
        ∧ (∀ j, t.domain j = { s.domain j with
            l2 := (t.domain j).l2, dir := (t.domain j).dir, walks := (t.domain j).walks, xlats := (t.domain j).xlats })
        ∧ (∀ j, j ≠ d → (t.domain j).walks = (s.domain j).walks ∧ (t.domain j).xlats = (s.domain j).xlats)
        ∧ (t.domain d).walks = (s.domain d).walks.filter (· != page)
        ∧ (t.domain d).xlats = (s.domain d).xlats.put page
            ⟨out, bitsOf e 63 62, (match bitsOf e 61 60 with | 0 => 32 | 1 => 128 | _ => 512), e.testBit 59⟩
        ∧ (∀ k m, s.msgs.find? k = some m → k < s.nextId → (StandsFor m d page → t.msgs.find? k = some { m with arrived := false })
          ∧ (¬ StandsFor m d page → t.msgs.find? k = some m))
        ∧ ((s.physRead frame 8).testBit 63 = true →
          t.mem = s.mem ∧ t.nextId = s.nextId ∧ ∀ j, (t.domain j).l2 = (s.domain j).l2 ∧ (t.domain j).dir = (s.domain j).dir)
        ∧ ((s.physRead frame 8).testBit 63 = false → page < 2 ^ 39 → (s.domain d).part < 16 → frame % 8 = 0 →
          t.physRead frame 8 = 2 ^ 63 + page * 2 ^ 16 + (s.domain d).part * 2 ^ 12
            ∧ (∀ a, a < frame ∨ frame + 8 ≤ a → t.physRead a 1 = s.physRead a 1)
            ∧ ∀ a, a < frame ∨ frame + 8 ≤ a → Memory.read t.mem a = Memory.read s.mem a))
    ∧ ∀ core, core < Config.coreCount → (s.core core).windowStart + 1024 ≤ s.clock core →
      let c := s.core core
      ∃ (t : State) (c' : Core), exec (.victimRecompute core) s = .next t ∧ t = { s with cores := t.cores }
        ∧ (∀ j, t.core j = if j = core then c' else s.core j)
        ∧ c' = { c with
            scores := c'.scores, allowed := c'.allowed, extra := c'.extra, hits := 0, misses := 0, slotHits := [], windowStart := s.clock core
            cap := if c.misses < 8 * c.hits then max 1 (c.cap / 2) else if 32 * c.hits < c.misses then min 32 (c.cap + 2) else c.cap }
        ∧ (∀ i, i < 32 → c'.scores.findD 0 i = min 65535 (c.scores.findD 0 i / 2 + c.slotHits.findD 0 i))
        ∧ (∀ i ∈ c'.allowed, s.eligible core i = true ∧ i < 32) ∧ c'.allowed.length ≤ c'.cap
        ∧ (∀ j, j < 32 → s.eligible core j = true → j ∉ c'.allowed → c'.allowed.length = c'.cap ∧ ∀ i ∈ c'.allowed, ranksBefore c' i j)
        ∧ ∀ i, i ∈ c'.extra ↔ i ∉ c'.allowed ∧ i ∉ s.allowedNow core ∧ ∃ p ∈ c.denied, p.1 = i ∧ p.2 ≤ c.windowStart

/-! ## Fault records and failures -/

namespace Sys2Proof.Rows

/-- The state with a transient error logged, and its time (08 R174, 18 R334). -/
def logs (s : State) (e : ErrSite) : State := { s with errLog := s.errLog ++ [(s.time, e)] }

/-- State `s` with what the writing of a Banner may change taken from `t`: its bytes, what its home does with the write, and the generation. -/
def bannered (s t : State) : State := { s with wafer := t.wafer, mem := t.mem, domains := t.domains, msgs := t.msgs, nextId := t.nextId }

/-- A new Banner generation: the number rises, and the Banner's header in memory says it (18 R323, R325). -/
def NewGeneration (s t : State) : Prop :=
  t.wafer.gen = s.wafer.gen + 1 ∧ t.wafer.gstart = s.wafer.gen + 1
    ∧ bitsOf (Memory.readNat t.mem t.mgmt.banner 2080) 63 32 = (s.wafer.gen + 1) % 2 ^ 32

/-- An offset of a domain's DRAM lies in a range that is lost (18 R334). -/
def Lost (q : Domain) (o : Nat) : Prop := ∃ r ∈ q.lostRanges, r.1 ≤ o ∧ o < r.1 + r.2

/-- A ring slot is the next: the first from the one after that last written whose address no record takes (14 R287). -/
def NextSlot (s : State) (part i : Nat) : Prop :=
  let p := s.partn part
  let taken := fun (k : Nat) => (p.fringBase + 256 * k) % 2 ^ 55 ∈ s.ringTaken part
  ∃ j, j < p.fringSize ∧ i = (p.fringNext + j) % p.fringSize ∧ ¬ taken i ∧ ∀ k, k < j → taken ((p.fringNext + k) % p.fringSize)

/-- The fields of a record's 256 bytes: lowest bit, width, value (14 R285). -/
def recordFields (f : FaultRec) : List (Nat × Nat × Nat) :=
  [(0, 8, f.kind), (8, 1, f.exited.toNat), (9, 1, f.load.toNat), (10, 1, f.store.toNat), (11, 1, f.engine.toNat), (13, 1, f.hmode.toNat),
    (14, 1, f.held.toNat), (16, 12, f.context), (28, 4, f.part), (32, 32, f.launch), (64, 32, f.block), (96, 16, f.lcore), (112, 16, f.pcore),
    (128, 32, f.bangen), (160, 5, f.reel), (168, 8, f.detail), (176, 16, f.seq), (192, 20, f.skid), (224, 32, f.inst.toNat), (256, 64, f.pc.toNat),
    (320, 32, f.lanes.toNat), (384, 55, f.va), (448, 55, f.line), (512, 56, f.pa), (576, 2, f.level), (578, 1, f.stage.toNat),
    (608, 32, f.aux.toNat), (896, 128, f.bmask.toNat), (1024, 1024, f.image.toNat)]

end Sys2Proof.Rows


/-- 14 R285, R287, R288, R290, R292: the oldest deliverable record of a ring that has a free slot is written there and stands delivered at its
address. A record holds its fields at the bits the spec gives them. The secure management core forwards a record to its ring, or resolves one that
holds no reel. The service block of a delivered record, or of one that a kill has resolved since and left its slot, starts with one reel at the
launch's fault entry, all lanes, and serves that record. Choices of the model that it rests on: log entries 15, 34 and 36. -/
def Obligations.FaultService : Prop :=
  (∀ f : FaultRec, ∀ e ∈ recordFields f, f.encode / 2 ^ e.1 % 2 ^ e.2.1 = e.2.2 % 2 ^ e.2.1)
    ∧ ∀ (s : State) (id : Nat) (f : FaultRec), s.faults.find? id = some f →
      let part := (s.domain f.dom).part
      let p := s.partn part
      (∀ i u, f.state = .waiting → s.savedRec f = false → p.fringBase ≠ 0 → NextSlot s part i →
          (∀ g ∈ s.faults, g.1 < id → s.deliverable g.2 = true → s.ringPart g.2 ≠ part) →
          let a := (p.fringBase + 256 * i) % 2 ^ 55
          s.ringWrite f.dom ((deviceImages a 256 f.encode).map (·.2)) = .ok u →
        ∃ t, exec (.faultRecordDelivery id) s = .next t
          ∧ t = { u with faults := u.faults.put id { f with state := .delivered, addr := a, slotTaken := true }, parts := t.parts }
          ∧ ∀ j, t.partn j = if j = part then { p with fringNext := (i + 1) % p.fringSize } else u.partn j)
      ∧ (∀ mode, f.state = .secure → 3 ≤ mode →
        exec (.secureCoreResolve id mode) s = .next { s with faults := s.faults.put id { f with state := .waiting } })
      ∧ (∀ mode, f.state = .secure → mode < 3 → f.kind ≤ 3 → f.engine = false → f.loadId = none → f.sid = none → f.reelKey = none →
        exec (.secureCoreResolve id mode) s = .next { s with faults := s.faults.put id { f with state := .resolved, slotTaken := false } })
      ∧ ∀ l c r slot rest, f.state = .delivered ∨ (f.state = .resolved ∧ f.slotTaken = true) → f.served = false → s.launches.find? f.launch = some l → l.verdict = none →
          s.switchedOut l.part l.ctx = false → s.dispatching = true → r.slots = [slot] → slot < 32 →
          s.gangSpots l.part f.dom 1 { l.desc with reels := 1, spad := 0 } = some ((c, r) :: rest) →
        ∃ t b q, exec (.faultServiceBlockStart id) s = .next t
          ∧ t = { s with
              reels := t.reels, blocks := t.blocks, cores := t.cores, domains := t.domains, msgs := t.msgs, nextId := t.nextId
              faults := s.faults.put id { f with served := true } }
          ∧ (∀ k, t.blocks.find? k = if k = 32 * c + slot then some b else s.blocks.find? k)
          ∧ (∀ k, t.reels.find? k = if k = 32 * c + slot then some q else s.reels.find? k)
          ∧ b.service = some id ∧ b.fsrec = f.addr ∧ b.core = c ∧ b.launch = f.launch ∧ b.linear = f.block ∧ b.ctx = l.ctx ∧ b.part = l.part
          ∧ b.desc = { l.desc with reels := 1, spad := 0 } ∧ b.spad = [] ∧ b.sems = [] ∧ b.barriers = [] ∧ b.lays = []
          ∧ q.block = 32 * c + slot ∧ q.splits = [(0, ⟨BitVec.ofNat 55 l.desc.fault, BitVec.allOnes 32, [], false, false, none, none⟩)]
          ∧ (q.sget 2).toNat = l.pkt.args % 2 ^ 32 ∧ (q.sget 3).toNat = l.pkt.args / 2 ^ 32 % 2 ^ 32
          ∧ q.v = [] ∧ q.k = [] ∧ q.ld = 0 ∧ q.st = 0 ∧ q.handler = false

/-- 08 R174, 18 R318 to R320, R325, R331, R334, R335, R337: failures. A single-bit error is logged and changes nothing else; a double one in a cache
drops the line or entry it hit and is logged; one that comes again fences the core. A lasting error of a link fences it, and the last of a direction
takes the boundary out; one of a DRAM channel takes its range, unless it is lost already; a domain's unit, or a third heartbeat missed in a row,
fences the domain: each makes a new generation, and an error that does not last is logged. A failed regulator loses the slice. A fenced router
acknowledges an invalidation, confirms a store that has outlived its core there, and refuses a write. A route changes with nothing under way on it.
Choices of the model that it rests on: log entries 48, 49, 50 and 51. -/
def Obligations.Failures : Prop :=
  ∀ (s : State),
    (∀ core place again, core < Config.coreCount →
      let logged := logs s (.core core place)
      let only := fun (c' : Core) => ∃ t, exec (.eccError core place true again) s = .next t ∧ t = { logged with cores := t.cores }
        ∧ ∀ j, t.core j = if j = core then c' else s.core j
      let c := s.core core
      exec (.eccError core place false again) s = .next logged
      ∧ (∀ sec, place = .l1 sec → again = false → only { c with l1 := c.l1.filter fun p => p.1 / 4 != sec / 4 })
      ∧ (∀ line, place = .icache line → again = false → only { c with icache := c.icache.del line })
      ∧ (∀ i, place = .lookaside i → only { c with look := c.look.eraseIdx i })
      ∧ (∀ i, place = .victim i → only { c with victims := c.victims.eraseIdx i })
      ∧ (∀ sec, place = .l1 sec → again = true →
        ∃ t, exec (.eccError core place true again) s = .next t ∧ (t.core core).live = false ∧ NewGeneration s t))
    ∧ (∀ boundary dir, boundary < 112 → dir < 2 →
      let k := 2 * boundary + dir
      let n := s.wafer.linksLost.findD 0 k
      exec (.linkError boundary dir false) s = .next (logs s (.link boundary dir))
      ∧ (n + 1 < 22 → exec (.linkError boundary dir true) s = .next { s with
          wafer := { s.wafer with linksLost := s.wafer.linksLost.put k (n + 1) } })
      ∧ (n + 1 = 22 → s.wafer.blive.getLsbD boundary = true →
        ∃ t, exec (.linkError boundary dir true) s = .next t ∧ t = bannered s t
          ∧ NewGeneration s t ∧ t.wafer.linksLost = s.wafer.linksLost.put k 22
          ∧ ∀ j, t.wafer.blive.getLsbD j = (s.wafer.blive.getLsbD j && j != boundary)))
    ∧ (∀ d first size, d < 64 →
      let n := min size (2 ^ 35 - first)
      let known := n = 0 ∨ ∃ r ∈ (s.domain d).lostRanges, r.1 ≤ first ∧ first + n ≤ r.1 + r.2
      exec (.dramChannelError d first size false) s = .next (logs s (.channel d first n))
      ∧ (known → exec (.dramChannelError d first size true) s = .next s)
      ∧ (¬ known → ∃ t, exec (.dramChannelError d first size true) s = .next t ∧ t = bannered s t
        ∧ NewGeneration s t ∧ ∀ o, Lost (t.domain d) o ↔ Lost (s.domain d) o ∨ (first ≤ o ∧ o < first + n)))
    ∧ (∀ d, d < 64 →
      exec (.domainUnitError d false) s = .next (logs s (.unit d))
      ∧ ((s.domain d).fenced = false →
        ∃ t, exec (.domainUnitError d true) s = .next t ∧ (t.domain d).fenced = true ∧ t.wafer.gen = s.wafer.gen + 1)
      ∧ ((s.domain d).fenced = false → (s.domain d).regFailed = false →
        ∃ t, exec (.heartbeat d) s = .next t ∧ t = { s with domains := t.domains }
          ∧ ∀ j, t.domain j = if j = d then { s.domain j with missed := 0, beatAt := s.time } else s.domain j)
      ∧ ((s.domain d).fenced = false → (s.domain d).beatAt + 25000 ≤ s.time →
        ((s.domain d).missed + 1 < 3 →
          ∃ t, exec (.heartbeatMissed d) s = .next t ∧ t = { s with domains := t.domains }
            ∧ ∀ j, t.domain j = if j = d then { s.domain j with missed := (s.domain d).missed + 1, beatAt := s.time } else s.domain j)
        ∧ (3 ≤ (s.domain d).missed + 1 →
          ∃ t, exec (.heartbeatMissed d) s = .next t ∧ (t.domain d).fenced = true ∧ t.wafer.gen = s.wafer.gen + 1))
      ∧ (∃ t, exec (.regulatorFailure d) s = .next t ∧ t = { s with domains := t.domains }
        ∧ ∀ j, t.domain j = if j = d then { s.domain j with
            regFailed := true, l2 := [], dir := [], xlats := [], walks := [], counts := [], slots := [], snoop := [], biOut := [] }
          else s.domain j)
      ∧ ∀ dst entry, dst < 64 → (∀ p ∈ s.msgs, ¬ (p.2.src = d ∧ p.2.dst = dst)) →
        ∃ t, exec (.routeChange d dst entry) s = .next t ∧ t = { s with domains := t.domains }
          ∧ ∀ j, t.domain j = if j = d then { s.domain j with
              routes := (s.domain j).routes.put dst (BitVec.ofNat 64 entry &&& 0xFE00FFFFFFFFFFFF) } else s.domain j)
    ∧ ∀ k m, s.msgs.find? k = some m → (s.domain m.dst).fenced = true →
      (∀ va grain whom, m.body = .inval va grain whom →
        exec (.fencedRouterAnswer k) s = .next (relayed s k ⟨m.dst,
          (match whom with | .store sid => (s.stores.find? sid).elim m.src fun o => domainOfCore o.core | _ => m.src), 0, false, .ack whom⟩))
      ∧ (∀ sid line, m.body = .confirm sid line →
        ∃ t, exec (.fencedRouterAnswer k) s = .next t ∧ t = { s with msgs := s.msgs.del k, stores := t.stores, reels := t.reels }
          ∧ (∀ o, s.stores.find? sid = some o → Progressed s t sid { o with lines := o.lines.adjust line fun _ => .confirmed })
          ∧ (s.stores.find? sid = none → t.stores = s.stores ∧ t.reels = s.reels))
      ∧ ∀ sid i e o, m.body = .homeWrite sid i e → s.stores.find? sid = some o → o.eng = false → s.faultEntry o.launch o.block ≠ 0 →
        ∃ t f id, exec (.fencedRouterAnswer k) s = .next t
          ∧ t = { s with
              msgs := s.msgs.del k, faults := s.faults.put id f, stores := t.stores, reels := t.reels, domains := t.domains
              cores := t.cores, nextId := t.nextId }
          ∧ f.kind = 0x16 ∧ f.store = true ∧ f.pa = e.at (128 * i.line) ∧ f.va = i.lowest ∧ f.lanes = i.lanes ∧ f.bmask = i.mask ∧ f.sid = some sid
          ∧ f.inst = o.inst ∧ f.pc = o.pc ∧ f.seq = o.seq.toNat
          ∧ ∀ u, t.stores.find? sid = some u → ∀ st, u.lines.find? i.line = some st → st = .faulted id

/-! ## Launches, dispatch and pre-emption -/

namespace Sys2Proof.Rows

/-- An agent's read through a context's tables in a partition, of `n` bytes, which brings `x` and changes nothing. -/
def AgentReads (s : State) (part ctx va n : Nat) (ext : List (Nat × Nat)) (x : Nat) : Prop :=
  s.deviceRead (agentCore (s.domOfPart part)) ctx va n ext = (s, .ok x)

/-- The launch identifier after a count: 0 and 0xFFFFFF00 to 0xFFFFFFFF are skipped (19 R342). -/
def idAfter (n : Nat) : Nat := if n % 2 ^ 32 = 0 ∨ 0xFFFFFF00 ≤ n % 2 ^ 32 then 1 else n % 2 ^ 32

/-- The fields of a packet's 1,024 bits (19 R338). -/
def PacketHolds (p : Packet) (x : Nat) : Prop :=
  p.kdesc = bitsOf x 54 0 ∧ p.args = bitsOf x 118 64 ∧ p.err = bitsOf x 246 192 ∧ p.nx = bitsOf x 287 256 ∧ p.ny = bitsOf x 319 288
    ∧ p.nz = bitsOf x 351 320 ∧ p.limit = bitsOf x 383 352 ∧ p.haddr = bitsOf x 438 384 ∧ p.hstride = sxNat (bitsOf x 479 448) 32
    ∧ p.cls = bitsOf x 481 480 ∧ p.hmode = bitsOf x 483 482 ∧ p.prio = bitsOf x 486 484 ∧ p.after = x.testBit 487
    ∧ p.gang = bitsOf x 489 488 + 1 ∧ p.irq = x.testBit 490

/-- A slot that offers a priority is served next: no slot offers a higher one, and of those that offer the same none comes before it in rotation from
the slot after that served last (19 R344). -/
def ServedNext (s : State) (slot prio : Nat) (ext : List (Nat × Nat)) : Prop :=
  ∀ o ∈ s.offers ext, o.2 < prio ∨ (o.2 = prio ∧ (slot + 127 - s.servedSlot) % 64 ≤ (o.1 + 127 - s.servedSlot) % 64)

/-- Launch `l`, queued, may be admitted now: the dispatcher works, no earlier one of its queue holds it back, and its slot is served next, unless it
is a device launch or has waited for room before (19 R339, R343 to R345). -/
def Admissible (s : State) (id : Nat) (l : Launch) (ext : List (Nat × Nat)) : Prop :=
  s.launches.find? id = some l ∧ l.state = .queued ∧ l.verdict = none ∧ s.dispatching = true ∧ s.mustWait id l = false
    ∧ (l.waits = true ∨ ∀ r, l.queue = some r → ServedNext s r.slot l.prio ext)

/-- The state with the slot of a launch served (19 R344). -/
def servedBy (s : State) (l : Launch) : State := { s with servedSlot := (l.queue.map (·.slot)).getD s.servedSlot }

/-- A launch was taken from the queue of a slot's binding (19 R343). -/
def OfQueue (b : QueueBind) (l : Launch) : Prop := l.part = b.part ∧ ∃ r, l.queue = some r ∧ r.desc = b.desc

/-- The completion word of a launch, written before a count of messages, is still on its way to its home (21 R375). -/
def OnWay (s : State) (l : Launch) (mark : Nat) : Prop :=
  ∃ p ∈ s.msgs, p.1 < mark ∧ ∃ i e, p.2.body = .homeWrite 0 i e ∧ i.line = l.pkt.cw / 128

/-- The state with a queue bound to a slot, its pending bit clear (19 R344, 21 R374). -/
def boundTo (s : State) (slot : Nat) (b : QueueBind) : State :=
  { s with nextId := s.nextId + 1, queues := s.queues.put slot { b with boundAt := s.nextId }
           mgmt := { s.mgmt with pendingBells := s.mgmt.pendingBells.filter (· != b.reg) } }

/-- A reel at its block's start: all lanes at the kernel's entry, the argument address in s2:s3, every other register and counter 0 (04 R77, 08
R165). -/
def StartsAt (q : Reel) (block idx entry args xvec : Nat) : Prop :=
  q.block = block ∧ q.idx = idx ∧ q.splits = [(0, ⟨BitVec.ofNat 55 entry, BitVec.allOnes 32, [], false, false, none, none⟩)]
    ∧ (∀ n, (q.sget n).toNat = if n = 2 then args % 2 ^ 32 else if n = 3 then args / 2 ^ 32 % 2 ^ 32 else 0)
    ∧ q.v = [] ∧ q.k = [] ∧ q.ld = 0 ∧ q.st = 0 ∧ q.eng = 0 ∧ q.mx = 0 ∧ q.tcr = 0 ∧ q.fflags = [] ∧ q.handler = false ∧ q.exited = false
    ∧ q.xvec.toNat = xvec % 2 ^ 32 ∧ q.xvechi.toNat = xvec / 2 ^ 32 % 2 ^ 23

end Sys2Proof.Rows


/-- 04 R77, R100, 08 R151, 19 R338 to R347, R350 to R353, 21 R373 to R375: launches. A packet of the queue whose slot is served next, by priority
and in rotation, none of that queue being taken and not yet admitted, is entered with the next identifier and its slot's context, partition and
capped priority, and rd advances; another stays in its ring. Admission drops a launch whose completion word cannot be written, refuses a malformed
packet, descriptor, gang or grid with its detail, and admits the rest. A gang's blocks start on the cores found for it, their reels at the entry. A
block ends when its reels have exited; a launch completes when nothing of it is left: its word is written, and once it stands at its home the host
is signalled. Past its limit it is killed. Doorbells, the pending queues and system software bind queues to slots. The packet a `launch` has read is
entered with its own context and partition and at most its launch's priority, unless it is malformed or 256 wait, which its register says. Choices
of the model that it rests on: log entries 4, 18, 37, 42, 43, 44 and 45. -/
def Obligations.Launches : Prop :=
  ∀ (s : State),
    (∀ slot ext b x, s.queues.find? slot = some b → b.collective = false → s.dispatching = true → AgentReads s b.part b.ctx b.desc 32 ext x →
      let rd := bitsOf x 191 160
      let reads := fun (y : Nat) => AgentReads s b.part b.ctx ((bitsOf x 54 0 + 128 * (rd % 2 ^ (bitsOf x 67 64 + 4))) % 2 ^ 55) 128 ext y
      let taken := ∃ l ∈ s.launches, OfQueue b l.2 ∧ l.2.state = .queued
      let next := fun (y : Nat) => (y.testBit 487 = true ∧ ∃ l ∈ s.launches, OfQueue b l.2) ∨ ServedNext s slot (min (bitsOf y 486 484) b.cap) ext
      (rd = bitsOf x 159 128 ∨ taken → exec (.queueTakePacket slot ext) s = .next s)
      ∧ (∀ y, rd ≠ bitsOf x 159 128 → reads y → ¬ next y → exec (.queueTakePacket slot ext) s = .next s)
      ∧ (∀ y u, rd ≠ bitsOf x 159 128 → reads y → ¬ taken → next y →
          s.deviceWrite (agentCore (s.domOfPart b.part)) b.ctx (b.desc + 20) 4 ((rd + 1) % 2 ^ 32) = .ok u →
        ∃ l, exec (.queueTakePacket slot ext) s = .next { u with
            launches := u.launches.put (idAfter u.nextLaunch) l, nextLaunch := idAfter (idAfter u.nextLaunch + 1), nextId := u.nextId + 1 }
          ∧ PacketHolds l.pkt y ∧ l.state = .queued ∧ l.ctx = b.ctx ∧ l.part = b.part ∧ l.prio = min l.pkt.prio b.cap
          ∧ l.queue = some ⟨b.reg, b.desc, slot, u.nextId⟩ ∧ l.npf = b.npf ∧ l.vector = b.vector ∧ l.verdict = none ∧ l.ended = []))
    ∧ (∀ id l ext, Admissible s id l ext →
      let s' := servedBy s l
      let becomes := fun (l' : Launch) => exec (.launchAdmit id ext) s = .next { s' with launches := s.launches.put id l' }
      let dropped := ∃ t, exec (.launchAdmit id ext) s = .next t ∧ t = { s' with launches := s.launches.del id, refusals := t.refusals }
        ∧ ∀ j, t.refusals.findD 0 j = s.refusals.findD 0 j + if (l.queue.map (·.reg)) = some j then 1 else 0
      let refused := fun (detail : Nat) => becomes { l with state := .admitted, verdict := some (3, detail, 0) }
      let grid := l.pkt.nx * l.pkt.ny * l.pkt.nz
      (l.pkt.cwOk = false → dropped)
      ∧ (∀ kind va x, l.pkt.cwOk = true → s'.cwStop l = some (.fault kind va x) → dropped)
      ∧ (l.pkt.cwOk = true → s'.cwStop l = none →
        (l.pkt.malformed = true → refused 2)
        ∧ ∀ x, l.pkt.malformed = false → AgentReads s' l.part l.ctx l.pkt.kdesc 64 ext x →
          (badDesc x = true → refused 1)
          ∧ (badDesc x = false → grid % l.pkt.gang ≠ 0 → refused 4)
          ∧ (badDesc x = false → s'.badGang l.part l.pkt = false → l.pkt.cls ≠ 0 →
            becomes { l with
              state := .admitted, admitAt := s.time
              desc := ⟨bitsOf x 307 288, bitsOf x 271 264, bitsOf x 263 256, bitsOf x 246 192, bitsOf x 182 128, bitsOf x 118 64, bitsOf x 54 0⟩ })))
    ∧ (∀ id l ext first h spots, s.launches.find? id = some l → l.state = .admitted → l.verdict = none → l.replay = [] → l.nextBlock = first →
      first < l.pkt.nx * l.pkt.ny * l.pkt.nz → s.switchedOut l.part l.ctx = false → s.dispatching = true →
      s.hintDomain l first ext = (s, .ok h) → s.gangSpots l.part h l.pkt.gang l.desc = some spots → spots.length = l.pkt.gang →
      (spots.map (·.1)).Nodup →
      (∀ e ∈ spots, e.2.slots ≠ [] ∧ e.2.slots.length = l.desc.reels ∧ e.2.slots.Nodup ∧ ∀ i ∈ e.2.slots, i < 32) →
      let key := fun (e : Nat × Room) => 32 * e.1 + e.2.slots.headD 0
      ∃ t, exec (.blockStart id ext) s = .next t
        ∧ t = { s with
            reels := t.reels, blocks := t.blocks, cores := t.cores, domains := t.domains, msgs := t.msgs, nextId := t.nextId
            launches := s.launches.put id { l with nextBlock := first + l.pkt.gang } }
        ∧ (∀ i e, spots[i]? = some e → ∃ b, t.blocks.find? (key e) = some b
          ∧ b.launch = id ∧ b.linear = first + i ∧ b.core = e.1 ∧ b.ctx = l.ctx ∧ b.part = l.part ∧ b.prio = l.prio ∧ b.desc = l.desc
          ∧ b.gang = spots.map key ∧ b.member = i ∧ b.grid = (l.pkt.nx, l.pkt.ny, l.pkt.nz)
          ∧ b.coord = ((first + i) % l.pkt.nx, (first + i) / l.pkt.nx % l.pkt.ny, (first + i) / (l.pkt.nx * l.pkt.ny))
          ∧ b.spad = [] ∧ b.full = [] ∧ b.barriers = [] ∧ b.sems = [] ∧ b.lays = [] ∧ b.loop.isOpen = false ∧ b.seq.mode = .idle
          ∧ ∀ j r, e.2.slots[j]? = some r → ∃ q, t.reels.find? (32 * e.1 + r) = some q
            ∧ StartsAt q (key e) j l.desc.entry l.pkt.args l.desc.xvec)
        ∧ (∀ k, (∀ e ∈ spots, k ≠ key e) → t.blocks.find? k = s.blocks.find? k)
        ∧ ∀ k, (∀ e ∈ spots, k / 32 ≠ e.1 ∨ k % 32 ∉ e.2.slots) → t.reels.find? k = s.reels.find? k)
    ∧ (∀ k b, s.blocks.find? k = some b → b.service = none → s.reels.sorted → b.seq.mode ≠ .running → b.seq.pending = none →
      (∀ p ∈ s.reels, p.2.block = k → p.2.exited = true ∨ p.2.killed = true) → (∀ c ∈ (s.core b.core).cmds, c.block ≠ k) →
      ∃ t, exec (.blockEnd k) s = .next t
        ∧ t = { s with
            stores := t.stores, faults := t.faults, preempts := t.preempts, blocks := t.blocks, reels := t.reels, cores := t.cores
            launches := t.launches, saved := t.saved }
        ∧ t.blocks.find? k = none
        ∧ (∀ j, j ≠ k → t.blocks.find? j = (s.blocks.find? j).map fun o => { o with
            gang := o.gang.map fun i => if i = k then 2 ^ 60 else i
            gangPublished := o.gangPublished || (o.gang.contains k && b.published) })
        ∧ (∀ j, t.reels.find? j = (s.reels.find? j).bind fun r => if r.block = k then none else some r)
        ∧ (∀ j, t.launches.find? j = (s.launches.find? j).map fun l =>
            if j = b.launch then { l with ended := if b.linear ∈ l.ended then l.ended else l.ended ++ [b.linear] } else l)
        ∧ ∀ n o, (s.core b.core).om.sorted → (t.core b.core).om.find? n = some o → o.owner ≠ k)
    ∧ (∀ id l mark, s.launches.find? id = some l → l.state = .written mark →
      (OnWay s l mark → exec (.launchComplete id) s = .next s)
      ∧ (¬ OnWay s l mark → exec (.launchComplete id) s = .next { s with
        launches := s.launches.del id, faults := s.faults.keep fun _ f => f.launch != id
        irqs := if l.pkt.irq = true then s.irqs ++ [l.vector] else s.irqs }))
    ∧ (∀ id l u, s.launches.find? id = some l → (∀ mark, l.state ≠ .written mark) → s.launchDone id l = true → l.pkt.cwOk = true →
      (let v := match l.verdict with | some v => v | none => (1, 0, 0)
       s.deviceWrite (agentCore (s.domOfPart l.part)) l.ctx l.pkt.cw 8 (v.1 + v.2.1 * 2 ^ 8 + v.2.2 * 2 ^ 16 + id % 2 ^ 32 * 2 ^ 32) = .ok u) →
      (OnWay u l u.nextId → exec (.launchComplete id) s = .next { u with
        launches := u.launches.adjust id fun l => { l with state := .written u.nextId } })
      ∧ (¬ OnWay u l u.nextId → exec (.launchComplete id) s = .next { u with
        launches := u.launches.del id, faults := u.faults.keep fun _ f => f.launch != id
        irqs := if l.pkt.irq = true then u.irqs ++ [l.vector] else u.irqs }))
    ∧ (∀ id l, s.launches.find? id = some l → l.state = .admitted → l.verdict = none → l.pkt.limit ≠ 0 →
      l.admitAt + l.pkt.limit * 2500 ≤ s.time →
      ∃ t l', exec (.launchTimeLimit id) s = .next t ∧ t.launches.find? id = some l' ∧ (s.saved = [] → t.mem = s.mem)
        ∧ l' = { l with verdict := some (5, 0, 0), leaving := l'.leaving }
        ∧ (∀ k b, s.blocks.find? k = some b → b.launch = id → ∃ b', t.blocks.find? k = some b' ∧ b'.seq = Seq.idle ∧ b'.spad = b.spad)
        ∧ ∀ k r b, s.reels.find? k = some r → s.blocks.find? r.block = some b → b.launch = id → r.exited = false → r.killed = false →
          ∃ r', t.reels.find? k = some r' ∧ r'.killed = true ∧ r'.splits = [] ∧ r'.loads = [] ∧ r'.v = r.v ∧ r'.s = r.s)
    ∧ (∀ n ext, n < 1024 →
      let s' := { s with mgmt := { s.mgmt with rung := s.mgmt.rung.filter (· != n) } }
      let runs := exec (.doorbellWrite n ext) s
      (s.mgmt.ready = false → runs = .next { s' with mgmt := { s'.mgmt with cxFenced := s.mgmt.cxFenced + 1 } })
      ∧ (s.mgmt.ready = true → s'.registration n = none → runs = .next { s' with mgmt := { s'.mgmt with cxDropped := s.mgmt.cxDropped + 1 } })
      ∧ ∀ b, s.mgmt.ready = true → s'.registration n = some b →
          (b.collective = true → runs = .next { s' with queues := s.queues.put (64 + n) b })
          ∧ ∀ i, b.collective = false → (∀ q ∈ s.queues, q.1 < 64 → q.2.reg ≠ b.reg) → i < 64 → s.queues.find? i = none →
              (∀ j, j < i → s.queues.find? j ≠ none) → runs = .next (boundTo s' i b))
    ∧ (∀ n rest b i ext, s.mgmt.pendingBells = n :: rest →
      let s' := { s with mgmt := { s.mgmt with pendingBells := rest } }
      s'.registration n = some b → (∀ q ∈ s.queues, q.1 < 64 → q.2.reg ≠ b.reg) →
      i < 64 → s.queues.find? i = none → (∀ j, j < i → s.queues.find? j ≠ none) →
      exec (.pendingQueueBind ext) s = .next (boundTo s' i b))
    ∧ (∀ k r o reg x b, Performed s k r o → r.exited = false → o.dst = .launch reg → o.packet = some x → s.blocks.find? r.block = some b →
      let ends := fun (t : State) (v : Word) =>
        exec (.loadReturn k o.id) s = .next { t with reels := s.reels.put k { returned r o with s := (r.sset reg v).s } }
      let p := Packet.ofNat x
      (p.malformed = true → ends s 0xFFFFFF01)
      ∧ (p.malformed = false → 256 ≤ s.devicePending → ends s 0xFFFFFF02)
      ∧ (p.malformed = false → s.devicePending < 256 →
        ∃ l, ends { s with launches := s.launches.put (idAfter s.nextLaunch) l, nextLaunch := idAfter (idAfter s.nextLaunch + 1) }
            (BitVec.ofNat 32 (idAfter s.nextLaunch))
          ∧ PacketHolds l.pkt x ∧ l.state = .queued ∧ l.ctx = b.ctx ∧ l.part = b.part ∧ l.queue = none ∧ l.verdict = none
          ∧ ∀ parent, s.launches.find? b.launch = some parent → l.prio = min l.pkt.prio parent.prio))
    ∧ ∀ slot desc ctx part cap npf, slot < 64 →
      exec (.slotBindingWrite slot desc ctx part cap npf false) s = .next { s with queues := s.queues.del slot }
      ∧ ((∀ n b, n < 1024 → s.registration n = some b → b.desc ≠ desc % 2 ^ 55 ∨ b.collective = true) →
        exec (.slotBindingWrite slot desc ctx part cap npf true) s = .next
          (boundTo s slot ⟨1024 + slot, desc % 2 ^ 55, false, ctx % 2 ^ 12, part % 16, cap % 8, npf, 0, 0, false⟩))

/-- 19 R354 to R359: pre-emption. A request of system software that its save area can hold stands with the context's blocks; one that cannot, or of
a context already off the cores, is refused. Past the grace time its reels stop. With every access come, its blocks are saved and off their cores,
which have power, and the request is answered 0. Past the kill time their launches are killed with status 4, and it is answered 2. A slice's end
asks a resident context to make way for one of equal priority that waits. A restored block comes back with its scratchpad, semaphores, layouts and
registers as its image in memory holds them, where it has one, else as they were saved. Choices of the model that it rests on: log entries 9, 38,
39, 40 and 41. -/
def Obligations.Preemption : Prop :=
  ∀ (s : State),
    (∀ part ctx base size,
      let keys := (s.blocks.filter fun b => b.2.part == part && b.2.ctx == ctx).map (·.1)
      (s.switchedOut part ctx = true ∨ s.areaFits keys (base, size) = false →
        exec (.contextSwitchRequest part ctx base size) s = .next { s with answer := some (.preempt part ctx 1) })
      ∧ (s.switchedOut part ctx = false → s.areaFits keys (base, size) = true →
        ∃ t, exec (.contextSwitchRequest part ctx base size) s = .next t
          ∧ t = { s with preempts := t.preempts, parts := t.parts, nextId := s.nextId + 1 }
          ∧ t.preempts.find? s.nextId = some ⟨keys, ctx, part, .system, s.time, .soft, (base, size)⟩
          ∧ ∀ j, t.partn j = if j = part then { s.partn j with save := (s.partn j).save.put ctx (base, size) } else s.partn j))
    ∧ (∀ req p, s.preempts.find? req = some p →
      (p.step = .soft → p.since + (s.partn p.part).grace * 2500 ≤ s.time →
        ∃ t, exec (.graceTimerExpiry req) s = .next t
          ∧ t = { s with reels := t.reels, blocks := t.blocks, preempts := s.preempts.put req { p with step := .stopped } }
          ∧ (∀ k, t.blocks.find? k = (s.blocks.find? k).map fun b => if k ∈ p.blocks then
              { b with seq := { b.seq with wait := b.seq.wait.map (SeqWait.freeze (s.clock b.core)) } } else b)
          ∧ ∀ k, (s.reels.find? k = none → t.reels.find? k = none)
            ∧ ∀ r, s.reels.find? k = some r → ∃ r', t.reels.find? k = some r' ∧ r' = { r with stopped := r'.stopped, splits := r'.splits }
              ∧ (r.block ∉ p.blocks → r' = r) ∧ (r.block ∈ p.blocks → r'.stopped = !(r.exited || r.killed)))
      ∧ (p.step = .stopped → p.asker ≠ .dispatcher → (∀ k ∈ p.blocks, s.quiet k = true) →
          s.areaFits (p.blocks.filter fun k => (s.blocks.find? k).isSome) p.area = true →
          (∀ k ∈ p.blocks, ∀ b, s.blocks.find? k = some b →
            (s.domain (domainOfCore b.core)).fenced = false ∧ (s.domain (domainOfCore b.core)).regFailed = false) →
        ∃ t, exec (.preemptSave req) s = .next t ∧ t.answer = some (.preempt p.part p.ctx 0)
          ∧ t.preempts.find? req = some { p with step := .saved, blocks := [] } ∧ t.launches = s.launches
          ∧ ∀ k ∈ p.blocks, t.blocks.find? k = none
            ∧ ∀ b, s.blocks.find? k = some b → ∃ v ∈ t.saved, v.block = { b with gang := v.block.gang } ∧ v.ctx = b.ctx ∧ v.savedAt = s.time
              ∧ v.area = p.area ∧ v.image = s.imageAt p.area v.offset v.size)
      ∧ (p.step ≠ .saved → p.since + (s.partn p.part).kill * 2500 ≤ s.time →
        ∃ t, exec (.killTimerExpiry req) s = .next t ∧ t.answer = some (.preempt p.part p.ctx 2) ∧ t.preempts = s.preempts.del req
          ∧ (s.saved = [] → t.mem = s.mem)
          ∧ ∀ k ∈ p.blocks, ∀ b l, s.blocks.find? k = some b → s.launches.find? b.launch = some l → l.verdict = none →
            ∃ l', t.launches.find? b.launch = some l' ∧ l' = { l with verdict := some (4, 1, 0), leaving := l'.leaving }))
    ∧ (∀ part,
      let p := s.partn part
      (s.time < p.sliceAt + max s.mgmt.saveBound p.slice * 2500 → exec (.timeSliceExpiry part) s = .next s)
      ∧ (p.sliceAt + max s.mgmt.saveBound p.slice * 2500 ≤ s.time →
        ∃ t, exec (.timeSliceExpiry part) s = .next t ∧ t = { s with preempts := t.preempts, parts := t.parts, nextId := t.nextId }
          ∧ (∀ j, t.partn j = if j = part then { p with sliceAt := s.time } else s.partn j)
          ∧ (s.waitingContexts part = [] → t.preempts = s.preempts)
          ∧ ∀ c w area, (∃ b ∈ s.blocks, b.2.part = part) → (∀ b ∈ s.blocks, b.2.part = part → b.2.ctx = c) →
            w ∈ s.waitingContexts part → c ∉ s.waitingContexts part → s.contextPrio part w = s.contextPrio part c →
            (∀ l ∈ s.launches, l.2.part = part → l.2.ctx = c → l.2.npf = false) → s.switchedOut part c = false →
            p.save.find? c = some area → s.areaFits (s.contextBlocks part c) area = true →
            t.preempts.find? s.nextId = some ⟨s.contextBlocks part c, c, part, .slice, s.time, .soft, area⟩))
    ∧ ∀ part ctx v c room l, (∀ p ∈ s.preempts, p.2.part = part → p.2.ctx = ctx → p.2.asker = .dispatcher ∨ p.2.step = .saved) →
      s.dispatching = true → s.saved = [v] → v.ctx = ctx → v.block.part = part → v.block.service = none → v.block.gang = [v.key] →
      s.launches.find? v.block.launch = some l → l.pkt.cls ≠ 0 → s.gangReturn part [v] = some [(v, c, room)] →
      room.slots ≠ [] → room.slots.Nodup → (∀ i ∈ room.slots, i < 32) → v.reels.sorted → (v.reels.map (·.1)) = List.range room.slots.length →
      let key := 32 * c + room.slots.headD 0
      let k := v.block.desc
      let regs := fun (a i : Nat) => a + 4352 + i * (1024 + 128 * k.vregs)
      let spadAt := (4352 + k.reels * (1024 + 128 * k.vregs) + 63) / 64 * 64
      ∃ t b, exec (.restore part ctx) s = .next t ∧ t.saved = [] ∧ t.blocks.find? key = some b
        ∧ b.core = c ∧ b.launch = v.block.launch ∧ b.linear = v.block.linear ∧ b.desc = k
        ∧ b.barriers = v.block.barriers ∧ b.loop = v.block.loop
        ∧ (v.image = none → b.spad = v.block.spad ∧ b.full = v.block.full ∧ b.sems = v.block.sems ∧ b.lays = v.block.lays)
        ∧ (∀ a, v.image = some a →
          (∀ w, w < (k.spad + 191) / 192 * 48 → b.spadRead (4 * w) 4 = s.physRead (a + spadAt + 4 * w) 4)
          ∧ (∀ m, m < 32 → (b.sem m).value.toNat = s.physRead (a + 512 + 4 * m) 4)
          ∧ ∀ n, n < 64 → b.lays.findD 0 n = BitVec.ofNat 256 (s.physRead (a + 2304 + 32 * n) 32))
        ∧ ∀ i r j, v.reels.find? i = some r → room.slots[i]? = some j → ∃ q, t.reels.find? (32 * c + j) = some q
          ∧ q.block = key ∧ q.tcr = r.tcr ∧ q.fflags = r.fflags ∧ q.ld = r.ld ∧ q.stopped = false ∧ q.iter = r.iter ∧ q.seq = r.seq
          ∧ (v.image = none → q.v = r.v ∧ q.s = r.s ∧ q.k = r.k)
          ∧ ∀ a, v.image = some a →
            (∀ n l, n < k.vregs → l < 32 → (q.vget n l).toNat = s.physRead (regs a i + 1024 + 128 * n + 4 * l) 4)
            ∧ (∀ n, 0 < n → n < 64 → (q.sget n).toNat = s.physRead (regs a i + 4 * n) 4)
            ∧ ∀ n, 0 < n → n < 8 → ∀ lanes, (q.kget lanes n).toNat = s.physRead (regs a i + 252 + 4 * n) 4

/-! ## The module: power, clocks, timers, management registers, boot and resets -/

namespace Sys2Proof.Rows

/-- `t` is `s` with domain `d` become `q`, but for its counts of cycles and bubbles, which are brought up to date; a change of operating point
stops its issue until its clock relocks, and makes one new generation (18 R325, R330). -/
def PointSet (s t : State) (d : Nat) (q : Domain) : Prop :=
  let q' := { q with clkBase := s.cycles d, clkAt := s.time, bubbles := s.bubbleCount d, bubblesAt := s.cycles d }
  (q.point = (s.domain d).point → t = s.setDomain d q')
    ∧ (q.point ≠ (s.domain d).point → t = (s.setDomain d { q' with relocking := true }).newGeneration)

/-- An event ends in `u` with the limit bits of status brought up to date: a domain is held by the power rule, by the thermal rule. -/
def Limited (e : Instr) (s u : State) : Prop :=
  ∃ t, exec e s = .next t ∧ t = { u with mgmt := { u.mgmt with power := t.mgmt.power, thermal := t.mgmt.thermal } }
    ∧ (s.domains.sorted → (t.mgmt.power = true ↔ ∃ j, (t.domain j).setPoint < (t.domain j).powerAsk)
      ∧ (t.mgmt.thermal = true ↔ ∃ j, (t.domain j).setPoint < (t.domain j).thermAsk))

/-- What a rule asks for one step toward the set point from what it has asked for: nothing once that is reached (18 R329, 22 R393). -/
def stepUp (ask set : Nat) : Nat := if ask ≤ set + 1 then 0 else ask - 1

/-- `s` as a power-fail warning leaves it: a drain of mode 1 begins, once the module is ready and unless one runs (21 R383, 22 R385). -/
def warned (s : State) : State :=
  if s.mgmt.ready = false ∨ (s.mgmt.drainRunning = true ∧ s.mgmt.drainMode = 1) then s
  else { s with mgmt := { s.mgmt with
    drainMode := 1, drainRunning := true, drainStatus := 0, absentMask := 0, skippedMask := 0, corruptMask := 0 } }

/-- A trip: the warning, and the rails go when the drain has ended, at once where none runs (22 R393). -/
def trippedFrom (s : State) : State :=
  let w := warned s
  { w with mgmt := { w.mgmt with tripped := true, railsOff := w.mgmt.railsOff || !w.mgmt.drainRunning } }

/-- The digest by which a register grows (22 R390). -/
def grown (m : BitVec 384) (digest : Nat) : BitVec 384 := sha384 (beBytes 48 m.toNat ++ beBytes 48 digest)

/-- The image that a slot offers for boot (22 R388). -/
def Offers (b : Boot) (slot : Option Image) (i : Image) : Prop := slot = some i ∧ i.accepted = true ∧ b.fusedMin ≤ i.rollback

/-- Messages hold `m`. -/
def Sent (t : State) (m : Msg) : Prop := ∃ id, t.msgs.find? id = some m

/-- A watcher is told of a write of its grain; one of another wafer by way of its agent, 64. -/
def Told (t : State) (src : Nat) (w : Watcher) : Prop :=
  Sent t ⟨src, if src = 64 ∨ w.reel < 2 ^ 50 then w.reel / 32 / 120 else 64, w.reel / 32, false, .report w.reel w.slot w.reg false⟩

/-- An option outside the column of what is supported (21 R365). -/
abbrev Unsupported (o : Config.CxlOption) : Prop :=
  o = .x4OrNarrower ∨ o = .slowerThan32 ∨ o = .flit68 ∨ o = .sriov ∨ o = .legacyInt ∨ o = .ats ∨ o = .pri ∨ o = .peerSnoop ∨ o = .otherCacheId
    ∨ o = .hdmH ∨ o = .hdmD ∨ o = .type3 ∨ o = .switches ∨ o = .multiLogical ∨ o = .portRouting ∨ o = .dynamicCapacity ∨ o = .pooling

/-- A management register's write takes, or is busy and changes nothing (22 R392). -/
def Writes (s : State) (offset scope value : Nat) (busy : Prop) (u : State) : Prop :=
  (busy → exec (.mgmtRegisterWrite offset scope value) s = .next { s with answer := some (.mgmt true) })
    ∧ (¬ busy → exec (.mgmtRegisterWrite offset scope value) s = .next { u with answer := some (.mgmt false) })

end Sys2Proof.Rows


/-- 18 R327 to R330, 19 R358, 21 R383, 22 R393: the limiter's level follows the draw once in a microsecond and counts samples in a row; after 100 of
them at 16 over the cap the power rule asks for the point one below that in use, and after 10 ms below 16 with the draw under 0.8 of the cap for one
more up; temperatures above 95 C and below 85 C do the same once in 10 ms. The lowest point asked for rules, and the limit bits say that a rule
holds a domain below its set point. Cap and set point are written, the cap to the nearest bound; a change makes one new generation. A junction at
105 C, a second without flow and the warning start a drain of mode 1, the first two removing the rails. Timers keep their bounds, the slice that
measured at boot. That draws come in mW, the counts of samples, and their restart after a raise are the model's. Choices of the model that it rests
on: log entries 46, 47, 74, 75 and 94. -/
def Obligations.PowerAndClocks : Prop :=
  ∀ (s : State),
    (∀ d draw, d < 64 →
      let q := s.domain d
      let cap := 1000 * q.cap
      let level := if cap < draw then min 16 (q.level + 1) else if 20 * draw < 19 * cap then q.level - 1 else q.level
      (s.time < q.sampleAt + 2500 → exec (.limiterSample d draw) s = .next s)
      ∧ (q.sampleAt + 2500 ≤ s.time →
        ∃ t, exec (.limiterSample d draw) s = .next t ∧ t = { s with domains := t.domains }
          ∧ ∀ j, t.domain j = if j = d then
              { q with
                level := level, bubbles := s.bubbleCount d, bubblesAt := s.cycles d, sampleAt := s.time
                satSamples := if level = 16 ∧ cap < draw then q.satSamples + 1 else 0
                okSamples := if level < 16 then q.okSamples + 1 else 0 }
            else s.domain j))
    ∧ (∀ d,
      let q := s.domain d
      (100 ≤ q.satSamples → q.point < 3 →
        ∃ u, PointSet s u d { q with powerAsk := q.point + 1, satSamples := 0 } ∧ Limited (.operatingPointLower d) s u)
      ∧ (q.satSamples < 100 → exec (.operatingPointLower d) s = .next s)
      ∧ (∀ draw, 10000 ≤ q.okSamples → draw < 800 * q.cap → q.setPoint < q.powerAsk →
        ∃ u, PointSet s u d { q with powerAsk := stepUp q.powerAsk q.setPoint, okSamples := 0 } ∧ Limited (.operatingPointRaise d draw) s u)
      ∧ (∀ draw, q.okSamples < 10000 ∨ 800 * q.cap ≤ draw ∨ q.powerAsk ≤ q.setPoint → exec (.operatingPointRaise d draw) s = .next s)
      ∧ (∀ temp, d < 64 → 95000 < temp → q.thermAt ≤ s.time → q.point < 3 →
        ∃ u, PointSet s u d { q with thermAsk := q.point + 1, thermAt := s.time + 25000000 } ∧ Limited (.thermalLower d temp) s u)
      ∧ (∀ temp, temp < 85000 → q.thermAt ≤ s.time → q.setPoint < q.thermAsk →
        ∃ u, PointSet s u d { q with thermAsk := stepUp q.thermAsk q.setPoint, thermAt := s.time + 25000000 } ∧ Limited (.thermalRaise d temp) s u)
      ∧ (∀ temp, s.time < q.thermAt →
        exec (.thermalLower d temp) s = .next s ∧ exec (.thermalRaise d temp) s = .next s)
      ∧ q.point = min 3 (max q.setPoint (max q.powerAsk q.thermAsk))
      ∧ (d < 64 →
        ∃ t, exec (.clockRelockComplete d) s = .next t ∧ t = { s with domains := t.domains }
          ∧ ∀ j, t.domain j = if j = d then { q with relocking := false } else s.domain j)
      ∧ ∀ cap point, d < 64 →
        let bounded := if cap < 100 then 100 else if 330 < cap then 330 else cap
        ∃ u, PointSet (s.setDomain d { q with cap := bounded }) u d { q with cap := bounded, setPoint := point % 4 }
          ∧ (u.wafer.gen ≠ s.wafer.gen ∨ bounded = q.cap → Limited (.powerWrite d cap point) s u)
          ∧ (u.wafer.gen = s.wafer.gen → bounded ≠ q.cap → Limited (.powerWrite d cap point) s u.newGeneration))
    ∧ (∀ d temp, d < 64 →
      (temp < 105000 → exec (.thermalTrip d temp) s = .next s) ∧ (105000 ≤ temp → exec (.thermalTrip d temp) s = .next (trippedFrom s)))
    ∧ (∀ ms, (ms < 1000 → exec (.coolantFlowLoss ms) s = .next s) ∧ (1000 ≤ ms → exec (.coolantFlowLoss ms) s = .next (trippedFrom s)))
    ∧ exec .powerFailWarning s = .next (warned s)
    ∧ ∀ part grace kill slice, part < 16 →
      ∃ t, exec (.timersWrite part grace kill slice) s = .next t ∧ t = { s with parts := t.parts }
        ∧ (∀ j, j ≠ part → t.partn j = s.partn j)
        ∧ (t.partn part) = { s.partn part with
            grace := (t.partn part).grace, kill := (t.partn part).kill, slice := if slice < s.mgmt.saveBound then s.mgmt.saveBound else slice }
        ∧ 1 ≤ (t.partn part).grace ∧ (t.partn part).grace ≤ 65535 ∧ (t.partn part).grace < (t.partn part).kill
        ∧ (1 ≤ grace → grace ≤ 65535 → (t.partn part).grace = grace ∧ (grace < kill → (t.partn part).kill = kill))

/-- 18 R323 to R325, R332, 22 R385 to R392: a new generation writes the Banner's header and records where the register points, and tells the
guests and watchers of its grains. Cold reset ends ready, with the dead cores dead and generation 1, in recovery where no slot holds an accepted
image, or stopped by a warning; its stages are measured. A partition's reset kills its launches and empties its domains. Registers are written,
and the writes that R392 and R332 name are busy; a new bias base writes the table there whole. A configuration request for what is not supported
is refused. Images are taken in recovery only, registers 4 to 7 are extended, and a report brings all eight. Choices of the model that it rests
on: log entries 21, 23, 40, 58, 62, 63, 65, 66, 67, 69, 94 and 102. -/
def Obligations.Management : Prop :=
  ∀ (s : State),
    (let t := s.newGeneration
      let pa := s.mgmt.banner
      let head := Memory.readNat t.mem pa 32
      let home := s.domain (bitsOf pa 43 38)
      t = { bannered s t with wafer := { s.wafer with gen := s.wafer.gen + 1, gstart := s.wafer.gen + 1 } }
      ∧ (∀ j, t.domain j = { s.domain j with l2 := (t.domain j).l2, dir := (t.domain j).dir })
      ∧ (∀ j, j ≠ bitsOf pa 43 38 → t.domain j = s.domain j)
      ∧ (home.dir.sorted → ∀ k e, home.dir.find? k = some e → k < pa + 2080 → pa < k + e.grain →
        (t.domain (bitsOf pa 43 38)).dir.find? k = (if e.watchers = [] then none else some { e with sharers := 0 })
        ∧ (∀ g, g < 64 → e.sharers.getLsbD g = true → Sent t ⟨bitsOf pa 43 38, g, 0, false, .inval e.va e.grain .nobody⟩)
        ∧ ∀ w ∈ e.watchers, Told t (bitsOf pa 43 38) w)
      ∧ (∀ a, a < pa ∨ pa + 2080 ≤ a → Memory.read t.mem a = Memory.read s.mem a)
      ∧ bitsOf head 15 0 = 32 ∧ bitsOf head 31 16 = 1 ∧ bitsOf head 63 32 = (s.wafer.gen + 1) % 2 ^ 32
      ∧ bitsOf head 95 64 = (s.wafer.gen + 1) % 2 ^ 32 ∧ bitsOf head 103 96 = 0 ∧ bitsOf head 127 112 = 0
      ∧ bitsOf head 111 104 = ((List.range 64).filter fun d => !(s.domain d).fenced).length
      ∧ bitsOf head 143 128 = ((List.range 7680).filter fun c => (s.core c).live && !(s.domain (c / 120)).fenced).length
      ∧ bitsOf head 255 144 = s.wafer.blive.toNat
      ∧ ((∀ d, d < 64 → (s.domain d).cap < 2 ^ 16) →
        ∀ d, d < 64 →
          let rec_ := Memory.readNat t.mem (pa + 32 + 32 * d) 32
          let q := s.domain d
          bitsOf rec_ 31 0 = (if q.fenced = true then 0 else (2 ^ 35 - (q.lostRanges.map (·.2)).sum) / 2 ^ 20)
          ∧ bitsOf rec_ 79 64 = (if q.point = 0 then 2500 else if q.point = 1 then 2200 else if q.point = 2 then 1800 else 1200)
          ∧ bitsOf rec_ 95 80 = q.cap ∧ bitsOf rec_ 123 122 = (if q.fenced = true then 1 else 0) ∧ bitsOf rec_ 127 124 = q.part % 16
          ∧ ∀ i, i < 120 → (rec_.testBit (136 + i) = true ↔ (s.core (120 * d + i)).live = true ∧ q.fenced = false)))
    ∧ (∀ b : BootInput,
      let none_ := fun (x : Option Image) => ∀ i, ¬ Offers s.boot x i
      (none_ s.boot.slotA → none_ s.boot.slotB →
        ∃ t, exec (.coldReset b) s = .next t ∧ t.mgmt = { Mgmt.reset with recovery := true, railsOff := true }
          ∧ t.blocks = [] ∧ t.reels = [] ∧ t.launches = [] ∧ t.domains = [] ∧ t.parts = [])
      ∧ ∀ second i, Offers s.boot (if second = true then s.boot.slotB else s.boot.slotA) i →
        (∀ j, Offers s.boot (if second = true then s.boot.slotA else s.boot.slotB) j →
          if second = true then j.version < i.version else j.version ≤ i.version) →
        (b.powerFail = true → ∃ t, exec (.coldReset b) s = .next t ∧ t.mgmt = { Mgmt.reset with railsOff := true } ∧ t.blocks = [] ∧ t.launches = [])
        ∧ (b.powerFail = false →
          let fab := BitVec.ofNat 12 (if b.fabno % 4096 = 4095 ∧ b.host = true then 0 else b.fabno)
          ∃ t, exec (.coldReset b) s = .next t
            ∧ t.mgmt = { Mgmt.reset with
                ready := true, fabno := fab, banner := fab.toNat * 2 ^ 44, saveBound := Config.measuredBound s.nextId }
            ∧ t.wafer.gen = 1 ∧ t.wafer.gstart = 1 ∧ t.blocks = [] ∧ t.reels = [] ∧ t.launches = [] ∧ t.queues = [] ∧ t.saved = []
            ∧ t.parts = [] ∧ (∀ d, t.domain d = Domain.reset)
            ∧ (∀ c, c < 7680 → t.core c = { Core.reset with live := (s.core c).live && !b.dead.contains c })
            ∧ (∀ a, a < t.mgmt.banner ∨ t.mgmt.banner + 2080 ≤ a → Memory.read t.mem a = 0)
            ∧ t.boot.booted = some second ∧ t.boot.slotA = s.boot.slotA ∧ t.boot.slotB = s.boot.slotB
            ∧ t.boot.fusedMin = max s.boot.fusedMin (i.raiseMin.getD 0)
            ∧ ∀ j, t.boot.meas.findD 0 j = if j < 4 then grown 0 (b.digests.getD j 0) else 0))
    ∧ (∀ part scrub dead, part < 16 →
      let mine := fun (d : Nat) => d < 64 ∧ (s.domain d).part = part
      ∃ t, exec (.partitionReset part scrub dead) s = .next t ∧ t.wafer.gen = s.wafer.gen + 1 ∧ t.wafer.fusedDead = s.wafer.fusedDead
        ∧ (∀ id l, s.launches.find? id = some l → l.part = part → l.verdict = none →
            ∃ lv, t.launches.find? id = some { l with verdict := some (4, 2, 0), leaving := lv })
        ∧ (∀ c ∈ t.colls, c.part ≠ part) ∧ (∀ b ∈ t.blocks, b.2.part ≠ part) ∧ (∀ v ∈ t.saved, v.block.part ≠ part)
        ∧ (∀ d, mine d → (t.domain d).l2 = [] ∧ (t.domain d).dir = [] ∧ (t.domain d).xlats = [] ∧ (t.domain d).slots = []
            ∧ (t.domain d).level = 0 ∧ (t.domain d).point = 0 ∧ (t.domain d).fenced = false ∧ (t.domain d).regFailed = false
            ∧ (t.domain d).part = part)
        ∧ (∀ d, ¬ mine d → (t.domain d).xlats = (s.domain d).xlats
            ∧ (t.domain d).fenced = (s.domain d).fenced ∧ (t.domain d).setPoint = (s.domain d).setPoint
            ∧ (d ≠ bitsOf s.mgmt.banner 43 38 → (t.domain d).dir = (s.domain d).dir ∧ (t.domain d).l2 = (s.domain d).l2))
        ∧ (∀ c, mine (c / 120) → (t.core c) = { Core.reset with
            live := (s.core c).live && !dead.contains c, cycleBase := (t.core c).cycleBase })
        ∧ ∀ a, a < s.mgmt.banner ∨ s.mgmt.banner + 2080 ≤ a →
            (scrub = true → (∃ d, s.place a = .home d ∧ mine d) → Memory.read t.mem a = 0)
            ∧ (scrub = false ∨ (∀ d, s.place a = .home d → ¬ mine d) → Memory.read t.mem a = Memory.read s.mem a))
    ∧ (∀ image : FwImage,
      (s.mgmt.recovery = false → ∀ second, exec (.recoveryImageWrite second image) s = .next s)
      ∧ (s.mgmt.recovery = true → ∀ second,
        let i : Image := ⟨image.version, image.rollback, image.raiseMin, true⟩
        (s.boot.accepts image = true →
          exec (.recoveryImageWrite second image) s = .next { s with
            answer := some (.mailbox true)
            boot := { s.boot with
              slotA := if second = true then s.boot.slotA else some i, slotB := if second = true then some i else s.boot.slotB } })
        ∧ (s.boot.accepts image = false → exec (.recoveryImageWrite second image) s = .next { s with answer := some (.mailbox false) }))
      ∧ (s.boot.accepts image = true → image.magic = 0x4B4A3634 ∧ image.digest = (sha384 image.body).toNat ∧ s.boot.fusedMin ≤ image.rollback))
    ∧ (∀ reg digest,
      (reg < 4 ∨ 7 < reg → exec (.measurementExtend reg digest) s = .next { s with answer := some (.mailbox false) })
      ∧ (4 ≤ reg → reg ≤ 7 →
        ∃ m, exec (.measurementExtend reg digest) s = .next { s with boot := { s.boot with meas := m }, answer := some (.mailbox true) }
          ∧ ∀ j, m.findD 0 j = if j = reg then grown (s.boot.meas.findD 0 reg) digest else s.boot.meas.findD 0 j))
    ∧ (∀ nonce, ∃ a b, exec (.attestationReport nonce) s = .next { s with answer := some (.report nonce s.boot.meas a b) })
    ∧ exec .configurationRequest s =
        .next { s with
          nextId := s.nextId + 1
          answer := some (.config (if s.mgmt.ready = false then 1 else if Unsupported (Config.linkOption s.nextId) then 2 else 0)) }
    ∧ (∀ value, exec (.statusWrite value) s = .next { s with mgmt := { s.mgmt with moved := if value.testBit 5 then false else s.mgmt.moved } })
    ∧ (∀ p value, p < 16 →
      exec (.partitionWrite true p value) s = .next
        { s.setPart p { s.partn p with conn := BitVec.ofNat 16 value } with answer := some (.mgmt false) })
    ∧ (∀ d value, d < 64 →
      let empty := (∀ b ∈ s.blocks, b.2.core / 120 ≠ d) ∧ (s.domain d).l2 = [] ∧ (s.domain d).dir = []
      (¬ empty → exec (.partitionWrite false d value) s = .next { s with answer := some (.mgmt true) })
      ∧ (empty → (s.domain d).part = value % 16 → exec (.partitionWrite false d value) s = .next { s with answer := some (.mgmt false) })
      ∧ (empty → (s.domain d).part ≠ value % 16 →
        exec (.partitionWrite false d value) s = .next
          { (s.setDomain d { s.domain d with part := value % 16 }).newGeneration with answer := some (.mgmt false) }))
    ∧ (∀ p v, p < 16 → v < 2 ^ 64 →
      let block := ∃ b ∈ s.blocks, b.2.part = p
      let ring := ∃ f ∈ s.faults, s.ringPart f.2 = p ∧ f.2.state = .delivered
      let q := s.partn p
      Writes s 0x10 p v block (s.setPart p { q with ctxtab := v }) ∧ Writes s 0x18 p v block (s.setPart p { q with xlat1 := v })
      ∧ Writes s 0x20 p v block (s.setPart p { q with xlat2 := v })
      ∧ Writes s 0x30 p v ring (s.setPart p { q with fringBase := v, fringNext := 0 })
      ∧ Writes s 0x38 p v ring (s.setPart p { q with fringSize := v, fringNext := 0 })
      ∧ Writes s 0x48 p v False
        (s.setPart p { q with save := q.save.put (bitsOf v 63 52) (1024 * bitsOf v 45 0, 2 ^ bitsOf v 51 46) }))
    ∧ (∀ d v, d < 64 → v < 2 ^ 64 →
      let q := s.domain d
      Writes s 0x28 d v False (s.setDomain d { q with frames := v }) ∧ Writes s 0x80 d v False (s.setDomain d { q with ctrBase := v, ctrIdx := 0 })
      ∧ Writes s 0x88 d v False (s.setDomain d { q with ctrSize := v, ctrIdx := 0 }) ∧ Writes s 0xE8 d v False (s.setDomain d { q with ctrThr := v })
      ∧ (q.bias = [] → v = 0 ∨ (∀ h, s.place v ≠ .home h) → Writes s 0xB0 d v False (s.setDomain d { q with biasBase := v }))
      ∧ (v ≠ 0 → (∃ h, s.place v = .home h) → bitsOf v 37 0 + 2 ^ 21 ≤ 2 ^ 35 → (∀ e ∈ q.bias, e.1 < 2 ^ 23) →
        ∃ t, exec (.mgmtRegisterWrite 0xB0 d v) s = .next { t with answer := some (.mgmt false) } ∧ t = { bannered s t with wafer := s.wafer }
          ∧ (t.domain d).biasBase = v ∧ (t.domain d).bias = q.bias
          ∧ (∀ p, p < 2 ^ 23 →
            bitsOf (Memory.readNat t.mem (v + 8 * (p / 32)) 8) (2 * (p % 32) + 1) (2 * (p % 32)) = (q.bias.findD 0 p).toNat)
          ∧ ∀ a, a < v ∨ v + 2 ^ 21 ≤ a → Memory.read t.mem a = Memory.read s.mem a))
    ∧ ∀ n v, v < 2 ^ 64 →
      let m := s.mgmt
      Writes s 0xA0 n v (m.drainRunning = true) { s with mgmt := { m with drainTarget := v } }
      ∧ Writes s 0xB8 n v False { s with mgmt := { m with hframes := v } } ∧ Writes s 0xC0 n v False { s with mgmt := { m with dbbase := v } }
      ∧ Writes s 0xC8 n v False { s with mgmt := { m with dbreg := v } } ∧ Writes s 0xD8 n v False { s with mgmt := { m with rroute := v } }
      ∧ Writes s 0xE0 n v False { s with mgmt := { m with gtab := v } }
      ∧ (m.ready = false → Writes s 0xD0 n v False { s with mgmt := { m with fabno := BitVec.ofNat 12 v } })
      ∧ (m.ready = true → exec (.mgmtRegisterWrite 0xD0 n v) s = .next s)

/-! ## The host, the drain, the fabric and collectives -/

namespace Sys2Proof.Rows

/-- A host access of a device offset is served: the module is ready, no drain runs, the range is not fenced, the domain has power, its page
is not on its way to device bias, and no snoop of its line is out (21 R366, R372, R383, 22 R385). -/
def HdmOpen (s : State) (d off : Nat) : Prop :=
  let q := s.domain d
  s.mgmt.ready = true ∧ s.mgmt.drainRunning = false ∧ q.fenced = false ∧ q.regFailed = false
    ∧ (∀ r ∈ q.lostRanges, off < r.1 ∨ r.1 + r.2 ≤ off) ∧ q.bias.findD 0 (off / 4096) ≠ 2 ∧ ∀ o ∈ q.biOut, o.1 ≠ off / 64

/-- The 64 bytes of a line at their home, as one number. -/
def lineAt (s : State) (pa : Nat) : BitVec 512 := BitVec.ofNat 512 (s.physRead pa 32 + s.physRead (pa + 32) 32 * 2 ^ 256)

/-- The host's filter holds what it held but of one line, which it holds to own or not. -/
def Records (q : Domain) (snoop : List (Nat × Bool)) (line : Nat) (own : Bool) : Prop :=
  (line, own) ∈ snoop ∧ ∀ e, e.1 ≠ line → (e ∈ snoop ↔ e ∈ q.snoop)

/-- Each grain of a directory lies at its place in its granule. -/
def Placed (dir : Map DirEntry) : Prop := dir.sorted ∧ ∀ k e, dir.find? k = some e → e.va % 65536 ≤ k

/-- A host line's state in an agent, before it has one: shared, with no domain copy. -/
def lineOr (s : State) (line : Nat) : HostLine := (s.hostLines.find? line).getD ⟨.shared, 0, 0, 0, 0⟩

/-- A Dirty sector of a domain that can be reached. -/
def DirtyAt (s : State) (d pa : Nat) (x : BitVec 256) : Prop :=
  d < 64 ∧ (s.domain d).fenced = false ∧ (s.domain d).regFailed = false
    ∧ ∃ e ∈ (s.domain d).l2, ∃ mode ac, e.2.held = some ⟨.dirty, pa, mode, ac, x⟩

/-- The collectives but one. -/
def collsBut (cs : List Coll) (id : Nat) : List Coll := cs.filter fun c => c.id != id

/-- What the other members of a collective hear when it ends here without them (21 R381, R382): each wafer, with the group and the sequence number. -/
def othersOf (s : State) (c : Coll) : List (Nat × Nat × Nat) :=
  (c.members.filter fun w => w != s.mgmt.fabno.toNat).map fun w => (w, c.desc.group, c.desc.seq)

/-- An event raises the deferred engine fault of a collective whose completion word cannot be written, at an address: its record names no launch and
no reel, and the other members hear of the end (21 R381). -/
def CollFaults (e : Instr) (s v : State) (c : Coll) (va : Nat) : Prop :=
  ∃ t f, exec e s = .next t
    ∧ t = { v with
        colls := collsBut v.colls c.id, abandons := v.abandons ++ othersOf v c, nextId := v.nextId + 1, faults := v.faults.put v.nextId f }
    ∧ f.kind = 0x0B ∧ f.engine = true ∧ f.va = va ∧ f.line = va / 128 * 128 ∧ f.context = c.ctx ∧ f.reelKey = none

/-- An event ends a collective with a word: it is written once what the wafer's agents wrote is everywhere; until then the word stands. A failed one
tells the other members, and a word that cannot be written is a fault (21 R381). -/
def EndsWith (e : Instr) (s v : State) (c : Coll) (word : Nat) : Prop :=
  let w := { v with colls := collsBut v.colls c.id ++ [{ c with outcome := some word }] }
  let core := agentCore (w.domOfPart c.part)
  (v.agentsQuiet = false → exec e s = .next w)
    ∧ (∀ u, v.agentsQuiet = true → w.deviceWrite core c.ctx c.desc.cw 8 word = .ok u →
      exec e s = .next { u with
        colls := collsBut u.colls c.id, abandons := if word % 256 = 4 then u.abandons ++ othersOf u c else u.abandons })
    ∧ ∀ k va x, v.agentsQuiet = true → w.deviceWrite core c.ctx c.desc.cw 8 word = .error (.fault k va x) → CollFaults e s w c va

/-- A completion word (21 R381). -/
def wordOf (status detail flags chunks : Nat) : Nat := status + detail * 2 ^ 8 + flags * 2 ^ 16 + chunks * 2 ^ 32

end Sys2Proof.Rows


/-- 21 R366 to R372, 22 R385: the host's reads and writes of the device's DRAM, refused before ready and in a fenced range, with the lines it
holds recorded and the device's copies invalidated where it owns; pages that go to host bias and to device bias, and the answers to snoops, whose
bytes are Dirty in the slice where it holds the sector or the frame names its page; and host lines in the CXL.cache agents: the host's responses,
and its snoops, which take the bytes of a line that is being evicted, and invalidate the domains' copies first and wake watchers. What is logged
and answered is R366's; that a plain read leaves the line shared in the filter, and the filter's order, are the model's. Choices of the model
that it rests on: log entries 57, 58, 59, 60 and 61. -/
def Obligations.HostAccesses : Prop :=
  ∀ (s : State),
    (∀ o data mask own,
      let d := bitsOf o 40 35
      let off := bitsOf o 34 0 / 64 * 64
      let pa := s.mgmt.fabno.toNat * 2 ^ 44 + d * 2 ^ 38 + off
      let q := s.domain d
      let logged := { s with mgmt := { s.mgmt with cxFenced := s.mgmt.cxFenced + 1 } }
      (s.mgmt.ready = false ∨ q.fenced = true ∨ (∃ r ∈ q.lostRanges, r.1 ≤ off ∧ off < r.1 + r.2) →
        exec (.hostHdmRead o own) s = .next { logged with answer := some (.hdmRead true 0) }
        ∧ exec (.hostHdmWrite o data mask) s = .next { logged with answer := some (.hdmWrite true) })
      ∧ (HdmOpen s d off → q.bias.findD 0 (off / 4096) = 1 → (q.snoop.length < 2 ^ 18 ∨ ∃ b, (off / 64, b) ∈ q.snoop) →
        (∃ t, exec (.hostHdmRead o false) s = .next t
          ∧ t = { s with domains := t.domains, answer := some (.hdmRead false (lineAt s pa)) }
          ∧ (∀ j, t.domain j = if j = d then { q with snoop := (t.domain d).snoop } else s.domain j) ∧ Records q (t.domain d).snoop (off / 64) false)
        ∧ (q.dir.sorted →
          ∃ t, exec (.hostHdmRead o true) s = .next t
            ∧ t = { s with domains := t.domains, msgs := t.msgs, nextId := t.nextId, answer := some (.hdmRead false (lineAt s pa)) }
            ∧ (∀ j, t.domain j = if j = d then { q with snoop := (t.domain d).snoop, dir := (t.domain d).dir } else s.domain j)
            ∧ Records q (t.domain d).snoop (off / 64) true
            ∧ ∀ k e, q.dir.find? k = some e → k < pa + 64 → pa < k + e.grain →
              (t.domain d).dir.find? k = (if e.watchers = [] then none else some { e with sharers := 0 })
              ∧ ∀ g, g < 64 → e.sharers.getLsbD g = true → Sent t ⟨d, g, 0, false, .inval e.va e.grain .nobody⟩))
      ∧ (HdmOpen s d off → q.bias.findD 0 (off / 4096) = 1 → 2 ^ 18 ≤ q.snoop.length → (∀ b, (off / 64, b) ∉ q.snoop) →
        ∃ t, exec (.hostHdmRead o own) s = .next t ∧ t = { s with domains := t.domains }
          ∧ (∀ j, t.domain j = if j = d then { q with biOut := (t.domain d).biOut } else s.domain j)
          ∧ ∀ e, q.snoop.head? = some e → (e.1, true) ∈ (t.domain d).biOut)
      ∧ (HdmOpen s d off → q.bias.findD 0 (off / 4096) ≠ 1 → q.biasBase = 0 → q.snoop.length < 2 ^ 18 →
        ∃ t, exec (.hostHdmRead o false) s = .next t
          ∧ t = { s with domains := t.domains, answer := some (.hdmRead false (lineAt s pa)) }
          ∧ ∀ p, (t.domain d).bias.findD 0 p = if p = off / 4096 then 1 else q.bias.findD 0 p)
      ∧ (HdmOpen s d off → q.bias.findD 0 (off / 4096) = 1 → (∀ i, i < 64 → s.inBiasTable (pa + i) = false) → Placed q.dir →
        ∃ t, exec (.hostHdmWrite o data mask) s = .next t
          ∧ t = { s with mem := t.mem, domains := t.domains, msgs := t.msgs, nextId := t.nextId, mgmt := t.mgmt, answer := some (.hdmWrite false) }
          ∧ Rung s t ∧ (∀ j, j ≠ d → t.domain j = s.domain j) ∧ (t.domain d) = { q with l2 := (t.domain d).l2, dir := (t.domain d).dir }
          ∧ (∀ i, i < 64 → t.physRead (pa + i) 1 = if mask.testBit i then (data >>> (8 * i)) % 256 else s.physRead (pa + i) 1)
          ∧ (∀ a, a < pa ∨ pa + 64 ≤ a → Memory.read t.mem a = Memory.read s.mem a)
          ∧ ∀ k e, q.dir.find? k = some e → k < pa + 64 → pa < k + e.grain →
            (t.domain d).dir.find? k = (if e.watchers = [] then none else some { e with sharers := 0 })
            ∧ (∀ g, g < 64 → e.sharers.getLsbD g = true → Sent t ⟨d, g, 0, false, .inval e.va e.grain .nobody⟩)
            ∧ ∀ w ∈ e.watchers, Told t d w))
    ∧ (∀ o,
      let d := bitsOf o 40 35
      let page := bitsOf o 34 0 / 4096
      let q := s.domain d
      let answers := fun (e : Instr) (u : State) (n : Nat) => exec e s = .next { u with answer := some (.bias n) }
      let lost := q.fenced = true ∨ ∃ r ∈ q.lostRanges, r.1 ≤ 4096 * page ∧ 4096 * page < r.1 + r.2
      let moving := q.bias.findD 0 page = 2 ∨ q.bias.findD 0 page = 3
      (lost → answers (.biasToHost o) s 2 ∧ answers (.biasToDevice o) s 2)
      ∧ (¬ lost → moving → answers (.biasToHost o) s 1 ∧ answers (.biasToDevice o) s 1)
      ∧ (¬ lost → ¬ moving → q.biasBase = 0 →
        (∃ u, answers (.biasToHost o) u 0 ∧ u = { s with domains := u.domains }
          ∧ ∀ p, (u.domain d).bias.findD 0 p = if p = page then 1 else q.bias.findD 0 p)
        ∧ ((∀ e ∈ q.snoop, e.1 / 64 ≠ page) →
          ∃ u, answers (.biasToDevice o) u 0 ∧ u = { s with domains := u.domains }
            ∧ ∀ p, (u.domain d).bias.findD 0 p = if p = page then 0 else q.bias.findD 0 p)
        ∧ ((∃ e ∈ q.snoop, e.1 / 64 = page) →
          ∃ u, exec (.biasToDevice o) s = .next u ∧ u = { s with domains := u.domains }
            ∧ (∀ p, (u.domain d).bias.findD 0 p = if p = page then 2 else q.bias.findD 0 p)
            ∧ (u.domain d).snoop = q.snoop ∧ ∀ e ∈ q.snoop, e.1 / 64 = page → (e.1, true) ∈ (u.domain d).biOut)))
    ∧ (∀ d line inv, d < 64 →
      let q := s.domain d
      (q.biOut.find? fun o => o.1 == line) = some (line, inv) → q.bias.findD 0 (line / 64) ≠ 2 →
      ∃ t, exec (.birspArrival d line none) s = .next t ∧ t = { s with domains := t.domains }
        ∧ ∀ j, t.domain j = if j = d then
            { q with
              biOut := q.biOut.erase (line, inv)
              snoop := if inv = true then q.snoop.filter fun e => e.1 != line else q.snoop.map fun e => if e.1 = line then (line, false) else e }
          else s.domain j)
    ∧ (∀ d line o x, d < 64 → line < 2 ^ 29 →
      let q := s.domain d
      let pa := s.mgmt.fabno.toNat * 2 ^ 44 + d * 2 ^ 38 + 64 * line
      (q.biOut.find? fun o => o.1 == line) = some o → (∀ i, i < 64 → s.inBiasTable (pa + i) = false) →
        (∀ a, s.frameEntry (pa / 65536 * 65536) = some a → a + 8 ≤ pa ∨ pa + 64 ≤ a) →
      ∃ t, exec (.birspArrival d line (some x)) s = .next t
        ∧ (∀ i, i < 64 → t.physRead (pa + i) 1 = (x >>> (8 * i)) % 256)
        ∧ ∀ j, j < 2 → (q.heldAt (pa + 32 * j) ≠ none ∨ s.homeOfSector (pa + 32 * j) ≠ none) →
          (t.domain d).heldAt (pa + 32 * j) ≠ none
          ∧ ∀ a, pa + 32 * j ≤ a → a < pa + 32 * j + 32 → Memory.read t.mem a = Memory.read s.mem a)
    ∧ (∀ d line, d < 64 →
      let q := s.domain d
      q.biOut = [(line, true)] → q.bias.findD 0 (line / 64) = 2 → q.biasBase = 0 → (∀ e ∈ q.snoop, e.1 / 64 = line / 64 → e.1 = line) →
      ∃ t, exec (.birspArrival d line none) s = .next t ∧ t.answer = some (.bias 0) ∧ (t.domain d).biOut = []
        ∧ ∀ p, (t.domain d).bias.findD 0 p = if p = line / 64 then 0 else q.bias.findD 0 p)
    ∧ (∀ line data ex r, (s.hostReqs.find? fun r => r.line == line) = some r →
      let u := { s with hostReqs := s.hostReqs.filter fun r => r.line != line }
      (3 ≤ r.op → exec (.cxlCacheHostResponse line data ex) s = .next u)
      ∧ (r.op < 3 → (s.hostLines.filter fun p => p.1 / 64 % 4 == line / 64 % 4).length < 2 ^ 22 →
        exec (.cxlCacheHostResponse line data ex) s = .next { u with
          hostLines := s.hostLines.put line { lineOr s line with
            data := BitVec.ofNat 512 data
            state := if r.op = 0 ∧ ex = false then .shared else .exclusive } }))
    ∧ ∀ line,
      let answer := fun (t : State) (x : Option (BitVec 512)) => { t with answer := some (.snoop line x) }
      (s.hostLines.find? line = none → (∀ r ∈ s.hostReqs, r.line = line → r.op ≠ 3) →
        exec (.hostSnpInv line) s = .next (answer s none) ∧ exec (.hostSnpData line) s = .next (answer s none)
        ∧ exec (.hostSnpCur line) s = .next (answer s none))
      ∧ (∀ r, s.hostLines.find? line = none → (s.hostReqs.find? fun r => r.line == line && r.op == 3) = some r →
        let taken := { s with hostReqs := s.hostReqs.map fun r => if r.line = line ∧ r.op = 3 then { r with op := 4 } else r }
        exec (.hostSnpInv line) s = .next (answer taken (some r.data)) ∧ exec (.hostSnpData line) s = .next (answer taken (some r.data))
        ∧ exec (.hostSnpCur line) s = .next (answer s (some r.data)))
      ∧ ∀ l, s.hostLines.find? line = some l →
        let dirty := if l.state = .modified then some l.data else none
        exec (.hostSnpCur line) s = .next (answer s dirty)
        ∧ (l.mask = 0 → l.acks = 0 →
          (∃ t, exec (.hostSnpInv line) s = .next (answer t dirty)
            ∧ t = { s with hostLines := s.hostLines.del line, msgs := t.msgs, nextId := t.nextId }
            ∧ ∀ w ∈ s.hostDir.findD [] (line / 2), Told t 64 w)
          ∧ ∃ t, exec (.hostSnpData line) s = .next (answer t dirty)
            ∧ t = { s with hostLines := s.hostLines.put line { l with state := .shared }, msgs := t.msgs, nextId := t.nextId }
            ∧ (l.state = .exclusive → ∀ w ∈ s.hostDir.findD [] (line / 2), Told t 64 w) ∧ (l.state ≠ .exclusive → t.msgs = s.msgs))
        ∧ (l.mask ≠ 0 ∨ l.acks ≠ 0 →
          ∃ t, exec (.hostSnpInv line) s = .next t ∧ exec (.hostSnpData line) s = .next t
            ∧ t = { s with hostLines := t.hostLines, msgs := t.msgs, nextId := t.nextId }
            ∧ t.hostLines.find? line = some { l with mask := 0, acks := l.acks + ((List.range 64).filter fun d => l.mask.getLsbD d).length }
            ∧ ∀ d, d < 64 → l.mask.getLsbD d = true → Sent t ⟨64, d, 0, false, .inval l.va 64 (.host line)⟩)

/-- 21 R377 to R384: the drain. A quiesced one asks every resident context that its save area can hold to be saved and ends once none is
resident; an immediate one loses the work; Dirty sectors are written back and the tier that the register names then holds, by domain, the DRAM of
every domain within reach, and the state of each; a restore whose header holds writes each domain's segment, or zeros, and reports its masks. A
port that fails twice is fenced, and a wafer without a route for 100 us is lost. A collective's descriptor is posted, unless its context has been
killed, when the others hear of it, or its completion word is unusable, which is an engine fault; with every member's there and equal, the
elements combined in member order are written to dst in chunks of 4 KiB, the lowest first, and the word after them; a fault on the way, a
difference, a failed peer and an abandonment end it with their status. What another wafer asks of a home of this one is answered there, or
refused. Choices of the model that it rests on: log entries 22, 70, 72, 73 and 81. -/
def Obligations.DrainsAndCollectives : Prop :=
  ∀ (s : State),
    (
      let cleared := fun (mode : Nat) (run : Bool) (status : Nat) => { s.mgmt with
        drainMode := mode, drainRunning := run, drainStatus := status, absentMask := 0, skippedMask := 0, corruptMask := 0 }
      (exec .drainImmediate s = exec .powerFailWarning s)
      ∧ (s.mgmt.ready = true → s.mgmt.drainRunning = false ∨ s.mgmt.drainMode ≠ 1 →
        exec .drainImmediate s = .next { s with mgmt := cleared 1 true 0 })
      ∧ (s.mgmt.ready = true → s.mgmt.drainRunning = false →
        ∃ t, exec .drainQuiesced s = .next t ∧ t = { s with preempts := t.preempts, nextId := t.nextId, mgmt := cleared 0 true 0 }
          ∧ ∀ b ∈ s.blocks, s.switchedOut b.2.part b.2.ctx = false →
            s.areaFits (s.contextBlocks b.2.part b.2.ctx) ((s.partn b.2.part).save.findD (0, 0) b.2.ctx) = true →
            ∃ id p, t.preempts.find? id = some p ∧ p.part = b.2.part ∧ p.ctx = b.2.ctx ∧ p.asker = .system ∧ p.step = .soft ∧ p.since = s.time)
      ∧ (∀ image : TierImage, s.mgmt.drainRunning = false → s.mgmt.ready = true → s.blocks = [] →
        (image.headerOk = false ∨ image.version ≠ Config.tierVersion →
          exec (.drainRestore image) s = .next { s with
            mgmt := { cleared 2 false 3 with railsOff := s.mgmt.railsOff || s.mgmt.tripped } })
        ∧ (image.headerOk = true → image.version = Config.tierVersion → Map.sorted image.cells →
          ∃ t, exec (.drainRestore image) s = .next t
            ∧ t = { s with mem := t.mem, mgmt := { cleared 2 true 0 with
                absentMask := t.mgmt.absentMask, skippedMask := t.mgmt.skippedMask, corruptMask := t.mgmt.corruptMask, drainGen := image.gen } }
            ∧ ∀ d, d < 64 →
              let absent := image.absent.testBit d
              let fenced := (s.domain d).fenced || (s.domain d).regFailed
              let corrupt := image.corrupt.testBit d
              t.mgmt.absentMask.getLsbD d = absent ∧ t.mgmt.skippedMask.getLsbD d = (fenced && !absent)
              ∧ t.mgmt.corruptMask.getLsbD d = (corrupt && !absent && !fenced)
              ∧ ∀ o, o < 2 ^ 35 →
                Memory.read t.mem (s.mgmt.fabno.toNat * 2 ^ 44 + d * 2 ^ 38 + o) =
                  if fenced = true then Memory.read s.mem (s.mgmt.fabno.toNat * 2 ^ 44 + d * 2 ^ 38 + o)
                  else if absent = true ∨ corrupt = true then 0 else Memory.read image.cells (d * 2 ^ 35 + o)))
      ∧ (s.mgmt.drainRunning = false → exec .drainComplete s = .next s)
      ∧ (s.mgmt.drainRunning = true → 2 ≤ s.mgmt.drainMode →
        exec .drainComplete s = .next { s with mgmt := { s.mgmt with
          drainRunning := false, railsOff := s.mgmt.railsOff || s.mgmt.tripped
          drainStatus := if s.mgmt.absentMask = 0 ∧ s.mgmt.skippedMask = 0 ∧ s.mgmt.corruptMask = 0 then 1 else 2 } })
      ∧ (s.mgmt.drainRunning = true → s.mgmt.drainMode = 0 → s.blocks ≠ [] → exec .drainComplete s = .next s)
      ∧ (s.mgmt.drainRunning = true → s.mgmt.drainMode < 2 → (s.mgmt.drainMode = 0 → s.quiesced = true) →
        (∀ d e pa x y, DirtyAt s d pa x → DirtyAt s e pa y → x = y) → (∀ d pa x, DirtyAt s d pa x → pa % 32 = 0) →
        ∃ t i, exec .drainComplete s = .next t ∧ t.tier = some i ∧ i.target = s.mgmt.drainTarget ∧ i.version = Config.tierVersion
          ∧ i.gen = s.wafer.gen
          ∧ t.mgmt = { s.mgmt with drainRunning := false, drainStatus := 1, railsOff := s.mgmt.railsOff || s.mgmt.tripped }
          ∧ (s.mgmt.drainMode = 1 → t.blocks = [] ∧ t.reels = [] ∧ t.launches = [] ∧ t.stores = [] ∧ t.msgs = [] ∧ t.colls = [])
          ∧ (s.mgmt.drainMode = 0 → t.launches = s.launches ∧ t.saved = s.saved)
          ∧ (∀ d pa x, ¬ DirtyAt t d pa x)
          ∧ ∀ d, d < 64 →
            let out := ((s.domain d).fenced || (s.domain d).regFailed) = true
            i.states.getD d 2 = (if out then 1 else 0)
            ∧ ∀ o, o < 2 ^ 35 → ¬ out →
              let a := s.mgmt.fabno.toNat * 2 ^ 44 + d * 2 ^ 38 + o
              let got := Memory.read i.cells (d * 2 ^ 35 + o)
              (∀ e pa x, DirtyAt s e pa x → pa ≤ a → a < pa + 32 → got = BitVec.ofNat 8 (x.toNat / 256 ^ (a - pa)) ∧ Memory.read t.mem a = got)
              ∧ ((∀ e pa x, DirtyAt s e pa x → a < pa ∨ pa + 32 ≤ a) → got = Memory.read s.mem a)))
    ∧ (∀ port, port < 64 →
      exec (.relufCrcFail port false) s = .next s
      ∧ (s.portsFenced.find? port = none → exec (.relufCrcFail port true) s = .next { s with portsFenced := s.portsFenced.put port s.time }))
    ∧ (∀ wafer, wafer < 4096 → wafer ≠ s.mgmt.fabno.toNat → wafer ∉ s.lostWafers →
      let route := s.physRead (s.mgmt.rroute + 8 * wafer) 8
      ((∀ i, i < 4 → route.testBit (16 * i + 15) = true →
          ∃ since, s.portsFenced.find? (bitsOf route (16 * i + 5) (16 * i)) = some since ∧ since + 250000 ≤ s.time) →
        exec (.waferUnreachableTimeout wafer) s = .next { s with lostWafers := s.lostWafers ++ [wafer] })
      ∧ ∀ i, i < 4 → route.testBit (16 * i + 15) = true →
          (∀ since, s.portsFenced.find? (bitsOf route (16 * i + 5) (16 * i)) = some since → s.time < since + 250000) →
        exec (.waferUnreachableTimeout wafer) s = .next s)
    ∧ (∀ slot b ext x, s.queues.find? slot = some b → b.collective = true → AgentReads s b.part b.ctx b.desc 32 ext x →
      let rd := bitsOf x 191 160
      (rd = bitsOf x 159 128 → exec (.collectiveDescriptor slot ext) s = .next s)
      ∧ ∀ y u, rd ≠ bitsOf x 159 128 →
          AgentReads s b.part b.ctx ((bitsOf x 54 0 + 64 * (rd % 2 ^ (bitsOf x 67 64 + 4))) % 2 ^ 55) 64 ext y →
          s.deviceWrite (agentCore (s.domOfPart b.part)) b.ctx (b.desc + 20) 4 ((rd + 1) % 2 ^ 32) = .ok u →
        let group := u.physRead (u.mgmt.gtab + 8 * bitsOf y 191 176) 8
        let members := (List.range (bitsOf group 11 0 + 1)).map fun i => u.physRead (bitsOf group 55 16 * 2 ^ 16 + 2 * i) 2 % 2 ^ 12
        let v := { u with nextId := u.nextId + 1 }
        ∃ c : Coll, c.id = u.nextId ∧ c.ctx = b.ctx ∧ c.part = b.part ∧ c.members = members ∧ c.outcome = none
          ∧ c.desc.cw = bitsOf y 447 384 ∧ c.desc.dst = bitsOf y 374 320 ∧ c.desc.src = bitsOf y 310 256 ∧ c.desc.count = bitsOf y 255 224
          ∧ c.desc.seq = bitsOf y 223 192 ∧ c.desc.group = bitsOf y 191 176 ∧ c.desc.type = bitsOf y 167 164 ∧ c.desc.op = bitsOf y 163 160
          ∧ c.desc.root = bitsOf y 159 148
          ∧ (c.desc.malformed = false ↔ bitsOf y 383 375 = 0 ∧ bitsOf y 319 311 = 0 ∧ bitsOf y 167 164 ≤ 3 ∧ bitsOf y 163 160 ≤ 4
            ∧ 1 ≤ bitsOf y 255 224 ∧ bitsOf y 255 224 ≤ 2 ^ 31)
          ∧ (
            let usable := c.desc.cw ≠ 0 ∧ c.desc.cw % 8 = 0 ∧ c.desc.cw < 2 ^ 55
            let good := c.desc.malformed = false ∧ bitsOf group 15 12 = b.part ∧ u.mgmt.fabno.toNat ∈ members
              ∧ (c.desc.op = 3 → c.desc.root < members.length)
            (b.killed = true → exec (.collectiveDescriptor slot ext) s = .next { v with abandons := v.abandons ++ othersOf v c })
            ∧ (b.killed = false → ¬ usable → CollFaults (.collectiveDescriptor slot ext) s v c (c.desc.cw % 2 ^ 55))
            ∧ (b.killed = false → usable → good →
              exec (.collectiveDescriptor slot ext) s = .next { v with colls := collsBut v.colls c.id ++ [c] })
            ∧ (b.killed = false → usable → ¬ good → EndsWith (.collectiveDescriptor slot ext) s v c (wordOf 4 0 0 0))))
    ∧ (∀ g q,
      (∀ c, s.coll? g q = some c → c ∈ s.colls ∧ c.desc.group = g ∧ c.desc.seq = q
        ∧ (c.outcome = none → ∀ o ∈ s.colls, o.desc.group = g → o.desc.seq = q → o.outcome = none))
      ∧ (s.coll? g q = none → ∀ o ∈ s.colls, o.desc.group = g → o.desc.seq ≠ q))
    ∧ (∀ g q c peers ext, s.coll? g q = some c →
      let complete := Instr.collectiveComplete g q peers ext
      (∀ w, c.outcome = some w →
        EndsWith complete s s c w ∧ ∀ detail chunks, EndsWith (.collectiveAbandon g q detail chunks peers ext) s s c w)
      ∧ (c.outcome = none →
        let all := ∀ i, i < c.members.length → c.self s = some i ∨ ∃ p ∈ peers, p.index = i
        let differs := ∃ p ∈ peers, p.op ≠ c.desc.op ∨ p.type ≠ c.desc.type ∨ p.count ≠ c.desc.count ∨ p.root ≠ c.desc.root
        let lost := ∃ w ∈ c.members, w ∈ s.lostWafers
        ((∃ p ∈ peers, p.failed = true) → EndsWith complete s s c (wordOf 2 1 0 0))
        ∧ ((∀ p ∈ peers, p.failed = false) → all → differs → EndsWith complete s s c (wordOf 3 0 0 0))
        ∧ ((∀ p ∈ peers, p.failed = false) → all → ¬ differs →
          (∀ v xs (w : Scattered), s.gather c peers ext = (v, some (.ok xs)) → v.scatter c xs none = .ok w →
            EndsWith complete s w.s c (wordOf (if w.faulted = true then 4 else 1) 0 w.flags.toNat w.chunks))
          ∧ ∀ v k va x, s.gather c peers ext = (v, some (.error (.fault k va x))) → EndsWith complete s v c (wordOf 4 0 0 0))
        ∧ (∀ detail k, detail = 2 → ¬ lost → exec (.collectiveAbandon g q detail k peers ext) s = .next s)
        ∧ ∀ detail, (detail = 2 → lost) →
          let why := if detail = 2 then 2 else 1
          EndsWith (.collectiveAbandon g q detail 0 peers ext) s s c (wordOf 2 why 0 0)
          ∧ ∀ k v xs (w : Scattered), k ≠ 0 → s.gather c peers ext = (v, some (.ok xs)) → v.scatter c xs (some k) = .ok w →
            EndsWith (.collectiveAbandon g q detail k peers ext) s w.s c
              (if w.faulted = true then wordOf 4 0 w.flags.toNat w.chunks else wordOf 2 why w.flags.toNat w.chunks)))
    ∧ (∀ (c : Coll) (xs : List (List Nat)) (limit : Option Nat) (w : Scattered), s.scatter c xs limit = .ok w →
      let es := (c.desc.result xs).1
      let total := es.length * c.desc.size
      let n := (total + 4095) / 4096
      let upto := match limit with | some k => min n k | none => n
      let core := agentCore (s.domOfPart c.part)
      let bytes := elemsNat c.desc.size es
      w.chunks ≤ upto ∧ (w.faulted = false → w.chunks = upto)
      ∧ w.flags = (({ c.desc with count := min c.desc.count (4096 * w.chunks / c.desc.size) } : CollDesc).result xs).2
      ∧ ∃ at_ : Nat → State, at_ 0 = s ∧ at_ w.chunks = w.s
        ∧ (∀ k, k < w.chunks → (at_ k).deviceWrite core c.ctx (c.desc.dst + 4096 * k) (min 4096 (total - 4096 * k)) (bytes >>> (8 * (4096 * k))) =
            .ok (at_ (k + 1)))
        ∧ (w.faulted = true → ∃ e va x,
            w.s.deviceWrite core c.ctx (c.desc.dst + 4096 * w.chunks) (min 4096 (total - 4096 * w.chunks)) (bytes >>> (8 * (4096 * w.chunks))) =
              .error (.fault e va x)))
    ∧ (∀ cycles rest op, s.agenda = ⟨cycles, .far op⟩ :: rest →
      let now := { s with agenda := rest, time := s.time + cycles }
      let reply := fun (t : State) (x : Option Nat) => { t with answer := some (.far x) }
      ∀ va x h, op.addr = (va, x) → s.place x.pa = .home h →
        (now.exists? (x.at va) = false ∨ now.refuses h (x.at va) = true → step s = .next (reply now none))
        ∧ (now.exists? (x.at va) = true → now.refuses h (x.at va) = false → (s.domain h).regFailed = false →
          (∀ a y, op = .read a y → s.hostClear h (hdmLines (x.at va) 32) false = true →
            step s = .next (reply now (some (now.homeSector h (va / 32) (x.at (va / 32 * 32))).toNat)))
          ∧ (∀ i y, op = .write i y → s.hostClear h (hdmHalves (x.at va) i.mask) true = true → x.grain = 32 ∨ x.grain = 128 ∨ x.grain = 512 →
            ∃ t, step s = .next (reply t (some 0)) ∧ t = { now with msgs := t.msgs, nextId := t.nextId, domains := t.domains, mgmt := t.mgmt }
              ∧ Rung now t ∧ WrittenAt now t h .nobody x i)
          ∧ ∀ id a y, op = .watch id a true y → x.mode = 2 → step s = .next (reply now (some 2))))
    ∧ ∀ (c : CollDesc) (xs : List (List Nat)),
      (c.op = 3 → (c.result xs).1 = xs.getD c.root []) ∧ (c.op = 4 → (c.result xs).1 = xs.flatten)
      ∧ ∀ e, e < c.count → c.op < 3 → xs ≠ [] → (∀ x ∈ xs, x.getD e 0 < 2 ^ 32) →
        let r := (c.result xs).1.getD e 0
        (c.op = 0 → c.type = 2 ∨ c.type = 3 → r = (xs.map fun x => x.getD e 0).sum % 2 ^ 32)
        ∧ (c.op = 2 → c.type = 3 → (∃ x ∈ xs, r = x.getD e 0) ∧ ∀ x ∈ xs, x.getD e 0 ≤ r)
        ∧ (c.op = 1 → c.type = 3 → (∃ x ∈ xs, r = x.getD e 0) ∧ ∀ x ∈ xs, r ≤ x.getD e 0)
        ∧ (c.op = 2 → c.type = 2 → (∃ x ∈ xs, r = x.getD e 0) ∧ ∀ x ∈ xs, sxNat (x.getD e 0) 32 ≤ sxNat r 32)
        ∧ (c.op = 1 → c.type = 2 → (∃ x ∈ xs, r = x.getD e 0) ∧ ∀ x ∈ xs, sxNat r 32 ≤ sxNat (x.getD e 0) 32)
        ∧ (c.op = 0 → c.type = 0 → ∀ x y, xs = [x, y] →
            r = (fAdd .f32 .rne false (FVal.read .f32 false (x.getD e 0)) (FVal.read .f32 false (y.getD e 0))).1)

/-! ## The machine as a whole: no active lane, decoding, the step, reset and memory -/

namespace Sys2Proof.Rows

/-- A lane-wise instruction whose word and registers are legal (02 R30, R37). -/
inductive LaneWise (x : Issuer) : Instr → Prop
  | int {i : Instr} {o g} : IntRow x i o g → o.ok x.cur.bundle.hints.extent x.cur.bundle.hints.hb.isSome x.block.desc.vregs = true → LaneWise x i
  | fp {i : Instr} {o g} : FpRow x i o g → o.ok x.cur.bundle.hints.extent x.cur.bundle.hints.hb.isSome x.block.desc.vregs = true → LaneWise x i
  | cmp f : f.ok = true → vregOk x.block.desc.vregs (f.type == 3) f.va.toNat = true →
      (if f.sb = 1 then f.type = 3 → f.vb.toNat % 2 = 0 else vregOk x.block.desc.vregs (f.type == 3) f.vb.toNat = true) → LaneWise x (.cmp f)
  | lane {i : Instr} {vd g} : LaneRow x i vd g → LaneWise x i
  | ballot f : f.va.toNat < x.block.desc.vregs → LaneWise x (.ballot f)
  | lrd f : f.va.toNat < x.block.desc.vregs → LaneWise x (.lrd f)
  | lrdS f : f.va.toNat < x.block.desc.vregs → LaneWise x (.lrdS f)
  | load {i : Instr} {dst accs} : LoadRow x i dst accs → LaneWise x i
  | store {i : Instr} {f n} : StoreRow x i f n → LaneWise x i
  | atomic {i : Instr} {op wide ret ord scope vd va} : AtomicRow x i op wide ret ord scope vd va →
      vd + atomWidth op wide ≤ x.block.desc.vregs → va + 2 ≤ x.block.desc.vregs → LaneWise x i
  | spad {i : Instr} {f ld mode n} : SpadRow x i f ld mode n → LaneWise x i
  | bank {i : Instr} {op} {f : AOpS} : BankRow i op f → f.vd.toNat + atomWidth op (f.w == 1) ≤ x.block.desc.vregs →
      f.va.toNat < x.block.desc.vregs → LaneWise x i
  | remote {i : Instr} {f cls mode n} : RemoteRow x i f cls mode n → LaneWise x i
  | accget f t : OwnTile x f.ac.toNat t → tileReg x t f.vd.toNat → NoWide x → LaneWise x (.accget f)
  | accput f t : OwnTile x f.ac.toNat t → tileReg x t f.vd.toNat → NoWide x → LaneWise x (.accput f)

/-- The reel of key `a` goes before that of key `b` of its core in an issue slot (08 R169): one passed over for 32 cycles before one that is not; of
two that are not, the higher priority; then the one whose last issue in the slot is longest ago, if it had any; then the lower slot. -/
def GoesFirst (s : State) (vec : Bool) (a b : Nat) : Prop :=
  let q := (s.core (a / 32)).issueQ vec
  let due := fun (k : Nat) => ∃ t, q.passed.find? (k % 32) = some t ∧ t + 32 ≤ s.clock (a / 32)
  let rank := fun (k : Nat) => match ((s.reels.find? k).map (·.prio)).getD 0 with | 2 => 0 | 0 => 1 | _ => 2
  let last := fun (k : Nat) => if k % 32 ∈ q.order then q.order.idxOf (k % 32) + 1 else 0
  let earlier := last a < last b ∨ (last a = last b ∧ a < b)
  (due a ∧ ¬ due b) ∨ (due a ∧ due b ∧ earlier) ∨ (¬ due a ∧ ¬ due b ∧ (rank a < rank b ∨ (rank a = rank b ∧ earlier)))

/-- A step ends as an instruction ends, which has run in a reel's turn in an issue slot that `u` gave it. Once its bundle has issued, the split is the
last that has had a turn, the reel the last of the slot's order, and the reels that stood ready for the slot wait for it (04 R79, 08 R169). -/
def RunsAt (s u : State) (key j : Nat) (vec : Bool) (o : Out) : Prop :=
  (∀ f, o = .fault f → step s = .fault f) ∧ (∀ f, o = .refused f → step s = .refused f)
    ∧ ∀ t, o = .next t →
      (t.atIssue key j = true → step s = .next t)
      ∧ (t.atIssue key j = false →
        let core := key / 32
        let q := (t.core core).issueQ vec
        ∃ v, step s = .next v ∧ v = { t with reels := v.reels, cores := v.cores }
          ∧ (∀ k, v.reels.find? k = (t.reels.find? k).map fun r => if k = key then { r with turn := j } else r)
          ∧ (∀ c, c ≠ core → v.core c = t.core c)
          ∧ v.core core = { t.core core with vecSlot := (v.core core).vecSlot, memSlot := (v.core core).memSlot }
          ∧ (v.core core).issueQ (!vec) = (t.core core).issueQ (!vec)
          ∧ ((v.core core).issueQ vec).order = q.order.filter (· != key % 32) ++ [key % 32]
          ∧ ∀ k, ((v.core core).issueQ vec).passed.find? k =
              if k < 32 ∧ 32 * core + k ≠ key ∧ u.contends vec (32 * core + k) = true then some (q.passed.findD (u.clock core) k) else none)

/-- An address lies in the part of a saved block's image that holds its semaphores, or the registers of one of its reels (19 R356). -/
def InImage (s : State) (a : Nat) : Prop :=
  ∃ v ∈ s.saved, ∃ p, v.image = some p
    ∧ ((p + 512 ≤ a ∧ a < p + 640) ∨ ∃ i, v.reels.find? i ≠ none ∧ p + v.block.reelAt i ≤ a ∧ a < p + v.block.reelAt i + 1024 + 128 * v.block.desc.vregs)

/-- Words of the spec's listings, with what they stand for. -/
inductive Listed : Word → Instr → Prop
  | iadd : Listed 0x04004103 (.iadd ⟨0, 1, 2, 3⟩)
  | iadd64 : Listed 0x07210308 (.iadd64 ⟨1, 4, 6, 8⟩)
  | imulWideZ : Listed 0x07C28184 (.imulWideZ ⟨0, 10, 3, 4⟩)
  | iaddi : Listed 0x0C0307FF (.iaddi ⟨3, 3, 0x1FF⟩)
  | movi : Listed 0x0F890078 (.movi ⟨9, 0x78⟩)
  | cmp : Listed 0x10A40082 (.cmp ⟨2, 2, 2, 0, 0, 1, 2⟩)
  | fmul : Listed 0x20810103 (.fmulF32 ⟨0, 4, 2, 3⟩)
  | uadd : Listed 0x40061A10 (.uaddImm ⟨6, 6, 16⟩)
  | rdsrV : Listed 0x48000000 (.rdsrV ⟨0, 0⟩)
  | ldg : Listed 0x4D008802 (.ldgB32 ⟨1, 2, 0, 2⟩)
  | stg : Listed 0x50811002 (.stgB32 ⟨2, 4, 0, 2⟩)
  | waitc : Listed 0x680FFFC0 (.waitc ⟨0, 63, 15, 15⟩)
  | braAny : Listed 0x80BFFFFD (.braAny ⟨3, 0xFFFFD⟩)
  | exit_ : Listed 0x84C00000 .exit
  | hget : Listed 0x8C020A05 (.hget ⟨8, 20, 5⟩)

end Sys2Proof.Rows


/-- 02 R37: when a guard leaves no lane active, a lane-wise instruction in a legal form retires without changing registers, flags, memory or counters,
and sends no request. -/
def Obligations.NoActiveLane : Prop :=
  ∀ (i : Instr) (x : Issuer) (s : State), LaneWise x i → x.Stands s → x.active = 0 → exec i s = .next (x.into (x.advanced x.nextPc))

/-- 02 R28, R30 and the listings of 02, 06, 07 and 17: words of several families decode to what the listings write beside them, a word of major 0
and a word whose unused field is not 0 to nothing. -/
def Obligations.ListedWords : Prop :=
  (∀ w i, Listed w i → decode w = .ok i) ∧ decode 0 = .error .voidWord ∧ decode 0x84C00001 = .error .unusedFieldNotZero

/-- Decoding and encoding agree: the word of every instruction that has one decodes to it, with every operand at every value, and every word that
decodes is the word of what it decodes to, so that no bit of a word is dropped. -/
def Obligations.DecodeEncode : Prop :=
  (∀ i : Instr, encode i ≠ 0 → decode (encode i) = .ok i) ∧ ∀ (w : Word) (i : Instr), decode w = .ok i → encode i = w

/-- 01 R18, 02 R24, R31 to R36, 04 R79, 08 R160, R168, R169, 11 R226, 18 R328: a fetched word comes from its instruction line where the core holds it,
else from the bytes at its home, with execute permission; a split whose turn it is executes the instruction that its word decodes to, bare or behind
hints that it accepts, where its core chooses its reel in the word's issue slot: among the reels ready for the slot, one passed over for 32 cycles
first, then by priority, then the one whose last issue is longest ago, then the lowest slot. Once the bundle has issued, the reel's next turn is for
the splits after that one. A sequencer executes its stream words, but starts no matrix instruction in a bubble, of which a window of 16 cycles has as
many as the level. Time and the agenda move first. Choices of the model that it rests on: log entries 1, 2 and 93. -/
def Obligations.StepRunsDecoded : Prop :=
  ∀ (s : State),
    (∀ core ctx den ext va, (s.core core).permit ctx den ⟨false, false, true⟩ va = .ok →
      (∀ line, (s.core core).icache.find? (va / 128) = some line →
        s.fetchWord core ctx den ext va = (s, .word ((line >>> (8 * (va % 128 / 4 * 4))).setWidth 32)))
      ∧ ∀ t, (s.core core).icache.find? (va / 128) = none → (s.domain (core / 120)).xlats.find? (va / 65536) = some t → t.ac = false →
        let base := t.pa + va / 128 * 128 % 65536
        va % 4 = 0 → s.exists? base = true → s.reaches (core / 120) base = true → (s.domain (core / 120)).snoop = [] →
        (∀ i, i < 4 → s.place (base + 32 * i) = .home (core / 120) ∧ s.sector (core / 120) (va / 128 * 4 + i) = L2Sector.invalid) →
        ∃ u, s.fetchWord core ctx den ext va = (u, .word (BitVec.ofNat 32 (Memory.readNat s.mem (base + va % 128) 4))) ∧ u = { s with cores := u.cores })
    ∧ (∀ (vec : Bool) key, ((s.core (key / 32)).issueQ vec).order.length ≤ 32 →
      (s.chosen vec key = true ↔ ∀ k, k / 32 = key / 32 → k ≠ key → s.contends vec k = true → GoesFirst s vec key k))
    ∧ (∀ (r : Reel) now j p, r.yielded = none → r.restUntil ≤ now → r.splits.find? j = some p →
      (r.mayTurn now j = true ↔ ∀ e ∈ r.splits, e.2.ready = true → (j + 3 - r.turn) % 4 ≤ (e.1 + 3 - r.turn) % 4))
    ∧ (∀ n, n ≤ 16 → ((List.range 16).filter fun p => decide (bubbleOrder p < n)).length = n)
    ∧ (∀ d, s.bubbled d = true ↔ bubbleOrder (s.cycles d % 16) < (s.domain d).level)
    ∧ (∀ cycles rest key ext b w u,
      s.agenda = ⟨cycles, .stream key ext⟩ :: rest → s.blocks.find? key = some b → b.seq.mode = .running → SeqWait.retry b.seq.wait = true →
      let now := { s with agenda := rest, time := s.time + cycles }
      now.runs key b = true → now.fetchWord b.core b.ctx (SeqWait.deniedOf b.seq.wait) ext b.seq.pc.toNat = (u, .word w) →
      let major := w.toNat / 2 ^ 26
      let hx := w.toNat / 2 ^ 23 = 0x1F8 ∧ b.seq.hx = none
      let at_ := { u with scur := some ⟨key, b.seq.pc, w, b.seq.hx.map (·.1)⟩ }
      (major = 0x31 → u.bubbled (b.core / 120) = true → step s = .next u)
      ∧ (major ≠ 0x31 ∨ u.bubbled (b.core / 120) = false →
        (hx → step s = .next { u with blocks := u.blocks.adjust key fun b' => { b' with
          seq := { b'.seq with hx := some (w.setWidth 23, b.seq.pc), pc := b.seq.pc + 4, wait := none } } })
        ∧ (¬ hx → ∀ i, w = 0x84A00000 ∨ (0x30 ≤ major ∧ major ≤ 0x33) → decode w = .ok i → step s = exec i at_)
        ∧ (¬ hx → w ≠ 0x84A00000 → major < 0x30 ∨ 0x33 < major → step s = exec (.illegalStreamWord w) at_)))
    ∧ (∀ cycles rest key j ext r p b bun i,
      s.agenda = ⟨cycles, .issue key j ext⟩ :: rest → s.reels.find? key = some r → r.splits.find? j = some p → s.blocks.find? r.block = some b →
      p.bundle = some bun → (∀ load scope, p.wait ≠ some (.acquire load scope)) → r.yielded = none → decode bun.word = .ok i →
      let now := { s with agenda := rest, time := s.time + cycles }
      let u := now.setReel key r
      now.mayIssue key j r p b = true →
      (u.atIssue key j = false → step s = exec i { u with cur := some ⟨key, j, bun⟩ })
      ∧ (u.atIssue key j = true → u.chosen (inVecSlot bun.word) key = false → step s = .next u)
      ∧ (u.atIssue key j = true → u.chosen (inVecSlot bun.word) key = true →
        RunsAt s u key j (inVecSlot bun.word) (exec i { u with cur := some ⟨key, j, bun⟩ })))
    ∧ ∀ cycles rest key j ext r p b,
      s.agenda = ⟨cycles, .issue key j ext⟩ :: rest → s.reels.find? key = some r → r.splits.find? j = some p → s.blocks.find? r.block = some b →
      p.wait = none → p.bundle = none → r.yielded = none →
      let now := { s with agenda := rest, time := s.time + cycles }
      now.mayIssue key j r p b = true →
      (∀ w i u, (now.setReel key r).fetchWord b.core b.ctx [] ext p.pc.toNat = (u, .word w) → isHint w = false → decode w = .ok i →
        (u.chosen (inVecSlot w) key = false → step s = .next u)
        ∧ (u.chosen (inVecSlot w) key = true →
          RunsAt s u key j (inVecSlot w) (exec i { u with
            reels := u.reels.adjust key fun q => { q with splits := q.splits.put j p }, cur := some ⟨key, j, ⟨p.pc, p.pc, w, Hints.empty⟩⟩ })))
      ∧ ∀ ws h n u i, (now.setReel key r).fetchBundle b.core b.ctx [] ext 4 p.pc [] = (u, ws, none) →
          let w := ws.getD n 0
          scanHints (badAddend w (u.vregsOf key)) ws Hints.empty 0 = .ok h n →
          n = min (leadingHints ws) 3 → h.kinds &&& ~~~acceptedHints w = 0 → decode w = .ok i →
        (u.chosen (inVecSlot w) key = false → step s = .next u)
        ∧ (u.chosen (inVecSlot w) key = true →
          RunsAt s u key j (inVecSlot w) (exec i { u with
            reels := u.reels.adjust key fun q => { q with splits := q.splits.put j p }
            cur := some ⟨key, j, ⟨p.pc, p.pc + BitVec.ofNat 55 (4 * n), w, h⟩⟩ }))

/-- 22 R386, R391: after reset every cache, directory entry, translation, lookaside entry, attribution entry, victim-array entry and reduction
slot is invalid or empty; every limiter level is 0, every power cap 330 W, every operating point 0; every domain is in partition 0, and register p
of the connection matrix permits p alone; no queue slot is bound. No block is resident, no launch is held, the management registers hold what
their map gives, and memory lists nothing and reads 0. Choices of the model that it rests on: log entries 4, 5, 13 and 85. -/
def Obligations.ResetState : Prop :=
  let s := State.reset
  (∀ c, (s.core c).l1 = [] ∧ (s.core c).icache = [] ∧ (s.core c).look = [] ∧ (s.core c).victims = [] ∧ (s.core c).om = [] ∧ (s.core c).ac = [])
  ∧ (∀ d, (s.domain d).l2 = [] ∧ (s.domain d).dir = [] ∧ (s.domain d).xlats = [] ∧ (s.domain d).slots = [] ∧ (s.domain d).level = 0
      ∧ (s.domain d).cap = 330 ∧ (s.domain d).point = 0 ∧ (s.domain d).part = 0 ∧ (s.domain d).bubbles = 0 ∧ (s.domain d).fenced = false)
  ∧ (∀ p, p < 16 → (∀ q, q < 16 → ((s.partn p).conn.getLsbD q = true ↔ q = p)) ∧ (s.partn p).ctxtab = 0 ∧ (s.partn p).xlat1 = 0
      ∧ (s.partn p).xlat2 = 0 ∧ (s.partn p).fringBase = 0 ∧ (s.partn p).grace = 100 ∧ (s.partn p).kill = 10000 ∧ (s.partn p).slice = 50)
  ∧ s.reels = [] ∧ s.blocks = [] ∧ s.launches = [] ∧ s.queues = [] ∧ s.stores = [] ∧ s.msgs = [] ∧ s.faults = [] ∧ s.hostLines = []
  ∧ s.mgmt.ready = false ∧ s.mgmt.recovery = false ∧ s.mgmt.banner = 0 ∧ s.mgmt.fabno = 0 ∧ s.mgmt.pendingBells = [] ∧ s.mgmt.drainStatus = 0
  ∧ s.wafer.gen = 1 ∧ s.memOk ∧ ∀ a, Memory.read s.mem a = 0

/-- Memory keeps its canonical form in every step: addresses strictly rising, and no byte listed that an unlisted one would read as. Choices of
the model that it rests on: log entry 13. -/
def Obligations.StepKeepsMemory : Prop :=
  ∀ (s t : State), s.memOk → step s = .next t → t.memOk

/-- 09 R176, 14 R275: no instruction of a reel, and no illegal word, changes a byte of memory as it executes: what it stores is applied where it is
homed, by an event of its own. Only the image of a saved reel follows that reel's registers, and the image of a saved block its semaphores. -/
def Obligations.InstructionsLeaveMemory : Prop :=
  ∀ (i : Instr) (s t : State), s.scur = none → (encode i ≠ 0 ∧ (encode i).toNat < 0x30 * 2 ^ 26) ∨ (∃ w, i = .illegalWord w) → exec i s = .next t →
    ∀ a, ¬ InImage s a → Memory.read t.mem a = Memory.read s.mem a
end

