-- ==== Sys2Proof/Laws/Exec.lean ====
section
/-! SUPPORT. The meaning each arm of `exec` calls, and the check of each instruction's fields, one lemma for each constructor. -/

namespace Sys2Proof.Machine

variable (s : State)

theorem exec_iadd (f) : exec (.iadd f) s = execIadd f s := rfl
theorem exec_isub (f) : exec (.isub f) s = execIsub f s := rfl
theorem exec_imul (f) : exec (.imul f) s = execImul f s := rfl
theorem exec_imulhI (f) : exec (.imulhI f) s = execImulhI f s := rfl
theorem exec_imulhZ (f) : exec (.imulhZ f) s = execImulhZ f s := rfl
theorem exec_iminI (f) : exec (.iminI f) s = execIminI f s := rfl
theorem exec_imaxI (f) : exec (.imaxI f) s = execImaxI f s := rfl
theorem exec_iminZ (f) : exec (.iminZ f) s = execIminZ f s := rfl
theorem exec_imaxZ (f) : exec (.imaxZ f) s = execImaxZ f s := rfl
theorem exec_iabs (f) : exec (.iabs f) s = execIabs f s := rfl
theorem exec_iaddSatI (f) : exec (.iaddSatI f) s = execIaddSatI f s := rfl
theorem exec_isubSatI (f) : exec (.isubSatI f) s = execIsubSatI f s := rfl
theorem exec_iadd64 (f) : exec (.iadd64 f) s = execIadd64 f s := rfl
theorem exec_isub64 (f) : exec (.isub64 f) s = execIsub64 f s := rfl
theorem exec_imulWideI (f) : exec (.imulWideI f) s = execImulWideI f s := rfl
theorem exec_imulWideZ (f) : exec (.imulWideZ f) s = execImulWideZ f s := rfl
theorem exec_and (f) : exec (.and f) s = execAnd f s := rfl
theorem exec_or (f) : exec (.or f) s = execOr f s := rfl
theorem exec_xor (f) : exec (.xor f) s = execXor f s := rfl
theorem exec_andn (f) : exec (.andn f) s = execAndn f s := rfl
theorem exec_shl (f) : exec (.shl f) s = execShl f s := rfl
theorem exec_shr (f) : exec (.shr f) s = execShr f s := rfl
theorem exec_sar (f) : exec (.sar f) s = execSar f s := rfl
theorem exec_rotl (f) : exec (.rotl f) s = execRotl f s := rfl
theorem exec_shl64 (f) : exec (.shl64 f) s = execShl64 f s := rfl
theorem exec_shr64 (f) : exec (.shr64 f) s = execShr64 f s := rfl
theorem exec_popc (f) : exec (.popc f) s = execPopc f s := rfl
theorem exec_clz (f) : exec (.clz f) s = execClz f s := rfl
theorem exec_brev (f) : exec (.brev f) s = execBrev f s := rfl
theorem exec_bfxZ (f) : exec (.bfxZ f) s = execBfxZ f s := rfl
theorem exec_bfxI (f) : exec (.bfxI f) s = execBfxI f s := rfl
theorem exec_bfi (f) : exec (.bfi f) s = execBfi f s := rfl
theorem exec_iaddi (f) : exec (.iaddi f) s = execIaddi f s := rfl
theorem exec_andi (f) : exec (.andi f) s = execAndi f s := rfl
theorem exec_ori (f) : exec (.ori f) s = execOri f s := rfl
theorem exec_xori (f) : exec (.xori f) s = execXori f s := rfl
theorem exec_shli (f) : exec (.shli f) s = execShli f s := rfl
theorem exec_shri (f) : exec (.shri f) s = execShri f s := rfl
theorem exec_sari (f) : exec (.sari f) s = execSari f s := rfl
theorem exec_movi (f) : exec (.movi f) s = execMovi f s := rfl
theorem exec_cmp (f) : exec (.cmp f) s = execCmp f s := rfl
theorem exec_sel (f) : exec (.sel f) s = execSel f s := rfl
theorem exec_mov (f) : exec (.mov f) s = execMov f s := rfl
theorem exec_shflIdx (f) : exec (.shflIdx f) s = execShflIdx f s := rfl
theorem exec_shflUp (f) : exec (.shflUp f) s = execShflUp f s := rfl
theorem exec_shflDown (f) : exec (.shflDown f) s = execShflDown f s := rfl
theorem exec_shflXor (f) : exec (.shflXor f) s = execShflXor f s := rfl
theorem exec_kprefix (f) : exec (.kprefix f) s = execKprefix f s := rfl
theorem exec_ballot (f) : exec (.ballot f) s = execBallot f s := rfl
theorem exec_lrd (f) : exec (.lrd f) s = execLrd f s := rfl
theorem exec_lrdS (f) : exec (.lrdS f) s = execLrdS f s := rfl
theorem exec_kand (f) : exec (.kand f) s = execKand f s := rfl
theorem exec_kor (f) : exec (.kor f) s = execKor f s := rfl
theorem exec_kxor (f) : exec (.kxor f) s = execKxor f s := rfl
theorem exec_knot (f) : exec (.knot f) s = execKnot f s := rfl
theorem exec_kmovKs (f) : exec (.kmovKs f) s = execKmovKs f s := rfl
theorem exec_kmovSk (f) : exec (.kmovSk f) s = execKmovSk f s := rfl
theorem exec_kpopc (f) : exec (.kpopc f) s = execKpopc f s := rfl
theorem exec_kffs (f) : exec (.kffs f) s = execKffs f s := rfl
theorem exec_faddF32 (f) : exec (.faddF32 f) s = execFaddF32 f s := rfl
theorem exec_fsubF32 (f) : exec (.fsubF32 f) s = execFsubF32 f s := rfl
theorem exec_fmulF32 (f) : exec (.fmulF32 f) s = execFmulF32 f s := rfl
theorem exec_ffmaF32 (f) : exec (.ffmaF32 f) s = execFfmaF32 f s := rfl
theorem exec_ffmsF32 (f) : exec (.ffmsF32 f) s = execFfmsF32 f s := rfl
theorem exec_fnmaF32 (f) : exec (.fnmaF32 f) s = execFnmaF32 f s := rfl
theorem exec_fminF32 (f) : exec (.fminF32 f) s = execFminF32 f s := rfl
theorem exec_fmaxF32 (f) : exec (.fmaxF32 f) s = execFmaxF32 f s := rfl
theorem exec_fabsF32 (f) : exec (.fabsF32 f) s = execFabsF32 f s := rfl
theorem exec_fnegF32 (f) : exec (.fnegF32 f) s = execFnegF32 f s := rfl
theorem exec_fcsgnF32 (f) : exec (.fcsgnF32 f) s = execFcsgnF32 f s := rfl
theorem exec_faddF64 (f) : exec (.faddF64 f) s = execFaddF64 f s := rfl
theorem exec_fsubF64 (f) : exec (.fsubF64 f) s = execFsubF64 f s := rfl
theorem exec_fmulF64 (f) : exec (.fmulF64 f) s = execFmulF64 f s := rfl
theorem exec_ffmaF64 (f) : exec (.ffmaF64 f) s = execFfmaF64 f s := rfl
theorem exec_ffmsF64 (f) : exec (.ffmsF64 f) s = execFfmsF64 f s := rfl
theorem exec_fnmaF64 (f) : exec (.fnmaF64 f) s = execFnmaF64 f s := rfl
theorem exec_fminF64 (f) : exec (.fminF64 f) s = execFminF64 f s := rfl
theorem exec_fmaxF64 (f) : exec (.fmaxF64 f) s = execFmaxF64 f s := rfl
theorem exec_fabsF64 (f) : exec (.fabsF64 f) s = execFabsF64 f s := rfl
theorem exec_fnegF64 (f) : exec (.fnegF64 f) s = execFnegF64 f s := rfl
theorem exec_fcsgnF64 (f) : exec (.fcsgnF64 f) s = execFcsgnF64 f s := rfl
theorem exec_haddF16 (f) : exec (.haddF16 f) s = execHaddF16 f s := rfl
theorem exec_hmulF16 (f) : exec (.hmulF16 f) s = execHmulF16 f s := rfl
theorem exec_hfmaF16 (f) : exec (.hfmaF16 f) s = execHfmaF16 f s := rfl
theorem exec_hminF16 (f) : exec (.hminF16 f) s = execHminF16 f s := rfl
theorem exec_hmaxF16 (f) : exec (.hmaxF16 f) s = execHmaxF16 f s := rfl
theorem exec_haddBf16 (f) : exec (.haddBf16 f) s = execHaddBf16 f s := rfl
theorem exec_hmulBf16 (f) : exec (.hmulBf16 f) s = execHmulBf16 f s := rfl
theorem exec_hfmaBf16 (f) : exec (.hfmaBf16 f) s = execHfmaBf16 f s := rfl
theorem exec_hminBf16 (f) : exec (.hminBf16 f) s = execHminBf16 f s := rfl
theorem exec_hmaxBf16 (f) : exec (.hmaxBf16 f) s = execHmaxBf16 f s := rfl
theorem exec_frcpF32 (f) : exec (.frcpF32 f) s = execFrcpF32 f s := rfl
theorem exec_frsqF32 (f) : exec (.frsqF32 f) s = execFrsqF32 f s := rfl
theorem exec_fsqrtF32 (f) : exec (.fsqrtF32 f) s = execFsqrtF32 f s := rfl
theorem exec_fexp2F32 (f) : exec (.fexp2F32 f) s = execFexp2F32 f s := rfl
theorem exec_flog2F32 (f) : exec (.flog2F32 f) s = execFlog2F32 f s := rfl
theorem exec_ffloorF32 (f) : exec (.ffloorF32 f) s = execFfloorF32 f s := rfl
theorem exec_fceilF32 (f) : exec (.fceilF32 f) s = execFceilF32 f s := rfl
theorem exec_ftruncF32 (f) : exec (.ftruncF32 f) s = execFtruncF32 f s := rfl
theorem exec_frintF32 (f) : exec (.frintF32 f) s = execFrintF32 f s := rfl
theorem exec_fclassF32 (f) : exec (.fclassF32 f) s = execFclassF32 f s := rfl
theorem exec_fdivF32 (f) : exec (.fdivF32 f) s = execFdivF32 f s := rfl
theorem exec_fsqrtF64 (f) : exec (.fsqrtF64 f) s = execFsqrtF64 f s := rfl
theorem exec_frcpF64 (f) : exec (.frcpF64 f) s = execFrcpF64 f s := rfl
theorem exec_fdivF64 (f) : exec (.fdivF64 f) s = execFdivF64 f s := rfl
theorem exec_cvtI32 (f) : exec (.cvtI32 f) s = execCvtI32 f s := rfl
theorem exec_cvtZ32 (f) : exec (.cvtZ32 f) s = execCvtZ32 f s := rfl
theorem exec_cvtI64 (f) : exec (.cvtI64 f) s = execCvtI64 f s := rfl
theorem exec_cvtZ64 (f) : exec (.cvtZ64 f) s = execCvtZ64 f s := rfl
theorem exec_cvtF32 (f) : exec (.cvtF32 f) s = execCvtF32 f s := rfl
theorem exec_cvtF64 (f) : exec (.cvtF64 f) s = execCvtF64 f s := rfl
theorem exec_cvtF16 (f) : exec (.cvtF16 f) s = execCvtF16 f s := rfl
theorem exec_cvtBf16 (f) : exec (.cvtBf16 f) s = execCvtBf16 f s := rfl
theorem exec_cvtE4m3 (f) : exec (.cvtE4m3 f) s = execCvtE4m3 f s := rfl
theorem exec_cvtE5m2 (f) : exec (.cvtE5m2 f) s = execCvtE5m2 f s := rfl
theorem exec_cvtI8 (f) : exec (.cvtI8 f) s = execCvtI8 f s := rfl
theorem exec_cvtZ8 (f) : exec (.cvtZ8 f) s = execCvtZ8 f s := rfl
theorem exec_cvtI16 (f) : exec (.cvtI16 f) s = execCvtI16 f s := rfl
theorem exec_cvtZ16 (f) : exec (.cvtZ16 f) s = execCvtZ16 f s := rfl
theorem exec_uadd (f) : exec (.uadd f) s = execUadd f s := rfl
theorem exec_uaddImm (f) : exec (.uaddImm f) s = execUaddImm f s := rfl
theorem exec_usub (f) : exec (.usub f) s = execUsub f s := rfl
theorem exec_usubImm (f) : exec (.usubImm f) s = execUsubImm f s := rfl
theorem exec_umul (f) : exec (.umul f) s = execUmul f s := rfl
theorem exec_umulImm (f) : exec (.umulImm f) s = execUmulImm f s := rfl
theorem exec_uand (f) : exec (.uand f) s = execUand f s := rfl
theorem exec_uandImm (f) : exec (.uandImm f) s = execUandImm f s := rfl
theorem exec_uor (f) : exec (.uor f) s = execUor f s := rfl
theorem exec_uorImm (f) : exec (.uorImm f) s = execUorImm f s := rfl
theorem exec_uxor (f) : exec (.uxor f) s = execUxor f s := rfl
theorem exec_uxorImm (f) : exec (.uxorImm f) s = execUxorImm f s := rfl
theorem exec_ushl (f) : exec (.ushl f) s = execUshl f s := rfl
theorem exec_ushlImm (f) : exec (.ushlImm f) s = execUshlImm f s := rfl
theorem exec_ushr (f) : exec (.ushr f) s = execUshr f s := rfl
theorem exec_ushrImm (f) : exec (.ushrImm f) s = execUshrImm f s := rfl
theorem exec_usar (f) : exec (.usar f) s = execUsar f s := rfl
theorem exec_usarImm (f) : exec (.usarImm f) s = execUsarImm f s := rfl
theorem exec_uminI (f) : exec (.uminI f) s = execUminI f s := rfl
theorem exec_uminIImm (f) : exec (.uminIImm f) s = execUminIImm f s := rfl
theorem exec_umaxI (f) : exec (.umaxI f) s = execUmaxI f s := rfl
theorem exec_umaxIImm (f) : exec (.umaxIImm f) s = execUmaxIImm f s := rfl
theorem exec_umov (f) : exec (.umov f) s = execUmov f s := rfl
theorem exec_umovImm (f) : exec (.umovImm f) s = execUmovImm f s := rfl
theorem exec_uadd64 (f) : exec (.uadd64 f) s = execUadd64 f s := rfl
theorem exec_uadd64Imm (f) : exec (.uadd64Imm f) s = execUadd64Imm f s := rfl
theorem exec_ucmp (f) : exec (.ucmp f) s = execUcmp f s := rfl
theorem exec_rdsrV (f) : exec (.rdsrV f) s = execRdsrV f s := rfl
theorem exec_rdsr (f) : exec (.rdsr f) s = execRdsr f s := rfl
theorem exec_wrsr (f) : exec (.wrsr f) s = execWrsr f s := rfl
theorem exec_vgetx (f) : exec (.vgetx f) s = execVgetx f s := rfl
theorem exec_vsetx (f) : exec (.vsetx f) s = execVsetx f s := rfl
theorem exec_ldgZ8 (f) : exec (.ldgZ8 f) s = execLdgZ8 f s := rfl
theorem exec_ldgI8 (f) : exec (.ldgI8 f) s = execLdgI8 f s := rfl
theorem exec_ldgZ16 (f) : exec (.ldgZ16 f) s = execLdgZ16 f s := rfl
theorem exec_ldgI16 (f) : exec (.ldgI16 f) s = execLdgI16 f s := rfl
theorem exec_ldgB32 (f) : exec (.ldgB32 f) s = execLdgB32 f s := rfl
theorem exec_ldgB64 (f) : exec (.ldgB64 f) s = execLdgB64 f s := rfl
theorem exec_ldgB128 (f) : exec (.ldgB128 f) s = execLdgB128 f s := rfl
theorem exec_lduB32 (f) : exec (.lduB32 f) s = execLduB32 f s := rfl
theorem exec_lduB64 (f) : exec (.lduB64 f) s = execLduB64 f s := rfl
theorem exec_stgB8 (f) : exec (.stgB8 f) s = execStgB8 f s := rfl
theorem exec_stgB16 (f) : exec (.stgB16 f) s = execStgB16 f s := rfl
theorem exec_stgB32 (f) : exec (.stgB32 f) s = execStgB32 f s := rfl
theorem exec_stgB64 (f) : exec (.stgB64 f) s = execStgB64 f s := rfl
theorem exec_stgB128 (f) : exec (.stgB128 f) s = execStgB128 f s := rfl
theorem exec_ldsZ16 (f) : exec (.ldsZ16 f) s = execLdsZ16 f s := rfl
theorem exec_ldsB32 (f) : exec (.ldsB32 f) s = execLdsB32 f s := rfl
theorem exec_ldsB32Wfull (f) : exec (.ldsB32Wfull f) s = execLdsB32Wfull f s := rfl
theorem exec_ldsB32Take (f) : exec (.ldsB32Take f) s = execLdsB32Take f s := rfl
theorem exec_ldsB64 (f) : exec (.ldsB64 f) s = execLdsB64 f s := rfl
theorem exec_ldsB64Wfull (f) : exec (.ldsB64Wfull f) s = execLdsB64Wfull f s := rfl
theorem exec_ldsB64Take (f) : exec (.ldsB64Take f) s = execLdsB64Take f s := rfl
theorem exec_ldsB128 (f) : exec (.ldsB128 f) s = execLdsB128 f s := rfl
theorem exec_ldsB128Wfull (f) : exec (.ldsB128Wfull f) s = execLdsB128Wfull f s := rfl
theorem exec_ldsB128Take (f) : exec (.ldsB128Take f) s = execLdsB128Take f s := rfl
theorem exec_stsB16 (f) : exec (.stsB16 f) s = execStsB16 f s := rfl
theorem exec_stsB32 (f) : exec (.stsB32 f) s = execStsB32 f s := rfl
theorem exec_stsB32Put (f) : exec (.stsB32Put f) s = execStsB32Put f s := rfl
theorem exec_stsB32Fill (f) : exec (.stsB32Fill f) s = execStsB32Fill f s := rfl
theorem exec_stsB32Drain (f) : exec (.stsB32Drain f) s = execStsB32Drain f s := rfl
theorem exec_stsB64 (f) : exec (.stsB64 f) s = execStsB64 f s := rfl
theorem exec_stsB64Put (f) : exec (.stsB64Put f) s = execStsB64Put f s := rfl
theorem exec_stsB64Fill (f) : exec (.stsB64Fill f) s = execStsB64Fill f s := rfl
theorem exec_stsB64Drain (f) : exec (.stsB64Drain f) s = execStsB64Drain f s := rfl
theorem exec_stsB128 (f) : exec (.stsB128 f) s = execStsB128 f s := rfl
theorem exec_stsB128Put (f) : exec (.stsB128Put f) s = execStsB128Put f s := rfl
theorem exec_stsB128Fill (f) : exec (.stsB128Fill f) s = execStsB128Fill f s := rfl
theorem exec_stsB128Drain (f) : exec (.stsB128Drain f) s = execStsB128Drain f s := rfl
theorem exec_atomgAdd (f) : exec (.atomgAdd f) s = execAtomgAdd f s := rfl
theorem exec_atomgFadd (f) : exec (.atomgFadd f) s = execAtomgFadd f s := rfl
theorem exec_atomgMinI (f) : exec (.atomgMinI f) s = execAtomgMinI f s := rfl
theorem exec_atomgMaxI (f) : exec (.atomgMaxI f) s = execAtomgMaxI f s := rfl
theorem exec_atomgMinZ (f) : exec (.atomgMinZ f) s = execAtomgMinZ f s := rfl
theorem exec_atomgMaxZ (f) : exec (.atomgMaxZ f) s = execAtomgMaxZ f s := rfl
theorem exec_atomgAnd (f) : exec (.atomgAnd f) s = execAtomgAnd f s := rfl
theorem exec_atomgOr (f) : exec (.atomgOr f) s = execAtomgOr f s := rfl
theorem exec_atomgXor (f) : exec (.atomgXor f) s = execAtomgXor f s := rfl
theorem exec_atomgExch (f) : exec (.atomgExch f) s = execAtomgExch f s := rfl
theorem exec_atomgCas (f) : exec (.atomgCas f) s = execAtomgCas f s := rfl
theorem exec_atomgLd (f) : exec (.atomgLd f) s = execAtomgLd f s := rfl
theorem exec_atomgSt (f) : exec (.atomgSt f) s = execAtomgSt f s := rfl
theorem exec_atomgXadd (f) : exec (.atomgXadd f) s = execAtomgXadd f s := rfl
theorem exec_atomsAdd (f) : exec (.atomsAdd f) s = execAtomsAdd f s := rfl
theorem exec_atomsFadd (f) : exec (.atomsFadd f) s = execAtomsFadd f s := rfl
theorem exec_atomsMinI (f) : exec (.atomsMinI f) s = execAtomsMinI f s := rfl
theorem exec_atomsMaxI (f) : exec (.atomsMaxI f) s = execAtomsMaxI f s := rfl
theorem exec_atomsMinZ (f) : exec (.atomsMinZ f) s = execAtomsMinZ f s := rfl
theorem exec_atomsMaxZ (f) : exec (.atomsMaxZ f) s = execAtomsMaxZ f s := rfl
theorem exec_atomsAnd (f) : exec (.atomsAnd f) s = execAtomsAnd f s := rfl
theorem exec_atomsOr (f) : exec (.atomsOr f) s = execAtomsOr f s := rfl
theorem exec_atomsXor (f) : exec (.atomsXor f) s = execAtomsXor f s := rfl
theorem exec_atomsExch (f) : exec (.atomsExch f) s = execAtomsExch f s := rfl
theorem exec_atomsCas (f) : exec (.atomsCas f) s = execAtomsCas f s := rfl
theorem exec_fence (f) : exec (.fence f) s = execFence f s := rfl
theorem exec_ifence : exec (.ifence) s = execIfence s := rfl
theorem exec_waitc (f) : exec (.waitc f) s = execWaitc f s := rfl
theorem exec_binit (f) : exec (.binit f) s = execBinit f s := rfl
theorem exec_barrive (f) : exec (.barrive f) s = execBarrive f s := rfl
theorem exec_bwait (f) : exec (.bwait f) s = execBwait f s := rfl
theorem exec_bsync (f) : exec (.bsync f) s = execBsync f s := rfl
theorem exec_semset (f) : exec (.semset f) s = execSemset f s := rfl
theorem exec_semadd (f) : exec (.semadd f) s = execSemadd f s := rfl
theorem exec_semwait (f) : exec (.semwait f) s = execSemwait f s := rfl
theorem exec_watch (f) : exec (.watch f) s = execWatch f s := rfl
theorem exec_watchSpad (f) : exec (.watchSpad f) s = execWatchSpad f s := rfl
theorem exec_park (f) : exec (.park f) s = execPark f s := rfl
theorem exec_unwatch (f) : exec (.unwatch f) s = execUnwatch f s := rfl
theorem exec_sloop (f) : exec (.sloop f) s = execSloop f s := rfl
theorem exec_siter (f) : exec (.siter f) s = execSiter f s := rfl
theorem exec_stadv (f) : exec (.stadv f) s = execStadv f s := rfl
theorem exec_stjmp (f) : exec (.stjmp f) s = execStjmp f s := rfl
theorem exec_waitl (f) : exec (.waitl f) s = execWaitl f s := rfl
theorem exec_sdone : exec (.sdone) s = execSdone s := rfl
theorem exec_send : exec (.send) s = execSend s := rfl
theorem exec_spost (f) : exec (.spost f) s = execSpost f s := rfl
theorem exec_waitm (f) : exec (.waitm f) s = execWaitm f s := rfl
theorem exec_sread (f) : exec (.sread f) s = execSread f s := rfl
theorem exec_layset (f) : exec (.layset f) s = execLayset f s := rfl
theorem exec_laysetSpad (f) : exec (.laysetSpad f) s = execLaysetSpad f s := rfl
theorem exec_cpy (f) : exec (.cpy f) s = execCpy f s := rfl
theorem exec_gath (f) : exec (.gath f) s = execGath f s := rfl
theorem exec_scat (f) : exec (.scat f) s = execScat f s := rfl
theorem exec_mstart (f) : exec (.mstart f) s = execMstart f s := rfl
theorem exec_accget (f) : exec (.accget f) s = execAccget f s := rfl
theorem exec_accgetSt (f) : exec (.accgetSt f) s = execAccgetSt f s := rfl
theorem exec_accput (f) : exec (.accput f) s = execAccput f s := rfl
theorem exec_rlds (f) : exec (.rlds f) s = execRlds f s := rfl
theorem exec_rldsWfull (f) : exec (.rldsWfull f) s = execRldsWfull f s := rfl
theorem exec_rldsTake (f) : exec (.rldsTake f) s = execRldsTake f s := rfl
theorem exec_rsts (f) : exec (.rsts f) s = execRsts f s := rfl
theorem exec_rstsPut (f) : exec (.rstsPut f) s = execRstsPut f s := rfl
theorem exec_rstsFill (f) : exec (.rstsFill f) s = execRstsFill f s := rfl
theorem exec_rstsDrain (f) : exec (.rstsDrain f) s = execRstsDrain f s := rfl
theorem exec_ratomAdd (f) : exec (.ratomAdd f) s = execRatomAdd f s := rfl
theorem exec_ratomExch (f) : exec (.ratomExch f) s = execRatomExch f s := rfl
theorem exec_ratomCas (f) : exec (.ratomCas f) s = execRatomCas f s := rfl
theorem exec_ratomOr (f) : exec (.ratomOr f) s = execRatomOr f s := rfl
theorem exec_bra (f) : exec (.bra f) s = execBra f s := rfl
theorem exec_braAny (f) : exec (.braAny f) s = execBraAny f s := rfl
theorem exec_braAll (f) : exec (.braAll f) s = execBraAll f s := rfl
theorem exec_braNone (f) : exec (.braNone f) s = execBraNone f s := rfl
theorem exec_braDiv (f) : exec (.braDiv f) s = execBraDiv f s := rfl
theorem exec_call (f) : exec (.call f) s = execCall f s := rfl
theorem exec_jmpi (f) : exec (.jmpi f) s = execJmpi f s := rfl
theorem exec_calli (f) : exec (.calli f) s = execCalli f s := rfl
theorem exec_ret (f) : exec (.ret f) s = execRet f s := rfl
theorem exec_join : exec (.join) s = execJoin s := rfl
theorem exec_yield : exec (.yield) s = execYield s := rfl
theorem exec_nop : exec (.nop) s = execNop s := rfl
theorem exec_exit : exec (.exit) s = execExit s := rfl
theorem exec_trap (f) : exec (.trap f) s = execTrap f s := rfl
theorem exec_tretRetry : exec (.tretRetry) s = execTretRetry s := rfl
theorem exec_tretSkip : exec (.tretSkip) s = execTretSkip s := rfl
theorem exec_brk : exec (.brk) s = execBrk s := rfl
theorem exec_hget (f) : exec (.hget f) s = execHget f s := rfl
theorem exec_hset (f) : exec (.hset f) s = execHset f s := rfl
theorem exec_hldone (f) : exec (.hldone f) s = execHldone f s := rfl
theorem exec_resumeContinue (f) : exec (.resumeContinue f) s = execResumeContinue f s := rfl
theorem exec_resumeDrop (f) : exec (.resumeDrop f) s = execResumeDrop f s := rfl
theorem exec_resumeRetry (f) : exec (.resumeRetry f) s = execResumeRetry f s := rfl
theorem exec_kill (f) : exec (.kill f) s = execKill f s := rfl
theorem exec_launch (f) : exec (.launch f) s = execLaunch f s := rfl
theorem exec_lstat (f) : exec (.lstat f) s = execLstat f s := rfl
theorem exec_mclaim (f) : exec (.mclaim f) s = execMclaim f s := rfl
theorem exec_mrel (f) : exec (.mrel f) s = execMrel f s := rfl
theorem exec_mload (f) : exec (.mload f) s = execMload f s := rfl
theorem exec_mloadp (f) : exec (.mloadp f) s = execMloadp f s := rfl
theorem exec_mtadd (f) : exec (.mtadd f) s = execMtadd f s := rfl
theorem exec_mma (f) : exec (.mma f) s = execMma f s := rfl
theorem exec_mmas (f) : exec (.mmas f) s = execMmas f s := rfl
theorem exec_mmap (f) : exec (.mmap f) s = execMmap f s := rfl
theorem exec_mzero (f) : exec (.mzero f) s = execMzero f s := rfl
theorem exec_mscale (f) : exec (.mscale f) s = execMscale f s := rfl
theorem exec_mstore (f) : exec (.mstore f) s = execMstore f s := rfl
theorem exec_mbarSync (f) : exec (.mbarSync f) s = execMbarSync f s := rfl
theorem exec_mbarArrive (f) : exec (.mbarArrive f) s = execMbarArrive f s := rfl
theorem exec_mbarWait (f) : exec (.mbarWait f) s = execMbarWait f s := rfl
theorem exec_mset (f) : exec (.mset f) s = execMset f s := rfl
theorem exec_madd (f) : exec (.madd f) s = execMadd f s := rfl
theorem exec_mloop (f) : exec (.mloop f) s = execMloop f s := rfl
theorem exec_mbra (f) : exec (.mbra f) s = execMbra f s := rfl
theorem exec_mbraZ (f) : exec (.mbraZ f) s = execMbraZ f s := rfl
theorem exec_mbraNz (f) : exec (.mbraNz f) s = execMbraNz f s := rfl
theorem exec_mend : exec (.mend) s = execMend s := rfl
theorem exec_permissionFill (reel split bad) : exec (.permissionFill reel split bad) s = execPermissionFill reel split bad s := rfl
theorem exec_loadReturn (reel load) : exec (.loadReturn reel load) s = execLoadReturn reel load s := rfl
theorem exec_storeConfirmed (msg) : exec (.storeConfirmed msg) s = execStoreConfirmed msg s := rfl
theorem exec_fullEmptyQualified (reel split) : exec (.fullEmptyQualified reel split) s = execFullEmptyQualified reel split s := rfl
theorem exec_fullEmptyTimeout (reel split) : exec (.fullEmptyTimeout reel split) s = execFullEmptyTimeout reel split s := rfl
theorem exec_remoteBankStep (reel split member) : exec (.remoteBankStep reel split member) s = execRemoteBankStep reel split member s := rfl
theorem exec_victimRecompute (core) : exec (.victimRecompute core) s = execVictimRecompute core s := rfl
theorem exec_permissionShootdown (part ctx lo hi) : exec (.permissionShootdown part ctx lo hi) s = execPermissionShootdown part ctx lo hi s := rfl
theorem exec_permissionShootdownAck (core) : exec (.permissionShootdownAck core) s = execPermissionShootdownAck core s := rfl
theorem exec_translationShootdown (part lo hi) : exec (.translationShootdown part lo hi) s = execTranslationShootdown part lo hi s := rfl
theorem exec_sliceWriteAccept (msg) : exec (.sliceWriteAccept msg) s = execSliceWriteAccept msg s := rfl
theorem exec_sliceRead (msg) : exec (.sliceRead msg) s = execSliceRead msg s := rfl
theorem exec_translationWalkComplete (dom page bad) : exec (.translationWalkComplete dom page bad) s = execTranslationWalkComplete dom page bad s := rfl
theorem exec_faultRecordDelivery (rec) : exec (.faultRecordDelivery rec) s = execFaultRecordDelivery rec s := rfl
theorem exec_secureCoreResolve (rec mode) : exec (.secureCoreResolve rec mode) s = execSecureCoreResolve rec mode s := rfl
theorem exec_faultServiceBlockStart (rec) : exec (.faultServiceBlockStart rec) s = execFaultServiceBlockStart rec s := rfl
theorem exec_homeGuestRead (msg data) : exec (.homeGuestRead msg data) s = execHomeGuestRead msg data s := rfl
theorem exec_homeWrite (msg) : exec (.homeWrite msg) s = execHomeWrite msg s := rfl
theorem exec_homeAtomic (msg data) : exec (.homeAtomic msg data) s = execHomeAtomic msg data s := rfl
theorem exec_homeWatchRegistration (msg status) : exec (.homeWatchRegistration msg status) s = execHomeWatchRegistration msg status s := rfl
theorem exec_homeWatchDeregistration (msg) : exec (.homeWatchDeregistration msg) s = execHomeWatchDeregistration msg s := rfl
theorem exec_directoryEntryEvict (dom grain) : exec (.directoryEntryEvict dom grain) s = execDirectoryEntryEvict dom grain s := rfl
theorem exec_guestInvalidation (msg) : exec (.guestInvalidation msg) s = execGuestInvalidation msg s := rfl
theorem exec_guestFill (msg) : exec (.guestFill msg) s = execGuestFill msg s := rfl
theorem exec_watchStatusAnswer (msg) : exec (.watchStatusAnswer msg) s = execWatchStatusAnswer msg s := rfl
theorem exec_watchReport (msg reel slot) : exec (.watchReport msg reel slot) s = execWatchReport msg reel slot s := rfl
theorem exec_parkTimeout (reel split) : exec (.parkTimeout reel split) s = execParkTimeout reel split s := rfl
theorem exec_waitmPoll (reel split) : exec (.waitmPoll reel split) s = execWaitmPoll reel split s := rfl
theorem exec_reductionContribution (msg) : exec (.reductionContribution msg) s = execReductionContribution msg s := rfl
theorem exec_reductionSlotTimeout (msg) : exec (.reductionSlotTimeout msg) s = execReductionSlotTimeout msg s := rfl
theorem exec_engineCommandAccept (core cmd ext) : exec (.engineCommandAccept core cmd ext) s = execEngineCommandAccept core cmd ext s := rfl
theorem exec_engineCommandComplete (core cmd ext) : exec (.engineCommandComplete core cmd ext) s = execEngineCommandComplete core cmd ext s := rfl
theorem exec_engineFault (core cmd ext) : exec (.engineFault core cmd ext) s = execEngineFault core cmd ext s := rfl
theorem exec_mclaimGrant (block) : exec (.mclaimGrant block) s = execMclaimGrant block s := rfl
theorem exec_mclaimTimeout (block) : exec (.mclaimTimeout block) s = execMclaimTimeout block s := rfl
theorem exec_queueTakePacket (slot ext) : exec (.queueTakePacket slot ext) s = execQueueTakePacket slot ext s := rfl
theorem exec_launchAdmit (launch ext) : exec (.launchAdmit launch ext) s = execLaunchAdmit launch ext s := rfl
theorem exec_blockStart (launch ext) : exec (.blockStart launch ext) s = execBlockStart launch ext s := rfl
theorem exec_blockEnd (block) : exec (.blockEnd block) s = execBlockEnd block s := rfl
theorem exec_launchComplete (launch) : exec (.launchComplete launch) s = execLaunchComplete launch s := rfl
theorem exec_launchTimeLimit (launch) : exec (.launchTimeLimit launch) s = execLaunchTimeLimit launch s := rfl
theorem exec_doorbellWrite (n ext) : exec (.doorbellWrite n ext) s = execDoorbellWrite n ext s := rfl
theorem exec_pendingQueueBind (ext) : exec (.pendingQueueBind ext) s = execPendingQueueBind ext s := rfl
theorem exec_contextSwitchRequest (part ctx base size) : exec (.contextSwitchRequest part ctx base size) s = execContextSwitchRequest part ctx base size s := rfl
theorem exec_graceTimerExpiry (req) : exec (.graceTimerExpiry req) s = execGraceTimerExpiry req s := rfl
theorem exec_preemptSave (req) : exec (.preemptSave req) s = execPreemptSave req s := rfl
theorem exec_killTimerExpiry (req) : exec (.killTimerExpiry req) s = execKillTimerExpiry req s := rfl
theorem exec_timeSliceExpiry (part) : exec (.timeSliceExpiry part) s = execTimeSliceExpiry part s := rfl
theorem exec_restore (part ctx) : exec (.restore part ctx) s = execRestore part ctx s := rfl
theorem exec_limiterSample (dom draw) : exec (.limiterSample dom draw) s = execLimiterSample dom draw s := rfl
theorem exec_operatingPointLower (dom) : exec (.operatingPointLower dom) s = execOperatingPointLower dom s := rfl
theorem exec_operatingPointRaise (dom draw) : exec (.operatingPointRaise dom draw) s = execOperatingPointRaise dom draw s := rfl
theorem exec_thermalLower (dom temp) : exec (.thermalLower dom temp) s = execThermalLower dom temp s := rfl
theorem exec_thermalRaise (dom temp) : exec (.thermalRaise dom temp) s = execThermalRaise dom temp s := rfl
theorem exec_thermalTrip (dom temp) : exec (.thermalTrip dom temp) s = execThermalTrip dom temp s := rfl
theorem exec_coolantFlowLoss (ms) : exec (.coolantFlowLoss ms) s = execCoolantFlowLoss ms s := rfl
theorem exec_heartbeat (dom) : exec (.heartbeat dom) s = execHeartbeat dom s := rfl
theorem exec_heartbeatMissed (dom) : exec (.heartbeatMissed dom) s = execHeartbeatMissed dom s := rfl
theorem exec_fencedRouterAnswer (msg) : exec (.fencedRouterAnswer msg) s = execFencedRouterAnswer msg s := rfl
theorem exec_eccError (core place double again) : exec (.eccError core place double again) s = execEccError core place double again s := rfl
theorem exec_linkError (boundary dir again) : exec (.linkError boundary dir again) s = execLinkError boundary dir again s := rfl
theorem exec_dramChannelError (dom first size again) : exec (.dramChannelError dom first size again) s = execDramChannelError dom first size again s := rfl
theorem exec_regulatorFailure (dom) : exec (.regulatorFailure dom) s = execRegulatorFailure dom s := rfl
theorem exec_routeChange (src dst entry) : exec (.routeChange src dst entry) s = execRouteChange src dst entry s := rfl
theorem exec_coldReset (b) : exec (.coldReset b) s = execColdReset b s := rfl
theorem exec_partitionReset (part scrub dead) : exec (.partitionReset part scrub dead) s = execPartitionReset part scrub dead s := rfl
theorem exec_recoveryImageWrite (slotB image) : exec (.recoveryImageWrite slotB image) s = execRecoveryImageWrite slotB image s := rfl
theorem exec_attestationReport (nonce) : exec (.attestationReport nonce) s = execAttestationReport nonce s := rfl
theorem exec_measurementExtend (reg digest) : exec (.measurementExtend reg digest) s = execMeasurementExtend reg digest s := rfl
theorem exec_statusWrite (value) : exec (.statusWrite value) s = execStatusWrite value s := rfl
theorem exec_powerWrite (dom cap point) : exec (.powerWrite dom cap point) s = execPowerWrite dom cap point s := rfl
theorem exec_timersWrite (part grace kill slice) : exec (.timersWrite part grace kill slice) s = execTimersWrite part grace kill slice s := rfl
theorem exec_partitionWrite (matrix index value) : exec (.partitionWrite matrix index value) s = execPartitionWrite matrix index value s := rfl
theorem exec_slotBindingWrite (slot desc ctx part cap npf bind) : exec (.slotBindingWrite slot desc ctx part cap npf bind) s = execSlotBindingWrite slot desc ctx part cap npf bind s := rfl
theorem exec_mgmtRegisterWrite (offset scope value) : exec (.mgmtRegisterWrite offset scope value) s = execMgmtRegisterWrite offset scope value s := rfl
theorem exec_drainQuiesced : exec (.drainQuiesced) s = execDrainQuiesced s := rfl
theorem exec_drainImmediate : exec (.drainImmediate) s = execDrainImmediate s := rfl
theorem exec_drainRestore (image) : exec (.drainRestore image) s = execDrainRestore image s := rfl
theorem exec_drainComplete : exec (.drainComplete) s = execDrainComplete s := rfl
theorem exec_powerFailWarning : exec (.powerFailWarning) s = execPowerFailWarning s := rfl
theorem exec_biasToDevice (offset) : exec (.biasToDevice offset) s = execBiasToDevice offset s := rfl
theorem exec_biasToHost (offset) : exec (.biasToHost offset) s = execBiasToHost offset s := rfl
theorem exec_birspArrival (dom line data) : exec (.birspArrival dom line data) s = execBirspArrival dom line data s := rfl
theorem exec_hostHdmRead (offset own) : exec (.hostHdmRead offset own) s = execHostHdmRead offset own s := rfl
theorem exec_hostHdmWrite (offset data mask) : exec (.hostHdmWrite offset data mask) s = execHostHdmWrite offset data mask s := rfl
theorem exec_hostSnpInv (line) : exec (.hostSnpInv line) s = execHostSnpInv line s := rfl
theorem exec_hostSnpData (line) : exec (.hostSnpData line) s = execHostSnpData line s := rfl
theorem exec_hostSnpCur (line) : exec (.hostSnpCur line) s = execHostSnpCur line s := rfl
theorem exec_relufCrcFail (port again) : exec (.relufCrcFail port again) s = execRelufCrcFail port again s := rfl
theorem exec_waferUnreachableTimeout (wafer) : exec (.waferUnreachableTimeout wafer) s = execWaferUnreachableTimeout wafer s := rfl
theorem exec_collectiveDescriptor (slot ext) : exec (.collectiveDescriptor slot ext) s = execCollectiveDescriptor slot ext s := rfl
theorem exec_collectiveComplete (group seq peers ext) : exec (.collectiveComplete group seq peers ext) s = execCollectiveComplete group seq peers ext s := rfl
theorem exec_collectiveAbandon (group seq detail chunks peers ext) : exec (.collectiveAbandon group seq detail chunks peers ext) s = execCollectiveAbandon group seq detail chunks peers ext s := rfl
theorem exec_illegalWord (w) : exec (.illegalWord w) s = execIllegalWord w s := rfl
theorem exec_illegalStreamWord (w) : exec (.illegalStreamWord w) s = execIllegalStreamWord w s := rfl
theorem exec_cxlCacheHostResponse (line data exclusive) : exec (.cxlCacheHostResponse line data exclusive) s = execCxlCacheHostResponse line data exclusive s := rfl
theorem exec_invalidationAcknowledgement (msg) : exec (.invalidationAcknowledgement msg) s = execInvalidationAcknowledgement msg s := rfl
theorem exec_accumulatorMoveComplete (reel move) : exec (.accumulatorMoveComplete reel move) s = execAccumulatorMoveComplete reel move s := rfl
theorem exec_domainUnitError (dom again) : exec (.domainUnitError dom again) s = execDomainUnitError dom again s := rfl
theorem exec_clockRelockComplete (dom) : exec (.clockRelockComplete dom) s = execClockRelockComplete dom s := rfl
theorem exec_configurationRequest : exec .configurationRequest s = execConfigurationRequest s := rfl

end Sys2Proof.Machine

namespace Sys2Proof

@[simp] theorem Instr.wf_iadd (f) : (Instr.iadd f).wf = (f.ok false false false) := rfl
@[simp] theorem Instr.wf_isub (f) : (Instr.isub f).wf = (f.ok false false false) := rfl
@[simp] theorem Instr.wf_imul (f) : (Instr.imul f).wf = (f.ok false false false) := rfl
@[simp] theorem Instr.wf_imulhI (f) : (Instr.imulhI f).wf = (f.ok false false false) := rfl
@[simp] theorem Instr.wf_imulhZ (f) : (Instr.imulhZ f).wf = (f.ok false false false) := rfl
@[simp] theorem Instr.wf_iminI (f) : (Instr.iminI f).wf = (f.ok false false false) := rfl
@[simp] theorem Instr.wf_imaxI (f) : (Instr.imaxI f).wf = (f.ok false false false) := rfl
@[simp] theorem Instr.wf_iminZ (f) : (Instr.iminZ f).wf = (f.ok false false false) := rfl
@[simp] theorem Instr.wf_imaxZ (f) : (Instr.imaxZ f).wf = (f.ok false false false) := rfl
@[simp] theorem Instr.wf_iaddSatI (f) : (Instr.iaddSatI f).wf = (f.ok false false false) := rfl
@[simp] theorem Instr.wf_isubSatI (f) : (Instr.isubSatI f).wf = (f.ok false false false) := rfl
@[simp] theorem Instr.wf_iadd64 (f) : (Instr.iadd64 f).wf = (f.ok true true true) := rfl
@[simp] theorem Instr.wf_isub64 (f) : (Instr.isub64 f).wf = (f.ok true true true) := rfl
@[simp] theorem Instr.wf_imulWideI (f) : (Instr.imulWideI f).wf = (f.ok true false false) := rfl
@[simp] theorem Instr.wf_imulWideZ (f) : (Instr.imulWideZ f).wf = (f.ok true false false) := rfl
@[simp] theorem Instr.wf_and (f) : (Instr.and f).wf = (f.ok false false false) := rfl
@[simp] theorem Instr.wf_or (f) : (Instr.or f).wf = (f.ok false false false) := rfl
@[simp] theorem Instr.wf_xor (f) : (Instr.xor f).wf = (f.ok false false false) := rfl
@[simp] theorem Instr.wf_andn (f) : (Instr.andn f).wf = (f.ok false false false) := rfl
@[simp] theorem Instr.wf_shl (f) : (Instr.shl f).wf = (f.ok false false false) := rfl
@[simp] theorem Instr.wf_shr (f) : (Instr.shr f).wf = (f.ok false false false) := rfl
@[simp] theorem Instr.wf_sar (f) : (Instr.sar f).wf = (f.ok false false false) := rfl
@[simp] theorem Instr.wf_rotl (f) : (Instr.rotl f).wf = (f.ok false false false) := rfl
@[simp] theorem Instr.wf_bfxZ (f) : (Instr.bfxZ f).wf = (f.ok false false false) := rfl
@[simp] theorem Instr.wf_bfxI (f) : (Instr.bfxI f).wf = (f.ok false false false) := rfl
@[simp] theorem Instr.wf_bfi (f) : (Instr.bfi f).wf = (f.ok false false false) := rfl
@[simp] theorem Instr.wf_shl64 (f) : (Instr.shl64 f).wf = (f.ok true true false) := rfl
@[simp] theorem Instr.wf_shr64 (f) : (Instr.shr64 f).wf = (f.ok true true false) := rfl
@[simp] theorem Instr.wf_faddF32 (f) : (Instr.faddF32 f).wf = (f.ok false false false) := rfl
@[simp] theorem Instr.wf_fsubF32 (f) : (Instr.fsubF32 f).wf = (f.ok false false false) := rfl
@[simp] theorem Instr.wf_fmulF32 (f) : (Instr.fmulF32 f).wf = (f.ok false false false) := rfl
@[simp] theorem Instr.wf_ffmaF32 (f) : (Instr.ffmaF32 f).wf = (f.ok false false false) := rfl
@[simp] theorem Instr.wf_ffmsF32 (f) : (Instr.ffmsF32 f).wf = (f.ok false false false) := rfl
@[simp] theorem Instr.wf_fnmaF32 (f) : (Instr.fnmaF32 f).wf = (f.ok false false false) := rfl
@[simp] theorem Instr.wf_fminF32 (f) : (Instr.fminF32 f).wf = (f.ok false false false) := rfl
@[simp] theorem Instr.wf_fmaxF32 (f) : (Instr.fmaxF32 f).wf = (f.ok false false false) := rfl
@[simp] theorem Instr.wf_fcsgnF32 (f) : (Instr.fcsgnF32 f).wf = (f.ok false false false) := rfl
@[simp] theorem Instr.wf_fdivF32 (f) : (Instr.fdivF32 f).wf = (f.ok false false false) := rfl
@[simp] theorem Instr.wf_haddF16 (f) : (Instr.haddF16 f).wf = (f.ok false false false) := rfl
@[simp] theorem Instr.wf_hmulF16 (f) : (Instr.hmulF16 f).wf = (f.ok false false false) := rfl
@[simp] theorem Instr.wf_hfmaF16 (f) : (Instr.hfmaF16 f).wf = (f.ok false false false) := rfl
@[simp] theorem Instr.wf_hminF16 (f) : (Instr.hminF16 f).wf = (f.ok false false false) := rfl
@[simp] theorem Instr.wf_hmaxF16 (f) : (Instr.hmaxF16 f).wf = (f.ok false false false) := rfl
@[simp] theorem Instr.wf_haddBf16 (f) : (Instr.haddBf16 f).wf = (f.ok false false false) := rfl
@[simp] theorem Instr.wf_hmulBf16 (f) : (Instr.hmulBf16 f).wf = (f.ok false false false) := rfl
@[simp] theorem Instr.wf_hfmaBf16 (f) : (Instr.hfmaBf16 f).wf = (f.ok false false false) := rfl
@[simp] theorem Instr.wf_hminBf16 (f) : (Instr.hminBf16 f).wf = (f.ok false false false) := rfl
@[simp] theorem Instr.wf_hmaxBf16 (f) : (Instr.hmaxBf16 f).wf = (f.ok false false false) := rfl
@[simp] theorem Instr.wf_faddF64 (f) : (Instr.faddF64 f).wf = (f.ok true true true) := rfl
@[simp] theorem Instr.wf_fsubF64 (f) : (Instr.fsubF64 f).wf = (f.ok true true true) := rfl
@[simp] theorem Instr.wf_fmulF64 (f) : (Instr.fmulF64 f).wf = (f.ok true true true) := rfl
@[simp] theorem Instr.wf_ffmaF64 (f) : (Instr.ffmaF64 f).wf = (f.ok true true true) := rfl
@[simp] theorem Instr.wf_ffmsF64 (f) : (Instr.ffmsF64 f).wf = (f.ok true true true) := rfl
@[simp] theorem Instr.wf_fnmaF64 (f) : (Instr.fnmaF64 f).wf = (f.ok true true true) := rfl
@[simp] theorem Instr.wf_fminF64 (f) : (Instr.fminF64 f).wf = (f.ok true true true) := rfl
@[simp] theorem Instr.wf_fmaxF64 (f) : (Instr.fmaxF64 f).wf = (f.ok true true true) := rfl
@[simp] theorem Instr.wf_fcsgnF64 (f) : (Instr.fcsgnF64 f).wf = (f.ok true true true) := rfl
@[simp] theorem Instr.wf_fdivF64 (f) : (Instr.fdivF64 f).wf = (f.ok true true true) := rfl
@[simp] theorem Instr.wf_fabsF64 (f) : (Instr.fabsF64 f).wf = (f.ok true true) := rfl
@[simp] theorem Instr.wf_fnegF64 (f) : (Instr.fnegF64 f).wf = (f.ok true true) := rfl
@[simp] theorem Instr.wf_fsqrtF64 (f) : (Instr.fsqrtF64 f).wf = (f.ok true true) := rfl
@[simp] theorem Instr.wf_frcpF64 (f) : (Instr.frcpF64 f).wf = (f.ok true true) := rfl
@[simp] theorem Instr.wf_cmp (f) : (Instr.cmp f).wf = f.ok := rfl
@[simp] theorem Instr.wf_cvtI32 (f) : (Instr.cvtI32 f).wf = (f.ok 0) := rfl
@[simp] theorem Instr.wf_cvtZ32 (f) : (Instr.cvtZ32 f).wf = (f.ok 1) := rfl
@[simp] theorem Instr.wf_cvtI64 (f) : (Instr.cvtI64 f).wf = (f.ok 2) := rfl
@[simp] theorem Instr.wf_cvtZ64 (f) : (Instr.cvtZ64 f).wf = (f.ok 3) := rfl
@[simp] theorem Instr.wf_cvtF32 (f) : (Instr.cvtF32 f).wf = (f.ok 4) := rfl
@[simp] theorem Instr.wf_cvtF64 (f) : (Instr.cvtF64 f).wf = (f.ok 5) := rfl
@[simp] theorem Instr.wf_cvtF16 (f) : (Instr.cvtF16 f).wf = (f.ok 6) := rfl
@[simp] theorem Instr.wf_cvtBf16 (f) : (Instr.cvtBf16 f).wf = (f.ok 7) := rfl
@[simp] theorem Instr.wf_cvtE4m3 (f) : (Instr.cvtE4m3 f).wf = (f.ok 8) := rfl
@[simp] theorem Instr.wf_cvtE5m2 (f) : (Instr.cvtE5m2 f).wf = (f.ok 9) := rfl
@[simp] theorem Instr.wf_cvtI8 (f) : (Instr.cvtI8 f).wf = (f.ok 10) := rfl
@[simp] theorem Instr.wf_cvtZ8 (f) : (Instr.cvtZ8 f).wf = (f.ok 11) := rfl
@[simp] theorem Instr.wf_cvtI16 (f) : (Instr.cvtI16 f).wf = (f.ok 12) := rfl
@[simp] theorem Instr.wf_cvtZ16 (f) : (Instr.cvtZ16 f).wf = (f.ok 13) := rfl
@[simp] theorem Instr.wf_uadd64 (f) : (Instr.uadd64 f).wf = f.ok64 := rfl
@[simp] theorem Instr.wf_uadd64Imm (f) : (Instr.uadd64Imm f).wf = f.ok64 := rfl
@[simp] theorem Instr.wf_ucmp (f) : (Instr.ucmp f).wf = f.ok := rfl
@[simp] theorem Instr.wf_rdsrV (f) : (Instr.rdsrV f).wf = f.ok := rfl
@[simp] theorem Instr.wf_rdsr (f) : (Instr.rdsr f).wf = f.ok := rfl
@[simp] theorem Instr.wf_wrsr (f) : (Instr.wrsr f).wf = f.ok := rfl
@[simp] theorem Instr.wf_ldgZ8 (f) : (Instr.ldgZ8 f).wf = (f.ok 4) := rfl
@[simp] theorem Instr.wf_ldgI8 (f) : (Instr.ldgI8 f).wf = (f.ok 4) := rfl
@[simp] theorem Instr.wf_ldgZ16 (f) : (Instr.ldgZ16 f).wf = (f.ok 4) := rfl
@[simp] theorem Instr.wf_ldgI16 (f) : (Instr.ldgI16 f).wf = (f.ok 4) := rfl
@[simp] theorem Instr.wf_ldgB32 (f) : (Instr.ldgB32 f).wf = (f.ok 4) := rfl
@[simp] theorem Instr.wf_stgB8 (f) : (Instr.stgB8 f).wf = (f.ok 4) := rfl
@[simp] theorem Instr.wf_stgB16 (f) : (Instr.stgB16 f).wf = (f.ok 4) := rfl
@[simp] theorem Instr.wf_stgB32 (f) : (Instr.stgB32 f).wf = (f.ok 4) := rfl
@[simp] theorem Instr.wf_ldgB64 (f) : (Instr.ldgB64 f).wf = (f.ok 8) := rfl
@[simp] theorem Instr.wf_stgB64 (f) : (Instr.stgB64 f).wf = (f.ok 8) := rfl
@[simp] theorem Instr.wf_ldgB128 (f) : (Instr.ldgB128 f).wf = (f.ok 16) := rfl
@[simp] theorem Instr.wf_stgB128 (f) : (Instr.stgB128 f).wf = (f.ok 16) := rfl
@[simp] theorem Instr.wf_lduB64 (f) : (Instr.lduB64 f).wf = (isEven f.sd) := rfl
@[simp] theorem Instr.wf_ldsZ16 (f) : (Instr.ldsZ16 f).wf = (f.ok 4) := rfl
@[simp] theorem Instr.wf_ldsB32 (f) : (Instr.ldsB32 f).wf = (f.ok 4) := rfl
@[simp] theorem Instr.wf_ldsB32Wfull (f) : (Instr.ldsB32Wfull f).wf = (f.ok 4) := rfl
@[simp] theorem Instr.wf_ldsB32Take (f) : (Instr.ldsB32Take f).wf = (f.ok 4) := rfl
@[simp] theorem Instr.wf_stsB16 (f) : (Instr.stsB16 f).wf = (f.ok 4) := rfl
@[simp] theorem Instr.wf_stsB32 (f) : (Instr.stsB32 f).wf = (f.ok 4) := rfl
@[simp] theorem Instr.wf_stsB32Put (f) : (Instr.stsB32Put f).wf = (f.ok 4) := rfl
@[simp] theorem Instr.wf_stsB32Fill (f) : (Instr.stsB32Fill f).wf = (f.ok 4) := rfl
@[simp] theorem Instr.wf_stsB32Drain (f) : (Instr.stsB32Drain f).wf = (f.ok 4) := rfl
@[simp] theorem Instr.wf_ldsB64 (f) : (Instr.ldsB64 f).wf = (f.ok 8) := rfl
@[simp] theorem Instr.wf_ldsB64Wfull (f) : (Instr.ldsB64Wfull f).wf = (f.ok 8) := rfl
@[simp] theorem Instr.wf_ldsB64Take (f) : (Instr.ldsB64Take f).wf = (f.ok 8) := rfl
@[simp] theorem Instr.wf_stsB64 (f) : (Instr.stsB64 f).wf = (f.ok 8) := rfl
@[simp] theorem Instr.wf_stsB64Put (f) : (Instr.stsB64Put f).wf = (f.ok 8) := rfl
@[simp] theorem Instr.wf_stsB64Fill (f) : (Instr.stsB64Fill f).wf = (f.ok 8) := rfl
@[simp] theorem Instr.wf_stsB64Drain (f) : (Instr.stsB64Drain f).wf = (f.ok 8) := rfl
@[simp] theorem Instr.wf_ldsB128 (f) : (Instr.ldsB128 f).wf = (f.ok 16) := rfl
@[simp] theorem Instr.wf_ldsB128Wfull (f) : (Instr.ldsB128Wfull f).wf = (f.ok 16) := rfl
@[simp] theorem Instr.wf_ldsB128Take (f) : (Instr.ldsB128Take f).wf = (f.ok 16) := rfl
@[simp] theorem Instr.wf_stsB128 (f) : (Instr.stsB128 f).wf = (f.ok 16) := rfl
@[simp] theorem Instr.wf_stsB128Put (f) : (Instr.stsB128Put f).wf = (f.ok 16) := rfl
@[simp] theorem Instr.wf_stsB128Fill (f) : (Instr.stsB128Fill f).wf = (f.ok 16) := rfl
@[simp] theorem Instr.wf_stsB128Drain (f) : (Instr.stsB128Drain f).wf = (f.ok 16) := rfl
@[simp] theorem Instr.wf_rlds (f) : (Instr.rlds f).wf = (f.ok 4) := rfl
@[simp] theorem Instr.wf_rldsWfull (f) : (Instr.rldsWfull f).wf = (f.ok 4) := rfl
@[simp] theorem Instr.wf_rldsTake (f) : (Instr.rldsTake f).wf = (f.ok 4) := rfl
@[simp] theorem Instr.wf_rsts (f) : (Instr.rsts f).wf = (f.ok 4) := rfl
@[simp] theorem Instr.wf_rstsPut (f) : (Instr.rstsPut f).wf = (f.ok 4) := rfl
@[simp] theorem Instr.wf_rstsFill (f) : (Instr.rstsFill f).wf = (f.ok 4) := rfl
@[simp] theorem Instr.wf_rstsDrain (f) : (Instr.rstsDrain f).wf = (f.ok 4) := rfl
@[simp] theorem Instr.wf_ratomAdd (f) : (Instr.ratomAdd f).wf = (f.ok 4) := rfl
@[simp] theorem Instr.wf_ratomExch (f) : (Instr.ratomExch f).wf = (f.ok 4) := rfl
@[simp] theorem Instr.wf_ratomOr (f) : (Instr.ratomOr f).wf = (f.ok 4) := rfl
@[simp] theorem Instr.wf_ratomCas (f) : (Instr.ratomCas f).wf = (f.ok 8) := rfl
@[simp] theorem Instr.wf_atomgAdd (f) : (Instr.atomgAdd f).wf = (f.ok false) := rfl
@[simp] theorem Instr.wf_atomgFadd (f) : (Instr.atomgFadd f).wf = (f.ok false) := rfl
@[simp] theorem Instr.wf_atomgMinI (f) : (Instr.atomgMinI f).wf = (f.ok false) := rfl
@[simp] theorem Instr.wf_atomgMaxI (f) : (Instr.atomgMaxI f).wf = (f.ok false) := rfl
@[simp] theorem Instr.wf_atomgMinZ (f) : (Instr.atomgMinZ f).wf = (f.ok false) := rfl
@[simp] theorem Instr.wf_atomgMaxZ (f) : (Instr.atomgMaxZ f).wf = (f.ok false) := rfl
@[simp] theorem Instr.wf_atomgAnd (f) : (Instr.atomgAnd f).wf = (f.ok false) := rfl
@[simp] theorem Instr.wf_atomgOr (f) : (Instr.atomgOr f).wf = (f.ok false) := rfl
@[simp] theorem Instr.wf_atomgXor (f) : (Instr.atomgXor f).wf = (f.ok false) := rfl
@[simp] theorem Instr.wf_atomgExch (f) : (Instr.atomgExch f).wf = (f.ok false) := rfl
@[simp] theorem Instr.wf_atomgCas (f) : (Instr.atomgCas f).wf = (f.ok true) := rfl
@[simp] theorem Instr.wf_atomgLd (f) : (Instr.atomgLd f).wf = f.okLd := rfl
@[simp] theorem Instr.wf_atomgSt (f) : (Instr.atomgSt f).wf = f.okSt := rfl
@[simp] theorem Instr.wf_atomgXadd (f) : (Instr.atomgXadd f).wf = f.ok := rfl
@[simp] theorem Instr.wf_atomsAdd (f) : (Instr.atomsAdd f).wf = (f.ok false) := rfl
@[simp] theorem Instr.wf_atomsFadd (f) : (Instr.atomsFadd f).wf = (f.ok false) := rfl
@[simp] theorem Instr.wf_atomsMinI (f) : (Instr.atomsMinI f).wf = (f.ok false) := rfl
@[simp] theorem Instr.wf_atomsMaxI (f) : (Instr.atomsMaxI f).wf = (f.ok false) := rfl
@[simp] theorem Instr.wf_atomsMinZ (f) : (Instr.atomsMinZ f).wf = (f.ok false) := rfl
@[simp] theorem Instr.wf_atomsMaxZ (f) : (Instr.atomsMaxZ f).wf = (f.ok false) := rfl
@[simp] theorem Instr.wf_atomsAnd (f) : (Instr.atomsAnd f).wf = (f.ok false) := rfl
@[simp] theorem Instr.wf_atomsOr (f) : (Instr.atomsOr f).wf = (f.ok false) := rfl
@[simp] theorem Instr.wf_atomsXor (f) : (Instr.atomsXor f).wf = (f.ok false) := rfl
@[simp] theorem Instr.wf_atomsExch (f) : (Instr.atomsExch f).wf = (f.ok false) := rfl
@[simp] theorem Instr.wf_atomsCas (f) : (Instr.atomsCas f).wf = (f.ok true) := rfl
@[simp] theorem Instr.wf_fence (f) : (Instr.fence f).wf = f.ok := rfl
@[simp] theorem Instr.wf_binit (f) : (Instr.binit f).wf = f.ok := rfl
@[simp] theorem Instr.wf_watch (f) : (Instr.watch f).wf = (isEven f.sa) := rfl
@[simp] theorem Instr.wf_sloop (f) : (Instr.sloop f).wf = f.ok := rfl
@[simp] theorem Instr.wf_spost (f) : (Instr.spost f).wf = (isEven f.sa) := rfl
@[simp] theorem Instr.wf_waitm (f) : (Instr.waitm f).wf = (isEven f.sa) := rfl
@[simp] theorem Instr.wf_layset (f) : (Instr.layset f).wf = (isEven f.sa) := rfl
@[simp] theorem Instr.wf_gath (f) : (Instr.gath f).wf = (tableOk f.ls) := rfl
@[simp] theorem Instr.wf_scat (f) : (Instr.scat f).wf = (tableOk f.ld) := rfl
@[simp] theorem Instr.wf_jmpi (f) : (Instr.jmpi f).wf = (isEven f.sa) := rfl
@[simp] theorem Instr.wf_ret (f) : (Instr.ret f).wf = (isEven f.sa) := rfl
@[simp] theorem Instr.wf_calli (f) : (Instr.calli f).wf = (isEven f.sd && isEven f.sa && f.sd != 0) := rfl
@[simp] theorem Instr.wf_hget (f) : (Instr.hget f).wf = f.ok := rfl
@[simp] theorem Instr.wf_hset (f) : (Instr.hset f).wf = f.ok := rfl
@[simp] theorem Instr.wf_hldone (f) : (Instr.hldone f).wf = (isEven f.sa) := rfl
@[simp] theorem Instr.wf_resumeContinue (f) : (Instr.resumeContinue f).wf = (isEven f.sa) := rfl
@[simp] theorem Instr.wf_resumeDrop (f) : (Instr.resumeDrop f).wf = (isEven f.sa) := rfl
@[simp] theorem Instr.wf_resumeRetry (f) : (Instr.resumeRetry f).wf = (isEven f.sa) := rfl
@[simp] theorem Instr.wf_kill (f) : (Instr.kill f).wf = (isEven f.sa) := rfl
@[simp] theorem Instr.wf_launch (f) : (Instr.launch f).wf = (isEven f.sa) := rfl
@[simp] theorem Instr.wf_mclaim (f) : (Instr.mclaim f).wf = f.ok := rfl
@[simp] theorem Instr.wf_mrel (f) : (Instr.mrel f).wf = f.ok := rfl
@[simp] theorem Instr.wf_mload (f) : (Instr.mload f).wf = f.ok := rfl
@[simp] theorem Instr.wf_mtadd (f) : (Instr.mtadd f).wf = f.ok := rfl
@[simp] theorem Instr.wf_mma (f) : (Instr.mma f).wf = f.ok := rfl
@[simp] theorem Instr.wf_mmas (f) : (Instr.mmas f).wf = f.ok := rfl
@[simp] theorem Instr.wf_mzero (f) : (Instr.mzero f).wf = f.ok := rfl
@[simp] theorem Instr.wf_mstore (f) : (Instr.mstore f).wf = f.ok := rfl
@[simp] theorem Instr.wf_iabs (f) : (Instr.iabs f).wf = true := rfl
@[simp] theorem Instr.wf_popc (f) : (Instr.popc f).wf = true := rfl
@[simp] theorem Instr.wf_clz (f) : (Instr.clz f).wf = true := rfl
@[simp] theorem Instr.wf_brev (f) : (Instr.brev f).wf = true := rfl
@[simp] theorem Instr.wf_iaddi (f) : (Instr.iaddi f).wf = true := rfl
@[simp] theorem Instr.wf_andi (f) : (Instr.andi f).wf = true := rfl
@[simp] theorem Instr.wf_ori (f) : (Instr.ori f).wf = true := rfl
@[simp] theorem Instr.wf_xori (f) : (Instr.xori f).wf = true := rfl
@[simp] theorem Instr.wf_shli (f) : (Instr.shli f).wf = true := rfl
@[simp] theorem Instr.wf_shri (f) : (Instr.shri f).wf = true := rfl
@[simp] theorem Instr.wf_sari (f) : (Instr.sari f).wf = true := rfl
@[simp] theorem Instr.wf_movi (f) : (Instr.movi f).wf = true := rfl
@[simp] theorem Instr.wf_sel (f) : (Instr.sel f).wf = true := rfl
@[simp] theorem Instr.wf_mov (f) : (Instr.mov f).wf = true := rfl
@[simp] theorem Instr.wf_shflIdx (f) : (Instr.shflIdx f).wf = true := rfl
@[simp] theorem Instr.wf_shflUp (f) : (Instr.shflUp f).wf = true := rfl
@[simp] theorem Instr.wf_shflDown (f) : (Instr.shflDown f).wf = true := rfl
@[simp] theorem Instr.wf_shflXor (f) : (Instr.shflXor f).wf = true := rfl
@[simp] theorem Instr.wf_kprefix (f) : (Instr.kprefix f).wf = true := rfl
@[simp] theorem Instr.wf_ballot (f) : (Instr.ballot f).wf = true := rfl
@[simp] theorem Instr.wf_lrd (f) : (Instr.lrd f).wf = true := rfl
@[simp] theorem Instr.wf_lrdS (f) : (Instr.lrdS f).wf = true := rfl
@[simp] theorem Instr.wf_kand (f) : (Instr.kand f).wf = true := rfl
@[simp] theorem Instr.wf_kor (f) : (Instr.kor f).wf = true := rfl
@[simp] theorem Instr.wf_kxor (f) : (Instr.kxor f).wf = true := rfl
@[simp] theorem Instr.wf_knot (f) : (Instr.knot f).wf = true := rfl
@[simp] theorem Instr.wf_kmovKs (f) : (Instr.kmovKs f).wf = true := rfl
@[simp] theorem Instr.wf_kmovSk (f) : (Instr.kmovSk f).wf = true := rfl
@[simp] theorem Instr.wf_kpopc (f) : (Instr.kpopc f).wf = true := rfl
@[simp] theorem Instr.wf_kffs (f) : (Instr.kffs f).wf = true := rfl
@[simp] theorem Instr.wf_fabsF32 (f) : (Instr.fabsF32 f).wf = true := rfl
@[simp] theorem Instr.wf_fnegF32 (f) : (Instr.fnegF32 f).wf = true := rfl
@[simp] theorem Instr.wf_frcpF32 (f) : (Instr.frcpF32 f).wf = true := rfl
@[simp] theorem Instr.wf_frsqF32 (f) : (Instr.frsqF32 f).wf = true := rfl
@[simp] theorem Instr.wf_fsqrtF32 (f) : (Instr.fsqrtF32 f).wf = true := rfl
@[simp] theorem Instr.wf_fexp2F32 (f) : (Instr.fexp2F32 f).wf = true := rfl
@[simp] theorem Instr.wf_flog2F32 (f) : (Instr.flog2F32 f).wf = true := rfl
@[simp] theorem Instr.wf_ffloorF32 (f) : (Instr.ffloorF32 f).wf = true := rfl
@[simp] theorem Instr.wf_fceilF32 (f) : (Instr.fceilF32 f).wf = true := rfl
@[simp] theorem Instr.wf_ftruncF32 (f) : (Instr.ftruncF32 f).wf = true := rfl
@[simp] theorem Instr.wf_frintF32 (f) : (Instr.frintF32 f).wf = true := rfl
@[simp] theorem Instr.wf_fclassF32 (f) : (Instr.fclassF32 f).wf = true := rfl
@[simp] theorem Instr.wf_uadd (f) : (Instr.uadd f).wf = true := rfl
@[simp] theorem Instr.wf_uaddImm (f) : (Instr.uaddImm f).wf = true := rfl
@[simp] theorem Instr.wf_usub (f) : (Instr.usub f).wf = true := rfl
@[simp] theorem Instr.wf_usubImm (f) : (Instr.usubImm f).wf = true := rfl
@[simp] theorem Instr.wf_umul (f) : (Instr.umul f).wf = true := rfl
@[simp] theorem Instr.wf_umulImm (f) : (Instr.umulImm f).wf = true := rfl
@[simp] theorem Instr.wf_uand (f) : (Instr.uand f).wf = true := rfl
@[simp] theorem Instr.wf_uandImm (f) : (Instr.uandImm f).wf = true := rfl
@[simp] theorem Instr.wf_uor (f) : (Instr.uor f).wf = true := rfl
@[simp] theorem Instr.wf_uorImm (f) : (Instr.uorImm f).wf = true := rfl
@[simp] theorem Instr.wf_uxor (f) : (Instr.uxor f).wf = true := rfl
@[simp] theorem Instr.wf_uxorImm (f) : (Instr.uxorImm f).wf = true := rfl
@[simp] theorem Instr.wf_ushl (f) : (Instr.ushl f).wf = true := rfl
@[simp] theorem Instr.wf_ushlImm (f) : (Instr.ushlImm f).wf = true := rfl
@[simp] theorem Instr.wf_ushr (f) : (Instr.ushr f).wf = true := rfl
@[simp] theorem Instr.wf_ushrImm (f) : (Instr.ushrImm f).wf = true := rfl
@[simp] theorem Instr.wf_usar (f) : (Instr.usar f).wf = true := rfl
@[simp] theorem Instr.wf_usarImm (f) : (Instr.usarImm f).wf = true := rfl
@[simp] theorem Instr.wf_uminI (f) : (Instr.uminI f).wf = true := rfl
@[simp] theorem Instr.wf_uminIImm (f) : (Instr.uminIImm f).wf = true := rfl
@[simp] theorem Instr.wf_umaxI (f) : (Instr.umaxI f).wf = true := rfl
@[simp] theorem Instr.wf_umaxIImm (f) : (Instr.umaxIImm f).wf = true := rfl
@[simp] theorem Instr.wf_umov (f) : (Instr.umov f).wf = true := rfl
@[simp] theorem Instr.wf_umovImm (f) : (Instr.umovImm f).wf = true := rfl
@[simp] theorem Instr.wf_vgetx (f) : (Instr.vgetx f).wf = true := rfl
@[simp] theorem Instr.wf_vsetx (f) : (Instr.vsetx f).wf = true := rfl
@[simp] theorem Instr.wf_lduB32 (f) : (Instr.lduB32 f).wf = true := rfl
@[simp] theorem Instr.wf_ifence : (Instr.ifence).wf = true := rfl
@[simp] theorem Instr.wf_waitc (f) : (Instr.waitc f).wf = true := rfl
@[simp] theorem Instr.wf_barrive (f) : (Instr.barrive f).wf = true := rfl
@[simp] theorem Instr.wf_bwait (f) : (Instr.bwait f).wf = true := rfl
@[simp] theorem Instr.wf_bsync (f) : (Instr.bsync f).wf = true := rfl
@[simp] theorem Instr.wf_semset (f) : (Instr.semset f).wf = true := rfl
@[simp] theorem Instr.wf_semadd (f) : (Instr.semadd f).wf = true := rfl
@[simp] theorem Instr.wf_semwait (f) : (Instr.semwait f).wf = true := rfl
@[simp] theorem Instr.wf_watchSpad (f) : (Instr.watchSpad f).wf = true := rfl
@[simp] theorem Instr.wf_park (f) : (Instr.park f).wf = true := rfl
@[simp] theorem Instr.wf_unwatch (f) : (Instr.unwatch f).wf = true := rfl
@[simp] theorem Instr.wf_siter (f) : (Instr.siter f).wf = true := rfl
@[simp] theorem Instr.wf_stadv (f) : (Instr.stadv f).wf = true := rfl
@[simp] theorem Instr.wf_stjmp (f) : (Instr.stjmp f).wf = true := rfl
@[simp] theorem Instr.wf_waitl (f) : (Instr.waitl f).wf = true := rfl
@[simp] theorem Instr.wf_sdone : (Instr.sdone).wf = true := rfl
@[simp] theorem Instr.wf_send : (Instr.send).wf = true := rfl
@[simp] theorem Instr.wf_sread (f) : (Instr.sread f).wf = true := rfl
@[simp] theorem Instr.wf_laysetSpad (f) : (Instr.laysetSpad f).wf = true := rfl
@[simp] theorem Instr.wf_cpy (f) : (Instr.cpy f).wf = true := rfl
@[simp] theorem Instr.wf_mstart (f) : (Instr.mstart f).wf = true := rfl
@[simp] theorem Instr.wf_accget (f) : (Instr.accget f).wf = true := rfl
@[simp] theorem Instr.wf_accgetSt (f) : (Instr.accgetSt f).wf = true := rfl
@[simp] theorem Instr.wf_accput (f) : (Instr.accput f).wf = true := rfl
@[simp] theorem Instr.wf_bra (f) : (Instr.bra f).wf = true := rfl
@[simp] theorem Instr.wf_braAny (f) : (Instr.braAny f).wf = true := rfl
@[simp] theorem Instr.wf_braAll (f) : (Instr.braAll f).wf = true := rfl
@[simp] theorem Instr.wf_braNone (f) : (Instr.braNone f).wf = true := rfl
@[simp] theorem Instr.wf_braDiv (f) : (Instr.braDiv f).wf = true := rfl
@[simp] theorem Instr.wf_call (f) : (Instr.call f).wf = true := rfl
@[simp] theorem Instr.wf_join : (Instr.join).wf = true := rfl
@[simp] theorem Instr.wf_yield : (Instr.yield).wf = true := rfl
@[simp] theorem Instr.wf_nop : (Instr.nop).wf = true := rfl
@[simp] theorem Instr.wf_exit : (Instr.exit).wf = true := rfl
@[simp] theorem Instr.wf_trap (f) : (Instr.trap f).wf = true := rfl
@[simp] theorem Instr.wf_tretRetry : (Instr.tretRetry).wf = true := rfl
@[simp] theorem Instr.wf_tretSkip : (Instr.tretSkip).wf = true := rfl
@[simp] theorem Instr.wf_brk : (Instr.brk).wf = true := rfl
@[simp] theorem Instr.wf_lstat (f) : (Instr.lstat f).wf = true := rfl
@[simp] theorem Instr.wf_mloadp (f) : (Instr.mloadp f).wf = true := rfl
@[simp] theorem Instr.wf_mmap (f) : (Instr.mmap f).wf = true := rfl
@[simp] theorem Instr.wf_mscale (f) : (Instr.mscale f).wf = true := rfl
@[simp] theorem Instr.wf_mbarSync (f) : (Instr.mbarSync f).wf = true := rfl
@[simp] theorem Instr.wf_mbarArrive (f) : (Instr.mbarArrive f).wf = true := rfl
@[simp] theorem Instr.wf_mbarWait (f) : (Instr.mbarWait f).wf = true := rfl
@[simp] theorem Instr.wf_mset (f) : (Instr.mset f).wf = true := rfl
@[simp] theorem Instr.wf_madd (f) : (Instr.madd f).wf = true := rfl
@[simp] theorem Instr.wf_mloop (f) : (Instr.mloop f).wf = true := rfl
@[simp] theorem Instr.wf_mbra (f) : (Instr.mbra f).wf = true := rfl
@[simp] theorem Instr.wf_mbraZ (f) : (Instr.mbraZ f).wf = true := rfl
@[simp] theorem Instr.wf_mbraNz (f) : (Instr.mbraNz f).wf = true := rfl
@[simp] theorem Instr.wf_mend : (Instr.mend).wf = true := rfl
@[simp] theorem Instr.wf_permissionFill (reel split bad) : (Instr.permissionFill reel split bad).wf = true := rfl
@[simp] theorem Instr.wf_loadReturn (reel load) : (Instr.loadReturn reel load).wf = true := rfl
@[simp] theorem Instr.wf_storeConfirmed (msg) : (Instr.storeConfirmed msg).wf = true := rfl
@[simp] theorem Instr.wf_fullEmptyQualified (reel split) : (Instr.fullEmptyQualified reel split).wf = true := rfl
@[simp] theorem Instr.wf_fullEmptyTimeout (reel split) : (Instr.fullEmptyTimeout reel split).wf = true := rfl
@[simp] theorem Instr.wf_remoteBankStep (reel split member) : (Instr.remoteBankStep reel split member).wf = true := rfl
@[simp] theorem Instr.wf_victimRecompute (core) : (Instr.victimRecompute core).wf = true := rfl
@[simp] theorem Instr.wf_permissionShootdown (part ctx lo hi) : (Instr.permissionShootdown part ctx lo hi).wf = true := rfl
@[simp] theorem Instr.wf_permissionShootdownAck (core) : (Instr.permissionShootdownAck core).wf = true := rfl
@[simp] theorem Instr.wf_translationShootdown (part lo hi) : (Instr.translationShootdown part lo hi).wf = true := rfl
@[simp] theorem Instr.wf_sliceWriteAccept (msg) : (Instr.sliceWriteAccept msg).wf = true := rfl
@[simp] theorem Instr.wf_sliceRead (msg) : (Instr.sliceRead msg).wf = true := rfl
@[simp] theorem Instr.wf_translationWalkComplete (dom page bad) : (Instr.translationWalkComplete dom page bad).wf = true := rfl
@[simp] theorem Instr.wf_faultRecordDelivery (rec) : (Instr.faultRecordDelivery rec).wf = true := rfl
@[simp] theorem Instr.wf_secureCoreResolve (rec mode) : (Instr.secureCoreResolve rec mode).wf = true := rfl
@[simp] theorem Instr.wf_faultServiceBlockStart (rec) : (Instr.faultServiceBlockStart rec).wf = true := rfl
@[simp] theorem Instr.wf_homeGuestRead (msg data) : (Instr.homeGuestRead msg data).wf = true := rfl
@[simp] theorem Instr.wf_homeWrite (msg) : (Instr.homeWrite msg).wf = true := rfl
@[simp] theorem Instr.wf_homeAtomic (msg data) : (Instr.homeAtomic msg data).wf = true := rfl
@[simp] theorem Instr.wf_homeWatchRegistration (msg status) : (Instr.homeWatchRegistration msg status).wf = true := rfl
@[simp] theorem Instr.wf_homeWatchDeregistration (msg) : (Instr.homeWatchDeregistration msg).wf = true := rfl
@[simp] theorem Instr.wf_directoryEntryEvict (dom grain) : (Instr.directoryEntryEvict dom grain).wf = true := rfl
@[simp] theorem Instr.wf_guestInvalidation (msg) : (Instr.guestInvalidation msg).wf = true := rfl
@[simp] theorem Instr.wf_guestFill (msg) : (Instr.guestFill msg).wf = true := rfl
@[simp] theorem Instr.wf_watchStatusAnswer (msg) : (Instr.watchStatusAnswer msg).wf = true := rfl
@[simp] theorem Instr.wf_watchReport (msg reel slot) : (Instr.watchReport msg reel slot).wf = true := rfl
@[simp] theorem Instr.wf_parkTimeout (reel split) : (Instr.parkTimeout reel split).wf = true := rfl
@[simp] theorem Instr.wf_waitmPoll (reel split) : (Instr.waitmPoll reel split).wf = true := rfl
@[simp] theorem Instr.wf_reductionContribution (msg) : (Instr.reductionContribution msg).wf = true := rfl
@[simp] theorem Instr.wf_reductionSlotTimeout (msg) : (Instr.reductionSlotTimeout msg).wf = true := rfl
@[simp] theorem Instr.wf_engineCommandAccept (core cmd ext) : (Instr.engineCommandAccept core cmd ext).wf = true := rfl
@[simp] theorem Instr.wf_engineCommandComplete (core cmd ext) : (Instr.engineCommandComplete core cmd ext).wf = true := rfl
@[simp] theorem Instr.wf_engineFault (core cmd ext) : (Instr.engineFault core cmd ext).wf = true := rfl
@[simp] theorem Instr.wf_mclaimGrant (block) : (Instr.mclaimGrant block).wf = true := rfl
@[simp] theorem Instr.wf_mclaimTimeout (block) : (Instr.mclaimTimeout block).wf = true := rfl
@[simp] theorem Instr.wf_queueTakePacket (slot ext) : (Instr.queueTakePacket slot ext).wf = true := rfl
@[simp] theorem Instr.wf_launchAdmit (launch ext) : (Instr.launchAdmit launch ext).wf = true := rfl
@[simp] theorem Instr.wf_blockStart (launch ext) : (Instr.blockStart launch ext).wf = true := rfl
@[simp] theorem Instr.wf_blockEnd (block) : (Instr.blockEnd block).wf = true := rfl
@[simp] theorem Instr.wf_launchComplete (launch) : (Instr.launchComplete launch).wf = true := rfl
@[simp] theorem Instr.wf_launchTimeLimit (launch) : (Instr.launchTimeLimit launch).wf = true := rfl
@[simp] theorem Instr.wf_doorbellWrite (n ext) : (Instr.doorbellWrite n ext).wf = true := rfl
@[simp] theorem Instr.wf_pendingQueueBind (ext) : (Instr.pendingQueueBind ext).wf = true := rfl
@[simp] theorem Instr.wf_contextSwitchRequest (part ctx base size) : (Instr.contextSwitchRequest part ctx base size).wf = true := rfl
@[simp] theorem Instr.wf_graceTimerExpiry (req) : (Instr.graceTimerExpiry req).wf = true := rfl
@[simp] theorem Instr.wf_preemptSave (req) : (Instr.preemptSave req).wf = true := rfl
@[simp] theorem Instr.wf_killTimerExpiry (req) : (Instr.killTimerExpiry req).wf = true := rfl
@[simp] theorem Instr.wf_timeSliceExpiry (part) : (Instr.timeSliceExpiry part).wf = true := rfl
@[simp] theorem Instr.wf_restore (part ctx) : (Instr.restore part ctx).wf = true := rfl
@[simp] theorem Instr.wf_limiterSample (dom draw) : (Instr.limiterSample dom draw).wf = true := rfl
@[simp] theorem Instr.wf_operatingPointLower (dom) : (Instr.operatingPointLower dom).wf = true := rfl
@[simp] theorem Instr.wf_operatingPointRaise (dom draw) : (Instr.operatingPointRaise dom draw).wf = true := rfl
@[simp] theorem Instr.wf_thermalLower (dom temp) : (Instr.thermalLower dom temp).wf = true := rfl
@[simp] theorem Instr.wf_thermalRaise (dom temp) : (Instr.thermalRaise dom temp).wf = true := rfl
@[simp] theorem Instr.wf_thermalTrip (dom temp) : (Instr.thermalTrip dom temp).wf = true := rfl
@[simp] theorem Instr.wf_coolantFlowLoss (ms) : (Instr.coolantFlowLoss ms).wf = true := rfl
@[simp] theorem Instr.wf_heartbeat (dom) : (Instr.heartbeat dom).wf = true := rfl
@[simp] theorem Instr.wf_heartbeatMissed (dom) : (Instr.heartbeatMissed dom).wf = true := rfl
@[simp] theorem Instr.wf_fencedRouterAnswer (msg) : (Instr.fencedRouterAnswer msg).wf = true := rfl
@[simp] theorem Instr.wf_eccError (core place double again) : (Instr.eccError core place double again).wf = true := rfl
@[simp] theorem Instr.wf_linkError (boundary dir again) : (Instr.linkError boundary dir again).wf = true := rfl
@[simp] theorem Instr.wf_dramChannelError (dom first size again) : (Instr.dramChannelError dom first size again).wf = true := rfl
@[simp] theorem Instr.wf_regulatorFailure (dom) : (Instr.regulatorFailure dom).wf = true := rfl
@[simp] theorem Instr.wf_routeChange (src dst entry) : (Instr.routeChange src dst entry).wf = true := rfl
@[simp] theorem Instr.wf_coldReset (b) : (Instr.coldReset b).wf = true := rfl
@[simp] theorem Instr.wf_partitionReset (part scrub dead) : (Instr.partitionReset part scrub dead).wf = true := rfl
@[simp] theorem Instr.wf_recoveryImageWrite (slotB image) : (Instr.recoveryImageWrite slotB image).wf = true := rfl
@[simp] theorem Instr.wf_attestationReport (nonce) : (Instr.attestationReport nonce).wf = true := rfl
@[simp] theorem Instr.wf_measurementExtend (reg digest) : (Instr.measurementExtend reg digest).wf = true := rfl
@[simp] theorem Instr.wf_statusWrite (value) : (Instr.statusWrite value).wf = true := rfl
@[simp] theorem Instr.wf_powerWrite (dom cap point) : (Instr.powerWrite dom cap point).wf = true := rfl
@[simp] theorem Instr.wf_timersWrite (part grace kill slice) : (Instr.timersWrite part grace kill slice).wf = true := rfl
@[simp] theorem Instr.wf_partitionWrite (matrix index value) : (Instr.partitionWrite matrix index value).wf = true := rfl
@[simp] theorem Instr.wf_slotBindingWrite (slot desc ctx part cap npf bind) : (Instr.slotBindingWrite slot desc ctx part cap npf bind).wf = true := rfl
@[simp] theorem Instr.wf_mgmtRegisterWrite (offset scope value) : (Instr.mgmtRegisterWrite offset scope value).wf = true := rfl
@[simp] theorem Instr.wf_drainQuiesced : (Instr.drainQuiesced).wf = true := rfl
@[simp] theorem Instr.wf_drainImmediate : (Instr.drainImmediate).wf = true := rfl
@[simp] theorem Instr.wf_drainRestore (image) : (Instr.drainRestore image).wf = true := rfl
@[simp] theorem Instr.wf_drainComplete : (Instr.drainComplete).wf = true := rfl
@[simp] theorem Instr.wf_powerFailWarning : (Instr.powerFailWarning).wf = true := rfl
@[simp] theorem Instr.wf_biasToDevice (offset) : (Instr.biasToDevice offset).wf = true := rfl
@[simp] theorem Instr.wf_biasToHost (offset) : (Instr.biasToHost offset).wf = true := rfl
@[simp] theorem Instr.wf_birspArrival (dom line data) : (Instr.birspArrival dom line data).wf = true := rfl
@[simp] theorem Instr.wf_hostHdmRead (offset own) : (Instr.hostHdmRead offset own).wf = true := rfl
@[simp] theorem Instr.wf_hostHdmWrite (offset data mask) : (Instr.hostHdmWrite offset data mask).wf = true := rfl
@[simp] theorem Instr.wf_hostSnpInv (line) : (Instr.hostSnpInv line).wf = true := rfl
@[simp] theorem Instr.wf_hostSnpData (line) : (Instr.hostSnpData line).wf = true := rfl
@[simp] theorem Instr.wf_hostSnpCur (line) : (Instr.hostSnpCur line).wf = true := rfl
@[simp] theorem Instr.wf_relufCrcFail (port again) : (Instr.relufCrcFail port again).wf = true := rfl
@[simp] theorem Instr.wf_waferUnreachableTimeout (wafer) : (Instr.waferUnreachableTimeout wafer).wf = true := rfl
@[simp] theorem Instr.wf_collectiveDescriptor (slot ext) : (Instr.collectiveDescriptor slot ext).wf = true := rfl
@[simp] theorem Instr.wf_collectiveComplete (group seq peers ext) : (Instr.collectiveComplete group seq peers ext).wf = true := rfl
@[simp] theorem Instr.wf_collectiveAbandon (group seq detail chunks peers ext) : (Instr.collectiveAbandon group seq detail chunks peers ext).wf = true := rfl
@[simp] theorem Instr.wf_illegalWord (w) : (Instr.illegalWord w).wf = true := rfl
@[simp] theorem Instr.wf_illegalStreamWord (w) : (Instr.illegalStreamWord w).wf = true := rfl
@[simp] theorem Instr.wf_cxlCacheHostResponse (line data exclusive) : (Instr.cxlCacheHostResponse line data exclusive).wf = true := rfl
@[simp] theorem Instr.wf_invalidationAcknowledgement (msg) : (Instr.invalidationAcknowledgement msg).wf = true := rfl
@[simp] theorem Instr.wf_accumulatorMoveComplete (reel move) : (Instr.accumulatorMoveComplete reel move).wf = true := rfl
@[simp] theorem Instr.wf_domainUnitError (dom again) : (Instr.domainUnitError dom again).wf = true := rfl
@[simp] theorem Instr.wf_clockRelockComplete (dom) : (Instr.clockRelockComplete dom).wf = true := rfl
@[simp] theorem Instr.wf_configurationRequest : Instr.configurationRequest.wf = true := rfl

end Sys2Proof
end

