-- ==== Sys2Proof/Laws/Maps.lean ====
section
/-! SUPPORT. Reading after writing in sparse maps and in memory, and the canonical forms that every operation on them keeps. -/

namespace Sys2Proof.Machine

variable {α : Type}

/-! ## Maps -/

@[simp] theorem Map.find?_nil (k : Nat) : Map.find? ([] : Map α) k = none := rfl

theorem Map.find?_put (m : Map α) (k j : Nat) (v : α) : (m.put k v).find? j = if j = k then some v else m.find? j := by
  induction m with
  | nil => simp [Map.put, Map.find?, eq_comm]
  | cons p r ih =>
    obtain ⟨i, w⟩ := p
    simp only [Map.put]
    split
    · simp [Map.find?, eq_comm]
    · split
      · subst_vars; simp only [Map.find?]; split <;> simp_all [eq_comm]
      · simp only [Map.find?, ih]
        split
        · subst_vars; rw [if_neg (by omega)]
        · rfl

@[simp] theorem Map.find?_put_self (m : Map α) (k : Nat) (v : α) : (m.put k v).find? k = some v := by simp [Map.find?_put]

theorem Map.find?_put_ne (m : Map α) {k j : Nat} (v : α) (h : j ≠ k) : (m.put k v).find? j = m.find? j := by
  simp [Map.find?_put, h]

theorem Map.find?_del (m : Map α) (k j : Nat) : (m.del k).find? j = if j = k then none else m.find? j := by
  induction m with
  | nil => simp [Map.del, Map.find?]
  | cons p r ih =>
    obtain ⟨i, w⟩ := p
    simp only [Map.del]
    split
    · subst_vars; simp only [ih, Map.find?]; split <;> simp_all [eq_comm]
    · simp only [Map.find?, ih]; split <;> simp_all

theorem Map.find?_adjust (m : Map α) (k j : Nat) (f : α → α) :
    (m.adjust k f).find? j = if j = k then (m.find? k).map f else m.find? j := by
  unfold Map.adjust
  split <;> rename_i h
  · split <;> simp_all
  · simp [Map.find?_put, h]

theorem Map.find?_mapVals (m : Map α) (f : Nat → α → α) (k : Nat) : (m.mapVals f).find? k = (m.find? k).map (f k) := by
  induction m with
  | nil => rfl
  | cons p r ih =>
    obtain ⟨i, w⟩ := p
    simp only [Map.mapVals, List.map_cons, Map.find?] at *
    split <;> simp_all

theorem Map.findD_putD [DecidableEq α] (d : α) (m : Map α) (k j : Nat) (v : α) :
    (m.putD d k v).findD d j = if j = k then v else m.findD d j := by
  unfold Map.putD Map.findD
  split
  · rw [Map.find?_del]; split <;> simp_all
  · rw [Map.find?_put]; split <;> simp_all

@[simp] theorem Map.findD_putD_self [DecidableEq α] (d : α) (m : Map α) (k : Nat) (v : α) : (m.putD d k v).findD d k = v := by
  simp [Map.findD_putD]

theorem Map.findD_putD_ne [DecidableEq α] (d : α) (m : Map α) {k j : Nat} (v : α) (h : j ≠ k) :
    (m.putD d k v).findD d j = m.findD d j := by
  simp [Map.findD_putD, h]

/-- The second of two writes of one key remains. -/
@[simp] theorem Map.put_put (m : Map α) (k : Nat) (v w : α) : (m.put k v).put k w = m.put k w := by
  induction m with
  | nil => simp [Map.put]
  | cons p r ih =>
    obtain ⟨i, y⟩ := p
    simp only [Map.put]
    split
    · simp [Map.put]
    · split
      · simp [Map.put]
      · rename_i h1 h2; simp [Map.put, h1, h2, ih]

theorem Map.adjust_eq_put {m : Map α} {k : Nat} {v : α} (h : m.find? k = some v) (f : α → α) : m.adjust k f = m.put k (f v) := by
  simp [Map.adjust, h]

@[simp] theorem Map.adjust_adjust (m : Map α) (k : Nat) (f g : α → α) : (m.adjust k f).adjust k g = m.adjust k fun v => g (f v) := by
  unfold Map.adjust
  cases h : m.find? k <;> simp [h]

@[simp] theorem Map.adjust_put (m : Map α) (k : Nat) (v : α) (f : α → α) : (m.put k v).adjust k f = m.put k (f v) := by
  simp [Map.adjust]

/-- A write after a change of the same key. -/
@[simp] theorem Map.put_adjust (m : Map α) (k : Nat) (v : α) (f : α → α) : (m.adjust k f).put k v = m.put k v := by
  unfold Map.adjust
  cases h : m.find? k <;> simp

theorem Map.find?_keep (m : Map α) (f : Nat → α → Bool) (k : Nat) (h : ∀ v, f k v = false) : (m.keep f).find? k = none := by
  induction m with
  | nil => rfl
  | cons p r ih =>
    obtain ⟨i, v⟩ := p
    simp only [Map.keep, List.filter] at ih ⊢
    by_cases hi : i = k
    · subst hi; simpa [h v] using ih
    · split
      · simpa [Map.find?, hi] using ih
      · exact ih

/-! ## The form of a map -/

/-- A key listed after a write is the written one or was listed before. -/
theorem Map.mem_put {m : Map α} {k : Nat} {v : α} {p : Nat × α} (h : p ∈ m.put k v) : p = (k, v) ∨ p ∈ m := by
  induction m with
  | nil => simp_all [Map.put]
  | cons q r ih =>
    obtain ⟨i, w⟩ := q
    simp only [Map.put] at h
    split at h
    · simpa using h
    · split at h
      · rcases List.mem_cons.1 h with h | h <;> simp_all
      · rcases List.mem_cons.1 h with h | h
        · simp_all
        · rcases ih h with h | h <;> simp_all

theorem Map.mem_del {m : Map α} {k : Nat} {p : Nat × α} (h : p ∈ m.del k) : p ∈ m := by
  induction m with
  | nil => simp_all [Map.del]
  | cons q r ih =>
    obtain ⟨i, w⟩ := q
    simp only [Map.del] at h
    split at h
    · exact List.mem_cons_of_mem _ (ih h)
    · rcases List.mem_cons.1 h with h | h <;> simp_all

theorem Map.put_sorted {m : Map α} (hm : m.sorted) (k : Nat) (v : α) : (m.put k v).sorted := by
  induction m with
  | nil => simp [Map.put, Map.sorted]
  | cons q r ih =>
    obtain ⟨i, w⟩ := q
    have ⟨hq, hr⟩ := List.pairwise_cons.1 hm
    simp only [Map.put]
    split
    · rename_i hk
      refine List.pairwise_cons.2 ⟨?_, hm⟩
      intro p hp
      rcases List.mem_cons.1 hp with rfl | hp
      · exact hk
      · exact Nat.lt_trans hk (hq p hp)
    · split
      · subst_vars; exact List.pairwise_cons.2 ⟨hq, hr⟩
      · refine List.pairwise_cons.2 ⟨?_, ih hr⟩
        intro p hp
        rcases Map.mem_put hp with rfl | hp
        · simp only; omega
        · exact hq p hp

theorem Map.del_sorted {m : Map α} (hm : m.sorted) (k : Nat) : (m.del k).sorted := by
  induction m with
  | nil => simp [Map.del, Map.sorted]
  | cons q r ih =>
    obtain ⟨i, w⟩ := q
    have ⟨hq, hr⟩ := List.pairwise_cons.1 hm
    simp only [Map.del]
    split
    · exact ih hr
    · exact List.pairwise_cons.2 ⟨fun p hp => hq p (Map.mem_del hp), ih hr⟩

theorem Map.putD_sorted [DecidableEq α] {m : Map α} (hm : m.sorted) (d : α) (k : Nat) (v : α) : (m.putD d k v).sorted := by
  unfold Map.putD; split
  · exact Map.del_sorted hm k
  · exact Map.put_sorted hm k v

/-! ## Memory -/

theorem Memory.read_write (m : List Host.Cell) (a j : Nat) (b : Byte) :
    Memory.read (Memory.write m a b) j = if j = a then b else Memory.read m j := Map.findD_putD 0 m a j b

theorem Memory.write_wf {m : List Host.Cell} (h : Memory.wf m) (a : Nat) (b : Byte) : Memory.wf (Memory.write m a b) := by
  refine ⟨Map.putD_sorted h.1 0 a b, fun c hc => ?_⟩
  unfold Memory.write Map.putD at hc
  split at hc
  · exact h.2 c (Map.mem_del hc)
  · rcases Map.mem_put hc with rfl | hc
    · assumption
    · exact h.2 c hc

theorem Memory.writeNat_wf {m : List Host.Cell} (h : Memory.wf m) (a n x : Nat) : Memory.wf (Memory.writeNat m a n x) := by
  induction n generalizing m a x with
  | zero => exact h
  | succ n ih => exact ih (Memory.write_wf h a _) _ _

theorem Memory.writeMasked_wf {m : List Host.Cell} (h : Memory.wf m) (a n x mask : Nat) : Memory.wf (Memory.writeMasked m a n x mask) := by
  induction n generalizing m a x mask with
  | zero => exact h
  | succ n ih =>
    simp only [Memory.writeMasked]
    split
    · exact ih (Memory.write_wf h a _) _ _ _
    · exact ih h _ _ _

theorem Memory.filter_wf {m : List Host.Cell} (h : Memory.wf m) (p : Host.Cell → Bool) : Memory.wf (m.filter p) :=
  ⟨h.1.filter p, fun c hc => h.2 c (List.mem_filter.1 hc).1⟩

/-- What a byte reads as after the `n` low bytes of `x` have been written from address `a`. -/
theorem Memory.read_writeNat (m : List Host.Cell) (a n x j : Nat) :
    Memory.read (Memory.writeNat m a n x) j =
      if a ≤ j ∧ j < a + n then BitVec.ofNat 8 (x / 256 ^ (j - a)) else Memory.read m j := by
  induction n generalizing m a x with
  | zero => simp only [Memory.writeNat]; rw [if_neg (by omega)]
  | succ n ih =>
    rw [Memory.writeNat, ih, Memory.read_write]
    by_cases h : a + 1 ≤ j ∧ j < a + 1 + n
    · have e : j - a = (j - (a + 1)) + 1 := by omega
      rw [if_pos h, if_pos (by omega), e, Nat.pow_succ', Nat.div_div_eq_div_mul]
    · rw [if_neg h]
      by_cases hj : j = a
      · subst hj; simp
      · rw [if_neg hj, if_neg (by omega)]

/-- The bytes a write leaves alone. -/
theorem Memory.read_writeNat_outside (m : List Host.Cell) {a n j : Nat} (x : Nat) (h : j < a ∨ a + n ≤ j) :
    Memory.read (Memory.writeNat m a n x) j = Memory.read m j := by
  rw [Memory.read_writeNat, if_neg (by omega)]

/-- The bytes written read back as the value written. -/
theorem Memory.readNat_writeNat (m : List Host.Cell) (a n x : Nat) :
    Memory.readNat (Memory.writeNat m a n x) a n = x % 256 ^ n := by
  have key : ∀ k b y, (∀ j, j < k → Memory.read (Memory.writeNat m a n x) (b + j) = BitVec.ofNat 8 (y / 256 ^ j)) →
      Memory.readNat (Memory.writeNat m a n x) b k = y % 256 ^ k := by
    intro k
    induction k with
    | zero => intro b y _; simp [Memory.readNat, Nat.mod_one]
    | succ k ih =>
      intro b y h
      have h0 : Memory.read (Memory.writeNat m a n x) b = BitVec.ofNat 8 y := by simpa using h 0 (by omega)
      have hs := ih (b + 1) (y / 256) fun j hj => by
        have := h (j + 1) (by omega)
        rw [show b + (j + 1) = b + 1 + j by omega, Nat.pow_succ', ← Nat.div_div_eq_div_mul] at this
        exact this
      rw [Memory.readNat, h0, hs, Nat.pow_succ', Nat.mod_mul]
      simp
  refine key n a x fun j hj => ?_
  rw [Memory.read_writeNat, if_pos (by omega), Nat.add_sub_cancel_left]

end Sys2Proof.Machine
end

