-- ==== Sys2Proof/Laws/State.lean ====
section
/-! SUPPORT. What each update of the state and of a reel leaves of every field, and what reading a register file after a write gives. -/

namespace Sys2Proof.Machine

variable (s : State) (r : Reel)

/-! ### `State.setReel` -/

@[simp] theorem State.setReel_agenda (k : Nat) (q : Reel) : (s.setReel k q).agenda = s.agenda := rfl
@[simp] theorem State.setReel_rot (k : Nat) (q : Reel) : (s.setReel k q).rot = s.rot := rfl
@[simp] theorem State.setReel_cur (k : Nat) (q : Reel) : (s.setReel k q).cur = s.cur := rfl
@[simp] theorem State.setReel_scur (k : Nat) (q : Reel) : (s.setReel k q).scur = s.scur := rfl
@[simp] theorem State.setReel_nextId (k : Nat) (q : Reel) : (s.setReel k q).nextId = s.nextId := rfl
@[simp] theorem State.setReel_answer (k : Nat) (q : Reel) : (s.setReel k q).answer = s.answer := rfl
@[simp] theorem State.setReel_time (k : Nat) (q : Reel) : (s.setReel k q).time = s.time := rfl
@[simp] theorem State.setReel_reels (k : Nat) (q : Reel) : (s.setReel k q).reels = s.reels.put k q := rfl
@[simp] theorem State.setReel_blocks (k : Nat) (q : Reel) : (s.setReel k q).blocks = s.blocks := rfl
@[simp] theorem State.setReel_cores (k : Nat) (q : Reel) : (s.setReel k q).cores = s.cores := rfl
@[simp] theorem State.setReel_domains (k : Nat) (q : Reel) : (s.setReel k q).domains = s.domains := rfl
@[simp] theorem State.setReel_parts (k : Nat) (q : Reel) : (s.setReel k q).parts = s.parts := rfl
@[simp] theorem State.setReel_mem (k : Nat) (q : Reel) : (s.setReel k q).mem = s.mem := rfl
@[simp] theorem State.setReel_msgs (k : Nat) (q : Reel) : (s.setReel k q).msgs = s.msgs := rfl
@[simp] theorem State.setReel_stores (k : Nat) (q : Reel) : (s.setReel k q).stores = s.stores := rfl
@[simp] theorem State.setReel_faults (k : Nat) (q : Reel) : (s.setReel k q).faults = s.faults := rfl
@[simp] theorem State.setReel_launches (k : Nat) (q : Reel) : (s.setReel k q).launches = s.launches := rfl
@[simp] theorem State.setReel_nextLaunch (k : Nat) (q : Reel) : (s.setReel k q).nextLaunch = s.nextLaunch := rfl
@[simp] theorem State.setReel_queues (k : Nat) (q : Reel) : (s.setReel k q).queues = s.queues := rfl
@[simp] theorem State.setReel_refusals (k : Nat) (q : Reel) : (s.setReel k q).refusals = s.refusals := rfl
@[simp] theorem State.setReel_servedSlot (k : Nat) (q : Reel) : (s.setReel k q).servedSlot = s.servedSlot := rfl
@[simp] theorem State.setReel_preempts (k : Nat) (q : Reel) : (s.setReel k q).preempts = s.preempts := rfl
@[simp] theorem State.setReel_saved (k : Nat) (q : Reel) : (s.setReel k q).saved = s.saved := rfl
@[simp] theorem State.setReel_wafer (k : Nat) (q : Reel) : (s.setReel k q).wafer = s.wafer := rfl
@[simp] theorem State.setReel_hostLines (k : Nat) (q : Reel) : (s.setReel k q).hostLines = s.hostLines := rfl
@[simp] theorem State.setReel_hostDir (k : Nat) (q : Reel) : (s.setReel k q).hostDir = s.hostDir := rfl
@[simp] theorem State.setReel_hostReqs (k : Nat) (q : Reel) : (s.setReel k q).hostReqs = s.hostReqs := rfl
@[simp] theorem State.setReel_irqs (k : Nat) (q : Reel) : (s.setReel k q).irqs = s.irqs := rfl
@[simp] theorem State.setReel_portsFenced (k : Nat) (q : Reel) : (s.setReel k q).portsFenced = s.portsFenced := rfl
@[simp] theorem State.setReel_lostWafers (k : Nat) (q : Reel) : (s.setReel k q).lostWafers = s.lostWafers := rfl
@[simp] theorem State.setReel_colls (k : Nat) (q : Reel) : (s.setReel k q).colls = s.colls := rfl
@[simp] theorem State.setReel_abandons (k : Nat) (q : Reel) : (s.setReel k q).abandons = s.abandons := rfl
@[simp] theorem State.setReel_tier (k : Nat) (q : Reel) : (s.setReel k q).tier = s.tier := rfl
@[simp] theorem State.setReel_errLog (k : Nat) (q : Reel) : (s.setReel k q).errLog = s.errLog := rfl
@[simp] theorem State.setReel_mgmt (k : Nat) (q : Reel) : (s.setReel k q).mgmt = s.mgmt := rfl
@[simp] theorem State.setReel_boot (k : Nat) (q : Reel) : (s.setReel k q).boot = s.boot := rfl

/-! ### `State.setBlock` -/

@[simp] theorem State.setBlock_agenda (k : Nat) (b : Block) : (s.setBlock k b).agenda = s.agenda := rfl
@[simp] theorem State.setBlock_rot (k : Nat) (b : Block) : (s.setBlock k b).rot = s.rot := rfl
@[simp] theorem State.setBlock_cur (k : Nat) (b : Block) : (s.setBlock k b).cur = s.cur := rfl
@[simp] theorem State.setBlock_scur (k : Nat) (b : Block) : (s.setBlock k b).scur = s.scur := rfl
@[simp] theorem State.setBlock_nextId (k : Nat) (b : Block) : (s.setBlock k b).nextId = s.nextId := rfl
@[simp] theorem State.setBlock_answer (k : Nat) (b : Block) : (s.setBlock k b).answer = s.answer := rfl
@[simp] theorem State.setBlock_time (k : Nat) (b : Block) : (s.setBlock k b).time = s.time := rfl
@[simp] theorem State.setBlock_reels (k : Nat) (b : Block) : (s.setBlock k b).reels = s.reels := rfl
@[simp] theorem State.setBlock_blocks (k : Nat) (b : Block) : (s.setBlock k b).blocks = s.blocks.put k b := rfl
@[simp] theorem State.setBlock_cores (k : Nat) (b : Block) : (s.setBlock k b).cores = s.cores := rfl
@[simp] theorem State.setBlock_domains (k : Nat) (b : Block) : (s.setBlock k b).domains = s.domains := rfl
@[simp] theorem State.setBlock_parts (k : Nat) (b : Block) : (s.setBlock k b).parts = s.parts := rfl
@[simp] theorem State.setBlock_mem (k : Nat) (b : Block) : (s.setBlock k b).mem = s.mem := rfl
@[simp] theorem State.setBlock_msgs (k : Nat) (b : Block) : (s.setBlock k b).msgs = s.msgs := rfl
@[simp] theorem State.setBlock_stores (k : Nat) (b : Block) : (s.setBlock k b).stores = s.stores := rfl
@[simp] theorem State.setBlock_faults (k : Nat) (b : Block) : (s.setBlock k b).faults = s.faults := rfl
@[simp] theorem State.setBlock_launches (k : Nat) (b : Block) : (s.setBlock k b).launches = s.launches := rfl
@[simp] theorem State.setBlock_nextLaunch (k : Nat) (b : Block) : (s.setBlock k b).nextLaunch = s.nextLaunch := rfl
@[simp] theorem State.setBlock_queues (k : Nat) (b : Block) : (s.setBlock k b).queues = s.queues := rfl
@[simp] theorem State.setBlock_refusals (k : Nat) (b : Block) : (s.setBlock k b).refusals = s.refusals := rfl
@[simp] theorem State.setBlock_servedSlot (k : Nat) (b : Block) : (s.setBlock k b).servedSlot = s.servedSlot := rfl
@[simp] theorem State.setBlock_preempts (k : Nat) (b : Block) : (s.setBlock k b).preempts = s.preempts := rfl
@[simp] theorem State.setBlock_saved (k : Nat) (b : Block) : (s.setBlock k b).saved = s.saved := rfl
@[simp] theorem State.setBlock_wafer (k : Nat) (b : Block) : (s.setBlock k b).wafer = s.wafer := rfl
@[simp] theorem State.setBlock_hostLines (k : Nat) (b : Block) : (s.setBlock k b).hostLines = s.hostLines := rfl
@[simp] theorem State.setBlock_hostDir (k : Nat) (b : Block) : (s.setBlock k b).hostDir = s.hostDir := rfl
@[simp] theorem State.setBlock_hostReqs (k : Nat) (b : Block) : (s.setBlock k b).hostReqs = s.hostReqs := rfl
@[simp] theorem State.setBlock_irqs (k : Nat) (b : Block) : (s.setBlock k b).irqs = s.irqs := rfl
@[simp] theorem State.setBlock_portsFenced (k : Nat) (b : Block) : (s.setBlock k b).portsFenced = s.portsFenced := rfl
@[simp] theorem State.setBlock_lostWafers (k : Nat) (b : Block) : (s.setBlock k b).lostWafers = s.lostWafers := rfl
@[simp] theorem State.setBlock_colls (k : Nat) (b : Block) : (s.setBlock k b).colls = s.colls := rfl
@[simp] theorem State.setBlock_abandons (k : Nat) (b : Block) : (s.setBlock k b).abandons = s.abandons := rfl
@[simp] theorem State.setBlock_tier (k : Nat) (b : Block) : (s.setBlock k b).tier = s.tier := rfl
@[simp] theorem State.setBlock_errLog (k : Nat) (b : Block) : (s.setBlock k b).errLog = s.errLog := rfl
@[simp] theorem State.setBlock_mgmt (k : Nat) (b : Block) : (s.setBlock k b).mgmt = s.mgmt := rfl
@[simp] theorem State.setBlock_boot (k : Nat) (b : Block) : (s.setBlock k b).boot = s.boot := rfl

/-! ### `State.setCore` -/

@[simp] theorem State.setCore_agenda (c : Nat) (v : Core) : (s.setCore c v).agenda = s.agenda := rfl
@[simp] theorem State.setCore_rot (c : Nat) (v : Core) : (s.setCore c v).rot = s.rot := rfl
@[simp] theorem State.setCore_cur (c : Nat) (v : Core) : (s.setCore c v).cur = s.cur := rfl
@[simp] theorem State.setCore_scur (c : Nat) (v : Core) : (s.setCore c v).scur = s.scur := rfl
@[simp] theorem State.setCore_nextId (c : Nat) (v : Core) : (s.setCore c v).nextId = s.nextId := rfl
@[simp] theorem State.setCore_answer (c : Nat) (v : Core) : (s.setCore c v).answer = s.answer := rfl
@[simp] theorem State.setCore_time (c : Nat) (v : Core) : (s.setCore c v).time = s.time := rfl
@[simp] theorem State.setCore_reels (c : Nat) (v : Core) : (s.setCore c v).reels = s.reels := rfl
@[simp] theorem State.setCore_blocks (c : Nat) (v : Core) : (s.setCore c v).blocks = s.blocks := rfl
@[simp] theorem State.setCore_cores (c : Nat) (v : Core) : (s.setCore c v).cores = s.cores.putD Core.reset c v := rfl
@[simp] theorem State.setCore_domains (c : Nat) (v : Core) : (s.setCore c v).domains = s.domains := rfl
@[simp] theorem State.setCore_parts (c : Nat) (v : Core) : (s.setCore c v).parts = s.parts := rfl
@[simp] theorem State.setCore_mem (c : Nat) (v : Core) : (s.setCore c v).mem = s.mem := rfl
@[simp] theorem State.setCore_msgs (c : Nat) (v : Core) : (s.setCore c v).msgs = s.msgs := rfl
@[simp] theorem State.setCore_stores (c : Nat) (v : Core) : (s.setCore c v).stores = s.stores := rfl
@[simp] theorem State.setCore_faults (c : Nat) (v : Core) : (s.setCore c v).faults = s.faults := rfl
@[simp] theorem State.setCore_launches (c : Nat) (v : Core) : (s.setCore c v).launches = s.launches := rfl
@[simp] theorem State.setCore_nextLaunch (c : Nat) (v : Core) : (s.setCore c v).nextLaunch = s.nextLaunch := rfl
@[simp] theorem State.setCore_queues (c : Nat) (v : Core) : (s.setCore c v).queues = s.queues := rfl
@[simp] theorem State.setCore_refusals (c : Nat) (v : Core) : (s.setCore c v).refusals = s.refusals := rfl
@[simp] theorem State.setCore_servedSlot (c : Nat) (v : Core) : (s.setCore c v).servedSlot = s.servedSlot := rfl
@[simp] theorem State.setCore_preempts (c : Nat) (v : Core) : (s.setCore c v).preempts = s.preempts := rfl
@[simp] theorem State.setCore_saved (c : Nat) (v : Core) : (s.setCore c v).saved = s.saved := rfl
@[simp] theorem State.setCore_wafer (c : Nat) (v : Core) : (s.setCore c v).wafer = s.wafer := rfl
@[simp] theorem State.setCore_hostLines (c : Nat) (v : Core) : (s.setCore c v).hostLines = s.hostLines := rfl
@[simp] theorem State.setCore_hostDir (c : Nat) (v : Core) : (s.setCore c v).hostDir = s.hostDir := rfl
@[simp] theorem State.setCore_hostReqs (c : Nat) (v : Core) : (s.setCore c v).hostReqs = s.hostReqs := rfl
@[simp] theorem State.setCore_irqs (c : Nat) (v : Core) : (s.setCore c v).irqs = s.irqs := rfl
@[simp] theorem State.setCore_portsFenced (c : Nat) (v : Core) : (s.setCore c v).portsFenced = s.portsFenced := rfl
@[simp] theorem State.setCore_lostWafers (c : Nat) (v : Core) : (s.setCore c v).lostWafers = s.lostWafers := rfl
@[simp] theorem State.setCore_colls (c : Nat) (v : Core) : (s.setCore c v).colls = s.colls := rfl
@[simp] theorem State.setCore_abandons (c : Nat) (v : Core) : (s.setCore c v).abandons = s.abandons := rfl
@[simp] theorem State.setCore_tier (c : Nat) (v : Core) : (s.setCore c v).tier = s.tier := rfl
@[simp] theorem State.setCore_errLog (c : Nat) (v : Core) : (s.setCore c v).errLog = s.errLog := rfl
@[simp] theorem State.setCore_mgmt (c : Nat) (v : Core) : (s.setCore c v).mgmt = s.mgmt := rfl
@[simp] theorem State.setCore_boot (c : Nat) (v : Core) : (s.setCore c v).boot = s.boot := rfl

/-! ### `State.setDomain` -/

@[simp] theorem State.setDomain_agenda (d : Nat) (v : Domain) : (s.setDomain d v).agenda = s.agenda := rfl
@[simp] theorem State.setDomain_rot (d : Nat) (v : Domain) : (s.setDomain d v).rot = s.rot := rfl
@[simp] theorem State.setDomain_cur (d : Nat) (v : Domain) : (s.setDomain d v).cur = s.cur := rfl
@[simp] theorem State.setDomain_scur (d : Nat) (v : Domain) : (s.setDomain d v).scur = s.scur := rfl
@[simp] theorem State.setDomain_nextId (d : Nat) (v : Domain) : (s.setDomain d v).nextId = s.nextId := rfl
@[simp] theorem State.setDomain_answer (d : Nat) (v : Domain) : (s.setDomain d v).answer = s.answer := rfl
@[simp] theorem State.setDomain_time (d : Nat) (v : Domain) : (s.setDomain d v).time = s.time := rfl
@[simp] theorem State.setDomain_reels (d : Nat) (v : Domain) : (s.setDomain d v).reels = s.reels := rfl
@[simp] theorem State.setDomain_blocks (d : Nat) (v : Domain) : (s.setDomain d v).blocks = s.blocks := rfl
@[simp] theorem State.setDomain_cores (d : Nat) (v : Domain) : (s.setDomain d v).cores = s.cores := rfl
@[simp] theorem State.setDomain_domains (d : Nat) (v : Domain) : (s.setDomain d v).domains = s.domains.putD Domain.reset d v := rfl
@[simp] theorem State.setDomain_parts (d : Nat) (v : Domain) : (s.setDomain d v).parts = s.parts := rfl
@[simp] theorem State.setDomain_mem (d : Nat) (v : Domain) : (s.setDomain d v).mem = s.mem := rfl
@[simp] theorem State.setDomain_msgs (d : Nat) (v : Domain) : (s.setDomain d v).msgs = s.msgs := rfl
@[simp] theorem State.setDomain_stores (d : Nat) (v : Domain) : (s.setDomain d v).stores = s.stores := rfl
@[simp] theorem State.setDomain_faults (d : Nat) (v : Domain) : (s.setDomain d v).faults = s.faults := rfl
@[simp] theorem State.setDomain_launches (d : Nat) (v : Domain) : (s.setDomain d v).launches = s.launches := rfl
@[simp] theorem State.setDomain_nextLaunch (d : Nat) (v : Domain) : (s.setDomain d v).nextLaunch = s.nextLaunch := rfl
@[simp] theorem State.setDomain_queues (d : Nat) (v : Domain) : (s.setDomain d v).queues = s.queues := rfl
@[simp] theorem State.setDomain_refusals (d : Nat) (v : Domain) : (s.setDomain d v).refusals = s.refusals := rfl
@[simp] theorem State.setDomain_servedSlot (d : Nat) (v : Domain) : (s.setDomain d v).servedSlot = s.servedSlot := rfl
@[simp] theorem State.setDomain_preempts (d : Nat) (v : Domain) : (s.setDomain d v).preempts = s.preempts := rfl
@[simp] theorem State.setDomain_saved (d : Nat) (v : Domain) : (s.setDomain d v).saved = s.saved := rfl
@[simp] theorem State.setDomain_wafer (d : Nat) (v : Domain) : (s.setDomain d v).wafer = s.wafer := rfl
@[simp] theorem State.setDomain_hostLines (d : Nat) (v : Domain) : (s.setDomain d v).hostLines = s.hostLines := rfl
@[simp] theorem State.setDomain_hostDir (d : Nat) (v : Domain) : (s.setDomain d v).hostDir = s.hostDir := rfl
@[simp] theorem State.setDomain_hostReqs (d : Nat) (v : Domain) : (s.setDomain d v).hostReqs = s.hostReqs := rfl
@[simp] theorem State.setDomain_irqs (d : Nat) (v : Domain) : (s.setDomain d v).irqs = s.irqs := rfl
@[simp] theorem State.setDomain_portsFenced (d : Nat) (v : Domain) : (s.setDomain d v).portsFenced = s.portsFenced := rfl
@[simp] theorem State.setDomain_lostWafers (d : Nat) (v : Domain) : (s.setDomain d v).lostWafers = s.lostWafers := rfl
@[simp] theorem State.setDomain_colls (d : Nat) (v : Domain) : (s.setDomain d v).colls = s.colls := rfl
@[simp] theorem State.setDomain_abandons (d : Nat) (v : Domain) : (s.setDomain d v).abandons = s.abandons := rfl
@[simp] theorem State.setDomain_tier (d : Nat) (v : Domain) : (s.setDomain d v).tier = s.tier := rfl
@[simp] theorem State.setDomain_errLog (d : Nat) (v : Domain) : (s.setDomain d v).errLog = s.errLog := rfl
@[simp] theorem State.setDomain_mgmt (d : Nat) (v : Domain) : (s.setDomain d v).mgmt = s.mgmt := rfl
@[simp] theorem State.setDomain_boot (d : Nat) (v : Domain) : (s.setDomain d v).boot = s.boot := rfl

/-! ### `State.setPart` -/

@[simp] theorem State.setPart_agenda (p : Nat) (v : Partition) : (s.setPart p v).agenda = s.agenda := rfl
@[simp] theorem State.setPart_rot (p : Nat) (v : Partition) : (s.setPart p v).rot = s.rot := rfl
@[simp] theorem State.setPart_cur (p : Nat) (v : Partition) : (s.setPart p v).cur = s.cur := rfl
@[simp] theorem State.setPart_scur (p : Nat) (v : Partition) : (s.setPart p v).scur = s.scur := rfl
@[simp] theorem State.setPart_nextId (p : Nat) (v : Partition) : (s.setPart p v).nextId = s.nextId := rfl
@[simp] theorem State.setPart_answer (p : Nat) (v : Partition) : (s.setPart p v).answer = s.answer := rfl
@[simp] theorem State.setPart_time (p : Nat) (v : Partition) : (s.setPart p v).time = s.time := rfl
@[simp] theorem State.setPart_reels (p : Nat) (v : Partition) : (s.setPart p v).reels = s.reels := rfl
@[simp] theorem State.setPart_blocks (p : Nat) (v : Partition) : (s.setPart p v).blocks = s.blocks := rfl
@[simp] theorem State.setPart_cores (p : Nat) (v : Partition) : (s.setPart p v).cores = s.cores := rfl
@[simp] theorem State.setPart_domains (p : Nat) (v : Partition) : (s.setPart p v).domains = s.domains := rfl
@[simp] theorem State.setPart_parts (p : Nat) (v : Partition) : (s.setPart p v).parts = s.parts.putD (Partition.reset p) p v := rfl
@[simp] theorem State.setPart_mem (p : Nat) (v : Partition) : (s.setPart p v).mem = s.mem := rfl
@[simp] theorem State.setPart_msgs (p : Nat) (v : Partition) : (s.setPart p v).msgs = s.msgs := rfl
@[simp] theorem State.setPart_stores (p : Nat) (v : Partition) : (s.setPart p v).stores = s.stores := rfl
@[simp] theorem State.setPart_faults (p : Nat) (v : Partition) : (s.setPart p v).faults = s.faults := rfl
@[simp] theorem State.setPart_launches (p : Nat) (v : Partition) : (s.setPart p v).launches = s.launches := rfl
@[simp] theorem State.setPart_nextLaunch (p : Nat) (v : Partition) : (s.setPart p v).nextLaunch = s.nextLaunch := rfl
@[simp] theorem State.setPart_queues (p : Nat) (v : Partition) : (s.setPart p v).queues = s.queues := rfl
@[simp] theorem State.setPart_refusals (p : Nat) (v : Partition) : (s.setPart p v).refusals = s.refusals := rfl
@[simp] theorem State.setPart_servedSlot (p : Nat) (v : Partition) : (s.setPart p v).servedSlot = s.servedSlot := rfl
@[simp] theorem State.setPart_preempts (p : Nat) (v : Partition) : (s.setPart p v).preempts = s.preempts := rfl
@[simp] theorem State.setPart_saved (p : Nat) (v : Partition) : (s.setPart p v).saved = s.saved := rfl
@[simp] theorem State.setPart_wafer (p : Nat) (v : Partition) : (s.setPart p v).wafer = s.wafer := rfl
@[simp] theorem State.setPart_hostLines (p : Nat) (v : Partition) : (s.setPart p v).hostLines = s.hostLines := rfl
@[simp] theorem State.setPart_hostDir (p : Nat) (v : Partition) : (s.setPart p v).hostDir = s.hostDir := rfl
@[simp] theorem State.setPart_hostReqs (p : Nat) (v : Partition) : (s.setPart p v).hostReqs = s.hostReqs := rfl
@[simp] theorem State.setPart_irqs (p : Nat) (v : Partition) : (s.setPart p v).irqs = s.irqs := rfl
@[simp] theorem State.setPart_portsFenced (p : Nat) (v : Partition) : (s.setPart p v).portsFenced = s.portsFenced := rfl
@[simp] theorem State.setPart_lostWafers (p : Nat) (v : Partition) : (s.setPart p v).lostWafers = s.lostWafers := rfl
@[simp] theorem State.setPart_colls (p : Nat) (v : Partition) : (s.setPart p v).colls = s.colls := rfl
@[simp] theorem State.setPart_abandons (p : Nat) (v : Partition) : (s.setPart p v).abandons = s.abandons := rfl
@[simp] theorem State.setPart_tier (p : Nat) (v : Partition) : (s.setPart p v).tier = s.tier := rfl
@[simp] theorem State.setPart_errLog (p : Nat) (v : Partition) : (s.setPart p v).errLog = s.errLog := rfl
@[simp] theorem State.setPart_mgmt (p : Nat) (v : Partition) : (s.setPart p v).mgmt = s.mgmt := rfl
@[simp] theorem State.setPart_boot (p : Nat) (v : Partition) : (s.setPart p v).boot = s.boot := rfl

/-! ### `State.onCore` -/

@[simp] theorem State.onCore_agenda (c : Nat) (f : Core → Core) : (s.onCore c f).agenda = s.agenda := rfl
@[simp] theorem State.onCore_rot (c : Nat) (f : Core → Core) : (s.onCore c f).rot = s.rot := rfl
@[simp] theorem State.onCore_cur (c : Nat) (f : Core → Core) : (s.onCore c f).cur = s.cur := rfl
@[simp] theorem State.onCore_scur (c : Nat) (f : Core → Core) : (s.onCore c f).scur = s.scur := rfl
@[simp] theorem State.onCore_nextId (c : Nat) (f : Core → Core) : (s.onCore c f).nextId = s.nextId := rfl
@[simp] theorem State.onCore_answer (c : Nat) (f : Core → Core) : (s.onCore c f).answer = s.answer := rfl
@[simp] theorem State.onCore_time (c : Nat) (f : Core → Core) : (s.onCore c f).time = s.time := rfl
@[simp] theorem State.onCore_reels (c : Nat) (f : Core → Core) : (s.onCore c f).reels = s.reels := rfl
@[simp] theorem State.onCore_blocks (c : Nat) (f : Core → Core) : (s.onCore c f).blocks = s.blocks := rfl
@[simp] theorem State.onCore_domains (c : Nat) (f : Core → Core) : (s.onCore c f).domains = s.domains := rfl
@[simp] theorem State.onCore_parts (c : Nat) (f : Core → Core) : (s.onCore c f).parts = s.parts := rfl
@[simp] theorem State.onCore_mem (c : Nat) (f : Core → Core) : (s.onCore c f).mem = s.mem := rfl
@[simp] theorem State.onCore_msgs (c : Nat) (f : Core → Core) : (s.onCore c f).msgs = s.msgs := rfl
@[simp] theorem State.onCore_stores (c : Nat) (f : Core → Core) : (s.onCore c f).stores = s.stores := rfl
@[simp] theorem State.onCore_faults (c : Nat) (f : Core → Core) : (s.onCore c f).faults = s.faults := rfl
@[simp] theorem State.onCore_launches (c : Nat) (f : Core → Core) : (s.onCore c f).launches = s.launches := rfl
@[simp] theorem State.onCore_nextLaunch (c : Nat) (f : Core → Core) : (s.onCore c f).nextLaunch = s.nextLaunch := rfl
@[simp] theorem State.onCore_queues (c : Nat) (f : Core → Core) : (s.onCore c f).queues = s.queues := rfl
@[simp] theorem State.onCore_refusals (c : Nat) (f : Core → Core) : (s.onCore c f).refusals = s.refusals := rfl
@[simp] theorem State.onCore_servedSlot (c : Nat) (f : Core → Core) : (s.onCore c f).servedSlot = s.servedSlot := rfl
@[simp] theorem State.onCore_preempts (c : Nat) (f : Core → Core) : (s.onCore c f).preempts = s.preempts := rfl
@[simp] theorem State.onCore_saved (c : Nat) (f : Core → Core) : (s.onCore c f).saved = s.saved := rfl
@[simp] theorem State.onCore_wafer (c : Nat) (f : Core → Core) : (s.onCore c f).wafer = s.wafer := rfl
@[simp] theorem State.onCore_hostLines (c : Nat) (f : Core → Core) : (s.onCore c f).hostLines = s.hostLines := rfl
@[simp] theorem State.onCore_hostDir (c : Nat) (f : Core → Core) : (s.onCore c f).hostDir = s.hostDir := rfl
@[simp] theorem State.onCore_hostReqs (c : Nat) (f : Core → Core) : (s.onCore c f).hostReqs = s.hostReqs := rfl
@[simp] theorem State.onCore_irqs (c : Nat) (f : Core → Core) : (s.onCore c f).irqs = s.irqs := rfl
@[simp] theorem State.onCore_portsFenced (c : Nat) (f : Core → Core) : (s.onCore c f).portsFenced = s.portsFenced := rfl
@[simp] theorem State.onCore_lostWafers (c : Nat) (f : Core → Core) : (s.onCore c f).lostWafers = s.lostWafers := rfl
@[simp] theorem State.onCore_colls (c : Nat) (f : Core → Core) : (s.onCore c f).colls = s.colls := rfl
@[simp] theorem State.onCore_abandons (c : Nat) (f : Core → Core) : (s.onCore c f).abandons = s.abandons := rfl
@[simp] theorem State.onCore_tier (c : Nat) (f : Core → Core) : (s.onCore c f).tier = s.tier := rfl
@[simp] theorem State.onCore_errLog (c : Nat) (f : Core → Core) : (s.onCore c f).errLog = s.errLog := rfl
@[simp] theorem State.onCore_mgmt (c : Nat) (f : Core → Core) : (s.onCore c f).mgmt = s.mgmt := rfl
@[simp] theorem State.onCore_boot (c : Nat) (f : Core → Core) : (s.onCore c f).boot = s.boot := rfl

/-! ### `State.onDomain` -/

@[simp] theorem State.onDomain_agenda (d : Nat) (f : Domain → Domain) : (s.onDomain d f).agenda = s.agenda := rfl
@[simp] theorem State.onDomain_rot (d : Nat) (f : Domain → Domain) : (s.onDomain d f).rot = s.rot := rfl
@[simp] theorem State.onDomain_cur (d : Nat) (f : Domain → Domain) : (s.onDomain d f).cur = s.cur := rfl
@[simp] theorem State.onDomain_scur (d : Nat) (f : Domain → Domain) : (s.onDomain d f).scur = s.scur := rfl
@[simp] theorem State.onDomain_nextId (d : Nat) (f : Domain → Domain) : (s.onDomain d f).nextId = s.nextId := rfl
@[simp] theorem State.onDomain_answer (d : Nat) (f : Domain → Domain) : (s.onDomain d f).answer = s.answer := rfl
@[simp] theorem State.onDomain_time (d : Nat) (f : Domain → Domain) : (s.onDomain d f).time = s.time := rfl
@[simp] theorem State.onDomain_reels (d : Nat) (f : Domain → Domain) : (s.onDomain d f).reels = s.reels := rfl
@[simp] theorem State.onDomain_blocks (d : Nat) (f : Domain → Domain) : (s.onDomain d f).blocks = s.blocks := rfl
@[simp] theorem State.onDomain_cores (d : Nat) (f : Domain → Domain) : (s.onDomain d f).cores = s.cores := rfl
@[simp] theorem State.onDomain_parts (d : Nat) (f : Domain → Domain) : (s.onDomain d f).parts = s.parts := rfl
@[simp] theorem State.onDomain_mem (d : Nat) (f : Domain → Domain) : (s.onDomain d f).mem = s.mem := rfl
@[simp] theorem State.onDomain_msgs (d : Nat) (f : Domain → Domain) : (s.onDomain d f).msgs = s.msgs := rfl
@[simp] theorem State.onDomain_stores (d : Nat) (f : Domain → Domain) : (s.onDomain d f).stores = s.stores := rfl
@[simp] theorem State.onDomain_faults (d : Nat) (f : Domain → Domain) : (s.onDomain d f).faults = s.faults := rfl
@[simp] theorem State.onDomain_launches (d : Nat) (f : Domain → Domain) : (s.onDomain d f).launches = s.launches := rfl
@[simp] theorem State.onDomain_nextLaunch (d : Nat) (f : Domain → Domain) : (s.onDomain d f).nextLaunch = s.nextLaunch := rfl
@[simp] theorem State.onDomain_queues (d : Nat) (f : Domain → Domain) : (s.onDomain d f).queues = s.queues := rfl
@[simp] theorem State.onDomain_refusals (d : Nat) (f : Domain → Domain) : (s.onDomain d f).refusals = s.refusals := rfl
@[simp] theorem State.onDomain_servedSlot (d : Nat) (f : Domain → Domain) : (s.onDomain d f).servedSlot = s.servedSlot := rfl
@[simp] theorem State.onDomain_preempts (d : Nat) (f : Domain → Domain) : (s.onDomain d f).preempts = s.preempts := rfl
@[simp] theorem State.onDomain_saved (d : Nat) (f : Domain → Domain) : (s.onDomain d f).saved = s.saved := rfl
@[simp] theorem State.onDomain_wafer (d : Nat) (f : Domain → Domain) : (s.onDomain d f).wafer = s.wafer := rfl
@[simp] theorem State.onDomain_hostLines (d : Nat) (f : Domain → Domain) : (s.onDomain d f).hostLines = s.hostLines := rfl
@[simp] theorem State.onDomain_hostDir (d : Nat) (f : Domain → Domain) : (s.onDomain d f).hostDir = s.hostDir := rfl
@[simp] theorem State.onDomain_hostReqs (d : Nat) (f : Domain → Domain) : (s.onDomain d f).hostReqs = s.hostReqs := rfl
@[simp] theorem State.onDomain_irqs (d : Nat) (f : Domain → Domain) : (s.onDomain d f).irqs = s.irqs := rfl
@[simp] theorem State.onDomain_portsFenced (d : Nat) (f : Domain → Domain) : (s.onDomain d f).portsFenced = s.portsFenced := rfl
@[simp] theorem State.onDomain_lostWafers (d : Nat) (f : Domain → Domain) : (s.onDomain d f).lostWafers = s.lostWafers := rfl
@[simp] theorem State.onDomain_colls (d : Nat) (f : Domain → Domain) : (s.onDomain d f).colls = s.colls := rfl
@[simp] theorem State.onDomain_abandons (d : Nat) (f : Domain → Domain) : (s.onDomain d f).abandons = s.abandons := rfl
@[simp] theorem State.onDomain_tier (d : Nat) (f : Domain → Domain) : (s.onDomain d f).tier = s.tier := rfl
@[simp] theorem State.onDomain_errLog (d : Nat) (f : Domain → Domain) : (s.onDomain d f).errLog = s.errLog := rfl
@[simp] theorem State.onDomain_mgmt (d : Nat) (f : Domain → Domain) : (s.onDomain d f).mgmt = s.mgmt := rfl
@[simp] theorem State.onDomain_boot (d : Nat) (f : Domain → Domain) : (s.onDomain d f).boot = s.boot := rfl

/-! ### `State.onBlock` -/

@[simp] theorem State.onBlock_agenda (k : Nat) (f : Block → Block) : (s.onBlock k f).agenda = s.agenda := rfl
@[simp] theorem State.onBlock_rot (k : Nat) (f : Block → Block) : (s.onBlock k f).rot = s.rot := rfl
@[simp] theorem State.onBlock_cur (k : Nat) (f : Block → Block) : (s.onBlock k f).cur = s.cur := rfl
@[simp] theorem State.onBlock_scur (k : Nat) (f : Block → Block) : (s.onBlock k f).scur = s.scur := rfl
@[simp] theorem State.onBlock_nextId (k : Nat) (f : Block → Block) : (s.onBlock k f).nextId = s.nextId := rfl
@[simp] theorem State.onBlock_answer (k : Nat) (f : Block → Block) : (s.onBlock k f).answer = s.answer := rfl
@[simp] theorem State.onBlock_time (k : Nat) (f : Block → Block) : (s.onBlock k f).time = s.time := rfl
@[simp] theorem State.onBlock_reels (k : Nat) (f : Block → Block) : (s.onBlock k f).reels = s.reels := rfl
@[simp] theorem State.onBlock_blocks (k : Nat) (f : Block → Block) : (s.onBlock k f).blocks = s.blocks.adjust k f := rfl
@[simp] theorem State.onBlock_cores (k : Nat) (f : Block → Block) : (s.onBlock k f).cores = s.cores := rfl
@[simp] theorem State.onBlock_domains (k : Nat) (f : Block → Block) : (s.onBlock k f).domains = s.domains := rfl
@[simp] theorem State.onBlock_parts (k : Nat) (f : Block → Block) : (s.onBlock k f).parts = s.parts := rfl
@[simp] theorem State.onBlock_mem (k : Nat) (f : Block → Block) : (s.onBlock k f).mem = s.mem := rfl
@[simp] theorem State.onBlock_msgs (k : Nat) (f : Block → Block) : (s.onBlock k f).msgs = s.msgs := rfl
@[simp] theorem State.onBlock_stores (k : Nat) (f : Block → Block) : (s.onBlock k f).stores = s.stores := rfl
@[simp] theorem State.onBlock_faults (k : Nat) (f : Block → Block) : (s.onBlock k f).faults = s.faults := rfl
@[simp] theorem State.onBlock_launches (k : Nat) (f : Block → Block) : (s.onBlock k f).launches = s.launches := rfl
@[simp] theorem State.onBlock_nextLaunch (k : Nat) (f : Block → Block) : (s.onBlock k f).nextLaunch = s.nextLaunch := rfl
@[simp] theorem State.onBlock_queues (k : Nat) (f : Block → Block) : (s.onBlock k f).queues = s.queues := rfl
@[simp] theorem State.onBlock_refusals (k : Nat) (f : Block → Block) : (s.onBlock k f).refusals = s.refusals := rfl
@[simp] theorem State.onBlock_servedSlot (k : Nat) (f : Block → Block) : (s.onBlock k f).servedSlot = s.servedSlot := rfl
@[simp] theorem State.onBlock_preempts (k : Nat) (f : Block → Block) : (s.onBlock k f).preempts = s.preempts := rfl
@[simp] theorem State.onBlock_saved (k : Nat) (f : Block → Block) : (s.onBlock k f).saved = s.saved := rfl
@[simp] theorem State.onBlock_wafer (k : Nat) (f : Block → Block) : (s.onBlock k f).wafer = s.wafer := rfl
@[simp] theorem State.onBlock_hostLines (k : Nat) (f : Block → Block) : (s.onBlock k f).hostLines = s.hostLines := rfl
@[simp] theorem State.onBlock_hostDir (k : Nat) (f : Block → Block) : (s.onBlock k f).hostDir = s.hostDir := rfl
@[simp] theorem State.onBlock_hostReqs (k : Nat) (f : Block → Block) : (s.onBlock k f).hostReqs = s.hostReqs := rfl
@[simp] theorem State.onBlock_irqs (k : Nat) (f : Block → Block) : (s.onBlock k f).irqs = s.irqs := rfl
@[simp] theorem State.onBlock_portsFenced (k : Nat) (f : Block → Block) : (s.onBlock k f).portsFenced = s.portsFenced := rfl
@[simp] theorem State.onBlock_lostWafers (k : Nat) (f : Block → Block) : (s.onBlock k f).lostWafers = s.lostWafers := rfl
@[simp] theorem State.onBlock_colls (k : Nat) (f : Block → Block) : (s.onBlock k f).colls = s.colls := rfl
@[simp] theorem State.onBlock_abandons (k : Nat) (f : Block → Block) : (s.onBlock k f).abandons = s.abandons := rfl
@[simp] theorem State.onBlock_tier (k : Nat) (f : Block → Block) : (s.onBlock k f).tier = s.tier := rfl
@[simp] theorem State.onBlock_errLog (k : Nat) (f : Block → Block) : (s.onBlock k f).errLog = s.errLog := rfl
@[simp] theorem State.onBlock_mgmt (k : Nat) (f : Block → Block) : (s.onBlock k f).mgmt = s.mgmt := rfl
@[simp] theorem State.onBlock_boot (k : Nat) (f : Block → Block) : (s.onBlock k f).boot = s.boot := rfl

/-! ### `State.onReel` -/

@[simp] theorem State.onReel_agenda (k : Nat) (f : Reel → Reel) : (s.onReel k f).agenda = s.agenda := rfl
@[simp] theorem State.onReel_rot (k : Nat) (f : Reel → Reel) : (s.onReel k f).rot = s.rot := rfl
@[simp] theorem State.onReel_cur (k : Nat) (f : Reel → Reel) : (s.onReel k f).cur = s.cur := rfl
@[simp] theorem State.onReel_scur (k : Nat) (f : Reel → Reel) : (s.onReel k f).scur = s.scur := rfl
@[simp] theorem State.onReel_nextId (k : Nat) (f : Reel → Reel) : (s.onReel k f).nextId = s.nextId := rfl
@[simp] theorem State.onReel_answer (k : Nat) (f : Reel → Reel) : (s.onReel k f).answer = s.answer := rfl
@[simp] theorem State.onReel_time (k : Nat) (f : Reel → Reel) : (s.onReel k f).time = s.time := rfl
@[simp] theorem State.onReel_reels (k : Nat) (f : Reel → Reel) : (s.onReel k f).reels = s.reels.adjust k f := rfl
@[simp] theorem State.onReel_blocks (k : Nat) (f : Reel → Reel) : (s.onReel k f).blocks = s.blocks := rfl
@[simp] theorem State.onReel_cores (k : Nat) (f : Reel → Reel) : (s.onReel k f).cores = s.cores := rfl
@[simp] theorem State.onReel_domains (k : Nat) (f : Reel → Reel) : (s.onReel k f).domains = s.domains := rfl
@[simp] theorem State.onReel_parts (k : Nat) (f : Reel → Reel) : (s.onReel k f).parts = s.parts := rfl
@[simp] theorem State.onReel_mem (k : Nat) (f : Reel → Reel) : (s.onReel k f).mem = s.mem := rfl
@[simp] theorem State.onReel_msgs (k : Nat) (f : Reel → Reel) : (s.onReel k f).msgs = s.msgs := rfl
@[simp] theorem State.onReel_stores (k : Nat) (f : Reel → Reel) : (s.onReel k f).stores = s.stores := rfl
@[simp] theorem State.onReel_faults (k : Nat) (f : Reel → Reel) : (s.onReel k f).faults = s.faults := rfl
@[simp] theorem State.onReel_launches (k : Nat) (f : Reel → Reel) : (s.onReel k f).launches = s.launches := rfl
@[simp] theorem State.onReel_nextLaunch (k : Nat) (f : Reel → Reel) : (s.onReel k f).nextLaunch = s.nextLaunch := rfl
@[simp] theorem State.onReel_queues (k : Nat) (f : Reel → Reel) : (s.onReel k f).queues = s.queues := rfl
@[simp] theorem State.onReel_refusals (k : Nat) (f : Reel → Reel) : (s.onReel k f).refusals = s.refusals := rfl
@[simp] theorem State.onReel_servedSlot (k : Nat) (f : Reel → Reel) : (s.onReel k f).servedSlot = s.servedSlot := rfl
@[simp] theorem State.onReel_preempts (k : Nat) (f : Reel → Reel) : (s.onReel k f).preempts = s.preempts := rfl
@[simp] theorem State.onReel_saved (k : Nat) (f : Reel → Reel) : (s.onReel k f).saved = s.saved := rfl
@[simp] theorem State.onReel_wafer (k : Nat) (f : Reel → Reel) : (s.onReel k f).wafer = s.wafer := rfl
@[simp] theorem State.onReel_hostLines (k : Nat) (f : Reel → Reel) : (s.onReel k f).hostLines = s.hostLines := rfl
@[simp] theorem State.onReel_hostDir (k : Nat) (f : Reel → Reel) : (s.onReel k f).hostDir = s.hostDir := rfl
@[simp] theorem State.onReel_hostReqs (k : Nat) (f : Reel → Reel) : (s.onReel k f).hostReqs = s.hostReqs := rfl
@[simp] theorem State.onReel_irqs (k : Nat) (f : Reel → Reel) : (s.onReel k f).irqs = s.irqs := rfl
@[simp] theorem State.onReel_portsFenced (k : Nat) (f : Reel → Reel) : (s.onReel k f).portsFenced = s.portsFenced := rfl
@[simp] theorem State.onReel_lostWafers (k : Nat) (f : Reel → Reel) : (s.onReel k f).lostWafers = s.lostWafers := rfl
@[simp] theorem State.onReel_colls (k : Nat) (f : Reel → Reel) : (s.onReel k f).colls = s.colls := rfl
@[simp] theorem State.onReel_abandons (k : Nat) (f : Reel → Reel) : (s.onReel k f).abandons = s.abandons := rfl
@[simp] theorem State.onReel_tier (k : Nat) (f : Reel → Reel) : (s.onReel k f).tier = s.tier := rfl
@[simp] theorem State.onReel_errLog (k : Nat) (f : Reel → Reel) : (s.onReel k f).errLog = s.errLog := rfl
@[simp] theorem State.onReel_mgmt (k : Nat) (f : Reel → Reel) : (s.onReel k f).mgmt = s.mgmt := rfl
@[simp] theorem State.onReel_boot (k : Nat) (f : Reel → Reel) : (s.onReel k f).boot = s.boot := rfl

/-! ### `State.onStore` -/

@[simp] theorem State.onStore_agenda (k : Nat) (f : OutStore → OutStore) : (s.onStore k f).agenda = s.agenda := rfl
@[simp] theorem State.onStore_rot (k : Nat) (f : OutStore → OutStore) : (s.onStore k f).rot = s.rot := rfl
@[simp] theorem State.onStore_cur (k : Nat) (f : OutStore → OutStore) : (s.onStore k f).cur = s.cur := rfl
@[simp] theorem State.onStore_scur (k : Nat) (f : OutStore → OutStore) : (s.onStore k f).scur = s.scur := rfl
@[simp] theorem State.onStore_nextId (k : Nat) (f : OutStore → OutStore) : (s.onStore k f).nextId = s.nextId := rfl
@[simp] theorem State.onStore_answer (k : Nat) (f : OutStore → OutStore) : (s.onStore k f).answer = s.answer := rfl
@[simp] theorem State.onStore_time (k : Nat) (f : OutStore → OutStore) : (s.onStore k f).time = s.time := rfl
@[simp] theorem State.onStore_reels (k : Nat) (f : OutStore → OutStore) : (s.onStore k f).reels = s.reels := rfl
@[simp] theorem State.onStore_blocks (k : Nat) (f : OutStore → OutStore) : (s.onStore k f).blocks = s.blocks := rfl
@[simp] theorem State.onStore_cores (k : Nat) (f : OutStore → OutStore) : (s.onStore k f).cores = s.cores := rfl
@[simp] theorem State.onStore_domains (k : Nat) (f : OutStore → OutStore) : (s.onStore k f).domains = s.domains := rfl
@[simp] theorem State.onStore_parts (k : Nat) (f : OutStore → OutStore) : (s.onStore k f).parts = s.parts := rfl
@[simp] theorem State.onStore_mem (k : Nat) (f : OutStore → OutStore) : (s.onStore k f).mem = s.mem := rfl
@[simp] theorem State.onStore_msgs (k : Nat) (f : OutStore → OutStore) : (s.onStore k f).msgs = s.msgs := rfl
@[simp] theorem State.onStore_stores (k : Nat) (f : OutStore → OutStore) : (s.onStore k f).stores = s.stores.adjust k f := rfl
@[simp] theorem State.onStore_faults (k : Nat) (f : OutStore → OutStore) : (s.onStore k f).faults = s.faults := rfl
@[simp] theorem State.onStore_launches (k : Nat) (f : OutStore → OutStore) : (s.onStore k f).launches = s.launches := rfl
@[simp] theorem State.onStore_nextLaunch (k : Nat) (f : OutStore → OutStore) : (s.onStore k f).nextLaunch = s.nextLaunch := rfl
@[simp] theorem State.onStore_queues (k : Nat) (f : OutStore → OutStore) : (s.onStore k f).queues = s.queues := rfl
@[simp] theorem State.onStore_refusals (k : Nat) (f : OutStore → OutStore) : (s.onStore k f).refusals = s.refusals := rfl
@[simp] theorem State.onStore_servedSlot (k : Nat) (f : OutStore → OutStore) : (s.onStore k f).servedSlot = s.servedSlot := rfl
@[simp] theorem State.onStore_preempts (k : Nat) (f : OutStore → OutStore) : (s.onStore k f).preempts = s.preempts := rfl
@[simp] theorem State.onStore_saved (k : Nat) (f : OutStore → OutStore) : (s.onStore k f).saved = s.saved := rfl
@[simp] theorem State.onStore_wafer (k : Nat) (f : OutStore → OutStore) : (s.onStore k f).wafer = s.wafer := rfl
@[simp] theorem State.onStore_hostLines (k : Nat) (f : OutStore → OutStore) : (s.onStore k f).hostLines = s.hostLines := rfl
@[simp] theorem State.onStore_hostDir (k : Nat) (f : OutStore → OutStore) : (s.onStore k f).hostDir = s.hostDir := rfl
@[simp] theorem State.onStore_hostReqs (k : Nat) (f : OutStore → OutStore) : (s.onStore k f).hostReqs = s.hostReqs := rfl
@[simp] theorem State.onStore_irqs (k : Nat) (f : OutStore → OutStore) : (s.onStore k f).irqs = s.irqs := rfl
@[simp] theorem State.onStore_portsFenced (k : Nat) (f : OutStore → OutStore) : (s.onStore k f).portsFenced = s.portsFenced := rfl
@[simp] theorem State.onStore_lostWafers (k : Nat) (f : OutStore → OutStore) : (s.onStore k f).lostWafers = s.lostWafers := rfl
@[simp] theorem State.onStore_colls (k : Nat) (f : OutStore → OutStore) : (s.onStore k f).colls = s.colls := rfl
@[simp] theorem State.onStore_abandons (k : Nat) (f : OutStore → OutStore) : (s.onStore k f).abandons = s.abandons := rfl
@[simp] theorem State.onStore_tier (k : Nat) (f : OutStore → OutStore) : (s.onStore k f).tier = s.tier := rfl
@[simp] theorem State.onStore_errLog (k : Nat) (f : OutStore → OutStore) : (s.onStore k f).errLog = s.errLog := rfl
@[simp] theorem State.onStore_mgmt (k : Nat) (f : OutStore → OutStore) : (s.onStore k f).mgmt = s.mgmt := rfl
@[simp] theorem State.onStore_boot (k : Nat) (f : OutStore → OutStore) : (s.onStore k f).boot = s.boot := rfl

/-! ### `State.send` -/

@[simp] theorem State.send_agenda (m : Msg) : (s.send m).agenda = s.agenda := rfl
@[simp] theorem State.send_rot (m : Msg) : (s.send m).rot = s.rot := rfl
@[simp] theorem State.send_cur (m : Msg) : (s.send m).cur = s.cur := rfl
@[simp] theorem State.send_scur (m : Msg) : (s.send m).scur = s.scur := rfl
@[simp] theorem State.send_nextId (m : Msg) : (s.send m).nextId = s.nextId + 1 := rfl
@[simp] theorem State.send_answer (m : Msg) : (s.send m).answer = s.answer := rfl
@[simp] theorem State.send_time (m : Msg) : (s.send m).time = s.time := rfl
@[simp] theorem State.send_reels (m : Msg) : (s.send m).reels = s.reels := rfl
@[simp] theorem State.send_blocks (m : Msg) : (s.send m).blocks = s.blocks := rfl
@[simp] theorem State.send_cores (m : Msg) : (s.send m).cores = s.cores := rfl
@[simp] theorem State.send_domains (m : Msg) : (s.send m).domains = s.domains := rfl
@[simp] theorem State.send_parts (m : Msg) : (s.send m).parts = s.parts := rfl
@[simp] theorem State.send_mem (m : Msg) : (s.send m).mem = s.mem := rfl
@[simp] theorem State.send_msgs (m : Msg) : (s.send m).msgs = s.msgs.put s.nextId m := rfl
@[simp] theorem State.send_stores (m : Msg) : (s.send m).stores = s.stores := rfl
@[simp] theorem State.send_faults (m : Msg) : (s.send m).faults = s.faults := rfl
@[simp] theorem State.send_launches (m : Msg) : (s.send m).launches = s.launches := rfl
@[simp] theorem State.send_nextLaunch (m : Msg) : (s.send m).nextLaunch = s.nextLaunch := rfl
@[simp] theorem State.send_queues (m : Msg) : (s.send m).queues = s.queues := rfl
@[simp] theorem State.send_refusals (m : Msg) : (s.send m).refusals = s.refusals := rfl
@[simp] theorem State.send_servedSlot (m : Msg) : (s.send m).servedSlot = s.servedSlot := rfl
@[simp] theorem State.send_preempts (m : Msg) : (s.send m).preempts = s.preempts := rfl
@[simp] theorem State.send_saved (m : Msg) : (s.send m).saved = s.saved := rfl
@[simp] theorem State.send_wafer (m : Msg) : (s.send m).wafer = s.wafer := rfl
@[simp] theorem State.send_hostLines (m : Msg) : (s.send m).hostLines = s.hostLines := rfl
@[simp] theorem State.send_hostDir (m : Msg) : (s.send m).hostDir = s.hostDir := rfl
@[simp] theorem State.send_hostReqs (m : Msg) : (s.send m).hostReqs = s.hostReqs := rfl
@[simp] theorem State.send_irqs (m : Msg) : (s.send m).irqs = s.irqs := rfl
@[simp] theorem State.send_portsFenced (m : Msg) : (s.send m).portsFenced = s.portsFenced := rfl
@[simp] theorem State.send_lostWafers (m : Msg) : (s.send m).lostWafers = s.lostWafers := rfl
@[simp] theorem State.send_colls (m : Msg) : (s.send m).colls = s.colls := rfl
@[simp] theorem State.send_abandons (m : Msg) : (s.send m).abandons = s.abandons := rfl
@[simp] theorem State.send_tier (m : Msg) : (s.send m).tier = s.tier := rfl
@[simp] theorem State.send_errLog (m : Msg) : (s.send m).errLog = s.errLog := rfl
@[simp] theorem State.send_mgmt (m : Msg) : (s.send m).mgmt = s.mgmt := rfl
@[simp] theorem State.send_boot (m : Msg) : (s.send m).boot = s.boot := rfl

/-! ### `Reel.vset` -/

@[simp] theorem Reel.vset_block (n l : Nat) (x : Word) : (r.vset n l x).block = r.block := rfl
@[simp] theorem Reel.vset_idx (n l : Nat) (x : Word) : (r.vset n l x).idx = r.idx := rfl
@[simp] theorem Reel.vset_s (n l : Nat) (x : Word) : (r.vset n l x).s = r.s := rfl
@[simp] theorem Reel.vset_k (n l : Nat) (x : Word) : (r.vset n l x).k = r.k := rfl
@[simp] theorem Reel.vset_splits (n l : Nat) (x : Word) : (r.vset n l x).splits = r.splits := rfl
@[simp] theorem Reel.vset_entries (n l : Nat) (x : Word) : (r.vset n l x).entries = r.entries := rfl
@[simp] theorem Reel.vset_nextEntry (n l : Nat) (x : Word) : (r.vset n l x).nextEntry = r.nextEntry := rfl
@[simp] theorem Reel.vset_heldBy (n l : Nat) (x : Word) : (r.vset n l x).heldBy = r.heldBy := rfl
@[simp] theorem Reel.vset_stopped (n l : Nat) (x : Word) : (r.vset n l x).stopped = r.stopped := rfl
@[simp] theorem Reel.vset_exited (n l : Nat) (x : Word) : (r.vset n l x).exited = r.exited := rfl
@[simp] theorem Reel.vset_killed (n l : Nat) (x : Word) : (r.vset n l x).killed = r.killed := rfl
@[simp] theorem Reel.vset_ld (n l : Nat) (x : Word) : (r.vset n l x).ld = r.ld := rfl
@[simp] theorem Reel.vset_st (n l : Nat) (x : Word) : (r.vset n l x).st = r.st := rfl
@[simp] theorem Reel.vset_eng (n l : Nat) (x : Word) : (r.vset n l x).eng = r.eng := rfl
@[simp] theorem Reel.vset_mx (n l : Nat) (x : Word) : (r.vset n l x).mx = r.mx := rfl
@[simp] theorem Reel.vset_loads (n l : Nat) (x : Word) : (r.vset n l x).loads = r.loads := rfl
@[simp] theorem Reel.vset_moves (n l : Nat) (x : Word) : (r.vset n l x).moves = r.moves := rfl
@[simp] theorem Reel.vset_tcr (n l : Nat) (x : Word) : (r.vset n l x).tcr = r.tcr := rfl
@[simp] theorem Reel.vset_tcrEntry (n l : Nat) (x : Word) : (r.vset n l x).tcrEntry = r.tcrEntry := rfl
@[simp] theorem Reel.vset_fflags (n l : Nat) (x : Word) : (r.vset n l x).fflags = r.fflags := rfl
@[simp] theorem Reel.vset_xpc (n l : Nat) (x : Word) : (r.vset n l x).xpc = r.xpc := rfl
@[simp] theorem Reel.vset_xinst (n l : Nat) (x : Word) : (r.vset n l x).xinst = r.xinst := rfl
@[simp] theorem Reel.vset_xmask (n l : Nat) (x : Word) : (r.vset n l x).xmask = r.xmask := rfl
@[simp] theorem Reel.vset_xkind (n l : Nat) (x : Word) : (r.vset n l x).xkind = r.xkind := rfl
@[simp] theorem Reel.vset_xvec (n l : Nat) (x : Word) : (r.vset n l x).xvec = r.xvec := rfl
@[simp] theorem Reel.vset_xvechi (n l : Nat) (x : Word) : (r.vset n l x).xvechi = r.xvechi := rfl
@[simp] theorem Reel.vset_handler (n l : Nat) (x : Word) : (r.vset n l x).handler = r.handler := rfl
@[simp] theorem Reel.vset_trapPc (n l : Nat) (x : Word) : (r.vset n l x).trapPc = r.trapPc := rfl
@[simp] theorem Reel.vset_trapIpc (n l : Nat) (x : Word) : (r.vset n l x).trapIpc = r.trapIpc := rfl
@[simp] theorem Reel.vset_trapLanes (n l : Nat) (x : Word) : (r.vset n l x).trapLanes = r.trapLanes := rfl
@[simp] theorem Reel.vset_trapDepth (n l : Nat) (x : Word) : (r.vset n l x).trapDepth = r.trapDepth := rfl
@[simp] theorem Reel.vset_watches (n l : Nat) (x : Word) : (r.vset n l x).watches = r.watches := rfl
@[simp] theorem Reel.vset_cycloLatch (n l : Nat) (x : Word) : (r.vset n l x).cycloLatch = r.cycloLatch := rfl
@[simp] theorem Reel.vset_prio (n l : Nat) (x : Word) : (r.vset n l x).prio = r.prio := rfl
@[simp] theorem Reel.vset_yielded (n l : Nat) (x : Word) : (r.vset n l x).yielded = r.yielded := rfl
@[simp] theorem Reel.vset_restUntil (n l : Nat) (x : Word) : (r.vset n l x).restUntil = r.restUntil := rfl
@[simp] theorem Reel.vset_retired (n l : Nat) (x : Word) : (r.vset n l x).retired = r.retired := rfl
@[simp] theorem Reel.vset_turn (n l : Nat) (x : Word) : (r.vset n l x).turn = r.turn := rfl
@[simp] theorem Reel.vset_seq (n l : Nat) (x : Word) : (r.vset n l x).seq = r.seq := rfl
@[simp] theorem Reel.vset_iter (n l : Nat) (x : Word) : (r.vset n l x).iter = r.iter := rfl
@[simp] theorem Reel.vset_inherited (n l : Nat) (x : Word) : (r.vset n l x).inherited = r.inherited := rfl

/-! ### `Reel.raiseFlags` -/

@[simp] theorem Reel.raiseFlags_block (l : Nat) (f : Flags) : (r.raiseFlags l f).block = r.block := rfl
@[simp] theorem Reel.raiseFlags_idx (l : Nat) (f : Flags) : (r.raiseFlags l f).idx = r.idx := rfl
@[simp] theorem Reel.raiseFlags_v (l : Nat) (f : Flags) : (r.raiseFlags l f).v = r.v := rfl
@[simp] theorem Reel.raiseFlags_s (l : Nat) (f : Flags) : (r.raiseFlags l f).s = r.s := rfl
@[simp] theorem Reel.raiseFlags_k (l : Nat) (f : Flags) : (r.raiseFlags l f).k = r.k := rfl
@[simp] theorem Reel.raiseFlags_splits (l : Nat) (f : Flags) : (r.raiseFlags l f).splits = r.splits := rfl
@[simp] theorem Reel.raiseFlags_entries (l : Nat) (f : Flags) : (r.raiseFlags l f).entries = r.entries := rfl
@[simp] theorem Reel.raiseFlags_nextEntry (l : Nat) (f : Flags) : (r.raiseFlags l f).nextEntry = r.nextEntry := rfl
@[simp] theorem Reel.raiseFlags_heldBy (l : Nat) (f : Flags) : (r.raiseFlags l f).heldBy = r.heldBy := rfl
@[simp] theorem Reel.raiseFlags_stopped (l : Nat) (f : Flags) : (r.raiseFlags l f).stopped = r.stopped := rfl
@[simp] theorem Reel.raiseFlags_exited (l : Nat) (f : Flags) : (r.raiseFlags l f).exited = r.exited := rfl
@[simp] theorem Reel.raiseFlags_killed (l : Nat) (f : Flags) : (r.raiseFlags l f).killed = r.killed := rfl
@[simp] theorem Reel.raiseFlags_ld (l : Nat) (f : Flags) : (r.raiseFlags l f).ld = r.ld := rfl
@[simp] theorem Reel.raiseFlags_st (l : Nat) (f : Flags) : (r.raiseFlags l f).st = r.st := rfl
@[simp] theorem Reel.raiseFlags_eng (l : Nat) (f : Flags) : (r.raiseFlags l f).eng = r.eng := rfl
@[simp] theorem Reel.raiseFlags_mx (l : Nat) (f : Flags) : (r.raiseFlags l f).mx = r.mx := rfl
@[simp] theorem Reel.raiseFlags_loads (l : Nat) (f : Flags) : (r.raiseFlags l f).loads = r.loads := rfl
@[simp] theorem Reel.raiseFlags_moves (l : Nat) (f : Flags) : (r.raiseFlags l f).moves = r.moves := rfl
@[simp] theorem Reel.raiseFlags_tcr (l : Nat) (f : Flags) : (r.raiseFlags l f).tcr = r.tcr := rfl
@[simp] theorem Reel.raiseFlags_tcrEntry (l : Nat) (f : Flags) : (r.raiseFlags l f).tcrEntry = r.tcrEntry := rfl
@[simp] theorem Reel.raiseFlags_xpc (l : Nat) (f : Flags) : (r.raiseFlags l f).xpc = r.xpc := rfl
@[simp] theorem Reel.raiseFlags_xinst (l : Nat) (f : Flags) : (r.raiseFlags l f).xinst = r.xinst := rfl
@[simp] theorem Reel.raiseFlags_xmask (l : Nat) (f : Flags) : (r.raiseFlags l f).xmask = r.xmask := rfl
@[simp] theorem Reel.raiseFlags_xkind (l : Nat) (f : Flags) : (r.raiseFlags l f).xkind = r.xkind := rfl
@[simp] theorem Reel.raiseFlags_xvec (l : Nat) (f : Flags) : (r.raiseFlags l f).xvec = r.xvec := rfl
@[simp] theorem Reel.raiseFlags_xvechi (l : Nat) (f : Flags) : (r.raiseFlags l f).xvechi = r.xvechi := rfl
@[simp] theorem Reel.raiseFlags_handler (l : Nat) (f : Flags) : (r.raiseFlags l f).handler = r.handler := rfl
@[simp] theorem Reel.raiseFlags_trapPc (l : Nat) (f : Flags) : (r.raiseFlags l f).trapPc = r.trapPc := rfl
@[simp] theorem Reel.raiseFlags_trapIpc (l : Nat) (f : Flags) : (r.raiseFlags l f).trapIpc = r.trapIpc := rfl
@[simp] theorem Reel.raiseFlags_trapLanes (l : Nat) (f : Flags) : (r.raiseFlags l f).trapLanes = r.trapLanes := rfl
@[simp] theorem Reel.raiseFlags_trapDepth (l : Nat) (f : Flags) : (r.raiseFlags l f).trapDepth = r.trapDepth := rfl
@[simp] theorem Reel.raiseFlags_watches (l : Nat) (f : Flags) : (r.raiseFlags l f).watches = r.watches := rfl
@[simp] theorem Reel.raiseFlags_cycloLatch (l : Nat) (f : Flags) : (r.raiseFlags l f).cycloLatch = r.cycloLatch := rfl
@[simp] theorem Reel.raiseFlags_prio (l : Nat) (f : Flags) : (r.raiseFlags l f).prio = r.prio := rfl
@[simp] theorem Reel.raiseFlags_yielded (l : Nat) (f : Flags) : (r.raiseFlags l f).yielded = r.yielded := rfl
@[simp] theorem Reel.raiseFlags_restUntil (l : Nat) (f : Flags) : (r.raiseFlags l f).restUntil = r.restUntil := rfl
@[simp] theorem Reel.raiseFlags_retired (l : Nat) (f : Flags) : (r.raiseFlags l f).retired = r.retired := rfl
@[simp] theorem Reel.raiseFlags_turn (l : Nat) (f : Flags) : (r.raiseFlags l f).turn = r.turn := rfl
@[simp] theorem Reel.raiseFlags_seq (l : Nat) (f : Flags) : (r.raiseFlags l f).seq = r.seq := rfl
@[simp] theorem Reel.raiseFlags_iter (l : Nat) (f : Flags) : (r.raiseFlags l f).iter = r.iter := rfl
@[simp] theorem Reel.raiseFlags_inherited (l : Nat) (f : Flags) : (r.raiseFlags l f).inherited = r.inherited := rfl

/-! ### `Reel.setSplit` -/

@[simp] theorem Reel.setSplit_block (i : Nat) (p : Split) : (r.setSplit i p).block = r.block := rfl
@[simp] theorem Reel.setSplit_idx (i : Nat) (p : Split) : (r.setSplit i p).idx = r.idx := rfl
@[simp] theorem Reel.setSplit_v (i : Nat) (p : Split) : (r.setSplit i p).v = r.v := rfl
@[simp] theorem Reel.setSplit_s (i : Nat) (p : Split) : (r.setSplit i p).s = r.s := rfl
@[simp] theorem Reel.setSplit_k (i : Nat) (p : Split) : (r.setSplit i p).k = r.k := rfl
@[simp] theorem Reel.setSplit_splits (i : Nat) (p : Split) : (r.setSplit i p).splits = r.splits.put i p := rfl
@[simp] theorem Reel.setSplit_entries (i : Nat) (p : Split) : (r.setSplit i p).entries = r.entries := rfl
@[simp] theorem Reel.setSplit_nextEntry (i : Nat) (p : Split) : (r.setSplit i p).nextEntry = r.nextEntry := rfl
@[simp] theorem Reel.setSplit_heldBy (i : Nat) (p : Split) : (r.setSplit i p).heldBy = r.heldBy := rfl
@[simp] theorem Reel.setSplit_stopped (i : Nat) (p : Split) : (r.setSplit i p).stopped = r.stopped := rfl
@[simp] theorem Reel.setSplit_exited (i : Nat) (p : Split) : (r.setSplit i p).exited = r.exited := rfl
@[simp] theorem Reel.setSplit_killed (i : Nat) (p : Split) : (r.setSplit i p).killed = r.killed := rfl
@[simp] theorem Reel.setSplit_ld (i : Nat) (p : Split) : (r.setSplit i p).ld = r.ld := rfl
@[simp] theorem Reel.setSplit_st (i : Nat) (p : Split) : (r.setSplit i p).st = r.st := rfl
@[simp] theorem Reel.setSplit_eng (i : Nat) (p : Split) : (r.setSplit i p).eng = r.eng := rfl
@[simp] theorem Reel.setSplit_mx (i : Nat) (p : Split) : (r.setSplit i p).mx = r.mx := rfl
@[simp] theorem Reel.setSplit_loads (i : Nat) (p : Split) : (r.setSplit i p).loads = r.loads := rfl
@[simp] theorem Reel.setSplit_moves (i : Nat) (p : Split) : (r.setSplit i p).moves = r.moves := rfl
@[simp] theorem Reel.setSplit_tcr (i : Nat) (p : Split) : (r.setSplit i p).tcr = r.tcr := rfl
@[simp] theorem Reel.setSplit_tcrEntry (i : Nat) (p : Split) : (r.setSplit i p).tcrEntry = r.tcrEntry := rfl
@[simp] theorem Reel.setSplit_fflags (i : Nat) (p : Split) : (r.setSplit i p).fflags = r.fflags := rfl
@[simp] theorem Reel.setSplit_xpc (i : Nat) (p : Split) : (r.setSplit i p).xpc = r.xpc := rfl
@[simp] theorem Reel.setSplit_xinst (i : Nat) (p : Split) : (r.setSplit i p).xinst = r.xinst := rfl
@[simp] theorem Reel.setSplit_xmask (i : Nat) (p : Split) : (r.setSplit i p).xmask = r.xmask := rfl
@[simp] theorem Reel.setSplit_xkind (i : Nat) (p : Split) : (r.setSplit i p).xkind = r.xkind := rfl
@[simp] theorem Reel.setSplit_xvec (i : Nat) (p : Split) : (r.setSplit i p).xvec = r.xvec := rfl
@[simp] theorem Reel.setSplit_xvechi (i : Nat) (p : Split) : (r.setSplit i p).xvechi = r.xvechi := rfl
@[simp] theorem Reel.setSplit_handler (i : Nat) (p : Split) : (r.setSplit i p).handler = r.handler := rfl
@[simp] theorem Reel.setSplit_trapPc (i : Nat) (p : Split) : (r.setSplit i p).trapPc = r.trapPc := rfl
@[simp] theorem Reel.setSplit_trapIpc (i : Nat) (p : Split) : (r.setSplit i p).trapIpc = r.trapIpc := rfl
@[simp] theorem Reel.setSplit_trapLanes (i : Nat) (p : Split) : (r.setSplit i p).trapLanes = r.trapLanes := rfl
@[simp] theorem Reel.setSplit_trapDepth (i : Nat) (p : Split) : (r.setSplit i p).trapDepth = r.trapDepth := rfl
@[simp] theorem Reel.setSplit_watches (i : Nat) (p : Split) : (r.setSplit i p).watches = r.watches := rfl
@[simp] theorem Reel.setSplit_cycloLatch (i : Nat) (p : Split) : (r.setSplit i p).cycloLatch = r.cycloLatch := rfl
@[simp] theorem Reel.setSplit_prio (i : Nat) (p : Split) : (r.setSplit i p).prio = r.prio := rfl
@[simp] theorem Reel.setSplit_yielded (i : Nat) (p : Split) : (r.setSplit i p).yielded = r.yielded := rfl
@[simp] theorem Reel.setSplit_restUntil (i : Nat) (p : Split) : (r.setSplit i p).restUntil = r.restUntil := rfl
@[simp] theorem Reel.setSplit_retired (i : Nat) (p : Split) : (r.setSplit i p).retired = r.retired := rfl
@[simp] theorem Reel.setSplit_turn (i : Nat) (p : Split) : (r.setSplit i p).turn = r.turn := rfl
@[simp] theorem Reel.setSplit_seq (i : Nat) (p : Split) : (r.setSplit i p).seq = r.seq := rfl
@[simp] theorem Reel.setSplit_iter (i : Nat) (p : Split) : (r.setSplit i p).iter = r.iter := rfl
@[simp] theorem Reel.setSplit_inherited (i : Nat) (p : Split) : (r.setSplit i p).inherited = r.inherited := rfl

/-! ### `Reel.sset` -/

@[simp] theorem Reel.sset_block (n : Nat) (x : Word) : (r.sset n x).block = r.block := by unfold Reel.sset; split <;> rfl
@[simp] theorem Reel.sset_idx (n : Nat) (x : Word) : (r.sset n x).idx = r.idx := by unfold Reel.sset; split <;> rfl
@[simp] theorem Reel.sset_v (n : Nat) (x : Word) : (r.sset n x).v = r.v := by unfold Reel.sset; split <;> rfl
@[simp] theorem Reel.sset_k (n : Nat) (x : Word) : (r.sset n x).k = r.k := by unfold Reel.sset; split <;> rfl
@[simp] theorem Reel.sset_splits (n : Nat) (x : Word) : (r.sset n x).splits = r.splits := by unfold Reel.sset; split <;> rfl
@[simp] theorem Reel.sset_entries (n : Nat) (x : Word) : (r.sset n x).entries = r.entries := by unfold Reel.sset; split <;> rfl
@[simp] theorem Reel.sset_nextEntry (n : Nat) (x : Word) : (r.sset n x).nextEntry = r.nextEntry := by unfold Reel.sset; split <;> rfl
@[simp] theorem Reel.sset_heldBy (n : Nat) (x : Word) : (r.sset n x).heldBy = r.heldBy := by unfold Reel.sset; split <;> rfl
@[simp] theorem Reel.sset_stopped (n : Nat) (x : Word) : (r.sset n x).stopped = r.stopped := by unfold Reel.sset; split <;> rfl
@[simp] theorem Reel.sset_exited (n : Nat) (x : Word) : (r.sset n x).exited = r.exited := by unfold Reel.sset; split <;> rfl
@[simp] theorem Reel.sset_killed (n : Nat) (x : Word) : (r.sset n x).killed = r.killed := by unfold Reel.sset; split <;> rfl
@[simp] theorem Reel.sset_ld (n : Nat) (x : Word) : (r.sset n x).ld = r.ld := by unfold Reel.sset; split <;> rfl
@[simp] theorem Reel.sset_st (n : Nat) (x : Word) : (r.sset n x).st = r.st := by unfold Reel.sset; split <;> rfl
@[simp] theorem Reel.sset_eng (n : Nat) (x : Word) : (r.sset n x).eng = r.eng := by unfold Reel.sset; split <;> rfl
@[simp] theorem Reel.sset_mx (n : Nat) (x : Word) : (r.sset n x).mx = r.mx := by unfold Reel.sset; split <;> rfl
@[simp] theorem Reel.sset_loads (n : Nat) (x : Word) : (r.sset n x).loads = r.loads := by unfold Reel.sset; split <;> rfl
@[simp] theorem Reel.sset_moves (n : Nat) (x : Word) : (r.sset n x).moves = r.moves := by unfold Reel.sset; split <;> rfl
@[simp] theorem Reel.sset_tcr (n : Nat) (x : Word) : (r.sset n x).tcr = r.tcr := by unfold Reel.sset; split <;> rfl
@[simp] theorem Reel.sset_tcrEntry (n : Nat) (x : Word) : (r.sset n x).tcrEntry = r.tcrEntry := by unfold Reel.sset; split <;> rfl
@[simp] theorem Reel.sset_fflags (n : Nat) (x : Word) : (r.sset n x).fflags = r.fflags := by unfold Reel.sset; split <;> rfl
@[simp] theorem Reel.sset_xpc (n : Nat) (x : Word) : (r.sset n x).xpc = r.xpc := by unfold Reel.sset; split <;> rfl
@[simp] theorem Reel.sset_xinst (n : Nat) (x : Word) : (r.sset n x).xinst = r.xinst := by unfold Reel.sset; split <;> rfl
@[simp] theorem Reel.sset_xmask (n : Nat) (x : Word) : (r.sset n x).xmask = r.xmask := by unfold Reel.sset; split <;> rfl
@[simp] theorem Reel.sset_xkind (n : Nat) (x : Word) : (r.sset n x).xkind = r.xkind := by unfold Reel.sset; split <;> rfl
@[simp] theorem Reel.sset_xvec (n : Nat) (x : Word) : (r.sset n x).xvec = r.xvec := by unfold Reel.sset; split <;> rfl
@[simp] theorem Reel.sset_xvechi (n : Nat) (x : Word) : (r.sset n x).xvechi = r.xvechi := by unfold Reel.sset; split <;> rfl
@[simp] theorem Reel.sset_handler (n : Nat) (x : Word) : (r.sset n x).handler = r.handler := by unfold Reel.sset; split <;> rfl
@[simp] theorem Reel.sset_trapPc (n : Nat) (x : Word) : (r.sset n x).trapPc = r.trapPc := by unfold Reel.sset; split <;> rfl
@[simp] theorem Reel.sset_trapIpc (n : Nat) (x : Word) : (r.sset n x).trapIpc = r.trapIpc := by unfold Reel.sset; split <;> rfl
@[simp] theorem Reel.sset_trapLanes (n : Nat) (x : Word) : (r.sset n x).trapLanes = r.trapLanes := by unfold Reel.sset; split <;> rfl
@[simp] theorem Reel.sset_trapDepth (n : Nat) (x : Word) : (r.sset n x).trapDepth = r.trapDepth := by unfold Reel.sset; split <;> rfl
@[simp] theorem Reel.sset_watches (n : Nat) (x : Word) : (r.sset n x).watches = r.watches := by unfold Reel.sset; split <;> rfl
@[simp] theorem Reel.sset_cycloLatch (n : Nat) (x : Word) : (r.sset n x).cycloLatch = r.cycloLatch := by unfold Reel.sset; split <;> rfl
@[simp] theorem Reel.sset_prio (n : Nat) (x : Word) : (r.sset n x).prio = r.prio := by unfold Reel.sset; split <;> rfl
@[simp] theorem Reel.sset_yielded (n : Nat) (x : Word) : (r.sset n x).yielded = r.yielded := by unfold Reel.sset; split <;> rfl
@[simp] theorem Reel.sset_restUntil (n : Nat) (x : Word) : (r.sset n x).restUntil = r.restUntil := by unfold Reel.sset; split <;> rfl
@[simp] theorem Reel.sset_retired (n : Nat) (x : Word) : (r.sset n x).retired = r.retired := by unfold Reel.sset; split <;> rfl
@[simp] theorem Reel.sset_turn (n : Nat) (x : Word) : (r.sset n x).turn = r.turn := by unfold Reel.sset; split <;> rfl
@[simp] theorem Reel.sset_seq (n : Nat) (x : Word) : (r.sset n x).seq = r.seq := by unfold Reel.sset; split <;> rfl
@[simp] theorem Reel.sset_iter (n : Nat) (x : Word) : (r.sset n x).iter = r.iter := by unfold Reel.sset; split <;> rfl
@[simp] theorem Reel.sset_inherited (n : Nat) (x : Word) : (r.sset n x).inherited = r.inherited := by unfold Reel.sset; split <;> rfl

/-! ### `Reel.kset` -/

@[simp] theorem Reel.kset_block (n : Nat) (x : Word) : (r.kset n x).block = r.block := by unfold Reel.kset; split <;> rfl
@[simp] theorem Reel.kset_idx (n : Nat) (x : Word) : (r.kset n x).idx = r.idx := by unfold Reel.kset; split <;> rfl
@[simp] theorem Reel.kset_v (n : Nat) (x : Word) : (r.kset n x).v = r.v := by unfold Reel.kset; split <;> rfl
@[simp] theorem Reel.kset_s (n : Nat) (x : Word) : (r.kset n x).s = r.s := by unfold Reel.kset; split <;> rfl
@[simp] theorem Reel.kset_splits (n : Nat) (x : Word) : (r.kset n x).splits = r.splits := by unfold Reel.kset; split <;> rfl
@[simp] theorem Reel.kset_entries (n : Nat) (x : Word) : (r.kset n x).entries = r.entries := by unfold Reel.kset; split <;> rfl
@[simp] theorem Reel.kset_nextEntry (n : Nat) (x : Word) : (r.kset n x).nextEntry = r.nextEntry := by unfold Reel.kset; split <;> rfl
@[simp] theorem Reel.kset_heldBy (n : Nat) (x : Word) : (r.kset n x).heldBy = r.heldBy := by unfold Reel.kset; split <;> rfl
@[simp] theorem Reel.kset_stopped (n : Nat) (x : Word) : (r.kset n x).stopped = r.stopped := by unfold Reel.kset; split <;> rfl
@[simp] theorem Reel.kset_exited (n : Nat) (x : Word) : (r.kset n x).exited = r.exited := by unfold Reel.kset; split <;> rfl
@[simp] theorem Reel.kset_killed (n : Nat) (x : Word) : (r.kset n x).killed = r.killed := by unfold Reel.kset; split <;> rfl
@[simp] theorem Reel.kset_ld (n : Nat) (x : Word) : (r.kset n x).ld = r.ld := by unfold Reel.kset; split <;> rfl
@[simp] theorem Reel.kset_st (n : Nat) (x : Word) : (r.kset n x).st = r.st := by unfold Reel.kset; split <;> rfl
@[simp] theorem Reel.kset_eng (n : Nat) (x : Word) : (r.kset n x).eng = r.eng := by unfold Reel.kset; split <;> rfl
@[simp] theorem Reel.kset_mx (n : Nat) (x : Word) : (r.kset n x).mx = r.mx := by unfold Reel.kset; split <;> rfl
@[simp] theorem Reel.kset_loads (n : Nat) (x : Word) : (r.kset n x).loads = r.loads := by unfold Reel.kset; split <;> rfl
@[simp] theorem Reel.kset_moves (n : Nat) (x : Word) : (r.kset n x).moves = r.moves := by unfold Reel.kset; split <;> rfl
@[simp] theorem Reel.kset_tcr (n : Nat) (x : Word) : (r.kset n x).tcr = r.tcr := by unfold Reel.kset; split <;> rfl
@[simp] theorem Reel.kset_tcrEntry (n : Nat) (x : Word) : (r.kset n x).tcrEntry = r.tcrEntry := by unfold Reel.kset; split <;> rfl
@[simp] theorem Reel.kset_fflags (n : Nat) (x : Word) : (r.kset n x).fflags = r.fflags := by unfold Reel.kset; split <;> rfl
@[simp] theorem Reel.kset_xpc (n : Nat) (x : Word) : (r.kset n x).xpc = r.xpc := by unfold Reel.kset; split <;> rfl
@[simp] theorem Reel.kset_xinst (n : Nat) (x : Word) : (r.kset n x).xinst = r.xinst := by unfold Reel.kset; split <;> rfl
@[simp] theorem Reel.kset_xmask (n : Nat) (x : Word) : (r.kset n x).xmask = r.xmask := by unfold Reel.kset; split <;> rfl
@[simp] theorem Reel.kset_xkind (n : Nat) (x : Word) : (r.kset n x).xkind = r.xkind := by unfold Reel.kset; split <;> rfl
@[simp] theorem Reel.kset_xvec (n : Nat) (x : Word) : (r.kset n x).xvec = r.xvec := by unfold Reel.kset; split <;> rfl
@[simp] theorem Reel.kset_xvechi (n : Nat) (x : Word) : (r.kset n x).xvechi = r.xvechi := by unfold Reel.kset; split <;> rfl
@[simp] theorem Reel.kset_handler (n : Nat) (x : Word) : (r.kset n x).handler = r.handler := by unfold Reel.kset; split <;> rfl
@[simp] theorem Reel.kset_trapPc (n : Nat) (x : Word) : (r.kset n x).trapPc = r.trapPc := by unfold Reel.kset; split <;> rfl
@[simp] theorem Reel.kset_trapIpc (n : Nat) (x : Word) : (r.kset n x).trapIpc = r.trapIpc := by unfold Reel.kset; split <;> rfl
@[simp] theorem Reel.kset_trapLanes (n : Nat) (x : Word) : (r.kset n x).trapLanes = r.trapLanes := by unfold Reel.kset; split <;> rfl
@[simp] theorem Reel.kset_trapDepth (n : Nat) (x : Word) : (r.kset n x).trapDepth = r.trapDepth := by unfold Reel.kset; split <;> rfl
@[simp] theorem Reel.kset_watches (n : Nat) (x : Word) : (r.kset n x).watches = r.watches := by unfold Reel.kset; split <;> rfl
@[simp] theorem Reel.kset_cycloLatch (n : Nat) (x : Word) : (r.kset n x).cycloLatch = r.cycloLatch := by unfold Reel.kset; split <;> rfl
@[simp] theorem Reel.kset_prio (n : Nat) (x : Word) : (r.kset n x).prio = r.prio := by unfold Reel.kset; split <;> rfl
@[simp] theorem Reel.kset_yielded (n : Nat) (x : Word) : (r.kset n x).yielded = r.yielded := by unfold Reel.kset; split <;> rfl
@[simp] theorem Reel.kset_restUntil (n : Nat) (x : Word) : (r.kset n x).restUntil = r.restUntil := by unfold Reel.kset; split <;> rfl
@[simp] theorem Reel.kset_retired (n : Nat) (x : Word) : (r.kset n x).retired = r.retired := by unfold Reel.kset; split <;> rfl
@[simp] theorem Reel.kset_turn (n : Nat) (x : Word) : (r.kset n x).turn = r.turn := by unfold Reel.kset; split <;> rfl
@[simp] theorem Reel.kset_seq (n : Nat) (x : Word) : (r.kset n x).seq = r.seq := by unfold Reel.kset; split <;> rfl
@[simp] theorem Reel.kset_iter (n : Nat) (x : Word) : (r.kset n x).iter = r.iter := by unfold Reel.kset; split <;> rfl
@[simp] theorem Reel.kset_inherited (n : Nat) (x : Word) : (r.kset n x).inherited = r.inherited := by unfold Reel.kset; split <;> rfl

/-! ### `Reel.setSpair` -/

@[simp] theorem Reel.setSpair_block (n : Nat) (x : DWord) : (r.setSpair n x).block = r.block := by simp [Reel.setSpair]
@[simp] theorem Reel.setSpair_idx (n : Nat) (x : DWord) : (r.setSpair n x).idx = r.idx := by simp [Reel.setSpair]
@[simp] theorem Reel.setSpair_v (n : Nat) (x : DWord) : (r.setSpair n x).v = r.v := by simp [Reel.setSpair]
@[simp] theorem Reel.setSpair_k (n : Nat) (x : DWord) : (r.setSpair n x).k = r.k := by simp [Reel.setSpair]
@[simp] theorem Reel.setSpair_splits (n : Nat) (x : DWord) : (r.setSpair n x).splits = r.splits := by simp [Reel.setSpair]
@[simp] theorem Reel.setSpair_entries (n : Nat) (x : DWord) : (r.setSpair n x).entries = r.entries := by simp [Reel.setSpair]
@[simp] theorem Reel.setSpair_nextEntry (n : Nat) (x : DWord) : (r.setSpair n x).nextEntry = r.nextEntry := by simp [Reel.setSpair]
@[simp] theorem Reel.setSpair_heldBy (n : Nat) (x : DWord) : (r.setSpair n x).heldBy = r.heldBy := by simp [Reel.setSpair]
@[simp] theorem Reel.setSpair_stopped (n : Nat) (x : DWord) : (r.setSpair n x).stopped = r.stopped := by simp [Reel.setSpair]
@[simp] theorem Reel.setSpair_exited (n : Nat) (x : DWord) : (r.setSpair n x).exited = r.exited := by simp [Reel.setSpair]
@[simp] theorem Reel.setSpair_killed (n : Nat) (x : DWord) : (r.setSpair n x).killed = r.killed := by simp [Reel.setSpair]
@[simp] theorem Reel.setSpair_ld (n : Nat) (x : DWord) : (r.setSpair n x).ld = r.ld := by simp [Reel.setSpair]
@[simp] theorem Reel.setSpair_st (n : Nat) (x : DWord) : (r.setSpair n x).st = r.st := by simp [Reel.setSpair]
@[simp] theorem Reel.setSpair_eng (n : Nat) (x : DWord) : (r.setSpair n x).eng = r.eng := by simp [Reel.setSpair]
@[simp] theorem Reel.setSpair_mx (n : Nat) (x : DWord) : (r.setSpair n x).mx = r.mx := by simp [Reel.setSpair]
@[simp] theorem Reel.setSpair_loads (n : Nat) (x : DWord) : (r.setSpair n x).loads = r.loads := by simp [Reel.setSpair]
@[simp] theorem Reel.setSpair_moves (n : Nat) (x : DWord) : (r.setSpair n x).moves = r.moves := by simp [Reel.setSpair]
@[simp] theorem Reel.setSpair_tcr (n : Nat) (x : DWord) : (r.setSpair n x).tcr = r.tcr := by simp [Reel.setSpair]
@[simp] theorem Reel.setSpair_tcrEntry (n : Nat) (x : DWord) : (r.setSpair n x).tcrEntry = r.tcrEntry := by simp [Reel.setSpair]
@[simp] theorem Reel.setSpair_fflags (n : Nat) (x : DWord) : (r.setSpair n x).fflags = r.fflags := by simp [Reel.setSpair]
@[simp] theorem Reel.setSpair_xpc (n : Nat) (x : DWord) : (r.setSpair n x).xpc = r.xpc := by simp [Reel.setSpair]
@[simp] theorem Reel.setSpair_xinst (n : Nat) (x : DWord) : (r.setSpair n x).xinst = r.xinst := by simp [Reel.setSpair]
@[simp] theorem Reel.setSpair_xmask (n : Nat) (x : DWord) : (r.setSpair n x).xmask = r.xmask := by simp [Reel.setSpair]
@[simp] theorem Reel.setSpair_xkind (n : Nat) (x : DWord) : (r.setSpair n x).xkind = r.xkind := by simp [Reel.setSpair]
@[simp] theorem Reel.setSpair_xvec (n : Nat) (x : DWord) : (r.setSpair n x).xvec = r.xvec := by simp [Reel.setSpair]
@[simp] theorem Reel.setSpair_xvechi (n : Nat) (x : DWord) : (r.setSpair n x).xvechi = r.xvechi := by simp [Reel.setSpair]
@[simp] theorem Reel.setSpair_handler (n : Nat) (x : DWord) : (r.setSpair n x).handler = r.handler := by simp [Reel.setSpair]
@[simp] theorem Reel.setSpair_trapPc (n : Nat) (x : DWord) : (r.setSpair n x).trapPc = r.trapPc := by simp [Reel.setSpair]
@[simp] theorem Reel.setSpair_trapIpc (n : Nat) (x : DWord) : (r.setSpair n x).trapIpc = r.trapIpc := by simp [Reel.setSpair]
@[simp] theorem Reel.setSpair_trapLanes (n : Nat) (x : DWord) : (r.setSpair n x).trapLanes = r.trapLanes := by simp [Reel.setSpair]
@[simp] theorem Reel.setSpair_trapDepth (n : Nat) (x : DWord) : (r.setSpair n x).trapDepth = r.trapDepth := by simp [Reel.setSpair]
@[simp] theorem Reel.setSpair_watches (n : Nat) (x : DWord) : (r.setSpair n x).watches = r.watches := by simp [Reel.setSpair]
@[simp] theorem Reel.setSpair_cycloLatch (n : Nat) (x : DWord) : (r.setSpair n x).cycloLatch = r.cycloLatch := by simp [Reel.setSpair]
@[simp] theorem Reel.setSpair_prio (n : Nat) (x : DWord) : (r.setSpair n x).prio = r.prio := by simp [Reel.setSpair]
@[simp] theorem Reel.setSpair_yielded (n : Nat) (x : DWord) : (r.setSpair n x).yielded = r.yielded := by simp [Reel.setSpair]
@[simp] theorem Reel.setSpair_restUntil (n : Nat) (x : DWord) : (r.setSpair n x).restUntil = r.restUntil := by simp [Reel.setSpair]
@[simp] theorem Reel.setSpair_retired (n : Nat) (x : DWord) : (r.setSpair n x).retired = r.retired := by simp [Reel.setSpair]
@[simp] theorem Reel.setSpair_turn (n : Nat) (x : DWord) : (r.setSpair n x).turn = r.turn := by simp [Reel.setSpair]
@[simp] theorem Reel.setSpair_seq (n : Nat) (x : DWord) : (r.setSpair n x).seq = r.seq := by simp [Reel.setSpair]
@[simp] theorem Reel.setSpair_iter (n : Nat) (x : DWord) : (r.setSpair n x).iter = r.iter := by simp [Reel.setSpair]
@[simp] theorem Reel.setSpair_inherited (n : Nat) (x : DWord) : (r.setSpair n x).inherited = r.inherited := by simp [Reel.setSpair]

/-! ### `Reel.vwrite` -/

@[simp] theorem Reel.vwrite_block (w : Bool) (n l : Nat) (x : DWord) : (r.vwrite w n l x).block = r.block := by unfold Reel.vwrite; split <;> rfl
@[simp] theorem Reel.vwrite_idx (w : Bool) (n l : Nat) (x : DWord) : (r.vwrite w n l x).idx = r.idx := by unfold Reel.vwrite; split <;> rfl
@[simp] theorem Reel.vwrite_s (w : Bool) (n l : Nat) (x : DWord) : (r.vwrite w n l x).s = r.s := by unfold Reel.vwrite; split <;> rfl
@[simp] theorem Reel.vwrite_k (w : Bool) (n l : Nat) (x : DWord) : (r.vwrite w n l x).k = r.k := by unfold Reel.vwrite; split <;> rfl
@[simp] theorem Reel.vwrite_splits (w : Bool) (n l : Nat) (x : DWord) : (r.vwrite w n l x).splits = r.splits := by unfold Reel.vwrite; split <;> rfl
@[simp] theorem Reel.vwrite_entries (w : Bool) (n l : Nat) (x : DWord) : (r.vwrite w n l x).entries = r.entries := by unfold Reel.vwrite; split <;> rfl
@[simp] theorem Reel.vwrite_nextEntry (w : Bool) (n l : Nat) (x : DWord) : (r.vwrite w n l x).nextEntry = r.nextEntry := by unfold Reel.vwrite; split <;> rfl
@[simp] theorem Reel.vwrite_heldBy (w : Bool) (n l : Nat) (x : DWord) : (r.vwrite w n l x).heldBy = r.heldBy := by unfold Reel.vwrite; split <;> rfl
@[simp] theorem Reel.vwrite_stopped (w : Bool) (n l : Nat) (x : DWord) : (r.vwrite w n l x).stopped = r.stopped := by unfold Reel.vwrite; split <;> rfl
@[simp] theorem Reel.vwrite_exited (w : Bool) (n l : Nat) (x : DWord) : (r.vwrite w n l x).exited = r.exited := by unfold Reel.vwrite; split <;> rfl
@[simp] theorem Reel.vwrite_killed (w : Bool) (n l : Nat) (x : DWord) : (r.vwrite w n l x).killed = r.killed := by unfold Reel.vwrite; split <;> rfl
@[simp] theorem Reel.vwrite_ld (w : Bool) (n l : Nat) (x : DWord) : (r.vwrite w n l x).ld = r.ld := by unfold Reel.vwrite; split <;> rfl
@[simp] theorem Reel.vwrite_st (w : Bool) (n l : Nat) (x : DWord) : (r.vwrite w n l x).st = r.st := by unfold Reel.vwrite; split <;> rfl
@[simp] theorem Reel.vwrite_eng (w : Bool) (n l : Nat) (x : DWord) : (r.vwrite w n l x).eng = r.eng := by unfold Reel.vwrite; split <;> rfl
@[simp] theorem Reel.vwrite_mx (w : Bool) (n l : Nat) (x : DWord) : (r.vwrite w n l x).mx = r.mx := by unfold Reel.vwrite; split <;> rfl
@[simp] theorem Reel.vwrite_loads (w : Bool) (n l : Nat) (x : DWord) : (r.vwrite w n l x).loads = r.loads := by unfold Reel.vwrite; split <;> rfl
@[simp] theorem Reel.vwrite_moves (w : Bool) (n l : Nat) (x : DWord) : (r.vwrite w n l x).moves = r.moves := by unfold Reel.vwrite; split <;> rfl
@[simp] theorem Reel.vwrite_tcr (w : Bool) (n l : Nat) (x : DWord) : (r.vwrite w n l x).tcr = r.tcr := by unfold Reel.vwrite; split <;> rfl
@[simp] theorem Reel.vwrite_tcrEntry (w : Bool) (n l : Nat) (x : DWord) : (r.vwrite w n l x).tcrEntry = r.tcrEntry := by unfold Reel.vwrite; split <;> rfl
@[simp] theorem Reel.vwrite_fflags (w : Bool) (n l : Nat) (x : DWord) : (r.vwrite w n l x).fflags = r.fflags := by unfold Reel.vwrite; split <;> rfl
@[simp] theorem Reel.vwrite_xpc (w : Bool) (n l : Nat) (x : DWord) : (r.vwrite w n l x).xpc = r.xpc := by unfold Reel.vwrite; split <;> rfl
@[simp] theorem Reel.vwrite_xinst (w : Bool) (n l : Nat) (x : DWord) : (r.vwrite w n l x).xinst = r.xinst := by unfold Reel.vwrite; split <;> rfl
@[simp] theorem Reel.vwrite_xmask (w : Bool) (n l : Nat) (x : DWord) : (r.vwrite w n l x).xmask = r.xmask := by unfold Reel.vwrite; split <;> rfl
@[simp] theorem Reel.vwrite_xkind (w : Bool) (n l : Nat) (x : DWord) : (r.vwrite w n l x).xkind = r.xkind := by unfold Reel.vwrite; split <;> rfl
@[simp] theorem Reel.vwrite_xvec (w : Bool) (n l : Nat) (x : DWord) : (r.vwrite w n l x).xvec = r.xvec := by unfold Reel.vwrite; split <;> rfl
@[simp] theorem Reel.vwrite_xvechi (w : Bool) (n l : Nat) (x : DWord) : (r.vwrite w n l x).xvechi = r.xvechi := by unfold Reel.vwrite; split <;> rfl
@[simp] theorem Reel.vwrite_handler (w : Bool) (n l : Nat) (x : DWord) : (r.vwrite w n l x).handler = r.handler := by unfold Reel.vwrite; split <;> rfl
@[simp] theorem Reel.vwrite_trapPc (w : Bool) (n l : Nat) (x : DWord) : (r.vwrite w n l x).trapPc = r.trapPc := by unfold Reel.vwrite; split <;> rfl
@[simp] theorem Reel.vwrite_trapIpc (w : Bool) (n l : Nat) (x : DWord) : (r.vwrite w n l x).trapIpc = r.trapIpc := by unfold Reel.vwrite; split <;> rfl
@[simp] theorem Reel.vwrite_trapLanes (w : Bool) (n l : Nat) (x : DWord) : (r.vwrite w n l x).trapLanes = r.trapLanes := by unfold Reel.vwrite; split <;> rfl
@[simp] theorem Reel.vwrite_trapDepth (w : Bool) (n l : Nat) (x : DWord) : (r.vwrite w n l x).trapDepth = r.trapDepth := by unfold Reel.vwrite; split <;> rfl
@[simp] theorem Reel.vwrite_watches (w : Bool) (n l : Nat) (x : DWord) : (r.vwrite w n l x).watches = r.watches := by unfold Reel.vwrite; split <;> rfl
@[simp] theorem Reel.vwrite_cycloLatch (w : Bool) (n l : Nat) (x : DWord) : (r.vwrite w n l x).cycloLatch = r.cycloLatch := by unfold Reel.vwrite; split <;> rfl
@[simp] theorem Reel.vwrite_prio (w : Bool) (n l : Nat) (x : DWord) : (r.vwrite w n l x).prio = r.prio := by unfold Reel.vwrite; split <;> rfl
@[simp] theorem Reel.vwrite_yielded (w : Bool) (n l : Nat) (x : DWord) : (r.vwrite w n l x).yielded = r.yielded := by unfold Reel.vwrite; split <;> rfl
@[simp] theorem Reel.vwrite_restUntil (w : Bool) (n l : Nat) (x : DWord) : (r.vwrite w n l x).restUntil = r.restUntil := by unfold Reel.vwrite; split <;> rfl
@[simp] theorem Reel.vwrite_retired (w : Bool) (n l : Nat) (x : DWord) : (r.vwrite w n l x).retired = r.retired := by unfold Reel.vwrite; split <;> rfl
@[simp] theorem Reel.vwrite_turn (w : Bool) (n l : Nat) (x : DWord) : (r.vwrite w n l x).turn = r.turn := by unfold Reel.vwrite; split <;> rfl
@[simp] theorem Reel.vwrite_seq (w : Bool) (n l : Nat) (x : DWord) : (r.vwrite w n l x).seq = r.seq := by unfold Reel.vwrite; split <;> rfl
@[simp] theorem Reel.vwrite_iter (w : Bool) (n l : Nat) (x : DWord) : (r.vwrite w n l x).iter = r.iter := by unfold Reel.vwrite; split <;> rfl
@[simp] theorem Reel.vwrite_inherited (w : Bool) (n l : Nat) (x : DWord) : (r.vwrite w n l x).inherited = r.inherited := by unfold Reel.vwrite; split <;> rfl

/-! ### `Reel.applyHS` -/

@[simp] theorem Reel.applyHS_block (t : Nat) (h : Option (BitVec 23)) : (r.applyHS t h).block = r.block := by cases h <;> simp only [Reel.applyHS]; split <;> rfl
@[simp] theorem Reel.applyHS_idx (t : Nat) (h : Option (BitVec 23)) : (r.applyHS t h).idx = r.idx := by cases h <;> simp only [Reel.applyHS]; split <;> rfl
@[simp] theorem Reel.applyHS_v (t : Nat) (h : Option (BitVec 23)) : (r.applyHS t h).v = r.v := by cases h <;> simp only [Reel.applyHS]; split <;> rfl
@[simp] theorem Reel.applyHS_s (t : Nat) (h : Option (BitVec 23)) : (r.applyHS t h).s = r.s := by cases h <;> simp only [Reel.applyHS]; split <;> rfl
@[simp] theorem Reel.applyHS_k (t : Nat) (h : Option (BitVec 23)) : (r.applyHS t h).k = r.k := by cases h <;> simp only [Reel.applyHS]; split <;> rfl
@[simp] theorem Reel.applyHS_splits (t : Nat) (h : Option (BitVec 23)) : (r.applyHS t h).splits = r.splits := by cases h <;> simp only [Reel.applyHS]; split <;> rfl
@[simp] theorem Reel.applyHS_entries (t : Nat) (h : Option (BitVec 23)) : (r.applyHS t h).entries = r.entries := by cases h <;> simp only [Reel.applyHS]; split <;> rfl
@[simp] theorem Reel.applyHS_nextEntry (t : Nat) (h : Option (BitVec 23)) : (r.applyHS t h).nextEntry = r.nextEntry := by cases h <;> simp only [Reel.applyHS]; split <;> rfl
@[simp] theorem Reel.applyHS_heldBy (t : Nat) (h : Option (BitVec 23)) : (r.applyHS t h).heldBy = r.heldBy := by cases h <;> simp only [Reel.applyHS]; split <;> rfl
@[simp] theorem Reel.applyHS_stopped (t : Nat) (h : Option (BitVec 23)) : (r.applyHS t h).stopped = r.stopped := by cases h <;> simp only [Reel.applyHS]; split <;> rfl
@[simp] theorem Reel.applyHS_exited (t : Nat) (h : Option (BitVec 23)) : (r.applyHS t h).exited = r.exited := by cases h <;> simp only [Reel.applyHS]; split <;> rfl
@[simp] theorem Reel.applyHS_killed (t : Nat) (h : Option (BitVec 23)) : (r.applyHS t h).killed = r.killed := by cases h <;> simp only [Reel.applyHS]; split <;> rfl
@[simp] theorem Reel.applyHS_ld (t : Nat) (h : Option (BitVec 23)) : (r.applyHS t h).ld = r.ld := by cases h <;> simp only [Reel.applyHS]; split <;> rfl
@[simp] theorem Reel.applyHS_st (t : Nat) (h : Option (BitVec 23)) : (r.applyHS t h).st = r.st := by cases h <;> simp only [Reel.applyHS]; split <;> rfl
@[simp] theorem Reel.applyHS_eng (t : Nat) (h : Option (BitVec 23)) : (r.applyHS t h).eng = r.eng := by cases h <;> simp only [Reel.applyHS]; split <;> rfl
@[simp] theorem Reel.applyHS_mx (t : Nat) (h : Option (BitVec 23)) : (r.applyHS t h).mx = r.mx := by cases h <;> simp only [Reel.applyHS]; split <;> rfl
@[simp] theorem Reel.applyHS_loads (t : Nat) (h : Option (BitVec 23)) : (r.applyHS t h).loads = r.loads := by cases h <;> simp only [Reel.applyHS]; split <;> rfl
@[simp] theorem Reel.applyHS_moves (t : Nat) (h : Option (BitVec 23)) : (r.applyHS t h).moves = r.moves := by cases h <;> simp only [Reel.applyHS]; split <;> rfl
@[simp] theorem Reel.applyHS_tcr (t : Nat) (h : Option (BitVec 23)) : (r.applyHS t h).tcr = r.tcr := by cases h <;> simp only [Reel.applyHS]; split <;> rfl
@[simp] theorem Reel.applyHS_tcrEntry (t : Nat) (h : Option (BitVec 23)) : (r.applyHS t h).tcrEntry = r.tcrEntry := by cases h <;> simp only [Reel.applyHS]; split <;> rfl
@[simp] theorem Reel.applyHS_fflags (t : Nat) (h : Option (BitVec 23)) : (r.applyHS t h).fflags = r.fflags := by cases h <;> simp only [Reel.applyHS]; split <;> rfl
@[simp] theorem Reel.applyHS_xpc (t : Nat) (h : Option (BitVec 23)) : (r.applyHS t h).xpc = r.xpc := by cases h <;> simp only [Reel.applyHS]; split <;> rfl
@[simp] theorem Reel.applyHS_xinst (t : Nat) (h : Option (BitVec 23)) : (r.applyHS t h).xinst = r.xinst := by cases h <;> simp only [Reel.applyHS]; split <;> rfl
@[simp] theorem Reel.applyHS_xmask (t : Nat) (h : Option (BitVec 23)) : (r.applyHS t h).xmask = r.xmask := by cases h <;> simp only [Reel.applyHS]; split <;> rfl
@[simp] theorem Reel.applyHS_xkind (t : Nat) (h : Option (BitVec 23)) : (r.applyHS t h).xkind = r.xkind := by cases h <;> simp only [Reel.applyHS]; split <;> rfl
@[simp] theorem Reel.applyHS_xvec (t : Nat) (h : Option (BitVec 23)) : (r.applyHS t h).xvec = r.xvec := by cases h <;> simp only [Reel.applyHS]; split <;> rfl
@[simp] theorem Reel.applyHS_xvechi (t : Nat) (h : Option (BitVec 23)) : (r.applyHS t h).xvechi = r.xvechi := by cases h <;> simp only [Reel.applyHS]; split <;> rfl
@[simp] theorem Reel.applyHS_handler (t : Nat) (h : Option (BitVec 23)) : (r.applyHS t h).handler = r.handler := by cases h <;> simp only [Reel.applyHS]; split <;> rfl
@[simp] theorem Reel.applyHS_trapPc (t : Nat) (h : Option (BitVec 23)) : (r.applyHS t h).trapPc = r.trapPc := by cases h <;> simp only [Reel.applyHS]; split <;> rfl
@[simp] theorem Reel.applyHS_trapIpc (t : Nat) (h : Option (BitVec 23)) : (r.applyHS t h).trapIpc = r.trapIpc := by cases h <;> simp only [Reel.applyHS]; split <;> rfl
@[simp] theorem Reel.applyHS_trapLanes (t : Nat) (h : Option (BitVec 23)) : (r.applyHS t h).trapLanes = r.trapLanes := by cases h <;> simp only [Reel.applyHS]; split <;> rfl
@[simp] theorem Reel.applyHS_trapDepth (t : Nat) (h : Option (BitVec 23)) : (r.applyHS t h).trapDepth = r.trapDepth := by cases h <;> simp only [Reel.applyHS]; split <;> rfl
@[simp] theorem Reel.applyHS_watches (t : Nat) (h : Option (BitVec 23)) : (r.applyHS t h).watches = r.watches := by cases h <;> simp only [Reel.applyHS]; split <;> rfl
@[simp] theorem Reel.applyHS_cycloLatch (t : Nat) (h : Option (BitVec 23)) : (r.applyHS t h).cycloLatch = r.cycloLatch := by cases h <;> simp only [Reel.applyHS]; split <;> rfl
@[simp] theorem Reel.applyHS_yielded (t : Nat) (h : Option (BitVec 23)) : (r.applyHS t h).yielded = r.yielded := by cases h <;> simp only [Reel.applyHS]; split <;> rfl
@[simp] theorem Reel.applyHS_retired (t : Nat) (h : Option (BitVec 23)) : (r.applyHS t h).retired = r.retired := by cases h <;> simp only [Reel.applyHS]; split <;> rfl
@[simp] theorem Reel.applyHS_turn (t : Nat) (h : Option (BitVec 23)) : (r.applyHS t h).turn = r.turn := by cases h <;> simp only [Reel.applyHS]; split <;> rfl
@[simp] theorem Reel.applyHS_seq (t : Nat) (h : Option (BitVec 23)) : (r.applyHS t h).seq = r.seq := by cases h <;> simp only [Reel.applyHS]; split <;> rfl
@[simp] theorem Reel.applyHS_iter (t : Nat) (h : Option (BitVec 23)) : (r.applyHS t h).iter = r.iter := by cases h <;> simp only [Reel.applyHS]; split <;> rfl
@[simp] theorem Reel.applyHS_inherited (t : Nat) (h : Option (BitVec 23)) : (r.applyHS t h).inherited = r.inherited := by cases h <;> simp only [Reel.applyHS]; split <;> rfl

/-! ### Homes -/

@[simp] theorem State.core_setCore (c j : Nat) (v : Core) : (s.setCore c v).core j = if j = c then v else s.core j :=
  Map.findD_putD _ _ _ _ _

@[simp] theorem State.core_onCore (c j : Nat) (f : Core → Core) :
    (s.onCore c f).core j = if j = c then f (s.core c) else s.core j :=
  State.core_setCore s c j _

@[simp] theorem State.domain_setDomain (d j : Nat) (v : Domain) : (s.setDomain d v).domain j = if j = d then v else s.domain j :=
  Map.findD_putD _ _ _ _ _

@[simp] theorem State.domain_onDomain (d j : Nat) (f : Domain → Domain) :
    (s.onDomain d f).domain j = if j = d then f (s.domain d) else s.domain j :=
  State.domain_setDomain s d j _

@[simp] theorem State.core_send (m : Msg) (c : Nat) : (s.send m).core c = s.core c := rfl
@[simp] theorem State.domain_send (m : Msg) (d : Nat) : (s.send m).domain d = s.domain d := rfl
@[simp] theorem State.core_setDomain (d c : Nat) (v : Domain) : (s.setDomain d v).core c = s.core c := rfl
@[simp] theorem State.domain_setCore (c d : Nat) (v : Core) : (s.setCore c v).domain d = s.domain d := rfl
@[simp] theorem State.core_onDomain (d c : Nat) (f : Domain → Domain) : (s.onDomain d f).core c = s.core c := rfl
@[simp] theorem State.domain_onCore (c d : Nat) (f : Core → Core) : (s.onCore c f).domain d = s.domain d := rfl
@[simp] theorem State.core_onReel (k c : Nat) (f : Reel → Reel) : (s.onReel k f).core c = s.core c := rfl
@[simp] theorem State.domain_onReel (k d : Nat) (f : Reel → Reel) : (s.onReel k f).domain d = s.domain d := rfl
@[simp] theorem State.core_onBlock (k c : Nat) (f : Block → Block) : (s.onBlock k f).core c = s.core c := rfl
@[simp] theorem State.domain_onBlock (k d : Nat) (f : Block → Block) : (s.onBlock k f).domain d = s.domain d := rfl

/-! ### Register files -/

/-- Reading a lane after writing one (04 R77). The lane numbers are below 32. -/
theorem Reel.vget_vset (n l m j : Nat) (x : Word) (hl : l < 32) (hj : j < 32) :
    (r.vset n l x).vget m j = if m = n ∧ j = l then x else r.vget m j := by
  unfold Reel.vset Reel.vget
  rw [Map.findD_putD]
  by_cases h : m = n ∧ j = l
  · rw [if_pos h, if_pos (by omega)]
  · rw [if_neg h, if_neg (by omega)]

/-- Reading a uniform register after a write: s0 keeps its 0 (02 R41). -/
theorem Reel.sget_sset (n m : Nat) (x : Word) : (r.sset n x).sget m = if m = n ∧ n ≠ 0 then x else r.sget m := by
  unfold Reel.sset
  by_cases h0 : n = 0
  · simp [h0]
  · by_cases hm : m = n
    · subst hm; simp [Reel.sget, h0]
    · simp [Reel.sget, h0, hm, Map.findD_putD]

@[simp] theorem Reel.sget_zero : r.sget 0 = 0 := rfl

/-- Reading a lane mask after a write: k0 is the split's lanes (02 R41). -/
theorem Reel.kget_kset (n m : Nat) (x lanes : Word) :
    (r.kset n x).kget lanes m = if m = n ∧ n ≠ 0 then x else r.kget lanes m := by
  unfold Reel.kset
  by_cases h0 : n = 0
  · simp [h0]
  · by_cases hm : m = n
    · subst hm; simp [Reel.kget, h0]
    · simp [Reel.kget, h0, hm, Map.findD_putD]

/-- Reading a uniform register after writing a pair at an even place other than s0. -/
theorem Reel.sget_setSpair (n m : Nat) (x : DWord) :
    (r.setSpair n x).sget m = if m = n + 1 then hiWord x else if m = n ∧ n ≠ 0 then loWord x else r.sget m := by
  simp only [Reel.setSpair, Reel.sget_sset]
  by_cases h : m = n + 1 <;> simp [h]

/-- A lane's flags after some are raised (03 R65). -/
theorem Reel.flagsOf_raiseFlags (l j : Nat) (f : Flags) :
    (r.raiseFlags l f).flagsOf j = if j = l then r.flagsOf l ||| f else r.flagsOf j := by
  simp only [Reel.flagsOf, Reel.raiseFlags, Map.findD_putD]

@[simp] theorem Reel.flagsOf_vset (n l j : Nat) (x : Word) : (r.vset n l x).flagsOf j = r.flagsOf j := rfl
@[simp] theorem Reel.vget_raiseFlags (l n j : Nat) (f : Flags) : (r.raiseFlags l f).vget n j = r.vget n j := rfl

end Sys2Proof.Machine
end

