-- ==== Sys2Proof/Laws/Vector.lean ====
section
/-! SUPPORT. What a vector instruction's writes leave in every lane of every register, and in every lane's flags (02 R38 to R40, 04 R92). -/

namespace Sys2Proof.Machine

variable (o : VOperands) (f : LaneFn) (e : Extent)

/-- Reading a lane after writing one register or pair. -/
theorem Reel.vget_vwrite (r : Reel) (w : Bool) (n l m j : Nat) (x : DWord) (hl : l < 32) (hj : j < 32) :
    (r.vwrite w n l x).vget m j =
      if j = l ∧ w = true ∧ m = n + 1 then hiWord x else if j = l ∧ m = n then loWord x else r.vget m j := by
  unfold Reel.vwrite
  cases w
  · simp only [Bool.false_eq_true, if_false, Reel.vget_vset r n l m j _ hl hj]
    simp [and_comm]
  · simp only [if_true, Reel.vget_vset _ (n + 1) l m j _ hl hj, Reel.vget_vset r n l m j _ hl hj]
    by_cases h1 : m = n + 1 <;> by_cases h2 : j = l <;> simp [h1, h2]

/-- The registers element `p` writes. -/
def VOperands.regsOf (p : Nat × Nat) : List Nat := if o.wd then [o.dreg e p.1 p.2, o.dreg e p.1 p.2 + 1] else [o.dreg e p.1 p.2]

/-- Does a register of a lane hold element `p`'s result: its low word, or the high word in the second register of a pair? -/
def VOperands.holds (r0 : Reel) (p : Nat × Nat) (m l : Nat) (v : Word) : Prop :=
  (m = o.dreg e p.1 p.2 ∧ v = loWord (o.result f r0 e p.1 p.2 l).1) ∨
    (o.wd = true ∧ m = o.dreg e p.1 p.2 + 1 ∧ v = hiWord (o.result f r0 e p.1 p.2 l).1)

theorem VOperands.mem_dests (m : Nat) : m ∈ o.dests e ↔ ∃ p ∈ e.elems, m ∈ o.regsOf e p := by
  simp [VOperands.dests, VOperands.regsOf, List.mem_flatMap]

/-- A lane's writes leave every other lane alone. -/
theorem VOperands.writeLane_other (r0 q : Reel) (order : List (Nat × Nat)) {l j : Nat} (m : Nat) (hl : l < 32) (hj : j < 32) (h : j ≠ l) :
    (o.writeLane f r0 e order q l).vget m j = q.vget m j := by
  unfold VOperands.writeLane
  induction order generalizing q with
  | nil => rfl
  | cons p ps ih => rw [List.foldl_cons, ih, Reel.vget_vwrite _ _ _ _ _ _ _ hl hj]; simp [h]

/-- A lane's writes leave a register of no element alone. -/
theorem VOperands.writeLane_outside (r0 q : Reel) (order : List (Nat × Nat)) {l m : Nat} (hl : l < 32)
    (h : ∀ p ∈ order, m ∉ o.regsOf e p) : (o.writeLane f r0 e order q l).vget m l = q.vget m l := by
  unfold VOperands.writeLane
  induction order generalizing q with
  | nil => rfl
  | cons p ps ih =>
    rw [List.foldl_cons, ih _ fun p' hp => h p' (List.mem_cons_of_mem _ hp), Reel.vget_vwrite _ _ _ _ _ _ _ hl hl]
    have := h p List.mem_cons_self
    unfold VOperands.regsOf at this
    cases hw : o.wd <;> simp_all

/-- A lane's writes leave in a register of some element the result of an element that writes it. -/
theorem VOperands.writeLane_inside (r0 q : Reel) (order : List (Nat × Nat)) {l m : Nat} (hl : l < 32)
    (h : ∃ p ∈ order, m ∈ o.regsOf e p) : ∃ p ∈ order, o.holds f e r0 p m l ((o.writeLane f r0 e order q l).vget m l) := by
  induction order generalizing q with
  | nil => simp at h
  | cons p ps ih =>
    have step : o.writeLane f r0 e (p :: ps) q l =
        o.writeLane f r0 e ps (q.vwrite o.wd (o.dreg e p.1 p.2) l (o.result f r0 e p.1 p.2 l).1) l := rfl
    by_cases h' : ∃ p' ∈ ps, m ∈ o.regsOf e p'
    · obtain ⟨p', hp', hh⟩ := ih (q.vwrite o.wd (o.dreg e p.1 p.2) l (o.result f r0 e p.1 p.2 l).1) h'
      exact ⟨p', List.mem_cons_of_mem _ hp', step ▸ hh⟩
    · have hp : m ∈ o.regsOf e p := by
        obtain ⟨p', hp', hm⟩ := h
        rcases List.mem_cons.1 hp' with rfl | hp'
        · exact hm
        · exact absurd ⟨p', hp', hm⟩ h'
      refine ⟨p, List.mem_cons_self, ?_⟩
      rw [step, VOperands.writeLane_outside o f e r0 _ ps hl fun p' hp' hm => h' ⟨p', hp', hm⟩,
        Reel.vget_vwrite _ _ _ _ _ _ _ hl hl]
      unfold VOperands.regsOf at hp
      unfold VOperands.holds
      cases hw : o.wd
      · simp_all
      · rw [hw] at hp
        simp only [if_true, List.mem_cons, List.not_mem_nil, or_false] at hp
        rcases hp with hp | hp
        · have : m ≠ o.dreg e p.1 p.2 + 1 := by omega
          simp [hp]
        · simp [hp]

theorem mem_insertByRank (rank : Nat → Nat) (x y : Nat) (xs : List Nat) : y ∈ insertByRank rank x xs ↔ y = x ∨ y ∈ xs := by
  induction xs with
  | nil => simp [insertByRank]
  | cons z zs ih =>
    unfold insertByRank
    split
    · simp
    · simp only [List.mem_cons, ih]; tauto

/-- Element writes take effect in some order of all the elements. -/
theorem VOperands.mem_writeOrder (n : Nat) (p : Nat × Nat) : p ∈ o.writeOrder e n ↔ p ∈ e.elems := by
  unfold VOperands.writeOrder
  split
  · rfl
  · have key : ∀ (ks acc : List Nat) (k : Nat),
        k ∈ ks.foldl (fun a k => insertByRank (Config.elementRank n) k a) acc ↔ k ∈ ks ∨ k ∈ acc := by
      intro ks
      induction ks with
      | nil => simp
      | cons k ks ih => intro acc k'; rw [List.foldl_cons, ih, mem_insertByRank, List.mem_cons]; tauto
    simp only [List.mem_filterMap, key, List.mem_range, List.not_mem_nil, or_false]
    constructor
    · rintro ⟨k, _, hk⟩; exact List.mem_of_getElem? hk
    · intro hp
      obtain ⟨k, hk, rfl⟩ := List.getElem_of_mem hp
      exact ⟨k, hk, by simp [hk]⟩

/-! ## All lanes -/

/-- The write of lanes `ls` as a fold, with what does not change named. -/
theorem VOperands.write_eq (r : Reel) (en : Flags) (n : Nat) (ls : List Nat) :
    o.write f r e en n ls = ls.foldl (fun q l =>
      let q := q.raiseFlags l (o.laneFlags f r e l)
      if (o.excLanes f r e en ls).contains l then q else o.writeLane f r e (o.writeOrder e n) q l) r := rfl

@[simp] theorem VOperands.writeLane_flagsOf (r0 q : Reel) (order : List (Nat × Nat)) (l j : Nat) :
    (o.writeLane f r0 e order q l).flagsOf j = q.flagsOf j := by
  unfold VOperands.writeLane
  induction order generalizing q with
  | nil => rfl
  | cons p ps ih => rw [List.foldl_cons, ih]; simp [Reel.flagsOf]

/-- The lanes a vector instruction writes: those of `ls` with no enabled exception. -/
theorem VOperands.mem_excLanes (r : Reel) (en : Flags) (ls : List Nat) (l : Nat) :
    l ∈ o.excLanes f r e en ls ↔ l ∈ ls ∧ o.laneFlags f r e l &&& en ≠ 0 := by
  simp [VOperands.excLanes]

/-- A register of a lane that is not written keeps its value: the lane is none of `ls`, or raised an enabled exception, or the register is no
destination (04 R92). -/
theorem VOperands.write_outside (r : Reel) (en : Flags) (n : Nat) (ls : List Nat) (hls : ∀ l ∈ ls, l < 32) {m j : Nat} (hj : j < 32)
    (h : j ∉ ls ∨ o.laneFlags f r e j &&& en ≠ 0 ∨ m ∉ o.dests e) : (o.write f r e en n ls).vget m j = r.vget m j := by
  rw [VOperands.write_eq]
  generalize hx : o.excLanes f r e en ls = exc
  have hexc : ∀ l, l ∈ exc ↔ l ∈ ls ∧ o.laneFlags f r e l &&& en ≠ 0 := by subst hx; exact o.mem_excLanes f e r en ls
  have key : ∀ (ks : List Nat), (∀ l ∈ ks, l ∈ ls) → ∀ q : Reel,
      (ks.foldl (fun q l =>
        let q := q.raiseFlags l (o.laneFlags f r e l)
        if exc.contains l then q else o.writeLane f r e (o.writeOrder e n) q l) q).vget m j = q.vget m j := by
    intro ks
    induction ks with
    | nil => intro _ q; rfl
    | cons k ks ih =>
      intro hk q
      rw [List.foldl_cons, ih fun l hl => hk l (List.mem_cons_of_mem _ hl)]
      have hkl := hk k List.mem_cons_self
      by_cases hc : k ∈ exc
      · simp [hc]
      · simp only [List.contains_iff_mem, hc, if_false]
        by_cases hjk : j = k
        · subst hjk
          rw [VOperands.writeLane_outside o f e r _ _ hj, Reel.vget_raiseFlags]
          intro p hp hm
          rcases h with h | h | h
          · exact h hkl
          · exact hc ((hexc j).2 ⟨hkl, h⟩)
          · exact h ((o.mem_dests e m).2 ⟨p, (o.mem_writeOrder e n p).1 hp, hm⟩)
        · rw [VOperands.writeLane_other o f e r _ _ m (hls k hkl) hj hjk, Reel.vget_raiseFlags]
  exact key ls (fun _ h => h) r

/-- A destination register of a written lane holds the result of an element that writes it (02 R38); the elements' destinations are
distinct unless strides make them meet. -/
theorem VOperands.write_inside (r : Reel) (en : Flags) (n : Nat) (ls : List Nat) (hnd : ls.Nodup) (hls : ∀ l ∈ ls, l < 32) {m j : Nat}
    (hj : j ∈ ls) (hex : o.laneFlags f r e j &&& en = 0) (hm : m ∈ o.dests e) :
    ∃ p ∈ e.elems, o.holds f e r p m j ((o.write f r e en n ls).vget m j) := by
  rw [VOperands.write_eq]
  generalize hx : o.excLanes f r e en ls = exc
  have hj32 := hls j hj
  have hjx : j ∉ exc := by subst hx; rw [o.mem_excLanes]; simp [hex]
  have keep : ∀ (ks : List Nat), (∀ l ∈ ks, l < 32) → j ∉ ks → ∀ q : Reel,
      (ks.foldl (fun q l =>
        let q := q.raiseFlags l (o.laneFlags f r e l)
        if exc.contains l then q else o.writeLane f r e (o.writeOrder e n) q l) q).vget m j = q.vget m j := by
    intro ks
    induction ks with
    | nil => intro _ _ q; rfl
    | cons k ks ih =>
      intro hk hjk q
      have hne : j ≠ k := fun h => hjk (h ▸ List.mem_cons_self)
      rw [List.foldl_cons, ih (fun l hl => hk l (List.mem_cons_of_mem _ hl)) fun h => hjk (List.mem_cons_of_mem _ h)]
      by_cases hc : k ∈ exc
      · simp [hc]
      · simp only [List.contains_iff_mem, hc, if_false]
        rw [VOperands.writeLane_other o f e r _ _ m (hk k List.mem_cons_self) hj32 hne, Reel.vget_raiseFlags]
  have key : ∀ (ks : List Nat), ks.Nodup → (∀ l ∈ ks, l < 32) → j ∈ ks → ∀ q : Reel,
      ∃ p ∈ e.elems, o.holds f e r p m j ((ks.foldl (fun q l =>
        let q := q.raiseFlags l (o.laneFlags f r e l)
        if exc.contains l then q else o.writeLane f r e (o.writeOrder e n) q l) q).vget m j) := by
    intro ks
    induction ks with
    | nil => intro _ _ h; simp at h
    | cons k ks ih =>
      intro hn hk hjk q
      have ⟨hkn, hn'⟩ := List.nodup_cons.1 hn
      rw [List.foldl_cons]
      rcases List.mem_cons.1 hjk with rfl | hjk
      · rw [keep ks (fun l hl => hk l (List.mem_cons_of_mem _ hl)) hkn]
        simp only [List.contains_iff_mem, hjx, if_false]
        obtain ⟨p, hp, hh⟩ := o.writeLane_inside f e r (q.raiseFlags j (o.laneFlags f r e j)) (o.writeOrder e n) hj32
          (by obtain ⟨p, hp, hm⟩ := (o.mem_dests e m).1 hm; exact ⟨p, (o.mem_writeOrder e n p).2 hp, hm⟩)
        exact ⟨p, (o.mem_writeOrder e n p).1 hp, hh⟩
      · exact ih hn' (fun l hl => hk l (List.mem_cons_of_mem _ hl)) hjk _
  exact key ls hnd hls hj r

/-- Every lane of `ls` has its exceptions set in addition to the flags it had, and no other lane's flags change (03 R65). -/
theorem VOperands.write_flags (r : Reel) (en : Flags) (n : Nat) (ls : List Nat) (hnd : ls.Nodup) (j : Nat) :
    (o.write f r e en n ls).flagsOf j = if j ∈ ls then r.flagsOf j ||| o.laneFlags f r e j else r.flagsOf j := by
  rw [VOperands.write_eq]
  generalize o.excLanes f r e en ls = exc
  have key : ∀ (ks : List Nat), ks.Nodup → ∀ q : Reel,
      (ks.foldl (fun q l =>
        let q := q.raiseFlags l (o.laneFlags f r e l)
        if exc.contains l then q else o.writeLane f r e (o.writeOrder e n) q l) q).flagsOf j =
      if j ∈ ks then q.flagsOf j ||| o.laneFlags f r e j else q.flagsOf j := by
    intro ks
    induction ks with
    | nil => intro _ q; simp
    | cons k ks ih =>
      intro hn q
      have ⟨hkn, hn'⟩ := List.nodup_cons.1 hn
      rw [List.foldl_cons, ih hn']
      have hq : (if exc.contains k then q.raiseFlags k (o.laneFlags f r e k)
          else o.writeLane f r e (o.writeOrder e n) (q.raiseFlags k (o.laneFlags f r e k)) k).flagsOf j =
          if j = k then q.flagsOf k ||| o.laneFlags f r e k else q.flagsOf j := by
        split <;> simp [Reel.flagsOf_raiseFlags]
      dsimp only
      rw [hq]
      by_cases hjk : j = k
      · subst hjk; simp [hkn]
      · simp [hjk]
  exact key ls hnd r

theorem laneList_lt (m : Word) : ∀ l ∈ laneList m, l < 32 := by
  intro l h; simpa [laneList] using (List.mem_filter.1 h).1

theorem laneList_nodup (m : Word) : (laneList m).Nodup := List.nodup_range.filter _

theorem mem_laneList (m : Word) (l : Nat) : l ∈ laneList m ↔ m.getLsbD l = true := by
  simp only [laneList, List.mem_filter, List.mem_range, and_iff_right_iff_imp]
  intro h
  by_contra hl
  simp [BitVec.getLsbD_of_ge _ _ (Nat.le_of_not_lt hl)] at h

end Sys2Proof.Machine
end

