-- ==== Sys2Proof/Laws/Ops.lean ====
section
/-! SUPPORT. What the shared operations of instructions answer: the issuer an instruction acts in, retiring, waiting, trapping, and a vector
instruction's whole effect. -/

namespace Sys2Proof.Machine

variable {x : Issuer} {s : State}

/-! ## The issuer -/

theorem Issuer.Stands.with (h : x.Stands s) (f : Issuer → Out) : withIssuer s f = f x := by
  obtain ⟨rfl, _, h1, h2, h3, h4⟩ := h
  simp only [withIssuer, h1, h2, h3, h4]

/-- An instruction that answers a next state or a fault acted in an issuer that stands. -/
theorem withIssuer_stands {f : Issuer → Out} (ha : s.scur = none) (h : withIssuer s f ≠ .refused .noIssuer) : ∃ x : Issuer, x.Stands s ∧ withIssuer s f = f x := by
  unfold withIssuer at h ⊢
  cases hc : s.cur with
  | none => simp [hc] at h
  | some c =>
    simp only [hc] at h ⊢
    cases hr : s.reels.find? c.reel with
    | none => simp [hr] at h
    | some r =>
      simp only [hr] at h ⊢
      cases hp : r.splits.find? c.split with
      | none => simp [hp] at h
      | some p =>
        cases hb : s.blocks.find? r.block with
        | none => simp [hp, hb] at h
        | some b => exact ⟨⟨s, c, r, p, b⟩, ⟨rfl, ha, hc, hr, hp, hb⟩, rfl⟩

/-! ## Retiring -/

/-- Retiring with a reel and a split: what `finish` writes. -/
theorem Issuer.retireAs_next (x : Issuer) (r : Reel) (p : Split) :
    x.retireAs x.s r p = .next (x.into
      { r with
        splits := r.splits.put x.cur.split { p with wait := none, bundle := none }
        retired := r.retired + 1
        prio := match x.cur.bundle.hints.hs with | some p => (p.extractLsb' 1 2).toNat | none => r.prio
        restUntil := match x.cur.bundle.hints.hs with
          | some p => if p.getLsbD 0 then x.s.clock x.coreId + 2 else r.restUntil
          | none => r.restUntil }) := by
  unfold Issuer.retireAs Issuer.finish Issuer.put Issuer.into
  cases x.cur.bundle.hints.hs with
  | none => rfl
  | some p =>
    simp only [Reel.applyHS]
    split <;> rfl

/-- An instruction that moves its split and changes nothing else. -/
theorem Issuer.jump_advanced (x : Issuer) (pc : VA) : x.jump x.reel pc = .next (x.into (x.advanced pc)) := by
  exact x.retireAs_next x.reel { x.split with pc := pc }

/-- An instruction that changes nothing but what it makes of its reel. -/
theorem Issuer.retire_reel (x : Issuer) (r : Reel) :
    x.retire r = .next (x.into
      { r with
        splits := r.splits.put x.cur.split { x.split with pc := x.nextPc, wait := none, bundle := none }
        retired := r.retired + 1
        prio := match x.cur.bundle.hints.hs with | some p => (p.extractLsb' 1 2).toNat | none => r.prio
        restUntil := match x.cur.bundle.hints.hs with
          | some p => if p.getLsbD 0 then x.s.clock x.coreId + 2 else r.restUntil
          | none => r.restUntil }) := by
  exact x.retireAs_next r { x.split with pc := x.nextPc }

theorem Issuer.retire_advanced (x : Issuer) : x.retire x.reel = .next (x.into (x.advanced x.nextPc)) := x.jump_advanced x.nextPc

/-- Writing a uniform register that no load waits for. -/
theorem Issuer.writeS_next (x : Issuer) (sd : Nat) (v : Word) (h : x.reel.busyS sd = false) :
    x.writeS sd v = .next (x.into { x.advanced x.nextPc with s := (x.reel.sset sd v).s }) := by
  simp only [Issuer.writeS, h, Bool.false_eq_true, if_false, Issuer.retire_reel]
  simp only [Reel.sset]
  split <;> rfl

theorem Issuer.kset_retire (x : Issuer) (kd : Nat) (m : Word) :
    x.retire (x.reel.kset kd m) = .next (x.into { x.advanced x.nextPc with k := (x.reel.kset kd m).k }) := by
  simp only [Issuer.retire_reel]
  simp only [Reel.kset]
  split <;> rfl

/-! ## Traps -/

/-- A precise trap outside handler mode, in a reel that has a handler (04 R94). -/
theorem Issuer.takeTrap_vectors (x : Issuer) (r : Reel) (code : Nat) (word mask info : Word) (hh : r.handler = false)
    (hv : ¬ (r.xvec = 0 ∧ r.xvechi = 0)) :
    x.takeTrap r code word mask info = .next (x.into (x.trapped r word mask (info ||| BitVec.ofNat 32 code))) := by
  simp only [Issuer.takeTrap, hh, hv, Bool.false_eq_true, if_false]
  rfl

/-- A precise trap in handler mode holds the reel with a record of kind 0x14 (04 R96). -/
theorem Issuer.takeTrap_nested (x : Issuer) (r : Reel) (code : Nat) (word mask info : Word) (hh : r.handler = true) :
    x.takeTrap r code word mask info = x.holdWith r
      { x.s.reelRec x.key r x.block with
        kind := 0x14, pc := x.cur.bundle.start, inst := word, lanes := mask, detail := code, aux := info ||| BitVec.ofNat 32 code } := by
  simp only [Issuer.takeTrap, hh, if_true]

/-- A precise trap in a reel with no handler holds the reel with a record of kind 0x13 (04 R95). -/
theorem Issuer.takeTrap_bare (x : Issuer) (r : Reel) (code : Nat) (word mask info : Word) (hh : r.handler = false)
    (hv : r.xvec = 0 ∧ r.xvechi = 0) :
    x.takeTrap r code word mask info = x.holdWith r
      { x.s.reelRec x.key r x.block with
        kind := 0x13, pc := x.cur.bundle.start, inst := word, lanes := mask, detail := code, aux := info ||| BitVec.ofNat 32 code } := by
  simp only [Issuer.takeTrap, hh, hv, Bool.false_eq_true, if_false, and_self, if_true]

/-! ## A vector instruction -/

/-- What a write of lanes leaves of a reel but its vector registers and its flags: everything. -/
theorem VOperands.write_rest (o : VOperands) (f : LaneFn) (r : Reel) (e : Extent) (en : Flags) (n : Nat) (ls : List Nat) :
    o.write f r e en n ls = { r with v := (o.write f r e en n ls).v, fflags := (o.write f r e en n ls).fflags } := by
  have lane : ∀ (order : List (Nat × Nat)) (q : Reel) (l : Nat),
      o.writeLane f r e order q l = { q with v := (o.writeLane f r e order q l).v } := by
    intro order
    induction order with
    | nil => intro q l; rfl
    | cons p ps ih =>
      intro q l
      have hw : ∀ (q : Reel) (w : Bool) (n l : Nat) (y : DWord), q.vwrite w n l y = { q with v := (q.vwrite w n l y).v } := by
        intro q w n l y; unfold Reel.vwrite; cases w <;> rfl
      have := ih (q.vwrite o.wd (o.dreg e p.1 p.2) l (o.result f r e p.1 p.2 l).1) l
      unfold VOperands.writeLane at this ⊢
      rw [List.foldl_cons, this, hw]
  rw [VOperands.write_eq]
  generalize o.excLanes f r e en ls = exc
  have key : ∀ (ks : List Nat) (q : Reel),
      let g := fun (q : Reel) (l : Nat) =>
        let q := q.raiseFlags l (o.laneFlags f r e l)
        if exc.contains l then q else o.writeLane f r e (o.writeOrder e n) q l
      ks.foldl g q = { q with v := (ks.foldl g q).v, fflags := (ks.foldl g q).fflags } := by
    intro ks
    induction ks with
    | nil => intro q; rfl
    | cons k ks ih =>
      intro q
      simp only [List.foldl_cons]
      have h := ih (if exc.contains k then q.raiseFlags k (o.laneFlags f r e k)
        else o.writeLane f r e (o.writeOrder e n) (q.raiseFlags k (o.laneFlags f r e k)) k)
      simp only at h
      rw [h]
      split
      · rfl
      · rw [lane]; rfl
  exact key ls r

/-- A vector instruction whose operands are legal and which raises no enabled exception writes its lanes and retires. -/
theorem Issuer.vector_computes (x : Issuer) (o : VOperands) (f : LaneFn) (h : x.Ready o)
    (hen : ∀ l, x.lane l → x.raised o f l &&& enables x.reel x.cur.bundle.hints.ht = 0) : ∃ t, x.vector o f = .next t ∧ x.Computes t o f := by
  have hbusy : (o.dests x.cur.bundle.hints.extent).any x.reel.busyV = false := by
    simp only [List.any_eq_false]; intro m hm; simp [h.free m hm]
  have hexc : o.excLanes f x.reel x.cur.bundle.hints.extent (enables x.reel x.cur.bundle.hints.ht) (laneList x.active) = [] := by
    rw [List.eq_nil_iff_forall_not_mem]
    intro l hl
    have := (o.mem_excLanes f _ x.reel _ _ l).1 hl
    exact this.2 (hen l ((mem_laneList x.active l).1 this.1))
  simp only [Issuer.vector, h.legal, Bool.not_true, Bool.false_eq_true, if_false, h.active, hbusy, hexc, if_true]
  set w := o.write f x.reel x.cur.bundle.hints.extent (enables x.reel x.cur.bundle.hints.ht) x.s.nextId (laneList x.active) with hw
  have hrest := o.write_rest f x.reel x.cur.bundle.hints.extent (enables x.reel x.cur.bundle.hints.ht) x.s.nextId (laneList x.active)
  rw [← hw] at hrest
  refine ⟨_, rfl, ?_⟩
  refine ⟨{ x.advanced x.nextPc with v := w.v, fflags := w.fflags }, ?_, rfl, ?_⟩
  · unfold Issuer.Into Issuer.into Issuer.put
    have he : ∀ s' : State, s'.clock x.coreId = x.s.clock x.coreId →
        ({ (w.setSplit x.cur.split { x.split with pc := x.nextPc, wait := none, bundle := none }) with
          retired := w.retired + 1 }.applyHS (s'.clock x.coreId) x.cur.bundle.hints.hs) =
        { x.advanced x.nextPc with v := w.v, fflags := w.fflags } := by
      intro s' hs'
      rw [hs', hrest]
      unfold Issuer.advanced
      cases x.cur.bundle.hints.hs with
      | none => rfl
      | some p => simp only [Reel.applyHS]; split <;> rfl
    split
    · exact congrArg (fun r => ({ x.s with nextId := x.s.nextId + 1, reels := x.s.reels.put x.cur.reel r, cur := none } : State))
        (he _ rfl)
    · exact congrArg (fun r => ({ x.s with reels := x.s.reels.put x.cur.reel r, cur := none } : State)) (he _ rfl)
  · have ml := fun l => mem_laneList x.active l
    constructor
    · intro l m hl _ hm
      obtain ⟨p, hp, hh⟩ := o.write_inside f x.cur.bundle.hints.extent x.reel (enables x.reel x.cur.bundle.hints.ht) x.s.nextId
        (laneList x.active) (laneList_nodup _) (laneList_lt _) ((ml l).2 hl) (hen l hl) hm
      exact ⟨p, hp, hh⟩
    · intro l m hl hk
      refine o.write_outside f x.cur.bundle.hints.extent x.reel (enables x.reel x.cur.bundle.hints.ht) x.s.nextId (laneList x.active)
        (laneList_lt _) hl ?_
      rcases hk with hk | hk | hk
      · exact .inl fun h => hk ((ml l).1 h)
      · exact hk.elim
      · exact .inr (.inr hk)
    · intro l hl
      have := o.write_flags f x.cur.bundle.hints.extent x.reel (enables x.reel x.cur.bundle.hints.ht) x.s.nextId (laneList x.active)
        (laneList_nodup _) l
      rw [if_pos ((ml l).2 hl)] at this
      exact this
    · intro l hl
      have := o.write_flags f x.cur.bundle.hints.extent x.reel (enables x.reel x.cur.bundle.hints.ht) x.s.nextId (laneList x.active)
        (laneList_nodup _) l
      rw [if_neg fun h => hl ((ml l).1 h)] at this
      exact this

/-- The lanes of a vector instruction whose write leaves out the lanes that raised an enabled exception. -/
theorem Issuer.write_lanes (x : Issuer) (o : VOperands) (f : LaneFn) (en : Flags) (n : Nat) :
    x.Lanes o f (fun l => x.raised o f l &&& en ≠ 0) (o.write f x.reel x.cur.bundle.hints.extent en n (laneList x.active)) where
  written l m hl hout hm :=
    o.write_inside f x.cur.bundle.hints.extent x.reel en n (laneList x.active) (laneList_nodup _) (laneList_lt _)
      ((mem_laneList x.active l).2 hl) (Decidable.not_not.1 hout) hm
  kept l m hl hk := o.write_outside f x.cur.bundle.hints.extent x.reel en n (laneList x.active) (laneList_lt _) hl <| by
    rcases hk with hk | hk | hk
    · exact .inl fun h => hk ((mem_laneList x.active l).1 h)
    · exact .inr (.inl hk)
    · exact .inr (.inr hk)
  flags l hl := by
    have := o.write_flags f x.cur.bundle.hints.extent x.reel en n (laneList x.active) (laneList_nodup _) l
    rwa [if_pos ((mem_laneList x.active l).2 hl)] at this
  flagsKept l hl := by
    have := o.write_flags f x.cur.bundle.hints.extent x.reel en n (laneList x.active) (laneList_nodup _) l
    rwa [if_neg fun h => hl ((mem_laneList x.active l).1 h)] at this

/-- A bit of the OR of the values of a list. -/
theorem getLsbD_foldl_or {w : Nat} (ls : List Nat) (g : Nat → BitVec w) (a : BitVec w) (b : Nat) :
    (ls.foldl (fun a l => a ||| g l) a).getLsbD b = (a.getLsbD b || ls.any fun l => (g l).getLsbD b) := by
  induction ls generalizing a with
  | nil => simp
  | cons l ls ih => rw [List.foldl_cons, ih]; simp [Bool.or_assoc]

/-- A mask of lanes has exactly their bits. -/
theorem getLsbD_maskOf (ls : List Nat) (l : Nat) (hl : l < 32) : (maskOf ls).getLsbD l = true ↔ l ∈ ls := by
  unfold maskOf
  rw [getLsbD_foldl_or ls (fun l => (1 : Word) <<< l)]
  rw [show (0 : Word).getLsbD l = false by simp, Bool.false_or, List.any_eq_true]
  constructor
  · rintro ⟨k, hk, hb⟩
    simp only [BitVec.getLsbD_shiftLeft, Bool.and_eq_true, Bool.not_eq_true', decide_eq_true_eq, decide_eq_false_iff_not] at hb
    have : l - k = 0 := by
      by_contra hne
      have h1 := hb.2
      rw [show (1 : Word) = BitVec.ofNat 32 1 from rfl, BitVec.getLsbD_ofNat] at h1
      simp only [Bool.and_eq_true] at h1
      have := h1.2
      rw [Nat.testBit_one_eq_true_iff_self_eq_zero] at this
      exact hne this
    have : l = k := by omega
    exact this ▸ hk
  · intro hk
    exact ⟨l, hk, by simp [hl]⟩

/-- A vector instruction in which some active lane raises an enabled exception, in a reel that has a handler. -/
theorem Issuer.vector_traps (x : Issuer) (o : VOperands) (f : LaneFn) (h : x.Ready o) (hv : x.Vectors) (l₀ : Nat) (hl₀ : x.lane l₀)
    (hr₀ : x.raised o f l₀ &&& enables x.reel x.cur.bundle.hints.ht ≠ 0) :
    let en := enables x.reel x.cur.bundle.hints.ht
    let exc := o.excLanes f x.reel x.cur.bundle.hints.extent en (laneList x.active)
    let w := o.write f x.reel x.cur.bundle.hints.extent en x.s.nextId (laneList x.active)
    ∃ t, x.vector o f = .next t ∧ x.Into t
      { x.trapped x.reel x.cur.bundle.word (maskOf exc)
          (excInfo (exc.foldl (fun a l => a ||| (x.raised o f l &&& en)) 0) ||| 1) with v := w.v, fflags := w.fflags } := by
  intro en exc w
  have hbusy : (o.dests x.cur.bundle.hints.extent).any x.reel.busyV = false := by
    simp only [List.any_eq_false]; intro m hm; simp [h.free m hm]
  have hexc : exc ≠ [] := fun he => by
    have := (o.mem_excLanes f x.cur.bundle.hints.extent x.reel en (laneList x.active) l₀).2 ⟨(mem_laneList x.active l₀).2 hl₀, hr₀⟩
    rw [show o.excLanes f x.reel x.cur.bundle.hints.extent en (laneList x.active) = [] from he] at this
    exact absurd this (List.not_mem_nil)
  have hrest : w = { x.reel with v := w.v, fflags := w.fflags } :=
    o.write_rest f x.reel x.cur.bundle.hints.extent en x.s.nextId (laneList x.active)
  have hh : w.handler = false := by rw [hrest]; exact hv.outside
  have hx : ¬ (w.xvec = 0 ∧ w.xvechi = 0) := by rw [hrest]; exact hv.handled
  simp only [Issuer.vector, h.legal, Bool.not_true, Bool.false_eq_true, if_false, h.active, hbusy]
  rw [if_neg hexc]
  refine ⟨_, Issuer.takeTrap_vectors _ w 1 x.cur.bundle.word _ _ hh hx, ?_⟩
  unfold Issuer.Into Issuer.into Issuer.trapped
  rw [hrest]
  split <;> rfl

/-- Two lane functions whose results agree in what the destination keeps compute the same. -/
theorem Issuer.Computes.congr {t : State} {o : VOperands} {f g : LaneFn} (h : x.Computes t o f)
    (hlo : ∀ i j l, loWord (o.result f x.reel x.cur.bundle.hints.extent i j l).1 = loWord (o.result g x.reel x.cur.bundle.hints.extent i j l).1)
    (hhi : o.wd = true → ∀ i j l,
      hiWord (o.result f x.reel x.cur.bundle.hints.extent i j l).1 = hiWord (o.result g x.reel x.cur.bundle.hints.extent i j l).1)
    (hfl : ∀ i j l, (o.result f x.reel x.cur.bundle.hints.extent i j l).2 = (o.result g x.reel x.cur.bundle.hints.extent i j l).2) :
    x.Computes t o g := by
  obtain ⟨r, hi, hr, hl⟩ := h
  refine ⟨r, hi, hr, ⟨fun l m h1 h2 h3 => ?_, hl.kept, fun l h1 => ?_, hl.flagsKept⟩⟩
  · obtain ⟨p, hp, hh⟩ := hl.written l m h1 h2 h3
    refine ⟨p, hp, ?_⟩
    rcases hh with hh | hh
    · exact .inl ⟨hh.1, hh.2.trans (hlo _ _ _)⟩
    · exact .inr ⟨hh.1, hh.2.1, hh.2.2.trans (hhi hh.1 _ _ _)⟩
  · have := hl.flags l h1
    have hr : x.raised o f l = x.raised o g l := by
      unfold Issuer.raised VOperands.laneFlags; simp only [hfl]
    rw [this, hr]

theorem Issuer.Computes.mem {t : State} {o : VOperands} {f : LaneFn} (h : x.Computes t o f) : t.mem = x.s.mem := by
  obtain ⟨r, hi, _⟩ := h
  rw [hi]; rfl

/-- A lane function that raises nothing raises nothing over a block. -/
theorem Issuer.raised_zero (x : Issuer) (o : VOperands) (f : LaneFn) (h : ∀ l a b c, (f l a b c).2 = 0) (l : Nat) : x.raised o f l = 0 := by
  unfold Issuer.raised VOperands.laneFlags
  have : ∀ (ps : List (Nat × Nat)) (a : Flags), a = 0 →
      ps.foldl (fun a p => a ||| (o.result f x.reel x.cur.bundle.hints.extent p.1 p.2 l).2) a = 0 := by
    intro ps
    induction ps with
    | nil => intro a ha; exact ha
    | cons p ps ih => intro a ha; exact ih _ (by simp [VOperands.result, h, ha])
  exact this _ _ rfl

/-- A vector instruction that raises nothing. -/
theorem Issuer.vector_quiet (x : Issuer) (o : VOperands) (f : LaneFn) (h : x.Ready o) (h0 : ∀ l a b c, (f l a b c).2 = 0) :
    ∃ t, x.vector o f = .next t ∧ x.Computes t o f :=
  x.vector_computes o f h fun l _ => by rw [x.raised_zero o f h0]; simp

/-- A register read as a 64-bit value by an operand of 32 bits. -/
theorem Reel.vread_narrow_lt (r : Reel) (n l : Nat) : (r.vread false n l).toNat < 2 ^ 32 := by
  simp only [Reel.vread, Bool.false_eq_true, if_false]
  rw [BitVec.toNat_setWidth]
  exact Nat.lt_of_le_of_lt (Nat.mod_le _ _) (r.vget n l).isLt

end Sys2Proof.Machine
end

