-- ==== Sys2Proof/Laws/Global.lean ====
section
/-! SUPPORT. What the shared operations of global memory answer: the permission check, the throttle, a release, and the sending of loads,
stores and atomics. -/

namespace Sys2Proof.Machine

variable {x : Issuer} {s : State}

/-! ## Before an access issues -/

/-- Every access that the lookaside permits passes the check. -/
theorem Issuer.withPerm_ok (x : Issuer) (accs : List (Nat × Nat)) (n : Needs) (whole : Bool) (k : Out)
    (h : ∀ p ∈ accs, ∃ e, (x.s.core x.coreId).lookup x.block.ctx p.2 = some e ∧ e.permits n = true) : x.withPerm accs n whole k = k := by
  have hok : ∀ p ∈ accs, (x.s.core x.coreId).permit x.block.ctx (Wait.deniedOf x.split.wait) n p.2 = .ok := by
    intro p hp
    obtain ⟨e, he, hn⟩ := h p hp
    simp [Core.permit, he, hn]
  have hmap : (accs.map fun a => (a, (x.s.core x.coreId).permit x.block.ctx (Wait.deniedOf x.split.wait) n a.2)) =
      accs.map fun a => (a, PermAns.ok) := List.map_congr_left fun p hp => by rw [hok p hp]
  unfold Issuer.withPerm
  simp only [hmap]
  have h1 : (accs.map fun a => (a, PermAns.ok)).find? (fun p => decide (p.2 = PermAns.miss)) = none := by
    simp [List.find?_eq_none]
  rw [h1]
  simp only
  split
  · rfl
  · rename_i va hva
    exfalso
    rw [List.filterMap_eq_nil_iff.2 (by
      intro p hp
      obtain ⟨q, _, rfl⟩ := List.mem_map.1 hp
      rfl)] at hva
    simp at hva

/-- An access that the throttle lets through. -/
theorem Issuer.throttled_ok (x : Issuer) (k : Issuer → Out)
    (h : x.cur.bundle.hints.memClass = 2 ∨ slotOfKey x.cur.reel ∈ x.s.allowedNow x.coreId) : x.throttled k = k x.admitted := by
  unfold Issuer.throttled
  rw [if_pos]
  rcases h with h | h
  · simp [h]
  · simp [Issuer.key, h]

/-- What letting an access through changes: of the state, the denial of one slot of the issuing core. -/
theorem Issuer.admitted_spec (x : Issuer) :
    x.admitted = { x with s := x.admitted.s } ∧ x.admitted.s = { x.s with cores := x.admitted.s.cores }
      ∧ ∀ c, x.admitted.s.core c = if c = x.coreId then { x.s.core c with denied := (x.admitted.s.core c).denied } else x.s.core c := by
  unfold Issuer.admitted
  split
  · exact ⟨rfl, rfl, fun c => by split <;> rfl⟩
  · refine ⟨rfl, rfl, fun c => ?_⟩
    simp only [State.core_onCore]
    split
    · rename_i h; subst h; rfl
    · rfl

/-- A release that has nothing to wait for, at a split that waits for none. -/
theorem Issuer.release_done (x : Issuer) (scope : Nat) (k : List Nat → Out) (hw : x.split.wait = none)
    (h : x.s.releaseDone x.cur.reel x.reel scope x.s.nextId = true) : x.release scope k = k (x.s.carryOf x.cur.reel x.reel) := by
  have h : x.s.releaseDone x.key x.reel scope x.s.nextId = true := h
  simp [Issuer.release, Issuer.releaseWith, hw, h, Issuer.key]

/-! ## Retiring from a state in which work has been sent -/

/-- Retiring with a reel, a split and a state that has changed beyond the reel. -/
theorem Issuer.retireAs_from (x : Issuer) (s : State) (r : Reel) (p : Split) (hc : s.clock x.coreId = x.s.clock x.coreId) :
    x.retireAs s r p = .next { s with
      reels := s.reels.put x.cur.reel { r with
        splits := r.splits.put x.cur.split { p with wait := none, bundle := none }
        retired := r.retired + 1
        prio := match x.cur.bundle.hints.hs with | some p => (p.extractLsb' 1 2).toNat | none => r.prio
        restUntil := match x.cur.bundle.hints.hs with
          | some p => if p.getLsbD 0 then x.s.clock x.coreId + 2 else r.restUntil
          | none => r.restUntil }
      cur := none } := by
  unfold Issuer.retireAs Issuer.finish Issuer.put
  rw [hc]
  cases x.cur.bundle.hints.hs with
  | none => rfl
  | some p =>
    simp only [Reel.applyHS]
    split <;> rfl

/-- Retiring after work has been sent: where the reel listed in the state differs from the issuer's in loads, counters and the store sequence
alone, the reel that stands after it is the advanced one with those. -/
theorem Issuer.retireFrom_sent (x : Issuer) (s : State) (r : Reel) (hr : s.reels.find? x.cur.reel = some r)
    (hs : r = { x.reel with loads := r.loads, ld := r.ld, st := r.st, seq := r.seq, inherited := r.inherited })
    (hc : s.clock x.coreId = x.s.clock x.coreId) :
    x.retireFrom s = .next { s with
      reels := s.reels.put x.cur.reel
        { x.advanced x.nextPc with loads := r.loads, ld := r.ld, st := r.st, seq := r.seq, inherited := r.inherited }
      cur := none } := by
  unfold Issuer.retireFrom
  rw [show s.reels.find? x.key = some r from hr]
  simp only [Issuer.retireIn]
  rw [Issuer.retireAs_from { x with reel := r } s r _ hc]
  rw [hs]
  rfl

/-! ## Loads -/

/-- A piece after the L1 has served the sectors `hits`. -/
def Piece.served (l1 : Map L1Sector) (hits : List Nat) (p : Piece) : Piece :=
  if p.va / 32 ∈ hits ∧ p.data.isNone ∧ p.lost = false then
    { p with data := (l1.find? (p.va / 32)).map fun (l : L1Sector) => BitVec.setWidth 128 (l.data >>> (8 * (p.va % 32))) }
  else p

/-- The loads of a reel after the L1 has served the sectors `hits` to load `load`. -/
def Reel.served (r : Reel) (load : Nat) (l1 : Map L1Sector) (hits : List Nat) : Reel :=
  { r with loads := r.loads.map fun o => if o.id = load then { o with pieces := o.pieces.map (Piece.served l1 hits) } else o }

/-- What the sending of a load's reads has done: sectors the L1 served have reached the load of the reel, `r` before; every other sector has
a message; nothing but the reel, messages, cores and identities has changed, and of the cores only L1 and throttle counts of one. -/
structure ReadsSent (core key load cls policy : Nat) (install : Bool) (r : Reel) (secs : List Nat) (s t : State) : Prop where
  rest : t = { s with reels := t.reels, msgs := t.msgs, cores := t.cores, nextId := t.nextId }
  cores : ∀ c, t.core c = if c = core then { s.core c with
      l1 := (t.core c).l1, misses := (t.core c).misses, hits := (t.core c).hits, slotHits := (t.core c).slotHits } else s.core c
  l1 : install = true → (t.core core).l1 = (s.core core).l1
  ids : s.nextId ≤ t.nextId
  older : ∀ k, k < s.nextId → t.msgs.find? k = s.msgs.find? k
  served : ∃ hits, (∀ sec ∈ hits, install = true ∧ ((s.core core).l1.find? sec).isSome = true)
    ∧ t.reels = s.reels.put key (r.served load (s.core core).l1 hits)
    ∧ ∀ sec ∈ secs, sec ∈ hits ∨
      ∃ k, s.nextId ≤ k ∧ t.msgs.find? k = some ⟨domainOfCore core, domainOfCore core, core, false, .read ⟨core, key, load, install, cls, policy⟩ sec⟩

@[simp] theorem Reel.served_nil (r : Reel) (load : Nat) (l1 : Map L1Sector) : r.served load l1 [] = r := by
  have : ∀ o : OutLoad, (if o.id = load then { o with pieces := o.pieces.map (Piece.served l1 []) } else o) = o := by
    intro o
    have hp : Piece.served l1 [] = id := by funext p; simp [Piece.served]
    simp [hp]
  simp [Reel.served, this]

theorem Piece.served_served (l1 : Map L1Sector) (as bs : List Nat) (h : ∀ sec ∈ as, (l1.find? sec).isSome = true) (p : Piece) :
    (p.served l1 as).served l1 bs = p.served l1 (as ++ bs) := by
  unfold Piece.served
  by_cases hd : p.data.isNone = true ∧ p.lost = false
  · by_cases ha : p.va / 32 ∈ as
    · obtain ⟨l, hl⟩ := Option.isSome_iff_exists.1 (h _ ha)
      simp [ha, hd, hl]
    · simp [ha, hd]
  · have h1 : ∀ q : Prop, ¬ (q ∧ p.data.isNone = true ∧ p.lost = false) := fun q hq => hd hq.2
    rw [if_neg (h1 _), if_neg (h1 _), if_neg (h1 _)]

theorem Reel.served_served (r : Reel) (load : Nat) (l1 : Map L1Sector) (as bs : List Nat) (h : ∀ sec ∈ as, (l1.find? sec).isSome = true) :
    (r.served load l1 as).served load l1 bs = r.served load l1 (as ++ bs) := by
  unfold Reel.served
  simp only [List.map_map]
  congr 1
  refine List.map_congr_left fun o _ => ?_
  by_cases ho : o.id = load
  · simp [ho, Function.comp_def, Piece.served_served l1 as bs h]
  · simp [ho]

/-- Serving one sector is what capturing it does. -/
theorem OutLoad.capture_served (o : OutLoad) (l1 : Map L1Sector) (sec : Nat) (l : L1Sector) (h : l1.find? sec = some l) :
    o.capture sec l.data = { o with pieces := o.pieces.map (Piece.served l1 [sec]) } := by
  unfold OutLoad.capture
  congr 1
  refine List.map_congr_left fun p _ => ?_
  unfold Piece.served
  by_cases hp : p.va / 32 = sec
  · simp [hp, h]
  · simp [hp]

theorem ReadsSent.trans {core key load cls policy : Nat} {install : Bool} {r : Reel} {as bs : List Nat} {s t u : State} {l1 : Map L1Sector}
    {hits : List Nat} (hl : (s.core core).l1 = l1) (h : ReadsSent core key load cls policy install r as s t)
    (hh : t.reels = s.reels.put key (r.served load l1 hits)) (hs : ∀ sec ∈ hits, install = true ∧ (l1.find? sec).isSome = true)
    (hm : ∀ sec ∈ as, sec ∈ hits ∨ ∃ k, s.nextId ≤ k ∧ k < t.nextId ∧
      t.msgs.find? k = some ⟨domainOfCore core, domainOfCore core, core, false, .read ⟨core, key, load, install, cls, policy⟩ sec⟩)
    (h' : ReadsSent core key load cls policy install (r.served load l1 hits) bs t u) :
    ReadsSent core key load cls policy install r (as ++ bs) s u where
  rest := by rw [h'.rest, h.rest]
  cores c := by
    rw [h'.cores c, h.cores c]
    split <;> rfl
  l1 hi := (h'.l1 hi).trans (h.l1 hi)
  ids := Nat.le_trans h.ids h'.ids
  older k hk := (h'.older k (Nat.lt_of_lt_of_le hk h.ids)).trans (h.older k hk)
  served := by
    obtain ⟨hits', h1, h2, h3⟩ := h'.served
    have hcase : hits' = [] ∨ (t.core core).l1 = l1 := by
      cases hits' with
      | nil => exact .inl rfl
      | cons a _ => exact .inr ((h.l1 (h1 a (by simp)).1).trans hl)
    refine ⟨hits ++ hits', ?_, ?_, ?_⟩
    · intro sec hsec
      rcases List.mem_append.1 hsec with hsec | hsec
      · rw [hl]; exact hs sec hsec
      · obtain ⟨hi, hx⟩ := h1 sec hsec
        rw [h.l1 hi] at hx
        exact ⟨hi, hx⟩
    · rw [h2, hh, Map.put_put]
      rcases hcase with hc | hc
      · simp [hc, hl]
      · rw [hc, Reel.served_served _ _ _ _ _ fun sec hsec => (hs sec hsec).2, hl]
    · intro sec hsec
      rcases List.mem_append.1 hsec with hsec | hsec
      · rcases hm sec hsec with hx | ⟨k, hk1, hk2, hk3⟩
        · exact .inl (List.mem_append_left _ hx)
        · exact .inr ⟨k, hk1, (h'.older k hk2).trans hk3⟩
      · rcases h3 sec hsec with hx | ⟨k, hk1, hk2⟩
        · exact .inl (List.mem_append_right _ hx)
        · exact .inr ⟨k, Nat.le_trans h.ids hk1, hk2⟩

/-- Changing a load of a resident reel. -/
theorem State.onLoad_resident (s : State) (key load : Nat) (f : OutLoad → OutLoad) (r : Reel) (h : s.reels.find? key = some r) :
    s.onLoad key load f = s.onReel key fun r => { r with loads := r.loads.map fun o => if o.id = load then f o else o } := by
  unfold State.onLoad State.onAnyReel
  simp [h]

/-- The body of the sending of one sector. -/
def State.sendRead (core key load cls policy : Nat) (useL1 : Bool) (s : State) (sec : Nat) : State :=
  match useL1 && !s.reading core sec && !s.awayStore key (sec / 4), (s.core core).l1.find? sec with
  | true, some l => s.onLoad key load fun o => o.capture sec l.data
  | _, _ =>
    let s := if useL1 then s else s.onCore core fun c => { c with l1 := c.l1.del sec }
    s.send ⟨domainOfCore core, domainOfCore core, core, false, .read ⟨core, key, load, useL1, cls, policy⟩ sec⟩

/-- One sector's sending. -/
theorem State.sendRead_sent (core key load cls policy : Nat) (useL1 : Bool) (s : State) (r : Reel) (sec : Nat)
    (hr : s.reels.find? key = some r) (hself : s.reels.put key r = s.reels) :
    ∃ hits, ReadsSent core key load cls policy useL1 r [sec] s (s.sendRead core key load cls policy useL1 sec)
      ∧ (s.sendRead core key load cls policy useL1 sec).reels = s.reels.put key (r.served load (s.core core).l1 hits)
      ∧ (∀ q ∈ hits, useL1 = true ∧ ((s.core core).l1.find? q).isSome = true)
      ∧ ∀ q ∈ [sec], q ∈ hits ∨ ∃ k, s.nextId ≤ k ∧ k < (s.sendRead core key load cls policy useL1 sec).nextId ∧
        (s.sendRead core key load cls policy useL1 sec).msgs.find? k =
          some ⟨domainOfCore core, domainOfCore core, core, false, .read ⟨core, key, load, useL1, cls, policy⟩ q⟩ := by
  by_cases hc : ∃ l, useL1 = true ∧ s.reading core sec = false ∧ s.awayStore key (sec / 4) = false ∧ (s.core core).l1.find? sec = some l
  · obtain ⟨l, hu, hrd, haw, hl⟩ := hc
    have he : s.sendRead core key load cls policy useL1 sec = s.onLoad key load fun o => o.capture sec l.data := by
      unfold State.sendRead; simp [hu, hrd, haw, hl]
    rw [State.onLoad_resident s key load _ r hr] at he
    have hreels : (s.onReel key fun r => { r with loads := r.loads.map fun o => if o.id = load then o.capture sec l.data else o }).reels =
        s.reels.put key (r.served load (s.core core).l1 [sec]) := by
      rw [State.onReel_reels, Map.adjust_eq_put hr]
      unfold Reel.served
      simp only [OutLoad.capture_served _ _ _ _ hl]
    have hsome : ∀ q ∈ [sec], useL1 = true ∧ ((s.core core).l1.find? q).isSome = true := by simp [hu, hl]
    refine ⟨[sec], ?_, by rw [he]; exact hreels, hsome, by simp⟩
    rw [he]
    exact ⟨rfl, fun c => by split <;> rfl, fun _ => rfl, Nat.le_refl _, fun _ _ => rfl, [sec], hsome, hreels, by simp⟩
  · have he : s.sendRead core key load cls policy useL1 sec =
        (if useL1 then s else s.onCore core fun c => { c with l1 := c.l1.del sec }).send
          ⟨domainOfCore core, domainOfCore core, core, false, .read ⟨core, key, load, useL1, cls, policy⟩ sec⟩ := by
      unfold State.sendRead
      split
      · rename_i l h1 h2
        simp only [Bool.and_eq_true, Bool.not_eq_true'] at h1
        exact absurd ⟨l, h1.1.1, h1.1.2, h1.2, h2⟩ hc
      · rfl
    have hid : (if useL1 then s else s.onCore core fun c => { c with l1 := c.l1.del sec }).nextId = s.nextId := by split <;> rfl
    have hms : (if useL1 then s else s.onCore core fun c => { c with l1 := c.l1.del sec }).msgs = s.msgs := by split <;> rfl
    have hrl : (if useL1 then s else s.onCore core fun c => { c with l1 := c.l1.del sec }).reels = s.reels := by split <;> rfl
    have hmsg : ∀ q ∈ [sec], q ∈ ([] : List Nat) ∨ ∃ k, s.nextId ≤ k ∧ k < s.nextId + 1 ∧
        (s.msgs.put s.nextId ⟨domainOfCore core, domainOfCore core, core, false, .read ⟨core, key, load, useL1, cls, policy⟩ sec⟩).find? k =
          some ⟨domainOfCore core, domainOfCore core, core, false, .read ⟨core, key, load, useL1, cls, policy⟩ q⟩ := by
      intro q hq
      rw [List.mem_singleton] at hq
      exact .inr ⟨s.nextId, by omega, by omega, by rw [hq]; simp⟩
    refine ⟨[], ?_, ?_, by simp, ?_⟩
    · rw [he]
      refine ⟨by cases useL1 <;> rfl, ?_, ?_, ?_, ?_, [], by simp, ?_, ?_⟩
      · intro c
        simp only [State.core_send]
        cases useL1
        · simp only [Bool.false_eq_true, if_false, State.core_onCore]
          split
          · rename_i h; subst h; rfl
          · rfl
        · simp only [if_true]
          split <;> rfl
      · intro h; subst h; rfl
      · simp [hid]
      · intro k hk
        rw [State.send_msgs, hid, hms, Map.find?_put_ne _ _ (by omega)]
      · rw [State.send_reels, hrl]; simp [hself]
      · intro q hq
        rcases hmsg q hq with h | ⟨k, h1, h2, h3⟩
        · exact .inl h
        · exact .inr ⟨k, h1, by rw [State.send_msgs, hid, hms]; exact h3⟩
    · rw [he, State.send_reels, hrl]; simp [hself]
    · rw [he, State.send_msgs, State.send_nextId, hid, hms]
      exact hmsg

/-- The sending of sectors, one after the other. -/
theorem State.sendRead_foldl (core key load cls policy : Nat) (useL1 : Bool) (secs : List Nat) (s : State) (r : Reel)
    (hr : s.reels.find? key = some r) (hself : s.reels.put key r = s.reels) :
    ReadsSent core key load cls policy useL1 r secs s (secs.foldl (State.sendRead core key load cls policy useL1) s) := by
  induction secs generalizing s r with
  | nil =>
    refine ⟨rfl, fun c => by split <;> rfl, fun _ => rfl, Nat.le_refl _, fun _ _ => rfl, [], by simp, ?_, by simp⟩
    simp [hself]
  | cons sec secs ih =>
    obtain ⟨hits, h1, h2, h3, h4⟩ := State.sendRead_sent core key load cls policy useL1 s r sec hr hself
    have := ih (s.sendRead core key load cls policy useL1 sec) (r.served load (s.core core).l1 hits)
      (by rw [h2]; simp) (by rw [h2]; simp)
    exact ReadsSent.trans rfl h1 h2 h3 h4 this

theorem Core.countMisses_kept (c : Core) (slot cls : Nat) (lines : List Nat) :
    c.countMisses slot cls lines = { c with
      misses := (c.countMisses slot cls lines).misses, hits := (c.countMisses slot cls lines).hits
      slotHits := (c.countMisses slot cls lines).slotHits } := by
  unfold Core.countMisses
  split
  · rfl
  · induction lines generalizing c with
    | nil => rfl
    | cons line ls ih =>
      simp only [List.foldl_cons]
      rw [ih]
      split
      · split <;> rfl
      · rfl

/-- The sending of a load's reads. -/
theorem State.sendReads_sent (core key load cls policy : Nat) (secs : List Nat) (s : State) (r : Reel)
    (hr : s.reels.find? key = some r) (hself : s.reels.put key r = s.reels) :
    ReadsSent core key load cls policy ((s.core core).hasL1 && policy != 2) r secs s (s.sendReads core key load cls policy secs) := by
  generalize hu : ((s.core core).hasL1 && policy != 2) = useL1
  have he : s.sendReads core key load cls policy secs = secs.foldl (State.sendRead core key load cls policy useL1)
      (if useL1 then s.onCore core fun c => c.countMisses (slotOfKey key) cls
        ((((secs.filter fun sec => !((s.core core).l1.find? sec).isSome)).map (· / 4)).foldl insertNew []) else s) := by
    unfold State.sendReads
    rw [hu]
    rfl
  rw [he]
  cases useL1 with
  | false => exact State.sendRead_foldl core key load cls policy false secs s r hr hself
  | true =>
    simp only [if_true]
    generalize ((secs.filter fun sec => !((s.core core).l1.find? sec).isSome).map (· / 4)).foldl insertNew [] = lines
    have hk := Core.countMisses_kept (s.core core) (slotOfKey key) cls lines
    have hl1 : ((s.onCore core fun c => c.countMisses (slotOfKey key) cls lines).core core).l1 = (s.core core).l1 := by
      rw [State.core_onCore, if_pos rfl, hk]
    have h := State.sendRead_foldl core key load cls policy true secs (s.onCore core fun c => c.countMisses (slotOfKey key) cls lines) r hr hself
    refine ⟨?_, ?_, ?_, h.ids, h.older, ?_⟩
    · exact h.rest
    · intro c
      rw [h.cores c, State.core_onCore]
      split
      · rename_i hc; subst hc; rw [hk]
      · rfl
    · intro _; rw [h.l1 rfl, hl1]
    · have := h.served
      rw [hl1] at this
      exact this

/-- What issuing a load leaves: the reel listed has the load, with the pieces that the L1 has served. -/
theorem Issuer.startLoad_sent (x : Issuer) (dst : LoadDst) (pieces : List (Nat × Nat)) (hr : x.s.reels.find? x.cur.reel = some x.reel) :
    let o : OutLoad := ⟨x.s.nextId, x.cur.bundle.ipc, x.cur.bundle.word, x.active, dst, pieces.map fun p => ⟨p.1, p.2, none, false⟩, none, [],
      x.cur.bundle.hints.memClass, x.cur.bundle.hints.policy⟩
    let r := { x.reel with loads := x.reel.loads ++ [o], ld := x.reel.ld + 1 }
    ReadsSent x.coreId x.cur.reel x.s.nextId x.cur.bundle.hints.memClass x.cur.bundle.hints.policy
      ((x.s.core x.coreId).hasL1 && x.cur.bundle.hints.policy != 2) r (sectorsOf pieces)
      { x.s with nextId := x.s.nextId + 1, reels := x.s.reels.put x.cur.reel r } (x.startLoad x.s dst pieces) := by
  intro o r
  have h := State.sendReads_sent x.coreId x.cur.reel x.s.nextId x.cur.bundle.hints.memClass x.cur.bundle.hints.policy (sectorsOf pieces)
    { x.s with nextId := x.s.nextId + 1, reels := x.s.reels.put x.cur.reel r } r (by simp) (by simp)
  have he : x.startLoad x.s dst pieces = State.sendReads { x.s with nextId := x.s.nextId + 1, reels := x.s.reels.put x.cur.reel r }
      x.coreId x.cur.reel x.s.nextId x.cur.bundle.hints.memClass x.cur.bundle.hints.policy (sectorsOf pieces) := by
    unfold Issuer.startLoad
    simp only [State.onReel]
    rw [Map.adjust_eq_put hr]
  rw [he]
  exact h

/-! ## Stores and atomics -/

/-- What the sending of stores or atomics of a core has done: messages have been added and none but reads changed; of the cores only the L1 and
throttle counts of one have changed, the L1 gaining no sector; of the domains only which outstanding fills of one install. -/
structure WorkSent (core : Nat) (s t : State) : Prop where
  rest : t = { s with msgs := t.msgs, cores := t.cores, domains := t.domains, nextId := t.nextId }
  cores : ∀ c, t.core c = if c = core then { s.core c with
      l1 := (t.core c).l1, misses := (t.core c).misses, hits := (t.core c).hits, slotHits := (t.core c).slotHits } else s.core c
  gone : ∀ sec, (s.core core).l1.find? sec = none → (t.core core).l1.find? sec = none
  other : ∀ d, d ≠ domainOfCore core → t.domain d = s.domain d
  domain : ∀ d, t.domain d = { s.domain d with l2 := (t.domain d).l2 }
  sectors : ∀ d sec, (t.sector d sec).held = (s.sector d sec).held ∧ (t.sector d sec).laid = (s.sector d sec).laid
  ids : s.nextId ≤ t.nextId
  older : ∀ k m, k < s.nextId → s.msgs.find? k = some m → (∀ r sec, m.body ≠ .read r sec) → t.msgs.find? k = some m

theorem WorkSent.refl (core : Nat) (s : State) : WorkSent core s s :=
  ⟨rfl, fun c => by split <;> rfl, fun _ h => h, fun _ _ => rfl, fun _ => rfl, fun _ _ => ⟨rfl, rfl⟩, Nat.le_refl _, fun _ _ _ h _ => h⟩

theorem WorkSent.trans {core : Nat} {s t u : State} (h : WorkSent core s t) (h' : WorkSent core t u) : WorkSent core s u where
  rest := by rw [h'.rest, h.rest]
  cores c := by rw [h'.cores c, h.cores c]; split <;> rfl
  gone sec hs := h'.gone sec (h.gone sec hs)
  other d hd := (h'.other d hd).trans (h.other d hd)
  domain d := by rw [h'.domain d, h.domain d]
  sectors d sec := ⟨(h'.sectors d sec).1.trans (h.sectors d sec).1, (h'.sectors d sec).2.trans (h.sectors d sec).2⟩
  ids := Nat.le_trans h.ids h'.ids
  older k m hk hm hb := h'.older k m (Nat.lt_of_lt_of_le hk h.ids) (h.older k m hk hm hb) hb

/-- Sending a message. -/
theorem WorkSent.send (core : Nat) (s : State) (m : Msg) : WorkSent core s (s.send m) where
  rest := rfl
  cores c := by simp only [State.core_send]; split <;> rfl
  gone _ h := h
  other _ _ := rfl
  domain _ := rfl
  sectors _ _ := ⟨rfl, rfl⟩
  ids := Nat.le_succ _
  older k m hk hm _ := by rw [State.send_msgs, Map.find?_put_ne _ _ (by omega)]; exact hm

/-- A change of a core's L1 and throttle counts that adds no sector. -/
theorem WorkSent.onCore (core : Nat) (s : State) (f : Core → Core)
    (hf : ∀ c, f c = { c with l1 := (f c).l1, misses := (f c).misses, hits := (f c).hits, slotHits := (f c).slotHits })
    (hg : ∀ c sec, c.l1.find? sec = none → (f c).l1.find? sec = none) : WorkSent core s (s.onCore core f) where
  rest := rfl
  cores c := by
    rw [State.core_onCore]
    split
    · rename_i h; subst h; exact hf _
    · rfl
  gone sec h := by rw [State.core_onCore, if_pos rfl]; exact hg _ _ h
  other _ _ := rfl
  domain _ := rfl
  sectors _ _ := ⟨rfl, rfl⟩
  ids := Nat.le_refl _
  older _ _ _ h _ := h

@[simp] theorem State.core_noInstall (s : State) (core c : Nat) (test : Nat → Bool) : (s.noInstall core test).core c = s.core c := rfl

/-- Reads in flight that no longer install. -/
theorem WorkSent.noInstall (core : Nat) (s : State) (test : Nat → Bool) : WorkSent core s (s.noInstall core test) where
  rest := rfl
  cores c := by
    have : (s.noInstall core test).core c = s.core c := rfl
    rw [this]; split <;> rfl
  gone _ h := h
  other d hd := by
    show State.domain (State.onDomain _ _ _) d = _
    rw [State.domain_onDomain, if_neg hd]; rfl
  domain d := by
    show State.domain (State.onDomain _ _ _) d = _
    rw [State.domain_onDomain]
    split
    · rename_i h
      subst h
      have : (s.noInstall core test).domain (domainOfCore core) = { s.domain (domainOfCore core) with
          l2 := (s.domain (domainOfCore core)).l2.mapVals fun sec x => if test sec then x.noInstall core else x } := by
        show State.domain (State.onDomain _ _ _) _ = _
        rw [State.domain_onDomain, if_pos rfl]; rfl
      rw [this]; rfl
    · rename_i h
      have : (s.noInstall core test).domain d = s.domain d := by
        show State.domain (State.onDomain _ _ _) d = _
        rw [State.domain_onDomain, if_neg h]; rfl
      rw [this]; rfl
  sectors d sec := by
    unfold State.sector
    have : (s.noInstall core test).domain d = if d = domainOfCore core then { s.domain (domainOfCore core) with
          l2 := (s.domain (domainOfCore core)).l2.mapVals fun sec x => if test sec then x.noInstall core else x } else s.domain d := by
      show State.domain (State.onDomain _ _ _) d = _
      rw [State.domain_onDomain]; rfl
    rw [this]
    split
    · rename_i h
      subst h
      simp only [Map.findD, Map.find?_mapVals]
      cases (s.domain (domainOfCore core)).l2.find? sec with
      | none => exact ⟨rfl, rfl⟩
      | some v =>
        simp only [Option.map_some, Option.getD_some]
        split <;> exact ⟨rfl, rfl⟩
    · exact ⟨rfl, rfl⟩
  ids := Nat.le_refl _
  older k m hk hm hb := by
    show (s.msgs.mapVals fun _ m => m.noInstall core test).find? k = some m
    rw [Map.find?_mapVals, hm]
    have : m.noInstall core test = m := by
      unfold Msg.noInstall
      split
      · rename_i r sec h; exact absurd h (hb r sec)
      · rfl
    simp [this]

/-- Filtering a map makes no entry. -/
theorem Map.find?_keep_none {α : Type} (m : Map α) (f : Nat → α → Bool) (k : Nat) (h : m.find? k = none) : (m.keep f).find? k = none := by
  induction m with
  | nil => rfl
  | cons p r ih =>
    obtain ⟨i, v⟩ := p
    simp only [Map.find?] at h
    split at h
    · simp at h
    · rename_i hi
      simp only [Map.keep, List.filter] at ih ⊢
      split
      · simpa [Map.find?, hi] using ih h
      · exact ih h

theorem Core.storeL1_kept (c : Core) (policy : Nat) (i : LineImg) (sec : Nat) (h : c.l1.find? sec = none) :
    (c.storeL1 policy i).l1.find? sec = none := by
  unfold Core.storeL1
  simp only
  split
  · exact Map.find?_keep_none _ _ _ h
  · generalize (List.range 4).filter (fun j => i.smask j != 0) = js
    generalize c.l1 = m at h
    induction js generalizing m with
    | nil => exact h
    | cons j js ih =>
      refine ih _ ?_
      rw [Map.find?_adjust]
      split
      · rename_i hj; subst hj; simp [h]
      · exact h

/-- The sending of a store's images, one after the other: each has its message. -/
theorem State.sendImages (core sid policy : Nat) (images : List (Nat × LineImg)) (s : State) :
    let t := images.foldl (fun s p =>
      ((s.onCore core fun c => c.storeL1 policy p.2).noInstall core fun sec => sec / 4 = p.1).send
        ⟨domainOfCore core, domainOfCore core, core, false, .write sid p.2⟩) s
    WorkSent core s t ∧ ∀ p ∈ images, ∃ k, k < t.nextId ∧
      t.msgs.find? k = some ⟨domainOfCore core, domainOfCore core, core, false, .write sid p.2⟩ := by
  induction images generalizing s with
  | nil => exact ⟨WorkSent.refl _ _, by simp⟩
  | cons p ps ih =>
    simp only [List.foldl_cons]
    have h1 := ((WorkSent.onCore core s (fun c => c.storeL1 policy p.2) (fun _ => rfl)
      (fun c sec => Core.storeL1_kept c policy p.2 sec)).trans (WorkSent.noInstall core _ fun sec => sec / 4 = p.1)).trans
        (WorkSent.send core _ ⟨domainOfCore core, domainOfCore core, core, false, .write sid p.2⟩)
    obtain ⟨h2, h3⟩ := ih (((s.onCore core fun c => c.storeL1 policy p.2).noInstall core fun sec => sec / 4 = p.1).send
      ⟨domainOfCore core, domainOfCore core, core, false, .write sid p.2⟩)
    refine ⟨h1.trans h2, fun q hq => ?_⟩
    rcases List.mem_cons.1 hq with rfl | hq
    · refine ⟨s.nextId, Nat.lt_of_lt_of_le (Nat.lt_succ_self _) h2.ids, h2.older s.nextId _ (Nat.lt_succ_self _) ?_ (by simp)⟩
      rw [State.send_msgs]
      exact Map.find?_put_self _ _ _
    · exact h3 q hq

/-- The sending of an atomic's lanes, one line after the other: each has its message, and the core has dropped its copies of the line. -/
theorem State.sendAtoms (core sid : Nat) (reader : Option (Nat × Nat)) (op : AtomKind) (wide : Bool) (groups : List (Nat × List AtomLane)) (s : State) :
    let t := groups.foldl (fun s g =>
      ((s.dropL1Line core g.1).noInstall core fun sec => sec / 4 = g.1).send
        ⟨domainOfCore core, domainOfCore core, core, false, .atomic sid reader op wide g.2⟩) s
    WorkSent core s t ∧ ∀ g ∈ groups, (∃ k, k < t.nextId ∧
      t.msgs.find? k = some ⟨domainOfCore core, domainOfCore core, core, false, .atomic sid reader op wide g.2⟩)
      ∧ ∀ sec, sec / 4 = g.1 → (t.core core).l1.find? sec = none := by
  have drop : ∀ (c : Core) (line sec : Nat), sec / 4 = line → (c.l1.keep fun sec _ => sec / 4 != line).find? sec = none := by
    intro c line sec h
    exact Map.find?_keep _ _ _ fun _ => by simp [h]
  induction groups generalizing s with
  | nil => exact ⟨WorkSent.refl _ _, by simp⟩
  | cons g gs ih =>
    simp only [List.foldl_cons]
    have h0 := WorkSent.onCore core s (fun c => { c with l1 := c.l1.keep fun sec _ => sec / 4 != g.1 }) (fun _ => rfl)
      (fun c sec h => Map.find?_keep_none c.l1 (fun sec _ => sec / 4 != g.1) sec h)
    have h1 := (h0.trans (WorkSent.noInstall core _ fun sec => sec / 4 = g.1)).trans
        (WorkSent.send core _ ⟨domainOfCore core, domainOfCore core, core, false, .atomic sid reader op wide g.2⟩)
    obtain ⟨h2, h3⟩ := ih (((s.dropL1Line core g.1).noInstall core fun sec => sec / 4 = g.1).send
      ⟨domainOfCore core, domainOfCore core, core, false, .atomic sid reader op wide g.2⟩)
    refine ⟨h1.trans h2, fun q hq => ?_⟩
    rcases List.mem_cons.1 hq with rfl | hq
    · refine ⟨⟨s.nextId, Nat.lt_of_lt_of_le (Nat.lt_succ_self _) h2.ids, h2.older s.nextId _ (Nat.lt_succ_self _) ?_ (by simp)⟩, ?_⟩
      · rw [State.send_msgs]
        exact Map.find?_put_self _ _ _
      · intro sec hsec
        refine h2.gone sec ?_
        rw [State.core_send, State.core_noInstall, State.dropL1Line, State.core_onCore, if_pos rfl]
        exact drop _ _ _ hsec
    · exact h3 q hq

/-- What issuing a store leaves: its record, its reel's counters, and a message for each image. -/
theorem Issuer.startStore_sent (x : Issuer) (images : Map LineImg) (hr : x.s.reels.find? x.cur.reel = some x.reel) :
    let s0 := { x.s with
      nextId := x.s.nextId + 1
      stores := x.s.stores.put x.s.nextId (x.storeOf x.reel (images.map fun p => (p.1, LineState.sent)) true true)
      reels := x.s.reels.put x.cur.reel { x.reel with st := x.reel.st + 1, seq := x.reel.seq + 1 } }
    WorkSent x.coreId s0 (x.startStore x.s images) ∧ ∀ p ∈ images, ∃ k, (x.startStore x.s images).msgs.find? k =
      some ⟨domainOfCore x.coreId, domainOfCore x.coreId, x.coreId, false, .write x.s.nextId p.2⟩ := by
  intro s0
  have h0 : (x.s.reels.find? x.key).getD x.reel = x.reel := by rw [show x.s.reels.find? x.key = some x.reel from hr]; rfl
  have he : x.startStore x.s images = images.foldl (fun s p =>
      ((s.onCore x.coreId fun c => c.storeL1 x.cur.bundle.hints.policy p.2).noInstall x.coreId fun sec => sec / 4 = p.1).send
        ⟨domainOfCore x.coreId, domainOfCore x.coreId, x.coreId, false, .write x.s.nextId p.2⟩)
      (if (s0.core x.coreId).hasL1 && x.cur.bundle.hints.policy != 2 then s0.onCore x.coreId fun c =>
        c.countMisses (slotOfKey x.cur.reel) x.cur.bundle.hints.memClass
          ((images.map (·.1)).filter fun line => (List.range 4).all fun j => ((s0.core x.coreId).l1.find? (4 * line + j)).isNone) else s0) := by
    have hs0 : s0 = State.onReel { x.s with
        nextId := x.s.nextId + 1
        stores := x.s.stores.put x.s.nextId (x.storeOf x.reel (images.map fun p => (p.1, LineState.sent)) true true) } x.key
        fun r => { r with st := r.st + 1, seq := r.seq + 1 } := by
      unfold State.onReel
      simp only [Map.adjust_eq_put hr, s0]
    unfold Issuer.startStore
    simp only [h0]
    rw [← hs0]
  rw [he]
  generalize (images.map (·.1)).filter (fun line => (List.range 4).all fun j => ((s0.core x.coreId).l1.find? (4 * line + j)).isNone) = lines
  have hk : WorkSent x.coreId s0 (if (s0.core x.coreId).hasL1 && x.cur.bundle.hints.policy != 2 then s0.onCore x.coreId fun c =>
      c.countMisses (slotOfKey x.cur.reel) x.cur.bundle.hints.memClass lines else s0) := by
    split
    · refine WorkSent.onCore _ _ _ (fun c => ?_) (fun c sec h => ?_)
      · rw [Core.countMisses_kept]
      · rw [Core.countMisses_kept]; exact h
    · exact WorkSent.refl _ _
  obtain ⟨h1, h2⟩ := State.sendImages x.coreId x.s.nextId x.cur.bundle.hints.policy images
    (if (s0.core x.coreId).hasL1 && x.cur.bundle.hints.policy != 2 then s0.onCore x.coreId fun c =>
      c.countMisses (slotOfKey x.cur.reel) x.cur.bundle.hints.memClass lines else s0)
  refine ⟨hk.trans h1, fun p hp => ?_⟩
  obtain ⟨k, _, hk⟩ := h2 p hp
  exact ⟨k, hk⟩

/-- What issuing an atomic leaves: its record, its reel's counters and load, a message for each line, and none of the lines in the L1. -/
theorem Issuer.startAtomic_sent (x : Issuer) (s : State) (op : AtomKind) (wide ret : Bool) (vd : Nat) (lanes : List AtomLane)
    (hr : s.reels.find? x.cur.reel = some x.reel) :
    let o : OutLoad := ⟨s.nextId + 1, x.cur.bundle.ipc, x.cur.bundle.word, x.active, .vec vd (atomBytes wide) false,
      lanes.map fun l => ⟨l.lane, l.va, none, false⟩, some (op, wide, lanes), [], 0, 0⟩
    let s0 := { s with
      nextId := s.nextId + 2
      stores := s.stores.put s.nextId (x.storeOf x.reel (((byLine lanes).map (·.1)).foldl (fun m l => Map.put m l .sent) []) (!ret) (!ret))
      reels := s.reels.put x.cur.reel (if ret then { x.reel with ld := x.reel.ld + 1, loads := x.reel.loads ++ [o] }
        else { x.reel with st := x.reel.st + 1, seq := x.reel.seq + 1 }) }
    WorkSent x.coreId s0 (x.startAtomic s op wide ret vd lanes) ∧ ∀ g ∈ byLine lanes,
      (∃ k, (x.startAtomic s op wide ret vd lanes).msgs.find? k = some ⟨domainOfCore x.coreId, domainOfCore x.coreId, x.coreId, false,
        .atomic s.nextId (if ret then some (x.cur.reel, s.nextId + 1) else none) op wide g.2⟩)
      ∧ ∀ sec, sec / 4 = g.1 → ((x.startAtomic s op wide ret vd lanes).core x.coreId).l1.find? sec = none := by
  intro o s0
  have h0 : (s.reels.find? x.key).getD x.reel = x.reel := by rw [show s.reels.find? x.key = some x.reel from hr]; rfl
  have he : x.startAtomic s op wide ret vd lanes = (byLine lanes).foldl (fun s' g =>
      ((s'.dropL1Line x.coreId g.1).noInstall x.coreId fun sec => sec / 4 = g.1).send
        ⟨domainOfCore x.coreId, domainOfCore x.coreId, x.coreId, false,
          .atomic s.nextId (if ret then some (x.cur.reel, s.nextId + 1) else none) op wide g.2⟩) s0 := by
    unfold Issuer.startAtomic
    simp only [h0, State.onReel]
    rw [Map.adjust_eq_put hr]
  rw [he]
  obtain ⟨h1, h2⟩ := State.sendAtoms x.coreId s.nextId (if ret then some (x.cur.reel, s.nextId + 1) else none) op wide (byLine lanes) s0
  refine ⟨h1, fun g hg => ?_⟩
  obtain ⟨⟨k, _, hk⟩, h3⟩ := h2 g hg
  exact ⟨⟨k, hk⟩, h3⟩

/-- The groups of lanes by line: one for each line that some lane names, with its lanes. -/
theorem mem_byLine (lanes : List AtomLane) (a : AtomLane) (h : a ∈ lanes) :
    (a.va / 128, lanes.filter fun l => l.va / 128 == a.va / 128) ∈ byLine lanes := by
  have hmem : ∀ (xs acc : List Nat) (y : Nat), y ∈ acc ∨ y ∈ xs → y ∈ xs.foldl insertNew acc := by
    intro xs
    induction xs with
    | nil => intro acc y h; simpa using h
    | cons z zs ih =>
      intro acc y h
      refine ih _ _ ?_
      unfold insertNew
      split
      · rename_i hz
        rcases h with h | h
        · exact .inl h
        · rcases List.mem_cons.1 h with rfl | h
          · exact .inl (by simpa using hz)
          · exact .inr h
      · rcases h with h | h
        · exact .inl (List.mem_append_left _ h)
        · rcases List.mem_cons.1 h with rfl | h
          · exact .inl (by simp)
          · exact .inr h
  unfold byLine
  rw [List.mem_map]
  exact ⟨a.va / 128, hmem _ _ _ (.inr (List.mem_map.2 ⟨a, h, rfl⟩)), rfl⟩

end Sys2Proof.Machine
end

