-- ==== Sys2Proof/Laws/SaveImage.lean ====
section
/-! SUPPORT. What a reel and a block hold after their registers, semaphores and scratchpad have been read back from an image (19 R356). -/

namespace Sys2Proof.Machine


/-- Four bytes make a word. -/
theorem State.physRead_lt (s : State) (a : Nat) : s.physRead a 4 < 2 ^ 32 := by
  unfold State.physRead
  split
  · simp only [lowBits]; exact Nat.mod_lt _ (by decide)
  · simp only [Memory.readNat]
    have := (Memory.read s.mem a).isLt
    have := (Memory.read s.mem (a+1)).isLt
    have := (Memory.read s.mem (a+1+1)).isLt
    have := (Memory.read s.mem (a+1+1+1)).isLt
    omega

/-- A word of an image is what stands in memory there. -/
theorem State.imageWord_toNat (s : State) (a : Nat) : (s.imageWord a).toNat = s.physRead a 4 := by
  simp only [State.imageWord, BitVec.toNat_ofNat]; exact Nat.mod_eq_of_lt (s.physRead_lt a)

/-- What a map holds after the keys below a number have been written. -/
theorem Map.findD_fold_putD {α} [DecidableEq α] (d : α) (g : Nat → α) (N : Nat) (m : Map α) (i : Nat) :
    ((List.range N).foldl (fun m i => Map.putD d m i (g i)) m).findD d i = if i < N then g i else m.findD d i := by
  induction N with
  | zero => simp
  | succ n ih =>
    rw [List.range_succ, List.foldl_append]; simp only [List.foldl_cons, List.foldl_nil]
    rw [Map.findD_putD, ih]; split
    · subst_vars; simp
    · split <;> split <;> first | rfl | omega

/-- What s registers hold after those below a number have been written. -/
theorem Reel.sget_fold_sset (g : Nat → Word) (N : Nat) (r : Reel) (i : Nat) :
   (((List.range N).foldl (fun (r : Reel) n => r.sset n (g n)) r).sget i) = if i = 0 then 0 else if i < N then g i else r.sget i := by
  induction N with
  | zero => by_cases h : i = 0 <;> simp [Reel.sget, h]
  | succ n ih =>
    rw [List.range_succ, List.foldl_append]; simp only [List.foldl_cons, List.foldl_nil]
    generalize hR : List.foldl _ r _ = R at ih ⊢
    unfold Reel.sset
    by_cases h0 : n = 0
    · subst h0; simp only [if_pos]; rw [ih]; repeat' split
      all_goals first | rfl | omega
    · simp only [if_neg h0]
      by_cases hi : i = 0
      · simp [Reel.sget, hi]
      · simp only [Reel.sget, if_neg hi] at ih ⊢
        rw [Map.findD_putD]; split
        · subst_vars; simp
        · rw [ih]; repeat' split
          all_goals first | rfl | omega

/-- What k registers hold after those from k1 on have been written. -/
theorem Reel.kget_fold_kset (g : Nat → Word) (N : Nat) (r : Reel) (l : Word) (i : Nat) (hi : i ≠ 0) :
   (((List.range N).foldl (fun (r : Reel) n => r.kset (n+1) (g n)) r).kget l i) = if i - 1 < N then g (i-1) else r.kget l i := by
  induction N with
  | zero => simp
  | succ n ih =>
    rw [List.range_succ, List.foldl_append]; simp only [List.foldl_cons, List.foldl_nil]
    generalize hR : List.foldl _ r _ = R at ih ⊢
    simp only [Reel.kset, Reel.kget, if_neg hi, Nat.succ_ne_zero, if_false] at ih ⊢
    rw [Map.findD_putD]; split
    · subst_vars; simp
    · rw [ih]; repeat' split
      all_goals first | rfl | omega

/-- Writing k registers leaves the s registers. -/
theorem Reel.s_fold_kset (g : Nat → Word) (N : Nat) (r : Reel) : ((List.range N).foldl (fun (r : Reel) n => r.kset (n+1) (g n)) r).s = r.s := by
  induction N with
  | zero => rfl
  | succ n ih => rw [List.range_succ, List.foldl_append]; simpa [Reel.kset] using ih

/-- An s register after a reload. -/
theorem Reel.sget_reload (s : State) (a v : Nat) (r : Reel) (n : Nat) (h : n ≠ 0) (hn : n < 64) :
    ((r.reload s a v).sget n).toNat = s.physRead (a + 4 * n) 4 := by
  unfold Reel.reload
  simp only [Reel.sget, Reel.s_fold_kset, if_neg h]
  have := Reel.sget_fold_sset (fun n => s.imageWord (a + 4*n)) 64 r n
  simp only [Reel.sget, if_neg h, if_pos hn] at this
  rw [this]; exact State.imageWord_toNat ..

/-- A lane of a v register after a reload. -/
theorem Reel.vget_reload (s : State) (a v : Nat) (r : Reel) (n l : Nat) (hn : n < v) (hl : l < 32) :
    ((r.reload s a v).vget n l).toNat = s.physRead (a + 1024 + 128 * n + 4 * l) 4 := by
  unfold Reel.reload
  simp only [Reel.vget]
  have := Map.findD_fold_putD (0:Word) (fun i => s.imageWord (a + 1024 + 4*i)) (32*v) 
  rw [this, if_pos (by omega), State.imageWord_toNat]; congr 1; omega

/-- A k register after a reload. -/
theorem Reel.kget_reload (s : State) (a v : Nat) (r : Reel) (n : Nat) (l : Word) (h : 0 < n) (hn : n < 8) :
    ((r.reload s a v).kget l n).toNat = s.physRead (a + 252 + 4 * n) 4 := by
  unfold Reel.reload
  simp only [Reel.kget, if_neg (show n ≠ 0 by omega)]
  have := Reel.kget_fold_kset (fun n => s.imageWord (a + 256 + 4*n)) 7 (List.foldl (fun (r : Reel) n => r.sset n (s.imageWord (a + 4 * n))) r (List.range 64)) l n (by omega)
  simp only [Reel.kget, if_neg (show n ≠ 0 by omega), if_pos (show n - 1 < 7 by omega)] at this
  rw [this, State.imageWord_toNat]; congr 1; omega

/-- A word of scratchpad after the words below a number have been written. -/
theorem Memory.readNat_fold_words (g : Nat → Nat) (hg : ∀ w, g w < 2^32) (N : Nat) (m : Map Byte) (w : Nat) (h : w < N) :
   Memory.readNat ((List.range N).foldl (fun m w => Memory.writeNat m (4*w) 4 (g w)) m) (4*w) 4 = g w := by
  induction N with
  | zero => omega
  | succ n ih =>
    rw [List.range_succ, List.foldl_append]; simp only [List.foldl_cons, List.foldl_nil]
    by_cases e : w = n
    · subst e; rw [Memory.readNat_writeNat]; exact Nat.mod_eq_of_lt (hg w)
    · have := ih (by omega)
      generalize List.foldl _ m _ = M at this ⊢
      simp only [Memory.readNat] at this ⊢
      rw [Memory.read_writeNat_outside, Memory.read_writeNat_outside, Memory.read_writeNat_outside, Memory.read_writeNat_outside]
      exact this
      all_goals omega

/-- A word of scratchpad after a reload. -/
theorem Block.spadRead_reload (s : State) (a : Nat) (b : Block) (w : Nat) (h : w < (b.desc.spad + 191) / 192 * 48) :
    (b.reload s a).spadRead (4 * w) 4 = s.physRead (a + ((4352 + b.desc.reels * (1024 + 128 * b.desc.vregs) + 63) / 64 * 64) + 4 * w) 4 := by
  unfold Block.spadRead Block.reload
  have := Memory.readNat_fold_words (fun w => (s.imageWord (a + b.spadAt + 4 * w)).toNat) (fun w => (s.imageWord _).isLt) (b.spadLen / 4) b.spad w
  simp only at this ⊢
  rw [this, State.imageWord_toNat]; rfl
  simp only [Block.spadLen, roundSpad]; omega

/-- A semaphore after a reload. -/
theorem Block.sem_reload (s : State) (a : Nat) (b : Block) (m : Nat) (h : m < 32) :
    ((b.reload s a).sem m).value.toNat = s.physRead (a + 512 + 4 * m) 4 := by
  have key : ∀ N, m < N → (((List.range N).foldl (fun (ms : Map Sem) (i : Nat) => ms.putD Sem.zero i { ms.findD Sem.zero i with value := s.imageWord (a + 512 + 4 * i) }) b.sems).findD Sem.zero m).value = s.imageWord (a + 512 + 4 * m) := by
    intro N
    induction N with
    | zero => omega
    | succ n ih =>
      intro hm
      rw [List.range_succ, List.foldl_append]; simp only [List.foldl_cons, List.foldl_nil]
      rw [Map.findD_putD]; split
      · subst_vars; rfl
      · exact ih (by omega)
  unfold Block.sem Block.reload
  simp only
  rw [key 32 h]; exact State.imageWord_toNat ..
end Sys2Proof.Machine
end

