-- ==== Sys2Proof/Laws/Sync.lean ====
section
/-! SUPPORT. What the shared operations of fences, barriers, semaphores and watches answer. -/

namespace Sys2Proof.Machine

variable {x : Issuer} {s : State}

/-! ## Acquires -/

/-- Reads of a filtered map with rising keys. -/
theorem Map.find?_keep_sorted {α : Type} (m : Map α) (hm : m.sorted) (f : Nat → α → Bool) (k : Nat) :
    (m.keep f).find? k = (m.find? k).filter (f k) := by
  induction m with
  | nil => rfl
  | cons p r ih =>
    obtain ⟨i, v⟩ := p
    have hr := (List.pairwise_cons.1 hm).2
    have hlt := (List.pairwise_cons.1 hm).1
    have ih := ih hr
    simp only [Map.keep, List.filter] at ih ⊢
    by_cases hi : i = k
    · subst hi
      have hnone : Map.find? r i = none := by
        have : ∀ (q : Map α), (∀ a ∈ q, i < a.1) → Map.find? q i = none := by
          intro q
          induction q with
          | nil => intro _; rfl
          | cons a as ih2 =>
            intro h
            have := h a (by simp)
            simp only [Map.find?]
            rw [if_neg (by omega)]
            exact ih2 fun b hb => h b (by simp [hb])
        exact this r fun a ha => hlt a ha
      split
      · rename_i h
        simp [Map.find?, Option.filter, h]
      · rename_i h
        rw [hnone] at ih
        simp [Map.find?, Option.filter, h, ih]
    · split
      · simpa [Map.find?, hi] using ih
      · simpa [Map.find?, hi] using ih

/-- Changing every value keeps rising keys. -/
theorem Map.mapVals_sorted {α : Type} {m : Map α} (hm : m.sorted) (f : Nat → α → α) : (m.mapVals f).sorted := by
  unfold Map.mapVals Map.sorted
  rw [List.pairwise_map]
  exact hm

theorem State.noInstall_domain (s : State) (core d : Nat) (test : Nat → Bool) :
    (s.noInstall core test).domain d = if d = domainOfCore core then { s.domain (domainOfCore core) with
      l2 := (s.domain (domainOfCore core)).l2.mapVals fun sec x => if test sec then x.noInstall core else x } else s.domain d := by
  show State.domain (State.onDomain _ _ _) d = _
  rw [State.domain_onDomain]
  rfl

/-- What an acquire does to the caches: nothing at block scope; from domain scope the core's L1 is emptied; from wafer scope the Guest copies
of the pages the scope drops are gone, the fills of such pages are use-once, and reads pass the Forwarded bytes by. -/
theorem State.acquireCaches_spec (s : State) (core scope : Nat) :
    let t := s.acquireCaches core scope
    t = { s with msgs := t.msgs, cores := t.cores, domains := t.domains }
      ∧ (scope = 0 → t = s)
      ∧ (∀ c, t.core c = if c = core ∧ 1 ≤ scope then { s.core c with l1 := [] } else s.core c)
      ∧ (∀ d, (d ≠ domainOfCore core → t.domain d = s.domain d) ∧ t.domain d = { s.domain d with l2 := (t.domain d).l2 })
      ∧ ∀ d, (s.domain d).l2.sorted → ∀ sec, 
        (t.sector d sec).laid = (if d = domainOfCore core ∧ 2 ≤ scope then (s.sector d sec).hide.laid else (s.sector d sec).laid)
        ∧ ((t.sector d sec).fills.map fun f => (f.req, f.useOnce)) = (s.sector d sec).fills.map (fun f =>
            (f.req, f.useOnce || decide (d = domainOfCore core ∧ 2 ≤ scope ∧ s.drops scope f.pa f.mode = true)))
        ∧ (t.sector d sec).held = match (s.sector d sec).held with
          | none => none
          | some h => if d = domainOfCore core ∧ 2 ≤ scope ∧ h.kind = .guest ∧ s.drops scope h.pa h.mode = true then none else some h := by
  intro t
  by_cases h1 : 1 ≤ scope
  swap
  · have h0 : scope = 0 := by omega
    have ht : t = s := by simp [t, State.acquireCaches, h0]
    rw [ht]
    refine ⟨rfl, fun _ => rfl, fun c => by simp [h0], fun d => ⟨fun _ => rfl, rfl⟩, fun d _ sec => ⟨by simp [h0], by simp [h0], ?_⟩⟩
    cases (s.sector d sec).held <;> simp [h0]
  set u := (s.onCore core fun c => { c with l1 := [] }).noInstall core fun _ => true with hu
  have huc : ∀ c, u.core c = if c = core then { s.core c with l1 := [] } else s.core c := by
    intro c
    rw [hu, State.core_noInstall, State.core_onCore]
    split
    · rename_i h; subst h; rfl
    · rfl
  have hud : ∀ d, u.domain d = if d = domainOfCore core then { s.domain d with l2 := (s.domain d).l2.mapVals fun _ x => x.noInstall core } else s.domain d := by
    intro d
    rw [hu, State.noInstall_domain]
    split
    · rename_i h; subst h; rfl
    · rfl
  have hfill : ∀ x : L2Sector, ((x.noInstall core).fills.map fun f => (f.req, f.useOnce)) = x.fills.map fun f => (f.req, f.useOnce) := by
    intro x
    simp [L2Sector.noInstall, Function.comp_def]
  have hus : ∀ d sec, (u.sector d sec).laid = (s.sector d sec).laid
      ∧ ((u.sector d sec).fills.map fun f => (f.req, f.useOnce)) = ((s.sector d sec).fills.map fun f => (f.req, f.useOnce))
      ∧ (u.sector d sec).held = (s.sector d sec).held := by
    intro d sec
    unfold State.sector
    rw [hud]
    split
    · simp only [Map.findD, Map.find?_mapVals]
      cases (s.domain d).l2.find? sec with
      | none => exact ⟨rfl, rfl, rfl⟩
      | some y => exact ⟨rfl, hfill y, rfl⟩
    · exact ⟨rfl, rfl, rfl⟩
  by_cases h2 : 2 ≤ scope
  swap
  · have ht : t = u := by simp [t, State.acquireCaches, h1, h2, hu]
    rw [ht]
    refine ⟨rfl, fun h => absurd h (by omega), fun c => by rw [huc]; simp [h1], fun d => ⟨fun h => ?_, ?_⟩,
      fun d _ sec => ⟨by rw [(hus d sec).1]; simp [h2], by rw [(hus d sec).2.1]; simp [h2], ?_⟩⟩
    · rw [hud, if_neg h]
    · rw [hud]; split <;> rfl
    · rw [(hus d sec).2.2]
      cases (s.sector d sec).held <;> simp [h2]
  have ht : t = u.onDomain (domainOfCore core) fun q =>
      { q with l2 := (q.l2.mapVals fun _ x => u.afterAcquire scope x).keep fun _ x => x != L2Sector.invalid } := by
    simp [t, State.acquireCaches, h1, h2, hu]
  have htd : ∀ d, t.domain d = if d = domainOfCore core then { u.domain d with
      l2 := ((u.domain d).l2.mapVals fun _ x => u.afterAcquire scope x).keep fun _ x => x != L2Sector.invalid } else u.domain d := by
    intro d
    rw [ht, State.domain_onDomain]
    split
    · rename_i h; subst h; rfl
    · rfl
  have hdrops : ∀ pa mode, u.drops scope pa mode = s.drops scope pa mode := fun _ _ => rfl
  refine ⟨by rw [ht]; rfl, fun h => absurd h (by omega), ?_, fun d => ⟨fun h => ?_, ?_⟩, fun d hsort sec => ?_⟩
  · intro c
    rw [ht, State.core_onDomain, huc]
    simp [h1]
  · rw [htd, if_neg h, hud, if_neg h]
  · rw [htd]
    split
    · rw [hud]; split <;> rfl
    · rw [hud]; split <;> rfl
  · by_cases hd : d = domainOfCore core
    swap
    · have : t.sector d sec = s.sector d sec := by
        unfold State.sector
        rw [htd, if_neg hd, hud, if_neg hd]
      rw [this]
      refine ⟨by simp [hd], by simp [hd], ?_⟩
      cases (s.sector d sec).held <;> simp [hd]
    · have hl2 : (u.domain d).l2 = (s.domain d).l2.mapVals fun _ x => x.noInstall core := by rw [hud, if_pos hd]
      have hsec : t.sector d sec = match (u.domain d).l2.find? sec with
          | none => L2Sector.invalid
          | some y => u.afterAcquire scope y := by
        unfold State.sector
        rw [htd, if_pos hd]
        simp only [Map.findD]
        rw [Map.find?_keep_sorted _ (Map.mapVals_sorted (by rw [hl2]; exact Map.mapVals_sorted hsort _) _), Map.find?_mapVals]
        cases (u.domain d).l2.find? sec with
        | none => rfl
        | some y =>
          simp only [Option.map_some, Option.filter]
          by_cases hy : u.afterAcquire scope y = L2Sector.invalid
          · simp [hy]
          · simp [hy]
      have hss : s.sector d sec = match (s.domain d).l2.find? sec with | none => L2Sector.invalid | some y => y := by
        unfold State.sector Map.findD
        cases (s.domain d).l2.find? sec <;> rfl
      rw [hsec, hss, hl2, Map.find?_mapVals]
      cases (s.domain d).l2.find? sec with
      | none => exact ⟨by simp [L2Sector.invalid, L2Sector.hide], rfl, rfl⟩
      | some y =>
        simp only [Option.map_some, hd, h2, true_and, and_true]
        refine ⟨by simp [State.afterAcquire, L2Sector.hide, L2Sector.noInstall], ?_, ?_⟩
        · simp only [State.afterAcquire, L2Sector.noInstall, List.map_map]
          refine List.map_congr_left fun f _ => ?_
          simp only [Function.comp_def, hdrops]
          by_cases hf : s.drops scope f.pa f.mode = true
          · simp [hf]
          · simp [hf]
        · simp only [State.afterAcquire, L2Sector.noInstall, hdrops]
          cases y.held with
          | none => rfl
          | some h =>
            simp only [Option.filter]
            by_cases hk : h.kind = .guest
            · by_cases hr : s.drops scope h.pa h.mode = true <;> simp [hk, hr]
            · simp [hk]

/-! ## Barriers and semaphores -/

/-- An arrival that does not make the expected count. -/
theorem State.arrive_early (s : State) (block i : Nat) (carry : List Nat) (b : Block) (hb : s.blocks.find? block = some b)
    (h : (b.barrier i).arrivals + 1 ≠ (b.barrier i).expected) :
    s.arrive block i carry = (s.setBlock block (b.setBarrier i { b.barrier i with
      arrivals := (b.barrier i).arrivals + 1, carry := unionNew (b.barrier i).carry carry }), (b.barrier i).phase) := by
  unfold State.arrive
  simp only [hb, h, if_false]

/-- Writing one barrier of a block. -/
theorem Block.barrier_setBarrier (b : Block) (i j : Nat) (v : Barrier) : (b.setBarrier i v).barrier j = if j = i then v else b.barrier j :=
  Map.findD_putD _ _ _ _ _

/-- An arrival that makes the expected count: the flip. -/
theorem State.arrive_last (s : State) (block i : Nat) (carry : List Nat) (b : Block) (hb : s.blocks.find? block = some b)
    (h : (b.barrier i).arrivals + 1 = (b.barrier i).expected) :
    ∃ b' : Block, b' = { b with barriers := b'.barriers, seq := { b.seq with wait := b.seq.wait.map (SeqWait.flip i) } }
      ∧ (∀ j, b'.barrier j = if j = i then { b.barrier i with
          arrivals := 0, phase := (b.barrier i).phase + 1, waiters := 0, carry := []
          flipped := unionNew ((b.barrier i).flipped.filter fun sid => !s.storeGone sid) (unionNew (b.barrier i).carry carry) } else b.barrier j)
      ∧ s.arrive block i carry = ({ (s.setBlock block b') with
          reels := s.reels.mapVals fun _ r => if r.block = block then r.mapWaits (Wait.flip i) else r }, (b.barrier i).phase) := by
  let v := b.barrier i
  let b1 := b.setBarrier i { v with
    arrivals := 0, phase := v.phase + 1, waiters := 0, carry := []
    flipped := unionNew (v.flipped.filter fun sid => !s.storeGone sid) (unionNew v.carry carry) }
  refine ⟨{ b1 with seq := { b1.seq with wait := b1.seq.wait.map (SeqWait.flip i) } }, rfl, ?_, ?_⟩
  · intro j
    exact Block.barrier_setBarrier b i j _
  · unfold State.arrive
    simp only [hb, h, if_true]
    rfl

/-- Setting one semaphore of a block. -/
theorem Block.sem_setSem (b : Block) (m j : Nat) (value : Word → Word) (carry : List Nat) :
    (b.setSem m value carry).sem j = if j = m then ⟨value (b.sem m).value, unionNew (b.sem m).carry carry⟩ else b.sem j :=
  Map.findD_putD _ _ _ _ _

/-- An update of a semaphore: its new value and carry, and the waits of the block that are over. -/
theorem State.semUpdate_spec (s : State) (block m : Nat) (value : Word → Word) (carry : List Nat) (b : Block) (hb : s.blocks.find? block = some b) :
    ∃ b' : Block, b' = { b with sems := b'.sems }
      ∧ (∀ j, b'.sem j = if j = m then ⟨value (b.sem m).value, unionNew (b.sem m).carry carry⟩ else b.sem j)
      ∧ s.semUpdate block m value carry = { s with
          blocks := s.blocks.put block b'
          reels := s.reels.mapVals fun _ r => if r.block = block then r.mapWaits (Wait.semReady m (value (b.sem m).value)) else r } := by
  refine ⟨b.setSem m value carry, rfl, fun j => Block.sem_setSem b m j value carry, ?_⟩
  have hv : ((b.setSem m value carry).sems.findD Sem.zero m).value = value (b.sem m).value := by
    have := Block.sem_setSem b m m value carry
    rw [if_pos rfl] at this
    exact congrArg Sem.value this
  unfold State.semUpdate
  simp only [hb, hv]
  rfl

/-! ## Watches -/

/-- Disarming a slot: an armed one is reset but for its status, its deregistration is sent, and the block's launch waits for that to arrive. -/
theorem State.disarm_spec (s : State) (key slot : Nat) (r : Reel) (hr : s.reels.find? key = some r) :
    let w := r.watchSlot slot
    (w.state = .unarmed → s.disarm key slot = s) ∧
    (w.state ≠ .unarmed → s.disarm key slot = { s with
      reels := s.reels.put key (r.setWatch slot { WatchSlot.unarmed with status := w.status })
      msgs := s.msgs.put s.nextId ⟨domainOfCore (coreOfKey key), domainOfCore (coreOfKey key), coreOfKey key, false, .watch key slot w.reg w.va false⟩
      launches := match s.blocks.find? r.block with
        | some b => s.launches.adjust b.launch fun l => { l with leaving := l.leaving ++ [w.reg] }
        | none => s.launches
      nextId := s.nextId + 1 }) := by
  intro w
  constructor
  · intro h
    have h : (r.watches.findD WatchSlot.unarmed slot).state = .unarmed := h
    unfold State.disarm
    simp only [hr, h, if_true]
  · intro h
    have h : ¬ (r.watches.findD WatchSlot.unarmed slot).state = .unarmed := h
    unfold State.disarm
    simp only [hr, h, if_false]
    unfold State.onReel State.send
    cases hb : s.blocks.find? r.block with
    | none => simp only [Map.adjust_eq_put hr]; rfl
    | some b =>
      unfold State.onLaunch
      simp only [Map.adjust_eq_put hr]
      rfl

/-- Writing one watch slot of a reel. -/
theorem Reel.watchSlot_setWatch (r : Reel) (i j : Nat) (v : WatchSlot) : (r.setWatch i v).watchSlot j = if j = i then v else r.watchSlot j :=
  Map.findD_putD _ _ _ _ _

end Sys2Proof.Machine
end

