-- ==== Sys2Proof/Tests/Slice0.lean ====
section
/-! SUPPORT. Tests of this model's own: ill-formed words, decoding, states that meet the statements' hypotheses, and single steps. -/

namespace Sys2Proof.Tests

set_option Elab.async false

open Sys2Proof Sys2Proof.Machine Sys2Proof.Rows

/-! ## Ill-formed words, one for each check -/

theorem test_wf_uniform_operand : (Instr.iadd ⟨1, 1, 2, 64⟩).wf = false ∧ (Instr.iadd ⟨1, 1, 2, 63⟩).wf = true := by decide +kernel

theorem test_wf_pairs : (Instr.iadd64 ⟨0, 1, 2, 4⟩).wf = false ∧ (Instr.iadd64 ⟨0, 2, 3, 4⟩).wf = false ∧ (Instr.iadd64 ⟨0, 2, 4, 5⟩).wf = false
    ∧ (Instr.imulWideI ⟨0, 5, 3, 3⟩).wf = false ∧ (Instr.shl64 ⟨0, 2, 3, 1⟩).wf = false ∧ (Instr.fsqrtF64 ⟨1, 2⟩).wf = false
    ∧ (Instr.fabsF64 ⟨2, 1⟩).wf = false ∧ (Instr.shl64 ⟨0, 2, 4, 1⟩).wf = true := by decide +kernel

theorem test_wf_cmp : (Instr.cmp ⟨8, 2, 1, 0, 0, 1, 2⟩).wf = false ∧ (Instr.cmp ⟨6, 1, 1, 0, 0, 1, 2⟩).wf = false
    ∧ (Instr.cmp ⟨0, 3, 1, 0, 0, 1, 2⟩).wf = false ∧ (Instr.cmp ⟨0, 0, 1, 1, 0, 1, 64⟩).wf = false
    ∧ (Instr.cmp ⟨7, 2, 1, 0, 0, 1, 2⟩).wf = true := by decide +kernel

theorem test_wf_cvt : (Instr.cvtF32 ⟨1, 2, 0, 14⟩).wf = false ∧ (Instr.cvtF32 ⟨1, 2, 6, 4⟩).wf = false ∧ (Instr.cvtF64 ⟨1, 2, 0, 4⟩).wf = false
    ∧ (Instr.cvtI32 ⟨1, 3, 0, 5⟩).wf = false ∧ (Instr.cvtI32 ⟨1, 2, 5, 13⟩).wf = true := by decide +kernel

theorem test_wf_uniform : (Instr.uadd64 ⟨2, 4, 5⟩).wf = false ∧ (Instr.uadd64Imm ⟨3, 4, 5⟩).wf = false ∧ (Instr.ucmp ⟨1, 2, 6, 3⟩).wf = false
    ∧ (Instr.uadd64 ⟨2, 4, 6⟩).wf = true := by decide +kernel

theorem test_wf_special : (Instr.rdsr ⟨1, 0⟩).wf = false ∧ (Instr.rdsr ⟨1, 30⟩).wf = false ∧ (Instr.rdsrV ⟨1, 30⟩).wf = false
    ∧ (Instr.wrsr ⟨1, 20⟩).wf = false ∧ (Instr.wrsr ⟨1, 25⟩).wf = false ∧ (Instr.rdsrV ⟨1, 0⟩).wf = true ∧ (Instr.wrsr ⟨1, 21⟩).wf = true := by
  decide +kernel

theorem test_wf_access : (Instr.ldgB32 ⟨1, 1, 127, 1⟩).wf = false ∧ (Instr.ldgB64 ⟨1, 1, 3, 0⟩).wf = false ∧ (Instr.stgB128 ⟨2, 1, 3, 0⟩).wf = false
    ∧ (Instr.lduB64 ⟨1, 0⟩).wf = false ∧ (Instr.ldsB64Take ⟨1, 1, 3, 0⟩).wf = false ∧ (Instr.stsB128Put ⟨2, 1, 3, 0⟩).wf = false
    ∧ (Instr.ratomCas ⟨1, 1, 3, 0⟩).wf = false ∧ (Instr.rlds ⟨1, 1, 127, 2⟩).wf = false ∧ (Instr.stgB128 ⟨4, 1, 127, 0⟩).wf = true := by
  decide +kernel

theorem test_wf_atomics : (Instr.atomgAdd ⟨0, 0, 0, 1, 1, 3⟩).wf = false ∧ (Instr.atomgAdd ⟨0, 0, 1, 1, 1, 2⟩).wf = false
    ∧ (Instr.atomgAdd ⟨1, 0, 0, 0, 1, 2⟩).wf = false ∧ (Instr.atomgCas ⟨0, 0, 1, 1, 2, 2⟩).wf = false ∧ (Instr.atomgLd ⟨2, 0, 0, 1, 2⟩).wf = false
    ∧ (Instr.atomgSt ⟨1, 0, 0, 1, 2⟩).wf = false ∧ (Instr.atomgXadd ⟨1, 0, 1, 2⟩).wf = false ∧ (Instr.atomsAdd ⟨3, 0, 0, 1, 2⟩).wf = false
    ∧ (Instr.atomsCas ⟨0, 0, 1, 1, 2⟩).wf = false ∧ (Instr.atomgCas ⟨3, 3, 1, 1, 4, 2⟩).wf = true := by decide +kernel

theorem test_wf_sync : (Instr.fence ⟨3, 0⟩).wf = false ∧ (Instr.binit ⟨0, 1⟩).wf = false ∧ (Instr.binit ⟨34, 1⟩).wf = false
    ∧ (Instr.watch ⟨1, 3, 0⟩).wf = false ∧ (Instr.sloop ⟨1, 2, 0⟩).wf = false ∧ (Instr.sloop ⟨1, 2, 33⟩).wf = false
    ∧ (Instr.spost ⟨3, 0⟩).wf = false ∧ (Instr.waitm ⟨1, 3, 0, 0⟩).wf = false ∧ (Instr.binit ⟨33, 1⟩).wf = true := by decide +kernel

theorem test_wf_control : (Instr.jmpi ⟨3⟩).wf = false ∧ (Instr.ret ⟨63⟩).wf = false ∧ (Instr.calli ⟨0, 2⟩).wf = false ∧ (Instr.calli ⟨3, 2⟩).wf = false
    ∧ (Instr.calli ⟨2, 3⟩).wf = false ∧ (Instr.hget ⟨1, 3, 0⟩).wf = false ∧ (Instr.hldone ⟨1, 3⟩).wf = false ∧ (Instr.resumeDrop ⟨1, 3⟩).wf = false
    ∧ (Instr.kill ⟨1, 3⟩).wf = false ∧ (Instr.launch ⟨1, 3, 0⟩).wf = false ∧ (Instr.layset ⟨1, 3⟩).wf = false ∧ (Instr.calli ⟨62, 20⟩).wf = true := by
  decide +kernel

theorem test_wf_streams : (Instr.gath ⟨1, 63, 0, 0⟩).wf = false ∧ (Instr.scat ⟨63, 1, 0, 0⟩).wf = false ∧ (Instr.mclaim ⟨1, 15, 1⟩).wf = false
    ∧ (Instr.mrel ⟨0, 31, 1⟩).wf = false ∧ (Instr.mload ⟨0, 0, 7, 0, 0, 0⟩).wf = false ∧ (Instr.mload ⟨0, 0, 6, 1, 0, 0⟩).wf = false
    ∧ (Instr.mtadd ⟨0, 0, 3, 0, 0⟩).wf = false ∧ (Instr.mma ⟨0, 0, 0, 4⟩).wf = false ∧ (Instr.mmas ⟨0, 0, 31, 0, 0, 0⟩).wf = false
    ∧ (Instr.mzero ⟨0, 3⟩).wf = false ∧ (Instr.mstore ⟨0, 0, 7, 0, 0, 0⟩).wf = false ∧ (Instr.mstore ⟨0, 0, 0, 5, 0, 0⟩).wf = false
    ∧ (Instr.mclaim ⟨1, 15, 0⟩).wf = true ∧ (Instr.mmas ⟨0, 0, 30, 0, 0, 0⟩).wf = true := by decide +kernel

/-! ## Words that the spec's listings write out, with what stands beside them (02, 07, 12, 16, 17) -/

theorem test_decode_listing_registers :
    decode 0x04004103 = .ok (.iadd ⟨0, 1, 2, 3⟩) ∧ decode 0x07210308 = .ok (.iadd64 ⟨1, 4, 6, 8⟩) ∧ decode 0x07C28184 = .ok (.imulWideZ ⟨0, 10, 3, 4⟩)
    ∧ decode 0x0C0307FF = .ok (.iaddi ⟨3, 3, 0x1FF⟩) ∧ decode 0x0E050A03 = .ok (.shli ⟨5, 5, 3⟩) ∧ decode 0x0F890078 = .ok (.movi ⟨9, 0x78⟩)
    ∧ decode 0x10A40082 = .ok (.cmp ⟨2, 2, 2, 0, 0, 1, 2⟩) ∧ decode 0x20810103 = .ok (.fmulF32 ⟨0, 4, 2, 3⟩)
    ∧ decode 0x2C808080 = .ok (.fsqrtF32 ⟨2, 1⟩) ∧ decode 0x40061A10 = .ok (.uaddImm ⟨6, 6, 16⟩) ∧ decode 0x42CF0201 = .ok (.umovImm ⟨15, 1⟩)
    ∧ decode 0x434720C9 = .ok (.ucmp ⟨7, 8, 3, 9⟩) ∧ decode 0x48000000 = .ok (.rdsrV ⟨0, 0⟩) ∧ decode 0x48228012 = .ok (.rdsr ⟨10, 18⟩)
    ∧ decode 0x48400295 = .ok (.wrsr ⟨5, 21⟩) ∧ decode 0x48830000 = .ok (.vsetx ⟨12, 0⟩) := by decide +kernel

theorem test_decode_listing_accesses :
    decode 0x4D008802 = .ok (.ldgB32 ⟨1, 2, 0, 2⟩) ∧ decode 0x4E0207F8 = .ok (.lduB64 ⟨4, 1⟩) ∧ decode 0x4DC707F8 = .ok (.lduB32 ⟨14, 1⟩)
    ∧ decode 0x50811002 = .ok (.stgB32 ⟨2, 4, 0, 2⟩) ∧ decode 0x680FFFC0 = .ok (.waitc ⟨0, 63, 15, 15⟩) ∧ decode 0x8C020A05 = .ok (.hget ⟨8, 20, 5⟩)
    ∧ decode 0x8C224A03 = .ok (.hset ⟨9, 20, 3⟩) ∧ decode 0x8C428A00 = .ok (.hldone ⟨10, 20⟩) ∧ decode 0x8C618A01 = .ok (.resumeDrop ⟨6, 20⟩)
    ∧ decode 0x8C818A00 = .ok (.kill ⟨6, 20⟩) := by decide +kernel

theorem test_decode_listing_control :
    decode 0x80BFFFFD = .ok (.braAny ⟨3, 0xFFFFD⟩) ∧ decode 0x82200010 = .ok (.braDiv ⟨2, 0x10⟩) ∧ decode 0x82800040 = .ok (.call ⟨0x40⟩)
    ∧ decode 0x84000A00 = .ok (.jmpi ⟨20⟩) ∧ decode 0x842F8A00 = .ok (.calli ⟨62, 20⟩) ∧ decode 0x84401F00 = .ok (.ret ⟨62⟩)
    ∧ decode 0x84A00000 = .ok .nop ∧ decode 0x84C00000 = .ok .exit ∧ decode 0x88000005 = .ok (.trap ⟨5⟩) := by decide +kernel

theorem test_decode_refuses : decode 0 = .error .voidWord ∧ decode 0x84C00001 = .error .unusedFieldNotZero ∧ decode 0x03FFFFFF = .error .voidWord := by
  decide +kernel

/-! ## A word of every row of the opcode table, put together from its fixed bits and from values of its fields -/

theorem test_decode_01_a :
    decode 0x041BA3ED = .ok (.iadd ⟨0, 110, 71, 109⟩)
    ∧ decode 0x0478DDB9 = .ok (.isub ⟨1, 99, 59, 57⟩)
    ∧ decode 0x04BB6598 = .ok (.imul ⟨1, 109, 75, 24⟩)
    ∧ decode 0x04D9A0BC = .ok (.imulhI ⟨0, 102, 65, 60⟩)
    ∧ decode 0x0533B297 = .ok (.imulhZ ⟨1, 78, 101, 23⟩)
    ∧ decode 0x054E5312 = .ok (.iminI ⟨0, 57, 38, 18⟩)
    ∧ decode 0x059133F1 = .ok (.imaxI ⟨0, 68, 103, 113⟩)
    ∧ decode 0x05F442CC = .ok (.iminZ ⟨1, 81, 5, 76⟩)
    ∧ decode 0x062CBDB9 = .ok (.imaxZ ⟨1, 50, 123, 57⟩)
    ∧ decode 0x0654EF00 = .ok (.iabs ⟨83, 94⟩)
    ∧ decode 0x06B4CA4F = .ok (.iaddSatI ⟨1, 83, 20, 79⟩)
    ∧ decode 0x06DAA188 = .ok (.isubSatI ⟨0, 106, 67, 8⟩) := by decide +kernel

theorem test_decode_01_b :
    decode 0x07010C70 = .ok (.iadd64 ⟨0, 4, 24, 112⟩)
    ∧ decode 0x075301E3 = .ok (.isub64 ⟨0, 76, 3, 99⟩)
    ∧ decode 0x078A5C4B = .ok (.imulWideI ⟨0, 41, 56, 75⟩)
    ∧ decode 0x07E6611D = .ok (.imulWideZ ⟨1, 25, 66, 29⟩) := by decide +kernel

theorem test_decode_02_a :
    decode 0x08295F80 = .ok (.and ⟨1, 37, 63, 0⟩)
    ∧ decode 0x08629D53 = .ok (.or ⟨1, 10, 58, 83⟩)
    ∧ decode 0x088D3FC6 = .ok (.xor ⟨0, 52, 127, 70⟩)
    ∧ decode 0x08FDF58A = .ok (.andn ⟨1, 119, 107, 10⟩)
    ∧ decode 0x09281461 = .ok (.shl ⟨1, 32, 40, 97⟩)
    ∧ decode 0x09505203 = .ok (.shr ⟨0, 65, 36, 3⟩)
    ∧ decode 0x0992310D = .ok (.sar ⟨0, 72, 98, 13⟩)
    ∧ decode 0x09C37625 = .ok (.rotl ⟨0, 13, 108, 37⟩)
    ∧ decode 0x0A023D02 = .ok (.shl64 ⟨0, 8, 122, 2⟩)
    ∧ decode 0x0A75C01B = .ok (.shr64 ⟨1, 87, 0, 27⟩)
    ∧ decode 0x0A86BB00 = .ok (.popc ⟨26, 118⟩)
    ∧ decode 0x0ADD0300 = .ok (.clz ⟨116, 6⟩) := by decide +kernel

theorem test_decode_02_b :
    decode 0x0B0F1800 = .ok (.brev ⟨60, 48⟩)
    ∧ decode 0x0B769935 = .ok (.bfxZ ⟨1, 90, 50, 53⟩)
    ∧ decode 0x0B922819 = .ok (.bfxI ⟨0, 72, 80, 25⟩)
    ∧ decode 0x0BF5912B = .ok (.bfi ⟨1, 86, 34, 43⟩) := by decide +kernel

theorem test_decode_03 :
    decode 0x0C0B4EAA = .ok (.iaddi ⟨11, 39, 170⟩)
    ∧ decode 0x0C81F6D1 = .ok (.andi ⟨1, 123, 209⟩)
    ∧ decode 0x0D61EC3C = .ok (.ori ⟨97, 118, 60⟩)
    ∧ decode 0x0D913F69 = .ok (.xori ⟨17, 31, 361⟩)
    ∧ decode 0x0E0C0201 = .ok (.shli ⟨12, 1, 1⟩)
    ∧ decode 0x0EBBCC0F = .ok (.shri ⟨59, 102, 15⟩)
    ∧ decode 0x0F16AE11 = .ok (.sari ⟨22, 87, 17⟩)
    ∧ decode 0x0F9800E5 = .ok (.movi ⟨24, 229⟩) := by decide +kernel

theorem test_decode_04 :
    decode 0x120FC835 = .ok (.cmp ⟨8, 0, 7, 1, 3, 16, 53⟩) := by decide +kernel

theorem test_decode_05 :
    decode 0x14AC4732 = .ok (.sel ⟨5, 49, 14, 50⟩)
    ∧ decode 0x150D7F00 = .ok (.mov ⟨53, 126⟩) := by decide +kernel

theorem test_decode_06 :
    decode 0x1806C022 = .ok (.shflIdx ⟨27, 0, 34⟩)
    ∧ decode 0x183BBE7C = .ok (.shflUp ⟨110, 124, 124⟩)
    ∧ decode 0x1859A5A6 = .ok (.shflDown ⟨102, 75, 38⟩)
    ∧ decode 0x187FF882 = .ok (.shflXor ⟨127, 113, 2⟩)
    ∧ decode 0x1925C000 = .ok (.kprefix ⟨1, 23⟩)
    ∧ decode 0x1A00FF80 = .ok (.ballot ⟨3, 127⟩)
    ∧ decode 0x1B0DA694 = .ok (.lrd ⟨54, 77, 20⟩)
    ∧ decode 0x1B090642 = .ok (.lrdS ⟨36, 12, 2⟩) := by decide +kernel

theorem test_decode_07 :
    decode 0x1C01C081 = .ok (.kand ⟨7, 1, 1⟩)
    ∧ decode 0x1C20C100 = .ok (.kor ⟨3, 2, 0⟩)
    ∧ decode 0x1C418202 = .ok (.kxor ⟨6, 4, 2⟩)
    ∧ decode 0x1C618100 = .ok (.knot ⟨6, 2⟩)
    ∧ decode 0x1C80C200 = .ok (.kmovKs ⟨3, 4⟩)
    ∧ decode 0x1CA10000 = .ok (.kmovSk ⟨4, 0⟩)
    ∧ decode 0x1CC34200 = .ok (.kpopc ⟨13, 4⟩)
    ∧ decode 0x1CEA0080 = .ok (.kffs ⟨40, 1⟩) := by decide +kernel

theorem test_decode_08 :
    decode 0x201317AF = .ok (.faddF32 ⟨0, 76, 47, 47⟩)
    ∧ decode 0x206E887A = .ok (.fsubF32 ⟨1, 58, 16, 122⟩)
    ∧ decode 0x20AF7549 = .ok (.fmulF32 ⟨1, 61, 106, 73⟩)
    ∧ decode 0x20DB9897 = .ok (.ffmaF32 ⟨0, 110, 49, 23⟩)
    ∧ decode 0x2124D3F4 = .ok (.ffmsF32 ⟨1, 19, 39, 116⟩)
    ∧ decode 0x215A271F = .ok (.fnmaF32 ⟨0, 104, 78, 31⟩)
    ∧ decode 0x21A60A5E = .ok (.fminF32 ⟨1, 24, 20, 94⟩)
    ∧ decode 0x21FE2319 = .ok (.fmaxF32 ⟨1, 120, 70, 25⟩)
    ∧ decode 0x2215FC80 = .ok (.fabsF32 ⟨87, 121⟩)
    ∧ decode 0x224C7800 = .ok (.fnegF32 ⟨49, 112⟩)
    ∧ decode 0x22934535 = .ok (.fcsgnF32 ⟨0, 77, 10, 53⟩) := by decide +kernel

theorem test_decode_09 :
    decode 0x24034684 = .ok (.faddF64 ⟨0, 13, 13, 4⟩)
    ∧ decode 0x247ED01E = .ok (.fsubF64 ⟨1, 123, 32, 30⟩)
    ∧ decode 0x24B69920 = .ok (.fmulF64 ⟨1, 90, 50, 32⟩)
    ∧ decode 0x24DA79CC = .ok (.ffmaF64 ⟨0, 105, 115, 76⟩)
    ∧ decode 0x25096116 = .ok (.ffmsF64 ⟨0, 37, 66, 22⟩)
    ∧ decode 0x25773E88 = .ok (.fnmaF64 ⟨1, 92, 125, 8⟩)
    ∧ decode 0x25875EC7 = .ok (.fminF64 ⟨0, 29, 61, 71⟩)
    ∧ decode 0x25FB674E = .ok (.fmaxF64 ⟨1, 109, 78, 78⟩)
    ∧ decode 0x26025180 = .ok (.fabsF64 ⟨9, 35⟩)
    ∧ decode 0x2646FA80 = .ok (.fnegF64 ⟨27, 117⟩)
    ∧ decode 0x26A6AF82 = .ok (.fcsgnF64 ⟨1, 26, 95, 2⟩) := by decide +kernel

theorem test_decode_0a :
    decode 0x28089A39 = .ok (.haddF16 ⟨0, 34, 52, 57⟩)
    ∧ decode 0x2841C296 = .ok (.hmulF16 ⟨0, 7, 5, 22⟩)
    ∧ decode 0x288BE1C9 = .ok (.hfmaF16 ⟨0, 47, 67, 73⟩)
    ∧ decode 0x28E405AE = .ok (.hminF16 ⟨1, 16, 11, 46⟩)
    ∧ decode 0x291C9CFD = .ok (.hmaxF16 ⟨0, 114, 57, 125⟩)
    ∧ decode 0x2A152ED8 = .ok (.haddBf16 ⟨0, 84, 93, 88⟩)
    ∧ decode 0x2A72BC91 = .ok (.hmulBf16 ⟨1, 74, 121, 17⟩)
    ∧ decode 0x2AA13B02 = .ok (.hfmaBf16 ⟨1, 4, 118, 2⟩)
    ∧ decode 0x2ADD16D9 = .ok (.hminBf16 ⟨0, 116, 45, 89⟩)
    ∧ decode 0x2B1EC202 = .ok (.hmaxBf16 ⟨0, 123, 4, 2⟩) := by decide +kernel

theorem test_decode_0b_a :
    decode 0x2C132880 = .ok (.frcpF32 ⟨76, 81⟩)
    ∧ decode 0x2C425E80 = .ok (.frsqF32 ⟨9, 61⟩)
    ∧ decode 0x2C822E80 = .ok (.fsqrtF32 ⟨8, 93⟩)
    ∧ decode 0x2CC9D400 = .ok (.fexp2F32 ⟨39, 40⟩)
    ∧ decode 0x2D047F80 = .ok (.flog2F32 ⟨17, 127⟩)
    ∧ decode 0x2D424480 = .ok (.ffloorF32 ⟨9, 9⟩)
    ∧ decode 0x2D8E6280 = .ok (.fceilF32 ⟨57, 69⟩)
    ∧ decode 0x2DCBEF00 = .ok (.ftruncF32 ⟨47, 94⟩)
    ∧ decode 0x2E017980 = .ok (.frintF32 ⟨5, 115⟩)
    ∧ decode 0x2E5DEF00 = .ok (.fclassF32 ⟨119, 94⟩)
    ∧ decode 0x2EB68865 = .ok (.fdivF32 ⟨1, 90, 16, 101⟩)
    ∧ decode 0x2EDEFA80 = .ok (.fsqrtF64 ⟨123, 117⟩) := by decide +kernel

theorem test_decode_0b_b :
    decode 0x2F0AD680 = .ok (.frcpF64 ⟨43, 45⟩)
    ∧ decode 0x2F55DE73 = .ok (.fdivF64 ⟨0, 87, 60, 115⟩) := by decide +kernel

theorem test_decode_0c_a :
    decode 0x300277E6 = .ok (.cvtI32 ⟨9, 111, 6, 6⟩)
    ∧ decode 0x305E328D = .ok (.cvtZ32 ⟨120, 101, 0, 13⟩)
    ∧ decode 0x308FE489 = .ok (.cvtI64 ⟨63, 73, 0, 9⟩)
    ∧ decode 0x30D51839 = .ok (.cvtZ64 ⟨84, 48, 3, 9⟩)
    ∧ decode 0x31006681 = .ok (.cvtF32 ⟨1, 77, 0, 1⟩)
    ∧ decode 0x3142E88F = .ok (.cvtF64 ⟨11, 81, 0, 15⟩)
    ∧ decode 0x3188383B = .ok (.cvtF16 ⟨32, 112, 3, 11⟩)
    ∧ decode 0x31CA98FB = .ok (.cvtBf16 ⟨42, 49, 7, 11⟩)
    ∧ decode 0x32162537 = .ok (.cvtE4m3 ⟨88, 74, 3, 7⟩)
    ∧ decode 0x324EF5C1 = .ok (.cvtE5m2 ⟨59, 107, 4, 1⟩)
    ∧ decode 0x3290B040 = .ok (.cvtI8 ⟨66, 96, 4, 0⟩)
    ∧ decode 0x32C9E607 = .ok (.cvtZ8 ⟨39, 76, 0, 7⟩) := by decide +kernel

theorem test_decode_0c_b :
    decode 0x33008EFB = .ok (.cvtI16 ⟨2, 29, 7, 11⟩)
    ∧ decode 0x33439FE9 = .ok (.cvtZ16 ⟨14, 63, 6, 9⟩) := by decide +kernel

theorem test_decode_10_a :
    decode 0x402AE81F = .ok (.uadd ⟨42, 58, 31⟩)
    ∧ decode 0x4010E605 = .ok (.uaddImm ⟨16, 57, 5⟩)
    ∧ decode 0x40574C09 = .ok (.usub ⟨23, 19, 9⟩)
    ∧ decode 0x406B9E67 = .ok (.usubImm ⟨43, 39, 103⟩)
    ∧ decode 0x40A12830 = .ok (.umul ⟨33, 10, 48⟩)
    ∧ decode 0x40B95751 = .ok (.umulImm ⟨57, 21, 337⟩)
    ∧ decode 0x40FB701F = .ok (.uand ⟨59, 28, 31⟩)
    ∧ decode 0x40F93EA7 = .ok (.uandImm ⟨57, 15, 167⟩)
    ∧ decode 0x4119A810 = .ok (.uor ⟨25, 42, 16⟩)
    ∧ decode 0x410CA2DC = .ok (.uorImm ⟨12, 40, 220⟩)
    ∧ decode 0x4173CC30 = .ok (.uxor ⟨51, 51, 48⟩)
    ∧ decode 0x417A33C2 = .ok (.uxorImm ⟨58, 12, 450⟩) := by decide +kernel

theorem test_decode_10_b :
    decode 0x418D600E = .ok (.ushl ⟨13, 24, 14⟩)
    ∧ decode 0x41A5EAA2 = .ok (.ushlImm ⟨37, 58, 162⟩)
    ∧ decode 0x41CD2008 = .ok (.ushr ⟨13, 8, 8⟩)
    ∧ decode 0x41DF5BAC = .ok (.ushrImm ⟨31, 22, 428⟩)
    ∧ decode 0x4239D802 = .ok (.usar ⟨57, 54, 2⟩)
    ∧ decode 0x422D13E6 = .ok (.usarImm ⟨45, 4, 486⟩)
    ∧ decode 0x427E4434 = .ok (.uminI ⟨62, 17, 52⟩)
    ∧ decode 0x424A1EE6 = .ok (.uminIImm ⟨10, 7, 230⟩)
    ∧ decode 0x429E443B = .ok (.umaxI ⟨30, 17, 59⟩)
    ∧ decode 0x428DD6D3 = .ok (.umaxIImm ⟨13, 53, 211⟩)
    ∧ decode 0x42D8A000 = .ok (.umov ⟨24, 40⟩)
    ∧ decode 0x42E102FC = .ok (.umovImm ⟨33, 252⟩) := by decide +kernel

theorem test_decode_10_c :
    decode 0x432B502D = .ok (.uadd64 ⟨43, 20, 45⟩)
    ∧ decode 0x4335D7F6 = .ok (.uadd64Imm ⟨53, 53, 502⟩)
    ∧ decode 0x43677084 = .ok (.ucmp ⟨39, 28, 2, 4⟩) := by decide +kernel

theorem test_decode_12 :
    decode 0x481A8004 = .ok (.rdsrV ⟨106, 4⟩)
    ∧ decode 0x4824406F = .ok (.rdsr ⟨17, 111⟩)
    ∧ decode 0x48401305 = .ok (.wrsr ⟨38, 5⟩)
    ∧ decode 0x48759680 = .ok (.vgetx ⟨86, 45⟩)
    ∧ decode 0x48846480 = .ok (.vsetx ⟨17, 73⟩) := by decide +kernel

theorem test_decode_13 :
    decode 0x4C16A69E = .ok (.ldgZ8 ⟨45, 9, 83, 6⟩)
    ∧ decode 0x4C640291 = .ok (.ldgI8 ⟨72, 0, 82, 1⟩)
    ∧ decode 0x4C99B8C0 = .ok (.ldgZ16 ⟨51, 14, 24, 0⟩)
    ∧ decode 0x4CF16911 = .ok (.ldgI16 ⟨98, 26, 34, 1⟩)
    ∧ decode 0x4D319328 = .ok (.ldgB32 ⟨99, 4, 101, 0⟩)
    ∧ decode 0x4D7ED073 = .ok (.ldgB64 ⟨125, 20, 14, 3⟩)
    ∧ decode 0x4D86D225 = .ok (.ldgB128 ⟨13, 20, 68, 5⟩)
    ∧ decode 0x4DD467F8 = .ok (.lduB32 ⟨40, 25⟩)
    ∧ decode 0x4E0BFBF8 = .ok (.lduB64 ⟨23, 30⟩) := by decide +kernel

theorem test_decode_14 :
    decode 0x5004D4C9 = .ok (.stgB8 ⟨9, 21, 25, 1⟩)
    ∧ decode 0x5074BD01 = .ok (.stgB16 ⟨105, 15, 32, 1⟩)
    ∧ decode 0x50AD8303 = .ok (.stgB32 ⟨91, 0, 96, 3⟩)
    ∧ decode 0x50E25821 = .ok (.stgB64 ⟨68, 22, 4, 1⟩)
    ∧ decode 0x510E231A = .ok (.stgB128 ⟨28, 8, 99, 2⟩) := by decide +kernel

theorem test_decode_15 :
    decode 0x5422DBCC = .ok (.ldsZ16 ⟨69, 22, 121, 4⟩)
    ∧ decode 0x55204FFE = .ok (.ldsB32 ⟨64, 19, 127, 6⟩)
    ∧ decode 0x554A3366 = .ok (.ldsB32Wfull ⟨20, 12, 108, 6⟩)
    ∧ decode 0x55ACF0E0 = .ok (.ldsB32Take ⟨89, 28, 28, 0⟩)
    ∧ decode 0x561A7795 = .ok (.ldsB64 ⟨52, 29, 114, 5⟩)
    ∧ decode 0x565891CB = .ok (.ldsB64Wfull ⟨49, 4, 57, 3⟩)
    ∧ decode 0x568CD38F = .ok (.ldsB64Take ⟨25, 20, 113, 7⟩)
    ∧ decode 0x57003234 = .ok (.ldsB128 ⟨0, 12, 70, 4⟩)
    ∧ decode 0x5769F206 = .ok (.ldsB128Wfull ⟨83, 28, 64, 6⟩)
    ∧ decode 0x57B4795B = .ok (.ldsB128Take ⟨104, 30, 43, 3⟩) := by decide +kernel

theorem test_decode_16_a :
    decode 0x5814D3E9 = .ok (.stsB16 ⟨41, 20, 125, 1⟩)
    ∧ decode 0x59065F76 = .ok (.stsB32 ⟨12, 23, 110, 6⟩)
    ∧ decode 0x597353B5 = .ok (.stsB32Put ⟨102, 20, 118, 5⟩)
    ∧ decode 0x598798FF = .ok (.stsB32Fill ⟨15, 6, 31, 7⟩)
    ∧ decode 0x59D8FC5F = .ok (.stsB32Drain ⟨49, 31, 11, 7⟩)
    ∧ decode 0x5A13C7EE = .ok (.stsB64 ⟨39, 17, 125, 6⟩)
    ∧ decode 0x5A7BA90F = .ok (.stsB64Put ⟨119, 10, 33, 7⟩)
    ∧ decode 0x5AADEC12 = .ok (.stsB64Fill ⟨91, 27, 2, 2⟩)
    ∧ decode 0x5AE00823 = .ok (.stsB64Drain ⟨64, 2, 4, 3⟩)
    ∧ decode 0x5B15C5AE = .ok (.stsB128 ⟨43, 17, 53, 6⟩)
    ∧ decode 0x5B51BFA8 = .ok (.stsB128Put ⟨35, 15, 117, 0⟩)
    ∧ decode 0x5B8DE778 = .ok (.stsB128Fill ⟨27, 25, 111, 0⟩) := by decide +kernel

theorem test_decode_16_b :
    decode 0x5BDB6421 = .ok (.stsB128Drain ⟨54, 25, 4, 1⟩) := by decide +kernel

theorem test_decode_17_a :
    decode 0x5C273A91 = .ok (.atomgAdd ⟨2, 1, 1, 1, 117, 17⟩)
    ∧ decode 0x5C5339DC = .ok (.atomgFadd ⟨1, 0, 1, 1, 115, 92⟩)
    ∧ decode 0x5CAF1C79 = .ok (.atomgMinI ⟨2, 3, 1, 1, 56, 121⟩)
    ∧ decode 0x5CF72C0B = .ok (.atomgMaxI ⟨3, 1, 1, 1, 88, 11⟩)
    ∧ decode 0x5D3123A5 = .ok (.atomgMinZ ⟨3, 0, 0, 1, 71, 37⟩)
    ∧ decode 0x5D7B0AC2 = .ok (.atomgMaxZ ⟨3, 2, 1, 1, 21, 66⟩)
    ∧ decode 0x5DAF1027 = .ok (.atomgAnd ⟨2, 3, 1, 1, 32, 39⟩)
    ∧ decode 0x5DE737F3 = .ok (.atomgOr ⟨2, 1, 1, 1, 111, 115⟩)
    ∧ decode 0x5E21097B = .ok (.atomgXor ⟨2, 0, 0, 1, 18, 123⟩)
    ∧ decode 0x5E691F99 = .ok (.atomgExch ⟨2, 2, 0, 1, 63, 25⟩)
    ∧ decode 0x5E99004D = .ok (.atomgCas ⟨1, 2, 0, 1, 0, 77⟩)
    ∧ decode 0x5ED33E05 = .ok (.atomgLd ⟨1, 0, 1, 124, 5⟩) := by decide +kernel

theorem test_decode_17_b :
    decode 0x5F2C22E6 = .ok (.atomgSt ⟨2, 3, 0, 69, 102⟩)
    ∧ decode 0x5F7807BE = .ok (.atomgXadd ⟨3, 2, 15, 62⟩) := by decide +kernel

theorem test_decode_18 :
    decode 0x60020477 = .ok (.atomsAdd ⟨0, 1, 0, 8, 119⟩)
    ∧ decode 0x60603AFA = .ok (.atomsFadd ⟨2, 0, 0, 117, 122⟩)
    ∧ decode 0x60B2111F = .ok (.atomsMinI ⟨3, 1, 0, 34, 31⟩)
    ∧ decode 0x60D015B7 = .ok (.atomsMaxI ⟨1, 0, 0, 43, 55⟩)
    ∧ decode 0x613339F5 = .ok (.atomsMinZ ⟨3, 1, 1, 115, 117⟩)
    ∧ decode 0x61520698 = .ok (.atomsMaxZ ⟨1, 1, 0, 13, 24⟩)
    ∧ decode 0x61923B21 = .ok (.atomsAnd ⟨1, 1, 0, 118, 33⟩)
    ∧ decode 0x61C33E82 = .ok (.atomsOr ⟨0, 1, 1, 125, 2⟩)
    ∧ decode 0x62000E81 = .ok (.atomsXor ⟨0, 0, 0, 29, 1⟩)
    ∧ decode 0x62602E2D = .ok (.atomsExch ⟨2, 0, 0, 92, 45⟩)
    ∧ decode 0x628206BF = .ok (.atomsCas ⟨0, 1, 0, 13, 63⟩) := by decide +kernel

theorem test_decode_19 :
    decode 0x6400000A = .ok (.fence ⟨2, 2⟩)
    ∧ decode 0x64200000 = .ok (.ifence) := by decide +kernel

theorem test_decode_1a :
    decode 0x687DA240 = .ok (.waitc ⟨7, 54, 8, 9⟩) := by decide +kernel

theorem test_decode_1b :
    decode 0x6C08000B = .ok (.binit ⟨32, 11⟩)
    ∧ decode 0x6C23000B = .ok (.barrive ⟨12, 11⟩)
    ∧ decode 0x6C485C06 = .ok (.bwait ⟨33, 56, 6⟩)
    ∧ decode 0x6C600000 = .ok (.bsync ⟨0⟩)
    ∧ decode 0x6C800C14 = .ok (.semset ⟨24, 20⟩)
    ∧ decode 0x6CA00D70 = .ok (.semadd ⟨26, 3, 16⟩)
    ∧ decode 0x6CC01391 = .ok (.semwait ⟨39, 0, 17⟩)
    ∧ decode 0x6CE35B81 = .ok (.watch ⟨13, 55, 1⟩)
    ∧ decode 0x6CE89402 = .ok (.watchSpad ⟨34, 40, 0⟩)
    ∧ decode 0x6D084680 = .ok (.park ⟨33, 13⟩)
    ∧ decode 0x6D200001 = .ok (.unwatch ⟨1⟩) := by decide +kernel

theorem test_decode_1c :
    decode 0x700893CB = .ok (.sloop ⟨34, 39, 75⟩)
    ∧ decode 0x702D8000 = .ok (.siter ⟨54⟩)
    ∧ decode 0x7040041D = .ok (.stadv ⟨8, 29⟩)
    ∧ decode 0x70601D5E = .ok (.stjmp ⟨58, 94⟩)
    ∧ decode 0x70801467 = .ok (.waitl ⟨40, 103⟩)
    ∧ decode 0x70A00000 = .ok (.sdone)
    ∧ decode 0x70C00000 = .ok (.send)
    ∧ decode 0x70E00B03 = .ok (.spost ⟨22, 3⟩)
    ∧ decode 0x7102CA05 = .ok (.waitm ⟨11, 20, 1, 1⟩)
    ∧ decode 0x712E5D80 = .ok (.sread ⟨57, 59⟩) := by decide +kernel

theorem test_decode_1d :
    decode 0x74030680 = .ok (.layset ⟨12, 13⟩)
    ∧ decode 0x740C5F81 = .ok (.laysetSpad ⟨49, 63⟩)
    ∧ decode 0x74231C04 = .ok (.cpy ⟨12, 56, 0, 4⟩)
    ∧ decode 0x744E0797 = .ok (.gath ⟨56, 15, 0, 23⟩)
    ∧ decode 0x74614823 = .ok (.scat ⟨5, 16, 1, 3⟩)
    ∧ decode 0x7486DA80 = .ok (.mstart ⟨27, 53⟩)
    ∧ decode 0x74BE0D08 = .ok (.accget ⟨120, 26, 8⟩)
    ∧ decode 0x74AC804B = .ok (.accgetSt ⟨50, 11⟩)
    ∧ decode 0x74C40606 = .ok (.accput ⟨16, 12, 6⟩) := by decide +kernel

theorem test_decode_1e :
    decode 0x78285730 = .ok (.rlds ⟨80, 21, 102, 0⟩)
    ∧ decode 0x78461A45 = .ok (.rldsWfull ⟨12, 6, 72, 5⟩)
    ∧ decode 0x7896F74F = .ok (.rldsTake ⟨45, 29, 105, 7⟩)
    ∧ decode 0x79170ED4 = .ok (.rsts ⟨46, 3, 90, 4⟩)
    ∧ decode 0x7968E15C = .ok (.rstsPut ⟨81, 24, 43, 4⟩)
    ∧ decode 0x79BFD751 = .ok (.rstsFill ⟨127, 21, 106, 1⟩)
    ∧ decode 0x79F309E8 = .ok (.rstsDrain ⟨102, 2, 61, 0⟩)
    ∧ decode 0x7A01870C = .ok (.ratomAdd ⟨3, 1, 97, 4⟩)
    ∧ decode 0x7A67439C = .ok (.ratomExch ⟨78, 16, 115, 4⟩)
    ∧ decode 0x7A9E90C1 = .ok (.ratomCas ⟨61, 4, 24, 1⟩)
    ∧ decode 0x7AC718B6 = .ok (.ratomOr ⟨14, 6, 22, 6⟩) := by decide +kernel

theorem test_decode_20 :
    decode 0x80028747 = .ok (.bra ⟨165703⟩)
    ∧ decode 0x80F4878E = .ok (.braAny ⟨7, 296846⟩)
    ∧ decode 0x817AC45A = .ok (.braAll ⟨7, 705626⟩)
    ∧ decode 0x818946C6 = .ok (.braNone ⟨0, 607942⟩)
    ∧ decode 0x820226B5 = .ok (.braDiv ⟨0, 140981⟩)
    ∧ decode 0x828F3952 = .ok (.call ⟨997714⟩) := by decide +kernel

theorem test_decode_21 :
    decode 0x84001580 = .ok (.jmpi ⟨43⟩)
    ∧ decode 0x84274200 = .ok (.calli ⟨29, 4⟩)
    ∧ decode 0x84401800 = .ok (.ret ⟨48⟩)
    ∧ decode 0x84600000 = .ok (.join)
    ∧ decode 0x84800000 = .ok (.yield)
    ∧ decode 0x84A00000 = .ok (.nop)
    ∧ decode 0x84C00000 = .ok (.exit) := by decide +kernel

theorem test_decode_22 :
    decode 0x8800000C = .ok (.trap ⟨12⟩)
    ∧ decode 0x88200000 = .ok (.tretRetry)
    ∧ decode 0x88200001 = .ok (.tretSkip)
    ∧ decode 0x88400000 = .ok (.brk) := by decide +kernel

theorem test_decode_23 :
    decode 0x8C0A4CBB = .ok (.hget ⟨41, 25, 59⟩)
    ∧ decode 0x8C2D902D = .ok (.hset ⟨54, 32, 45⟩)
    ∧ decode 0x8C4DC680 = .ok (.hldone ⟨55, 13⟩)
    ∧ decode 0x8C698B80 = .ok (.resumeContinue ⟨38, 23⟩)
    ∧ decode 0x8C601401 = .ok (.resumeDrop ⟨0, 40⟩)
    ∧ decode 0x8C6B0102 = .ok (.resumeRetry ⟨44, 2⟩)
    ∧ decode 0x8C8D8600 = .ok (.kill ⟨54, 12⟩) := by decide +kernel

theorem test_decode_24 :
    decode 0x9002CD01 = .ok (.launch ⟨11, 26, 1⟩)
    ∧ decode 0x9025D780 = .ok (.lstat ⟨23, 47⟩) := by decide +kernel

theorem test_decode_30 :
    decode 0xC00CE800 = .ok (.mclaim ⟨0, 12, 29⟩)
    ∧ decode 0xC0532800 = .ok (.mrel ⟨0, 19, 5⟩)
    ∧ decode 0xC0870638 = .ok (.mload ⟨3, 32, 6, 0, 0, 14⟩)
    ∧ decode 0xC0C59EC0 = .ok (.mloadp ⟨2, 51, 1, 11⟩)
    ∧ decode 0xC13B7FE0 = .ok (.mtadd ⟨14, 55, 3, 1, 15⟩) := by decide +kernel

theorem test_decode_31 :
    decode 0xC41A5320 = .ok (.mma ⟨6, 18, 19, 1⟩)
    ∧ decode 0xC4625F57 = .ok (.mmas ⟨8, 18, 31, 10, 1, 3⟩)
    ∧ decode 0xC4911D00 = .ok (.mmap ⟨4, 8, 29⟩) := by decide +kernel

theorem test_decode_32 :
    decode 0xC8060000 = .ok (.mzero ⟨1, 2⟩)
    ∧ decode 0xC86F16E0 = .ok (.mscale ⟨11, 49, 0, 6, 14⟩)
    ∧ decode 0xC8988EB0 = .ok (.mstore ⟨6, 8, 7, 2, 1, 8⟩) := by decide +kernel

theorem test_decode_33 :
    decode 0xCC0B0000 = .ok (.mbarSync ⟨11⟩)
    ∧ decode 0xCC15C000 = .ok (.mbarArrive ⟨5, 12⟩)
    ∧ decode 0xCC26C000 = .ok (.mbarWait ⟨6, 12⟩)
    ∧ decode 0xCC4867DE = .ok (.mset ⟨2, 26590⟩)
    ∧ decode 0xCC8ECBD4 = .ok (.madd ⟨3, 11, 3028⟩)
    ∧ decode 0xCCC73078 = .ok (.mloop ⟨1, 209016⟩)
    ∧ decode 0xCD00577A = .ok (.mbra ⟨22394⟩)
    ∧ decode 0xCD117805 = .ok (.mbraZ ⟨4, 30725⟩)
    ∧ decode 0xCD0602B6 = .ok (.mbraNz ⟨1, 694⟩)
    ∧ decode 0xCD400000 = .ok (.mend) := by decide +kernel

/-! ## Small states: one reel of one block on core 0, with one bundle latched -/

/-- A kernel of one reel with 128 vector registers, a fault entry, a trap handler and a stream. -/
def desc : Desc := ⟨4096, 1, 128, 0x4000, 0x2000, 0x3000, 0x10000⟩

/-- Its block, of launch 5. -/
def block : Block := Block.fresh 0 5 0 0 0 0 desc 0 0 0 0 (0, 0, 0) (1, 1, 1)

/-- Its reel at its start. -/
def reel : Reel := Reel.fresh 0 0 0 0x10000 0x2000

/-- A split of the lanes of a mask, with a stack. -/
def split (lanes : Word) (stack : List Nat) : Split := ⟨0x10000, lanes, stack, false, false, none, none⟩

/-- A bundle at the reel's PC. -/
def bundle (w : Word) (h : Hints) : Bundle := ⟨0x10000, 0x10000, w, h⟩

/-- What an instruction acts in: the reel `r`, its split `p`, its block `b` and a bundle, in a machine that is else `t`. -/
def actsIn (r : Reel) (p : Split) (b : Block) (h : Hints) (t : State) : Issuer :=
  let r := { r with block := 0, splits := r.splits.put 0 p }
  let c : Cur := ⟨0, 0, bundle 0x04004103 h⟩
  ⟨{ t with reels := t.reels.put 0 r, blocks := t.blocks.put 0 b, cur := some c, scur := none }, c, r, p, b⟩

theorem actsIn_stands (r : Reel) (p : Split) (b : Block) (h : Hints) (t : State) : (actsIn r p b h t).Stands (actsIn r p b h t).s where
  state := rfl
  alone := rfl
  latched := rfl
  reel := Map.find?_put_self _ _ _
  split := Map.find?_put_self _ _ _
  block := Map.find?_put_self _ _ _

/-- The plain case: all lanes, no hint, an empty machine. -/
def plain : Issuer := actsIn reel (split (BitVec.allOnes 32) []) block Hints.empty State.reset

theorem plain_stands : plain.Stands plain.s := actsIn_stands _ _ _ _ _

theorem plain_ready (o : VOperands) (h : o.ok Hints.empty.extent false 128 = true) : plain.Ready o :=
  ⟨h, by decide, fun m _ => by rfl⟩

/-! ## Every statement's hypotheses can be met: registers, masks and special registers -/

theorem witness_IntegerResults : ∃ i x o g s, IntRow x i o g ∧ x.Stands s ∧ x.Ready o :=
  ⟨_, plain, _, _, _, .iadd ⟨0, 1, 2, 3⟩ (by decide), plain_stands, plain_ready _ (by decide)⟩

theorem witness_FloatResults : ∃ i x o f s, FpRow x i o f ∧ x.Stands s ∧ x.Ready o ∧
    ∀ l, x.lane l → x.raised o f l &&& enables x.reel x.cur.bundle.hints.ht = 0 :=
  ⟨_, plain, _, _, _, .faddF32 ⟨0, 1, 2, 3⟩ (by decide), plain_stands, plain_ready _ (by decide),
    fun l _ => by simp [show enables plain.reel plain.cur.bundle.hints.ht = 0 by decide]⟩

/-- A reel that traps on invalid operations, with a signalling NaN in lane 3 of v2. -/
def trapping : Issuer :=
  actsIn { reel with tcr := 1, v := [(32 * 2 + 3, 0x7F800001)] } (split (BitVec.allOnes 32) []) block Hints.empty State.reset

theorem witness_ArithmeticTrap : ∃ i x o f s l₀, FpRow x i o f ∧ x.Stands s ∧ x.Ready o ∧ x.Vectors ∧ x.lane l₀ ∧
    x.raised o f l₀ &&& enables x.reel x.cur.bundle.hints.ht ≠ 0 :=
  ⟨_, trapping, _, _, _, 3, .faddF32 ⟨0, 1, 2, 3⟩ (by decide), actsIn_stands _ _ _ _ _, ⟨by decide, by decide, fun m _ => by rfl⟩, ⟨rfl, by decide⟩,
    by unfold Issuer.lane; decide, by decide +kernel⟩

theorem witness_CompareResults :
    (∃ f x s, CmpUse x f ∧ x.Stands s ∧ ∀ l, x.lane l → ¬ (cmpLane x f l).2 &&& enables x.reel none ≠ 0)
    ∧ (∃ f x s, CmpUse x f ∧ x.Stands s ∧ x.Vectors ∧ x.lane 0 ∧ (cmpLane x f 0).2 &&& enables x.reel none ≠ 0)
    ∧ ∃ (f : CmpOp) (x : Issuer) (s : State), x.Stands s ∧ f.type.toNat < 2 ∧ 6 ≤ f.cond.toNat ∧ x.Vectors :=
  ⟨⟨⟨0, 0, 1, 0, 0, 1, 2⟩, plain, _, ⟨by decide, by decide, by decide, by decide⟩, plain_stands,
      fun l _ => by simp [show enables plain.reel none = 0 by decide]⟩,
    ⟨⟨2, 2, 0, 0, 0, 1, 2⟩, actsIn { reel with tcr := 1, v := [(32, 0x7F800001)] } (split 1 []) block Hints.empty State.reset, _,
      ⟨by decide, by decide, by decide, by decide⟩, actsIn_stands _ _ _ _ _, ⟨rfl, by decide⟩, by unfold Issuer.lane; decide, by decide +kernel⟩,
    ⟨⟨6, 0, 1, 0, 0, 1, 2⟩, plain, _, plain_stands, by decide, by decide, rfl, by decide⟩⟩

theorem witness_UniformResults : (∃ i x sd v s, UniRow x i sd v ∧ x.Stands s ∧ x.reel.busyS sd = false)
    ∧ (∃ i x v s, UniRow x i 0 v ∧ x.Stands s ∧ x.reel.busyS 0 = false)
    ∧ (∃ (f : U3) (x : Issuer) (s : State), f.ok64 = true ∧ x.Stands s ∧ x.reel.busyS f.sd.toNat = false ∧ x.reel.busyS (f.sd.toNat + 1) = false)
    ∧ ∃ (f : UI) (x : Issuer) (s : State), f.ok64 = true ∧ x.Stands s ∧ x.reel.busyS f.sd.toNat = false ∧ x.reel.busyS (f.sd.toNat + 1) = false :=
  ⟨⟨_, plain, _, _, _, .uadd ⟨63, 1, 2⟩, plain_stands, rfl⟩, ⟨_, plain, _, _, .uadd ⟨0, 1, 2⟩, plain_stands, rfl⟩,
    ⟨⟨62, 2, 4⟩, plain, _, by decide, plain_stands, rfl, rfl⟩, ⟨⟨0, 2, 0x1FF⟩, plain, _, by decide, plain_stands, rfl, rfl⟩⟩

theorem witness_MaskResults : (∃ i x g s, MaskRow x i 7 g ∧ x.Stands s) ∧ ∃ i x g s, MaskRow x i 0 g ∧ x.Stands s :=
  ⟨⟨_, plain, _, _, .kand ⟨7, 1, 2⟩, plain_stands⟩, ⟨_, plain, _, _, .ballot ⟨0, 1⟩ (by decide) (by decide), plain_stands⟩⟩

theorem witness_LaneResults : ∃ i x vd g s, LaneRow x i vd g ∧ x.Stands s ∧ x.active ≠ 0 ∧ x.reel.busyV vd = false :=
  ⟨_, plain, _, _, _, .shflIdx ⟨127, 1, 2⟩ (by unfold legalL3; decide), plain_stands, by decide, rfl⟩

theorem witness_SpecialRegisters :
    (∃ (f : RdS) (x : Issuer) (s : State), x.Stands s ∧ 1 ≤ f.id.toNat ∧ f.id.toNat < 30 ∧ x.reel.busyS f.sd.toNat = false)
    ∧ (∃ (f : RdV) (x : Issuer) (s : State), x.Stands s ∧ f.id.toNat < 30 ∧ f.vd.toNat < x.block.desc.vregs ∧ x.active ≠ 0
      ∧ x.reel.busyV f.vd.toNat = false)
    ∧ ∃ (x : Issuer) (s : State), x.Stands s ∧ x.Vectors :=
  ⟨⟨⟨1, 29⟩, plain, _, plain_stands, by decide, by decide, rfl⟩, ⟨⟨127, 0⟩, plain, _, plain_stands, by decide, by decide, by decide, rfl⟩,
    ⟨plain, _, plain_stands, rfl, by decide⟩⟩

/-! ## Branches, joins and traps -/

/-- Two sides of a branch: k1 names the low half of the lanes. -/
def forked (splits : Map Split) (stack : List Nat) : Issuer :=
  actsIn { reel with k := [(1, 0xFFFF)], splits := splits } (split (BitVec.allOnes 32) stack) block Hints.empty State.reset

theorem witness_JumpsAndCalls : (∃ i x pc s, JumpRow x i pc ∧ x.Stands s)
    ∧ (∃ (x : Issuer) (s : State), x.Stands s ∧ x.reel.busyS 62 = false ∧ x.reel.busyS 63 = false)
    ∧ ∃ (x : Issuer) (s : State) (f : S2), x.Stands s ∧ f.sd.toNat % 2 = 0 ∧ f.sa.toNat % 2 = 0 ∧ f.sd ≠ 0 ∧ x.reel.busyS f.sd.toNat = false
      ∧ x.reel.busyS (f.sd.toNat + 1) = false :=
  ⟨⟨_, plain, _, _, .bra ⟨0xFFFFF⟩, plain_stands⟩, ⟨plain, _, plain_stands, rfl, rfl⟩,
    ⟨plain, _, ⟨62, 0⟩, plain_stands, by decide, by decide, by decide, rfl, rfl⟩⟩

theorem witness_Divergence :
    (∃ (f : BrK) (x : Issuer) (s : State), x.Stands s ∧ taken x f.kc ≠ 0 ∧ passing x f.kc ≠ 0 ∧ x.split.stack.length < 8
      ∧ x.reel.splits.find? 3 = none ∧ ∀ m, m < 3 → x.reel.splits.find? m ≠ none)
    ∧ (∃ (f : BrK) (x : Issuer) (s : State), x.Stands s ∧ taken x f.kc ≠ 0 ∧ passing x f.kc ≠ 0 ∧ x.split.stack.length < 8
      ∧ ∀ m, m < 4 → x.reel.splits.find? m ≠ none)
    ∧ ∃ (f : BrK) (x : Issuer) (s : State), x.Stands s ∧ taken x f.kc ≠ 0 ∧ passing x f.kc ≠ 0 ∧ 8 ≤ x.split.stack.length ∧ x.Vectors :=
  ⟨⟨⟨1, 0⟩, forked [(0, split 1 []), (1, split 1 []), (2, split 1 [])] [], _, actsIn_stands _ _ _ _ _, by decide, by decide, by decide, by decide,
      by decide⟩,
    ⟨⟨1, 0⟩, forked [(0, split 1 []), (1, split 1 []), (2, split 1 []), (3, split 1 [])] [], _, actsIn_stands _ _ _ _ _, by decide, by decide,
      by decide, by decide⟩,
    ⟨⟨1, 0⟩, forked [] [1, 2, 3, 4, 5, 6, 7, 8], _, actsIn_stands _ _ _ _ _, by decide, by decide, by decide, rfl, by decide⟩⟩

/-- A split at a join, with the entry on top of its stack. -/
def joining (e : Reconv) : Issuer := actsIn { reel with entries := [(9, e)] } (split 0xFFFF [9]) block Hints.empty State.reset

theorem witness_Joins :
    (∃ (x : Issuer) (s : State) (id : Nat) (below : List Nat) (e : Reconv), x.Stands s ∧ x.split.stack = id :: below ∧ x.reel.entries.find? id = some e
      ∧ (e.joinPc = none ∨ e.joinPc = some x.cur.bundle.ipc) ∧ e.arrived ||| x.split.lanes ≠ e.join ∧ e.pending = none)
    ∧ (∃ (x : Issuer) (s : State) (id : Nat) (below : List Nat) (e : Reconv) (pc : VA) (lanes : Word), x.Stands s ∧ x.split.stack = id :: below
      ∧ x.reel.entries.find? id = some e ∧ (e.joinPc = none ∨ e.joinPc = some x.cur.bundle.ipc) ∧ e.arrived ||| x.split.lanes ≠ e.join
      ∧ e.pending = some (pc, lanes))
    ∧ (∃ (x : Issuer) (s : State) (id : Nat) (below : List Nat) (e : Reconv) (k : VA), x.Stands s ∧ x.split.stack = id :: below
      ∧ x.reel.entries.find? id = some e ∧ e.joinPc = some k ∧ k ≠ x.cur.bundle.ipc ∧ x.Vectors)
    ∧ ∃ (x : Issuer) (s : State) (id : Nat) (below : List Nat) (e : Reconv), x.Stands s ∧ x.split.stack = id :: below
      ∧ x.reel.entries.find? id = some e ∧ (e.joinPc = none ∨ e.joinPc = some x.cur.bundle.ipc) ∧ e.arrived ||| x.split.lanes = e.join :=
  ⟨⟨joining ⟨0xFFFFFFFF, 0, none, none⟩, _, 9, [], _, actsIn_stands _ _ _ _ _, rfl, rfl, .inl rfl, by decide, rfl⟩,
    ⟨joining ⟨0xFFFFFFFF, 0, none, some (0x20000, 0xFFFF0000)⟩, _, 9, [], _, _, _, actsIn_stands _ _ _ _ _, rfl, rfl, .inl rfl, by decide, rfl⟩,
    ⟨joining ⟨0xFFFFFFFF, 0xFFFF0000, some 0x20000, none⟩, _, 9, [], _, _, actsIn_stands _ _ _ _ _, rfl, rfl, rfl, by decide, rfl, by decide⟩,
    ⟨joining ⟨0xFFFFFFFF, 0xFFFF0000, some 0x10000, none⟩, _, 9, [], _, actsIn_stands _ _ _ _ _, rfl, rfl, .inr rfl, by decide⟩⟩

theorem witness_YieldsAndExits :
    (∃ (x : Issuer) (s : State), x.Stands s ∧ x.split.stack = [] ∧ x.reel.entries = [] ∧ x.reel.handler = false
      ∧ ∃ j, j ≠ x.cur.split ∧ x.reel.splits.find? j ≠ none)
    ∧ (∃ (x : Issuer) (s : State), x.Stands s ∧ x.split.stack = [] ∧ x.reel.entries = [] ∧ x.reel.handler = false ∧ x.reel.iter = none
      ∧ ∀ j, j ≠ x.cur.split → x.reel.splits.find? j = none)
    ∧ ∃ (x : Issuer) (s : State), x.Stands s ∧ x.split.stack = [] ∧ x.reel.entries = [] ∧ x.reel.handler = true ∧ x.reel.exited = false
      ∧ x.s.faultEntry x.block.launch x.reel.block ≠ 0 :=
  ⟨⟨forked [(0, split 1 []), (1, split 1 [])] [], _, actsIn_stands _ _ _ _ _, rfl, rfl, rfl, 1, by decide, by decide⟩,
    ⟨plain, _, plain_stands, rfl, rfl, rfl, rfl, fun j h => by
      show Map.find? [(0, _)] j = none
      simp only [Map.find?]
      exact if_neg fun e => h e.symm⟩,
    ⟨actsIn { reel with handler := true } (split 1 []) block Hints.empty State.reset, _, actsIn_stands _ _ _ _ _, rfl, rfl, rfl, rfl, by decide⟩⟩

theorem witness_TrapEntry : (∃ i x lanes kind s, TrapRow x i lanes kind ∧ x.Stands s ∧ x.Vectors)
    ∧ (∃ (i : Instr) (x : Issuer) (lanes : Word) (kind : Nat) (s : State), TrapRow x i lanes kind ∧ x.Stands s ∧ x.reel.exited = false
      ∧ x.s.faultEntry x.block.launch x.reel.block ≠ 0 ∧ x.reel.handler = true)
    ∧ ∃ (i : Instr) (x : Issuer) (lanes : Word) (kind : Nat) (s : State), TrapRow x i lanes kind ∧ x.Stands s ∧ x.reel.exited = false
      ∧ x.s.faultEntry x.block.launch x.reel.block ≠ 0 ∧ x.reel.xvec = 0 ∧ x.reel.xvechi = 0 :=
  ⟨⟨_, plain, _, _, _, .trap ⟨127⟩, plain_stands, rfl, by decide⟩,
    ⟨_, actsIn { reel with handler := true } (split 1 []) block Hints.empty State.reset, _, _, _, .brk, actsIn_stands _ _ _ _ _, rfl, by decide, rfl⟩,
    ⟨_, actsIn { reel with xvec := 0 } (split 1 []) block Hints.empty State.reset, _, _, _, .illegal, actsIn_stands _ _ _ _ _, rfl, by decide, rfl,
      rfl⟩⟩

theorem witness_TrapReturn : (∃ (x : Issuer) (s : State), x.Stands s ∧ x.reel.handler = true ∧ x.split.lanes = x.reel.trapLanes
      ∧ x.split.stack.length = x.reel.trapDepth) ∧ ∃ (x : Issuer) (s : State), x.Stands s ∧ x.Vectors :=
  ⟨⟨actsIn { reel with handler := true, trapLanes := 1 } (split 1 []) block Hints.empty State.reset, _, actsIn_stands _ _ _ _ _, rfl, rfl, rfl⟩,
    ⟨plain, _, plain_stands, rfl, by decide⟩⟩

theorem witness_DivergenceOneSided :
    (∃ (f : BrK) (x : Issuer) (s : State), x.Stands s ∧ taken x f.kc = 0)
    ∧ ∃ (f : BrK) (x : Issuer) (s : State), x.Stands s ∧ taken x f.kc ≠ 0 ∧ passing x f.kc = 0 :=
  ⟨⟨⟨2, 0⟩, forked [] [], _, actsIn_stands _ _ _ _ _, by decide⟩, ⟨⟨0, 0⟩, forked [] [], _, actsIn_stands _ _ _ _ _, by decide, by decide⟩⟩

theorem witness_JoinsEmpty : ∃ (x : Issuer) (s : State), x.Stands s ∧ x.split.stack = [] := ⟨plain, _, plain_stands, rfl⟩

theorem witness_TrapReturnNested : ∃ (x : Issuer) (s : State), x.Stands s ∧ x.reel.handler = true
    ∧ (x.split.lanes ≠ x.reel.trapLanes ∨ x.split.stack.length ≠ x.reel.trapDepth) ∧ x.reel.exited = false
    ∧ x.s.faultEntry x.block.launch x.reel.block ≠ 0 :=
  ⟨actsIn { reel with handler := true, trapLanes := 3 } (split 1 []) block Hints.empty State.reset, _, actsIn_stands _ _ _ _ _, rfl,
    .inl (by decide), rfl, by decide⟩

/-- A block of 64 vector registers, after an HX hint that names one of them, or the first beyond them. -/
def fusing (c : BitVec 23) : Issuer :=
  actsIn reel (split 1 []) { block with desc := { desc with vregs := 64 } } { Hints.empty with hx := some c } State.reset

theorem witness_IllegalForms :
    (∃ (i : Instr) (x : Issuer) (s : State), x.Stands s ∧ x.Vectors ∧ i.wf = false ∧ ¬ isStream i
      ∧ (isFused i → ∀ p, x.cur.bundle.hints.hx = some p → ¬ noAddend x p))
    ∧ ∃ (i : Instr) (x : Issuer) (s : State) (p : BitVec 23), x.Stands s ∧ x.Vectors ∧ isFused i ∧ x.cur.bundle.hints.hx = some p ∧ noAddend x p :=
  ⟨⟨.ffmaF64 ⟨1, 1, 2, 4⟩, fusing 63, _, actsIn_stands _ _ _ _ _, ⟨rfl, by decide⟩, by decide +kernel, id, fun _ p h => by
      cases h; simp [noAddend]; decide⟩,
    ⟨.ffmaF32 ⟨0, 1, 2, 3⟩, fusing 64, _, 64, actsIn_stands _ _ _ _ _, ⟨rfl, by decide⟩, trivial, rfl, .inr (by decide)⟩⟩

/-! ## Every statement's hypotheses can be met: memory, barriers and stages -/

/-- A machine whose core 0 may read, write and execute the first 64 KiB of context 0. -/
def far : State := { State.reset with cores := [(0, { Core.reset with look := [⟨0, 0, 65536, true, true, true⟩], division := some 1 })] }

/-- An instruction of one lane in that machine. -/
def lone : Issuer := actsIn reel (split 1 []) block Hints.empty far

theorem lone_stands : lone.Stands lone.s := actsIn_stands _ _ _ _ _

theorem allows_of {x : Issuer} {rd w : Bool} {va : Nat}
    (h : ((x.s.core x.coreId).lookup x.block.ctx va).any (fun e => (!rd || e.r) && (!w || e.w)) = true) : Allows x rd w va := by
  cases e : (x.s.core x.coreId).lookup x.block.ctx va with
  | none => simp [e] at h
  | some v => exact ⟨v, e, by rintro rfl; simp_all, by rintro rfl; simp_all⟩

theorem lanes_allowed {x : Issuer} {rd w : Bool} {l : List (Nat × Nat)}
    (h : (l.all fun p => ((x.s.core x.coreId).lookup x.block.ctx p.2).any fun e => (!rd || e.r) && (!w || e.w)) = true) :
    ∀ p ∈ l, Allows x rd w p.2 := fun p hp => allows_of (List.all_eq_true.mp h p hp)

theorem witness_GlobalLoads : (∃ i x dst accs s, LoadRow x i dst accs ∧ x.Stands s ∧ x.active ≠ 0 ∧ (∀ p ∈ accs, Allows x true false p.2) ∧
    (∀ n ∈ dst.vregs, x.reel.busyV n = false) ∧ (∀ n ∈ dst.sregs, x.reel.busyS n = false) ∧ x.reel.ld < 63 ∧ Unthrottled x) ∧
    ∃ f x dst accs s, LoadRow x (.lduB64 f) dst accs ∧ x.Stands s ∧ x.active ≠ 0 ∧ (∀ p ∈ accs, Allows x true false p.2) ∧
    (∀ n ∈ dst.vregs, x.reel.busyV n = false) ∧ (∀ n ∈ dst.sregs, x.reel.busyS n = false) ∧ x.reel.ld < 63 ∧ Unthrottled x :=
  ⟨⟨_, lone, _, _, _, .ldgB128 ⟨124, 0, 127, 0⟩ ⟨by decide, by decide, by decide, by decide, by decide⟩, lone_stands, by decide,
      lanes_allowed (by decide), fun _ _ => rfl, fun _ _ => rfl, by decide, .inr (by decide)⟩,
    ⟨⟨62, 0⟩, lone, _, _, _, .lduB64 ⟨62, 0⟩ (by decide), lone_stands, by decide, lanes_allowed (by decide), fun _ _ => rfl, fun _ _ => rfl,
      by decide, .inr (by decide)⟩⟩

theorem witness_GlobalStores : (∃ i x f n s, StoreRow x i f n ∧ x.Stands s ∧ x.active ≠ 0 ∧ (∀ p ∈ lanesOf x f 55 n, Allows x false true p.2) ∧
    x.reel.st < 63 ∧ x.s.attrUsed x.coreId < 512 ∧ Unthrottled x) ∧
    (∃ (n : Nat) (accs : List (Nat × Nat × Nat)) (a b : Nat), n ∈ [1, 2, 4, 8, 16] ∧ (∀ p ∈ accs, p.2.1 % n = 0) ∧ lastByte accs n a = some b) ∧
    ∃ (n : Nat) (accs : List (Nat × Nat × Nat)) (a : Nat), n ∈ [1, 2, 4, 8, 16] ∧ (∀ p ∈ accs, p.2.1 % n = 0) ∧ lastByte accs n a = none :=
  ⟨⟨_, lone, _, _, _, .stgB64 ⟨126, 0, 127, 0⟩ ⟨by decide, by decide, by decide, by decide, by decide⟩, lone_stands, by decide,
      lanes_allowed (by decide), by decide, by decide, .inr (by decide)⟩,
    ⟨4, [(0, 124, 0x11223344), (1, 124, 0x55667788)], 127, 0x55, by decide, by decide, by decide⟩,
    ⟨16, [(0, 112, 1)], 128, by decide, by decide, by decide⟩⟩

theorem witness_GlobalAtomics : ∃ i x op wide ret ord scope vd va s, AtomicRow x i op wide ret ord scope vd va ∧ x.Stands s ∧ x.active ≠ 0 ∧
    x.split.wait = none ∧ vd + atomWidth op wide ≤ x.block.desc.vregs ∧ va + 2 ≤ x.block.desc.vregs ∧
    (∀ l, x.lane l → Allows x (op ≠ .st) (op ≠ .ld) (atomAddr x op wide va l)) ∧
    (ret = true → x.reel.ld < 63 ∧ ∀ k, k < (if wide then 2 else 1) → x.reel.busyV (vd + k) = false) ∧
    (ret = false → x.reel.st < 63 ∧ x.s.attrUsed x.coreId < 512) ∧
    (2 ≤ ord → x.s.releaseDone x.cur.reel x.reel scope x.s.nextId = true) ∧
    (ord % 2 = 1 → ∀ j p, (j, p) ∈ x.reel.splits → j ≠ x.cur.split → ∀ load sc, p.wait ≠ some (.acquire load sc)) ∧ Unthrottled x :=
  ⟨_, lone, _, _, _, _, _, _, _, _, .cas ⟨3, 2, 1, 1, 124, 126⟩ (by decide), lone_stands, by decide, rfl, by decide, by decide,
    fun l h => by
      have : l = 0 := by
        have h : (1 : Word).getLsbD l = true := h
        cases l with
        | zero => rfl
        | succ l => simp [BitVec.getLsbD, Nat.testBit_succ] at h
      subst this
      exact allows_of (by decide),
    fun _ => ⟨by decide, fun _ _ => rfl⟩, fun h => by simp at h, fun _ => by decide,
    fun _ _ _ h => by cases List.mem_singleton.mp h; exact fun _ _ _ => nofun, .inr (by decide)⟩

/-- Word 0 of scratchpad full. -/
def filled : Issuer := actsIn reel (split 1 []) { block with full := [(0, true)] } Hints.empty far

/-- v0 of lane 0 names the last word of scratchpad, v1 the word past it. -/
def edge : Issuer := actsIn { reel with v := [(0, 4092), (32, 4096)] } (split 1 []) block Hints.empty far

theorem untouched_of {b : Block} {accs : List (Nat × Nat)} {n : Nat} (h : b.poison = []) : Unpoisoned b accs n := fun w _ => by simp [h, Map.findD]

theorem witness_ScratchpadLoads : ∃ i x f mode n s, SpadRow x i f true mode n ∧ mode = 2 ∧ x.Stands s ∧ x.active ≠ 0 ∧ x.split.wait = none ∧
    (∀ p ∈ lanesOf x f 32 n, p.2 + n ≤ x.block.desc.spad) ∧ x.reel.ld < 63 ∧
    (∀ m, f.vt.toNat ≤ m → m < f.vt.toNat + (n + 3) / 4 → x.reel.busyV m = false) ∧
    Qualified x.block true mode (lanesOf x f 32 n) n ∧ Unpoisoned x.block (lanesOf x f 32 n) n :=
  ⟨_, filled, _, _, _, _, .ldsB32Take ⟨127, 0, 127, 0⟩ ⟨by decide, by decide, by decide, by decide, by decide⟩, rfl, actsIn_stands _ _ _ _ _,
    by decide, rfl, by decide, by decide, fun _ _ _ => rfl,
    fun w ⟨p, hp, h⟩ => by
      have : p = (0, 0) := List.mem_singleton.mp ((show lanesOf filled ⟨127, 0, 127, 0⟩ 32 4 = [(0, 0)] by decide) ▸ hp)
      subst this
      have : w = 0 := by simp only [inWord] at h; omega
      subst this
      decide, untouched_of rfl⟩

theorem witness_ScratchpadStores : (∃ i x f mode n s, SpadRow x i f false mode n ∧ mode = 1 ∧ x.Stands s ∧ x.active ≠ 0 ∧ x.split.wait = none ∧
    (∀ p ∈ lanesOf x f 32 n, p.2 + n ≤ x.block.desc.spad) ∧ x.reel.st < 63 ∧ Qualified x.block false mode (lanesOf x f 32 n) n ∧
    (mode ≠ 0 → x.reel.scratchDone x.cur.split x.s.nextId = true)) ∧
    (∃ (i : Instr) (x : Issuer) (s : State) (f : MOp) (load : Bool) (mode n : Nat), x.Stands s ∧ x.Vectors ∧ SpadRow x i f load mode n ∧
      ∃ p ∈ lanesOf x f 32 n, x.block.desc.spad < p.2 + n) ∧
    ∃ (i : Instr) (x : Issuer) (s : State) (op : AtomKind) (f : AOpS), x.Stands s ∧ x.Vectors ∧ BankRow i op f ∧
      f.vd.toNat + atomWidth op (f.w == 1) ≤ x.block.desc.vregs ∧ f.va.toNat < x.block.desc.vregs ∧
      ∃ l, x.lane l ∧ x.block.desc.spad < (bankLane x op f l).va + (if f.w = 1 then 8 else 4) :=
  ⟨⟨_, edge, _, _, _, _, .stsB32Put ⟨127, 0, 0, 0⟩ ⟨by decide, by decide, by decide, by decide, by decide⟩, rfl, actsIn_stands _ _ _ _ _,
      by decide, rfl, by decide, by decide, fun w _ => ⟨fun h => (nomatch h), fun _ _ => rfl⟩,
      fun _ => by decide⟩,
    ⟨_, edge, _, _, _, _, _, actsIn_stands _ _ _ _ _, ⟨rfl, by decide⟩,
      .stsB32 ⟨127, 0, 1, 0⟩ ⟨by decide, by decide, by decide, by decide, by decide⟩, (0, 4096), by decide, by decide⟩,
    ⟨_, edge, _, _, _, actsIn_stands _ _ _ _ _, ⟨rfl, by decide⟩, .add ⟨0, 0, 1, 127, 1⟩ (by decide), by decide, by decide, 0,
      by unfold Issuer.lane; decide, by decide⟩⟩

theorem witness_ScratchpadAtomics : ∃ i x op f s, BankRow i op f ∧ f.ret = 1 ∧ 2 ≤ f.ord.toNat ∧ x.Stands s ∧ x.active ≠ 0 ∧ x.split.wait = none ∧
    f.vd.toNat + atomWidth op (f.w == 1) ≤ x.block.desc.vregs ∧ f.va.toNat < x.block.desc.vregs ∧
    (∀ l ∈ (laneList x.active).map (bankLane x op f), l.va + (if f.w = 1 then 8 else 4) ≤ x.block.desc.spad) ∧
    (f.ret = 1 → x.reel.ld < 63 ∧ ∀ k, k < (if f.w = 1 then 8 else 4) / 4 → x.reel.busyV (f.vd.toNat + k) = false) ∧
    (f.ret = 0 → x.reel.st < 63) ∧
    (op = .exch ∧ f.ret = 0 ∨ Unpoisoned x.block (((laneList x.active).map (bankLane x op f)).map fun l => (l.lane, l.va)) (if f.w = 1 then 8 else 4)) ∧
    (2 ≤ f.ord.toNat → x.s.releaseDone x.cur.reel x.reel 0 x.s.nextId = true) :=
  ⟨_, edge, _, _, _, .cas ⟨3, 0, 1, 126, 0⟩ (by decide), rfl, by decide, actsIn_stands _ _ _ _ _, by decide, rfl, by decide, by decide, by decide,
    fun _ => ⟨by decide, fun _ _ => rfl⟩, fun h => by simp at h, .inr (untouched_of rfl), fun _ => by decide⟩

theorem lone_narrow : NoWide lone := .inl rfl

theorem witness_FencesAndCounterWaits :
    (∃ (x : Issuer) (s : State) (f : FenceOp), x.Stands s ∧ f.ord ≠ 0 ∧ x.split.wait = none ∧
      (2 ≤ f.ord.toNat → x.s.releaseDone x.cur.reel x.reel f.scope.toNat x.s.nextId = true))
    ∧ (∃ (x : Issuer) (s : State) (f : WaitOp), x.Stands s ∧
      (x.reel.ld ≤ f.ld.toNat ∧ x.reel.st ≤ f.st.toNat ∧ x.reel.eng ≤ f.eng.toNat ∧ x.reel.mx ≤ f.mx.toNat))
    ∧ ∃ (x : Issuer) (s : State) (f : WaitOp), x.Stands s ∧
      ¬ (x.reel.ld ≤ f.ld.toNat ∧ x.reel.st ≤ f.st.toNat ∧ x.reel.eng ≤ f.eng.toNat ∧ x.reel.mx ≤ f.mx.toNat) :=
  ⟨⟨lone, _, ⟨3, 3⟩, lone_stands, by decide, rfl, fun _ => by decide⟩, ⟨lone, _, ⟨0, 0, 0, 0⟩, lone_stands, by decide⟩,
    ⟨actsIn { reel with mx := 15 } (split 1 []) block Hints.empty far, _, ⟨63, 63, 15, 14⟩, actsIn_stands _ _ _ _ _, by decide⟩⟩

/-- A split that waits at barrier 15, whose phase is 65535, where one has arrived of two expected and one waits; S1 holds that phase. -/
def atBarrier (w : Option Wait) (v : Barrier) : Issuer :=
  actsIn { reel with s := [(1, 0xFFFF)] } { split 1 [] with wait := w } { block with barriers := [(15, v)] } Hints.empty far

/-- The barrier. -/
def gate (arrivals : Nat) : Barrier := { expected := 2, arrivals := arrivals, waiters := 0, phase := 0xFFFF, carry := [], flipped := [] }

theorem atBarrier_stands (w : Option Wait) (v : Barrier) : (atBarrier w v).Stands (atBarrier w v).s := actsIn_stands _ _ _ _ _

theorem witness_Barriers :
    (∃ (x : Issuer) (s : State) (f : BInit), x.Stands s ∧ NoWide x ∧ 1 ≤ f.n.toNat ∧ f.n.toNat ≤ 33
      ∧ (x.block.barrier f.b.toNat).arrivals = 0 ∧ (x.block.barrier f.b.toNat).waiters = 0)
    ∧ (∃ (x : Issuer) (s : State) (f : BInit), x.Stands s ∧ NoWide x ∧ 1 ≤ f.n.toNat ∧ f.n.toNat ≤ 33
      ∧ (x.block.barrier f.b.toNat).arrivals ≠ 0 ∧ x.Vectors)
    ∧ (∃ (x : Issuer) (s : State) (f : BArr), x.Stands s ∧ NoWide x ∧ x.split.wait = none ∧ x.reel.busyS f.sd.toNat = false
      ∧ x.s.releaseDone x.cur.reel x.reel 0 x.s.nextId = true
      ∧ (x.block.barrier f.b.toNat).arrivals + 1 ≠ (x.block.barrier f.b.toNat).expected)
    ∧ (∃ (x : Issuer) (s : State) (f : BArr), x.Stands s ∧ NoWide x ∧ x.split.wait = none ∧ x.reel.busyS f.sd.toNat = false
      ∧ x.s.releaseDone x.cur.reel x.reel 0 x.s.nextId = true
      ∧ (x.block.barrier f.b.toNat).arrivals + 1 = (x.block.barrier f.b.toNat).expected)
    ∧ (∃ (x : Issuer) (s : State) (f : BWaitOp), x.Stands s ∧ NoWide x ∧ x.reel.busyS f.sd.toNat = false ∧ x.split.wait = none
      ∧ (x.block.barrier f.b.toNat).phase - (x.reel.sget f.sa.toNat).setWidth 16 ≠ 0)
    ∧ (∃ (x : Issuer) (s : State) (f : BWaitOp), x.Stands s ∧ NoWide x ∧ x.reel.busyS f.sd.toNat = false
      ∧ ∃ b' t', x.split.wait = some (.barrier b' t' true))
    ∧ ∃ (x : Issuer) (s : State) (f : BWaitOp), x.Stands s ∧ NoWide x ∧ x.reel.busyS f.sd.toNat = false ∧ x.split.wait = none
      ∧ (x.block.barrier f.b.toNat).phase - (x.reel.sget f.sa.toNat).setWidth 16 = 0 :=
  ⟨⟨atBarrier none (gate 0), _, ⟨33, 15⟩, atBarrier_stands _ _, .inl rfl, by decide, by decide, rfl, rfl⟩,
    ⟨atBarrier none (gate 1), _, ⟨1, 15⟩, atBarrier_stands _ _, .inl rfl, by decide, by decide, by decide, rfl, by decide⟩,
    ⟨atBarrier none (gate 0), _, ⟨0, 15⟩, atBarrier_stands _ _, .inl rfl, rfl, rfl, by decide, by decide⟩,
    ⟨atBarrier none (gate 1), _, ⟨63, 15⟩, atBarrier_stands _ _, .inl rfl, rfl, rfl, by decide, by decide⟩,
    ⟨atBarrier none (gate 0), _, ⟨63, 0, 15⟩, atBarrier_stands _ _, .inl rfl, rfl, rfl, by decide⟩,
    ⟨atBarrier (some (.barrier 15 0xFFFF true)) (gate 0), _, ⟨63, 1, 15⟩, atBarrier_stands _ _, .inl rfl, rfl, 15, 0xFFFF, rfl⟩,
    ⟨atBarrier none (gate 1), _, ⟨63, 1, 15⟩, atBarrier_stands _ _, .inl rfl, rfl, rfl, by decide⟩⟩

theorem witness_Semaphores :
    (∃ (x : Issuer) (s : State) (f : SemOp), x.Stands s ∧ NoWide x ∧ x.split.wait = none
      ∧ x.s.releaseDone x.cur.reel x.reel f.scope.toNat x.s.nextId = true
      ∧ ((x.block.sem f.sm.toNat).value - x.reel.sget f.sa.toNat).toNat < 2 ^ 31)
    ∧ (∃ (x : Issuer) (s : State) (f : SemOp), x.Stands s ∧ NoWide x ∧ x.split.wait = none
      ∧ 2 ^ 31 ≤ ((x.block.sem f.sm.toNat).value - x.reel.sget f.sa.toNat).toNat)
    ∧ ∃ (x : Issuer) (s : State) (m : Nat) (th : Word), x.Stands s ∧ NoWide x ∧ x.split.wait = some (.sem m th true) :=
  ⟨⟨lone, _, ⟨0, 2, 31⟩, lone_stands, lone_narrow, rfl, by decide, by decide⟩,
    ⟨actsIn { reel with s := [(1, 0x80000000)] } (split 1 []) block Hints.empty far, _, ⟨1, 0, 31⟩, actsIn_stands _ _ _ _ _, .inl rfl, rfl, by decide⟩,
    ⟨actsIn reel { split 1 [] with wait := some (.sem 31 1 true) } block Hints.empty far, _, 31, 1, actsIn_stands _ _ _ _ _, .inl rfl, rfl⟩⟩

theorem witness_Watches :
    (∃ (x : Issuer) (s : State) (f : WatchOp), x.Stands s ∧ NoWide x ∧ f.sa.toNat % 2 = 0 ∧ Allows x true false (pairVa x f.sa.toNat)
      ∧ x.reel.busyS f.sd.toNat = false ∧ x.reel.ld < 63)
    ∧ (∃ (x : Issuer) (s : State), x.Stands s ∧ NoWide x ∧ x.split.wait = none ∧ parkNow x.reel ≠ 0)
    ∧ (∃ (x : Issuer) (s : State) (timeout since : Nat) (st : Word), x.Stands s ∧ NoWide x ∧ x.split.wait = some (.park timeout since (some st)))
    ∧ ∃ (x : Issuer) (s : State), x.Stands s ∧ NoWide x ∧ x.split.wait = none ∧ parkNow x.reel = 0 :=
  ⟨⟨lone, _, ⟨63, 0, 1⟩, lone_stands, lone_narrow, by decide, allows_of (by decide), rfl, by decide⟩,
    ⟨lone, _, lone_stands, lone_narrow, rfl, by decide⟩,
    ⟨actsIn reel { split 1 [] with wait := some (.park 1 0 (some 8)) } block Hints.empty far, _, 1, 0, 8, actsIn_stands _ _ _ _ _, .inl rfl, rfl⟩,
    ⟨actsIn { reel with watches := [(1, ⟨.armed, 64, 0, false, 0, false, 7, 64⟩)] } (split 1 []) block Hints.empty far, _, actsIn_stands _ _ _ _ _,
      .inl rfl, rfl, by decide⟩⟩

/-- The loop of iterations 0 to 4 with a window of 2, of which `next` is the next. -/
def loop (next : Nat) : LoopCtl := ⟨true, 0, 5, next, 2, 1, []⟩

/-- A lone lane in a block with a loop, perhaps in an iteration itself, perhaps waiting. -/
def looping (lp : LoopCtl) (st : Map StageEntry) (iter : Option Nat) (w : Option Wait) : Issuer :=
  actsIn { reel with iter := iter, s := [(1, 0x80000000), (4, 4)] } { split 1 [] with wait := w } { block with loop := lp, stages := st } Hints.empty far

theorem looping_stands (lp : LoopCtl) (st : Map StageEntry) (iter : Option Nat) (w : Option Wait) :
    (looping lp st iter w).Stands (looping lp st iter w).s := actsIn_stands _ _ _ _ _

/-- A live entry of an iteration at a counter, and a complete one. -/
def live (iter : Nat) (c : BitVec 16) : StageEntry := ⟨iter, c, 0, false, []⟩
/-- The complete one. -/
def finished (iter : Nat) : StageEntry := ⟨iter, 0xFFFF, 0, true, []⟩

theorem witness_StagedLoops :
    (∃ (x : Issuer) (s : State) (f : SLoopOp), x.Stands s ∧ 1 ≤ f.w.toNat ∧ f.w.toNat ≤ 32 ∧ x.block.loop.isOpen = false
      ∧ (x.reel.sget f.sf.toNat).toNat < 2 ^ 31 ∧ (x.reel.sget f.sf.toNat).toNat + (x.reel.sget f.sc.toNat).toNat ≤ 2 ^ 31)
    ∧ (∃ (x : Issuer) (s : State) (f : SLoopOp), x.Stands s ∧ x.Vectors ∧ 1 ≤ f.w.toNat ∧ f.w.toNat ≤ 32 ∧ 2 ^ 31 ≤ (x.reel.sget f.sf.toNat).toNat)
    ∧ (∃ (x : Issuer) (s : State), x.Stands s ∧ x.reel.iter = none ∧ x.block.loop.f + x.block.loop.n ≤ x.block.loop.next)
    ∧ (∃ (x : Issuer) (s : State), x.Stands s ∧ x.reel.iter = none ∧ x.split.wait = none ∧ x.block.loop.isOpen = true
      ∧ x.block.loop.next < x.block.loop.f + x.block.loop.n
      ∧ (∀ p ∈ x.block.stages, p.2.complete = true ∨ x.block.loop.next < p.2.iter + x.block.loop.w)
      ∧ x.s.waitsBefore x.reel.block x.s.nextId = false ∧ freeEntry x.block 1 ∧ ¬ freeEntry x.block 0)
    ∧ (∃ (x : Issuer) (s : State), x.Stands s ∧ x.reel.iter = none ∧ x.split.wait = none ∧ x.block.loop.isOpen = true
      ∧ x.block.loop.next < x.block.loop.f + x.block.loop.n
      ∧ ¬ (∀ p ∈ x.block.stages, p.2.complete = true ∨ x.block.loop.next < p.2.iter + x.block.loop.w))
    ∧ (∃ (x : Issuer) (s : State) (i : Nat) (e : StageEntry), x.Stands s ∧ InIteration x i e ∧ Released x 0 ∧ InOrder x)
    ∧ (∃ (x : Issuer) (s : State) (f : StOp) (i : Nat) (e : StageEntry), x.Stands s ∧ InIteration x i e ∧ x.split.wait = none
      ∧ min 0xFFFF (stageOp x f) < x.block.predCount e.iter)
    ∧ (∃ (x : Issuer) (s : State) (f : StOp) (i : Nat) (e : StageEntry), x.Stands s ∧ InIteration x i e ∧ x.split.wait = none
      ∧ ¬ (min 0xFFFF (stageOp x f) < x.block.predCount e.iter ∨ x.block.predCount e.iter = 0xFFFF))
    ∧ (∃ (x : Issuer) (s : State), x.Stands s ∧ x.reel.iter = none ∧ x.split.wait = none ∧ x.block.loop.isOpen = true
      ∧ x.block.loop.f + x.block.loop.n ≤ x.block.loop.next ∧ ∀ p ∈ x.block.stages, p.2.complete = true)
    ∧ (∃ (x : Issuer) (s : State), x.Stands s ∧ x.reel.iter = none ∧ x.split.wait = none ∧ x.block.loop.isOpen = true
      ∧ ¬ (x.block.loop.f + x.block.loop.n ≤ x.block.loop.next ∧ ∀ p ∈ x.block.stages, p.2.complete = true))
    ∧ (∃ (x : Issuer) (s : State) (i stage : Nat) (carry : List Nat), x.Stands s ∧ x.split.wait = some (.waitl i stage (some carry)))
    ∧ ∃ (x : Issuer) (s : State) (gen : BitVec 8) (carry : List Nat), x.Stands s ∧ x.split.wait = some (.send gen (some carry)) :=
  ⟨⟨lone, _, ⟨0, 0, 32⟩, lone_stands, by decide, by decide, rfl, by decide, by decide⟩,
    ⟨looping (loop 0) [] none none, _, ⟨0, 1, 32⟩, looping_stands _ _ _ _, ⟨rfl, by decide⟩, by decide, by decide, by decide⟩,
    ⟨looping (loop 5) [] none none, _, looping_stands _ _ _ _, rfl, by decide⟩,
    ⟨looping (loop 1) [(0, live 0 3)] none none, _, looping_stands _ _ _ _, rfl, rfl, rfl, by decide, by decide, by decide,
      fun e h => (nomatch h), fun h => absurd (h (live 0 3) rfl) (by decide)⟩,
    ⟨looping (loop 2) [(0, live 0 3), (1, live 1 0)] none none, _, looping_stands _ _ _ _, rfl, rfl, rfl, by decide, by decide⟩,
    ⟨looping (loop 2) [(0, live 0 3), (1, live 1 0xFFFF)] (some 1) none, _, 1, _, looping_stands _ _ _ _, ⟨rfl, rfl⟩, ⟨rfl, by decide⟩,
      fun p hp h => absurd (by cases List.mem_singleton.mp hp; rfl) h⟩,
    ⟨looping (loop 2) [(0, live 0 3), (1, live 1 0)] (some 1) none, _, ⟨0, 2⟩, 1, _, looping_stands _ _ _ _, ⟨rfl, rfl⟩, rfl, by decide⟩,
    ⟨looping (loop 2) [(0, live 0 3), (1, live 1 0)] (some 1) none, _, ⟨0, 3⟩, 1, _, looping_stands _ _ _ _, ⟨rfl, rfl⟩, rfl, by decide⟩,
    ⟨looping (loop 5) [(0, finished 4)] none none, _, looping_stands _ _ _ _, rfl, rfl, rfl, by decide, by decide⟩,
    ⟨looping (loop 5) [(0, live 4 0)] none none, _, looping_stands _ _ _ _, rfl, rfl, rfl, by decide⟩,
    ⟨looping (loop 2) [(1, live 1 0)] (some 1) (some (.waitl 1 3 (some [6]))), _, 1, 3, [6], looping_stands _ _ _ _, rfl⟩,
    ⟨looping (loop 0) [] none (some (.send 1 (some [6]))), _, 1, [6], looping_stands _ _ _ _, rfl⟩⟩

theorem witness_StagedLoopsRefused :
    (∃ (x : Issuer) (s : State), x.Stands s ∧ x.Vectors ∧ x.reel.iter ≠ none ∧ x.split.wait = none)
    ∧ ∃ (x : Issuer) (s : State), x.Stands s ∧ x.Vectors ∧ x.reel.iter = none ∧ x.split.wait = none :=
  ⟨⟨looping (loop 2) [(0, live 0 3)] (some 0) none, _, looping_stands _ _ _ _, ⟨rfl, by decide⟩, by decide, rfl⟩,
    ⟨looping (loop 0) [] none none, _, looping_stands _ _ _ _, ⟨rfl, by decide⟩, rfl, rfl⟩⟩

theorem witness_StageWords :
    (∃ (x : Issuer) (s : State) (f : SPostOp) (i : Nat) (e : StageEntry), x.Stands s ∧ f.sa.toNat % 2 = 0 ∧ InIteration x i e
      ∧ Released x f.scope.toNat ∧ Allows x false true (stageVa x f.sa.toNat) ∧ x.reel.st < 63 ∧ x.s.attrUsed x.coreId < 512)
    ∧ (∃ (x : Issuer) (s : State) (f : WaitMOp), x.Stands s ∧ f.sa.toNat % 2 = 0 ∧ x.split.wait = none ∧ x.reel.busyS f.sd.toNat = false
      ∧ Allows x true false (stageVa x f.sa.toNat))
    ∧ (∃ (x : Issuer) (s : State) (f : WaitMOp) (m : WaitMRec), x.Stands s ∧ f.sa.toNat % 2 = 0 ∧ x.split.wait = some (.waitm m)
      ∧ m.phase = .dropped)
    ∧ (∃ (x : Issuer) (s : State) (f : WaitMOp) (m : WaitMRec) (v : Word), x.Stands s ∧ f.sa.toNat % 2 = 0 ∧ x.split.wait = some (.waitm m)
      ∧ m.phase = .got v ∧ (m.stage < v.toNat % 2 ^ 16 ∨ v.toNat % 2 ^ 16 = 0xFFFF))
    ∧ (∃ (x : Issuer) (s : State) (f : WaitMOp) (m : WaitMRec) (v : Word), x.Stands s ∧ f.sa.toNat % 2 = 0 ∧ x.split.wait = some (.waitm m)
      ∧ m.phase = .got v ∧ ¬ (m.stage < v.toNat % 2 ^ 16 ∨ v.toNat % 2 ^ 16 = 0xFFFF) ∧ m.told = true)
    ∧ ∃ (x : Issuer) (s : State) (f : WaitMOp) (m : WaitMRec) (v : Word), x.Stands s ∧ f.sa.toNat % 2 = 0 ∧ x.split.wait = some (.waitm m)
      ∧ m.phase = .got v ∧ ¬ (m.stage < v.toNat % 2 ^ 16 ∨ v.toNat % 2 ^ 16 = 0xFFFF) ∧ m.told = false :=
  ⟨⟨looping (loop 2) [(0, live 0 3), (1, live 1 9)] (some 1) none, _, ⟨4, 3⟩, 1, _, looping_stands _ _ _ _, rfl, ⟨rfl, rfl⟩, ⟨rfl, by decide⟩,
      allows_of (by decide), by decide, by decide⟩,
    ⟨lone, _, ⟨63, 0, 1, 2⟩, lone_stands, rfl, rfl, rfl, allows_of (by decide)⟩,
    ⟨looping (loop 0) [] none (some (.waitm ⟨0, 1, 0, .dropped, false⟩)), _, ⟨63, 0, 1, 2⟩, _, looping_stands _ _ _ _, rfl, rfl, rfl⟩,
    ⟨looping (loop 0) [] none (some (.waitm ⟨0, 1, 0xFFFF, .got 0xFFFF, false⟩)), _, ⟨63, 0, 1, 2⟩, _, 0xFFFF, looping_stands _ _ _ _, rfl, rfl, rfl,
      .inr (by decide)⟩,
    ⟨looping (loop 0) [] none (some (.waitm ⟨0, 1, 4, .got 4, true⟩)), _, ⟨63, 0, 1, 2⟩, _, 4, looping_stands _ _ _ _, rfl, rfl, rfl, by decide, rfl⟩,
    ⟨actsIn { reel with watches := [(1, ⟨.armed, 64, 0, false, 0, false, 7, 64⟩)] } { split 1 [] with wait := some (.waitm ⟨64, 1, 4, .got 4, false⟩) } block
        Hints.empty far, _, ⟨63, 0, 1, 2⟩, _, 4, actsIn_stands _ _ _ _ _, rfl, rfl, rfl, by decide, rfl⟩⟩

/-- Tile 14 of the core is the block's, of 64-bit elements. -/
def tiled : Issuer := actsIn { reel with mx := 14, eng := 14, s := [(2, 4064), (4, 4096)] } (split 1 []) block Hints.empty
  { far with cores := far.cores.put 0 { far.core 0 with ac := [(14, ⟨0, 2, false, false, 0, 0, none, none, []⟩)] } }

theorem witness_EngineCommands :
    (∃ (x : Issuer) (s : State) (i : Instr) (op : EngOp) (sem scope inc : Nat), x.Stands s ∧ CmdRow x i op sem scope inc ∧ x.reel.eng < 15)
    ∧ (∃ (x : Issuer) (s : State) (f : LayOp), x.Stands s ∧ CmdRow x (.laysetSpad f) (.layset 63 true 4064) 0 0 0 ∧ x.reel.eng < 15)
    ∧ ∃ (x : Issuer) (s : State) (f : LayOp), x.Stands s ∧ NoWide x ∧ x.block.desc.spad < down32 (x.reel.sget f.sa.toNat).toNat + 32 ∧ x.Vectors :=
  ⟨⟨tiled, _, _, _, _, _, _, actsIn_stands _ _ _ _ _, .cpy ⟨63, 63, 3, 31⟩ (by decide), by decide⟩,
    ⟨tiled, _, ⟨63, 2⟩, actsIn_stands _ _ _ _ _, .laysetSpad ⟨63, 2⟩ (.inl rfl) (by decide), by decide⟩,
    ⟨tiled, _, ⟨63, 4⟩, actsIn_stands _ _ _ _ _, .inl rfl, by decide, rfl, by decide⟩⟩

theorem witness_TileMoves : ∃ (x : Issuer) (s : State) (f : AccOp) (t : AcTile), x.Stands s ∧ NoWide x ∧ OwnTile x f.ac.toNat t
    ∧ tileReg x t f.vd.toNat ∧ x.active ≠ 0 ∧ x.reel.mx < 15 ∧ x.reel.busyV f.vd.toNat = false ∧ (t.fmt = 2 → x.reel.busyV (f.vd.toNat + 1) = false) :=
  ⟨tiled, _, ⟨126, 0, 14⟩, _, actsIn_stands _ _ _ _ _, .inl rfl, ⟨rfl, rfl, by decide, rfl, fun _ => rfl⟩, ⟨rfl, by decide⟩, by decide, by decide,
    rfl, fun _ => rfl⟩

/-- A block of a gang of two, itself the first and another core's the second; v0 names the second's last word, v1 a member past the last. -/
def ganged : Issuer :=
  actsIn { reel with v := [(0, 0x40000FFC), (32, 0x80000000)] } (split 1 []) { block with gang := [0, 32] } Hints.empty
    { far with blocks := [(32, { block with core := 1, gang := [0, 32], member := 1, full := [(1023, true)] })] }

theorem ganged_lane {l : Nat} (h : ganged.lane l) : l = 0 := by
  have h : (1 : Word).getLsbD l = true := h
  cases l with
  | zero => rfl
  | succ l => simp [BitVec.getLsbD, Nat.testBit_succ] at h

theorem witness_RemoteAccesses :
    (∃ (i : Instr) (x : Issuer) (f : MOp) (cls mode n : Nat) (s : State) (m target : Nat) (b : Block), RemoteRow x i f cls mode n ∧ x.Stands s
      ∧ x.active ≠ 0 ∧ x.split.wait = none ∧ (∀ l, x.lane l → memberOf x f l = m ∧ offsetOf x f l + 4 ≤ x.block.desc.spad)
      ∧ x.block.gang[m]? = some target ∧ x.s.blocks.find? target = some b ∧ target ≠ x.reel.block ∧ x.reel.held = false ∧ NoneUnderWay x
      ∧ x.s.skidFull x.cur.reel x.reel = false ∧ (cls = 1 → mode ≠ 0 → x.reel.scratchDone x.cur.split x.s.nextId = true)
      ∧ (cls ≠ 1 → x.reel.ld < 63 ∧ x.reel.busyV f.vt.toNat = false) ∧ (cls = 1 → x.reel.st < 63)
      ∧ (cls ≠ 2 → Qualified b (cls == 0) mode ((laneList x.active).map fun l => (l, offsetOf x f l)) 4)
      ∧ (cls ≠ 1 → Unpoisoned b ((laneList x.active).map fun l => (l, offsetOf x f l)) 4))
    ∧ ∃ (i : Instr) (x : Issuer) (f : MOp) (cls mode n : Nat) (s : State), RemoteRow x i f cls mode n ∧ x.Stands s ∧ x.active ≠ 0
      ∧ x.split.wait = none ∧ (∃ l, x.lane l ∧ x.block.gang.length ≤ memberOf x f l) ∧ x.Vectors :=
  ⟨⟨_, ganged, _, _, _, _, _, 1, 32, _, .rldsTake ⟨127, 0, 0, 0⟩ ⟨by decide, by decide, by decide, by decide, by decide⟩, actsIn_stands _ _ _ _ _,
      by decide, rfl, fun l h => by cases ganged_lane h; decide, rfl, rfl, by decide, by decide,
      fun p hp => .inl (by cases List.mem_singleton.mp hp; rfl), by decide, fun h => by simp at h, fun _ => ⟨by decide, rfl⟩, fun h => by simp at h,
      fun _ w ⟨p, hp, h⟩ => by
        have : p = (0, 4092) := List.mem_singleton.mp
          ((show (laneList ganged.active).map (fun l => (l, offsetOf ganged ⟨127, 0, 0, 0⟩ l)) = [(0, 4092)] by decide) ▸ hp)
        subst this
        have : w = 1023 := by simp only [inWord] at h; omega
        subst this
        decide, fun _ => untouched_of rfl⟩,
    ⟨_, ganged, _, _, _, _, _, .ratomCas ⟨126, 0, 1, 0⟩ ⟨by decide, by decide, by decide, by decide, by decide⟩, actsIn_stands _ _ _ _ _, by decide,
      rfl, ⟨0, by unfold Issuer.lane; decide, by decide⟩, rfl, by decide⟩⟩

/-! ## Every statement's hypotheses can be met: fault service and the stream -/

/-- A record with everything 0. -/
def blank : FaultRec :=
  { kind := 0, exited := false, load := false, store := false, engine := false, hmode := false, held := false, context := 0, part := 0, launch := 5
    block := 0, lcore := 0, pcore := 0, bangen := 0, reel := 0, detail := 0, seq := 0, skid := 0, inst := 0, pc := 0, lanes := 0, va := 0, line := 0
    pa := 0, level := 0, stage := false, aux := 0, bmask := 0, image := 0, split := 0, ipc := 0x10000, reelKey := none, blockKey := 32
    loadId := none, sid := none, piece := 0, cmd := none, atom := none, dom := 0, state := .delivered, addr := 0x100, slotTaken := true, served := true }

/-- The reel of core 1 that the record holds, with one load outstanding. -/
def heldReel : Reel :=
  { reel with block := 32, heldBy := [7], splits := [(0, split 1 [])]
              loads := [⟨9, 0, 0, 1, .vec 4 8 false, [⟨0, 0, none, true⟩], none, [7], 0, 0⟩] }

/-- A fault-service block on record 7, whose address it has in S2, beside the held reel. -/
def serving (q : FaultRec) : Issuer :=
  actsIn { reel with s := [(2, 0x100)] } (split 1 []) { block with service := some 7, fsrec := 0x100 } Hints.empty
    { far with reels := [(32, heldReel)], faults := [(7, q)] }

theorem serving_stands (q : FaultRec) : (serving q).Stands (serving q).s := actsIn_stands _ _ _ _ _

theorem serving_serves (q : FaultRec) : Serves (serving q) 2 7 q := ⟨rfl, rfl, by show pairVa (serving blank) 2 = 0x100; decide, rfl⟩

theorem serving_holds {q : FaultRec} (h : q.reelKey = some 32) : Holds (serving q) 7 q 32 heldReel := ⟨h, rfl, by decide, by show (32 : Nat) ≠ 0; decide⟩

theorem witness_HeldRegisters :
    (∃ (x : Issuer) (s : State) (id : Nat) (q : FaultRec) (f : HOp) (k : Nat) (r : Reel), x.Stands s ∧ Serves x f.sa id q
      ∧ selectorOk x.block.desc.vregs (fileOf x) f.imm.toNat = true ∧ selectorWritable (fileOf x) f.imm.toNat = true ∧ fileOf x = 0
      ∧ f.d.toNat < x.block.desc.vregs ∧ x.active ≠ 0 ∧ x.reel.busyV f.d.toNat = false ∧ Holds x id q k r)
    ∧ (∃ (x : Issuer) (s : State) (id : Nat) (q : FaultRec) (f : HOp), x.Stands s ∧ Serves x f.sa id q
      ∧ selectorOk x.block.desc.vregs (fileOf x) f.imm.toNat = true ∧ selectorWritable (fileOf x) f.imm.toNat = true ∧ fileOf x = 3
      ∧ f.d.toNat < 64 ∧ x.reel.busyS f.d.toNat = false ∧ q.reelKey = none)
    ∧ ∃ (x : Issuer) (s : State) (id : Nat) (q : FaultRec) (f : HlOp) (k : Nat) (r : Reel) (o : OutLoad) (reg n : Nat) (sx : Bool), x.Stands s
      ∧ Serves x f.sa id q ∧ Holds x id q k r ∧ NoWide x ∧ r.loads.find? (fun o => some o.id == q.loadId) = some o ∧ o.dst = .vec reg n sx
      ∧ f.vs.toNat + (n + 3) / 4 ≤ x.block.desc.vregs :=
  ⟨⟨serving { blank with reelKey := some 32 }, _, 7, _, ⟨127, 2, 127⟩, 32, _, serving_stands _, serving_serves _, by decide, by decide, rfl,
      by decide, by decide, rfl, serving_holds rfl⟩,
    ⟨actsIn { reel with s := [(2, 0x100)] } (split 1 []) { block with service := some 7, fsrec := 0x100 } { Hints.empty with hx := some 3 }
        { far with faults := [(7, blank)] }, _, 7, _, ⟨63, 2, 24⟩, actsIn_stands _ _ _ _ _, ⟨rfl, rfl, by decide, rfl⟩, by decide, by decide,
      by decide, by decide, rfl, rfl⟩,
    ⟨serving { blank with reelKey := some 32, loadId := some 9 }, _, 7, _, ⟨126, 2⟩, 32, _, _, 4, 8, false, serving_stands _, serving_serves _,
      serving_holds rfl, .inl rfl, rfl, rfl, by decide⟩⟩

theorem witness_ResumesAndKills :
    (∃ (i : Instr) (m : ResumeMode) (f : S2) (x : Issuer) (s : State) (id : Nat), ResumeRow i m f ∧ x.Stands s ∧ NoWide x ∧ f.sa.toNat % 2 = 0
      ∧ x.block.service = some id ∧ x.reel.busyS f.sd.toNat = false ∧ pairVa x f.sa.toNat ≠ x.block.fsrec)
    ∧ (∃ (i : Instr) (m : ResumeMode) (f : S2) (x : Issuer) (s : State) (id : Nat) (q : FaultRec) (k : Nat) (r : Reel) (p : Split),
      ResumeRow i m f ∧ m = .retry ∧ x.Stands s ∧ NoWide x ∧ f.sa.toNat % 2 = 0 ∧ x.block.service = some id ∧ x.reel.busyS f.sd.toNat = false
      ∧ Serves x f.sa id q ∧ q.state ≠ .resolved ∧ q.accepts m = true ∧ q.cls = .precise ∧ q.noInstruction = false ∧ Holds x id q k r
      ∧ r.splits.find? q.split = some p ∧ p.wait = none)
    ∧ (∃ (i : Instr) (m : ResumeMode) (f : S2) (x : Issuer) (s : State) (id : Nat) (q : FaultRec),
      ResumeRow i m f ∧ m = .drop ∧ x.Stands s ∧ NoWide x ∧ Serves x f.sa id q ∧ q.state ≠ .resolved ∧ q.accepts m = false)
    ∧ (∃ (i : Instr) (m : ResumeMode) (f : S2) (x : Issuer) (s : State) (id : Nat) (q : FaultRec),
      ResumeRow i m f ∧ m = .drop ∧ x.Stands s ∧ NoWide x ∧ Serves x f.sa id q ∧ q.state ≠ .resolved ∧ q.cls = .store ∧ q.kind ≠ 0x16
      ∧ q.loadId = none ∧ q.cmd = none ∧ q.sid = some 3)
    ∧ ∃ (f : S2) (x : Issuer) (s : State) (id : Nat) (q : FaultRec) (k : Nat) (r : Reel), x.Stands s ∧ NoWide x ∧ Serves x f.sa id q
      ∧ x.reel.busyS f.sd.toNat = false ∧ Holds x id q k r ∧ q.state = .delivered ∧ r.exited = false ∧ r.killed = false :=
  ⟨⟨_, _, _, serving blank, _, 7, .continue ⟨63, 4⟩, serving_stands _, .inl rfl, rfl, rfl, rfl, by decide⟩,
    ⟨_, _, _, serving { blank with reelKey := some 32, kind := 6 }, _, 7, _, 32, _, _, .retry ⟨63, 2⟩, rfl, serving_stands _, .inl rfl, rfl, rfl, rfl,
      serving_serves _, by decide, by decide, by decide, by decide, serving_holds rfl, rfl, rfl⟩,
    ⟨_, _, _, serving { blank with kind := 6 }, _, 7, _, .drop ⟨63, 2⟩, rfl, serving_stands _, .inl rfl, serving_serves _, by decide, by decide⟩,
    ⟨_, _, _, serving { blank with kind := 1, sid := some 3 }, _, 7, _, .drop ⟨63, 2⟩, rfl, serving_stands _, .inl rfl, serving_serves _, by decide,
      by decide, by decide, rfl, rfl, rfl⟩,
    ⟨⟨63, 2⟩, serving { blank with reelKey := some 32 }, _, 7, _, 32, _, serving_stands _, .inl rfl, serving_serves _, rfl, serving_holds rfl, rfl, rfl,
      rfl⟩⟩

theorem witness_DeviceLaunches : (∃ (x : Issuer) (s : State) (f : LaunchOp), x.Stands s ∧ f.sa.toNat % 2 = 0
      ∧ Allows x true false (pairVa x f.sa.toNat - pairVa x f.sa.toNat % 128) ∧ x.reel.busyS f.sd.toNat = false ∧ x.reel.ld < 63
      ∧ Released x f.cls.toNat)
    ∧ ∃ (x : Issuer) (s : State) (f : S2), x.Stands s ∧ x.reel.busyS f.sd.toNat = false ∧ x.reel.ld < 63 :=
  ⟨⟨lone, _, ⟨63, 0, 3⟩, lone_stands, rfl, allows_of (by decide), rfl, by decide, rfl, by decide⟩, ⟨lone, _, ⟨63, 0⟩, lone_stands, rfl, by decide⟩⟩

/-- What a stream word of the block acts in, with an HX payload before it or none, in a machine that is else `t`. -/
def streams (b : Block) (hx : Option (BitVec 23)) (t : State) : Streamer :=
  let c : SCur := ⟨0, 0x3000, 0xC0000000, hx⟩
  ⟨{ t with blocks := t.blocks.put 0 b, scur := some c }, c, b⟩

theorem streams_stands (b : Block) (hx : Option (BitVec 23)) (t : State) : StreamStands (streams b hx t) (streams b hx t).s where
  state := rfl
  latched := rfl
  block := Map.find?_put_self _ _ _

/-- The block with its sequencer running, q15 at a value. -/
def running (q : Word) (w : Option SeqWait) (pending : Option (VA × Word)) : Block :=
  { block with seq := ⟨.running, 0x3000, [(15, q)], pending, w, none, []⟩, barriers := [(14, gate 0), (15, gate 1)] }

theorem witness_StreamControl :
    (∃ (y : Streamer) (s : State) (f : MLoopOp), StreamStands y s ∧ ControlRow y (.mloop f) (streamTo y f.off.toNat 18) (some (15, 0xFFFFFFFF)))
    ∧ (∃ (y : Streamer) (s : State) (f : MLoopOp), StreamStands y s ∧ ControlRow y (.mloop f) (after y) (some (15, 0)))
    ∧ (∃ (y : Streamer) (s : State), StreamStands y s ∧ y.cur.hx = none ∧ y.block.seq.pending = none)
    ∧ (∃ (y : Streamer) (s : State) (a : VA) (v : Word), StreamStands y s ∧ y.cur.hx = none ∧ y.block.seq.pending = some (a, v))
    ∧ (∃ (y : Streamer) (s : State), StreamStands y s ∧ y.block.err = 0 ∧ s.faultEntry y.block.launch y.cur.block ≠ 0)
    ∧ (∃ (y : Streamer) (s : State) (f : MBarQ), Plain y s ∧ (y.block.barrier f.b.toNat).arrivals + 1 ≠ (y.block.barrier f.b.toNat).expected)
    ∧ (∃ (y : Streamer) (s : State) (f : MBarQ), Plain y s ∧ (y.block.barrier f.b.toNat).arrivals + 1 = (y.block.barrier f.b.toNat).expected
      ∧ y.block.seq.wait = none ∧ (y.block.barrier f.b.toNat).phase - (y.block.getQ f.q.toNat).setWidth 16 = 0)
    ∧ ∃ (y : Streamer) (s : State) (i' : Nat) (t' : BitVec 16) (q' : Option Nat), Plain y s ∧ y.block.seq.wait = some (.barrier i' t' true q') :=
  ⟨⟨streams (running 0 none none) none far, _, ⟨15, 0x3FFFF⟩, streams_stands _ _ _, .mloop _ rfl (by decide)⟩,
    ⟨streams (running 1 none none) none far, _, ⟨15, 0x3FFFF⟩, streams_stands _ _ _, .mloopEnd _ rfl (by decide)⟩,
    ⟨streams (running 0 none none) none far, _, streams_stands _ _ _, rfl, rfl⟩,
    ⟨streams (running 0 none (some (0x4000, 9))) none far, _, 0x4000, 9, streams_stands _ _ _, rfl, rfl⟩,
    ⟨streams (running 0 none none) none far, _, streams_stands _ _ _, rfl, by decide⟩,
    ⟨streams (running 0 none none) none far, _, ⟨14, 0⟩, ⟨streams_stands _ _ _, rfl⟩, by decide⟩,
    ⟨streams (running 0xFFFF none none) none far, _, ⟨15, 15⟩, ⟨streams_stands _ _ _, rfl⟩, by decide, rfl, by decide⟩,
    ⟨streams (running 0 (some (.barrier 15 0xFFFF true (some 15))) none) none far, _, _, _, _, ⟨streams_stands _ _ _, rfl⟩, rfl⟩⟩

/-- The core with slot 30 and the pair of tiles 14 and 15 claimed by the block, and slots 0 and 1 loaded for a product. -/
def claimed (fmt : Nat) : State :=
  { far with cores := far.cores.put 0 { far.core 0 with
      om := [(0, ⟨0, .loaded 3 false 128 0, []⟩), (1, ⟨0, .loaded 3 true 128 0, []⟩), (30, ⟨0, .empty, []⟩)]
      ac := [(14, ⟨0, fmt, false, false, 0, 0, none, none, []⟩), (15, ⟨0, fmt, false, false, 0, 0, none, none, []⟩)] } }

/-- The image of a layout in scratchpad of elements of a code, `n0` by 32, column by column. -/
def image (esize n0 : Nat) : BitVec 256 :=
  BitVec.ofNat 256 ((n0 - 1) * 2 ^ 96 + 31 * 2 ^ 112 + n0 * 2 ^ esize * 2 ^ 160 + esize * 2 ^ 91)

/-- A running block with layout 63, and q15 at a value. -/
def laid (esize n0 : Nat) (q : Word) : Block := { running q none none with lays := [(63, image esize n0)] }

theorem witness_StreamClaimsAndLoads :
    (∃ (y : Streamer) (s : State) (f : ClaimOp), Plain y s ∧ f.kind = 0 ∧ f.first.toNat + f.cnt.toNat < (if f.kind = 1 then 16 else 32)
      ∧ ∀ n, named f n → claimant (s.core y.block.core) f n = none)
    ∧ (∃ (y : Streamer) (s : State) (f : ClaimOp), Plain y s ∧ f.kind = 1 ∧ f.first.toNat + f.cnt.toNat < (if f.kind = 1 then 16 else 32)
      ∧ ∀ n, named f n → claimant (s.core y.block.core) f n = some y.cur.block)
    ∧ ∃ (y : Streamer) (s : State) (i : Instr) (slot : Nat) (st : SlotState) (d : Layout) (esize n0 n1 : Nat) (o : OmSlot), Plain y s
      ∧ SlotRow y i slot st d esize n0 n1 ∧ (s.core y.block.core).om.find? slot = some o ∧ o.owner = y.cur.block ∧ LayoutFits y d esize n0 n1
      ∧ Readable y d :=
  ⟨⟨streams (running 0 none none) none (claimed 1), _, ⟨0, 31, 0⟩, ⟨streams_stands _ _ _, rfl⟩, rfl, by decide, fun n h => by
      have : n = 31 := by have : 31 ≤ n ∧ n < 32 := h; omega
      subst this
      decide⟩,
    ⟨streams (running 0 none none) none (claimed 1), _, ⟨1, 14, 1⟩, ⟨streams_stands _ _ _, rfl⟩, rfl, by decide, fun n h => by
      have : n = 14 ∨ n = 15 := by have : 14 ≤ n ∧ n < 16 := h; omega
      rcases this with rfl | rfl <;> decide⟩,
    ⟨streams (laid 2 1 0) none (claimed 1), _, _, _, _, _, _, _, _, _, ⟨streams_stands _ _ _, rfl⟩, .groups ⟨30, 63, 6, 0, 1, 15⟩ 1 rfl rfl (by decide), rfl,
      rfl, ⟨by decide +kernel, by decide, by decide, by decide, by decide, by decide, by decide⟩, fun _ _ _ _ => rfl⟩⟩


theorem witness_StreamProducts : ∃ (y : Streamer) (s : State) (i : Instr) (n : Nat) (t : AcTile) (ta : Nat) (a : Nat → Nat → Option Word)
    (b : Nat → Nat → Nat × Word) (k : Nat) (rm : RMode) (sr sc : Nat → Nat → FVal), Plain y s ∧ ProductRow y (s.core y.block.core) i n t ta a b k rm
    ∧ (t.fmt ≠ 3 → y.block.scales t.count.toNat k t.rowScale = .ok sr ∧ y.block.scales t.count.toNat k t.colScale = .ok sc) :=
  ⟨streams (running 0 none none) none (claimed 2), _, _, _, _, _, _, _, _, _, _, _, ⟨streams_stands _ _ _, rfl⟩,
    .mma ⟨14, 0, 1, 3⟩ _ 3 3 128 128 0 0 [] [] (by decide) (by decide) (by decide) ⟨_, rfl, rfl, rfl, rfl⟩ ⟨_, rfl, rfl, rfl, rfl⟩
      ⟨rfl, rfl, .inr (.inl rfl), fun _ => ⟨rfl, _, rfl, rfl, rfl⟩⟩ rfl (by decide), fun _ => ⟨rfl, rfl⟩⟩

theorem witness_StreamTiles :
    (∃ (y : Streamer) (s : State) (f : MZeroOp) (t : AcTile), Plain y s ∧ f.fmt ≠ 3 ∧ (s.core y.block.core).ac.find? f.tile.toNat = some t
      ∧ t.owner = y.cur.block ∧ f.fmt.toNat + 1 = 2 ∧ f.tile.toNat % 2 = 0
      ∧ ∃ p, (s.core y.block.core).ac.find? (f.tile.toNat + 1) = some p ∧ p.owner = y.cur.block)
    ∧ (∃ (y : Streamer) (s : State) (f : MScaleOp) (t : AcTile), Plain y s ∧ TileIs y (s.core y.block.core) f.tile.toNat t ∧ t.fmt ≠ 3
      ∧ LayoutFits y (layoutAt y f.lay.toNat 0 0) 2 (((y.block.getQ f.q.toNat).toNat + 32 * 2 ^ f.e.toNat - 1) / (32 * 2 ^ f.e.toNat)) 32
      ∧ (y.block.getQ f.q.toNat).toNat ≠ 0 ∧ (y.block.getQ f.q.toNat).toNat % 32 = 0)
    ∧ (∃ (y : Streamer) (s : State) (f : MTaddOp) (t : AcTile), Plain y s ∧ TileIs y (s.core y.block.core) f.tile.toNat t ∧ f.src ≠ 3
      ∧ (f.src = 2 ↔ t.fmt = 3) ∧ LayoutFits y (layoutAt y f.lay.toNat f.qo f.q) (if f.src = 1 then 3 else 2) 32 32
      ∧ Readable y (layoutAt y f.lay.toNat f.qo f.q))
    ∧ ∃ (y : Streamer) (s : State) (f : MStoreOp) (t : AcTile), Plain y s ∧ TileIs y (s.core y.block.core) f.tile.toNat t ∧ f.type ≠ 7
      ∧ f.rm.toNat < 5 ∧ storeOk t.fmt f.type.toNat f.rm.toNat = true
      ∧ LayoutFits y (layoutAt y f.lay.toNat f.qo f.q) (storeEsize f.type.toNat) 32 32 :=
  ⟨⟨streams (running 0 none none) none (claimed 0), _, ⟨14, 1⟩, _, ⟨streams_stands _ _ _, rfl⟩, by decide, rfl, rfl, rfl, rfl, _, rfl, rfl⟩,
    ⟨streams (laid 2 1 32) none (claimed 1), _, ⟨15, 63, 1, 7, 15⟩, _, ⟨streams_stands _ _ _, rfl⟩,
      ⟨rfl, rfl, .inl rfl, fun h => nomatch h⟩, by decide,
      ⟨by decide +kernel, by decide, by decide, by decide, by decide, by decide, by decide⟩, by decide, by decide⟩,
    ⟨streams (laid 2 32 0) none (claimed 3), _, ⟨15, 63, 2, 1, 15⟩, _, ⟨streams_stands _ _ _, rfl⟩,
      ⟨rfl, rfl, .inr (.inr rfl), fun h => nomatch h⟩, by decide, by decide,
      ⟨by decide +kernel, by decide, by decide, by decide, by decide, by decide, by decide⟩, fun _ _ _ _ => rfl⟩,
    ⟨streams (laid 0 32 0) none (claimed 1), _, ⟨15, 63, 5, 4, 0, 0⟩, _, ⟨streams_stands _ _ _, rfl⟩,
      ⟨rfl, rfl, .inl rfl, fun h => nomatch h⟩, by decide, by decide, by decide,
      ⟨by decide +kernel, by decide, by decide, by decide, by decide, by decide, by decide⟩⟩⟩

/-! ## Every statement's hypotheses can be met: events of slices and homes -/

/-- A page of this wafer, of another agent or wafer, by its physical address. -/
def page (pa mode : Nat) : Xlat := ⟨pa, mode, 128, false⟩

/-- A machine with one message, from a domain to a domain, domain 0 having a page cached or none, with what its slice holds. -/
def sent (b : Body) (x : Map Xlat) (l2 : Map L2Sector) : State :=
  { State.reset with
    msgs := [(3, ⟨0, 0, 0, false, b⟩)], nextId := 9
    domains := [(0, { Domain.reset with xlats := x, l2 := l2, dir := [(0x20000, ⟨0, 128, 2, []⟩), (0x20080, ⟨128, 128, 0, [⟨32, 1, 5⟩]⟩)] })]
    reels := [(0, { reel with loads := [⟨4, 0, 0, 1, .uni 1 4, [⟨0, 4, none, false⟩], none, [], 0, 0⟩] })]
    stores := [(6, { core := 0, origin := 0, slot := 0, reel := some 0, launch := 5, block := 0, linear := 0, ctx := 0, pc := 0, inst := 0, lanes := 1, seq := 0
                     stamp := 0, ex := false, attr := true, lines := [(0, .sent)], acks := 0, counted := true, eng := false, last := none })] }

theorem sent_arrives (b : Body) (x : Map Xlat) (l2 : Map L2Sector) : Arrives (sent b x l2) 3 ⟨0, 0, 0, false, b⟩ :=
  ⟨rfl, fun p hp h => by cases List.mem_singleton.mp hp; simp at h, rfl, rfl⟩

/-- A read of sector 0 for load 4 of reel 0, and an image of its first four bytes. -/
def rd : Reading := ⟨0, 0, 4, true, 0, 0⟩
/-- The image. -/
def img : LineImg := ⟨0, 0xF, 0x11223344, 1⟩

/-- A request at its slice leads where memory is, and no store of its reel for the line is under way elsewhere. -/
def ReadyFor (s : State) (m : Msg) (va : Nat) : Prop :=
  s.absentAt m.dst va = none ∧ ∀ q, s.requester m.body = some q → s.awayStore q (va / 128) = false

/-- A read at its slice. -/
def Reads (s : State) (k : Nat) (m : Msg) (r : Reading) (sec : Nat) (o : OutLoad) : Prop :=
  Arrives s k m ∧ m.body = .read r sec ∧ s.load? r.reel r.load = some o ∧ s.reels.find? r.reel ≠ none ∧ ReadyFor s m (128 * (sec / 4))

theorem ready_of {b : Body} {x : Map Xlat} {l2 : Map L2Sector} {va : Nat} (h : (sent b x l2).absentAt 0 va = none)
    (g : ((sent b x l2).requester b).all (fun q => !(sent b x l2).awayStore q (va / 128)) = true) :
    ReadyFor (sent b x l2) ⟨0, 0, 0, false, b⟩ va :=
  ⟨h, fun q e => by simpa [show (sent b x l2).requester b = some q from e] using g⟩

theorem sent_reads {x : Map Xlat} {l2 : Map L2Sector} (h : (sent (.read rd 0) x l2).absentAt 0 0 = none) :
    Reads (sent (.read rd 0) x l2) 3 ⟨0, 0, 0, false, .read rd 0⟩ rd 0 ⟨4, 0, 0, 1, .uni 1 4, [⟨0, 4, none, false⟩], none, [], 0, 0⟩ :=
  ⟨sent_arrives _ _ _, rfl, rfl, nofun, ready_of h rfl⟩

theorem witness_SliceRequests :
    (∃ (s : State) (k : Nat) (m : Msg) (r : Reading) (sec : Nat) (o : OutLoad) (h : Held), Reads s k m r sec o ∧ (s.sector m.dst sec).laid = []
      ∧ (s.sector m.dst sec).held = some h ∧ h.ac = false
      ∧ (h.kind = .guest ∨ (s.reaches m.dst h.pa = true ∧ s.hostClear m.dst (hdmLines h.pa 32) false = true)))
    ∧ (∃ (s : State) (k : Nat) (m : Msg) (r : Reading) (sec : Nat) (o : OutLoad), Reads s k m r sec o ∧ (s.sector m.dst sec).laid ≠ []
      ∧ (∀ e, (s.domain m.dst).xlats.find? (granule (32 * sec)) = some e → e.ac = false)
      ∧ ∀ b, b < 32 → (o.need sec).testBit b = true → ∃ l, lastOver (s.sector m.dst sec) b = some l ∧ Sees s r.core (sec / 4) l)
    ∧ (∃ (s : State) (k : Nat) (m : Msg) (r : Reading) (sec : Nat) (o : OutLoad) (e : Xlat), Reads s k m r sec o ∧ (s.sector m.dst sec).laid = []
      ∧ (s.sector m.dst sec).held = none ∧ (s.domain m.dst).xlats.find? (granule (32 * sec)) = some e ∧ e.ac = false
      ∧ s.place e.pa = .home m.dst ∧ s.reaches m.dst (e.at (32 * sec)) = true ∧ s.hostClear m.dst (hdmLines (e.at (32 * sec)) 32) false = true)
    ∧ (∃ (s : State) (k : Nat) (m : Msg) (r : Reading) (sec : Nat) (o : OutLoad) (e : Xlat), Reads s k m r sec o ∧ (s.sector m.dst sec).laid = []
      ∧ (s.sector m.dst sec).held = none ∧ (s.domain m.dst).xlats.find? (granule (32 * sec)) = some e ∧ e.ac = false
      ∧ s.place e.pa ≠ .home m.dst ∧ (s.sector m.dst sec).fills = [])
    ∧ (∃ (s : State) (k : Nat) (m : Msg) (r : Reading) (sec : Nat) (o : OutLoad), Reads s k m r sec o ∧ (s.sector m.dst sec).laid = []
      ∧ (s.sector m.dst sec).held = none ∧ (s.domain m.dst).xlats.find? (granule (32 * sec)) = none)
    ∧ (∃ (s : State) (k : Nat) (m : Msg) (sid : Nat) (op : AtomKind) (lanes : List AtomLane) (e : Xlat), Arrives s k m
      ∧ m.body = .atomic sid none op false lanes ∧ ReadyFor s m (128 * lineOf lanes) ∧ s.replayWaits sid (lineOf lanes) = false
      ∧ (s.domain m.dst).xlats.find? (granule (128 * lineOf lanes)) = some e ∧ e.ac = false)
    ∧ (∃ (s : State) (k : Nat) (m : Msg) (sid : Nat) (op : AtomKind) (lanes : List AtomLane), Arrives s k m
      ∧ m.body = .atomic sid none op false lanes ∧ ReadyFor s m (128 * lineOf lanes) ∧ s.replayWaits sid (lineOf lanes) = false
      ∧ (s.domain m.dst).xlats.find? (granule (128 * lineOf lanes)) = none)
    ∧ (∃ (s : State) (k : Nat) (m : Msg) (reel slot reg va : Nat) (e : Xlat), Arrives s k m ∧ m.body = .watch reel slot reg va true
      ∧ ReadyFor s m (128 * (va / 128)) ∧ (s.domain m.dst).xlats.find? (granule va) = some e ∧ e.ac = false)
    ∧ (∃ (s : State) (k : Nat) (m : Msg) (sid : Nat) (i : LineImg), Arrives s k m ∧ m.body = .write sid i ∧ ReadyFor s m (128 * i.line)
      ∧ s.replayWaits sid i.line = false ∧ (s.domain m.dst).xlats.find? (granule (128 * i.line)) = none ∧ m.arrived = false)
    ∧ (∃ (s : State) (k : Nat) (m : Msg) (sid : Nat) (i : LineImg) (e : Xlat), Arrives s k m ∧ m.body = .write sid i ∧ ReadyFor s m (128 * i.line)
      ∧ s.replayWaits sid i.line = false ∧ (s.domain m.dst).xlats.find? (granule (128 * i.line)) = some e ∧ e.ac = false ∧ s.place e.pa = .home m.dst
      ∧ e.grain = 128 ∧ s.reaches m.dst (e.at (128 * i.line)) = true ∧ s.hostClear m.dst (hdmHalves (e.at (128 * i.line)) i.mask) true = true)
    ∧ ∃ (s : State) (k : Nat) (m : Msg) (sid : Nat) (i : LineImg) (e : Xlat), Arrives s k m ∧ m.body = .write sid i ∧ ReadyFor s m (128 * i.line)
      ∧ s.replayWaits sid i.line = false ∧ (s.domain m.dst).xlats.find? (granule (128 * i.line)) = some e ∧ e.ac = false
      ∧ s.place e.pa ≠ .home m.dst :=
  ⟨⟨sent (.read rd 0) [] [(0, ⟨some ⟨.dirty, 0x20000, 0, false, 7⟩, [], []⟩)], 3, _, rd, 0, _, _, sent_reads rfl, rfl, rfl, rfl,
      .inr ⟨by decide, by decide⟩⟩,
    ⟨sent (.read rd 0) [] [(0, ⟨none, [⟨5, 9, true, false, 7, BitVec.allOnes 32⟩, ⟨6, 0, false, false, 8, 0xF0⟩], []⟩)], 3, _, rd, 0, _, sent_reads rfl,
      by decide, fun _ h => (nomatch h), fun b hb h => by
        have hc : ∀ b, b < 32 → (OutLoad.need ⟨4, 0, 0, 1, .uni 1 4, [⟨0, 4, none, false⟩], none, [], 0, 0⟩ 0).testBit b = true →
            lastOver ⟨none, [⟨5, 9, true, false, 7, BitVec.allOnes 32⟩, ⟨6, 0, false, false, 8, 0xF0⟩], []⟩ b
              = some ⟨6, 0, false, false, 8, 0xF0⟩ := by decide
        exact ⟨_, hc b hb h, .inl rfl⟩⟩,
    ⟨sent (.read rd 0) [(0, page 0x20000 0)] [], 3, _, rd, 0, _, _, sent_reads rfl, rfl, rfl, rfl, rfl, by decide, by decide, by decide⟩,
    ⟨sent (.read rd 0) [(0, page 0x4000000000 0)] [], 3, _, rd, 0, _, _, sent_reads rfl, rfl, rfl, rfl, rfl, by decide, rfl⟩,
    ⟨sent (.read rd 0) [] [], 3, _, rd, 0, _, sent_reads rfl, rfl, rfl, rfl⟩,
    ⟨sent (.atomic 6 none .add false [⟨31, 0, 1, 0⟩]) [(0, page 0x20000 0)] [], 3, _, 6, _, _, _, sent_arrives _ _ _, rfl, ready_of rfl rfl, rfl, rfl, rfl⟩,
    ⟨sent (.atomic 6 none .add false [⟨31, 0, 1, 0⟩]) [] [], 3, _, 6, _, _, sent_arrives _ _ _, rfl, ready_of rfl rfl, rfl, rfl⟩,
    ⟨sent (.watch 0 1 4 0 true) [(0, page 0x20000 0)] [], 3, _, 0, 1, 4, 0, _, sent_arrives _ _ _, rfl, ready_of rfl rfl, rfl, rfl⟩,
    ⟨sent (.write 6 img) [] [], 3, _, 6, img, sent_arrives _ _ _, rfl, ready_of rfl rfl, rfl, rfl, rfl⟩,
    ⟨sent (.write 6 img) [(0, page 0x20000 0)] [], 3, _, 6, img, _, sent_arrives _ _ _, rfl, ready_of rfl rfl, rfl, rfl, rfl, by decide, rfl, by decide,
      by decide⟩,
    ⟨sent (.write 6 img) [(0, page 0x4000000000 0)] [], 3, _, 6, img, _, sent_arrives _ _ _, rfl, ready_of rfl rfl, rfl, rfl, rfl, by decide⟩⟩

theorem witness_SliceAnswers :
    (∃ (s : State) (k : Nat) (m : Msg) (sid line : Nat) (o : OutStore), Arrives s k m ∧ m.body = .confirm sid line ∧ s.stores.find? sid = some o
      ∧ o.origin = o.core)
    ∧ (∃ (s : State) (k : Nat) (m : Msg) (dom sec req : Nat) (data : BitVec 256) (mate : Option (BitVec 256)) (install : Bool) (f : Fill), Arrives s k m
      ∧ m.body = .fill dom sec req data mate install ∧ ((s.sector dom sec).fills.find? fun f => f.req == req) = some f
      ∧ (∀ r ∈ f.waiting, s.reels.find? r.reel ≠ none ∨ s.savedOf r.reel = none) ∧ mate ≠ none
      ∧ ∀ g ∈ (s.sector dom (mateOf sec)).fills, mate ≠ none → g.req = req → g.waiting = [])
    ∧ (∃ (s : State) (k : Nat) (m : Msg) (va grain : Nat) (whom : AckTo), Arrives s k m ∧ m.body = .inval va grain whom)
    ∧ ∃ (s : State) (k : Nat) (m : Msg) (sid : Nat) (o : OutStore), Arrives s k m ∧ m.body = .ack (.store sid) ∧ s.stores.find? sid = some o :=
  ⟨⟨sent (.confirm 6 0) [] [], 3, _, 6, 0, _, sent_arrives _ _ _, rfl, rfl, rfl⟩,
    ⟨sent (.fill 0 0 8 7 (some 9) true) [] [(0, ⟨none, [], [⟨8, 0x20000, 0, false, false, [rd]⟩]⟩), (1, ⟨none, [], [⟨8, 0x20020, 0, false, false, []⟩]⟩)],
      3, _, 0, 0, 8, 7, some 9, true, _, sent_arrives _ _ _, rfl, rfl, by decide, by decide, by decide⟩,
    ⟨sent (.inval 0 512 (.store 6)) [] [], 3, _, 0, 512, _, sent_arrives _ _ _, rfl⟩,
    ⟨sent (.ack (.store 6)) [] [], 3, _, 6, _, sent_arrives _ _ _, rfl, rfl⟩⟩

/-- An address of the host, and one of another wafer. -/
def hostPa : Nat := 0xFFF * 2 ^ 44
/-- The other wafer's. -/
def farPa : Nat := 5 * 2 ^ 44

/-- The machine with host lines held. -/
def withHost (s : State) (l : Map HostLine) : State := { s with hostLines := l }

theorem withHost_arrives (b : Body) (x : Map Xlat) (l2 : Map L2Sector) (l : Map HostLine) :
    Arrives (withHost (sent b x l2) l) 3 ⟨0, 0, 0, false, b⟩ := sent_arrives b x l2

theorem witness_HomeAccesses :
    (∃ (s : State) (k : Nat) (m : Msg) (dom sec h : Nat) (e : Xlat), Arrives s k m ∧ m.body = .fillReq dom sec e ∧ Servable s m e (32 * sec)
      ∧ s.place e.pa = .home h ∧ s.hostClear h (hdmLines (e.at (32 * sec)) 32) false = true ∧ RoomFor s h e (32 * sec))
    ∧ (∃ (s : State) (k : Nat) (m : Msg) (dom sec : Nat) (e : Xlat) (l : HostLine), Arrives s k m ∧ m.body = .fillReq dom sec e
      ∧ Servable s m e (32 * sec) ∧ s.place e.pa = .host ∧ s.hostLines.find? (hostLineOf (e.at (32 * sec))) = some l)
    ∧ (∃ (s : State) (k : Nat) (m : Msg) (dom sec : Nat) (e : Xlat), Arrives s k m ∧ m.body = .fillReq dom sec e ∧ Servable s m e (32 * sec)
      ∧ s.place e.pa = .host ∧ s.hostLines.find? (hostLineOf (e.at (32 * sec))) = none ∧ ∀ r ∈ s.hostReqs, r.line ≠ hostLineOf (e.at (32 * sec)))
    ∧ (∃ (s : State) (k : Nat) (m : Msg) (dom sec w : Nat) (e : Xlat), Arrives s k m ∧ m.body = .fillReq dom sec e ∧ Servable s m e (32 * sec)
      ∧ s.place e.pa = .far w)
    ∧ (∃ (s : State) (k : Nat) (m : Msg) (sid h : Nat) (i : LineImg) (e : Xlat), Arrives s k m ∧ m.body = .homeWrite sid i e
      ∧ Servable s m e (128 * i.line) ∧ s.place e.pa = .home h ∧ s.hostClear h (hdmHalves (e.at (128 * i.line)) i.mask) true = true ∧ e.grain = 128)
    ∧ (∃ (s : State) (k : Nat) (m : Msg) (sid : Nat) (i : LineImg) (e : Xlat), Arrives s k m ∧ m.body = .homeWrite sid i e
      ∧ Servable s m e (128 * i.line) ∧ s.place e.pa = .host ∧ hostHalves (e.at (128 * i.line)) i.mask ≠ []
      ∧ ∀ n ∈ hostHalves (e.at (128 * i.line)) i.mask, ∃ l, s.hostLines.find? n = some l ∧ l.state ≠ .shared ∧ l.mask = 0 ∧ l.acks = 0)
    ∧ (∃ (s : State) (k : Nat) (m : Msg) (sid w : Nat) (i : LineImg) (e : Xlat), Arrives s k m ∧ m.body = .homeWrite sid i e
      ∧ Servable s m e (128 * i.line) ∧ s.place e.pa = .far w ∧ sid ≠ 0)
    ∧ (∃ (s : State) (k : Nat) (m : Msg) (sid h : Nat) (lanes : List AtomLane) (e : Xlat), Arrives s k m
      ∧ m.body = .homeAtomic sid none .add false lanes e ∧ Servable s m e (128 * lineOf lanes) ∧ s.place e.pa = .home h
      ∧ s.hostClear h (hdmHalves (e.at (128 * lineOf lanes)) (lanesMask 4 lanes)) true = true ∧ e.grain = 128
      ∧ (∀ l ∈ lanes, l.va / 128 = lineOf lanes ∧ l.va % 4 = 0)
      ∧ (∀ l ∈ lanes, s.inBiasTable (e.at (32 * (l.va / 32))) = false) ∧ ∀ a, a / 128 = lineOf lanes → Memory.read [] a = homeByte s h e a)
    ∧ ∃ (s : State) (k : Nat) (m : Msg) (sid w : Nat) (lanes : List AtomLane) (e : Xlat), Arrives s k m
      ∧ m.body = .homeAtomic sid none .add false lanes e ∧ Servable s m e (128 * lineOf lanes) ∧ s.place e.pa = .far w :=
  ⟨⟨sent (.fillReq 0 2047 (page 0x20000 0)) [] [], 3, _, 0, 2047, 0, _, sent_arrives _ _ _, rfl, ⟨by decide, by decide⟩, by decide, by decide,
      .inr (by decide)⟩,
    ⟨withHost (sent (.fillReq 0 1 (page hostPa 0)) [] []) [(0, ⟨.shared, 9, 0, 0, 0⟩)], 3, _, 0, 1, _, _, withHost_arrives _ _ _ _, rfl,
      ⟨by decide, by decide⟩, by decide, rfl⟩,
    ⟨sent (.fillReq 0 0 (page hostPa 0)) [] [], 3, _, 0, 0, _, sent_arrives _ _ _, rfl, ⟨by decide, by decide⟩, by decide, rfl, fun r h => nomatch h⟩,
    ⟨sent (.fillReq 0 0 (page farPa 0)) [] [], 3, _, 0, 0, 5, _, sent_arrives _ _ _, rfl, ⟨by decide, by decide⟩, by decide⟩,
    ⟨sent (.homeWrite 6 img (page 0x20000 0)) [] [], 3, _, 6, 0, img, _, sent_arrives _ _ _, rfl, ⟨by decide, by decide⟩, by decide, by decide, rfl⟩,
    ⟨withHost (sent (.homeWrite 6 img (page hostPa 0)) [] []) [(0, ⟨.exclusive, 9, 0, 0, 0⟩)], 3, _, 6, img, _, withHost_arrives _ _ _ _, rfl,
      ⟨by decide, by decide⟩, by decide, by decide, fun n h => by
        have h : n ∈ [0] := h
        cases List.mem_singleton.mp h
        exact ⟨_, rfl, by decide, rfl, rfl⟩⟩,
    ⟨sent (.homeWrite 6 img (page farPa 0)) [] [], 3, _, 6, 5, img, _, sent_arrives _ _ _, rfl, ⟨by decide, by decide⟩, by decide, by decide⟩,
    ⟨sent (.homeAtomic 6 none .add false [⟨31, 124, 1, 0⟩] (page 0x20000 0)) [] [], 3, _, 6, 0, _, _, sent_arrives _ _ _, rfl,
      ⟨by decide, by decide⟩, by decide, by decide, rfl, by decide, by decide, fun _ _ => rfl⟩,
    ⟨sent (.homeAtomic 6 none .add false [⟨31, 124, 1, 0⟩] (page farPa 0)) [] [], 3, _, 6, 5, _, _, sent_arrives _ _ _, rfl,
      ⟨by decide, by decide⟩, by decide⟩⟩

theorem witness_HomeEntries :
    (∃ (s : State) (k : Nat) (m : Msg) (reel slot reg va h : Nat) (e : Xlat), Arrives s k m ∧ m.body = .homeWatch reel slot reg va true e
      ∧ Servable s m e va ∧ s.place e.pa = .home h ∧ e.mode ≠ 2 ∧ (s.domain h).pinFull (e.at (va / e.grain * e.grain)) = false ∧ RoomFor s h e va)
    ∧ (∃ (s : State) (k : Nat) (m : Msg) (reel slot reg va h : Nat) (e : Xlat), Arrives s k m ∧ m.body = .homeWatch reel slot reg va true e
      ∧ Servable s m e va ∧ s.place e.pa = .home h ∧ e.mode = 2)
    ∧ (∃ (s : State) (k : Nat) (m : Msg) (reel slot reg va h : Nat) (e : Xlat) (n : DirEntry), Arrives s k m
      ∧ m.body = .homeWatch reel slot reg va false e ∧ Servable s m e va ∧ s.place e.pa = .home h
      ∧ (s.domain h).dir.find? (e.at (va / e.grain * e.grain)) = some n)
    ∧ (∃ (s : State) (k : Nat) (m : Msg) (reel slot reg va : Nat) (e : Xlat), Arrives s k m ∧ m.body = .homeWatch reel slot reg va true e
      ∧ Servable s m e va ∧ s.place e.pa = .host ∧ e.mode = 2)
    ∧ (∃ (s : State) (k : Nat) (m : Msg) (reel slot reg va : Nat) (e : Xlat), Arrives s k m ∧ m.body = .homeWatch reel slot reg va true e
      ∧ Servable s m e va ∧ s.place e.pa = .host ∧ e.mode ≠ 2)
    ∧ (∃ (s : State) (k : Nat) (m : Msg) (reel slot reg va w : Nat) (e : Xlat), Arrives s k m ∧ m.body = .homeWatch reel slot reg va true e
      ∧ Servable s m e va ∧ s.place e.pa = .far w)
    ∧ (∃ (s : State) (k : Nat) (m : Msg) (reel slot reg va : Nat) (e : Xlat), Arrives s k m ∧ m.body = .homeWatch reel slot reg va false e
      ∧ Servable s m e va ∧ s.place e.pa = .host)
    ∧ (∃ (s : State) (h a : Nat) (n : DirEntry), (s.domain h).dir.find? a = some n ∧ n.watchers = [])
    ∧ (∃ (s : State) (k : Nat) (m : Msg) (sid line since h : Nat) (lanes : List AtomLane) (e : Xlat) (o : OutStore), Arrives s k m
      ∧ m.body = .contrib sid line lanes since e ∧ Servable s m e (128 * line) ∧ s.place e.pa = .home h ∧ s.stores.find? sid = some o ∧ sid ≠ 0
      ∧ (∀ l ∈ lanes, s.hostClear h (hdmLines (e.at l.va) 16) true = true) ∧ (∀ l ∈ lanes, l.va / 128 = line ∧ l.va % 16 = 0) ∧ CellsTake s h e lanes)
    ∧ ∃ (s : State) (k : Nat) (m : Msg) (sid line since h : Nat) (lanes : List AtomLane) (e : Xlat) (o : OutStore), Arrives s k m
      ∧ m.body = .contrib sid line lanes since e ∧ Servable s m e (128 * line) ∧ s.place e.pa = .home h ∧ s.stores.find? sid = some o ∧ sid ≠ 0
      ∧ lanes ≠ [] ∧ m.arrived = true ∧ since + 2 ^ 24 ≤ s.cycles h ∧ 64 ≤ (s.domain h).slots.length ∧ o.eng = false
      ∧ s.faultEntry o.launch o.block ≠ 0 :=
  ⟨⟨sent (.homeWatch 0 1 4 0 true (page 0x20000 0)) [] [], 3, _, 0, 1, 4, 0, 0, _, sent_arrives _ _ _, rfl, ⟨by decide, by decide⟩, by decide,
      by decide, by decide, .inl (by decide)⟩,
    ⟨sent (.homeWatch 0 1 4 0 true (page 0x20000 2)) [] [], 3, _, 0, 1, 4, 0, 0, _, sent_arrives _ _ _, rfl, ⟨by decide, by decide⟩, by decide, rfl⟩,
    ⟨sent (.homeWatch 32 1 5 128 false (page 0x20000 0)) [] [], 3, _, 32, 1, 5, 128, 0, _, _, sent_arrives _ _ _, rfl, ⟨by decide, by decide⟩,
      by decide, rfl⟩,
    ⟨sent (.homeWatch 0 1 4 0 true (page hostPa 2)) [] [], 3, _, 0, 1, 4, 0, _, sent_arrives _ _ _, rfl, ⟨by decide, by decide⟩, by decide, rfl⟩,
    ⟨sent (.homeWatch 0 1 4 0 true (page hostPa 1)) [] [], 3, _, 0, 1, 4, 0, _, sent_arrives _ _ _, rfl, ⟨by decide, by decide⟩, by decide, by decide⟩,
    ⟨sent (.homeWatch 0 1 4 0 true (page farPa 1)) [] [], 3, _, 0, 1, 4, 0, 5, _, sent_arrives _ _ _, rfl, ⟨by decide, by decide⟩, by decide⟩,
    ⟨sent (.homeWatch 32 1 5 128 false (page hostPa 0)) [] [], 3, _, 32, 1, 5, 128, _, sent_arrives _ _ _, rfl, ⟨by decide, by decide⟩, by decide⟩,
    ⟨sent (.inval 0 128 .nobody) [] [], 0, 0x20000, _, rfl, rfl⟩,
    ⟨sent (.contrib 6 0 [⟨0, 112, 0x3F800000, 0⟩] 0 (page 0x20000 0)) [] [(3, ⟨some ⟨.dirty, 0x20060, 0, false, (2 : BitVec 256) <<< 160⟩, [], []⟩)], 3, _, 6, 0,
      0, 0, _, _, _, sent_arrives _ _ _, rfl, ⟨by decide, by decide⟩, by decide, rfl, by decide, by decide, by decide,
      ⟨by decide, fun l h => by cases List.mem_singleton.mp h; exact ⟨by decide +kernel, by decide +kernel⟩⟩⟩,
    ⟨{ sent (.inval 0 0 .nobody) [] [] with
        msgs := [(3, ⟨0, 0, 0, true, .contrib 6 0 [⟨0, 112, 0x3F800000, 0⟩] 0 (page 0x20000 0)⟩)]
        domains := [(0, { Domain.reset with slots := (List.range 64).map fun i => (0x30000 + 16 * i, RedSlot.open 0 2 0 5 0 0), clkBase := 2 ^ 24 })]
        blocks := [(0, block)] },
      3, _, 6, 0, 0, 0, _, _, _, ⟨rfl, fun p hp h => by cases List.mem_singleton.mp hp; simp at h, rfl, rfl⟩, rfl, ⟨by decide, by decide⟩, by decide, rfl,
      by decide, by decide, rfl, by decide, by decide, rfl, by decide⟩⟩

/-! ## Every statement's hypotheses can be met: waits, cores and faults -/

/-- A machine with one reel, of key 5, that has one load outstanding. -/
def loaded (r : Reel) (o : OutLoad) : State := { State.reset with reels := [(5, { r with loads := [o] })] }

/-- Load 4 of that reel, of one piece in lane 0. -/
def out (dst : LoadDst) (va : Nat) (data : Option (BitVec 128)) : OutLoad := ⟨4, 0, 0, 1, dst, [⟨0, va, data, false⟩], none, [], 0, 0⟩

theorem loaded_performed (r : Reel) (dst : LoadDst) (va : Nat) (d : BitVec 128) :
    Performed (loaded r (out dst va (some d))) 5 { r with loads := [out dst va (some d)] } (out dst va (some d)) :=
  ⟨⟨0, ⟨rfl, by simp, fun _ h => nomatch h⟩, rfl⟩, rfl, fun p h => by cases List.mem_singleton.mp h; exact .inl rfl⟩

/-- That reel with a move of row 1 of tile 14 to or from v126. -/
def moving (r : Reel) (get : Bool) : Reel := { r with moves := [⟨4, get, 14, 31, 1, 126, true, [(0, 7)]⟩] }

theorem witness_LoadReturns :
    (∃ (s : State) (k : Nat) (r : Reel) (o : OutLoad), Performed s k r o ∧ r.exited = false ∧ o.dst = .vec 4 2 true
      ∧ (o.pieces.map (·.lane)).Nodup ∧ ∀ p ∈ o.pieces, p.lane < 32)
    ∧ (∃ (s : State) (k : Nat) (r : Reel) (o : OutLoad) (p : Piece) (d : BitVec 128), Performed s k r o ∧ r.exited = false ∧ o.dst = .uni 62 8
      ∧ o.pieces = [p] ∧ p.data = some d)
    ∧ (∃ (s : State) (k : Nat) (r : Reel) (o : OutLoad) (p : Piece) (d : BitVec 128), Performed s k r o ∧ r.exited = false ∧ o.dst = .status 62 1
      ∧ o.pieces = [p] ∧ p.data = some d)
    ∧ (∃ (s : State) (k : Nat) (r : Reel) (o : OutLoad) (p : Piece) (w : Split) (m : WaitMRec), Performed s k r o ∧ r.exited = false
      ∧ o.dst = .waitm 2 ∧ o.pieces = [p] ∧ r.splits.find? 2 = some w ∧ w.wait = some (.waitm m) ∧ (∀ x, m.phase ≠ .got x) ∧ m.phase ≠ .dropped)
    ∧ (∃ (s : State) (k : Nat) (r : Reel) (o : OutLoad), Performed s k r o ∧ r.exited = true ∧ ∀ split, o.dst ≠ .waitm split)
    ∧ (∃ (s : State) (k : Nat) (r : Reel) (o : OutLoad) (j : Nat) (m : Msg) (sid line : Nat) (olds : List (Nat × Nat)) (st : OutStore),
      Outstanding s k r o j ∧ Arrives s j m ∧ m.body = .atomAns sid k o.id line olds ∧ s.stores.find? sid = some st)
    ∧ (∃ (s : State) (k : Nat) (r : Reel) (o : OutLoad) (but : Nat), Outstanding s k r o but ∧ s.msgs.find? but = none
      ∧ ∃ p ∈ o.pieces, p.data = none ∧ p.lost = false)
    ∧ (∃ (s : State) (k : Nat) (r : Reel) (m : TileMove), s.reels.find? k = some r ∧ (r.moves.find? fun q => q.id == m.id) = some m
      ∧ (m.data.map (·.1)).Nodup ∧ (∀ p ∈ m.data, p.1 < 32) ∧ m.get = true ∧ r.exited = false)
    ∧ (∃ (s : State) (k : Nat) (r : Reel) (m : TileMove), s.reels.find? k = some r ∧ (r.moves.find? fun q => q.id == m.id) = some m
      ∧ (m.data.map (·.1)).Nodup ∧ (∀ p ∈ m.data, p.1 < 32) ∧ m.get = true ∧ r.exited = true)
    ∧ ∃ (s : State) (k : Nat) (r : Reel) (m : TileMove) (t : AcTile), s.reels.find? k = some r ∧ (r.moves.find? fun q => q.id == m.id) = some m
      ∧ (m.data.map (·.1)).Nodup ∧ (∀ p ∈ m.data, p.1 < 32) ∧ m.get = false ∧ (s.core (coreOfKey k)).ac.find? m.tile = some t ∧ t.owner = r.block
      ∧ t.fmt ≠ 0 ∧ t.bad = false ∧ (t.fmt = 2 ↔ m.wide = true) ∧ (t.fmt = 2 → m.tile % 2 = 0) :=
  ⟨⟨{ State.reset with reels := [(5, { reel with loads := [⟨4, 0, 0, 1, .vec 4 2 true, [⟨31, 4, some 0x8000, false⟩], none, [], 0, 0⟩] })] }, 5, _,
      ⟨4, 0, 0, 1, .vec 4 2 true, [⟨31, 4, some 0x8000, false⟩], none, [], 0, 0⟩,
      ⟨⟨0, ⟨rfl, by decide, fun _ h => nomatch h⟩, rfl⟩, rfl, by decide⟩, rfl, rfl, by decide, by decide⟩,
    ⟨_, 5, _, _, _, 7, loaded_performed reel (.uni 62 8) 8 7, rfl, rfl, rfl, rfl⟩,
    ⟨_, 5, _, _, _, 7, loaded_performed reel (.status 62 1) 8 7, rfl, rfl, rfl, rfl⟩,
    ⟨_, 5, _, _, _, { split 1 [] with wait := some (.waitm ⟨8, 1, 0, .loading 4, false⟩) }, _,
      loaded_performed { reel with splits := [(2, { split 1 [] with wait := some (.waitm ⟨8, 1, 0, .loading 4, false⟩) })] } (.waitm 2) 8 7, rfl, rfl, rfl, rfl,
      rfl, nofun, nofun⟩,
    ⟨_, 5, _, _, loaded_performed { reel with exited := true } (.uni 62 8) 8 7, rfl, nofun⟩,
    ⟨sent (.atomAns 6 0 4 0 [(0, 5)]) [] [], 0, _, out (.uni 1 4) 4 none, 3, _, 6, 0, _, _,
      ⟨rfl, by decide, fun p hp h => absurd (by cases List.mem_singleton.mp hp; rfl) h⟩, sent_arrives _ _ _, rfl, rfl⟩,
    ⟨sent (.inval 0 128 .nobody) [] [], 0, _, out (.uni 1 4) 4 none, 0,
      ⟨rfl, by decide, fun p hp _ _ _ _ => by cases List.mem_singleton.mp hp; nofun⟩, rfl, _, List.mem_singleton_self _, rfl, rfl⟩,
    ⟨{ State.reset with reels := [(5, moving reel true)] }, 5, _, ⟨4, true, 14, 31, 1, 126, true, [(0, 7)]⟩, rfl, by decide, by decide, by decide, rfl, rfl⟩,
    ⟨{ State.reset with reels := [(5, moving { reel with exited := true } true)] }, 5, _, ⟨4, true, 14, 31, 1, 126, true, [(0, 7)]⟩, rfl, by decide,
      by decide, by decide, rfl, rfl⟩,
    ⟨{ State.reset with
        reels := [(5, moving reel false)], cores := [(0, { Core.reset with ac := [(14, ⟨0, 2, false, false, 0, 0, none, none, []⟩)] })] }, 5, _,
      ⟨4, false, 14, 31, 1, 126, true, [(0, 7)]⟩, _, rfl, by decide, by decide, by decide, rfl, rfl, rfl, by decide, rfl, by decide, by decide⟩⟩

/-- A machine whose core 0 is live, at a time. -/
def awake (time : Nat) : State := { State.reset with cores := [(0, { Core.reset with live := true, division := some 1 })], time := time }

/-- A split that waits, of a started block, as its wait finds it. -/
def waiting (w : Wait) (full : Map Bool) (time : Nat) : Issuer :=
  actsIn { reel with ld := 1, st := 1 } { split 1 [] with wait := some w, bundle := some (bundle 0x04004103 Hints.empty) }
    { block with started := true, full := full } Hints.empty (awake time)

theorem waiting_resumable (w : Wait) (full : Map Bool) (time : Nat) : Resumable (waiting w full time).s 0 0 (waiting w full time) :=
  ⟨rfl, rfl, rfl⟩

/-- A `lds.b32.take` of word 2 into v127. -/
def taking : SpadAcc := ⟨7, true, 2, 4, [(0, 8)], 127, []⟩

/-- A machine with an answer of a registration in slot 1 for reel 0, whose load 4 asked. -/
def answering (dst : LoadDst) (p : Split) (status : Nat) : State :=
  { State.reset with
    msgs := [(3, ⟨0, 0, 0, false, .watchAns 0 1 4 status 512⟩)], blocks := [(0, block)]
    reels := [(0, { reel with
      splits := [(2, p)], loads := [⟨4, 0, 0, 1, dst, [⟨0, 0, none, false⟩], none, [], 0, 0⟩], watches := [(1, ⟨.sent, 0, 0, false, 0, false, 4, 64⟩)] })] }

/-- A machine with a report to slot 1 of reel 0, whose home is an agent or a domain. -/
def reporting (home : Nat) : State :=
  { State.reset with
    msgs := [(3, ⟨0, 0, 0, false, .report 0 1 4 true⟩)], reels := [(0, { reel with watches := [(1, ⟨.armed, 0, 128, false, 0, false, 4, home⟩)] })] }

theorem witness_WaitsEnd :
    (∃ (s : State) (k split : Nat) (x : Issuer) (a : SpadAcc) (since spent : Nat), Resumable s k split x
      ∧ x.split.wait = some (.fullEmpty a since spent) ∧ Qualified x.block a.load a.mode a.lanes a.size ∧ (a.load = true → Unpoisoned x.block a.lanes a.size)
      ∧ a.lanes ≠ [] ∧ s.skidFull k x.reel = false ∧ a.load = true ∧ x.reel.ld ≠ 0)
    ∧ (∃ (s : State) (k split : Nat) (x : Issuer) (a : SpadAcc) (since spent : Nat), Resumable s k split x
      ∧ x.split.wait = some (.fullEmpty a since spent) ∧ (∃ l, Unready x.block a l) ∧ 2 ^ 24 ≤ s.clock (coreOfKey k) - since + spent
      ∧ x.reel.exited = false ∧ s.faultEntry x.block.launch x.reel.block ≠ 0)
    ∧ (∃ (s : State) (k split : Nat) (r : Reel) (p : Split) (timeout since : Nat) (cause : Option Word), s.reels.find? k = some r
      ∧ r.splits.find? split = some p ∧ p.wait = some (.park timeout since cause) ∧ timeout ≠ 0 ∧ since + timeout ≤ s.clock (coreOfKey k))
    ∧ (∃ (s : State) (k split : Nat) (x : Issuer) (m : WaitMRec) (since : Nat), Resumable s k split x ∧ x.split.wait = some (.waitm m)
      ∧ m.phase = .polling since ∧ since + 1024 ≤ s.clock (coreOfKey k))
    ∧ (∃ (s : State) (k msg : Nat) (m : Msg) (slot reg status grain : Nat) (r : Reel) (o : OutLoad) (p : Piece) (w : WatchSlot), Arrives s msg m
      ∧ m.body = .watchAns k slot reg status grain ∧ s.reels.find? k = some r ∧ (r.loads.find? fun q => q.id = reg) = some o ∧ o.pieces = [p]
      ∧ o.recs = [] ∧ r.watchSlot slot = w ∧ w.reg = reg ∧ w.state = .sent ∧ r.exited = false ∧ grain = 512 ∧ o.dst = .status 63 slot)
    ∧ (∃ (s : State) (k msg : Nat) (m : Msg) (slot reg status grain : Nat) (r : Reel) (o : OutLoad) (p : Piece) (w : WatchSlot) (split : Nat) (x : Split)
        (c : WaitMRec) (b : Block), Arrives s msg m
      ∧ m.body = .watchAns k slot reg status grain ∧ s.reels.find? k = some r ∧ (r.loads.find? fun q => q.id = reg) = some o ∧ o.pieces = [p]
      ∧ o.recs = [] ∧ r.watchSlot slot = w ∧ w.reg = reg ∧ w.state = .sent ∧ r.exited = false ∧ grain = 512 ∧ o.dst = .waitm split
      ∧ r.splits.find? split = some x ∧ x.wait = some (.waitm c) ∧ s.blocks.find? r.block = some b)
    ∧ (∃ (s : State) (k msg : Nat) (m : Msg) (slot reg : Nat) (lost : Bool) (r : Reel) (w : WatchSlot), Arrives s msg m
      ∧ m.body = .report k slot reg lost ∧ s.reels.find? k = some r ∧ r.watchSlot slot = w ∧ w.reg = reg ∧ w.state ≠ .unarmed ∧ msg ≠ 0)
    ∧ (∃ (s : State) (k slot : Nat) (r : Reel), s.reels.find? k = some r ∧ slot < 2 ∧ (r.watchSlot slot).state = .armed ∧ (r.watchSlot slot).home = 64)
    ∧ ∃ (s : State) (k slot : Nat) (r : Reel), s.reels.find? k = some r ∧ slot < 2 ∧ (r.watchSlot slot).state = .armed ∧ (r.watchSlot slot).home ≠ 64 :=
  ⟨⟨_, 0, 0, waiting (.fullEmpty taking 0 0) [(2, true)] 0, taking, 0, 0, waiting_resumable _ _ _, rfl,
      fun w ⟨p, hp, h⟩ => by
        cases List.mem_singleton.mp hp
        have : w = 2 := by simp only [inWord, taking] at h; omega
        subst this
        decide,
      fun _ => untouched_of rfl, by decide, by decide, rfl, by decide⟩,
    ⟨_, 0, 0, waiting (.fullEmpty taking 0 0) [] (2 ^ 24), taking, 0, 0, waiting_resumable _ _ _, rfl,
      ⟨(0, 8), by decide, 2, ⟨by decide, by decide⟩, .inl ⟨rfl, .inr rfl, by decide⟩⟩, by decide, rfl, by decide⟩,
    ⟨(waiting (.park 1 0 none) [] 1).s, 0, 0, _, _, 1, 0, none, rfl, rfl, rfl, by decide, by decide⟩,
    ⟨_, 0, 0, waiting (.waitm ⟨0, 1, 0, .polling 0, false⟩) [] 1024, ⟨0, 1, 0, .polling 0, false⟩, 0, waiting_resumable _ _ _, rfl, rfl, by decide⟩,
    ⟨answering (.status 63 1) (split 1 []) 1, 0, 3, _, 1, 4, 1, 512, _, _, _, _,
      ⟨rfl, fun p hp h => by cases List.mem_singleton.mp hp; simp at h, rfl, rfl⟩, rfl, rfl, rfl, rfl, rfl, rfl, rfl, rfl, rfl, rfl, rfl⟩,
    ⟨answering (.waitm 2) { split 1 [] with wait := some (.waitm ⟨0, 1, 0, .arming 4, false⟩) } 0, 0, 3, _, 1, 4, 0, 512, _, _, _, _, 2, _, _, _,
      ⟨rfl, fun p hp h => by cases List.mem_singleton.mp hp; simp at h, rfl, rfl⟩, rfl, rfl, rfl, rfl, rfl, rfl, rfl, rfl, rfl, rfl, rfl, rfl, rfl, rfl⟩,
    ⟨reporting 0, 0, 3, _, 1, 4, true, _, _, ⟨rfl, fun p hp h => by cases List.mem_singleton.mp hp; simp at h, rfl, rfl⟩, rfl, rfl, rfl, rfl, by decide,
      by decide⟩,
    ⟨reporting 64, 0, 1, _, rfl, by decide, rfl, rfl⟩, ⟨reporting 0, 0, 1, _, rfl, by decide, rfl, by decide⟩⟩

/-- A machine that is up: core 0 live with its lookaside, domain 0 with one page cached, a block of launch 5 on core 0 with one reel, some memory. -/
def up : State :=
  { State.reset with
    mem := [(0x20010, 1)], nextId := 9
    cores := [(0, { Core.reset with live := true, look := [⟨0, 0, 65536, true, true, true⟩], division := some 1 })]
    domains := [(0, { Domain.reset with xlats := [(0, page 0x20000 0)] })]
    mgmt := { State.reset.mgmt with ready := true }
    reels := [(0, { reel with splits := [(0, split 1 [])] })], blocks := [(0, { block with started := true, lays := [(63, image 2 1)] })] }

/-- A packet of one block, which its launch's queue took. -/
def packet : Packet :=
  { irq := true, gang := 1, after := false, prio := 3, hmode := 0, cls := 1, hstride := 0, haddr := 0, limit := 1, nx := 1, ny := 1, nz := 1, err := 0
    cw := 0x100, args := 0x40, kdesc := 0, malformed := false, cwOk := true }

/-- Its launch. -/
def launch (st : LaunchState) (ended : List Nat) : Launch :=
  ⟨st, packet, { desc with spad := 0 }, 0, 0, 3, none, false, 1, 0, false, [], 0, [], ended, none⟩

/-- A command of the block at its core. -/
def command (op : EngOp) (accepted : Bool) (lays : List (BitVec 256)) (done : Nat) : EngCmd :=
  ⟨7, 0, 0, 0x10000, 0x90000000, 1, op, 31, 0, 256, 0, accepted, false, lays, done, [], [], [], none⟩

/-- The machine with that command. -/
def commanding (c : EngCmd) (b : Block) : State :=
  { up with cores := [(0, { up.core 0 with cmds := [c] })], blocks := [(0, { b with started := true })], launches := [(5, launch .admitted [])] }

theorem commanding_commands (op : EngOp) (accepted : Bool) (lays : List (BitVec 256)) (done : Nat) (b : Block)
    (h : (commanding (command op accepted lays done) b).runs 0 { b with started := true } = true := by decide) :
    Commands (commanding (command op accepted lays done) b) 0 (command op accepted lays done) { b with started := true } :=
  ⟨by simp [commanding, command, State.core, Map.findD, Map.find?], rfl, h⟩

theorem lastByte_zeros {n a : Nat} {l : List (Nat × Nat × Nat)} (h : ∀ p ∈ l, p.2.2 = 0) : (lastByte l n a).getD 0 = 0 := by
  have : ∀ o : Option Nat, o.getD 0 = 0 → (l.foldl (fun o p => if p.2.1 ≤ a ∧ a < p.2.1 + n then some (p.2.2 / 256 ^ (a - p.2.1) % 256) else o) o).getD 0 = 0 := by
    induction l with
    | nil => exact fun o h => h
    | cons p l ih =>
      intro o ho
      refine ih (fun q hq => h q (.tail _ hq)) _ ?_
      beta_reduce
      split
      · simp [h p (.head _)]
      · exact ho
  exact this none rfl

/-- A row of zeros moves onto zeros, and changes nothing. -/
theorem rows_of_zeros (gather : Bool) (d t i : Layout) (b : Block) (e : Nat) (ias : List Nat) (hs : b.spad = []) (hf : b.full = []) (hp : b.poison = [])
    (hd : d.fe = 0) (ht : t.fe = 0) : RowsMoved gather d t i e ias b b := by
  have clean : ∀ as n, Clean b as n := fun as n a _ w _ => by simp [hp, Map.findD]
  have zero : ∀ a n, Memory.readNat [] a n = 0 := fun a n => by
    induction n generalizing a with
    | zero => rfl
    | succ n ih => simp [Memory.readNat, ih]; rfl
  induction ias generalizing e with
  | nil => exact .nil e b
  | cons ia rest ih =>
    refine .cons e ia rest b b b _ _ (by rw [hs, zero]; exact Nat.zero_le _) rfl rfl (clean _ _) (clean _ _) ⟨rfl, fun a => ?_, fun w => ?_, fun w => ?_⟩ (ih (e + 1))
    · rw [hs]
      exact (lastByte_zeros (fun p hp => by
        obtain ⟨q, hq, rfl⟩ := List.mem_map.mp hp
        obtain ⟨k, -, hk⟩ := List.mem_map.mp (List.of_mem_zip (show (q.1, q.2) ∈ _ from hq)).2
        exact hk.symm.trans (zero _ _))).symm
    · have fe : (if gather then d else t).fe = 0 := by cases gather <;> assumption
      simp [fe, hf, Map.findD]
    · simp [hp, Map.findD]

theorem witness_EngineEvents :
    (∃ (s : State) (core : Nat) (c : EngCmd) (b : Block), Commands s core c b ∧ c.accepted = false ∧ (s.core core).mayAccept c = true
      ∧ descsOf c.op ≠ [])
    ∧ (∃ (s : State) (core : Nat) (c : EngCmd) (b : Block) (r : Reel), Commands s core c b ∧ c.accepted = false ∧ (s.core core).mayAccept c = true
      ∧ c.op = .mstart 1 2 ∧ s.reels.find? c.reel = some r ∧ b.seq.mode = .idle)
    ∧ (∃ (s : State) (core : Nat) (c : EngCmd) (b : Block), Commands s core c b ∧ c.accepted = false ∧ (s.core core).mayAccept c = true
      ∧ c.op = .layset 63 true 0 ∧ s.mayRun core c b = true ∧ Clean b [0] 32)
    ∧ (∃ (s : State) (core : Nat) (c : EngCmd) (b : Block) (di si : BitVec 256) (d l : Layout), Commands s core c b ∧ c.accepted = true ∧ c.performed = false
      ∧ c.record = none ∧ s.mayRun core c b = true ∧ c.op = .cpy 63 63 ∧ c.lays = [di, si] ∧ d = Layout.ofImage di ∧ l = Layout.ofImage si
      ∧ d.ok b.desc.spad = true ∧ l.ok b.desc.spad = true ∧ d.sameShape l = true ∧ d.space = 0 ∧ l.space = 0
      ∧ c.done < ((piecesOf l l.addrs).zip (piecesOf d d.addrs)).length ∧ c.ahead = [] ∧ (∀ as n, Clean b as n) ∧ c.stores ++ c.inherited = [])
    ∧ (∃ (s : State) (core : Nat) (c : EngCmd) (b : Block) (gather : Bool) (d t i : Layout), Commands s core c b ∧ c.accepted = true ∧ c.performed = false
      ∧ c.record = none ∧ s.mayRun core c b = true ∧ TableRow b c.op c.lays gather d t i ∧ d.space = 0 ∧ t.space = 0 ∧ c.done < i.addrs.length
      ∧ (∃ b0, RowsMoved gather d t i c.done ((i.addrs.drop c.done).take 32) b b0) ∧ c.stores ++ c.inherited = [])
    ∧ (∃ (s : State) (core : Nat) (c : EngCmd) (b : Block), Commands s core c b ∧ c.op = .cpy 63 63 ∧ c.accepted = true ∧ c.performed = false
      ∧ c.record = none ∧ s.mayRun core c b = true ∧ s.faultEntry b.launch c.block ≠ 0
      ∧ (Layout.ofImage (c.lays.getD 0 0)).sameShape (Layout.ofImage (c.lays.getD 1 0)) = false)
    ∧ (∃ (s : State) (core : Nat) (c : EngCmd) (b : Block) (d : Layout), Commands s core c b ∧ c.op = .cpy 63 63 ∧ c.accepted = true
      ∧ c.performed = false ∧ c.record = none ∧ s.mayRun core c b = true ∧ s.faultEntry b.launch c.block ≠ 0 ∧ d = Layout.ofImage (c.lays.getD 0 0)
      ∧ d = Layout.ofImage (c.lays.getD 1 0) ∧ d.ok b.desc.spad = true ∧ d.sameShape d = true ∧ d.space = 0 ∧ c.ahead = []
      ∧ ∃ a ∈ ((piecesOf d d.addrs).drop c.done).take (4096 / pieceOf d), ∃ w, inWord a (pieceOf d) w ∧ b.poison.findD false w = true)
    ∧ (∃ (s : State) (k : Nat) (b : Block) (first cnt since spent : Nat), s.blocks.find? k = some b
      ∧ b.seq.wait = some (.claim true first cnt since spent) ∧ ∀ n, first ≤ n ∧ n < first + cnt → (s.core b.core).ac.find? n = none)
    ∧ ∃ (s : State) (k : Nat) (b : Block) (first cnt since spent : Nat), s.blocks.find? k = some b
      ∧ b.seq.wait = some (.claim true first cnt since spent) ∧ 2 ^ 24 ≤ s.clock b.core - since + spent ∧ b.err = 0 ∧ s.faultEntry b.launch k ≠ 0 :=
  have clean : ∀ as n, Clean (laid 2 1 0) as n := fun _ _ _ _ _ _ => rfl
  ⟨⟨_, 0, _, _, commanding_commands (.cpy 63 63) false [] 0 (laid 2 1 0), rfl, by decide, by decide⟩,
    ⟨_, 0, _, _, _, commanding_commands (.mstart 1 2) false [] 0 block, rfl, by decide, rfl, rfl, rfl⟩,
    ⟨_, 0, _, _, commanding_commands (.layset 63 true 0) false [] 0 (laid 2 1 0), rfl, by decide, rfl, by decide +kernel, clean _ _⟩,
    ⟨_, 0, _, _, _, _, _, _, commanding_commands (.cpy 63 63) true [image 2 1, image 2 1] 0 (laid 2 1 0), rfl, rfl, rfl, by decide +kernel, rfl, rfl, rfl, rfl,
      by decide +kernel, by decide +kernel, by decide +kernel, by decide +kernel, by decide +kernel, by decide +kernel, rfl, clean, rfl⟩,
    ⟨_, 0, _, _, true, _, _, _, commanding_commands (.gath 62 60) true [image 2 1, image 2 1, image 2 1] 31 (laid 2 1 0), rfl, rfl, rfl, by decide +kernel,
      .gath 62 60 (image 2 1) (image 2 1) (image 2 1) _ _ _ rfl rfl rfl (by unfold TableFits; decide +kernel), by decide +kernel, by decide +kernel,
      by decide +kernel, ⟨_, rows_of_zeros _ _ _ _ _ _ _ rfl rfl rfl (by decide +kernel) (by decide +kernel)⟩, rfl⟩,
    ⟨_, 0, _, _, commanding_commands (.cpy 63 63) true [image 2 1, image 2 2] 0 (laid 2 1 0), rfl, rfl, rfl, rfl, by decide +kernel, by decide, by decide⟩,
    ⟨_, 0, _, _, _, commanding_commands (.cpy 63 63) true [image 2 1, image 2 1] 0 { laid 2 1 0 with poison := [(0, true)] }, rfl, rfl, rfl, rfl,
      by decide +kernel, by decide, rfl, rfl, by decide +kernel, by decide +kernel, by decide +kernel, rfl, 0, by decide +kernel, 0, by unfold inWord; decide +kernel, rfl⟩,
    ⟨(streams (running 0 (some (.claim true 14 2 0 0)) none) none up).s, 0, _, 14, 2, 0, 0, rfl, rfl, fun _ _ => rfl⟩,
    ⟨(streams (running 0 (some (.claim true 14 2 0 (2 ^ 24))) none) none up).s, 0, _, 14, 2, 0, _, rfl, rfl, by decide, rfl, by decide⟩⟩

/-- Tables at 1 MiB: the context's root names a level-1 table at 2 MiB whose entry for the first 4 TiB is a leaf that allows all. -/
def tabled : State :=
  { up with
    mem := [(0x100000, 1), (0x100002, 0x20), (0x200000, 0x1F)]
    parts := [(0, { Partition.reset 0 with ctxtab := 0x100000, xlat1 := 0x100000 })] }

/-- The same with a leaf of the first translation stage in that table, the frame register at 4 MiB, and a walk in progress for page 5. -/
def walking : State :=
  { tabled with
    mem := [(0x200000, 3)]
    parts := [(0, { Partition.reset 0 with xlat1 := 0x200000 })]
    domains := [(0, { Domain.reset with walks := [5], frames := 0x400000 })] }

theorem witness_TablesAndThrottle :
    (∃ (s : State) (k split : Nat) (r : Reel) (p : Split) (b : Block) (g c e level : Nat), split < 4 ∧ s.reels.find? k = some r
      ∧ r.splits.find? split = some p ∧ s.blocks.find? r.block = some b ∧ p.wait = some (.perm g [])
      ∧ TableWord s 0 ((s.partn (s.domain 0).part).ctxtab + 8 * b.ctx) c ∧ c % 2 = 1
      ∧ TablePath s 0 (g * 65536) (fun _ _ _ => True) 1 (c / 2 ^ 16 % 2 ^ 40 * 2 ^ 16) e level)
    ∧ (∃ (s : State) (k split : Nat) (r : Reel) (p : Split) (b : Block) (g c : Nat), split < 4 ∧ s.reels.find? k = some r
      ∧ r.splits.find? split = some p ∧ s.blocks.find? r.block = some b ∧ p.wait = some (.perm g [])
      ∧ TableWord s 0 ((s.partn (s.domain 0).part).ctxtab + 8 * b.ctx) c ∧ c % 2 = 0)
    ∧ (∃ (s : State) (core ctx lo hi : Nat) (ids : List Nat) (rest : List (Nat × Nat × Nat × List Nat)), (s.core core).shoot = (ctx, lo, hi, ids) :: rest
      ∧ ∀ i ∈ ids, ∀ m, s.msgs.find? i = some m → m.arrived = true)
    ∧ (∃ (s : State), (∀ d, (s.domain d).l2.sorted))
    ∧ (∃ (s : State) (d page e level h : Nat), page ∈ (s.domain d).walks.take 48 ∧ s.msgs.sorted
      ∧ (∀ p ∈ s.msgs, StandsFor p.2 d page → p.2.body.isWrite = false)
      ∧ TablePath s d (page * 2 ^ 16) xlatOk 1 (s.partn (s.domain d).part).xlat1 e level ∧ (s.partn (s.domain d).part).xlat2 = 0
      ∧ s.place (bitsOf e 55 16 * 2 ^ 16 + page * 2 ^ 16 % 2 ^ (55 - 13 * level)) = .home h
      ∧ s.exists? (bitsOf e 55 16 * 2 ^ 16 + page * 2 ^ 16 % 2 ^ (55 - 13 * level)) = true
      ∧ (s.partn (s.domain d).part).conn.getLsbD (s.domain h).part = true ∧ (s.domain d).xlats.length < 65536
      ∧ (s.physRead ((s.domain h).frames + 8 * bitsOf (bitsOf e 55 16 * 2 ^ 16 + page * 2 ^ 16 % 2 ^ (55 - 13 * level)) 37 16) 8).testBit 63 = false)
    ∧ ∃ (s : State) (core : Nat), core < Config.coreCount ∧ (s.core core).windowStart + 1024 ≤ s.clock core :=
  ⟨⟨{ tabled with reels := [(3, { reel with splits := [(2, { split 1 [] with wait := some (.perm 0xFFFF []) })] })] }, 3, 2, _, _, _, 0xFFFF, 0x200001, 0x1F, 1,
      by decide, rfl, rfl, rfl, rfl, ⟨⟨0, by decide +kernel⟩, by decide +kernel, by decide +kernel, by decide +kernel⟩, by decide,
      .leaf _ _ _ ⟨⟨0, by decide +kernel⟩, by decide +kernel, by decide +kernel, by decide +kernel⟩ (by decide) (.inr (by decide)) trivial⟩,
    ⟨{ tabled with mem := [], reels := [(3, { reel with splits := [(2, { split 1 [] with wait := some (.perm 0xFFFF []) })] })] }, 3, 2, _, _, _, 0xFFFF, 0,
      by decide, rfl, rfl, rfl, rfl, ⟨⟨0, by decide +kernel⟩, by decide +kernel, by decide +kernel, by decide +kernel⟩, by decide⟩,
    ⟨{ up with cores := [(7, { Core.reset with shoot := [(0, 0, 65536, [3])] })] }, 7, 0, 0, 65536, [3], [], rfl, fun _ _ _ h => nomatch h⟩,
    ⟨State.reset, fun d => (show Map.sorted ([] : Map L2Sector) from by decide)⟩,
    ⟨walking, 0, 5, 3, 1, 0, by decide, by decide, fun p h => (nomatch h),
      .leaf _ _ _ ⟨⟨0, by decide +kernel⟩, by decide +kernel, by decide +kernel, by decide +kernel⟩ (by decide) (.inr (by decide))
        ⟨by decide, by decide, fun _ => by decide⟩, rfl, by decide +kernel, by decide +kernel, by decide, by decide, by decide +kernel⟩,
    ⟨{ up with time := 1024 }, 0, by decide, by decide⟩⟩

theorem ok_of {ε α : Type} {x : Except ε α} (h : x.toBool = true) : ∃ u, x = .ok u := by
  cases x with
  | ok u => exact ⟨u, rfl⟩
  | error e => exact absurd h Bool.false_ne_true

/-- The machine with a ring of one slot in the cached page, and a record. -/
def ringed (f : FaultRec) : State :=
  { up with parts := [(0, { Partition.reset 0 with fringBase := 0x1000, fringSize := 1 })], faults := [(7, f)], launches := [(5, launch .admitted [])] }

theorem witness_FaultService :
    (∃ (s : State) (id : Nat) (f : FaultRec) (i : Nat), s.faults.find? id = some f ∧ f.state = .waiting ∧ s.savedRec f = false
      ∧ (s.partn (s.domain f.dom).part).fringBase ≠ 0 ∧ NextSlot s (s.domain f.dom).part i
      ∧ (∀ g ∈ s.faults, g.1 < id → s.deliverable g.2 = true → s.ringPart g.2 ≠ (s.domain f.dom).part)
      ∧ ∃ u, s.ringWrite f.dom ((deviceImages (((s.partn (s.domain f.dom).part).fringBase + 256 * i) % 2 ^ 55) 256 f.encode).map (·.2)) = .ok u)
    ∧ (∃ (s : State) (id : Nat) (f : FaultRec), s.faults.find? id = some f ∧ f.state = .secure ∧ f.kind ≤ 3 ∧ f.engine = false ∧ f.loadId = none
      ∧ f.sid = none ∧ f.reelKey = none ∧ f.exited = false)
    ∧ (∃ (s : State) (id : Nat) (f : FaultRec) (l : Launch) (c : Nat) (r : Room) (slot : Nat) (rest : List (Nat × Room)), s.faults.find? id = some f
      ∧ f.state = .delivered ∧ f.served = false ∧ s.launches.find? f.launch = some l ∧ l.verdict = none ∧ s.switchedOut l.part l.ctx = false
      ∧ s.dispatching = true ∧ r.slots = [slot] ∧ slot < 32 ∧ s.gangSpots l.part f.dom 1 { l.desc with reels := 1, spad := 0 } = some ((c, r) :: rest))
    ∧ ∃ (s : State) (id : Nat) (f : FaultRec) (l : Launch) (c : Nat) (r : Room) (slot : Nat) (rest : List (Nat × Room)), s.faults.find? id = some f
      ∧ f.state = .resolved ∧ f.slotTaken = true ∧ f.served = false ∧ s.launches.find? f.launch = some l ∧ l.verdict = none
      ∧ s.switchedOut l.part l.ctx = false ∧ s.dispatching = true ∧ r.slots = [slot] ∧ slot < 32
      ∧ s.gangSpots l.part f.dom 1 { l.desc with reels := 1, spad := 0 } = some ((c, r) :: rest) :=
  ⟨⟨ringed { blank with state := .waiting }, 7, _, 0, rfl, rfl, by decide, by decide, ⟨0, by decide, by decide, by decide, by decide⟩,
      fun g h => by cases List.mem_singleton.mp h; exact fun h => absurd h (by decide), ok_of (by decide +kernel)⟩,
    ⟨ringed { blank with state := .secure }, 7, _, rfl, rfl, by decide, rfl, rfl, rfl, rfl, rfl⟩,
    ⟨ringed { blank with served := false }, 7, _, _, 0, ⟨[1], 0, 1⟩, 1, [], rfl, rfl, rfl, rfl, rfl, by decide, by decide, rfl, by decide, by decide +kernel⟩,
    ⟨ringed { blank with served := false, state := .resolved }, 7, _, _, 0, ⟨[1], 0, 1⟩, 1, [], rfl, rfl, rfl, rfl, rfl, rfl, by decide, by decide, rfl, by decide,
      by decide +kernel⟩⟩


theorem reads_of {s : State} {part ctx va n x : Nat} {ext : List (Nat × Nat)}
    (h : s.deviceRead (agentCore (s.domOfPart part)) ctx va n ext = (s, .ok x)) : AgentReads s part ctx va n ext x := h

theorem witness_Failures :
    (∃ (s : State) (core : Nat), core < Config.coreCount ∧ (s.core core).live = true)
    ∧ (∃ (s : State) (boundary dir : Nat), boundary < 112 ∧ dir < 2 ∧ s.wafer.linksLost.findD 0 (2 * boundary + dir) + 1 = 22
      ∧ s.wafer.blive.getLsbD boundary = true)
    ∧ (∃ (s : State) (d : Nat), d < 64 ∧ (s.domain d).fenced = false ∧ (s.domain d).regFailed = false ∧ (s.domain d).beatAt + 25000 ≤ s.time
      ∧ 3 ≤ (s.domain d).missed + 1)
    ∧ (∃ (s : State) (d first size : Nat), d < 64
      ∧ ¬ (min size (2 ^ 35 - first) = 0 ∨ ∃ r ∈ (s.domain d).lostRanges, r.1 ≤ first ∧ first + min size (2 ^ 35 - first) ≤ r.1 + r.2))
    ∧ (∃ (s : State) (d first size : Nat), d < 64 ∧ min size (2 ^ 35 - first) ≠ 0
      ∧ ∃ r ∈ (s.domain d).lostRanges, r.1 ≤ first ∧ first + min size (2 ^ 35 - first) ≤ r.1 + r.2)
    ∧ (∃ (s : State) (k : Nat) (m : Msg) (sid line : Nat) (o : OutStore), s.msgs.find? k = some m ∧ (s.domain m.dst).fenced = true
      ∧ m.body = .confirm sid line ∧ s.stores.find? sid = some o)
    ∧ ∃ (s : State) (k : Nat) (m : Msg) (sid : Nat) (i : LineImg) (e : Xlat) (o : OutStore), s.msgs.find? k = some m ∧ (s.domain m.dst).fenced = true
      ∧ m.body = .homeWrite sid i e ∧ s.stores.find? sid = some o ∧ o.eng = false ∧ s.faultEntry o.launch o.block ≠ 0 :=
  ⟨⟨up, 0, by decide, rfl⟩,
    ⟨{ up with wafer := { up.wafer with linksLost := [(223, 21)] } }, 111, 1, by decide, by decide, rfl, by decide⟩,
    ⟨{ up with domains := [(63, { Domain.reset with missed := 2 })], time := 25000 }, 63, by decide, rfl, rfl, by decide, by decide⟩,
    ⟨up, 63, 2 ^ 34, 2 ^ 35, by decide, by rintro (h | ⟨r, h, -⟩); exacts [absurd h (by decide), nomatch h]⟩,
    ⟨{ up with domains := [(63, { Domain.reset with lostRanges := [(2 ^ 34, 2 ^ 34)] })] }, 63, 2 ^ 35 - 1, 2, by decide, by decide, _,
      List.mem_singleton_self _, by decide, by decide⟩,
    ⟨{ sent (.confirm 6 0) [] [] with domains := [(0, { Domain.reset with fenced := true })] }, 3, _, 6, 0, _, rfl, rfl, rfl, rfl⟩,
    ⟨{ sent (.homeWrite 6 img (page 0x20000 0)) [] [] with
        domains := [(0, { Domain.reset with fenced := true })], blocks := [(0, block)], launches := [(5, launch .admitted [])] },
      3, _, 6, img, _, _, rfl, rfl, rfl, rfl, rfl, by decide⟩⟩

/-- The machine with a launch queue bound to slot 63, whose packet is served next. -/
def queued : State := { up with queues := [(63, ⟨9, 0, false, 0, 0, 7, false, 0, 0, false⟩)] }

/-- The machine with an entry of queue 0 in the registration table at 1 MiB. -/
def registered (m : Mgmt) : State := { up with mem := [(0x20010, 1), (0x100007, 128)], mgmt := { m with dbreg := 0x100000 } }

set_option maxRecDepth 8000 in
theorem witness_Launches :
    (∃ (s : State) (slot : Nat) (b : QueueBind) (x : Nat), s.queues.find? slot = some b ∧ b.collective = false ∧ s.dispatching = true
      ∧ AgentReads s b.part b.ctx b.desc 32 [] x ∧ bitsOf x 191 160 ≠ bitsOf x 159 128
      ∧ AgentReads s b.part b.ctx ((bitsOf x 54 0 + 128 * (bitsOf x 191 160 % 2 ^ (bitsOf x 67 64 + 4))) % 2 ^ 55) 128 [] x
      ∧ (¬ ∃ l ∈ s.launches, OfQueue b l.2 ∧ l.2.state = .queued) ∧ ServedNext s slot (min (bitsOf x 486 484) b.cap) []
      ∧ ∃ u, s.deviceWrite (agentCore (s.domOfPart b.part)) b.ctx (b.desc + 20) 4 ((bitsOf x 191 160 + 1) % 2 ^ 32) = .ok u)
    ∧ (∃ (s : State) (id : Nat) (l : Launch) (x : Nat), Admissible s id l [] ∧ l.pkt.cwOk = true ∧ (servedBy s l).cwStop l = none
      ∧ l.pkt.malformed = false ∧ AgentReads (servedBy s l) l.part l.ctx l.pkt.kdesc 64 [] x ∧ badDesc x = false
      ∧ (servedBy s l).badGang l.part l.pkt = false ∧ l.pkt.cls ≠ 0)
    ∧ (∃ (s : State) (id : Nat) (l : Launch) (h : Nat) (spots : List (Nat × Room)), s.launches.find? id = some l ∧ l.state = .admitted
      ∧ l.verdict = none ∧ l.replay = [] ∧ l.nextBlock < l.pkt.nx * l.pkt.ny * l.pkt.nz ∧ s.switchedOut l.part l.ctx = false ∧ s.dispatching = true
      ∧ s.hintDomain l l.nextBlock [] = (s, .ok h) ∧ s.gangSpots l.part h l.pkt.gang l.desc = some spots ∧ spots.length = l.pkt.gang
      ∧ (spots.map (·.1)).Nodup
      ∧ ∀ e ∈ spots, e.2.slots ≠ [] ∧ e.2.slots.length = l.desc.reels ∧ e.2.slots.Nodup ∧ ∀ i ∈ e.2.slots, i < 32)
    ∧ (∃ (s : State) (k : Nat) (b : Block), s.blocks.find? k = some b ∧ b.service = none ∧ s.reels.sorted ∧ b.seq.mode ≠ .running
      ∧ b.seq.pending = none ∧ (∀ p ∈ s.reels, p.2.block = k → p.2.exited = true ∨ p.2.killed = true) ∧ ∀ c ∈ (s.core b.core).cmds, c.block ≠ k)
    ∧ (∃ (s : State) (id : Nat) (l : Launch) (mark : Nat), s.launches.find? id = some l ∧ l.state = .written mark ∧ OnWay s l mark)
    ∧ (∃ (s : State) (id : Nat) (l : Launch) (mark : Nat), s.launches.find? id = some l ∧ l.state = .written mark ∧ ¬ OnWay s l mark)
    ∧ (∃ (s : State) (id : Nat) (l : Launch), s.launches.find? id = some l ∧ (∀ mark, l.state ≠ .written mark) ∧ s.launchDone id l = true
      ∧ l.pkt.cwOk = true ∧ l.verdict = none
      ∧ ∃ u, s.deviceWrite (agentCore (s.domOfPart l.part)) l.ctx l.pkt.cw 8 (1 + 0 * 2 ^ 8 + 0 * 2 ^ 16 + id % 2 ^ 32 * 2 ^ 32) = .ok u)
    ∧ (∃ (s : State) (id : Nat) (l : Launch), s.launches.find? id = some l ∧ l.state = .admitted ∧ l.verdict = none ∧ l.pkt.limit ≠ 0
      ∧ l.admitAt + l.pkt.limit * 2500 ≤ s.time)
    ∧ (∃ (s : State) (n : Nat) (b : QueueBind), n < 1024 ∧ s.mgmt.ready = true
      ∧ ({ s with mgmt := { s.mgmt with rung := s.mgmt.rung.filter (· != n) } } : State).registration n = some b ∧ b.collective = false
      ∧ (∀ q ∈ s.queues, q.1 < 64 → q.2.reg ≠ b.reg) ∧ s.queues.find? 0 = none)
    ∧ (∃ (s : State) (n : Nat) (rest : List Nat) (b : QueueBind), s.mgmt.pendingBells = n :: rest
      ∧ ({ s with mgmt := { s.mgmt with pendingBells := rest } } : State).registration n = some b
      ∧ (∀ q ∈ s.queues, q.1 < 64 → q.2.reg ≠ b.reg) ∧ s.queues.find? 0 = none)
    ∧ (∃ (s : State) (k : Nat) (r : Reel) (o : OutLoad) (reg x : Nat) (b : Block), Performed s k r o ∧ r.exited = false ∧ o.dst = .launch reg
      ∧ o.packet = some x ∧ s.blocks.find? r.block = some b ∧ (Packet.ofNat x).malformed = false ∧ s.devicePending < 256)
    ∧ ∃ (s : State) (slot desc : Nat), slot < 64
      ∧ ∀ n b, n < 1024 → s.registration n = some b → b.desc ≠ desc % 2 ^ 55 ∨ b.collective = true :=
  ⟨⟨queued, 63, _, 2 ^ 128, rfl, rfl, rfl, reads_of rfl, by decide, reads_of rfl, (by rintro ⟨_, h, -⟩; exact absurd h List.not_mem_nil), by unfold ServedNext; decide +kernel,
      ok_of (by decide +kernel)⟩,
    ⟨{ up with launches := [(5, launch .queued [])], mem := [(0x20020, 128), (0x20021, 16)] }, 5, launch .queued [], (128 + 16 * 2 ^ 8) * 2 ^ 256,
      ⟨rfl, rfl, rfl, rfl, by decide, .inr nofun⟩, rfl, by decide +kernel, rfl, reads_of rfl, by decide, by decide +kernel, by decide⟩,
    ⟨{ up with launches := [(5, launch .admitted [])] }, 5, launch .admitted [], 0, [(0, ⟨[1], 0, 1⟩)], rfl, rfl, rfl, rfl, by decide, rfl, rfl, rfl, by decide +kernel, rfl,
      by decide, by decide⟩,
    ⟨{ up with reels := [(0, { reel with exited := true })] }, 0, _, rfl, rfl, by decide, by decide, rfl, by decide, by decide⟩,
    ⟨{ up with
        launches := [(5, launch (.written 4) [0])], msgs := [(3, ⟨0, 0, 0, false, .homeWrite 0 ⟨2, 0xFF, 0, 0⟩ (page 0x20000 0)⟩)] }, 5, _, 4, rfl, rfl,
      _, List.mem_singleton_self _, by decide, _, _, rfl, rfl⟩,
    ⟨{ up with launches := [(5, launch (.written 4) [0])] }, 5, _, 4, rfl, rfl, fun ⟨_, h, _⟩ => nomatch h⟩,
    ⟨{ up with blocks := [], launches := [(5, launch .admitted [0])] }, 5, _, rfl, nofun, by decide, rfl, rfl, ok_of (by decide +kernel)⟩,
    ⟨{ up with launches := [(5, launch .admitted [])], time := 2500 }, 5, _, rfl, rfl, rfl, by decide, by decide⟩,
    ⟨registered up.mgmt, 0, _, by decide, rfl, rfl, by decide +kernel, fun q h => (nomatch h), rfl⟩,
    ⟨registered { up.mgmt with pendingBells := [0] }, 0, [], _, rfl, rfl, fun q h => (nomatch h), rfl⟩,
    ⟨{ up with reels := [(0, { reel with loads := [⟨4, 0, 0, 1, .launch 63, (List.range 8).map fun k => ⟨k, 16 * k, some (if k = 1 then 8 else if k = 2 then 2 ^ 64 + 2 ^ 32 + 1 else 0), false⟩, none, [], 0, 0⟩] })] }, 0, _,
      ⟨4, 0, 0, 1, .launch 63, (List.range 8).map fun k => ⟨k, 16 * k, some (if k = 1 then 8 else if k = 2 then 2 ^ 64 + 2 ^ 32 + 1 else 0), false⟩, none, [], 0, 0⟩, 63, (2 ^ 64 + 2 ^ 32 + 1) * 2 ^ 256 + 8 * 2 ^ 128, _,
      ⟨⟨3, ⟨rfl, by decide, fun _ h => nomatch h⟩, rfl⟩, rfl, by decide⟩, rfl, rfl, by decide +kernel, rfl, by decide +kernel, by decide +kernel⟩,
    ⟨up, 63, 8, by decide, fun n b h e => by
      have none_ : ∀ n, n < 1024 → up.registration n = none := by decide +kernel
      exact absurd e (by simp [none_ n h])⟩⟩

/-- A pre-emption of the block under way since time 0. -/
def preempting (step : PreStep) (time : Nat) : State := { up with preempts := [(2, ⟨[0], 0, 0, .system, 0, step, (0, 2 ^ 20)⟩)], time := time }

/-- A saved block of context 0 with one reel, its launch admitted, whose image stands in memory or not. -/
def savedBlock (image : Option Nat) : Saved := ⟨0, block, [(0, reel)], [], [], [], 0, 1, 0, image, (0, 2 ^ 20), 0, 0, 0⟩

/-- Nothing of block `v` of the one save keeps it from core 0. -/
def Returns (s : State) (part ctx : Nat) (v : Saved) (c : Nat) (room : Room) (l : Launch) : Prop :=
  (∀ p ∈ s.preempts, p.2.part = part → p.2.ctx = ctx → p.2.asker = .dispatcher ∨ p.2.step = .saved) ∧ s.dispatching = true ∧ s.saved = [v]
    ∧ v.ctx = ctx ∧ v.block.part = part ∧ v.block.service = none ∧ v.block.gang = [v.key] ∧ s.launches.find? v.block.launch = some l
    ∧ l.pkt.cls ≠ 0 ∧ s.gangReturn part [v] = some [(v, c, room)] ∧ room.slots ≠ [] ∧ room.slots.Nodup ∧ (∀ i ∈ room.slots, i < 32)
    ∧ v.reels.sorted ∧ (v.reels.map (·.1)) = List.range room.slots.length

theorem witness_Preemption :
    (∃ (s : State) (part ctx : Nat) (area : Nat × Nat), s.switchedOut part ctx = false
      ∧ s.areaFits ((s.blocks.filter fun b => b.2.part == part && b.2.ctx == ctx).map (·.1)) area = true)
    ∧ (∃ (s : State) (part ctx : Nat) (area : Nat × Nat),
      s.areaFits ((s.blocks.filter fun b => b.2.part == part && b.2.ctx == ctx).map (·.1)) area = false)
    ∧ (∃ (s : State) (req : Nat) (p : PreReq), s.preempts.find? req = some p ∧ p.step = .soft ∧ p.since + (s.partn p.part).grace * 2500 ≤ s.time)
    ∧ (∃ (s : State) (req : Nat) (p : PreReq), s.preempts.find? req = some p ∧ p.step = .stopped ∧ p.asker ≠ .dispatcher
      ∧ (∀ k ∈ p.blocks, s.quiet k = true) ∧ s.areaFits (p.blocks.filter fun k => (s.blocks.find? k).isSome) p.area = true
      ∧ ∀ k ∈ p.blocks, ∀ b, s.blocks.find? k = some b →
        (s.domain (domainOfCore b.core)).fenced = false ∧ (s.domain (domainOfCore b.core)).regFailed = false)
    ∧ (∃ (s : State) (req : Nat) (p : PreReq), s.preempts.find? req = some p ∧ p.step ≠ .saved ∧ p.since + (s.partn p.part).kill * 2500 ≤ s.time)
    ∧ (∃ (s : State) (part c w : Nat) (area : Nat × Nat), (s.partn part).sliceAt + max s.mgmt.saveBound (s.partn part).slice * 2500 ≤ s.time
      ∧ (∃ b ∈ s.blocks, b.2.part = part) ∧ (∀ b ∈ s.blocks, b.2.part = part → b.2.ctx = c) ∧ w ∈ s.waitingContexts part
      ∧ c ∉ s.waitingContexts part ∧ s.contextPrio part w = s.contextPrio part c
      ∧ (∀ l ∈ s.launches, l.2.part = part → l.2.ctx = c → l.2.npf = false) ∧ s.switchedOut part c = false
      ∧ (s.partn part).save.find? c = some area ∧ s.areaFits (s.contextBlocks part c) area = true)
    ∧ (∃ (s : State) (part ctx : Nat) (v : Saved) (c : Nat) (room : Room) (l : Launch), Returns s part ctx v c room l ∧ v.image = none)
    ∧ ∃ (s : State) (part ctx : Nat) (v : Saved) (c : Nat) (room : Room) (l : Launch), Returns s part ctx v c room l ∧ v.image ≠ none :=
  ⟨⟨up, 0, 0, (0x400000, 2 ^ 20), by decide, by decide +kernel⟩, ⟨up, 0, 0, (0x400000, 2 ^ 10), by decide +kernel⟩,
    ⟨preempting .soft 250000, 2, _, rfl, rfl, by decide⟩,
    ⟨preempting .stopped 0, 2, _, rfl, rfl, by decide, by decide, by decide +kernel, fun k hk b h => by
      cases List.mem_singleton.mp hk; cases h; exact ⟨rfl, rfl⟩⟩,
    ⟨preempting .stopped 25000000, 2, _, rfl, by decide, by decide⟩,
    ⟨{ up with
        time := 125000, launches := [(5, { launch .admitted [0] with nextBlock := 1 }), (6, { launch .queued [] with ctx := 1 })]
        parts := [(0, { Partition.reset 0 with save := [(0, (0, 2 ^ 20))] })] },
      0, 0, 1, _, by decide, by decide, by decide, by decide, by decide, by decide, by decide, by decide, rfl, by decide +kernel⟩,
    ⟨{ up with saved := [savedBlock none], launches := [(5, launch .admitted [])], blocks := [], reels := [] }, 0, 0, savedBlock none, 0, ⟨[0], 0, 1⟩, _,
      ⟨fun p h => (nomatch h), rfl, rfl, rfl, rfl, rfl, rfl, rfl, by decide, by decide +kernel, by decide, by decide, by decide, by decide, by decide⟩, rfl⟩,
    ⟨{ up with saved := [savedBlock (some 0x400000)], launches := [(5, launch .admitted [])], blocks := [], reels := [] }, 0, 0, savedBlock (some 0x400000), 0,
      ⟨[0], 0, 1⟩, _,
      ⟨fun p h => (nomatch h), rfl, rfl, rfl, rfl, rfl, rfl, rfl, by decide, by decide +kernel, by decide, by decide, by decide, by decide, by decide⟩, nofun⟩⟩

theorem witness_PowerAndClocks :
    (∃ (s : State) (d : Nat), d < 64 ∧ (s.domain d).sampleAt + 2500 ≤ s.time)
    ∧ (∃ (s : State) (d : Nat), 100 ≤ (s.domain d).satSamples ∧ (s.domain d).point < 3)
    ∧ (∃ (s : State) (d draw : Nat), 10000 ≤ (s.domain d).okSamples ∧ draw < 800 * (s.domain d).cap ∧ (s.domain d).setPoint < (s.domain d).powerAsk)
    ∧ (∃ (s : State) (d temp : Nat), d < 64 ∧ 95000 < temp ∧ (s.domain d).thermAt ≤ s.time ∧ (s.domain d).point < 3)
    ∧ (∃ (s : State) (d temp : Nat), temp < 85000 ∧ (s.domain d).thermAt ≤ s.time ∧ (s.domain d).setPoint < (s.domain d).thermAsk)
    ∧ (∃ (s : State) (d : Nat), s.time < (s.domain d).thermAt)
    ∧ (∃ (s u : State), s.domains.sorted ∧ PointSet (s.setDomain 63 { s.domain 63 with cap := 100 }) u 63 { s.domain 63 with cap := 100, setPoint := 3 }
      ∧ u.wafer.gen ≠ s.wafer.gen)
    ∧ ∃ (s u : State), PointSet (s.setDomain 63 { s.domain 63 with cap := 100 }) u 63 { s.domain 63 with cap := 100, setPoint := 0 }
      ∧ u.wafer.gen = s.wafer.gen ∧ (s.domain 63).cap ≠ 100 :=
  let near := fun (q : Domain) => { State.reset with domains := [(63, q)], time := 2500 }
  ⟨⟨near Domain.reset, 63, by decide, by decide⟩, ⟨near { Domain.reset with satSamples := 100, setPoint := 2 }, 63, by decide, by decide⟩,
    ⟨near { Domain.reset with okSamples := 10000, powerAsk := 1 }, 63, 263999, by decide, by decide, by decide⟩,
    ⟨near { Domain.reset with thermAt := 2500, setPoint := 2 }, 63, 95001, by decide, by decide, by decide, by decide⟩,
    ⟨near { Domain.reset with thermAt := 2500, setPoint := 1, thermAsk := 2 }, 63, 84999, by decide, by decide, by decide⟩,
    ⟨near { Domain.reset with thermAt := 2501 }, 63, by decide⟩,
    ⟨near Domain.reset, _, by decide, ⟨fun h => absurd h (by decide), fun _ => rfl⟩, by decide +kernel⟩,
    ⟨near Domain.reset, _, ⟨fun _ => rfl, fun h => absurd rfl h⟩, rfl, by decide⟩⟩

/-- An accepted firmware image. -/
def firmware : Image := ⟨3, 2, some 2, true⟩

theorem witness_Management :
    (∃ (s : State), (∀ i, ¬ Offers s.boot s.boot.slotA i) ∧ ∀ i, ¬ Offers s.boot s.boot.slotB i)
    ∧ (∃ (s : State) (i : Image), Offers s.boot s.boot.slotB i ∧ ∀ j, Offers s.boot s.boot.slotA j → j.version < i.version)
    ∧ (∃ (s : State) (id part : Nat) (l : Launch), s.launches.find? id = some l ∧ l.part = part ∧ l.verdict = none ∧ part < 16)
    ∧ (∃ s : State, s.mgmt.recovery = true)
    ∧ (∃ (s : State) (d : Nat), d < 64 ∧ ((∀ b ∈ s.blocks, b.2.core / 120 ≠ d) ∧ (s.domain d).l2 = [] ∧ (s.domain d).dir = [])
      ∧ (s.domain d).part ≠ 16 % 16 + 1)
    ∧ ∃ s : State, ∀ d, d < 64 → (s.domain d).cap < 2 ^ 16 :=
  ⟨⟨{ State.reset with boot := { State.reset.boot with slotA := none, slotB := none } }, fun _ h => (nomatch h.1), fun _ h => (nomatch h.1)⟩,
    ⟨{ State.reset with boot := { State.reset.boot with slotA := none, slotB := some firmware, fusedMin := 2 } }, firmware, ⟨rfl, rfl, by decide⟩,
      fun _ h => (nomatch h.1)⟩,
    ⟨{ up with launches := [(5, { launch .admitted [] with part := 15 })] }, 5, 15, _, rfl, rfl, rfl, by decide⟩,
    ⟨{ up with mgmt := { up.mgmt with recovery := true } }, rfl⟩, ⟨up, 63, by decide, ⟨by decide, rfl, rfl⟩, by decide⟩,
    ⟨State.reset, fun _ _ => by show (330 : Nat) < _; decide⟩⟩

/-- The ready machine with a domain 63. -/
def withDomain (q : Domain) : State := { up with domains := [(63, q)] }

/-- A device offset in the last page of domain 63's memory. -/
def lastOff : Nat := 63 * 2 ^ 35 + (2 ^ 35 - 64)

theorem witness_HostAccesses :
    (∃ s : State, (s.domain 63).fenced = true)
    ∧ (∃ s : State, HdmOpen s 63 (2 ^ 35 - 64) ∧ (s.domain 63).bias.findD 0 ((2 ^ 35 - 64) / 4096) = 1 ∧ (s.domain 63).snoop.length < 2 ^ 18
      ∧ (s.domain 63).dir.sorted ∧ bitsOf lastOff 40 35 = 63 ∧ bitsOf lastOff 34 0 / 64 * 64 = 2 ^ 35 - 64)
    ∧ (∃ s : State, HdmOpen s 63 (2 ^ 35 - 64) ∧ (s.domain 63).bias.findD 0 ((2 ^ 35 - 64) / 4096) ≠ 1 ∧ (s.domain 63).biasBase = 0
      ∧ (s.domain 63).snoop.length < 2 ^ 18)
    ∧ (∃ s : State, HdmOpen s 63 (2 ^ 35 - 64) ∧ (s.domain 63).bias.findD 0 ((2 ^ 35 - 64) / 4096) = 1
      ∧ (∀ i, i < 64 → s.inBiasTable (63 * 2 ^ 38 + (2 ^ 35 - 64) + i) = false) ∧ Placed (s.domain 63).dir)
    ∧ (∃ s : State, ¬ ((s.domain 63).fenced = true ∨ ∃ r ∈ (s.domain 63).lostRanges, r.1 ≤ 4096 * (2 ^ 23 - 1) ∧ 4096 * (2 ^ 23 - 1) < r.1 + r.2)
      ∧ ¬ ((s.domain 63).bias.findD 0 (2 ^ 23 - 1) = 2 ∨ (s.domain 63).bias.findD 0 (2 ^ 23 - 1) = 3) ∧ (s.domain 63).biasBase = 0
      ∧ ∃ e ∈ (s.domain 63).snoop, e.1 / 64 = 2 ^ 23 - 1)
    ∧ (∃ (s : State) (line : Nat) (inv : Bool), ((s.domain 63).biOut.find? fun o => o.1 == line) = some (line, inv)
      ∧ (s.domain 63).bias.findD 0 (line / 64) ≠ 2)
    ∧ (∃ (s : State) (line : Nat) (o : Nat × Bool), line < 2 ^ 29 ∧ ((s.domain 63).biOut.find? fun o => o.1 == line) = some o
      ∧ (∀ i, i < 64 → s.inBiasTable (63 * 2 ^ 38 + 64 * line + i) = false)
      ∧ ∀ a, s.frameEntry ((63 * 2 ^ 38 + 64 * line) / 65536 * 65536) = some a → a + 8 ≤ 63 * 2 ^ 38 + 64 * line ∨ 63 * 2 ^ 38 + 64 * line + 64 ≤ a)
    ∧ (∃ (s : State) (line : Nat), (s.domain 63).biOut = [(line, true)] ∧ (s.domain 63).bias.findD 0 (line / 64) = 2 ∧ (s.domain 63).biasBase = 0
      ∧ ∀ e ∈ (s.domain 63).snoop, e.1 / 64 = line / 64 → e.1 = line)
    ∧ (∃ (s : State) (line : Nat) (r : HostReq), (s.hostReqs.find? fun r => r.line == line) = some r ∧ r.op < 3
      ∧ (s.hostLines.filter fun p => p.1 / 64 % 4 == line / 64 % 4).length < 2 ^ 22)
    ∧ (∃ (s : State) (line : Nat) (r : HostReq), s.hostLines.find? line = none
      ∧ (s.hostReqs.find? fun r => r.line == line && r.op == 3) = some r)
    ∧ (∃ (s : State) (line : Nat) (l : HostLine), s.hostLines.find? line = some l ∧ l.mask = 0 ∧ l.acks = 0)
    ∧ ∃ (s : State) (line : Nat) (l : HostLine), s.hostLines.find? line = some l ∧ l.mask ≠ 0 :=
  have opens : ∀ bias : Map (BitVec 2), bias.findD 0 ((2 ^ 35 - 64) / 4096) ≠ 2 → HdmOpen (withDomain { Domain.reset with bias := bias }) 63 (2 ^ 35 - 64) :=
    fun _ h => ⟨rfl, rfl, rfl, rfl, fun _ h => (nomatch h), h, fun _ h => (nomatch h)⟩
  ⟨⟨withDomain { Domain.reset with fenced := true }, rfl⟩,
    ⟨_, opens [(2 ^ 23 - 1, 1)] (by decide), by decide, by decide, by decide, by decide, by decide⟩,
    ⟨_, opens [] (by decide), by decide, rfl, by decide⟩,
    ⟨_, opens [(2 ^ 23 - 1, 1)] (by decide), by decide, by decide +kernel, by decide, nofun⟩,
    ⟨withDomain { Domain.reset with snoop := [(2 ^ 29 - 1, true)] }, by rintro (h | ⟨_, h, -⟩); exacts [absurd h (by decide), nomatch h], by decide, rfl,
      (2 ^ 29 - 1, true), by decide, by decide⟩,
    ⟨withDomain { Domain.reset with biOut := [(2 ^ 29 - 1, false)] }, 2 ^ 29 - 1, false, by decide, by decide⟩,
    ⟨withDomain { Domain.reset with biOut := [(2 ^ 29 - 1, true)], frames := 63 * 2 ^ 38 }, 2 ^ 29 - 1, (2 ^ 29 - 1, true), by decide, by decide, by decide +kernel, fun a h => by
      have h : some (63 * 2 ^ 38 + 8 * 524287) = some a := h
      cases h; decide⟩,
    ⟨withDomain { Domain.reset with biOut := [(2 ^ 29 - 1, true)], bias := [(2 ^ 23 - 1, 2)], snoop := [(2 ^ 29 - 1, true)] }, 2 ^ 29 - 1, rfl, by decide,
      rfl, by decide⟩,
    ⟨{ up with hostReqs := [⟨7, 1, 0⟩] }, 7, _, rfl, by decide, by decide⟩,
    ⟨{ up with hostReqs := [⟨7, 3, 5⟩] }, 7, _, rfl, rfl⟩,
    ⟨{ up with hostLines := [(7, ⟨.exclusive, 1, 0, 0, 0⟩)] }, 7, _, rfl, rfl, rfl⟩,
    ⟨{ up with hostLines := [(7, ⟨.modified, 1, 0x8000000000000000, 0, 0⟩)] }, 7, _, rfl, by decide⟩⟩

/-- A collective of two wafers, posted on this one. -/
def posted (outcome : Option Nat) : Coll := ⟨9, ⟨0x108, 0x200, 0x300, 1, 3, 0, 3, 2, 0, false⟩, 0, 0, [0, 1], outcome⟩

set_option maxRecDepth 8000 in
theorem witness_DrainsAndCollectives :
    (∃ s : State, s.mgmt.ready = true ∧ s.mgmt.drainRunning = false ∧ ∃ b ∈ s.blocks, s.switchedOut b.2.part b.2.ctx = false
      ∧ s.areaFits (s.contextBlocks b.2.part b.2.ctx) ((s.partn b.2.part).save.findD (0, 0) b.2.ctx) = true)
    ∧ (∃ (s : State) (image : TierImage), s.mgmt.drainRunning = false ∧ s.mgmt.ready = true ∧ s.blocks = [] ∧ image.headerOk = true
      ∧ image.version = Config.tierVersion ∧ Map.sorted image.cells)
    ∧ (∃ s : State, s.mgmt.drainRunning = true ∧ 2 ≤ s.mgmt.drainMode)
    ∧ (∃ s : State, s.mgmt.drainRunning = true ∧ s.mgmt.drainMode = 0 ∧ s.blocks ≠ [])
    ∧ (∃ s : State, s.mgmt.drainRunning = true ∧ s.mgmt.drainMode = 1 ∧ (∀ d e pa x y, DirtyAt s d pa x → DirtyAt s e pa y → x = y)
      ∧ ∀ d pa x, DirtyAt s d pa x → pa % 32 = 0)
    ∧ (∃ (s : State) (wafer : Nat), wafer < 4096 ∧ wafer ≠ s.mgmt.fabno.toNat ∧ wafer ∉ s.lostWafers
      ∧ ∀ i, i < 4 → (s.physRead (s.mgmt.rroute + 8 * wafer) 8).testBit (16 * i + 15) = true →
          ∃ since, s.portsFenced.find? (bitsOf (s.physRead (s.mgmt.rroute + 8 * wafer) 8) (16 * i + 5) (16 * i)) = some since ∧ since + 250000 ≤ s.time)
    ∧ (∃ (s : State) (slot : Nat) (b : QueueBind) (x y : Nat), s.queues.find? slot = some b ∧ b.collective = true
      ∧ AgentReads s b.part b.ctx b.desc 32 [] x ∧ bitsOf x 191 160 ≠ bitsOf x 159 128
      ∧ AgentReads s b.part b.ctx ((bitsOf x 54 0 + 64 * (bitsOf x 191 160 % 2 ^ (bitsOf x 67 64 + 4))) % 2 ^ 55) 64 [] y
      ∧ ∃ u, s.deviceWrite (agentCore (s.domOfPart b.part)) b.ctx (b.desc + 20) 4 ((bitsOf x 191 160 + 1) % 2 ^ 32) = .ok u)
    ∧ (∃ (s : State) (g q w : Nat) (c : Coll), s.coll? g q = some c ∧ c.outcome = some w)
    ∧ (∃ (s : State) (g q : Nat) (c : Coll) (peers : List Peer), s.coll? g q = some c
      ∧ c.outcome = none ∧ (∀ p ∈ peers, p.failed = false) ∧ (∀ i, i < c.members.length → c.self s = some i ∨ ∃ p ∈ peers, p.index = i)
      ∧ ∃ p ∈ peers, p.op ≠ c.desc.op)
    ∧ (∃ (s : State) (g q : Nat) (c : Coll) (peers : List Peer), s.coll? g q = some c
      ∧ c.outcome = none ∧ (∀ p ∈ peers, p.failed = false) ∧ (∀ i, i < c.members.length → c.self s = some i ∨ ∃ p ∈ peers, p.index = i)
      ∧ (¬ ∃ p ∈ peers, p.op ≠ c.desc.op ∨ p.type ≠ c.desc.type ∨ p.count ≠ c.desc.count ∨ p.root ≠ c.desc.root)
      ∧ ∃ v, s.gather c peers [] = (v, some (.ok [[0], [9]])) ∧ ∃ w, v.scatter c [[0], [9]] none = .ok w)
    ∧ (∃ (s : State) (g q : Nat) (c : Coll), s.coll? g q = some c ∧ c.outcome = none ∧ ∃ w ∈ c.members, w ∈ s.lostWafers)
    ∧ (∃ (s : State) (va : Nat) (x : Xlat) (h : Nat), s.agenda = [⟨1, .far (.read va x)⟩] ∧ s.place x.pa = .home h
      ∧ s.exists? (x.at va) = true ∧ s.refuses h (x.at va) = false ∧ (s.domain h).regFailed = false
      ∧ s.hostClear h (hdmLines (x.at va) 32) false = true)
    ∧ (∃ (s : State) (i : LineImg) (x : Xlat) (h : Nat), s.agenda = [⟨1, .far (.write i x)⟩] ∧ s.place x.pa = .home h
      ∧ s.exists? (x.at (128 * i.line)) = true ∧ s.refuses h (x.at (128 * i.line)) = false ∧ (s.domain h).regFailed = false
      ∧ s.hostClear h (hdmHalves (x.at (128 * i.line)) i.mask) true = true ∧ x.grain = 128 ∧ (FarOp.write i x).addr = (128 * i.line, x))
    ∧ ∃ (c : CollDesc) (xs : List (List Nat)) (e : Nat), e < c.count ∧ c.op < 3 ∧ xs ≠ [] ∧ ∀ x ∈ xs, x.getD e 0 < 2 ^ 32 :=
  have clean : ∀ d pa x, ¬ DirtyAt { up with mgmt := { up.mgmt with drainRunning := true, drainMode := 1 } } d pa x := fun d pa x h => by
    obtain ⟨-, -, -, e, he, -⟩ := h
    by_cases hd : d = 0
    · subst hd; exact absurd he List.not_mem_nil
    · have : (up.domain d) = Domain.reset := by
        show (Map.find? [(0, _)] d).getD Domain.reset = _
        simp [Map.find?, Ne.symm hd]
      exact absurd (this ▸ he) List.not_mem_nil
  ⟨⟨{ up with parts := [(0, { Partition.reset 0 with save := [(0, (0x400000, 2 ^ 20))] })] }, rfl, rfl, _, List.mem_singleton_self _, by decide, by decide +kernel⟩,
    ⟨{ up with blocks := [] }, ⟨true, Config.tierVersion, 3, 1, 2, [(2 ^ 41 - 1, 7)]⟩, rfl, rfl, rfl, rfl, rfl, by decide⟩,
    ⟨{ up with mgmt := { up.mgmt with drainRunning := true, drainMode := 2 } }, rfl, by decide⟩,
    ⟨{ up with mgmt := { up.mgmt with drainRunning := true, drainMode := 0 } }, rfl, rfl, by decide⟩,
    ⟨{ up with mgmt := { up.mgmt with drainRunning := true, drainMode := 1 } }, rfl, rfl, fun d _ pa x _ h => absurd h (clean d pa x),
      fun d pa x h => absurd h (clean d pa x)⟩,
    ⟨up, 4095, by decide, by decide, by decide, by decide +kernel⟩,
    ⟨{ up with queues := [(65, ⟨9, 0, true, 0, 0, 7, false, 0, 0, false⟩)] }, 65, _, 2 ^ 128, 2 ^ 128, rfl, rfl, reads_of rfl, by decide, reads_of rfl,
      ok_of (by decide +kernel)⟩,
    ⟨{ up with colls := [posted (some 1)] }, 0, 3, 1, _, rfl, rfl⟩,
    ⟨{ up with colls := [posted none] }, 0, 3, _, [⟨1, 3, 1, 1, 0, false, [9]⟩], rfl, rfl, by decide, by decide, by decide⟩,
    ⟨{ up with colls := [posted none] }, 0, 3, _, [⟨1, 3, 2, 1, 0, false, [9]⟩], rfl, rfl, by decide, by decide, by decide, _, rfl,
      ok_of (by decide +kernel)⟩,
    ⟨{ up with colls := [posted none], lostWafers := [1] }, 0, 3, _, rfl, rfl, 1, by decide, by decide⟩,
    ⟨{ up with agenda := [⟨1, .far (.read 64 (page 0x20000 0))⟩] }, 64, _, 0, rfl, rfl, by decide, by decide, rfl, by decide⟩,
    ⟨{ up with agenda := [⟨1, .far (.write img (page 0x20000 0))⟩] }, img, _, 0, rfl, rfl, by decide, by decide, rfl, by decide, rfl, rfl⟩,
    ⟨⟨0, 0, 0, 1, 0, 0, 0, 0, 0, false⟩, [[0x3F800000], [0x40000000]], 0, by decide, by decide, by decide, by decide⟩⟩

/-! ## Every statement's hypotheses can be met: the machine as a whole -/

/-- No lane is active: an HG guard names an empty mask. -/
def idle : Issuer := actsIn reel (split (BitVec.allOnes 32) []) block { Hints.empty with hg := some 1 } State.reset

theorem witness_NoActiveLane : ∃ (i : Instr) (x : Issuer) (s : State), LaneWise x i ∧ x.Stands s ∧ x.active = 0 :=
  ⟨_, idle, _, .int (.iadd ⟨0, 1, 2, 3⟩ (by decide)) (by decide), actsIn_stands _ _ _ _ _, by decide⟩

theorem witness_DecodeEncode : (∃ i : Instr, encode i ≠ 0) ∧ ∃ (w : Word) (i : Instr), decode w = .ok i :=
  ⟨⟨.iadd ⟨0, 127, 127, 127⟩, by decide⟩, 0x04004103, .iadd ⟨0, 1, 2, 3⟩, by decide⟩

/-- A split about to issue the words at its PC, whose line the instruction cache holds. -/
def fetching (p : Split) (line : BitVec 1024) : State :=
  { up with
    reels := [(0, { reel with splits := [(0, p)] })]
    cores := [(0, { up.core 0 with look := [⟨0, 0x10000, 65536, true, true, true⟩], icache := [(0x200, line)] })]
    agenda := [⟨1, .issue 0 0 []⟩] }

/-- A running sequencer about to execute the stream word at its PC, at a level of the limiter. -/
def streaming (w : Word) (level : Nat) : State :=
  { up with
    blocks := [(0, { running 0 none none with started := true })], domains := [(0, { Domain.reset with level := level })]
    cores := [(0, { up.core 0 with icache := [(0x60, w.setWidth 1024)] })], agenda := [⟨1, .stream 0 []⟩] }

/-- The time has come, and the agenda is done. -/
def now (s : State) : State := { s with agenda := [], time := s.time + 1 }

/-- The sequencer of block 0 has fetched a word in `u`. -/
def StreamsWord (s u : State) (b : Block) (w : Word) : Prop :=
  s.agenda = [⟨1, .stream 0 []⟩] ∧ s.blocks.find? 0 = some b ∧ b.seq.mode = .running ∧ SeqWait.retry b.seq.wait = true ∧ (now s).runs 0 b = true
    ∧ (now s).fetchWord b.core b.ctx (SeqWait.deniedOf b.seq.wait) [] b.seq.pc.toNat = (u, .word w)

theorem bubbleOrder_lt {p : Nat} (h : p < 16) : bubbleOrder p < 16 := by
  have : bubbleOrder p < (List.range 16).length := List.length_filter_lt_length_iff_exists.mpr ⟨p, List.mem_range.mpr h, by simp⟩
  simpa using this

theorem streaming_streams (w : Word) (level : Nat)
    (g : ((now (streaming w level)).fetchWord 0 0 [] [] 0x3000) = (now (streaming w level), .word w) := by rfl) :
    StreamsWord (streaming w level) (now (streaming w level)) { running 0 none none with started := true } w :=
  ⟨rfl, rfl, rfl, rfl, rfl, g⟩

/-- Split 0 of reel 0 stands before a turn that it may have. -/
def Turns (s : State) (r : Reel) (p : Split) (b : Block) : Prop :=
  s.agenda = [⟨1, .issue 0 0 []⟩] ∧ s.reels.find? 0 = some r ∧ r.splits.find? 0 = some p ∧ s.blocks.find? r.block = some b ∧ r.yielded = none
    ∧ (now s).mayIssue 0 0 r p b = true

set_option maxRecDepth 8000 in
set_option exponentiation.threshold 1100 in
theorem witness_StepRunsDecoded :
    (∃ (s : State) (core ctx va : Nat) (line : BitVec 1024), (s.core core).permit ctx [] ⟨false, false, true⟩ va = .ok
      ∧ (s.core core).icache.find? (va / 128) = some line)
    ∧ (∃ (s : State) (core ctx va : Nat) (t : Xlat), (s.core core).permit ctx [] ⟨false, false, true⟩ va = .ok
      ∧ (s.core core).icache.find? (va / 128) = none ∧ (s.domain (core / 120)).xlats.find? (va / 65536) = some t ∧ t.ac = false ∧ va % 4 = 0
      ∧ s.exists? (t.pa + va / 128 * 128 % 65536) = true ∧ s.reaches (core / 120) (t.pa + va / 128 * 128 % 65536) = true
      ∧ (s.domain (core / 120)).snoop = []
      ∧ ∀ i, i < 4 → s.place (t.pa + va / 128 * 128 % 65536 + 32 * i) = .home (core / 120)
        ∧ s.sector (core / 120) (va / 128 * 4 + i) = L2Sector.invalid)
    ∧ (∃ (s : State) (key : Nat), ((s.core (key / 32)).issueQ true).order.length ≤ 32 ∧ s.contends true 0 = true)
    ∧ (∃ (r : Reel) (p : Split), r.yielded = none ∧ r.restUntil ≤ 0 ∧ r.splits.find? 0 = some p)
    ∧ (∃ s u b w, StreamsWord s u b w ∧ w.toNat / 2 ^ 26 = 0x31 ∧ u.bubbled (b.core / 120) = true)
    ∧ (∃ s u b w i, StreamsWord s u b w ∧ w.toNat / 2 ^ 26 = 0x31 ∧ u.bubbled (b.core / 120) = false ∧ ¬ (w.toNat / 2 ^ 23 = 0x1F8 ∧ b.seq.hx = none)
      ∧ decode w = .ok i)
    ∧ (∃ s u b w, StreamsWord s u b w ∧ w.toNat / 2 ^ 26 ≠ 0x31 ∧ w.toNat / 2 ^ 23 = 0x1F8 ∧ b.seq.hx = none)
    ∧ (∃ s u b w, StreamsWord s u b w ∧ w.toNat / 2 ^ 26 < 0x30 ∧ w ≠ 0x84A00000)
    ∧ (∃ (s : State) (r : Reel) (p : Split) (b : Block) (bun : Bundle) (i : Instr), Turns s r p b ∧ p.bundle = some bun
      ∧ (∀ load scope, p.wait ≠ some (.acquire load scope)) ∧ decode bun.word = .ok i ∧ ((now s).setReel 0 r).atIssue 0 0 = false)
    ∧ (∃ (s : State) (r : Reel) (p : Split) (b : Block) (bun : Bundle) (i : Instr), Turns s r p b ∧ p.bundle = some bun
      ∧ (∀ load scope, p.wait ≠ some (.acquire load scope)) ∧ decode bun.word = .ok i ∧ ((now s).setReel 0 r).atIssue 0 0 = true
      ∧ ((now s).setReel 0 r).chosen (inVecSlot bun.word) 0 = true)
    ∧ (∃ (s : State) (r : Reel) (p : Split) (b : Block), Turns s r p b ∧ p.wait = none ∧ p.bundle = none
      ∧ ∃ u w i, ((now s).setReel 0 r).fetchWord b.core b.ctx [] [] p.pc.toNat = (u, .word w) ∧ isHint w = false ∧ decode w = .ok i
        ∧ u.chosen (inVecSlot w) 0 = true)
    ∧ ∃ (s : State) (r : Reel) (p : Split) (b : Block), Turns s r p b ∧ p.wait = none ∧ p.bundle = none
      ∧ ∃ ws h n u i, ((now s).setReel 0 r).fetchBundle b.core b.ctx [] [] 4 p.pc [] = (u, ws, none)
        ∧ scanHints (badAddend (ws.getD n 0) (u.vregsOf 0)) ws Hints.empty 0 = .ok h n ∧ n = min (leadingHints ws) 3
        ∧ h.kinds &&& ~~~acceptedHints (ws.getD n 0) = 0 ∧ decode (ws.getD n 0) = .ok i ∧ u.chosen (inVecSlot (ws.getD n 0)) 0 = true :=
  ⟨⟨fetching (split 1 []) 0x04004103, 0, 0, 0x1007C, _, by decide, rfl⟩,
    ⟨up, 0, 0, 0x7C, _, by decide, rfl, rfl, rfl, rfl, by decide, by decide, rfl, by decide⟩,
    ⟨fetching (split 1 []) 0x04004103, 0, by decide, by decide⟩,
    ⟨{ reel with splits := [(0, split 1 [])] }, _, rfl, by decide, rfl⟩,
    ⟨_, _, _, 0xC4000000, streaming_streams 0xC4000000 16, by decide, by
      simpa [State.bubbled] using ⟨by decide, bubbleOrder_lt (Nat.mod_lt _ (by decide))⟩⟩,
    ⟨_, _, _, 0xC4000000, _, streaming_streams 0xC4000000 0, by decide, by decide, by decide, rfl⟩,
    ⟨_, _, _, 0xFC000005, streaming_streams 0xFC000005 16, by decide, by decide, rfl⟩,
    ⟨_, _, _, 0x04004103, streaming_streams 0x04004103 16, by decide, by decide⟩,
    ⟨fetching { split 1 [] with bundle := some (bundle 0x04004103 Hints.empty) } 0, _, _, _, _, .iadd ⟨0, 1, 2, 3⟩, ⟨rfl, rfl, rfl, rfl, rfl, by decide⟩, rfl,
      nofun, by decide, by decide⟩,
    ⟨fetching { split 1 [] with bundle := some (bundle 0x04004103 Hints.empty), wait := some .issue } 0, _, _, _, _, .iadd ⟨0, 1, 2, 3⟩,
      ⟨rfl, rfl, rfl, rfl, rfl, by decide⟩, rfl, nofun, by decide, by decide, by decide⟩,
    ⟨fetching (split 1 []) 0x04004103, _, _, _, ⟨rfl, rfl, rfl, rfl, rfl, by decide⟩, rfl, rfl, _, 0x04004103, .iadd ⟨0, 1, 2, 3⟩, rfl, by decide, by decide,
      by decide⟩,
    ⟨fetching (split 1 []) (0x04004103 * 2 ^ 32 + 0xFD000001), _, _, _, ⟨rfl, rfl, rfl, rfl, rfl, by decide⟩, rfl, rfl,
      [0xFD000001, 0x04004103], _, 1, _, .iadd ⟨0, 1, 2, 3⟩, rfl, rfl, by decide, by decide, by decide, by decide⟩⟩

theorem witness_StepKeepsMemory : ∃ s t : State, s.memOk ∧ step s = .next t := by
  refine ⟨{ up with agenda := [⟨1, .evictL1 0 0⟩] }, _, (by decide : Memory.wf [(0x20010, 1)]), rfl⟩

theorem witness_InstructionsLeaveMemory : (∃ (i : Instr) (s t : State) (a : Nat), s.scur = none ∧ encode i ≠ 0 ∧ (encode i).toNat < 0x30 * 2 ^ 26
      ∧ exec i s = .next t ∧ ¬ InImage s a)
    ∧ ∃ (w : Word) (s t : State) (a : Nat), s.scur = none ∧ exec (.illegalWord w) s = .next t ∧ ¬ InImage s a :=
  ⟨⟨.uadd ⟨63, 1, 2⟩, plain.s, _, 0, rfl, by decide, by decide, rfl, fun ⟨_, h, _⟩ => nomatch h⟩,
    ⟨0, plain.s, _, 0, rfl, rfl, fun ⟨_, h, _⟩ => nomatch h⟩⟩

/-! ## Single steps: results worked out by hand from the rules named -/

/-- Two values, in lane 0, of v1 and v2, and of S1 and S2, with the low half of k1. -/
def two (a b : Word) : Issuer :=
  actsIn { reel with v := [(32, a), (64, b)], s := [(1, a), (2, b)], k := [(1, 0xFFFF)] } (split (BitVec.allOnes 32) []) block Hints.empty State.reset

/-- What an instruction leaves of the reel. -/
def after1 {α : Type} (i : Instr) (x : Issuer) (g : Reel → α) : Option α :=
  match exec i x.s with
  | .next t => (t.reels.find? 0).map g
  | _ => none

/-- 05 R105: sums wrap. -/
theorem test_iadd_wraps : after1 (.iadd ⟨0, 3, 1, 2⟩) (two 0xFFFFFFFF 2) (fun r => r.vget 3 0) = some 1 := by decide +kernel
/-- 05: 0x80000000 · 2 as unsigned is 2^32. -/
theorem test_imulWideZ : after1 (.imulWideZ ⟨0, 4, 1, 2⟩) (two 0x80000000 2) (fun r => (r.vget 4 0, r.vget 5 0)) = some (0, 1) := by decide +kernel
/-- 05: an arithmetic shift copies the sign. -/
theorem test_sari : after1 (.sari ⟨3, 1, 31⟩) (two 0x80000000 0) (fun r => r.vget 3 0) = some 0xFFFFFFFF := by decide +kernel
/-- 03 R62: 1.5 + 2.25 is 3.75. -/
theorem test_fadd : after1 (.faddF32 ⟨0, 3, 1, 2⟩) (two 0x3FC00000 0x40100000) (fun r => r.vget 3 0) = some 0x40700000 := by decide +kernel
/-- 03 R67: ∞ − ∞ is the canonical NaN and raises invalid, bit 0 of the flags. -/
theorem test_fsub_infinities :
    after1 (.fsubF32 ⟨0, 3, 1, 2⟩) (two 0x7F800000 0x7F800000) (fun r => (r.vget 3 0, r.flagsOf 0)) = some (0x7FC00000, 1) := by decide +kernel
/-- 06: 2.5 to a signed integer under nearest even is 2, inexact (bit 4). -/
theorem test_cvt_ties : after1 (.cvtI32 ⟨3, 1, 1, 4⟩) (two 0x40200000 0) (fun r => (r.vget 3 0, r.flagsOf 0)) = some (2, 16) := by decide +kernel
/-- 05 R113: 1.0 < 2.0, the other lanes compare 0 with 0. -/
theorem test_cmp_less : after1 (.cmp ⟨2, 2, 2, 0, 0, 1, 2⟩) (two 0x3F800000 0x40000000) (fun r => r.kget (BitVec.allOnes 32) 2) = some 1 := by decide +kernel
/-- 05: every lane reads lane 0 of v1. -/
theorem test_shfl_idx : after1 (.shflIdx ⟨3, 1, 2⟩) (two 7 0) (fun r => r.vget 3 31) = some 7 := by decide +kernel
/-- 05: ballot of a register that is not 0 in lane 0 alone. -/
theorem test_ballot : after1 (.ballot ⟨3, 1⟩) (two 7 0) (fun r => r.kget (BitVec.allOnes 32) 3) = some 1 := by decide +kernel
/-- 04: uniform sums wrap, and S0 stays 0. -/
theorem test_uadd : after1 (.uadd ⟨3, 1, 2⟩) (two 0xFFFFFFFF 2) (fun r => r.sget 3) = some 1 := by decide +kernel
/-- S0 discards what is written. -/
theorem test_uadd_to_zero : after1 (.uadd ⟨0, 1, 2⟩) (two 1 2) (fun r => r.sget 0) = some 0 := by decide +kernel
/-- 04 R81: the lanes `bra.div` takes go on at the target in a second split, the rest after the branch. -/
theorem test_bra_div : after1 (.braDiv ⟨1, 4⟩) (two 0 0) (fun r => ((r.splits.find? 0).map fun p => (p.pc, p.lanes), (r.splits.find? 1).map fun p => (p.pc, p.lanes)))
    = some (some (0x10004, 0xFFFF0000), some (0x10010, 0xFFFF)) := by decide +kernel
/-- 04 R91, R94: a trap saves the address, the lanes and the kind, and goes to the handler. -/
theorem test_trap : after1 (.trap ⟨3⟩) (two 0 0) (fun r => (r.xpc, r.xmask, r.handler, (r.splits.find? 0).map Split.pc))
    = some (0x10000, 0xFFFFFFFF, true, some 0x2000) := by decide +kernel
/-- 09 R184: atomics on scratchpad perform their lanes one after the other: 32 lanes add v2's lane, of which one is 5. -/
theorem test_atoms_add : (match exec (.atomsAdd ⟨0, 0, 0, 2, 4⟩) (two 0 5).s with
    | .next t => (t.blocks.find? 0).map fun b => Memory.readNat b.spad 0 4
    | _ => none) = some 5 := by decide +kernel
/-- Log entry 20: the first step of a placed word executes it. -/
theorem test_first_step : (match step (State.reset.withFetchWord 32 0x0F890078) with
    | .next t => (t.reels.find? 0).map fun r => (r.vget 9 31, (r.splits.find? 0).map Split.pc)
    | _ => none) = some (0x78, some (BitVec.ofNat 55 (placedAt + 4))) := by decide +kernel
/-- 02 R30: a void word traps with kind 0 and leaves its word in `xinst`. -/
theorem test_void_word : (match step (State.reset.withFetchWord 32 0) with
    | .next t => (t.reels.find? 0).map fun r => r.xinst
    | _ => none) = some 0 := by decide +kernel

end Sys2Proof.Tests
end

section
/-! SUPPORT. Floating-point rows as vector instructions, and the arithmetic trap (02 R40, 04 R92 to R94, 06 R121 to R131). -/

namespace Sys2Proof.Machine

/-! ## `xkind` of an arithmetic trap: cause 1, and the exceptions from bit 8 on (04 R93) -/

theorem excInfo_cause (e : Flags) : (excInfo e ||| 1).setWidth 8 = (1 : BitVec 8) := by
  revert e; decide

theorem excInfo_high (e : Flags) : (excInfo e ||| 1) >>> 13 = 0 := by
  revert e; decide

theorem getLsbD_excInfo (e : Flags) (b : Nat) (hb : b < 5) : (excInfo e ||| 1).getLsbD (8 + b) = e.getLsbD b := by
  have small : 8 + b < 32 := by omega
  simp [excInfo, small]

theorem getLsbD_foldl_or_zero {w : Nat} (ls : List Nat) (g : Nat → BitVec w) (b : Nat) :
    (ls.foldl (fun a l => a ||| g l) 0).getLsbD b = true ↔ ∃ l ∈ ls, (g l).getLsbD b = true := by
  simp [getLsbD_foldl_or]

end Sys2Proof.Machine

namespace Sys2Proof.Rows

open Sys2Proof Sys2Proof.Machine

variable {x : Issuer} {s : State}

/-! ## What each family of floating-point words answers where its word is legal -/

theorem Addend.withAddend {c : CSrc} (h : Addend x c) (k : CSrc → Out) : x.withAddend k = k c := by
  unfold Issuer.withAddend
  cases h with
  | dest hx => rw [hx]
  | vec p hx hp hv =>
    rw [hx]
    exact if_neg (not_or.2 ⟨not_not.2 hp, Nat.not_le.2 hv⟩)

theorem fp2_vector (hs : x.Stands s) (wide : Bool) (g : FpFn) (f : V3) (hf : f.ok wide wide wide = true) :
    fp2 wide g f s = x.vector (ops3 f wide wide wide .none) (fpLane (if wide then .f64 else .f32) x.rm x.fz g) := by
  unfold fp2
  rw [hs.with, if_pos hf]
  rfl

theorem fp3_vector (hs : x.Stands s) (wide : Bool) (g : FpFn) (f : V3) {c : CSrc} (hf : f.ok wide wide wide = true) (hc : Addend x c) :
    fp3 wide g f s = x.vector (ops3 f wide wide wide c) (fpLane (if wide then .f64 else .f32) x.rm x.fz g) := by
  unfold fp3
  rw [hs.with, hc.withAddend, if_pos hf]
  rfl

theorem fp1_vector (hs : x.Stands s) (wide : Bool) (g : FpFn) (f : V2) (hf : f.ok wide wide = true) :
    fp1 wide g f s = x.vector (ops2 f wide wide) (fpLane (if wide then .f64 else .f32) x.rm x.fz g) := by
  unfold fp1
  rw [hs.with, if_pos hf]
  rfl

theorem half2_vector (hs : x.Stands s) (fmt : Fmt) (g : FpFn) (f : V3) (hf : f.ok false false false = true) :
    half2 fmt g f s = x.vector (ops3 f false false false .none) (packedLane fmt x.rm x.fz g) := by
  unfold half2
  rw [hs.with, if_pos hf]
  rfl

theorem half3_vector (hs : x.Stands s) (fmt : Fmt) (g : FpFn) (f : V3) {c : CSrc} (hf : f.ok false false false = true) (hc : Addend x c) :
    half3 fmt g f s = x.vector (ops3 f false false false c) (packedLane fmt x.rm x.fz g) := by
  unfold half3
  rw [hs.with, hc.withAddend, if_pos hf]
  rfl

/-- A conversion does not name two roundings: the word's is the environment's, or HT names none (02 R35). -/
theorem cvtTo_vector (hs : x.Stands s) (dst : Nat) (f : CvtOp) (hf : CvtUse x dst f) :
    cvtTo dst f s = x.vector (opsCvt dst f) (cvtLane x dst f) := by
  unfold cvtTo
  rw [hs.with]
  refine if_neg ?_
  rcases hf.once with h | h
  · simp [hf.ok, h]
  · cases ht : x.cur.bundle.hints.ht with
    | none => simp [hf.ok]
    | some p => simp [hf.ok, h p ht]

/-- Every floating-point row executes as the vector instruction of its operands and its lane function. -/
theorem FpRow.exec_vector {i : Instr} {o : VOperands} {f : LaneFn} (h : FpRow x i o f) (hs : x.Stands s) : exec i s = x.vector o f := by
  cases h with
  | faddF32 f h | fsubF32 f h | fmulF32 f h | fminF32 f h | fmaxF32 f h | fcsgnF32 f h | fdivF32 f h => exact fp2_vector hs false _ f h
  | faddF64 f h | fsubF64 f h | fmulF64 f h | fminF64 f h | fmaxF64 f h | fcsgnF64 f h | fdivF64 f h => exact fp2_vector hs true _ f h
  | ffmaF32 f c h hc | ffmsF32 f c h hc | fnmaF32 f c h hc => exact fp3_vector hs false _ f h hc
  | ffmaF64 f c h hc | ffmsF64 f c h hc | fnmaF64 f c h hc => exact fp3_vector hs true _ f h hc
  | fabsF32 f h | fnegF32 f h | frcpF32 f h | frsqF32 f h | fsqrtF32 f h | fexp2F32 f h | flog2F32 f h | ffloorF32 f h | fceilF32 f h
  | ftruncF32 f h | frintF32 f h | fclassF32 f h => exact fp1_vector hs false _ f h
  | fabsF64 f h | fnegF64 f h | fsqrtF64 f h | frcpF64 f h => exact fp1_vector hs true _ f h
  | haddF16 f h | hmulF16 f h | hminF16 f h | hmaxF16 f h => exact half2_vector hs .f16 _ f h
  | haddBf16 f h | hmulBf16 f h | hminBf16 f h | hmaxBf16 f h => exact half2_vector hs .bf16 _ f h
  | hfmaF16 f c h hc => exact half3_vector hs .f16 _ f h hc
  | hfmaBf16 f c h hc => exact half3_vector hs .bf16 _ f h hc
  | cvtI32 f h | cvtZ32 f h | cvtI64 f h | cvtZ64 f h | cvtF32 f h | cvtF64 f h | cvtF16 f h | cvtBf16 f h | cvtE4m3 f h | cvtE5m2 f h
  | cvtI8 f h | cvtZ8 f h | cvtI16 f h | cvtZ16 f h => exact cvtTo_vector hs _ f h

/-! ## The trap -/

/-- Settles O3: a floating-point row is a vector instruction, whose trap reports the lanes of `excLanes` and writes all others. -/
theorem arithmeticTrap : Obligations.ArithmeticTrap := by
  intro i x o f s l₀ hrow hs hr hv hl₀ hraised
  rw [hrow.exec_vector hs]
  obtain ⟨t, ht, hi⟩ := x.vector_traps o f hr hv l₀ hl₀ hraised
  set en := enables x.reel x.cur.bundle.hints.ht
  have trapped : ∀ l, l ∈ o.excLanes f x.reel x.cur.bundle.hints.extent en (laneList x.active) ↔ x.lane l ∧ x.raised o f l &&& en ≠ 0 :=
    fun l => (o.mem_excLanes f _ x.reel en _ l).trans (and_congr_left' (mem_laneList x.active l))
  have lanes := x.write_lanes o f en x.s.nextId
  refine ⟨t, _, _, _, ht, hi, rfl, fun l hl => (getLsbD_maskOf _ l hl).trans (trapped l), excInfo_cause _, excInfo_high _, fun b hb => ?_,
    ⟨lanes.written, lanes.kept, lanes.flags, lanes.flagsKept⟩⟩
  rw [getLsbD_excInfo _ b hb, getLsbD_foldl_or_zero]
  constructor
  · rintro ⟨l, hl, hbit⟩
    exact ⟨l, ((trapped l).1 hl).1, hbit⟩
  · rintro ⟨l, hl, hbit⟩
    have raises : x.raised o f l &&& en ≠ 0 := fun h0 => by simp [h0] at hbit
    exact ⟨l, (trapped l).2 ⟨hl, raises⟩, hbit⟩

end Sys2Proof.Rows
end

section
/-! SUPPORT. Lane-wise instructions without an active lane (02 R37): each family retires, but for a full/empty access that has already issued. -/

namespace Sys2Proof.Machine

open Sys2Proof.Rows

variable {x : Issuer} {s : State}

/-! ## Legal registers -/

theorem isEven_iff {n : Nat} (b : BitVec n) : isEven b = true ↔ b.toNat % 2 = 0 := by
  simp [isEven, BitVec.getLsbD, Nat.testBit_zero]

theorem isQuad_iff {n : Nat} (b : BitVec n) : isQuad b = true ↔ b.toNat % 4 = 0 := by
  simp only [isQuad, BitVec.getLsbD, Nat.testBit_zero, Nat.testBit_succ, Bool.and_eq_true, Bool.not_eq_true', decide_eq_false_iff_not]
  omega

theorem mRegsOk_of_legal {f : MOp} {n : Nat} (h : MLegal x f n) : x.mRegsOk f n = true := by
  obtain ⟨hvt, h8, h16, hsc, hvo⟩ := h
  have even : n < 8 ∨ isEven f.vt = true := (Nat.lt_or_ge n 8).imp_right fun h => (isEven_iff _).2 (h8 h)
  have quad : n < 16 ∨ isQuad f.vt = true := (Nat.lt_or_ge n 16).imp_right fun h => (isQuad_iff _).2 (h16 h)
  have scale : f.vo ≠ 127 ∨ f.sc = 0 := by tauto
  have offset : f.vo = 127 ∨ f.vo.toNat < x.block.desc.vregs := by tauto
  simpa [Issuer.mRegsOk, MOp.ok, wordsOf, hvt] using ⟨⟨⟨scale, even⟩, quad⟩, offset⟩

theorem atomRegs_eq (op : AtomKind) (wide : Bool) : atomRegs op wide = atomWidth op wide := by
  cases op <;> cases wide <;> rfl

/-! ## Each family, with no active lane -/

theorem vector_idle (ha : x.active = 0) (o : VOperands) (f : LaneFn)
    (ho : o.ok x.cur.bundle.hints.extent x.cur.bundle.hints.hb.isSome x.block.desc.vregs = true) :
    x.vector o f = .next (x.into (x.advanced x.nextPc)) := by
  simp [Issuer.vector, ho, ha, x.retire_advanced]

theorem writeLanes_idle (ha : x.active = 0) (vd : Nat) (g : Nat → Word) : x.writeLanes vd g = .next (x.into (x.advanced x.nextPc)) := by
  simp [Issuer.writeLanes, ha, x.retire_advanced]

section
variable (hs : x.Stands s) (ha : x.active = 0)
include hs ha

theorem vec3_idle (f : V3) (wd wa wb : Bool) (c : CSrc) (g : LaneFn) (hf : f.ok wd wa wb = true)
    (ho : (ops3 f wd wa wb c).ok x.cur.bundle.hints.extent x.cur.bundle.hints.hb.isSome x.block.desc.vregs = true) :
    vec3 f wd wa wb c g s = .next (x.into (x.advanced x.nextPc)) := by
  unfold vec3
  rw [hs.with, if_pos hf]
  exact vector_idle ha _ g ho

theorem vec2_idle (f : V2) (wd wa : Bool) (g : LaneFn) (hf : f.ok wd wa = true)
    (ho : (ops2 f wd wa).ok x.cur.bundle.hints.extent x.cur.bundle.hints.hb.isSome x.block.desc.vregs = true) :
    vec2 f wd wa g s = .next (x.into (x.advanced x.nextPc)) := by
  unfold vec2
  rw [hs.with, if_pos hf]
  exact vector_idle ha _ g ho

/-- Whether the operands of an immediate word are legal does not depend on the immediate. -/
theorem intImm_idle (useA : Bool) (vd va : BitVec 7) (imm : Hints → Word) (g : Word → Word → Word) (n : Nat)
    (ho : (opsI vd va useA n).ok x.cur.bundle.hints.extent x.cur.bundle.hints.hb.isSome x.block.desc.vregs = true) :
    intImm useA vd va imm g s = .next (x.into (x.advanced x.nextPc)) := by
  unfold intImm
  rw [hs.with]
  exact vector_idle ha _ (fn32 g) ho

theorem cmp_idle (f : CmpOp) (hf : f.ok = true) (hva : vregOk x.block.desc.vregs (f.type == 3) f.va.toNat = true)
    (hvb : if f.sb = 1 then f.type = 3 → f.vb.toNat % 2 = 0 else vregOk x.block.desc.vregs (f.type == 3) f.vb.toNat = true) :
    execCmp f s = .next (x.into (x.advanced x.nextPc)) := by
  have hb : (if f.sb = 1 then !(f.type == 3) || isEven f.vb else vregOk x.block.desc.vregs (f.type == 3) f.vb.toNat) = true := by
    split at hvb
    next uniform =>
      rw [if_pos uniform]
      by_cases h3 : f.type = 3
      · simp [(isEven_iff _).2 (hvb h3)]
      · rw [beq_false_of_ne h3]; rfl
    next vector => rwa [if_neg vector]
  unfold execCmp
  rw [hs.with]
  dsimp only
  rw [hf, hva, hb]
  simp [ha, x.retire_advanced]

theorem shuffle_idle (src : Nat → Nat → Option Nat) (f : L3) (hf : legalL3 x f) :
    shuffle src f s = .next (x.into (x.advanced x.nextPc)) := by
  obtain ⟨hvd, hva, hvb⟩ := hf
  unfold shuffle
  rw [hs.with]
  simp [vregOk, hvd, hva, hvb, writeLanes_idle ha]

theorem kprefix_idle (f : KPre) (hf : f.vd.toNat < x.block.desc.vregs) : execKprefix f s = .next (x.into (x.advanced x.nextPc)) := by
  unfold execKprefix
  rw [hs.with]
  simp [vregOk, hf, writeLanes_idle ha]

theorem vgetx_idle (f : VS) (hf : f.vd.toNat < x.block.desc.vregs) : execVgetx f s = .next (x.into (x.advanced x.nextPc)) := by
  unfold execVgetx
  rw [hs.with]
  simp [vregOk, hf, ha, writeLanes_idle ha]

theorem vsetx_idle (f : SV) (hf : f.va.toNat < x.block.desc.vregs) : execVsetx f s = .next (x.into (x.advanced x.nextPc)) := by
  unfold execVsetx
  rw [hs.with]
  simp [vregOk, hf, ha, writeLanes_idle ha]

theorem ballot_idle (f : Ballot) (hf : f.va.toNat < x.block.desc.vregs) : execBallot f s = .next (x.into (x.advanced x.nextPc)) := by
  unfold execBallot
  rw [hs.with]
  simp [vregOk, hf, ha, x.retire_advanced]

theorem laneRead_idle (sd : BitVec 6) (va : BitVec 7) (lane : Reel → Nat) (hva : va.toNat < x.block.desc.vregs) :
    laneRead sd va lane s = .next (x.into (x.advanced x.nextPc)) := by
  unfold laneRead
  rw [hs.with]
  simp [vregOk, hva, ha, x.retire_advanced]

theorem loadGlobal_idle (n : Nat) (sx : Bool) (f : MOp) (hf : MLegal x f n) : loadGlobal n sx f s = .next (x.into (x.advanced x.nextPc)) := by
  unfold loadGlobal
  rw [hs.with]
  simp [mRegsOk_of_legal hf, ha, x.retire_advanced]

theorem loadUniform_idle (n : Nat) (f : LdU) (hf : n = 8 → isEven f.sd = true) : loadUniform n f s = .next (x.into (x.advanced x.nextPc)) := by
  unfold loadUniform
  rw [hs.with, if_neg fun h => by simp [hf h.1] at h, if_pos ha, x.retire_advanced]

theorem storeGlobal_idle (n : Nat) (f : MOp) (hf : MLegal x f n) : storeGlobal n f s = .next (x.into (x.advanced x.nextPc)) := by
  unfold storeGlobal
  rw [hs.with]
  simp [mRegsOk_of_legal hf, ha, x.retire_advanced]

theorem atomGlobal_idle (op : AtomKind) (ord scope : Nat) (wide ret : Bool) (vd va : Nat)
    (hvd : vd + atomWidth op wide ≤ x.block.desc.vregs) (hva : va + 2 ≤ x.block.desc.vregs) :
    atomGlobal op true ord scope wide ret vd va s = .next (x.into (x.advanced x.nextPc)) := by
  unfold atomGlobal
  rw [hs.with]
  simp [atomRegs_eq, hvd, hva, ha, x.retire_advanced]

theorem atomG_idle (op : AtomKind) (f : AOp) (hf : f.ok (op = .cas) = true) (hvd : f.vd.toNat + atomWidth op (f.w == 1) ≤ x.block.desc.vregs)
    (hva : f.va.toNat + 2 ≤ x.block.desc.vregs) : atomG op f s = .next (x.into (x.advanced x.nextPc)) := by
  unfold atomG
  rw [hf]
  exact atomGlobal_idle hs ha op _ _ _ _ _ _ hvd hva

theorem atomS_idle (op : AtomKind) (f : AOpS) (hf : f.ok (op = .cas) = true) (hvd : f.vd.toNat + atomWidth op (f.w == 1) ≤ x.block.desc.vregs)
    (hva : f.va.toNat < x.block.desc.vregs) : atomS op f s = .next (x.into (x.advanced x.nextPc)) := by
  unfold atomS
  rw [hs.with]
  dsimp only
  rw [atomRegs_eq, hf, decide_eq_true hvd, decide_eq_true hva]
  simp [ha, x.retire_advanced]

/-- The only family that asks what its split waits for before it looks at the lanes. -/
theorem spadAccess_idle (load : Bool) (mode n : Nat) (f : MOp) (hf : MLegal x f n)
    (hw : ∀ a since spent, x.split.wait ≠ some (.fullEmpty a since spent)) :
    spadAccess load mode n f s = .next (x.into (x.advanced x.nextPc)) := by
  unfold spadAccess
  rw [hs.with]
  split
  next a since spent waits => exact absurd waits (hw a since spent)
  next => simp [mRegsOk_of_legal hf, ha, x.retire_advanced]

theorem remoteAccess_idle (cls mode n : Nat) (f : MOp) (hf : MLegal x f n) :
    remoteAccess cls mode n f s = .next (x.into (x.advanced x.nextPc)) := by
  unfold remoteAccess
  rw [hs.with]
  simp [mRegsOk_of_legal hf, ha, x.retire_advanced]

omit hs in
theorem tileAccess_idle (f : AccOp) (get : Bool) (t : AcTile) (ht : OwnTile x f.ac.toNat t) (hvd : tileReg x t f.vd.toNat) (hw : NoWide x) :
    x.tileAccess f get = .next (x.into (x.advanced x.nextPc)) := by
  obtain ⟨hfind, howner, hfmt, hbad, hpair⟩ := ht
  have tile : (x.s.core x.coreId).tileFor x.reel.block f.ac.toNat = some t := by
    simp only [Core.tileFor, hfind]
    exact if_pos ⟨howner, hfmt, hbad, hpair⟩
  have reg : vregOk x.block.desc.vregs (t.fmt == 2) f.vd.toNat = true := by
    unfold tileReg at hvd
    by_cases h2 : t.fmt = 2 <;> simpa [vregOk, h2] using hvd
  have narrow : x.cur.bundle.hints.noWide = true := by
    rcases hw with h | h <;> simp [Hints.noWide, h]
  simp [Issuer.tileAccess, tile, reg, narrow, ha, x.retire_advanced]

end

end Sys2Proof.Machine

namespace Sys2Proof.Rows

open Sys2Proof Sys2Proof.Machine

variable {x : Issuer} {s : State}

theorem IntRow.idle {i : Instr} {o : VOperands} {g : Exact} (h : IntRow x i o g) (hs : x.Stands s) (ha : x.active = 0)
    (ho : o.ok x.cur.bundle.hints.extent x.cur.bundle.hints.hb.isSome x.block.desc.vregs = true) :
    exec i s = .next (x.into (x.advanced x.nextPc)) := by
  cases h with
  | iadd f h | isub f h | imul f h | imulhI f h | imulhZ f h | iminI f h | imaxI f h | iminZ f h | imaxZ f h | iaddSatI f h | isubSatI f h
  | iadd64 f h | isub64 f h | imulWideI f h | imulWideZ f h | and f h | or f h | xor f h | andn f h | shl f h | shr f h | sar f h | rotl f h
  | shl64 f h | shr64 f h | bfxZ f h | bfxI f h | bfi f h => exact vec3_idle hs ha f _ _ _ _ _ h ho
  | iabs f | popc f | clz f | brev f | mov f => exact vec2_idle hs ha f false false _ rfl ho
  | iaddi f => exact (exec_iaddi s f).trans (intImm_idle hs ha true f.vd f.va _ _ _ ho)
  | andi f => exact (exec_andi s f).trans (intImm_idle hs ha true f.vd f.va _ _ _ ho)
  | ori f => exact (exec_ori s f).trans (intImm_idle hs ha true f.vd f.va _ _ _ ho)
  | xori f => exact (exec_xori s f).trans (intImm_idle hs ha true f.vd f.va _ _ _ ho)
  | shli f => exact (exec_shli s f).trans (intImm_idle hs ha true f.vd f.va _ _ _ ho)
  | shri f => exact (exec_shri s f).trans (intImm_idle hs ha true f.vd f.va _ _ _ ho)
  | sari f => exact (exec_sari s f).trans (intImm_idle hs ha true f.vd f.va _ _ _ ho)
  | movi f => exact (exec_movi s f).trans (intImm_idle hs ha false f.vd 0 _ _ _ ho)
  | sel f =>
    rw [exec_sel, execSel, hs.with]
    exact vector_idle ha _ _ ho

theorem LaneRow.idle {i : Instr} {vd : Nat} {g : Nat → Word} (h : LaneRow x i vd g) (hs : x.Stands s) (ha : x.active = 0) :
    exec i s = .next (x.into (x.advanced x.nextPc)) := by
  cases h with
  | shflIdx f h => exact (exec_shflIdx s f).trans (shuffle_idle hs ha _ f h)
  | shflUp f h => exact (exec_shflUp s f).trans (shuffle_idle hs ha _ f h)
  | shflDown f h => exact (exec_shflDown s f).trans (shuffle_idle hs ha _ f h)
  | shflXor f h => exact (exec_shflXor s f).trans (shuffle_idle hs ha _ f h)
  | kprefix f h => exact kprefix_idle hs ha f h
  | vgetx f h => exact vgetx_idle hs ha f h
  | vsetx f h => exact vsetx_idle hs ha f h

theorem LoadRow.idle {i : Instr} {dst : LoadDst} {accs : List (Nat × Nat)} (h : LoadRow x i dst accs) (hs : x.Stands s) (ha : x.active = 0) :
    exec i s = .next (x.into (x.advanced x.nextPc)) := by
  cases h with
  | ldgZ8 f h | ldgI8 f h | ldgZ16 f h | ldgI16 f h | ldgB32 f h | ldgB64 f h | ldgB128 f h => exact loadGlobal_idle hs ha _ _ f h
  | lduB32 f => exact loadUniform_idle hs ha 4 f nofun
  | lduB64 f h => exact loadUniform_idle hs ha 8 f fun _ => (isEven_iff _).2 h

theorem StoreRow.idle {i : Instr} {f : MOp} {n : Nat} (h : StoreRow x i f n) (hs : x.Stands s) (ha : x.active = 0) :
    exec i s = .next (x.into (x.advanced x.nextPc)) := by
  cases h with
  | stgB8 _ h | stgB16 _ h | stgB32 _ h | stgB64 _ h | stgB128 _ h => exact storeGlobal_idle hs ha _ f h

theorem AtomicRow.idle {i : Instr} {op : AtomKind} {wide ret : Bool} {ord scope vd va : Nat} (h : AtomicRow x i op wide ret ord scope vd va)
    (hs : x.Stands s) (ha : x.active = 0) (hvd : vd + atomWidth op wide ≤ x.block.desc.vregs) (hva : va + 2 ≤ x.block.desc.vregs) :
    exec i s = .next (x.into (x.advanced x.nextPc)) := by
  cases h with
  | add f h | fadd f h | minI f h | maxI f h | minZ f h | maxZ f h | and f h | or f h | xor f h | exch f h | cas f h =>
    exact atomG_idle hs ha _ f h hvd hva
  | ld f h => rw [exec_atomgLd, execAtomgLd, h]; exact atomGlobal_idle hs ha .ld _ _ _ _ _ _ hvd hva
  | st f h => rw [exec_atomgSt, execAtomgSt, h]; exact atomGlobal_idle hs ha .st _ _ _ _ _ _ hvd hva
  | xadd f h => rw [exec_atomgXadd, execAtomgXadd, h]; exact atomGlobal_idle hs ha .xadd _ _ _ _ _ _ hvd hva

theorem SpadRow.idle {i : Instr} {f : MOp} {load : Bool} {mode n : Nat} (h : SpadRow x i f load mode n) (hs : x.Stands s) (ha : x.active = 0)
    (hw : ∀ a since spent, x.split.wait ≠ some (.fullEmpty a since spent)) : exec i s = .next (x.into (x.advanced x.nextPc)) := by
  cases h with
  | ldsZ16 _ h | ldsB32 _ h | ldsB32Wfull _ h | ldsB32Take _ h | ldsB64 _ h | ldsB64Wfull _ h | ldsB64Take _ h | ldsB128 _ h
  | ldsB128Wfull _ h | ldsB128Take _ h | stsB16 _ h | stsB32 _ h | stsB32Put _ h | stsB32Fill _ h | stsB32Drain _ h | stsB64 _ h
  | stsB64Put _ h | stsB64Fill _ h | stsB64Drain _ h | stsB128 _ h | stsB128Put _ h | stsB128Fill _ h | stsB128Drain _ h =>
    exact spadAccess_idle hs ha _ _ _ f h hw

theorem BankRow.idle {i : Instr} {op : AtomKind} {f : AOpS} (h : BankRow i op f) (hs : x.Stands s) (ha : x.active = 0)
    (hvd : f.vd.toNat + atomWidth op (f.w == 1) ≤ x.block.desc.vregs) (hva : f.va.toNat < x.block.desc.vregs) :
    exec i s = .next (x.into (x.advanced x.nextPc)) := by
  cases h with
  | add _ h | fadd _ h | minI _ h | maxI _ h | minZ _ h | maxZ _ h | and _ h | or _ h | xor _ h | exch _ h | cas _ h =>
    exact atomS_idle hs ha _ f h hvd hva

theorem RemoteRow.idle {i : Instr} {f : MOp} {cls mode n : Nat} (h : RemoteRow x i f cls mode n) (hs : x.Stands s) (ha : x.active = 0) :
    exec i s = .next (x.into (x.advanced x.nextPc)) := by
  cases h with
  | rlds _ h | rldsWfull _ h | rldsTake _ h | rsts _ h | rstsPut _ h | rstsFill _ h | rstsDrain _ h | ratomAdd _ h | ratomExch _ h
  | ratomCas _ h | ratomOr _ h => exact remoteAccess_idle hs ha _ _ _ f h

/-- 02 R37 where it holds: without an active lane a lane-wise instruction in a legal form retires and changes nothing, at a split that does not
already wait in a full/empty access. -/
theorem LaneWise.idle {i : Instr} (h : LaneWise x i) (hs : x.Stands s) (ha : x.active = 0)
    (hw : ∀ a since spent, x.split.wait ≠ some (.fullEmpty a since spent)) : exec i s = .next (x.into (x.advanced x.nextPc)) := by
  cases h with
  | int h ho => exact h.idle hs ha ho
  | fp h ho => rw [h.exec_vector hs]; exact vector_idle ha _ _ ho
  | cmp f hf hva hvb => exact cmp_idle hs ha f hf hva hvb
  | lane h => exact h.idle hs ha
  | ballot f h => exact ballot_idle hs ha f h
  | lrd f h => exact (exec_lrd s f).trans (laneRead_idle hs ha f.sd f.va _ h)
  | lrdS f h => exact (exec_lrdS s f).trans (laneRead_idle hs ha f.sd f.va _ h)
  | load h => exact h.idle hs ha
  | store h => exact h.idle hs ha
  | atomic h hvd hva => exact h.idle hs ha hvd hva
  | spad h => exact h.idle hs ha hw
  | bank h hvd hva => exact h.idle hs ha hvd hva
  | remote h => exact h.idle hs ha
  | accget f t ht hvd hn => rw [exec_accget, execAccget, hs.with]; exact tileAccess_idle ha f true t ht hvd hn
  | accput f t ht hvd hn => rw [exec_accput, execAccput, hs.with]; exact tileAccess_idle ha f false t ht hvd hn

end Sys2Proof.Rows
end

section
/-! SUPPORT. A lane-wise instruction that does not retire without an active lane (02 R37): the split that waits in a full/empty access it has already issued. -/

namespace Sys2Proof.Machine

variable {x : Issuer} {s : State}

theorem Issuer.into_injective (x : Issuer) {q r : Reel} (h : x.into q = x.into r) : q = r := by
  have stored : (x.into q).reels.find? x.cur.reel = (x.into r).reels.find? x.cur.reel := by rw [h]
  simpa [Issuer.into] using stored

/-- A split left waiting has not retired: the reel's count of retired instructions stands still. -/
theorem Issuer.wait_ne_advanced (x : Issuer) (pc : VA) : x.wait ≠ .next (x.into (x.advanced pc)) := by
  intro h
  have same : x.reel.setSplit x.cur.split { x.split with wait := some (x.split.wait.getD .issue), bundle := some x.cur.bundle } = x.advanced pc :=
    x.into_injective (Host.Outcome.next.inj h)
  have retired : x.reel.retired = x.reel.retired + 1 := congrArg Reel.retired same
  bv_omega

/-- An access that has issued and waits for its words goes on waiting while one of them does not qualify, whatever lanes are active by then (09
R182). -/
theorem spadAccess_unqualified (hs : x.Stands s) {a : SpadAcc} {since spent : Nat} (hw : x.split.wait = some (.fullEmpty a since spent))
    (hq : a.qualifies x.block = false) (load : Bool) (mode n : Nat) (f : MOp) : spadAccess load mode n f s = x.wait := by
  unfold spadAccess
  simp [hs.with, hw, hq]

end Sys2Proof.Machine

namespace Sys2Proof.Rows

open Sys2Proof Sys2Proof.Machine

/-- Split 0 of a reel waits in `lds.b32.wfull`, guarded by k1, which has issued for lane 0 and whose word 0 is still empty; another split has cleared
k1 since, so that the guard leaves no lane when the wait is tested again. -/
def waitingUnguarded : Issuer :=
  let access : SpadAcc := ⟨0, true, 1, 4, [(0, 0)], 1, []⟩
  let bundle : Bundle := ⟨0x10000, 0x10004, 0x55408BF8, { Hints.empty with hg := some 1 }⟩
  let split : Split := ⟨0x10000, BitVec.allOnes 32, [], false, false, some (.fullEmpty access 0 0), some bundle⟩
  let reel : Reel := { Reel.fresh 0 0 0 0x10000 0 with splits := [(0, split)], ld := 1 }
  let block : Block := Block.fresh 0 0 0 0 0 0 placedDesc 0 0 0 0 (0, 0, 0) (1, 1, 1)
  let cur : Cur := ⟨0, 0, bundle⟩
  ⟨{ State.reset with reels := [(0, reel)], blocks := [(0, block)], cur := some cur }, cur, reel, split, block⟩

theorem waitingUnguarded_stands : waitingUnguarded.Stands waitingUnguarded.s := ⟨rfl, rfl, rfl, rfl, rfl, rfl⟩

/-- The operands of its word: v1, and the address in s4. -/
def waitingLoad : MOp := ⟨1, 2, 127, 0⟩

theorem decode_waitingUnguarded : decode waitingUnguarded.cur.bundle.word = .ok (.ldsB32Wfull waitingLoad) := rfl

/-- Refutes O54: the split of `waitingUnguarded` has no active lane and does not retire, because its access issued while k1 named lane 0 and still
waits for its word. `LaneWise.idle` proves the rule for every split that does not wait in such an access. -/
theorem not_noActiveLane : ¬ Obligations.NoActiveLane := by
  intro h
  have legal : LaneWise waitingUnguarded (.ldsB32Wfull waitingLoad) := .spad (.ldsB32Wfull _ (by unfold MLegal; decide))
  have retires := h _ _ _ legal waitingUnguarded_stands (by decide)
  have waits : exec (.ldsB32Wfull waitingLoad) waitingUnguarded.s = waitingUnguarded.wait :=
    spadAccess_unqualified waitingUnguarded_stands rfl (by decide) true 1 4 waitingLoad
  exact Issuer.wait_ne_advanced _ _ (waits.symm.trans retires)

end Sys2Proof.Rows
end

section
/-! SUPPORT. Matrix products: how a tile's elements and sticky bits gather, how the chunks of one element add up, and what a product word does to its
tile, its block and its core (03 R69 to R73, 11 R237 to R240). -/

namespace Sys2Proof.Machine

/-! ## Folds over the elements of a tile -/

theorem Map.findD_foldl_putD {α : Type} [DecidableEq α] (d : α) (v : Nat → α) (es : List Nat) (m : Map α) (k : Nat) :
    (es.foldl (fun m e => m.putD d e (v e)) m).findD d k = if k ∈ es then v k else m.findD d k := by
  induction es generalizing m with
  | nil => simp
  | cons e es ih =>
    rw [List.foldl_cons, ih, Map.findD_putD]
    by_cases hes : k ∈ es
    · simp [hes]
    · by_cases he : k = e
      · simp [he]
      · simp [hes, he]

theorem foldl_or_eq_true (p : Nat → Bool) (es : List Nat) (b : Bool) :
    es.foldl (fun b e => b || p e) b = true ↔ b = true ∨ ∃ e ∈ es, p e = true := by
  induction es generalizing b with
  | nil => simp
  | cons e es ih => rw [List.foldl_cons, ih]; simp [or_assoc]

@[simp] theorem mem_tileElems {e : Nat} : e ∈ tileElems ↔ e < 1024 := List.mem_range

/-- The elements that a product computes, put into the contents of a tile. -/
def elemsPut (v : Nat → DWord) (es : List Nat) (data : Map DWord) : Map DWord := es.foldl (fun m e => m.putD 0 e (v e)) data

theorem findD_elemsPut (v : Nat → DWord) (data : Map DWord) {e : Nat} (he : e < 1024) : (elemsPut v tileElems data).findD 0 e = v e := by
  unfold elemsPut
  rw [Map.findD_foldl_putD, if_pos (mem_tileElems.2 he)]

/-- Elements and flags of a tile are gathered apart from each other. -/
theorem AcTile.foldl_flags (v : Nat → DWord) (fl : Nat → Flags) (es : List Nat) (t : AcTile) :
    es.foldl (fun q e => { q with data := q.data.putD 0 e (v e), flags := q.flags ||| fl e }) t
      = { t with data := elemsPut v es t.data, flags := es.foldl (fun a e => a ||| fl e) t.flags } := by
  induction es generalizing t with
  | nil => rfl
  | cons e es ih => exact ih _

/-- Elements and the saturation mark of a tile are gathered apart from each other. -/
theorem AcTile.foldl_sat (v : Nat → DWord) (sat : Nat → Bool) (es : List Nat) (t : AcTile) :
    es.foldl (fun q e => { q with data := q.data.putD 0 e (v e), sat := q.sat || sat e }) t
      = { t with data := elemsPut v es t.data, sat := es.foldl (fun a e => a || sat e) t.sat } := by
  induction es generalizing t with
  | nil => rfl
  | cons e es ih => exact ih _

end Sys2Proof.Machine

namespace Sys2Proof.Rows

open Sys2Proof Sys2Proof.Machine

/-! ## The chunks of one element (03 R69, R73) -/

/-- One chunk of a floating-point element: a window over its value and the chunk's terms. -/
def chunkF (f : Fmt) (rm : RMode) (term : Nat → Option FVal) (a : Nat × Flags) (c : Nat) : Nat × Flags :=
  let r := windowSum f rm (FVal.read f false a.1 :: (chunk c).filterMap term)
  (r.1, a.2 ||| r.2)

/-- One chunk of an integer element: the chunk's sum is clamped once. -/
def chunkI (term : Nat → Int) (a : Int × Bool) (c : Nat) : Int × Bool :=
  let r := clamp ((chunk c).foldl (fun s k => s + term k) a.1)
  (r.1, a.2 || r.2)

theorem sumF_eq (f : Fmt) (rm : RMode) (term : Nat → Option FVal) (v n : Nat) :
    sumF f rm term v n = (List.range n).foldl (chunkF f rm term) (v, 0) := rfl

theorem sumI_eq (term : Nat → Int) (v : Int) (n : Nat) : sumI term v n = (List.range n).foldl (chunkI term) (v, false) := rfl

theorem chunksF_eq_foldl (f : Fmt) (rm : RMode) (term : Nat → Option FVal) (v : Nat) (fl : Flags) (c n : Nat) :
    chunksF f rm term v fl c n = (List.range' c n).foldl (chunkF f rm term) (v, fl) := by
  induction n generalizing v fl c with
  | zero => rfl
  | succ n ih => exact ih _ _ _

/-- The machine accumulates a floating-point element chunk by chunk. -/
theorem chunksF_eq_sumF (f : Fmt) (rm : RMode) (term : Nat → Option FVal) (v n : Nat) : chunksF f rm term v 0 0 n = sumF f rm term v n := by
  rw [chunksF_eq_foldl, sumF_eq, List.range_eq_range']

theorem eq_clamp {v w : Int} {sat : Bool} (hw : w = max (-2 ^ 31) (min v (2 ^ 31 - 1))) (hs : sat = true ↔ v < -2 ^ 31 ∨ 2 ^ 31 - 1 < v) :
    (w, sat) = clamp v := Prod.ext hw (Bool.eq_iff_iff.2 (hs.trans (by simp [clamp])))

/-- The word and the mark of a clamped sum are those of the clamped integer. -/
theorem clampAcc_eq_clamp (v : Int) : ((clampAcc v).1.toInt, (clampAcc v).2) = clamp v := by
  unfold clampAcc
  by_cases high : 2 ^ 31 - 1 < v
  · rw [if_pos high]
    exact eq_clamp (show (2 ^ 31 - 1 : Int) = _ by omega) (by simp only [true_iff]; omega)
  · rw [if_neg high]
    by_cases low : v < -2 ^ 31
    · rw [if_pos low]
      exact eq_clamp (show (-2 ^ 31 : Int) = _ by omega) (by simp only [true_iff]; omega)
    · rw [if_neg low]
      refine eq_clamp ?_ (by simp only [Bool.false_eq_true, false_iff]; omega)
      rw [BitVec.toInt_ofInt_eq_self (by decide) (by omega) (by omega)]
      omega

theorem chunkI_eq_clampAcc (term : Nat → Int) (v : Int) (sat : Bool) (c : Nat) :
    let r := clampAcc ((chunk c).foldl (fun a k => a + term k) v)
    chunkI term (v, sat) c = (r.1.toInt, sat || r.2) := by
  intro r
  unfold chunkI
  rw [← clampAcc_eq_clamp]

theorem chunksI_eq_foldl (term : Nat → Int) (v : Word) (sat : Bool) (c n : Nat) :
    ((chunksI term v sat c n).1.toInt, (chunksI term v sat c n).2) = (List.range' c n).foldl (chunkI term) (v.toInt, sat) := by
  induction n generalizing v sat c with
  | zero => rfl
  | succ n ih =>
    rw [List.range'_succ, List.foldl_cons, chunkI_eq_clampAcc]
    exact ih _ _ _

/-- The machine accumulates an integer element chunk by chunk. -/
theorem chunksI_eq_sumI (term : Nat → Int) (v : Word) (n : Nat) :
    ((chunksI term v false 0 n).1.toInt, (chunksI term v false 0 n).2) = sumI term v.toInt n := by
  rw [chunksI_eq_foldl, sumI_eq, List.range_eq_range']

/-! ## A tile after a product -/

/-- Element `e` of a floating-point tile after a product of `n` chunks, and the exceptions it raised. -/
def elemF (t : AcTile) (rm : RMode) (term : Nat → Nat → Nat → Option FVal) (n e : Nat) : Nat × Flags :=
  sumF (if t.fmt = 2 then .f64 else .f32) rm (term (e / 32) (e % 32)) (t.data.findD 0 e).toNat n

/-- Element `e` of an integer tile after a product of `n` chunks, and whether it clamped. -/
def elemI (t : AcTile) (term : Nat → Nat → Nat → Int) (n e : Nat) : Int × Bool :=
  sumI (term (e / 32) (e % 32)) (loWord (t.data.findD 0 e)).toInt n

theorem mulF_eq (t : AcTile) (rm : RMode) (term : Nat → Nat → Nat → Option FVal) (n : Nat) :
    t.mulF rm term n = { t with
      data := elemsPut (fun e => BitVec.ofNat 64 (elemF t rm term n e).1) tileElems t.data
      flags := tileElems.foldl (fun fl e => fl ||| (elemF t rm term n e).2) t.flags } := by
  unfold AcTile.mulF
  simp only [chunksF_eq_sumF]
  exact AcTile.foldl_flags _ _ _ t

theorem mulF_flags (t : AcTile) (rm : RMode) (term : Nat → Nat → Nat → Option FVal) (n : Nat) :
    (t.mulF rm term n).flags = (List.range 1024).foldl (fun fl e => fl ||| (elemF t rm term n e).2) t.flags := by
  rw [mulF_eq, tileElems]

theorem mulF_elem (t : AcTile) (rm : RMode) (term : Nat → Nat → Nat → Option FVal) (n : Nat) {e : Nat} (he : e < 1024) :
    (t.mulF rm term n).data.findD 0 e = BitVec.ofNat 64 (elemF t rm term n e).1 := by
  rw [mulF_eq, findD_elemsPut _ _ he]

/-- The word and the mark of element `e` of an integer tile after a product of `n` chunks. -/
def wordI (t : AcTile) (term : Nat → Nat → Nat → Int) (n e : Nat) : Word × Bool :=
  chunksI (term (e / 32) (e % 32)) (loWord (t.data.findD 0 e)) false 0 n

theorem wordI_toInt (t : AcTile) (term : Nat → Nat → Nat → Int) (n e : Nat) : (wordI t term n e).1.toInt = (elemI t term n e).1 :=
  congrArg Prod.fst (chunksI_eq_sumI _ _ n)

theorem wordI_sat (t : AcTile) (term : Nat → Nat → Nat → Int) (n e : Nat) : (wordI t term n e).2 = (elemI t term n e).2 :=
  congrArg Prod.snd (chunksI_eq_sumI _ _ n)

theorem mulI_eq (t : AcTile) (term : Nat → Nat → Nat → Int) (n : Nat) :
    t.mulI term n = { t with
      data := elemsPut (fun e => (wordI t term n e).1.setWidth 64) tileElems t.data
      sat := tileElems.foldl (fun sat e => sat || (elemI t term n e).2) t.sat } := by
  simp only [← wordI_sat]
  exact AcTile.foldl_sat _ _ _ t

theorem mulI_sat (t : AcTile) (term : Nat → Nat → Nat → Int) (n : Nat) :
    (t.mulI term n).sat = true ↔ t.sat = true ∨ ∃ e, e < 1024 ∧ (elemI t term n e).2 = true := by
  simp only [mulI_eq, foldl_or_eq_true, mem_tileElems]

theorem mulI_elem (t : AcTile) (term : Nat → Nat → Nat → Int) (n : Nat) {e : Nat} (he : e < 1024) :
    (loWord ((t.mulI term n).data.findD 0 e)).toInt = (elemI t term n e).1 := by
  rw [mulI_eq, findD_elemsPut _ _ he, ← wordI_toInt]
  simp

/-! ## What a stream word acts in, and its operands -/

variable {y : Streamer} {s : State}

theorem StreamStands.with (h : StreamStands y s) (f : Streamer → Out) : withStream s f = f y := by
  obtain ⟨rfl, latched, block⟩ := h
  simp [withStream, latched, block]

theorem Plain.streamTo (h : Plain y s) (dst : Option Nat) (f : Streamer → Out) : Machine.streamTo dst s f = f y := by
  obtain ⟨hs, plain⟩ := h
  simp [Machine.streamTo, hs.with, plain]

theorem SlotIs.loaded {n type k planes : Nat} {roleB : Bool} {data : Map Word} {types : List Nat}
    (h : SlotIs y (y.s.core y.block.core) n (.loaded type roleB k planes) data) (ht : type ∈ types) :
    y.loaded n roleB types = .ok (type, k, planes, data) := by
  obtain ⟨o, found, owner, state, rfl⟩ := h
  simp [Streamer.loaded, found, owner, state, ht]

theorem TileIs.tile {n : Nat} {t : AcTile} {fmts : List Nat} (h : TileIs y (y.s.core y.block.core) n t) (hf : t.fmt ∈ fmts) :
    y.tile n fmts = .ok t := by
  obtain ⟨found, owner, -, pair⟩ := h
  by_cases wide : t.fmt = 2
  · obtain ⟨even, p, other, owner', fmt'⟩ := pair wide
    simp [Streamer.tile, found, owner, hf, even, other, owner', fmt']
  · simp [Streamer.tile, found, owner, hf, wide]

theorem mem_typeCodes {type : Nat} (h : type < 6) : type ∈ [0, 1, 2, 3, 4, 5] := by
  have : type ∈ List.range 6 := List.mem_range.2 h
  exact this

theorem TileIs.fmt_mem {n : Nat} {c : Core} {t : AcTile} (h : TileIs y c n t) : t.fmt ∈ [1, 2, 3] := by
  obtain ⟨-, -, fmt, -⟩ := h
  simpa using fmt

/-- The B slots of a sparse product, each loaded (11 R238). -/
theorem sparseB_loaded (first n : Nat) (bs : Nat → Nat × Map Word) (h : ∀ q, q < n → (bs q).1 < 6
      ∧ ∃ k planes, SlotIs y (y.s.core y.block.core) (first + q) (.loaded (bs q).1 true k planes) (bs q).2) :
    y.sparseB first n = .ok ((List.range n).map bs) := by
  induction n generalizing first bs with
  | zero => rfl
  | succ n ih =>
    obtain ⟨type, k, planes, slot⟩ := h 0 (by omega)
    have rest := ih (first + 1) (fun q => bs (q + 1)) fun q hq => by
      rw [show first + 1 + q = first + (q + 1) by omega]
      exact h (q + 1) (by omega)
    rw [Streamer.sparseB, show y.loaded first true [0, 1, 2, 3, 4, 5] = _ from slot.loaded (mem_typeCodes type), rest]
    simp [List.range_succ_eq_map, Function.comp_def]

theorem getD_map_range {α : Type} (f : Nat → α) (d : α) (n q : Nat) (h : n ≤ q → f q = d) : ((List.range n).map f).getD q d = f q := by
  by_cases hq : q < n
  · simp [hq]
  · simp [Nat.not_lt.1 hq, h]

/-- Every mask word of metadata with the population asked for: none is at fault (11 R238). -/
theorem badMask_eq_none {md : Map Word} {groups n : Nat} (h : ∀ i e, i < 32 → e < groups → popCount (md.findD 0 (groups * i + e)) = n) :
    badMask md groups n = none := by
  unfold badMask
  rw [List.find?_eq_none]
  intro p hp
  obtain ⟨i, hi, hp⟩ := List.mem_flatMap.1 hp
  obtain ⟨e, he, rfl⟩ := List.mem_map.1 hp
  simpa using h i e (List.mem_range.1 hi) (List.mem_range.1 he)

/-! ## The product words -/

theorem below_eq_rankBelow : below = rankBelow := rfl

theorem MmasOp.ok_of_slots {f : MmasOp} {n : Nat} (hn : n = if f.dens = 1 then 8 else 16) (h : f.b.toNat + 32 / n ≤ 32) : f.ok = true := by
  unfold MmasOp.ok
  subst hn
  split at h <;> simp_all

/-- A product word whose row holds performs the product of its operands on its tile. -/
theorem ProductRow.exec_product {i : Instr} {n : Nat} {t : AcTile} {ta : Nat} {a : Nat → Nat → Option Word} {b : Nat → Nat → Nat × Word} {k : Nat}
    {rm : RMode} (h : ProductRow y (s.core y.block.core) i n t ta a b k rm) (hp : Plain y s) : exec i s = y.product n t (.of ta a b k) rm := by
  obtain rfl := hp.1.state
  cases h with
  | mma f _ _ tb _ _ _ _ a b hrm hta htb sa sb tile rows fmt =>
    rw [exec_mma, execMma, hp.streamTo]
    simp [MmaOp.ok, hrm, sa.loaded (mem_typeCodes hta), sb.loaded (mem_typeCodes htb), tile.tile tile.fmt_mem, ← rows, fmt]
  | mmas f _ _ k g _ _ a md bs n hn fits hta sa smd slots others tile row fmt hg mask =>
    have loaded := sparseB_loaded f.b.toNat (32 / n) bs fun q hq => ⟨(slots q hq).1, (slots q hq).2.2⟩
    have rows : ((List.range (32 / n)).map bs).any (fun b => typeRow b.1 != typeRow ta) = false := by
      simpa using fun q hq => (slots q hq).2.1
    have slot : ∀ q, ((List.range (32 / n)).map bs).getD q (0, []) = bs q := fun q => getD_map_range bs _ _ q (others q)
    rw [exec_mmas, execMmas, hp.streamTo]
    simp only [← hn, ← hg, MmasOp.ok_of_slots hn fits, sa.loaded (mem_typeCodes hta), loaded, smd.loaded (List.mem_singleton.2 rfl),
      tile.tile tile.fmt_mem, rows, badMask_eq_none mask, slot, below_eq_rankBelow]
    simp [row, fmt]
  | mmap f _ _ _ _ _ a b sa sb tile fmt rows cols =>
    rw [exec_mmap, execMmap, hp.streamTo]
    simp [sa.loaded, sb.loaded, tile.tile, fmt, rows, cols]

/-! ## What a product leaves -/

/-- A word that writes tile `n` of its block's core and goes on with the block as `b`. -/
theorem Plain.advance_putAc (h : Plain y s) (n : Nat) (t : AcTile) (b : Block) :
    ∃ u, y.advance (y.s.putAc y.block.core n t) b = .next u ∧ u = { s with blocks := wentOn y b (after y), scur := none, cores := u.cores }
      ∧ ∀ j, u.core j = if j = y.block.core then { s.core j with ac := (s.core j).ac.put n t } else s.core j := by
  obtain rfl := h.1.state
  refine ⟨_, rfl, rfl, fun j => ?_⟩
  change (y.s.putAc y.block.core n t).core j = _
  rw [State.putAc, State.core_onCore]
  split
  · next here => rw [here]
  · rfl

theorem onRead_full (d : Layout) (b : Block) (as : List Nat) : d.onRead b as = { b with full := (d.onRead b as).full } := by
  unfold Layout.onRead Layout.onReadPieces Block.setFull
  split <;> rfl

/-- Reading a side's scales changes full bits alone. -/
theorem afterScales_full (b : Block) (sc : Option Scale) : b.afterScales sc = { b with full := (b.afterScales sc).full } := by
  cases sc with
  | none => rfl
  | some sc => exact onRead_full _ _ _

/-- A tile whose cursor has advanced by `k` positions. -/
def counted (t : AcTile) (k : Nat) : AcTile := { t with count := t.count + BitVec.ofNat 32 k }

@[simp] theorem counted_data (t : AcTile) (k : Nat) : (counted t k).data = t.data := rfl
@[simp] theorem counted_sat (t : AcTile) (k : Nat) : (counted t k).sat = t.sat := rfl
@[simp] theorem counted_flags (t : AcTile) (k : Nat) : (counted t k).flags = t.flags := rfl

theorem product_ints (y : Streamer) (n : Nat) {t : AcTile} (p : Product) (rm : RMode) (h : t.fmt = 3) :
    y.product n t p rm = y.advance (y.s.putAc y.block.core n (counted (t.mulI p.ints (p.k / 32)) p.k)) y.block := if_pos h

/-- The terms of a floating-point product, each scaled by its row's and its column's scale (03 R69). -/
def scaledTerms (p : Product) (sr sc : Nat → Nat → FVal) (i j k : Nat) : Option FVal :=
  (p.floats i j k).map (addendMul (addendMul (sr k i) (sc k j)))

theorem product_floats (y : Streamer) (n : Nat) {t : AcTile} (p : Product) (rm : RMode) {sr sc : Nat → Nat → FVal} (h : t.fmt ≠ 3)
    (hr : y.block.scales t.count.toNat p.k t.rowScale = .ok sr) (hc : y.block.scales t.count.toNat p.k t.colScale = .ok sc) :
    y.product n t p rm = y.advance (y.s.putAc y.block.core n (counted (t.mulF rm (scaledTerms p sr sc) (p.k / 32)) p.k))
      ((y.block.afterScales t.rowScale).afterScales t.colScale) := by
  unfold Streamer.product
  rw [if_neg h, hr, hc]
  rfl

theorem scaledTerms_of (ta : Nat) (a : Nat → Nat → Option Word) (b : Nat → Nat → Nat × Word) (k : Nat) (sr sc : Nat → Nat → FVal) (i j p : Nat) :
    scaledTerms (.of ta a b k) sr sc i j p = (a i p).map fun v =>
      addendMul (addendMul (sr p i) (sc p j)) (addendMul (stF ta v.toNat) (stF (b p j).1 (b p j).2.toNat)) :=
  Option.map_map _ _ _

/-- Settles O36: a product is its tile's `mulI` or `mulF`, whose elements `mulI_eq` and `mulF_eq` give chunk by chunk. -/
theorem streamProducts : Obligations.StreamProducts := by
  intro y s i n t ta a b k rm sr sc hp hrow hscales termF termI elF elI
  have floats : elF = elemF t rm termF (k / 32) := rfl
  have ints : elI = elemI t termI (k / 32) := rfl
  clear_value elF elI
  subst floats ints
  have run := hrow.exec_product hp
  by_cases int : t.fmt = 3
  · obtain ⟨u, next, frame, cores⟩ := hp.advance_putAc n (counted (t.mulI termI (k / 32)) k) y.block
    refine ⟨u, _, _, run.trans ((product_ints y n _ rm int).trans next), frame, cores, rfl, fun _ _ => rfl, ?_, absurd int, fun _ =>
      ⟨?_, ?_, fun e he => ?_⟩⟩
    · rw [counted, mulI_eq]
    · rw [counted_flags, mulI_eq]
    · rw [counted_sat, mulI_sat]
    · rw [counted_data, mulI_elem _ _ _ he]
  · obtain ⟨hr, hc⟩ := hscales int
    have terms : scaledTerms (.of ta a b k) sr sc = termF := funext fun i => funext fun j => funext fun p => scaledTerms_of ta a b k sr sc i j p
    have ran := product_floats y n (.of ta a b k) rm int hr hc
    rw [terms] at ran
    obtain ⟨u, next, frame, cores⟩ := hp.advance_putAc n (counted (t.mulF rm termF (k / 32)) k)
      ((y.block.afterScales t.rowScale).afterScales t.colScale)
    refine ⟨u, _, _, run.trans (ran.trans next), frame, cores, ?_, fun row col => ?_, ?_, fun _ => ⟨?_, ?_, fun e he => ?_⟩, fun h => absurd h int⟩
    · rw [afterScales_full, afterScales_full y.block]
    · rw [row, col]; rfl
    · rw [counted, mulF_eq]
    · rw [counted_sat, mulF_eq]
    · rw [counted_flags, mulF_flags]
    · rw [counted_data, mulF_elem _ _ _ _ he]

end Sys2Proof.Rows
end

section
/-! SUPPORT. Precise traps that vector, records that hold a reel, and the return from a trap (04 R91 to R97, 06 R143, 14 R284). -/

namespace Sys2Proof.Machine

variable {x : Issuer} {s : State}

/-! ## Traps -/

/-- A precise trap that vectors, with nothing in `xkind` but its cause. -/
theorem Issuer.Vectors.takeTrap (hv : x.Vectors) (code : Nat) (word mask : Word) :
    x.takeTrap x.reel code word mask 0 = .next (x.into (x.trapped x.reel word mask (BitVec.ofNat 32 code))) := by
  have cause : (0 : Word) ||| BitVec.ofNat 32 code = BitVec.ofNat 32 code := BitVec.zero_or
  rw [x.takeTrap_vectors x.reel code word mask 0 hv.outside hv.handled, cause]

/-- A record of a reel that has not exited, in a launch with a fault entry, stands and holds the reel (14 R284). -/
theorem State.raiseRec_holds {k : Nat} {r : Reel} {f : FaultRec} (entry : s.faultEntry f.launch f.blockKey ≠ 0) (runs : f.exited = false)
    (key : f.reelKey = some k) (hr : s.reels.find? k = some r) :
    (s.raiseRec f true).1 = { s with
      nextId := s.nextId + 1
      faults := s.faults.put s.nextId { f with held := true, state := if f.kind = 2 ∨ f.kind = 3 then .secure else .waiting }
      reels := s.reels.put k (r.hold (s.clock (coreOfKey k)) s.nextId) } := by
  have same : ({ s with nextId := s.nextId + 1 } : State).faultEntry f.launch f.blockKey = s.faultEntry f.launch f.blockKey := rfl
  simp only [State.raiseRec, same, if_neg entry, runs, key, Option.isSome_some, Bool.not_false, Bool.and_self, State.onReel, Map.adjust_eq_put hr]
  rfl

theorem mem_insertNew_self (xs : List Nat) (i : Nat) : i ∈ insertNew xs i := by
  by_cases listed : i ∈ xs <;> simp [insertNew, listed]

theorem Reel.mem_heldBy_hold (t : Nat) (r : Reel) (id : Nat) : id ∈ (r.hold t id).heldBy := mem_insertNew_self _ id

/-- An illegal instruction in handler mode holds the reel with a record of kind 0x14 and cause 2 (04 R96). -/
theorem Issuer.illegal_nested (x : Issuer) (handler : x.reel.handler = true) (runs : x.reel.exited = false)
    (entry : x.s.faultEntry x.block.launch x.reel.block ≠ 0) :
    ∃ t id f r, x.illegal = .next t ∧ t.faults.find? id = some f ∧ f.kind = 0x14 ∧ f.detail = 2
      ∧ t.reels.find? x.cur.reel = some r ∧ id ∈ r.heldBy := by
  rw [Issuer.illegal, x.takeTrap_nested _ _ _ _ _ handler, Issuer.holdWith,
    State.raiseRec_holds (k := x.cur.reel) entry runs rfl (Map.find?_put_self _ _ _)]
  exact ⟨_, _, _, _, rfl, Map.find?_put_self _ _ _, rfl, rfl, Map.find?_put_self _ _ _, Reel.mem_heldBy_hold _ _ _⟩

/-! ## `tret` -/

/-- `tret` with the lanes and the depth of handler entry. -/
theorem Issuer.trapReturn_back (x : Issuer) (skip : Bool) (handler : x.reel.handler = true) (lanes : x.split.lanes = x.reel.trapLanes)
    (depth : x.split.stack.length = x.reel.trapDepth) :
    x.trapReturn skip = x.retireAs x.s
      { x.reel with handler := false, splits := x.reel.splits.mapVals fun _ p => { p with paused := false } }
      { x.split with pc := if skip then x.reel.trapIpc + 4 else x.reel.trapPc, paused := false } :=
  if_pos ⟨handler, lanes, depth⟩

theorem Issuer.trapReturn_illegal (x : Issuer) (skip : Bool)
    (h : x.reel.handler = false ∨ x.split.lanes ≠ x.reel.trapLanes ∨ x.split.stack.length ≠ x.reel.trapDepth) :
    x.trapReturn skip = x.illegal := by
  refine if_neg ?_
  rintro ⟨handler, lanes, depth⟩
  simp [handler, lanes, depth] at h

theorem exec_tretRetry_stands (hs : x.Stands s) : exec .tretRetry s = x.trapReturn false := (exec_tretRetry s).trans (hs.with _)
theorem exec_tretSkip_stands (hs : x.Stands s) : exec .tretSkip s = x.trapReturn true := (exec_tretSkip s).trans (hs.with _)

end Sys2Proof.Machine

namespace Sys2Proof.Rows

open Sys2Proof Sys2Proof.Machine

/-- Settles O14: `trapReturn_back` with the lanes and the depth of handler entry, the nested trap of `illegal_nested` with others, and the
illegal-instruction trap outside handler mode. -/
theorem trapReturn : Obligations.TrapReturn := by
  intro x s hs
  have retry := exec_tretRetry_stands hs
  have skip := exec_tretSkip_stands hs
  refine ⟨fun handler lanes depth => ⟨?_, ?_⟩, fun handler other runs entry i hi => ?_, fun hv => ⟨?_, ?_⟩⟩
  · rw [retry, x.trapReturn_back false handler lanes depth]
    exact x.retireAs_next _ _
  · rw [skip, x.trapReturn_back true handler lanes depth]
    exact x.retireAs_next _ _
  · have illegal : exec i s = x.illegal := by
      rcases hi with rfl | rfl
      · exact retry.trans (x.trapReturn_illegal false (.inr other))
      · exact skip.trans (x.trapReturn_illegal true (.inr other))
    rw [illegal]
    exact x.illegal_nested handler runs entry
  · rw [retry, x.trapReturn_illegal false (.inl hv.outside)]
    exact hv.takeTrap 2 _ _
  · rw [skip, x.trapReturn_illegal true (.inl hv.outside)]
    exact hv.takeTrap 2 _ _

end Sys2Proof.Rows
end

section
/-! SUPPORT. Divergence: a branch's target, the lowest free split number, and the two modes of a divergent branch (04 R81, 06 R137). -/

namespace Sys2Proof.Machine

open Sys2Proof.Rows

variable {x : Issuer} {s : State}

theorem sxNat_toNat {n : Nat} (b : BitVec n) : sxNat b.toNat n = b.toInt := by
  rw [sxNat, Nat.mod_eq_of_lt b.isLt, BitVec.toInt_eq_toNat_cond]
  norm_cast

theorem Issuer.target_eq (x : Issuer) (off : BitVec 20) : x.target off = branchTo x off := by
  have words : off.signExtend 55 <<< 2 = BitVec.ofInt 55 4 * BitVec.ofInt 55 off.toInt := by
    rw [BitVec.shiftLeft_eq_mul_twoPow, BitVec.mul_comm]
    rfl
  rw [Issuer.target, words, branchTo, sxNat_toNat, BitVec.ofInt_add, BitVec.ofInt_mul, BitVec.ofInt_natCast, BitVec.ofNat_toNat,
    BitVec.setWidth_eq]

/-- `bra.div` by its two sides: the lanes it takes and those it passes. -/
theorem exec_braDiv_sides (hs : x.Stands s) (f : BrK) :
    exec (.braDiv f) s =
      if taken x f.kc = 0 then x.retire x.reel
      else if passing x f.kc = 0 then x.jump x.reel (branchTo x f.off)
      else if 8 ≤ x.split.stack.length then x.takeTrap x.reel 4 x.cur.bundle.word x.split.lanes 0
      else x.diverge (taken x f.kc) (passing x f.kc) (branchTo x f.off) := by
  rw [exec_braDiv, execBraDiv, hs.with, ← x.target_eq]
  rfl

theorem Reel.freeSplit_eq_some {r : Reel} {n : Nat} (hn : n < 4) (free : r.splits.find? n = none) (lowest : ∀ m, m < n → r.splits.find? m ≠ none) :
    r.freeSplit = some n := by
  rw [Reel.freeSplit, List.find?_range_eq_some]
  refine ⟨by simp [free], List.mem_range.2 hn, fun m hm => ?_⟩
  simpa [Option.isSome_iff_ne_none] using lowest m hm

theorem Reel.freeSplit_eq_none {r : Reel} (full : ∀ m, m < 4 → r.splits.find? m ≠ none) : r.freeSplit = none := by
  rw [Reel.freeSplit, List.find?_range_eq_none]
  intro m hm
  simpa [Option.isSome_iff_ne_none] using full m hm

/-- Split mode: a new split takes the target. -/
theorem Issuer.diverge_split (x : Issuer) (lanes rest : Word) (target : VA) {n : Nat} (free : x.reel.freeSplit = some n) :
    x.diverge lanes rest target = x.retireAs x.s
      { x.reel with
        entries := x.reel.entries.put x.reel.nextEntry ⟨x.split.lanes, 0, none, none⟩
        nextEntry := x.reel.nextEntry + 1
        splits := x.reel.splits.put n (newSplit target lanes (x.reel.nextEntry :: x.split.stack)) }
      { x.split with pc := x.nextPc, lanes := rest, stack := x.reel.nextEntry :: x.split.stack } := by
  rw [Issuer.diverge, free]
  rfl

/-- Stack mode: the entry keeps the other side pending. -/
theorem Issuer.diverge_stack (x : Issuer) (lanes rest : Word) (target : VA) (full : x.reel.freeSplit = none) :
    x.diverge lanes rest target = x.retireAs x.s
      { x.reel with
        entries := x.reel.entries.put x.reel.nextEntry ⟨x.split.lanes, 0, none, some (x.nextPc, rest)⟩
        nextEntry := x.reel.nextEntry + 1 }
      { x.split with pc := target, lanes := lanes, stack := x.reel.nextEntry :: x.split.stack } := by
  rw [Issuer.diverge, full]

end Sys2Proof.Machine

namespace Sys2Proof.Rows

open Sys2Proof Sys2Proof.Machine

/-- Settles O10, by the branches of `exec_braDiv_sides`: `diverge_split` where a split number is free, `diverge_stack` where none is. -/
theorem divergence : Obligations.Divergence := by
  intro f x s hs
  rw [exec_braDiv_sides hs]
  refine ⟨fun none => ?_, fun some all => ?_, fun some more => ⟨fun depth n hn free lowest => ?_, fun depth full => ?_, fun depth hv => ?_⟩⟩
  · rw [if_pos none, x.retire_advanced]
  · rw [if_neg some, if_pos all, x.jump_advanced]
  · rw [if_neg some, if_neg more, if_neg (Nat.not_le.2 depth), x.diverge_split _ _ _ (Reel.freeSplit_eq_some hn free lowest)]
    exact x.retireAs_next _ _
  · rw [if_neg some, if_neg more, if_neg (Nat.not_le.2 depth), x.diverge_stack _ _ _ (Reel.freeSplit_eq_none full)]
    exact x.retireAs_next _ _
  · rw [if_neg some, if_neg more, if_pos depth]
    exact hv.takeTrap 4 _ _

end Sys2Proof.Rows
end

section
/-! SUPPORT. Joins: what a `join` does in each case of its entry, and the splits after a merge (04 R82, 06 R139). -/

namespace Sys2Proof.Machine

open Sys2Proof.Rows

variable {x : Issuer} {s : State}

/-! ## Merging splits -/

/-- Keeping the entries of some keys. -/
theorem Map.find?_keep_keys {α : Type} (m : Map α) (p : Nat → Bool) (k : Nat) :
    (m.keep fun j _ => p j).find? k = if p k then m.find? k else none := by
  induction m with
  | nil => simp [Map.keep]
  | cons q rest ih =>
    obtain ⟨i, v⟩ := q
    simp only [Map.keep, List.filter_cons, Map.find?] at ih ⊢
    by_cases hi : i = k
    · subst hi
      cases hp : p i
      · simpa [hp] using ih
      · simp [Map.find?]
    · cases hp : p i
      · simpa [hi] using ih
      · simpa [hi, Map.find?] using ih

/-- A merge changes nothing but the splits and the entries. -/
theorem Reel.merge_rest (r : Reel) (nums : List Nat) (join : Word) (pc : VA) (below : List Nat) :
    r.merge nums join pc below
      = { r with splits := (r.merge nums join pc below).splits, entries := (r.merge nums join pc below).entries } := by
  unfold Reel.merge
  cases nums.min? <;> rfl

/-- The splits after a merge: the lowest of those merged goes on after the join, and the others are gone. -/
theorem Reel.find?_merge (r : Reel) {nums : List Nat} {i : Nat} (lowest : nums.min? = some i) (join : Word) (pc : VA) (below : List Nat) (j : Nat) :
    (r.merge nums join pc below).splits.find? j
      = if j = i then some (newSplit pc join below) else if j ∈ nums then none else r.splits.find? j := by
  have merged : (r.merge nums join pc below).splits = (r.splits.keep fun j _ => !nums.contains j).put i (newSplit pc join below) := by
    rw [Reel.merge, lowest]
    rfl
  rw [merged, Map.find?_put, Map.find?_keep_keys]
  by_cases hj : j ∈ nums <;> simp [hj]

/-- Retiring with the splits and the reconvergence entries of the reel as given. -/
theorem Issuer.finish_splits (x : Issuer) (splits : Map Split) (entries : Map Reconv) :
    x.finish x.s { x.reel with splits := splits, entries := entries }
      = .next (x.into { x.advanced x.nextPc with splits := splits, entries := entries }) := by
  unfold Issuer.finish Issuer.put Issuer.into Issuer.advanced
  cases x.cur.bundle.hints.hs with
  | none => rfl
  | some p =>
    simp only [Reel.applyHS]
    split <;> rfl

/-! ## `join` -/

theorem exec_join_empty (hs : x.Stands s) (empty : x.split.stack = []) : exec .join s = x.retire x.reel := by
  rw [exec_join, execJoin, hs.with, empty]

/-- An entry is joined at an address when no split has arrived at another. -/
theorem Reconv.joinPc_getD {e : Reconv} {j : VA} : e.joinPc.getD j = j ↔ e.joinPc = none ∨ e.joinPc = some j := by
  cases e.joinPc <;> simp

/-- An entry at which a split with some lanes has arrived, by the join of an address. -/
def Reconv.arrive (e : Reconv) (j : VA) (lanes : Word) : Reconv := { e with joinPc := some j, arrived := e.arrived ||| lanes }

section
variable {id : Nat} {below : List Nat} {e : Reconv} (hs : x.Stands s) (top : x.split.stack = id :: below) (he : x.reel.entries.find? id = some e)
include hs top he

/-- A `join` at another address than its entry's. -/
theorem exec_join_elsewhere {k : VA} (at_k : e.joinPc = some k) (other : k ≠ x.cur.bundle.ipc) :
    exec .join s = x.takeTrap x.reel 5 x.cur.bundle.word x.split.lanes 0 := by
  rw [exec_join, execJoin, hs.with]
  simp only [top, he, at_k]
  exact if_pos other

variable (here : e.joinPc = none ∨ e.joinPc = some x.cur.bundle.ipc)
include here

/-- A `join` that brings its entry's last lanes merges the splits parked there with its own. -/
theorem exec_join_last (last : e.arrived ||| x.split.lanes = e.join) :
    exec .join s = x.finish x.s (x.reel.merge (x.cur.split :: x.reel.parkedOn id) e.join x.nextPc below) := by
  rw [exec_join, execJoin, hs.with]
  simp only [top, he, Reconv.joinPc_getD.2 here, ne_eq, not_true, if_false, last, if_true]

/-- A `join` that leaves lanes to come takes up the side its entry keeps pending. -/
theorem exec_join_pending {pc : VA} {lanes : Word} (more : e.arrived ||| x.split.lanes ≠ e.join) (pending : e.pending = some (pc, lanes)) :
    exec .join s = x.retireAs x.s
      { x.reel with entries := x.reel.entries.put id { e.arrive x.cur.bundle.ipc x.split.lanes with pending := none } }
      { x.split with pc := pc, lanes := lanes } := by
  rw [exec_join, execJoin, hs.with]
  simp only [top, he, Reconv.joinPc_getD.2 here, ne_eq, not_true, if_false, more, pending, Reconv.arrive]

/-- A `join` that leaves lanes to come, at an entry that keeps no side, parks its split. -/
theorem exec_join_parks (more : e.arrived ||| x.split.lanes ≠ e.join) (idle : e.pending = none) :
    exec .join s = x.retireAs x.s
      { x.reel with entries := x.reel.entries.put id (e.arrive x.cur.bundle.ipc x.split.lanes) }
      { x.split with pc := x.cur.bundle.ipc, parked := true } := by
  rw [exec_join, execJoin, hs.with]
  simp only [top, he, Reconv.joinPc_getD.2 here, ne_eq, not_true, if_false, more, idle, Reconv.arrive]

end

end Sys2Proof.Machine

namespace Sys2Proof.Rows

open Sys2Proof Sys2Proof.Machine

/-- Settles O11: an equation of `join` for each case, and for the merge `find?_merge` at the lowest of the splits that merge. -/
theorem joins : Obligations.Joins := by
  refine ⟨⟨fun x s hs empty => ?_, fun x s id below e hs top he => ⟨fun here more idle => ?_, fun pc lanes here more pending => ?_,
    fun k at_k other hv => ?_⟩⟩, fun x s id below e hs top he here last => ?_⟩
  · exact (exec_join_empty hs empty).trans x.retire_advanced
  · exact (exec_join_parks hs top he here more idle).trans (x.retireAs_next _ _)
  · exact (exec_join_pending hs top he here more pending).trans (x.retireAs_next _ _)
  · exact (exec_join_elsewhere hs top he at_k other).trans (hv.takeTrap 5 _ _)
  · have run := exec_join_last hs top he here last
    rw [Reel.merge_rest, x.finish_splits] at run
    have own : x.cur.split ∈ x.cur.split :: x.reel.parkedOn id := List.mem_cons_self
    obtain ⟨i, lowest⟩ := Option.isSome_iff_exists.1 (List.isSome_min?_of_mem own)
    obtain ⟨member, least⟩ := List.min?_eq_some_iff.1 lowest
    have splits := Reel.find?_merge x.reel lowest e.join x.nextPc below
    refine ⟨_, i, run, rfl, List.mem_cons.1 member, fun j hj => least j (List.mem_cons.2 hj), ?_, fun j other merged => ?_, fun j other apart => ?_⟩
    · exact (splits i).trans (if_pos rfl)
    · exact (splits j).trans ((if_neg other).trans (if_pos (List.mem_cons.2 merged)))
    · have unmerged : j ∉ x.cur.split :: x.reel.parkedOn id := by simp [other, apart]
      have notLowest : j ≠ i := fun h => unmerged (h ▸ member)
      exact (splits j).trans ((if_neg notLowest).trans (if_neg unmerged))

end Sys2Proof.Rows
end

section
/-! SUPPORT. The results of the integer tables in exact integers, as the words that the model computes (05 R101, R105 to R109). -/

namespace Sys2Proof.Machine

open Sys2Proof.Rows

/-! ## Exact integers as words -/

@[simp] theorem ofInt_toNat {w : Nat} (a : BitVec w) : BitVec.ofInt w a.toNat = a := by
  rw [BitVec.ofInt_natCast, BitVec.ofNat_toNat, BitVec.setWidth_eq]

theorem ofInt_add_toNat {w : Nat} (a b : BitVec w) : BitVec.ofInt w (a.toNat + b.toNat) = a + b := by
  rw [BitVec.ofInt_add, ofInt_toNat, ofInt_toNat]

theorem ofInt_sub_toNat {w : Nat} (a b : BitVec w) : BitVec.ofInt w (a.toNat - b.toNat) = a - b := by
  rw [sub_eq_add_neg, BitVec.ofInt_add, BitVec.ofInt_neg, ofInt_toNat, ofInt_toNat, BitVec.sub_eq_add_neg]

theorem ofInt_mul_toNat {w : Nat} (a b : BitVec w) : BitVec.ofInt w (a.toNat * b.toNat) = a * b := by
  rw [BitVec.ofInt_mul, ofInt_toNat, ofInt_toNat]

theorem ofInt_mul_two_pow {w : Nat} (a : BitVec w) (n : Nat) : BitVec.ofInt w (a.toNat * 2 ^ n) = a <<< n := by
  apply BitVec.eq_of_toNat_eq
  rw [show (a.toNat * 2 ^ n : Int) = (a.toNat * 2 ^ n : Nat) by push_cast; rfl, BitVec.ofInt_natCast, BitVec.toNat_ofNat,
    BitVec.toNat_shiftLeft, Nat.shiftLeft_eq]

theorem ofInt_div_two_pow {w : Nat} (a : BitVec w) (n : Nat) : BitVec.ofInt w (a.toNat / 2 ^ n) = a >>> n := by
  have quotient : (a.toNat / 2 ^ n : Int) = (a >>> n).toNat := by rw [BitVec.toNat_ushiftRight, Nat.shiftRight_eq_div_pow]; norm_cast
  rw [quotient, ofInt_toNat]

/-- `Sx(a, 32)` of a word is its signed value. -/
@[simp] theorem sx_toNat (a : Word) : sx a.toNat = a.toInt := sxNat_toNat a

theorem ofInt_sx_div_two_pow (a : Word) (n : Nat) : BitVec.ofInt 32 (sx a.toNat / 2 ^ n) = a.sshiftRight n := by
  rw [sx_toNat, BitVec.sshiftRight_eq, Int.shiftRight_eq_div_pow]
  norm_cast

/-! ## INT-A (05 R105) -/

theorem ofInt_min_sx (a b : Word) : BitVec.ofInt 32 (min (sx a.toNat) (sx b.toNat)) = if a.toInt ≤ b.toInt then a else b := by
  rw [sx_toNat, sx_toNat, min_def]
  split <;> exact BitVec.ofInt_toInt

theorem ofInt_max_sx (a b : Word) : BitVec.ofInt 32 (max (sx a.toNat) (sx b.toNat)) = if a.toInt ≤ b.toInt then b else a := by
  rw [sx_toNat, sx_toNat, max_def]
  split <;> exact BitVec.ofInt_toInt

theorem ofInt_min_toNat (a b : Word) : BitVec.ofInt 32 (min a.toNat b.toNat) = if a.toNat ≤ b.toNat then a else b := by
  rw [min_def]
  simp only [Nat.cast_le]
  split <;> exact ofInt_toNat _

theorem ofInt_max_toNat (a b : Word) : BitVec.ofInt 32 (max a.toNat b.toNat) = if a.toNat ≤ b.toNat then b else a := by
  rw [max_def]
  simp only [Nat.cast_le]
  split <;> exact ofInt_toNat _

theorem ofInt_abs_sx (a : Word) : BitVec.ofInt 32 |sx a.toNat| = if a.msb then -a else a := by
  rw [sx_toNat, BitVec.msb_eq_toInt]
  by_cases negative : a.toInt < 0
  · rw [abs_of_neg negative, BitVec.ofInt_neg, BitVec.ofInt_toInt, decide_eq_true negative, if_pos rfl]
  · rw [abs_of_nonneg (Int.not_lt.1 negative), BitVec.ofInt_toInt, decide_eq_false negative]
    rfl

theorem ofInt_mulh_sx (a b : Word) : BitVec.ofInt 32 (sx a.toNat * sx b.toNat / 2 ^ 32) = wrap32 (a.toInt * b.toInt / 2 ^ 32) := by
  rw [sx_toNat, sx_toNat, wrap32]

theorem ofInt_addSat_sx (a b : Word) :
    BitVec.ofInt 32 (max (-2 ^ 31) (min (sx a.toNat + sx b.toNat) (2 ^ 31 - 1))) = clamp32 (a.toInt + b.toInt) := by
  rw [sx_toNat, sx_toNat, clamp32]

theorem ofInt_subSat_sx (a b : Word) :
    BitVec.ofInt 32 (max (-2 ^ 31) (min (sx a.toNat - sx b.toNat) (2 ^ 31 - 1))) = clamp32 (a.toInt - b.toInt) := by
  rw [sx_toNat, sx_toNat, clamp32]

/-- The high half of an unsigned product is a natural number. -/
theorem ofInt_mulh_toNat (a b : Word) : BitVec.ofInt 32 (a.toNat * b.toNat / 2 ^ 32) = BitVec.ofNat 32 (a.toNat * b.toNat / 2 ^ 32) := by
  rw [← BitVec.ofInt_natCast]
  norm_cast

/-! ## INT-B: bits, shifts and fields (05 R107, R108) -/

theorem shiftCount_eq (b : Word) : shiftCount b = cnt b.toNat := BitVec.toNat_setWidth 8 b

theorem ofInt_shl {w : Nat} (a : BitVec w) (b : Word) : BitVec.ofInt w (a.toNat * 2 ^ cnt b.toNat) = a <<< shiftCount b := by
  rw [shiftCount_eq, ofInt_mul_two_pow]

theorem ofInt_shr {w : Nat} (a : BitVec w) (b : Word) : BitVec.ofInt w (a.toNat / 2 ^ cnt b.toNat) = a >>> shiftCount b := by
  rw [shiftCount_eq, ofInt_div_two_pow]

theorem ofInt_sar (a b : Word) : BitVec.ofInt 32 (sx a.toNat / 2 ^ cnt b.toNat) = a.sshiftRight (shiftCount b) := by
  rw [shiftCount_eq, ofInt_sx_div_two_pow]

theorem ofInt_and_toNat (a b : Word) : BitVec.ofInt 32 (a.toNat &&& b.toNat : Nat) = a &&& b := by
  rw [← BitVec.toNat_and, ofInt_toNat]

theorem ofInt_or_toNat (a b : Word) : BitVec.ofInt 32 (a.toNat ||| b.toNat : Nat) = a ||| b := by
  rw [← BitVec.toNat_or, ofInt_toNat]

theorem ofInt_xor_toNat (a b : Word) : BitVec.ofInt 32 (a.toNat ^^^ b.toNat : Nat) = a ^^^ b := by
  rw [← BitVec.toNat_xor, ofInt_toNat]

theorem ofInt_andn_toNat (a b : Word) : BitVec.ofInt 32 (a.toNat &&& (2 ^ 32 - 1 - b.toNat) : Nat) = a &&& ~~~b := by
  rw [← BitVec.toNat_not, ofInt_and_toNat]

/-- The two parts of a rotation have no bit in common, so that their sum is their OR. -/
theorem ofInt_rotl (a b : Word) :
    BitVec.ofInt 32 (a.toNat * 2 ^ (cnt b.toNat % 32) + a.toNat / 2 ^ (32 - cnt b.toNat % 32)) = a.rotateLeft (shiftCount b) := by
  rw [shiftCount_eq]
  generalize cnt b.toNat = n
  have disjoint : a <<< (n % 32) &&& a >>> (32 - n % 32) = 0#32 := by
    ext i hi
    by_cases low : i < n % 32
    · simp [low]
    · have beyond : 32 ≤ 32 - n % 32 + i := by omega
      simp [BitVec.getLsbD_of_ge a _ beyond]
  rw [BitVec.ofInt_add, ofInt_mul_two_pow, ofInt_div_two_pow, BitVec.rotateLeft_def, BitVec.add_eq_or_of_and_eq_zero _ _ disjoint]

theorem ofInt_popCount (a : Word) :
    BitVec.ofInt 32 ((List.range 32).filter fun i => a.toNat.testBit i).length = BitVec.ofNat 32 (popCount a) :=
  BitVec.ofInt_natCast 32 _

theorem ofInt_clz (a : Word) : BitVec.ofInt 32 (32 - (if a.toNat = 0 then 0 else Nat.log2 a.toNat + 1 : Nat)) = BitVec.ofNat 32 (clz32 a) := by
  rw [← BitVec.ofInt_natCast]
  congr 1
  by_cases zero : a = 0
  · simp [clz32, zero]
  · have nonzero : a.toNat ≠ 0 := fun h => zero (BitVec.eq_of_toNat_eq h)
    have top : Nat.log2 a.toNat < 32 := (Nat.log2_lt nonzero).2 a.isLt
    rw [clz32, if_neg zero, if_neg nonzero]
    omega

theorem brev32_eq (a : Word) : brev32 a = a.reverse := by
  apply BitVec.eq_of_getLsbD_eq
  intro i hi
  have mirrored : (∃ l, a.getLsbD l = true ∧ 31 - l = i) ↔ a.getLsbD (31 - i) = true := by
    constructor
    · rintro ⟨l, hl, rfl⟩
      have := BitVec.lt_of_getLsbD hl
      rwa [Nat.sub_sub_self (by omega)]
    · exact fun h => ⟨31 - i, h, Nat.sub_sub_self (by omega)⟩
  rw [Bool.eq_iff_iff, brev32, getLsbD_maskOf _ i hi, List.mem_map, BitVec.getLsbD_reverse, BitVec.getMsbD]
  simp only [mem_laneList, mirrored, hi, decide_true, Bool.true_and]

theorem ofInt_reverse (a : Word) : BitVec.ofInt 32 (BitVec.ofNat 32 a.toNat).reverse.toNat = brev32 a := by
  rw [ofInt_toNat, BitVec.ofNat_toNat, BitVec.setWidth_eq, brev32_eq]

theorem fieldOf_eq (b : Word) : fieldOf b = (fpos b.toNat, flen b.toNat) := by
  simp [fieldOf, fpos, flen, BitVec.extractLsb'_toNat, Nat.shiftRight_eq_div_pow]

/-- A field is what its mask leaves, moved down. -/
theorem field_eq (a b : Nat) : field a b = a / 2 ^ fpos b % 2 ^ flen b := by
  rw [field, fmask, Nat.and_div_two_pow, Nat.mul_div_cancel _ (Nat.two_pow_pos _), Nat.and_two_pow_sub_one_eq_mod]

theorem ofInt_field (a b : Word) : BitVec.ofInt 32 (field a.toNat b.toNat) = bfxZ32 a b := by
  rw [BitVec.ofInt_natCast, field_eq, bfxZ32, fieldOf_eq]

theorem ofInt_sxNat_field (a b : Word) : BitVec.ofInt 32 (sxNat (field a.toNat b.toNat) (flen b.toNat)) = bfxI32 a b := by
  rw [field_eq, bfxI32, fieldOf_eq]
  by_cases empty : flen b.toNat = 0
  · simp [empty, sxNat, Nat.mod_one]
  · simp [empty, sxNat]

theorem fmask_lt (b : Nat) : fmask b < 2 ^ 32 := by
  have low : fpos b < 32 := Nat.mod_lt _ (by decide)
  have len : flen b ≤ 32 - fpos b := min_le_right _ _
  calc fmask b < 2 ^ flen b * 2 ^ fpos b := Nat.mul_lt_mul_of_pos_right (Nat.sub_lt (Nat.two_pow_pos _) Nat.one_pos) (Nat.two_pow_pos _)
    _ = 2 ^ (flen b + fpos b) := (pow_add 2 _ _).symm
    _ ≤ 2 ^ 32 := Nat.pow_le_pow_right (by decide) (by omega)

theorem ofNat_not_fmask (b : Nat) : BitVec.ofNat 32 (2 ^ 32 - 1 - fmask b) = ~~~BitVec.ofNat 32 (fmask b) := by
  apply BitVec.eq_of_toNat_eq
  rw [BitVec.toNat_not, BitVec.toNat_ofNat, BitVec.toNat_ofNat, Nat.mod_eq_of_lt (fmask_lt b), Nat.mod_eq_of_lt (by omega)]

theorem ofInt_bfi (d a b : Word) :
    BitVec.ofInt 32 ((d.toNat &&& (2 ^ 32 - 1 - fmask b.toNat)) ||| (a.toNat * 2 ^ fpos b.toNat &&& fmask b.toNat) : Nat) = bfi32 d a b := by
  have moved : BitVec.ofNat 32 (a.toNat * 2 ^ fpos b.toNat) = a <<< fpos b.toNat := by
    rw [← ofInt_mul_two_pow, ← BitVec.ofInt_natCast]
    norm_cast
  rw [BitVec.ofInt_natCast, BitVec.ofNat_or, BitVec.ofNat_and, BitVec.ofNat_and, ofNat_not_fmask, moved, BitVec.ofNat_toNat,
    BitVec.setWidth_eq, bfi32, fieldOf_eq]
  rfl

/-! ## Immediates (05 R109) -/

/-- A payload before an immediate is 32 bits. -/
theorem toNat_append_imm (p : BitVec 23) (i : BitVec 9) : (p ++ i).toNat = p.toNat * 2 ^ 9 + i.toNat := by
  rw [BitVec.toNat_append, Nat.shiftLeft_eq, mul_comm, Nat.two_pow_add_eq_or_of_lt i.isLt]

theorem immS_eq (x : Issuer) (i : BitVec 9) : immS x i = (x.cur.bundle.hints.imm9s i).toNat := by
  unfold immS Hints.imm9s
  cases x.cur.bundle.hints.hx with
  | none => rw [sxNat_toNat, ← BitVec.ofInt_toInt (x := i.signExtend 32), BitVec.toInt_signExtend_of_le (by decide), BitVec.toNat_ofInt]; rfl
  | some p => exact (toNat_append_imm p i).symm

theorem immZ_eq (x : Issuer) (i : BitVec 9) : immZ x i = (x.cur.bundle.hints.imm9z i).toNat := by
  unfold immZ Hints.imm9z
  cases x.cur.bundle.hints.hx with
  | none => exact (BitVec.toNat_setWidth_of_le (by decide)).symm
  | some p => exact (toNat_append_imm p i).symm

end Sys2Proof.Machine
end

section
/-! SUPPORT. Integer rows as vector instructions whose lanes compute the tables' exact integers (05 R101 to R109, R113). -/

namespace Sys2Proof.Machine

open Sys2Proof.Rows

/-! ## Lane functions of exact integers -/

/-- The values of operands of 32 bits are words (05 R103). -/
structure VOperands.Fits (o : VOperands) (a b d : DWord) : Prop where
  a : o.wa = false → a.toNat < 2 ^ 32
  b : o.wb = false → b.toNat < 2 ^ 32
  d : o.wd = false → d.toNat < 2 ^ 32

/-- An immediate operand is a word. -/
def VOperands.ImmFits (o : VOperands) : Prop := ∀ v, o.b = .imm v → v.toNat < 2 ^ 32

/-- The lane function `f` raises nothing and leaves in the destination what the exact integers of `g` come to. -/
structure Realises (o : VOperands) (f : LaneFn) (g : Exact) : Prop where
  quiet : ∀ l a b d, (f l a b d).2 = 0
  low : ∀ l a b d, o.Fits a b d → loWord (f l a b d).1 = BitVec.ofInt 32 (g l a.toNat b.toNat d.toNat)
  high : o.wd = true → ∀ l a b d, o.Fits a b d → (f l a b d).1 = BitVec.ofInt 64 (g l a.toNat b.toNat d.toNat)

theorem loWord_ofInt (v : Int) : loWord (BitVec.ofInt 64 v) = BitVec.ofInt 32 v := by
  apply BitVec.eq_of_toNat_eq
  rw [BitVec.toNat_setWidth, BitVec.toNat_ofInt, BitVec.toNat_ofInt]
  omega

theorem toNat_loWord {a : DWord} (h : a.toNat < 2 ^ 32) : (loWord a).toNat = a.toNat := by
  rw [BitVec.toNat_setWidth, Nat.mod_eq_of_lt h]

/-- The operands that an instruction reads fit. -/
theorem VOperands.fits {o : VOperands} (imm : o.ImmFits) (r : Reel) (e : Extent) (i j l : Nat) :
    o.Fits (r.vread o.wa (o.areg e i j) l) (o.bval r e i j l) (o.cval r e i j l) := by
  refine ⟨fun narrow => narrow ▸ r.vread_narrow_lt _ l, fun narrow => ?_, fun narrow => ?_⟩
  · unfold VOperands.bval
    cases hb : o.b with
    | none => exact Nat.two_pow_pos 32
    | imm v => exact imm v hb
    | uni n => simpa [narrow] using Nat.lt_of_le_of_lt (Nat.mod_le _ _) (r.sget n).isLt
    | vec n => exact narrow ▸ r.vread_narrow_lt _ l
  · unfold VOperands.cval
    cases o.creg e i j with
    | none => exact Nat.two_pow_pos 32
    | some n => exact narrow ▸ r.vread_narrow_lt n l

theorem Realises.computes {o : VOperands} {f : LaneFn} {g : Exact} (h : Realises o f g) (imm : o.ImmFits) {x : Issuer} {t : State}
    (ht : x.Computes t o f) : x.Computes t o (exact g) := by
  have operands := VOperands.fits imm x.reel x.cur.bundle.hints.extent
  refine ht.congr (fun i j l => ?_) (fun wide i j l => congrArg hiWord (h.high wide l _ _ _ (operands i j l))) (fun i j l => h.quiet l _ _ _)
  exact (h.low l _ _ _ (operands i j l)).trans (loWord_ofInt _).symm

section
variable {o : VOperands} {g : Exact}

/-- A lane function of operands and a destination of 32 bits. -/
theorem Realises.of_words (wd : o.wd = false) (wa : o.wa = false) (wb : o.wb = false) {f : LaneFn} (quiet : ∀ l a b d, (f l a b d).2 = 0)
    (agree : ∀ l (a b d : DWord), loWord (f l a b d).1 = BitVec.ofInt 32 (g l (loWord a).toNat (loWord b).toNat (loWord d).toNat)) :
    Realises o f g where
  quiet := quiet
  low l a b d fits := by rw [agree, toNat_loWord (fits.a wa), toNat_loWord (fits.b wb), toNat_loWord (fits.d wd)]
  high wide := by simp [wd] at wide

theorem Realises.of_fn32 (wd : o.wd = false) (wa : o.wa = false) (wb : o.wb = false) {op : Word → Word → Word}
    (agree : ∀ l (a b : Word) d, BitVec.ofInt 32 (g l a.toNat b.toNat d) = op a b) : Realises o (fn32 op) g :=
  .of_words wd wa wb (fun _ _ _ _ => rfl) fun l a b d => by
    rw [agree]
    exact BitVec.setWidth_setWidth_of_le _ (by decide)

theorem Realises.of_fn64 {op : DWord → DWord → DWord}
    (agree : ∀ l a b d, o.Fits a b d → BitVec.ofInt 64 (g l a.toNat b.toNat d.toNat) = op a b) : Realises o (fn64 op) g where
  quiet _ _ _ _ := rfl
  low l a b d fits := by rw [← loWord_ofInt, agree l a b d fits]; rfl
  high _ l a b d fits := (agree l a b d fits).symm

end

/-! ## Each family as a vector instruction -/

/-- `out` is the vector instruction of operands `o` whose lanes compute `g`. -/
def Issuer.Performs (x : Issuer) (o : VOperands) (g : Exact) (out : Out) : Prop := ∃ f, out = x.vector o f ∧ Realises o f g

section
variable {x : Issuer} {s : State} (hs : x.Stands s) {g : Exact}
include hs

theorem vec3_performs {f : V3} {wd wa wb : Bool} {c : CSrc} {k : LaneFn} (hf : f.ok wd wa wb = true)
    (h : Realises (ops3 f wd wa wb c) k g) : x.Performs (ops3 f wd wa wb c) g (vec3 f wd wa wb c k s) := by
  refine ⟨k, ?_, h⟩
  unfold vec3
  rw [hs.with, if_pos hf]
  rfl

theorem int32Op_performs {f : V3} {op : Word → Word → Word} (hf : f.ok false false false = true)
    (agree : ∀ l (a b : Word) d, BitVec.ofInt 32 (g l a.toNat b.toNat d) = op a b) :
    x.Performs (ops3 f false false false .none) g (int32Op op f s) :=
  vec3_performs hs hf (.of_fn32 rfl rfl rfl agree)

theorem vec2_performs {f : V2} {k : LaneFn} (h : Realises (ops2 f false false) k g) :
    x.Performs (ops2 f false false) g (vec2 f false false k s) := by
  refine ⟨k, ?_, h⟩
  unfold vec2
  rw [hs.with]
  rfl

theorem unary_performs {f : V2} {op : Word → Word → Word} (agree : ∀ l (a b : Word) d, BitVec.ofInt 32 (g l a.toNat b.toNat d) = op a b) :
    x.Performs (ops2 f false false) g (vec2 f false false (fn32 op) s) :=
  vec2_performs hs (.of_fn32 rfl rfl rfl agree)

theorem intImm_performs {useA : Bool} {vd va : BitVec 7} {imm : Hints → Word} {op : Word → Word → Word} {n : Nat}
    (hn : n = (imm x.cur.bundle.hints).toNat) (agree : ∀ l (a b : Word) d, BitVec.ofInt 32 (g l a.toNat b.toNat d) = op a b) :
    x.Performs (opsI vd va useA n) g (intImm useA vd va imm op s) := by
  refine ⟨fn32 op, ?_, .of_fn32 rfl rfl rfl agree⟩
  unfold intImm
  rw [hs.with, hn, opsI, BitVec.ofNat_toNat]

section
variable {useA : Bool} {vd va : BitVec 7} {op : Word → Word → Word}
  (agree : ∀ l (a b : Word) d, BitVec.ofInt 32 (g l a.toNat b.toNat d) = op a b)
include agree

theorem imm9s_performs {i : BitVec 9} : x.Performs (opsI vd va useA (immS x i)) g (intImm useA vd va (·.imm9s i) op s) :=
  intImm_performs (imm := (·.imm9s i)) hs (immS_eq x i) agree

theorem imm9z_performs {i : BitVec 9} : x.Performs (opsI vd va useA (immZ x i)) g (intImm useA vd va (·.imm9z i) op s) :=
  intImm_performs (imm := (·.imm9z i)) hs (immZ_eq x i) agree

theorem shiftImm_performs {n : BitVec 5} : x.Performs (opsI vd va useA n.toNat) g (intImm useA vd va (fun _ => n.setWidth 32) op s) :=
  intImm_performs (imm := fun _ => n.setWidth 32) hs (BitVec.toNat_setWidth_of_le (by decide)).symm agree

end

end

end Sys2Proof.Machine

namespace Sys2Proof.Rows

open Sys2Proof Sys2Proof.Machine

variable {x : Issuer} {s : State} {i : Instr} {o : VOperands} {g : Exact}

/-- An immediate is at most 32 bits wide, with HX too. -/
theorem IntRow.immFits (h : IntRow x i o g) : o.ImmFits := by
  have vector : ∀ (f : V3) wd wa wb c, (ops3 f wd wa wb c).ImmFits := by
    intro f wd wa wb c v hv
    simp only [ops3, bsrcOf] at hv
    split at hv <;> nomatch hv
  have word : ∀ vd va useA (w : Word), (opsI vd va useA w.toNat).ImmFits := by
    rintro vd va useA w v ⟨⟩
    exact Nat.lt_of_le_of_lt (Nat.mod_le _ _) w.isLt
  cases h with
  | iadd f h | isub f h | imul f h | imulhI f h | imulhZ f h | iminI f h | imaxI f h | iminZ f h | imaxZ f h | iaddSatI f h | isubSatI f h
  | iadd64 f h | isub64 f h | imulWideI f h | imulWideZ f h | and f h | or f h | xor f h | andn f h | shl f h | shr f h | sar f h | rotl f h
  | shl64 f h | shr64 f h | bfxZ f h | bfxI f h | bfi f h => exact vector f _ _ _ _
  | iabs f | popc f | clz f | brev f | mov f | sel f => exact nofun
  | iaddi f | movi f => rw [immS_eq]; exact word _ _ _ _
  | andi f | ori f | xori f => rw [immZ_eq]; exact word _ _ _ _
  | shli f | shri f | sari f => rw [← BitVec.toNat_setWidth_of_le (b := f.n) (w' := 32) (by decide)]; exact word _ _ _ _

theorem IntRow.performs (h : IntRow x i o g) (hs : x.Stands s) : x.Performs o g (exec i s) := by
  cases h with
  | iadd f h => exact int32Op_performs hs h fun _ a b _ => ofInt_add_toNat a b
  | isub f h => exact int32Op_performs hs h fun _ a b _ => ofInt_sub_toNat a b
  | imul f h => exact int32Op_performs hs h fun _ a b _ => ofInt_mul_toNat a b
  | imulhI f h => exact int32Op_performs hs h fun _ a b _ => ofInt_mulh_sx a b
  | imulhZ f h => exact int32Op_performs hs h fun _ a b _ => ofInt_mulh_toNat a b
  | iminI f h => exact int32Op_performs hs h fun _ a b _ => ofInt_min_sx a b
  | imaxI f h => exact int32Op_performs hs h fun _ a b _ => ofInt_max_sx a b
  | iminZ f h => exact int32Op_performs hs h fun _ a b _ => ofInt_min_toNat a b
  | imaxZ f h => exact int32Op_performs hs h fun _ a b _ => ofInt_max_toNat a b
  | iabs f => exact unary_performs hs fun _ a _ _ => ofInt_abs_sx a
  | iaddSatI f h => exact int32Op_performs hs h fun _ a b _ => ofInt_addSat_sx a b
  | isubSatI f h => exact int32Op_performs hs h fun _ a b _ => ofInt_subSat_sx a b
  | iadd64 f h => exact vec3_performs hs h (.of_fn64 fun _ a b _ _ => ofInt_add_toNat a b)
  | isub64 f h => exact vec3_performs hs h (.of_fn64 fun _ a b _ _ => ofInt_sub_toNat a b)
  | imulWideI f h => exact vec3_performs hs h (.of_fn64 fun _ a b _ fits => by
      rw [← toNat_loWord (fits.a rfl), ← toNat_loWord (fits.b rfl), sx_toNat, sx_toNat])
  | imulWideZ f h => exact vec3_performs hs h (.of_fn64 fun _ a b _ fits => by
      rw [toNat_loWord (fits.a rfl), toNat_loWord (fits.b rfl), ← BitVec.ofInt_natCast, Nat.cast_mul])
  | and f h => exact int32Op_performs hs h fun _ a b _ => ofInt_and_toNat a b
  | or f h => exact int32Op_performs hs h fun _ a b _ => ofInt_or_toNat a b
  | xor f h => exact int32Op_performs hs h fun _ a b _ => ofInt_xor_toNat a b
  | andn f h => exact int32Op_performs hs h fun _ a b _ => ofInt_andn_toNat a b
  | shl f h => exact int32Op_performs hs h fun _ a b _ => ofInt_shl a b
  | shr f h => exact int32Op_performs hs h fun _ a b _ => ofInt_shr a b
  | sar f h => exact int32Op_performs hs h fun _ a b _ => ofInt_sar a b
  | rotl f h => exact int32Op_performs hs h fun _ a b _ => ofInt_rotl a b
  | shl64 f h => exact vec3_performs hs h (.of_fn64 fun _ a b _ fits => by rw [← ofInt_shl, toNat_loWord (fits.b rfl)])
  | shr64 f h => exact vec3_performs hs h (.of_fn64 fun _ a b _ fits => by rw [← ofInt_shr, toNat_loWord (fits.b rfl)])
  | popc f => exact unary_performs hs fun _ a _ _ => ofInt_popCount a
  | clz f => exact unary_performs hs fun _ a _ _ => ofInt_clz a
  | brev f => exact unary_performs hs fun _ a _ _ => ofInt_reverse a
  | bfxZ f h => exact int32Op_performs hs h fun _ a b _ => ofInt_field a b
  | bfxI f h => exact int32Op_performs hs h fun _ a b _ => ofInt_sxNat_field a b
  | bfi f h => exact vec3_performs hs h (.of_words rfl rfl rfl (fun _ _ _ _ => rfl) fun _ a b d => by
      rw [ofInt_bfi]
      exact BitVec.setWidth_setWidth_of_le _ (by decide))
  | iaddi f => exact imm9s_performs hs fun _ a b _ => ofInt_add_toNat a b
  | andi f => exact imm9z_performs hs fun _ a b _ => ofInt_and_toNat a b
  | ori f => exact imm9z_performs hs fun _ a b _ => ofInt_or_toNat a b
  | xori f => exact imm9z_performs hs fun _ a b _ => ofInt_xor_toNat a b
  | shli f => exact shiftImm_performs hs fun _ a b _ => ofInt_mul_two_pow a b.toNat
  | shri f => exact shiftImm_performs hs fun _ a b _ => ofInt_div_two_pow a b.toNat
  | sari f => exact shiftImm_performs hs fun _ a b _ => ofInt_sx_div_two_pow a b.toNat
  | movi f => exact imm9s_performs hs fun _ _ b _ => ofInt_toNat b
  | sel f =>
    refine ⟨_, (exec_sel s f).trans (hs.with _), .of_words rfl rfl rfl (fun _ _ _ _ => rfl) fun l a b d => ?_⟩
    split <;> exact (ofInt_toNat _).symm
  | mov f => exact vec2_performs hs (.of_words rfl rfl rfl (fun _ _ _ _ => rfl) fun _ a _ _ => (ofInt_toNat (loWord a)).symm)

/-- Settles O1: each row is a vector instruction (`IntRow.performs`) that raises nothing, and whose lanes agree with the table's exact integers
in what the destination keeps. -/
theorem integerResults : Obligations.IntegerResults := by
  intro i x o g s hrow hs hr
  obtain ⟨f, hexec, hf⟩ := hrow.performs hs
  obtain ⟨t, ht, computes⟩ := x.vector_quiet o f hr hf.quiet
  exact ⟨t, hexec.trans ht, hf.computes hrow.immFits computes, hs.state ▸ computes.mem⟩

end Sys2Proof.Rows
end

section
/-! SUPPORT. Compares: a lane's condition and the invalid it raises, the mask and the flags that the lanes leave, and the trap (05 R110 to R112, 04 R92 to R94). -/

namespace Sys2Proof.Machine

/-! ## Masks and flags, lane by lane -/

theorem getLsbD_setBit (m : Word) (l : Nat) (b : Bool) {j : Nat} (hj : j < 32) :
    (setBit m l b).getLsbD j = if j = l then b else m.getLsbD j := by
  have one : ((1 : Word) <<< l).getLsbD j = decide (j = l) := by
    rw [Bool.eq_iff_iff, ← BitVec.zero_or (x := (1 : Word) <<< l)]
    exact (getLsbD_maskOf [l] j hj).trans (by simp)
  cases b with
  | false =>
    rw [setBit, if_neg Bool.false_ne_true, BitVec.getLsbD_and, BitVec.getLsbD_not, one, decide_eq_true hj]
    by_cases h : j = l <;> simp [h]
  | true =>
    rw [setBit, if_pos rfl, BitVec.getLsbD_or, one]
    by_cases h : j = l <;> simp [h]

/-- Lanes set their bits one after another, but for those that `skip` leaves out. -/
theorem getLsbD_foldl_setBit (ls : List Nat) (skip g : Nat → Bool) (m : Word) {j : Nat} (hj : j < 32) :
    (ls.foldl (fun m l => if skip l then m else setBit m l (g l)) m).getLsbD j
      = if j ∈ ls ∧ skip j = false then g j else m.getLsbD j := by
  induction ls generalizing m with
  | nil => simp
  | cons l ls ih =>
    rw [List.foldl_cons, ih]
    have step : (if skip l then m else setBit m l (g l)).getLsbD j = if j = l ∧ skip j = false then g j else m.getLsbD j := by
      by_cases left : skip l = true
      · rw [if_pos left, if_neg]
        rintro ⟨rfl, written⟩
        exact Bool.false_ne_true (written.symm.trans left)
      · rw [if_neg left, getLsbD_setBit m l _ hj]
        by_cases h : j = l
        · subst h
          simp [left]
        · simp [h]
    rw [step]
    by_cases h : j = l <;> cases skip j <;> simp [h]

theorem Reel.flagsOf_foldl_raiseFlags (ls : List Nat) (g : Nat → Flags) (r : Reel) (j : Nat) :
    (ls.foldl (fun q l => q.raiseFlags l (g l)) r).flagsOf j = if j ∈ ls then r.flagsOf j ||| g j else r.flagsOf j := by
  induction ls generalizing r with
  | nil => simp
  | cons l ls ih =>
    rw [List.foldl_cons, ih, Reel.flagsOf_raiseFlags]
    by_cases h : j = l
    · subst h
      simp [BitVec.or_assoc]
    · simp [h]

theorem Reel.foldl_raiseFlags_rest (ls : List Nat) (g : Nat → Flags) (r : Reel) :
    ls.foldl (fun q l => q.raiseFlags l (g l)) r = { r with fflags := (ls.foldl (fun q l => q.raiseFlags l (g l)) r).fflags } := by
  induction ls generalizing r with
  | nil => rfl
  | cons l ls ih =>
    rw [List.foldl_cons, ih]
    rfl

theorem Reel.kset_rest (r : Reel) (n : Nat) (m : Word) : r.kset n m = { r with k := (r.kset n m).k } := by
  unfold Reel.kset
  split <;> rfl

/-! ## Ending with new masks and flags -/

theorem Issuer.retire_masked (x : Issuer) (k : Map Word) (fflags : Map Flags) :
    x.retire { x.reel with k := k, fflags := fflags } = .next (x.into { x.advanced x.nextPc with k := k, fflags := fflags }) :=
  x.retire_reel _

theorem Issuer.Vectors.takeTrap_masked {x : Issuer} (hv : x.Vectors) (k : Map Word) (fflags : Map Flags) (code : Nat) (word mask info : Word) :
    x.takeTrap { x.reel with k := k, fflags := fflags } code word mask info
      = .next (x.into { x.trapped x.reel word mask (info ||| BitVec.ofNat 32 code) with k := k, fflags := fflags }) :=
  x.takeTrap_vectors _ code word mask info hv.outside hv.handled

/-! ## What a compare raises -/

theorem sigFlag_invalid (a : FVal) : a.sigFlag = 0 ∨ a.sigFlag = flInvalid := by
  unfold FVal.sigFlag
  split
  · exact .inr rfl
  · exact .inl rfl

theorem sigFlags_invalid (a b : FVal) : sigFlags [a, b] = 0 ∨ sigFlags [a, b] = flInvalid := by
  rcases sigFlag_invalid a with ha | ha <;> rcases sigFlag_invalid b with hb | hb <;> simp [sigFlags, ha, hb]

/-- A floating-point compare raises nothing but invalid (05 R111). -/
theorem fCmp_invalid (c : Cond) (a b : FVal) : (fCmp c a b).2 = 0 ∨ (fCmp c a b).2 = flInvalid := by
  have quiet : (if a.isNaN || b.isNaN then flInvalid else 0) = 0 ∨ (if a.isNaN || b.isNaN then flInvalid else 0) = flInvalid := by
    split
    · exact .inr rfl
    · exact .inl rfl
  cases c with
  | eq | ne | ord | uno => exact sigFlags_invalid a b
  | lt | le | gt | ge => exact quiet

/-- Some values, all of them invalid, come to invalid. -/
theorem foldl_or_invalid {ls : List Nat} {g : Nat → Flags} (nonempty : ls ≠ []) (invalid : ∀ l ∈ ls, g l = flInvalid) :
    ls.foldl (fun a l => a ||| g l) 0 = flInvalid := by
  obtain ⟨l₀, hl₀⟩ := List.exists_mem_of_ne_nil ls nonempty
  apply BitVec.eq_of_getLsbD_eq
  intro b _
  rw [Bool.eq_iff_iff, getLsbD_foldl_or_zero]
  exact ⟨fun ⟨l, hl, hbit⟩ => invalid l hl ▸ hbit, fun hbit => ⟨l₀, hl₀, (invalid l₀ hl₀).symm ▸ hbit⟩⟩

end Sys2Proof.Machine

namespace Sys2Proof.Rows

open Sys2Proof Sys2Proof.Machine

variable {x : Issuer} {s : State} {f : CmpOp}

/-! ## A lane of a compare -/

theorem iCmp_eq_iHolds {c : Nat} (hc : c < 6) (a b : Int) : iCmp (.ofCode c) a b = iHolds c a b := by
  interval_cases c <;> simp [iCmp, iHolds, Cond.ofCode, Bool.beq_eq_decide_eq, bne]

/-- A legal word has no condition of integers but the six of R110. -/
theorem CmpOp.cond_lt_six (hf : f.ok = true) (int : f.type.toNat < 2) : f.cond.toNat < 6 := by
  simp only [CmpOp.ok, Bool.and_eq_true, Bool.or_eq_true, decide_eq_true_eq] at hf
  omega

theorem compare_eq_cmpBit (hf : f.ok = true) (fz : Bool) (a b : DWord) :
    Machine.compare f.type.toNat f.cond.toNat fz a b = cmpBit f fz a b := by
  have word : ∀ v : DWord, v.toNat % 2 ^ 32 = (loWord v).toNat := fun v => (BitVec.toNat_setWidth 32 v).symm
  have integer : f.type.toNat < 2 → ∀ m n, iCmp (.ofCode f.cond.toNat) m n = iHolds f.cond.toNat m n :=
    fun h => iCmp_eq_iHolds (CmpOp.cond_lt_six hf h)
  have types : f.type.toNat = 0 ∨ f.type.toNat = 1 ∨ f.type.toNat = 2 ∨ f.type.toNat = 3 := by omega
  rcases types with i32 | z32 | f32 | f64
  · simp only [Machine.compare, cmpBit, i32, word, sx_toNat, integer (by omega)]
  · simp only [Machine.compare, cmpBit, z32, word, integer (by omega)]
  · simp only [Machine.compare, cmpBit, f32, word]
  · simp only [Machine.compare, cmpBit, f64]

theorem cmpLane_invalid (x : Issuer) (f : CmpOp) (l : Nat) : (cmpLane x f l).2 = 0 ∨ (cmpLane x f l).2 = flInvalid := by
  unfold cmpLane cmpBit
  split
  · exact .inl rfl
  · exact .inl rfl
  · exact fCmp_invalid _ _ _
  · exact fCmp_invalid _ _ _

/-- A lane in which an enabled exception was raised raised invalid. -/
theorem cmpLane_enabled {l : Nat} {en : Flags} (h : (cmpLane x f l).2 &&& en ≠ 0) : (cmpLane x f l).2 &&& en = flInvalid := by
  rcases cmpLane_invalid x f l with quiet | invalid
  · simp [quiet] at h
  · rw [invalid] at h ⊢
    revert h
    revert en
    decide

/-! ## All lanes -/

/-- The active lanes of a compare in which an enabled invalid was raised. -/
def cmpExc (x : Issuer) (f : CmpOp) : List Nat := (laneList x.active).filter fun l => (cmpLane x f l).2 &&& enables x.reel none != 0

/-- K[kd] after the lanes of a compare but those of `cmpExc`. -/
def cmpMask (x : Issuer) (f : CmpOp) : Word :=
  let old := x.reel.kget x.split.lanes f.kd.toNat
  (laneList x.active).foldl (fun m l =>
    if (cmpExc x f).contains l then m else setBit m l (combine f.comb.toNat (old.getLsbD l) (cmpLane x f l).1)) old

/-- The reel after the lanes of a compare: every active lane's flags are set, and K[kd] is written. -/
def cmpReel (x : Issuer) (f : CmpOp) : Reel :=
  ((laneList x.active).foldl (fun q l => q.raiseFlags l (cmpLane x f l).2) x.reel).kset f.kd.toNat (cmpMask x f)

theorem mem_cmpExc {l : Nat} : l ∈ cmpExc x f ↔ x.lane l ∧ (cmpLane x f l).2 &&& enables x.reel none ≠ 0 := by
  rw [cmpExc, List.mem_filter, mem_laneList, bne_iff_ne]
  rfl

theorem cmpReel_rest (x : Issuer) (f : CmpOp) : cmpReel x f = { x.reel with k := (cmpReel x f).k, fflags := (cmpReel x f).fflags } := by
  unfold cmpReel
  rw [Reel.kset_rest, Reel.foldl_raiseFlags_rest]

theorem kget_cmpReel (x : Issuer) (f : CmpOp) (n : Nat) : (cmpReel x f).kget x.split.lanes n =
    if n = f.kd.toNat ∧ f.kd.toNat ≠ 0 then cmpMask x f else x.reel.kget x.split.lanes n := by
  rw [cmpReel, Reel.kget_kset, Reel.foldl_raiseFlags_rest]
  rfl

theorem flagsOf_cmpReel (x : Issuer) (f : CmpOp) (l : Nat) :
    (cmpReel x f).flagsOf l = if l ∈ laneList x.active then x.reel.flagsOf l ||| (cmpLane x f l).2 else x.reel.flagsOf l := by
  rw [cmpReel, Reel.kset_rest]
  exact Reel.flagsOf_foldl_raiseFlags _ _ _ l

theorem getLsbD_cmpMask (x : Issuer) (f : CmpOp) {l : Nat} (hl : l < 32) :
    (cmpMask x f).getLsbD l = if l ∈ laneList x.active ∧ (cmpExc x f).contains l = false
      then joined f.comb.toNat ((x.reel.kget x.split.lanes f.kd.toNat).getLsbD l) (cmpLane x f l).1
      else (x.reel.kget x.split.lanes f.kd.toNat).getLsbD l :=
  getLsbD_foldl_setBit _ _ _ _ hl

/-- The lanes that raised an enabled invalid keep their bit; every active lane's flags are set. -/
theorem cmpReel_lanes (x : Issuer) (f : CmpOp) : CmpLanes x f (fun l => (cmpLane x f l).2 &&& enables x.reel none ≠ 0) (cmpReel x f) := by
  refine ⟨fun hkd l hl hout => ?_, fun l hl hkept => ?_, fun n hn => ?_, fun l hl => ?_, fun l hl => ?_⟩
  · have named : f.kd.toNat ≠ 0 := fun h => hkd (BitVec.eq_of_toNat_eq h)
    have quiet : (cmpExc x f).contains l = false := by simpa [mem_cmpExc] using fun _ => hout
    rw [kget_cmpReel, if_pos ⟨rfl, named⟩, getLsbD_cmpMask x f (BitVec.lt_of_getLsbD hl), if_pos ⟨(mem_laneList _ _).2 hl, quiet⟩]
  · rw [kget_cmpReel]
    split
    · rw [getLsbD_cmpMask x f hl, if_neg]
      rintro ⟨active, quiet⟩
      have lane : x.lane l := (mem_laneList _ _).1 active
      have trapped := mem_cmpExc.2 ⟨lane, hkept.resolve_left (not_not.2 lane)⟩
      simp [trapped] at quiet
    · rfl
  · rw [kget_cmpReel, if_neg]
    rintro ⟨rfl, h0⟩
    exact hn.elim (· rfl) h0
  · rw [flagsOf_cmpReel, if_pos ((mem_laneList _ _).2 hl)]
  · rw [flagsOf_cmpReel, if_neg fun h => hl ((mem_laneList _ _).1 h)]

/-- The registers of a compare are legal as the model checks them. -/
theorem CmpUse.vb_ok (hu : CmpUse x f) :
    (if f.sb = 1 then !(f.type == 3) || isEven f.vb else vregOk x.block.desc.vregs (f.type == 3) f.vb.toNat) = true := by
  have hvb := hu.vb
  split at hvb
  next uniform =>
    rw [if_pos uniform, Bool.or_eq_true, Bool.not_eq_true', beq_eq_false_iff_ne, isEven_iff]
    exact Decidable.not_or_of_imp hvb
  next vector => rwa [if_neg vector]

/-- A compare with legal registers, on some lane. -/
theorem CmpUse.exec_cmp (hu : CmpUse x f) (hs : x.Stands s) :
    exec (.cmp f) s =
      if cmpExc x f = [] then x.retire (cmpReel x f)
      else x.takeTrap (cmpReel x f) 1 x.cur.bundle.word (maskOf (cmpExc x f))
        (excInfo ((cmpExc x f).foldl (fun a l => a ||| ((cmpLane x f l).2 &&& enables x.reel none)) 0)) := by
  have lane : ∀ l, Machine.compare f.type.toNat f.cond.toNat (flushes x.reel none) (x.reel.vread (f.type == 3) f.va.toNat l)
      (if f.sb = 1 then (if f.type == 3 then x.reel.spair f.vb.toNat else (x.reel.sget f.vb.toNat).setWidth 64)
        else x.reel.vread (f.type == 3) f.vb.toNat l) = cmpLane x f l := by
    intro l
    rw [compare_eq_cmpBit hu.ok, cmpLane, cmpB]
    simp only [beq_iff_eq]
  rw [Machine.exec_cmp, execCmp, hs.with]
  dsimp only
  rw [hu.ok, hu.va, hu.vb_ok]
  simp only [lane, hu.active, Bool.and_self, Bool.not_true, Bool.false_eq_true, if_false]
  rfl

theorem exec_cmp_illegal (hs : x.Stands s) (hf : f.ok = false) : exec (.cmp f) s = x.illegal := by
  rw [Machine.exec_cmp, execCmp, hs.with, hf]
  rfl

/-- `ord` and `uno` are no conditions of integers. -/
theorem CmpOp.not_ok_of_ord (int : f.type.toNat < 2) (ord : 6 ≤ f.cond.toNat) : f.ok = false := by
  by_contra legal
  exact absurd (CmpOp.cond_lt_six (Bool.not_eq_false _ ▸ legal) int) (by omega)

/-- `xkind` of a compare's trap: cause 1 with invalid (04 R93). -/
theorem cmpExc_xkind (trapping : cmpExc x f ≠ []) :
    excInfo ((cmpExc x f).foldl (fun a l => a ||| ((cmpLane x f l).2 &&& enables x.reel none)) 0) ||| BitVec.ofNat 32 1 = 0x101 := by
  rw [foldl_or_invalid trapping fun l hl => cmpLane_enabled (mem_cmpExc.1 hl).2]
  rfl

/-- Settles O4: `cmpReel` is the reel after a compare's lanes, with which it retires or takes its trap (`CmpUse.exec_cmp`). -/
theorem compareResults : Obligations.CompareResults := by
  intro f x s hs
  have lanes := cmpReel_lanes x f
  refine ⟨fun hu quiet => ?_, fun l₀ hu hv hl₀ raised => ?_, fun int ord hv => ?_⟩
  · have untrapped : cmpExc x f = [] := List.eq_nil_iff_forall_not_mem.2 fun l hl => quiet l (mem_cmpExc.1 hl).1 (mem_cmpExc.1 hl).2
    have run : exec (.cmp f) s = .next (x.into { x.advanced x.nextPc with k := (cmpReel x f).k, fflags := (cmpReel x f).fflags }) := by
      rw [hu.exec_cmp hs, if_pos untrapped, cmpReel_rest, x.retire_masked]
    exact ⟨_, run, rfl,
      ⟨fun hkd l hl _ => lanes.bit hkd l hl (quiet l hl), fun l hl kept => lanes.kept l hl (kept.imp_right False.elim), lanes.others, lanes.flags,
        lanes.flagsKept⟩, hs.state ▸ rfl⟩
  · have trapping : cmpExc x f ≠ [] := List.ne_nil_of_mem (mem_cmpExc.2 ⟨hl₀, raised⟩)
    have run : exec (.cmp f) s = .next (x.into { x.trapped x.reel x.cur.bundle.word (maskOf (cmpExc x f)) 0x101 with
        k := (cmpReel x f).k, fflags := (cmpReel x f).fflags }) := by
      rw [hu.exec_cmp hs, if_neg trapping, cmpReel_rest, hv.takeTrap_masked, cmpExc_xkind trapping]
    exact ⟨_, _, run, rfl, fun l hl => (getLsbD_maskOf _ l hl).trans mem_cmpExc,
      ⟨lanes.bit, lanes.kept, lanes.others, lanes.flags, lanes.flagsKept⟩⟩
  · rw [exec_cmp_illegal hs (CmpOp.not_ok_of_ord int ord)]
    exact hv.takeTrap 2 _ _

end Sys2Proof.Rows
end
